-- ==== Sys2Proof/Word.lean ====
section
/-! DEFINITION. The word types of the XD-4816 and their plainest arithmetic. -/

namespace Sys2Proof

abbrev Byte := BitVec 8
abbrev B16 := BitVec 16
abbrev W32 := BitVec 32
abbrev W64 := BitVec 64
/-- An 80-bit generic address or program counter (R28, R209, R331). -/
abbrev Addr80 := BitVec 80
/-- A 1024-bit line or 128-byte block, little-endian as R3 says. -/
abbrev Line := BitVec 1024

/-- Bits [hi:lo] of a word (R3: both ends included). -/
def bits {n : Nat} (x : BitVec n) (hi lo : Nat) : BitVec (hi - lo + 1) := x.extractLsb hi lo

/-- Bits [hi:lo] of a word as a number. -/
def field {n : Nat} (x : BitVec n) (hi lo : Nat) : Nat := (x.extractLsb hi lo).toNat

/-- Bit i of a word. -/
def bit {n : Nat} (x : BitVec n) (i : Nat) : Bool := x.getLsbD i

/-- The 64-bit value of a register pair: the even register holds bits [31:0] (R34). -/
def pair64 (lo hi : W32) : W64 := hi ++ lo

def lo32 (x : W64) : W32 := x.extractLsb' 0 32
def hi32 (x : W64) : W32 := x.extractLsb' 32 32

/-- Byte i of a word, byte 0 being bits [7:0] (R3). -/
def byteOf {n : Nat} (x : BitVec n) (i : Nat) : Byte := x.extractLsb' (8 * i) 8

/-- The little-endian bytes of a word (R3). -/
def toBytes {n : Nat} (x : BitVec n) (k : Nat) : List Byte := (List.range k).map (byteOf x)

/-- The little-endian value of bytes (R3). -/
def ofBytesNat : List Byte → Nat
  | [] => 0
  | b :: bs => b.toNat + 256 * ofBytesNat bs

def ofBytes (n : Nat) (bs : List Byte) : BitVec n := BitVec.ofNat n (ofBytesNat bs)

/-- Seat masks are 32-bit words; the seats of a mask in ascending order. -/
def seats (m : W32) : List Nat := (List.range 32).filter (fun s => m.getLsbD s)

/-- The lowest seat of a mask. -/
def lowSeat (m : W32) : Option Nat := (seats m).head?

/-- A mask from a list of seats. -/
def maskOf : List Nat → W32
  | [] => 0
  | s :: ss => (1#32 <<< s) ||| maskOf ss

/-- Twos complement reading of the low `n` bits of a number. -/
def signedNat (n x : Nat) : Int :=
  let y := x % 2 ^ n
  if n = 0 then 0 else if y ≥ 2 ^ (n - 1) then (y : Int) - (2 ^ n : Nat) else (y : Int)

/-- The low `n` bits of an integer, modulo 2^n. -/
def wrapInt (n : Nat) (x : Int) : Nat := (x % ((2 ^ n : Nat) : Int)).toNat

end Sys2Proof
end

