-- ==== Sys2Proof/Syntax.lean ====
section
/-! DEFINITION. The syntax: register fields, operand records of the seven instruction formats, and the one inductive of all rows of the opcode table (instructions, traversal micro-operations, and the events and commands the table lists). -/

namespace Sys2Proof

/-- The special sources, field values 448 to 461 in this order (R36). -/
inductive Special where
  | tid | wid | seat | teamx | teamy | teamz | role | core | cluster | die | cvseq | clock | clockhi | cause
  deriving DecidableEq, Repr, Inhabited

/-- What a 9-bit register field names (R32). -/
inductive Src where
  /-- v0 to v383 -/
  | v (r : Fin 384)
  /-- w0 to w63 -/
  | w (r : Fin 64)
  /-- a special source -/
  | sr (s : Special)
  /-- an inline constant, field value 480 + k (R33) -/
  | inl (k : Fin 32)
  deriving DecidableEq, Repr, Inhabited

/-- The field value 0, which an unused field holds (R63). -/
abbrev Src.zero : Src := .v 0

/-- The guard: bit 55 negate, bits [54:52] predicate (R44, R52). -/
structure Guard where
  neg : Bool
  p : Fin 8
  deriving DecidableEq, Repr, Inhabited

/-- What every word carries: the switch marker and the guard (R50). -/
structure Hdr where
  sw : Bool
  g : Guard
  deriving DecidableEq, Repr, Inhabited

/-- Rounding modes, coded in this order (R52). -/
inductive Rnd where
  | rn | rz | ru | rd
  deriving DecidableEq, Repr, Inhabited

/-- Type codes 0 to 17 in this order; `none` is code 0 (R53). -/
inductive Ty where
  | none | i8 | i16 | i32 | i64 | n8 | n16 | n32 | n64 | b32 | f32 | f16x2 | bf16x2 | e4m3 | e5m2 | e2m1 | e8m0 | xs16
  deriving DecidableEq, Repr, Inhabited

/-- Orderings, coded in this order (R56). -/
inductive Ord where
  | plain | acq | rel | acqrel
  deriving DecidableEq, Repr, Inhabited

/-- Scopes 0 to 7 in this order (R225). -/
inductive Scope where
  | thread | warp | team | core | cluster | die | module | system
  deriving DecidableEq, Repr, Inhabited

/-- Integer comparisons 0 to 5 in this order (R68, R113). -/
inductive ICmp where
  | eq | ne | lt | le | gt | ge
  deriving DecidableEq, Repr, Inhabited

/-- Float comparisons 0 to 13 in this order (R68, R129). -/
inductive FCmp where
  | eq | ne | lt | le | gt | ge | num | nan | equ | neu | ltu | leu | gtu | geu
  deriving DecidableEq, Repr, Inhabited

/-- `xch` modes, minors 0 to 3 (R67). -/
inductive XchMode where
  | abs | rot | sh | mir
  deriving DecidableEq, Repr, Inhabited

/-- `agr` modes, minors 0 to 3 (R67). -/
inductive AgrMode where
  | every | some | none | same
  deriving DecidableEq, Repr, Inhabited

/-- `scan` operations (R67). -/
inductive ScanOp where
  | add | min | max
  deriving DecidableEq, Repr, Inhabited

/-- `redw` operations, minors 0 to 5 (R67). -/
inductive RedOp where
  | add | min | max | and | or | xor
  deriving DecidableEq, Repr, Inhabited

/-- Atomic operations, field values 0 to 8 (R57). -/
inductive AtomOp where
  | add | min | max | and | or | xor | exch | inc | dec
  deriving DecidableEq, Repr, Inhabited

/-- Conditions of the micro-operation `jif`, 0 to 7 in this order (R192). -/
inductive JifCond where
  | leaf | inner | hit | nohit | cz | cnz | found | empty
  deriving DecidableEq, Repr, Inhabited

/-- Operands of an R-format word (R52). A field an instruction does not use is zero. -/
structure ROp where
  h : Hdr
  d : Src
  a : Src
  b : Src
  c : Src
  rnd : Rnd
  ftz : Bool
  ty : Ty
  deriving DecidableEq, Repr, Inhabited

/-- Operands of `setp` and `fsetp` (R54). -/
structure POp where
  h : Hdr
  pd : Fin 8
  a : Src
  b : Src
  ftz : Bool
  ty : Ty
  deriving DecidableEq, Repr, Inhabited

/-- Operands of `pfn` (R54, R114). -/
structure PfnOp where
  h : Hdr
  pd : Fin 8
  pa : Fin 8
  pb : Fin 8
  pc : Fin 8
  tab : Byte
  deriving DecidableEq, Repr, Inhabited

/-- Operands of an I-format word (R55). -/
structure IOp where
  h : Hdr
  d : Src
  a : Src
  imm : W32
  deriving DecidableEq, Repr, Inhabited

/-- Operands of an M-format word (R56, R57). `dir` is bit 30 of the access code; `b` is the register operand where there is one. -/
structure MOp where
  h : Hdr
  d : Src
  a : Src
  b : Src
  ty : Ty
  dir : Bool
  ord : Ord
  scope : Scope
  evict : Fin 8
  xsel : Fin 8
  off : BitVec 14
  deriving DecidableEq, Repr, Inhabited

/-- Operands of a B-format word (R59): link pair, condition, displacement in words. -/
structure BOp where
  h : Hdr
  link : Src
  cond : Guard
  disp : W32
  deriving DecidableEq, Repr, Inhabited

/-- Operands of an X-format word (R60). -/
structure XOp where
  h : Hdr
  d : Src
  a : Src
  b : Src
  c : Src
  xa : Fin 8
  xb : Fin 8
  scope : Scope
  deriving DecidableEq, Repr, Inhabited

/-- Operands of a W-format double word (R61). -/
structure WOp where
  h : Hdr
  d : Src
  a : Src
  imm : W64
  deriving DecidableEq, Repr, Inhabited

/-- `fence` (R69, R259). -/
structure FenceOp where
  h : Hdr
  ord : Ord
  scope : Scope
  deriving DecidableEq, Repr, Inhabited

/-- `fence.x`: source and destination path masks, bit 0 T to bit 6 X (R69, R260). -/
structure FenceXOp where
  h : Hdr
  ps : BitVec 7
  pd : BitVec 7
  scope : Scope
  deriving DecidableEq, Repr, Inhabited

/-- `ret.set`: start pointer pair, length register and address-high select (R262). -/
structure RetOp where
  h : Hdr
  a : Src
  b : Src
  j : Fin 8
  deriving DecidableEq, Repr, Inhabited

/-- A 64-byte command as it is written to the command buffer or the debug mailbox of function `func` (R361, R451). -/
structure CmdBuf where
  func : Nat
  w : BitVec 512
  deriving DecidableEq, Repr, Inhabited

/-- Where a soft error strikes (R453): the storage number, or 8 for a structure held in three copies, 9 the secure core's memory, 10 the scheduling core's memory (R460, R461); the die; the line (physical address / 128); the thread of a register, the team of a scratchpad word, the core of an L1 line, the number of a ray; the register or word. -/
structure ErrorSite where
  storage : Nat
  die : Nat
  line : Nat
  owner : Nat
  index : Nat
  deriving DecidableEq, Repr, Inhabited

/-- Every row of the opcode table. -/
inductive Instr where
  /-- No operation; issues with no effect. (R355) -/
  | nop (o : ROp)
  /-- Per-thread conditional direct branch to a block header. (R349) -/
  | bra (o : BOp)
  /-- Uniform branch taking its condition from the lowest-seated active thread, with a uniformity check in checked mode. (R351) -/
  | bru (o : BOp)
  /-- Indirect branch to a per-thread target pair. (R349) -/
  | brx (o : ROp)
  /-- Conditional direct call that writes the return address to a link pair. (R349) -/
  | call (o : BOp)
  /-- Indirect call that writes the return address and enters a per-thread target. (R349) -/
  | callx (o : ROp)
  /-- Return to the header held in a link pair. (R349) -/
  | ret (o : ROp)
  /-- Ends each active thread and discards its outstanding results. (R352) -/
  | exit (o : ROp)
  /-- Ends the warp's turn and gives each active thread a yield mark. (R353) -/
  | yield (o : ROp)
  /-- Convergent barrier among the threads named by a participant mask. (R354) -/
  | cvg (o : ROp)
  /-- Writes a 64-bit immediate to a register pair (W format). (R116) -/
  | mov64 (o : WOp)
  /-- 64-bit add of a 64-bit immediate (W format). (R119) -/
  | addW (o : WOp)
  /-- 64-bit bitwise AND with a 64-bit immediate. (R119) -/
  | andW (o : WOp)
  /-- 64-bit bitwise OR with a 64-bit immediate. (R119) -/
  | orW (o : WOp)
  /-- 64-bit bitwise XOR with a 64-bit immediate. (R119) -/
  | xorW (o : WOp)
  /-- Integer add, wrapping modulo 2^n. (R106) -/
  | add (o : ROp)
  /-- Integer subtract, wrapping modulo 2^n. (R106) -/
  | sub (o : ROp)
  /-- Integer negate, wrapping. (R106) -/
  | neg (o : ROp)
  /-- 32-bit add with carry-in and carry-out to a pair. (R106) -/
  | addc (o : ROp)
  /-- 32-bit subtract with borrow-in and borrow-out to a pair. (R106) -/
  | subb (o : ROp)
  /-- Saturating integer absolute value. (R106) -/
  | abs (o : ROp)
  /-- Integer minimum in the type's signedness. (R106) -/
  | min (o : ROp)
  /-- Integer maximum in the type's signedness. (R106) -/
  | max (o : ROp)
  /-- Sum of absolute difference and an accumulator. (R106) -/
  | sad (o : ROp)
  /-- Integer multiply, low half. (R106) -/
  | mul (o : ROp)
  /-- Integer multiply, high half. (R106) -/
  | mulh (o : ROp)
  /-- Integer multiply-add, wrapping. (R106) -/
  | mad (o : ROp)
  /-- 32x32 multiply plus a 64-bit accumulator to a pair. (R106) -/
  | madw (o : ROp)
  /-- Four-way byte dot product plus an accumulator. (R106) -/
  | dot4 (o : ROp)
  /-- Integer division with fixed results for division by zero and overflow. (R108) -/
  | div (o : ROp)
  /-- Integer remainder with the sign of the dividend. (R108) -/
  | rem (o : ROp)
  /-- Bitwise AND. (R109) -/
  | and (o : ROp)
  /-- Bitwise OR. (R109) -/
  | or (o : ROp)
  /-- Bitwise XOR. (R109) -/
  | xor (o : ROp)
  /-- Three-input bitwise function given by a truth table. (R109) -/
  | bitf (tab : Byte) (o : ROp)
  /-- Logical shift left. (R110) -/
  | shl (o : ROp)
  /-- Logical shift right. (R110) -/
  | shr (o : ROp)
  /-- Arithmetic shift right. (R110) -/
  | sar (o : ROp)
  /-- 32-bit funnel shift of two registers. (R110) -/
  | shf (o : ROp)
  /-- Bit-field extract, signed or unsigned. (R111) -/
  | bfe (o : ROp)
  /-- Bit-field insert. (R111) -/
  | bfi (o : ROp)
  /-- Byte permute with optional sign replication. (R111) -/
  | prmt (o : ROp)
  /-- Population count. (R112) -/
  | popc (o : ROp)
  /-- Count of leading zeros. (R112) -/
  | clz (o : ROp)
  /-- Count of trailing zeros. (R112) -/
  | ctz (o : ROp)
  /-- Bit reverse. (R112) -/
  | brev (o : ROp)
  /-- Selects one of two sources by a predicate. (R115) -/
  | sel (neg : Bool) (p : Fin 8) (o : ROp)
  /-- Integer compare that writes a predicate. (R113) -/
  | setp (cmp : ICmp) (o : POp)
  /-- Three-input predicate function given by a truth table. (R114) -/
  | pfn (o : PfnOp)
  /-- Copies a register, a special source or an inline constant. (R116) -/
  | mov (o : ROp)
  /-- Forms a 64-bit pointer from a base pair plus a shifted index. (R117) -/
  | lea (o : ROp)
  /-- 32-bit add of an immediate (I format). (R118) -/
  | addI (o : IOp)
  /-- 32-bit multiply by an immediate. (R118) -/
  | mulI (o : IOp)
  /-- Bitwise AND with an immediate. (R118) -/
  | andI (o : IOp)
  /-- Bitwise OR with an immediate. (R118) -/
  | orI (o : IOp)
  /-- Bitwise XOR with an immediate. (R118) -/
  | xorI (o : IOp)
  /-- Shift left by an immediate amount. (R118) -/
  | shlI (o : IOp)
  /-- Logical shift right by an immediate amount. (R118) -/
  | shrI (o : IOp)
  /-- Arithmetic shift right by an immediate amount. (R118) -/
  | sarI (o : IOp)
  /-- Signed or unsigned minimum with an immediate. (R118) -/
  | minI (unsigned : Bool) (o : IOp)
  /-- Signed or unsigned maximum with an immediate. (R118) -/
  | maxI (unsigned : Bool) (o : IOp)
  /-- Writes a 32-bit immediate. (R116) -/
  | movi (o : IOp)
  /-- Float add rounded once. (R126) -/
  | fadd (o : ROp)
  /-- Float multiply rounded once. (R126) -/
  | fmul (o : ROp)
  /-- Fused multiply-add with one rounding. (R126) -/
  | ffma (o : ROp)
  /-- Float minimum with NaN and signed-zero rules. (R128) -/
  | fmin (o : ROp)
  /-- Float maximum with NaN and signed-zero rules. (R128) -/
  | fmax (o : ROp)
  /-- Float compare, ordered or unordered, that writes a predicate. (R129) -/
  | fsetp (cmp : FCmp) (o : POp)
  /-- Correctly rounded float division. (R132) -/
  | fdiv (o : ROp)
  /-- Correctly rounded reciprocal. (R132) -/
  | frcp (o : ROp)
  /-- Correctly rounded reciprocal square root. (R132) -/
  | frsq (o : ROp)
  /-- Correctly rounded square root. (R132) -/
  | fsqrt (o : ROp)
  /-- Correctly rounded base-2 exponential. (R132) -/
  | fex2 (o : ROp)
  /-- Correctly rounded base-2 logarithm. (R132) -/
  | flg2 (o : ROp)
  /-- Correctly rounded sin(pi*A). (R132) -/
  | fsin (o : ROp)
  /-- Correctly rounded cos(pi*A). (R132) -/
  | fcos (o : ROp)
  /-- Correctly rounded hyperbolic tangent. (R132) -/
  | ftnh (o : ROp)
  /-- Rounds to an integral value in the same format. (R131) -/
  | frnd (o : ROp)
  /-- Two-element FP16 or BF16 dot product plus FP32 with one rounding. (R127) -/
  | fdot2 (o : ROp)
  /-- Writes a one-hot classification mask per element. (R130) -/
  | fclass (o : ROp)
  /-- Converts between numeric formats with rounding and substitutes. (R136) -/
  | cvt (sub : Fin 4) (src : Ty) (o : ROp)
  /-- Packs the low halves of two registers. (R137) -/
  | pack (o : ROp)
  /-- Computes a block scale and quantises a block of FP32 values. (R138) -/
  | qnt (sub : Fin 4) (xs : Bool) (o : ROp)
  /-- Dequantises one scaled element to FP32. (R140) -/
  | dqn (xs : Bool) (o : ROp)
  /-- FP32 add of an immediate pattern. (R134) -/
  | faddI (rnd : Rnd) (o : IOp)
  /-- FP32 multiply by an immediate pattern. (R134) -/
  | fmulI (rnd : Rnd) (o : IOp)
  /-- FP32 minimum with an immediate pattern. (R134) -/
  | fminI (o : IOp)
  /-- FP32 maximum with an immediate pattern. (R134) -/
  | fmaxI (o : IOp)
  /-- Cross-thread exchange in abs, rot, sh or mir mode; the arriving thread parks. (R149) -/
  | xch (m : XchMode) (o : ROp)
  /-- Cross-thread agreement vote. (R150) -/
  | agr (m : AgrMode) (o : ROp)
  /-- Ballot of a condition into a seat mask. (R150) -/
  | bal (o : ROp)
  /-- Inclusive or exclusive ordered scan over named seats. (R152) -/
  | scan (op : ScanOp) (exc : Bool) (o : ROp)
  /-- Ordered warp reduction over named seats. (R152) -/
  | redw (op : RedOp) (o : ROp)
  /-- Finds the seats holding equal values. (R151) -/
  | matchSeats (all : Bool) (o : ROp)
  /-- Elects the lowest-seated named active thread. (R151) -/
  | elect (o : ROp)
  /-- Crossbar move of register groups by a pattern table. (R155) -/
  | xbar (k : Fin 16) (o : ROp)
  /-- Loads rows of a crossbar pattern table. (R154) -/
  | xbarLd (k : Fin 16) (o : ROp)
  /-- Generic load, plain or acquire. (R248) -/
  | ld (o : MOp)
  /-- Generic store, plain or release. (R248) -/
  | st (o : MOp)
  /-- Scratchpad load. (R248) -/
  | ldl (o : MOp)
  /-- Scratchpad store. (R248) -/
  | stl (o : MOp)
  /-- Scratchpad row or column tile load. (R250) -/
  | ldlTile (o : MOp)
  /-- Atomic read-modify-write returning the old value. (R251) -/
  | atom (op : AtomOp) (o : MOp)
  /-- Atomic compare-and-exchange. (R252) -/
  | atomx (o : MOp)
  /-- Scratchpad atomic under the bank lock bits. (R251) -/
  | atl (op : AtomOp) (o : MOp)
  /-- Takes scratchpad locks, loads and opens a lock window. (R255) -/
  | ldlk (o : MOp)
  /-- Stores and releases the lock window's locks. (R255) -/
  | stul (o : MOp)
  /-- Prefetches a line into L2 and L1. (R257) -/
  | prf (o : MOp)
  /-- Writes back a cache line at the named scope. (R258) -/
  | clWb (o : MOp)
  /-- Publishes and invalidates a cache line at the named scope. (R258) -/
  | clInv (o : MOp)
  /-- Orders the thread's path-T accesses at a scope. (R259) -/
  | fence (o : FenceOp)
  /-- Cross-path fence from source paths to destination paths. (R260) -/
  | fenceX (o : FenceXOp)
  /-- Parks the thread until the team's phase boundary. (R261) -/
  | phase (h : Hdr)
  /-- Sets an L2 retention range of the context. (R262) -/
  | retSet (k : Fin 4) (o : RetOp)
  /-- Clears an L2 retention range. (R262) -/
  | retClr (k : Fin 4) (h : Hdr)
  /-- Arms a scratchpad chamber. (R290) -/
  | chbInit (o : ROp)
  /-- Raises a chamber's byte target. (R290) -/
  | chbExpect (o : ROp)
  /-- Adds an arrival and bytes to a chamber's targets. (R290) -/
  | chbArrive (o : ROp)
  /-- Parks until a chamber's generation advances. (R291) -/
  | chbWait (o : ROp)
  /-- Reads a chamber's state word without parking. (R291) -/
  | chbTest (o : ROp)
  /-- Disarms and zeroes a chamber. (R290) -/
  | chbRetire (o : ROp)
  /-- Adds an amount to a gauge. (R294) -/
  | gAdd (o : MOp)
  /-- Waits until a gauge reaches a target. (R294) -/
  | gWait (o : MOp)
  /-- Reads a gauge. (R294) -/
  | gRead (o : MOp)
  /-- Per-thread element copy coalesced into barges. (R268) -/
  | cpEl (wlog : Fin 3) (o : XOp)
  /-- Issues block copy requests from request packets. (R270) -/
  | cpBlk (o : XOp)
  /-- Arms or disarms an ingress window. (R281) -/
  | cpIng (o : XOp)
  /-- Issues matrix operations from parameter blocks. (R168) -/
  | mxIssue (o : XOp)
  /-- Reads the live status of a matrix operation. (R178) -/
  | mxStat (o : XOp)
  /-- Requests the abort of a matrix operation. (R178) -/
  | mxAbort (o : XOp)
  /-- Installs a traversal layout and microcode binding. (R197) -/
  | trvBind (o : XOp)
  /-- Starts one ray per active thread. (R198) -/
  | trvCast (o : XOp)
  /-- Writes a snapshot of a ray's result. (R199) -/
  | trvPoll (o : XOp)
  /-- Parks until a ray leaves the running state, then collects it. (R199) -/
  | trvRes (o : XOp)
  /-- Applies an any-hit decision to a paused ray. (R201) -/
  | trvCont (o : XOp)
  /-- Requests the save of a ray to its area. (R202) -/
  | trvSave (o : XOp)
  /-- Resumes a ray from its ray-state record. (R203) -/
  | trvLoad (o : XOp)
  /-- Opens a scratchpad subscription from a descriptor. (R300) -/
  | subOpen (o : XOp)
  /-- Closes a subscription after delivering its batches. (R310) -/
  | subClose (o : XOp)
  /-- Closes the team's open batches and waits for their application. (R308) -/
  | subFlush (o : XOp)
  /-- Reads a subscription's status. (R309) -/
  | subStat (o : XOp)
  /-- Writes or checks a MARK record in record or replay mode. (R328) -/
  | logMark (o : ROp)
  /-- Submits a launch record from a program. (R373) -/
  | lnch (o : XOp)
  /-- Appends a record to a record queue. (R375) -/
  | rqPut (o : XOp)
  /-- Takes the next record of the team's range. (R375) -/
  | rqGet (o : XOp)
  /-- Marks the team's record range done. (R375) -/
  | rqDone (o : XOp)
  /-- Reads a control register. (R444) -/
  | csrRd (o : IOp)
  /-- Writes a control register. (R444) -/
  | csrWr (o : IOp)
  /-- Records a software-trap cause. (R445) -/
  | trap (o : IOp)
  /-- Returns from the trap handler once every thread arrives. (R446) -/
  | tret (o : ROp)
  /-- Records a brk debug cause. (R447) -/
  | brk (o : ROp)
  /-- Halts the team for debug when a debugger is attached. (R447) -/
  | halt (o : ROp)
  /-- Traversal micro-operation with no effect. (R192) -/
  | uopNop
  /-- Reads node N into the ray's buffer. (R192) -/
  | uopFetch
  /-- Tests the buffered node's child boxes and sets the hit mask. (R185) -/
  | uopBox
  /-- Orders hit children by tnear. (R192) -/
  | uopSort (desc : Bool)
  /-- Pushes the hit children's entries. (R192) -/
  | uopPushh
  /-- Pushes the current entry N. (R192) -/
  | uopPushn
  /-- Takes the first hit child as N. (R192) -/
  | uopTake
  /-- Pops the stack into N, or jumps when the stack is empty. (R192) -/
  | uopPop (target : Fin 64)
  /-- Tests the triangle records of leaf N. (R187) -/
  | uopTri
  /-- Jumps to a microword. (R192) -/
  | uopJmp (target : Fin 64)
  /-- Jumps when the selected condition holds. (R192) -/
  | uopJif (cond : JifCond) (target : Fin 64)
  /-- Sets the ray counter. (R192) -/
  | uopSetc (imm : Byte)
  /-- Decrements the ray counter. (R192) -/
  | uopDecc
  /-- Ends the ray with a code. (R192) -/
  | uopEnd (imm : Byte)
  /-- A write to an ingress slot's iw_bar enables or disarms the window. (R280) -/
  | iwBarWrite (func slot : Nat) (value : W64)
  /-- A 64-byte write to a queue-port slot is checked and queued or refused. (R357) -/
  | launchRecordWrite (func slot : Nat) (record : BitVec 512)
  /-- A write to er_ctl enables or disables an event ring. (R372) -/
  | erCtlWrite (func ring : Nat) (value : W64)
  /-- Software consumption frees ring room for held records. (R372) -/
  | erTailWrite (func ring : Nat) (value : W64)
  /-- A write to fr_ctl enables or disables a fault ring. (R392) -/
  | frCtlWrite (func ring : Nat) (value : W64)
  /-- Software consumption frees fault-ring room. (R392) -/
  | frTailWrite (func ring : Nat) (value : W64)
  /-- Discards a VF's work, empties its rings and destroys its keys. (R23) -/
  | functionLevelReset (func : Nat)
  /-- Sets a context's stack, world, mode bits and frame region. (R361) -/
  | cmdContext (c : CmdBuf)
  /-- Leaves record and replay modes. (R315) -/
  | cmdLogNone (c : CmdBuf)
  /-- Enters record mode with a log control block. (R319) -/
  | cmdLogRecord (c : CmdBuf)
  /-- Enters replay mode with a log control block. (R319) -/
  | cmdLogReplay (c : CmdBuf)
  /-- Binds and enables a queue. (R361) -/
  | cmdQueueEnable (c : CmdBuf)
  /-- Disables a queue. (R361) -/
  | cmdQueueDisable (c : CmdBuf)
  /-- The host writes a berth record. (R363) -/
  | cmdBerth (c : CmdBuf)
  /-- Sets per-die retention quotas. (R221) -/
  | cmdQuota (c : CmdBuf)
  /-- Sets a context's weight-store grant. (R215) -/
  | cmdGrant (c : CmdBuf)
  /-- Sets a quantum-table entry. (R368) -/
  | cmdQuantum (c : CmdBuf)
  /-- Sets the module power limit. (R25) -/
  | cmdPower (c : CmdBuf)
  /-- Moves a VF's berths between contexts as a transaction. (R369) -/
  | cmdSwitch (c : CmdBuf)
  /-- Sets a context's first-stage root and fault ring. (R387) -/
  | cmdRoot1 (c : CmdBuf)
  /-- Invalidates first-stage translations. (R387) -/
  | cmdInval1 (c : CmdBuf)
  /-- Resumes a token's work with retry. (R394) -/
  | cmdResumeRetry (c : CmdBuf)
  /-- Ends a token's waiting work. (R394) -/
  | cmdResumeAbort (c : CmdBuf)
  /-- Sets a function's second-stage root. (R387) -/
  | cmdRoot2 (c : CmdBuf)
  /-- Invalidates second-stage translations. (R387) -/
  | cmdInval2 (c : CmdBuf)
  /-- Makes a free key id live. (R398) -/
  | cmdKeyCreate (c : CmdBuf)
  /-- Destroys a key id. (R399) -/
  | cmdKeyDestroy (c : CmdBuf)
  /-- Sets a function's private key. (R398) -/
  | cmdKeySetPrivate (c : CmdBuf)
  /-- Places a function in a sharing domain. (R405) -/
  | cmdDomainPlace (c : CmdBuf)
  /-- Sets the hash engine's bandwidth share. (R405) -/
  | cmdDomainHashShare (c : CmdBuf)
  /-- Runs host-listed merge attempts. (R409) -/
  | cmdMergeList (c : CmdBuf)
  /-- Drops a hash-directory reference. (R410) -/
  | cmdUnref (c : CmdBuf)
  /-- Forks a template function into a VF. (R419) -/
  | cmdFork (c : CmdBuf)
  /-- Sets a function's world mask. (R402) -/
  | cmdWorldMask (c : CmdBuf)
  /-- Sets a world's reserved L2 ways. (R402) -/
  | cmdWorldWays (c : CmdBuf)
  /-- Creates a collective group. (R465) -/
  | cmdGroupCreate (c : CmdBuf)
  /-- Admits a member on a verified report. (R466) -/
  | cmdGroupAdmit (c : CmdBuf)
  /-- Removes a member, which marks it changed. (R467) -/
  | cmdGroupRemove (c : CmdBuf)
  /-- Writes a group's state block. (R465) -/
  | cmdGroupQuery (c : CmdBuf)
  /-- Dissolves a group. (R465) -/
  | cmdGroupDissolve (c : CmdBuf)
  /-- Donates frames to a die's pool. (R415) -/
  | cmdPoolDonate (c : CmdBuf)
  /-- Sets a die's sweep share. (R415) -/
  | cmdPoolSweepShare (c : CmdBuf)
  /-- Zeroes frames awaiting host-driven erasure. (R415) -/
  | cmdPoolZeroNow (c : CmdBuf)
  /-- Moves a function's tables and keys to a new home die. (R420) -/
  | cmdMove (c : CmdBuf)
  /-- Writes a signed attestation report. (R423) -/
  | cmdReport (c : CmdBuf)
  /-- Extends the function's M3 measurement. (R423) -/
  | cmdExtend (c : CmdBuf)
  /-- Attaches a context to the debugger. (R452) -/
  | mbAttach (c : CmdBuf)
  /-- Clears comparators and resumes debug-halted teams. (R452) -/
  | mbDetach (c : CmdBuf)
  /-- Sets a breakpoint comparator. (R473) -/
  | mbPointBreakpoint (c : CmdBuf)
  /-- Sets a scratchpad watchpoint comparator. (R449) -/
  | mbPointWatchpoint (c : CmdBuf)
  /-- Halts a team for debug. (R452) -/
  | mbHalt (c : CmdBuf)
  /-- Steps named warps one issue opportunity each. (R472) -/
  | mbStep (c : CmdBuf)
  /-- Clears the records and resumes a halted or parked team. (R452) -/
  | mbResume (c : CmdBuf)
  /-- Aborts a halted or parked team. (R452) -/
  | mbAbort (c : CmdBuf)
  /-- Reads a halted team's state. (R494) -/
  | mbRead (c : CmdBuf)
  /-- Writes a halted team's registers or scratchpad. (R494) -/
  | mbWrite (c : CmdBuf)
  /-- Lists halted and parked teams. (R452) -/
  | mbList (c : CmdBuf)
  /-- At the next micro-operation boundary, saves a ray's stack and record and frees its handle. (R202) -/
  | raySave (ray : Nat)
  /-- After a restore, a saved ray re-enters under its former handle as a slot frees. (R206) -/
  | rayReentry (ray : Nat)
  /-- Performs a convergent instruction once every named thread has parked with matching sequence and mask. (R142) -/
  | convergentPerform (warp : Nat) (pc : W64)
  /-- Releases a reconvergence point 4,096 issue opportunities after its earliest arrival. (R340) -/
  | reconvergenceTimeout (warp : Nat) (header : W64)
  /-- A variable-latency result is written, which may end switch-parking. (R343) -/
  | resultArrival (thread : Nat)
  /-- A thread parked in chb.wait leaves when the generation changes, with its fences. (R291) -/
  | chbWaitLeave (thread : Nat)
  /-- A parked g.wait reads again on a line change and leaves when the target is reached. (R294) -/
  | gWaitLeave (thread : Nat)
  /-- A thread parked in trv.res acts once its ray leaves the running state. (R199) -/
  | trvResLeave (thread : Nat)
  /-- Threads parked on a released scratchpad lock retry and one takes the lock. (R254) -/
  | lockRetry (warp : Nat)
  /-- The arbiter picks a ready operation, and the engine computes and drains one row step. (R159) -/
  | mxRowStep (cluster : Nat)
  /-- Stops a leaving or aborted team's operation at a row boundary and saves or ends it. (R175) -/
  | mxSave (op : Nat)
  /-- A saved operation re-enters an engine in ticket order as entries free. (R175) -/
  | mxReentry (op : Nat)
  /-- With every slot complete, checks the group is active and sums the contributions in member order. (R468) -/
  | collectiveCommit (coll : Nat)
  /-- An engine gauge add is translated and performed once at the home agent. (R492) -/
  | engineGaugeAdd (add : Nat)
  /-- The copy engine translates and issues a barge within its progress window. (R276) -/
  | bargeIssue (copy : Nat)
  /-- A home agent performs or deduplicates a tagged barge and acknowledges it. (R278) -/
  | bargePerform (copy seq : Nat)
  /-- An acknowledged barge updates the progress record and raises its chamber. (R276) -/
  | bargeAck (copy seq : Nat)
  /-- A barge or gauge add whose acknowledgement was lost is sent again with the same tag. (R279) -/
  | bargeResend (copy seq : Nat)
  /-- A retire frees a copy tag's deduplication entries. (R278) -/
  | tagRetire (copy : Nat)
  /-- A leaving team's copies drain, retire their tags and go into the frame. (R295) -/
  | copySave (copy : Nat)
  /-- Held raises and batches are applied to a saved scratchpad image once it is written. (R296) -/
  | savedImageRaise (team : Nat)
  /-- A BAR2 write inside an armed window is translated, performed on path X and signalled. (R282) -/
  | ingressWrite (func offset : Nat) (data : List Byte)
  /-- An open batch closes after 64 aclk with no forwarded write. (R304) -/
  | batchIdleClose (sub : Nat)
  /-- A closed batch is applied to the subscriber's scratchpad and raises its chamber. (R307) -/
  | batchApply (sub : Nat)
  /-- A leaving publisher's batches close and are delivered before its entries go to the frame. (R311) -/
  | publisherFlush (team : Nat)
  /-- A launch becomes eligible once earlier teams are placed and its dependence gauge is met. (R360) -/
  | launchEligible (launch : Nat)
  /-- The scheduling core offers a berth, allocates a frame and writes a berth record. (R362) -/
  | teamPlacement (launch core berth lane : Nat)
  /-- Dispatch places, refuses or pre-empts according to a berth record. (R363) -/
  | berthRecordWrite (core berth : Nat) (record : BitVec 256)
  /-- Chooses drain, flush-and-restart or save for a team. (R365) -/
  | preemptionRequest (team : Nat) (urgent : Bool)
  /-- A drain not ended within 4,096 aclk becomes a save. (R365) -/
  | drainTimeout (team : Nat)
  /-- Drains engines and writes registers and scratchpad to the frame. (R366) -/
  | teamSave (team : Nat)
  /-- Checks the frame header and restores a saved team. (R442) -/
  | teamRestore (team core berth lane : Nat)
  /-- After the last exit and the engine work, the team ends with its final boundary. (R226) -/
  | teamEnd (team : Nat)
  /-- Writes a record to an event ring when there is room and advances head. (R372) -/
  | eventRecordPost (func ring : Nat)
  /-- Signals the ring's vector once the oldest unsignalled record reaches its age. (R372) -/
  | eventRingTimer (func ring : Nat)
  /-- Writes a fault record to a fault ring when there is room. (R392) -/
  | faultRecordPost (func ring : Nat)
  /-- A time slice ends; the outgoing function is pre-empted and the next restored. (R368) -/
  | sliceEnd
  /-- A 1 ms window ends and each VF's urgent share is renewed. (R364) -/
  | urgentWindowEnd
  /-- A switch transaction still open after 2,048 aclk rolls back. (R369) -/
  | switchTimeout
  /-- The flush time passes and the remaining records launch a consumer. (R374) -/
  | rqFlushTimeout (rq : Nat)
  /-- After a cause, the team stops within the skid and an outcome is chosen. (R433) -/
  | teamHalt (team : Nat)
  /-- The secure core resolves or forwards a second-stage fault. (R390) -/
  | secondStageService (token : Nat)
  /-- Before a write to a shared sector, copies it to the private frame under the leaf lock. (R411) -/
  | sectorCopy (func : Nat) (gpa : W64)
  /-- The hash engine hashes a candidate page and merges it or enters it. (R408) -/
  | mergeAttempt (func : Nat) (gpa : W64)
  /-- Drops a frame's cached lines and sets its zero flags. (R417) -/
  | sweep (frame : Nat)
  /-- A destroyed id returns to free after the drop and sweep finish. (R399) -/
  | keyIdFree (id : Nat)
  /-- Moves one page of a moved function to its new die. (R420) -/
  | lazyPageTransfer (func : Nat)
  /-- An invalidation completes when no cache holds the range and its accesses are done. (R388) -/
  | invalidationComplete (func : Nat)
  /-- A weight-store bank group is refreshed in turn. (R217) -/
  | wsBankRefresh (die group : Nat)
  /-- The background scrub visits lines and writes back corrections. (R454) -/
  | memoryScrub (line : Nat)
  /-- Uncorrectable data without a clean copy is poisoned and charged. (R456) -/
  | uncorrectableError (e : ErrorSite)
  /-- The secure core verifies and restarts the scheduling core. (R461) -/
  | schedCoreRestart
  /-- Every 4,096 aclk of a stall, re-reads tail. (R320) -/
  | logTailReread (func ctx : Nat)
  /-- Each 1 ms, sends a heartbeat to the group members. (R467) -/
  | heartbeatSend
  /-- A heartbeat is compared and may mark its member changed. (R467) -/
  | heartbeatReceive (group member resets : Nat) (digest : BitVec 512)
  /-- No heartbeat for 8,800,000 aclk marks the member changed. (R467) -/
  | heartbeatTimeout (group member : Nat)
  /-- The secure core boots and verifies the firmware. (R22) -/
  | moduleReset
  /-- The scheduling core reports it is running and ready becomes 1. (R22) -/
  | schedulerRunning
  /-- The host link goes down and link-bound writes are queued. (R14) -/
  | hostLinkDown
  /-- The link trains and queued writes and messages are delivered in order. (R14) -/
  | hostLinkUp (gen width protocol : Nat)
  /-- At the stop temperature, halts all teams and posts thermal events. (R26) -/
  | thermalStop
  /-- Sets the power limit over the sideband. (R27) -/
  | sidebandSetPower (watts : Nat)
  /-- Reads temperatures, power and causes over the sideband. (R27) -/
  | sidebandRead (what : Nat)
  /-- A BAR2 write outside ingress windows is translated and performed on path X. (R15) -/
  | bar2Write (func offset : Nat) (data : List Byte)
  /-- A BAR2 read is served at the home agents. (R15) -/
  | bar2Read (func offset count : Nat)
  /-- A register-window write with no own row, with access-size checks. (R18) -/
  | registerWrite (func offset size : Nat) (value : W64)
  /-- Signals a fault ring's MSI-X vector once its oldest unsignalled record is fr_ctl.time microseconds old. (R392) -/
  | faultRingTimer (func ring : Nat)
  /-- The per-die issue governor starts or stops withholding issue opportunities as junction temperature or module power crosses its target, and md_status.governed follows: the die, and how many classes. (R26) -/
  | issueGovernor (g : Nat × Nat)
  /-- The host reads or writes host-managed device memory through a CXL.mem window. (R13) -/
  | cxlMemAccess (write : Bool) (pa : Nat) (data : List Byte)
  /-- A single-bit or single-symbol soft error found in an array is corrected, written back, counted and reported as a Corrected Internal Error. (R454) -/
  | correctedError (e : ErrorSite)
  /-- A key handover still unconfirmed 44,000 aclk after its step 1 rolls back to the source die. (R464) -/
  | handoverTimeout
  /-- A peer module's confirmation of its admissions arrives over the fabric and can make the group active. (R466) -/
  | admissionConfirmation (group member : Nat)
  deriving DecidableEq, Repr, Inhabited

end Sys2Proof
end

