-- ==== Sys2Proof/Machine/Forms.lean ====
section
/-! DEFINITION. The opcode map as tables of forms: for each row its types, its rounding and flush bits and the use of each register field (R52 to R70, R104, R123, R147, R196, R244, R289, R299, R348, R376, R443). The decoder, the encoder and the well-formedness check all read these tables. -/

namespace Sys2Proof.Machine

/-- Type codes by number (R53). -/
def Ty.ofCode : Nat → Option Ty
  | 0 => some .none | 1 => some .i8 | 2 => some .i16 | 3 => some .i32 | 4 => some .i64
  | 5 => some .n8 | 6 => some .n16 | 7 => some .n32 | 8 => some .n64 | 9 => some .b32
  | 10 => some .f32 | 11 => some .f16x2 | 12 => some .bf16x2 | 13 => some .e4m3
  | 14 => some .e5m2 | 15 => some .e2m1 | 16 => some .e8m0 | 17 => some .xs16
  | _ => none

def Ty.code (t : Ty) : Nat := t.ctorIdx

/-- Types whose values are register pairs (R34, R76). -/
def Ty.wide : Ty → Bool
  | .i64 | .n64 => true
  | _ => false

def Ty.signed : Ty → Bool
  | .i8 | .i16 | .i32 | .i64 => true
  | _ => false

/-- Width in bits of the integer types and of the 32-bit ones (R76). -/
def Ty.width : Ty → Nat
  | .i8 | .n8 => 8
  | .i16 | .n16 => 16
  | .i64 | .n64 => 64
  | _ => 32

def Special.ofCode : Nat → Option Special
  | 0 => some .tid | 1 => some .wid | 2 => some .seat | 3 => some .teamx | 4 => some .teamy
  | 5 => some .teamz | 6 => some .role | 7 => some .core | 8 => some .cluster | 9 => some .die
  | 10 => some .cvseq | 11 => some .clock | 12 => some .clockhi | 13 => some .cause
  | _ => none

/-- The 9-bit register field as a number (R32). -/
def Src.num : Src → Nat
  | .v r => r.val
  | .w r => 384 + r.val
  | .sr s => 448 + s.ctorIdx
  | .inl k => 480 + k.val

/-- What a 9-bit register field names; values 462 to 479 name nothing (R32, R35). -/
def Src.ofNum (n : Nat) : Option Src :=
  if h : n < 384 then some (.v ⟨n, h⟩)
  else if h : n - 384 < 64 then some (.w ⟨n - 384, h⟩)
  else if n < 480 then (Special.ofCode (n - 448)).map .sr
  else if h : n - 480 < 32 then some (.inl ⟨n - 480, h⟩)
  else none

/-- How an instruction uses a register field. -/
inductive Use where
  /-- unused: must hold zero (R63) -/
  | zero
  /-- a 32-bit source -/
  | src
  /-- a 32-bit destination -/
  | dst
  /-- a 64-bit data source: a pair, `sr.clock` or an inline constant (R34) -/
  | pairI
  /-- a 64-bit source that admits no inline constant -/
  | pairC
  /-- a pointer pair: a v pair or a w pair (R34, R244) -/
  | ptr
  /-- a destination pair -/
  | dpair
  /-- a group of n registers (R62) -/
  | grp (n : Nat)
  /-- the crossbar width as an inline constant (R155) -/
  | gconst
  deriving DecidableEq, Repr

/-- A group of n registers: aligned, in one class, within the budget (R62). -/
def groupOk (budget n : Nat) : Src → Bool
  | .v r => decide (r.val % n = 0 ∧ r.val + n ≤ budget)
  | .w r => decide (r.val % n = 0 ∧ r.val + n ≤ 64)
  | _ => false

/-- The register check of one field under a vector budget (R29, R34, R35, R62). -/
def Use.ok (budget : Nat) : Use → Src → Bool
  | .zero, _ => true
  | .src, .v r => decide (r.val < budget)
  | .src, _ => true
  | .dst, .v r => decide (r.val < budget)
  | .dst, .w _ => true
  | .dst, _ => false
  | .pairI, .inl _ => true
  | .pairI, .sr s => decide (s = .clock)
  | .pairI, s => groupOk budget 2 s
  | .pairC, .sr s => decide (s = .clock)
  | .pairC, s => groupOk budget 2 s
  | .ptr, s => groupOk budget 2 s
  | .dpair, s => groupOk budget 2 s
  | .grp n, s => groupOk budget n s
  | .gconst, .inl k => decide (k.val = 1 ∨ k.val = 2 ∨ k.val = 4 ∨ k.val = 8)
  | .gconst, _ => false

/-- The reserved-field check of one field: an unused field holds zero (R63). -/
def Use.zeroOk : Use → Src → Bool
  | .zero, s => decide (s = Src.zero)
  | _, _ => true

def srcT (t : Ty) : Use := if Ty.wide t then .pairI else .src
def dstT (t : Ty) : Use := if Ty.wide t then .dpair else .dst

/-- The form of an R-format row. -/
structure RForm where
  tys : List Ty := [.none]
  rnd : Bool := false
  ftz : Bool := false
  d : Use := .zero
  a : Use := .zero
  b : Use := .zero
  c : Use := .zero

/-- A row of an R-format major: its form and the instruction it makes. -/
structure RRow where
  form : RForm
  ins : ROp → Instr

def tInt : List Ty := [.i8, .i16, .i32, .i64, .n8, .n16, .n32, .n64]
def tSigned : List Ty := [.i8, .i16, .i32, .i64]
def tFull : List Ty := [.i32, .i64, .n32, .n64]
def tBits : List Ty := [.b32, .n64]
def tFlt : List Ty := [.f32, .f16x2, .bf16x2]
def tQ : List Ty := [.e4m3, .e5m2, .e2m1]

/-- d, a of the type (R104). -/
def f1 (tys : List Ty) (t : Ty) : RForm := { tys, d := dstT t, a := srcT t }
/-- d, a, b of the type. -/
def f2 (tys : List Ty) (t : Ty) : RForm := { tys, d := dstT t, a := srcT t, b := srcT t }
/-- d, a, b, c of the type. -/
def f3 (tys : List Ty) (t : Ty) : RForm := { tys, d := dstT t, a := srcT t, b := srcT t, c := srcT t }
/-- d, a of the type and a 32-bit b. -/
def fShift (tys : List Ty) (t : Ty) : RForm := { tys, d := dstT t, a := srcT t, b := .src }

/-- Number of registers of the source group of a narrowing `cvt` (R135); 0 where the pair is not listed. -/
def cvtGroup (dst src : Ty) : Nat :=
  match dst, src with
  | .f16x2, .f32 | .bf16x2, .f32 => 2
  | .e4m3, .f32 | .e5m2, .f32 => 4
  | .e4m3, .f16x2 | .e4m3, .bf16x2 | .e5m2, .f16x2 | .e5m2, .bf16x2 => 2
  | .e2m1, .f32 => 8
  | .e2m1, .f16x2 | .e2m1, .bf16x2 => 4
  | _, _ => 0

/-- The form of `cvt` with destination type t and source type s (R135). -/
def cvtForm (t s : Ty) : RForm :=
  if t = .f32 ∧ s ∈ tInt then { tys := [.f32], rnd := true, ftz := true, d := .dst, a := srcT s, c := .src }
  else if t = .f32 ∧ s ∈ [Ty.f32, .f16x2, .bf16x2, .e4m3, .e5m2, .e2m1] then
    { tys := [.f32], ftz := true, d := .dst, a := .src, c := .src }
  else if t ∈ tInt ∧ s = .f32 then { tys := [t], rnd := true, ftz := true, d := dstT t, a := .src }
  else match cvtGroup t s with
    | 0 => { tys := [] }
    | n => { tys := [t], rnd := true, ftz := true, d := .dst, a := .grp n }

/-- Elements per 32-bit register of the packed narrow formats (R79). -/
def Ty.lanes : Ty → Nat
  | .f16x2 | .bf16x2 => 2
  | .e4m3 | .e5m2 => 4
  | .e2m1 => 8
  | _ => 1

def qntN (xs : Bool) : Nat := if xs then 16 else 32

/-- Substitute selectors stand only with E4M3 and E2M1 destinations (R66, R88). -/
def subOk (sel : Nat) (t : Ty) : Bool := decide (sel < 4) && (decide (sel = 0) || decide (t = .e4m3) || decide (t = .e2m1))

def sub4 (sel : Nat) : Fin 4 := Fin.ofNat 4 sel

/-- Integer R-format majors (R65, R104). -/
def rRowInt (major minor : Nat) (t : Ty) : Option RRow :=
  match major, minor with
  | 0x10, 0 => some ⟨f2 tInt t, .add⟩
  | 0x10, 1 => some ⟨f2 tInt t, .sub⟩
  | 0x10, 2 => some ⟨f1 tSigned t, .neg⟩
  | 0x10, 3 => some ⟨{ tys := [.n32], d := .dpair, a := .src, b := .src, c := .src }, .addc⟩
  | 0x10, 4 => some ⟨{ tys := [.n32], d := .dpair, a := .src, b := .src, c := .src }, .subb⟩
  | 0x10, 5 => some ⟨f1 tSigned t, .abs⟩
  | 0x10, 6 => some ⟨f2 tInt t, .min⟩
  | 0x10, 7 => some ⟨f2 tInt t, .max⟩
  | 0x10, 8 => some ⟨f3 [.i32, .n32] t, .sad⟩
  | 0x11, 0 => some ⟨f2 tInt t, .mul⟩
  | 0x11, 1 => some ⟨f2 tFull t, .mulh⟩
  | 0x11, 2 => some ⟨f3 tFull t, .mad⟩
  | 0x11, 3 => some ⟨{ tys := [.i32, .n32], d := .dpair, a := .src, b := .src, c := .pairI }, .madw⟩
  | 0x11, 4 => some ⟨f3 [.i8, .n8] t, .dot4⟩
  | 0x12, 0 => some ⟨f2 tFull t, .div⟩
  | 0x12, 1 => some ⟨f2 tFull t, .rem⟩
  | 0x13, 0 => some ⟨f2 tBits t, .and⟩
  | 0x13, 1 => some ⟨f2 tBits t, .or⟩
  | 0x13, 2 => some ⟨f2 tBits t, .xor⟩
  | 0x14, m => some ⟨f3 [.b32] t, .bitf (BitVec.ofNat 8 m)⟩
  | 0x15, 0 => some ⟨fShift tBits t, .shl⟩
  | 0x15, 1 => some ⟨fShift [.n32, .n64] t, .shr⟩
  | 0x15, 2 => some ⟨fShift [.i32, .i64] t, .sar⟩
  | 0x15, 3 => some ⟨f3 [.b32] t, .shf⟩
  | 0x16, 0 => some ⟨f3 [.i32, .n32] t, .bfe⟩
  | 0x16, 1 => some ⟨f3 [.b32] t, .bfi⟩
  | 0x16, 2 => some ⟨f3 [.b32] t, .prmt⟩
  | 0x17, 0 => some ⟨{ tys := tBits, d := .dst, a := srcT t }, .popc⟩
  | 0x17, 1 => some ⟨{ tys := tBits, d := .dst, a := srcT t }, .clz⟩
  | 0x17, 2 => some ⟨{ tys := tBits, d := .dst, a := srcT t }, .ctz⟩
  | 0x17, 3 => some ⟨f1 tBits t, .brev⟩
  | 0x18, m => if m < 16 then some ⟨f2 tBits t, .sel (decide (8 ≤ m)) (Fin.ofNat 8 m)⟩ else none
  | 0x1B, 0 => some ⟨f1 tBits t, .mov⟩
  | 0x1B, 1 => some ⟨{ tys := [.i32, .n32], d := .dpair, a := .pairI, b := .src, c := .src }, .lea⟩
  | _, _ => none

def fF1 (t : Ty) : RForm := { f1 tFlt t with rnd := true, ftz := true }
def fF2 (t : Ty) : RForm := { f2 tFlt t with rnd := true, ftz := true }

/-- Float and conversion R-format majors (R66, R123). -/
def rRowFlt (major minor : Nat) (t : Ty) : Option RRow :=
  match major, minor with
  | 0x30, 0 => some ⟨fF2 t, .fadd⟩
  | 0x31, 0 => some ⟨fF2 t, .fmul⟩
  | 0x32, 0 => some ⟨{ f3 tFlt t with rnd := true, ftz := true }, .ffma⟩
  | 0x33, 0 => some ⟨{ f2 tFlt t with ftz := true }, .fmin⟩
  | 0x33, 1 => some ⟨{ f2 tFlt t with ftz := true }, .fmax⟩
  | 0x35, 0 => some ⟨fF2 t, .fdiv⟩
  | 0x36, 0 => some ⟨fF1 t, .frcp⟩
  | 0x36, 1 => some ⟨fF1 t, .frsq⟩
  | 0x36, 2 => some ⟨fF1 t, .fsqrt⟩
  | 0x36, 3 => some ⟨fF1 t, .fex2⟩
  | 0x36, 4 => some ⟨fF1 t, .flg2⟩
  | 0x36, 5 => some ⟨fF1 t, .fsin⟩
  | 0x36, 6 => some ⟨fF1 t, .fcos⟩
  | 0x36, 7 => some ⟨fF1 t, .ftnh⟩
  | 0x37, 0 => some ⟨fF1 t, .frnd⟩
  | 0x38, 0 => some ⟨{ f3 [.f16x2, .bf16x2] t with rnd := true, ftz := true }, .fdot2⟩
  | 0x39, 0 => some ⟨f1 tFlt t, .fclass⟩
  | 0x48, m =>
    if subOk (m / 32) t then some ⟨cvtForm t ((Ty.ofCode (m % 32)).getD .none), .cvt (sub4 (m / 32)) ((Ty.ofCode (m % 32)).getD .none)⟩
    else none
  | 0x49, 0 => some ⟨f2 [.f16x2, .bf16x2, .e4m3, .e5m2, .e2m1] t, .pack⟩
  | 0x4A, m =>
    if m % 32 < 2 ∧ subOk (m / 32) t = true then
      let n := qntN (decide (m % 2 = 1))
      some ⟨{ tys := tQ, rnd := true, ftz := true, d := .grp (n / Ty.lanes t), a := .grp n, b := .dst },
        .qnt (sub4 (m / 32)) (decide (m % 2 = 1))⟩
    else none
  | 0x4B, m => if m < 2 then
      some ⟨{ tys := tQ, rnd := true, ftz := true, d := .dst, a := .src, b := .src, c := .src }, .dqn (decide (m = 1))⟩
    else none
  | _, _ => none

/-- Cross-thread R-format majors (R67, R147). -/
def rRowX (major minor : Nat) (t : Ty) : Option RRow :=
  let xch : RForm := { tys := tBits, d := dstT t, a := srcT t, b := .src, c := .src }
  let agr : RForm := { d := .dst, a := .src, c := .src }
  let num : List Ty := [.i32, .n32, .f32]
  match major, minor with
  | 0x50, 0 => some ⟨xch, .xch .abs⟩
  | 0x50, 1 => some ⟨xch, .xch .rot⟩
  | 0x50, 2 => some ⟨xch, .xch .sh⟩
  | 0x50, 3 => some ⟨xch, .xch .mir⟩
  | 0x51, 0 => some ⟨agr, .agr .every⟩
  | 0x51, 1 => some ⟨agr, .agr .some⟩
  | 0x51, 2 => some ⟨agr, .agr .none⟩
  | 0x51, 3 => some ⟨agr, .agr .same⟩
  | 0x52, 0 => some ⟨agr, .bal⟩
  | 0x53, m =>
    let fl : RForm := { tys := num, ftz := decide (t = .f32), d := .dst, a := .src, c := .src }
    if m % 4 < 3 ∧ m < 8 then
      some ⟨{ fl with rnd := decide (t = .f32) && decide (m % 4 = 0) },
        .scan (if m % 4 = 0 then .add else if m % 4 = 1 then .min else .max) (decide (4 ≤ m))⟩
    else none
  | 0x54, 0 => some ⟨{ tys := num, rnd := decide (t = .f32), ftz := decide (t = .f32), d := .dst, a := .src, c := .src }, .redw .add⟩
  | 0x54, 1 => some ⟨{ tys := num, ftz := decide (t = .f32), d := .dst, a := .src, c := .src }, .redw .min⟩
  | 0x54, 2 => some ⟨{ tys := num, ftz := decide (t = .f32), d := .dst, a := .src, c := .src }, .redw .max⟩
  | 0x54, 3 => some ⟨{ tys := [.b32], d := .dst, a := .src, c := .src }, .redw .and⟩
  | 0x54, 4 => some ⟨{ tys := [.b32], d := .dst, a := .src, c := .src }, .redw .or⟩
  | 0x54, 5 => some ⟨{ tys := [.b32], d := .dst, a := .src, c := .src }, .redw .xor⟩
  | 0x55, 0 => some ⟨{ tys := tBits, d := .dst, a := srcT t, c := .src }, .matchSeats false⟩
  | 0x55, 1 => some ⟨{ tys := tBits, d := .dst, a := srcT t, c := .src }, .matchSeats true⟩
  | 0x56, 0 => some ⟨{ d := .dst, c := .src }, .elect⟩
  | 0x57, m => if m < 32 then
      if m % 2 = 0 then some ⟨{ tys := [.b32], d := .dst, a := .src, b := .gconst, c := .src }, .xbar (Fin.ofNat 16 (m / 2))⟩
      else some ⟨{ a := .pairC, c := .src }, .xbarLd (Fin.ofNat 16 (m / 2))⟩
    else none
  | _, _ => none

/-- Control, chamber, log and system R-format majors (R64, R69, R70, R289, R328, R348, R443). -/
def rRowSys (major minor : Nat) : Option RRow :=
  match major, minor with
  | 0x00, 0 => some ⟨{}, .nop⟩
  | 0x03, 0 => some ⟨{ a := .pairC }, .brx⟩
  | 0x05, 0 => some ⟨{ d := .dpair, a := .pairC }, .callx⟩
  | 0x06, 0 => some ⟨{ a := .pairC }, .ret⟩
  | 0x07, 0 => some ⟨{}, .exit⟩
  | 0x08, 0 => some ⟨{}, .yield⟩
  | 0x09, 0 => some ⟨{ c := .src }, .cvg⟩
  | 0x68, 0 => some ⟨{ a := .src, b := .src }, .chbInit⟩
  | 0x68, 1 => some ⟨{ a := .src, b := .src }, .chbExpect⟩
  | 0x68, 2 => some ⟨{ a := .src, b := .src }, .chbArrive⟩
  | 0x68, 3 => some ⟨{ d := .dst, a := .src, b := .src }, .chbWait⟩
  | 0x68, 4 => some ⟨{ d := .dst, a := .src, b := .src }, .chbTest⟩
  | 0x68, 5 => some ⟨{ a := .src }, .chbRetire⟩
  | 0x71, 0 => some ⟨{ a := .src }, .logMark⟩
  | 0x76, 0 => some ⟨{}, .tret⟩
  | 0x76, 1 => some ⟨{}, .brk⟩
  | 0x76, 2 => some ⟨{}, .halt⟩
  | _, _ => none

/-- The R-format row of a major and minor under a type (R64 to R70). -/
def rRow (major minor : Nat) (t : Ty) : Option RRow :=
  if 0x10 ≤ major ∧ major < 0x20 then rRowInt major minor t
  else if 0x30 ≤ major ∧ major < 0x50 then rRowFlt major minor t
  else if 0x50 ≤ major ∧ major < 0x58 then rRowX major minor t
  else rRowSys major minor

/-- Two register groups share no register. -/
def disjointFrom (s : Src) (g : Src) (n : Nat) : Bool :=
  match s, g with
  | .v r, .v q => decide (r.val < q.val ∨ q.val + n ≤ r.val)
  | .w r, .w q => decide (r.val < q.val ∨ q.val + n ≤ r.val)
  | _, _ => true

/-- The width of a crossbar move from its b field (R155). -/
def xbarG : Src → Nat
  | .inl k => k.val
  | _ => 0

/-- Register checks that tie several fields together: `qnt`'s scale register (R138) and the crossbar groups (R155). -/
def rTies (budget : Nat) (i : Instr) : Bool :=
  match i with
  | .qnt _ xs o => disjointFrom o.b o.d (qntN xs / Ty.lanes o.ty) && disjointFrom o.b o.a (qntN xs)
  | .xbar _ o => groupOk budget (xbarG o.b) o.d && groupOk budget (xbarG o.b) o.a
  | _ => true

def RForm.zeroOk (f : RForm) (o : ROp) : Bool :=
  (f.rnd || decide (o.rnd = .rn)) && (f.ftz || !o.ftz) && f.d.zeroOk o.d && f.a.zeroOk o.a && f.b.zeroOk o.b && f.c.zeroOk o.c

def RForm.regOk (f : RForm) (budget : Nat) (o : ROp) : Bool :=
  f.d.ok budget o.d && f.a.ok budget o.a && f.b.ok budget o.b && f.c.ok budget o.c

/-- A row of a predicate-writing major (R54). -/
structure PRow where
  tys : List Ty
  ftz : Bool
  ins : POp → Instr

def ICmp.ofCode : Nat → Option ICmp
  | 0 => some .eq | 1 => some .ne | 2 => some .lt | 3 => some .le | 4 => some .gt | 5 => some .ge | _ => none

def FCmp.ofCode : Nat → Option FCmp
  | 0 => some .eq | 1 => some .ne | 2 => some .lt | 3 => some .le | 4 => some .gt | 5 => some .ge
  | 6 => some .num | 7 => some .nan | 8 => some .equ | 9 => some .neu | 10 => some .ltu | 11 => some .leu
  | 12 => some .gtu | 13 => some .geu | _ => none

def pRow (major minor : Nat) : Option PRow :=
  match major with
  | 0x19 => (ICmp.ofCode minor).map fun c => ⟨tInt, false, .setp c⟩
  | 0x34 => (FCmp.ofCode minor).map fun c => ⟨[.f32], true, .fsetp c⟩
  | _ => none

/-- A row of an I-format major (R55, R118, R134, R448). -/
structure IRow where
  d : Use := .zero
  a : Use := .zero
  /-- the immediate bits that must be zero -/
  immZero : W32 := 0
  /-- control register numbers only (R39) -/
  csr : Bool := false
  ins : IOp → Instr

def Rnd.ofCode : Nat → Rnd
  | 0 => .rn | 1 => .rz | 2 => .ru | _ => .rd

def iRow (major minor : Nat) : Option IRow :=
  match major, minor with
  | 0x20, 0 => some { d := .dst, a := .src, ins := .addI }
  | 0x21, 0 => some { d := .dst, a := .src, ins := .mulI }
  | 0x22, 0 => some { d := .dst, a := .src, ins := .andI }
  | 0x22, 1 => some { d := .dst, a := .src, ins := .orI }
  | 0x22, 2 => some { d := .dst, a := .src, ins := .xorI }
  | 0x23, 0 => some { d := .dst, a := .src, immZero := 0xFFFFFFE0, ins := .shlI }
  | 0x23, 1 => some { d := .dst, a := .src, immZero := 0xFFFFFFE0, ins := .shrI }
  | 0x23, 2 => some { d := .dst, a := .src, immZero := 0xFFFFFFE0, ins := .sarI }
  | 0x24, 0 => some { d := .dst, a := .src, ins := .minI false }
  | 0x24, 1 => some { d := .dst, a := .src, ins := .minI true }
  | 0x24, 2 => some { d := .dst, a := .src, ins := .maxI false }
  | 0x24, 3 => some { d := .dst, a := .src, ins := .maxI true }
  | 0x25, 0 => some { d := .dst, ins := .movi }
  | 0x40, r => some { d := .dst, a := .src, ins := .faddI (Rnd.ofCode r) }
  | 0x41, r => some { d := .dst, a := .src, ins := .fmulI (Rnd.ofCode r) }
  | 0x42, 0 => some { d := .dst, a := .src, ins := .fminI }
  | 0x42, 1 => some { d := .dst, a := .src, ins := .fmaxI }
  | 0x74, 0 => some { d := .dst, immZero := 0xFFFFF000, csr := true, ins := .csrRd }
  | 0x74, 1 => some { a := .src, immZero := 0xFFFFF000, csr := true, ins := .csrWr }
  | 0x75, 0 => some { immZero := 0xFFFFFFC0, ins := .trap }
  | _, _ => none

/-- The control register numbers that are defined; every other number is reserved (R39, R436). -/
def csrDefined (n : Nat) : Bool :=
  decide (n ≤ 0x003 ∨ n = 0x010 ∨ (0x020 ≤ n ∧ n ≤ 0x027) ∨ (0x100 ≤ n ∧ n ≤ 0x109) ∨ (0x200 ≤ n ∧ n ≤ 0x2FF))

def IRow.zeroOk (f : IRow) (o : IOp) : Bool :=
  decide (o.imm &&& f.immZero = 0) && f.d.zeroOk o.d && f.a.zeroOk o.a

def IRow.regOk (f : IRow) (budget : Nat) (o : IOp) : Bool :=
  f.d.ok budget o.d && f.a.ok budget o.a && (!f.csr || csrDefined (o.imm.toNat % 4096))

/-- How the b field of an M-format row is used (R57). -/
inductive BUse where
  | access | reg | zero
  deriving DecidableEq, Repr

/-- A row of an M-format major (R57, R58, R244). -/
structure MRow where
  tys : List Ty := [.none]
  bu : BUse := .access
  dir : Bool := false
  /-- bits [13:0] hold type and operation in place of an offset -/
  atomic : Bool := false
  /-- scratchpad-only: xsel is zero, scopes up to core -/
  spad : Bool := false
  d : Use
  a : Use
  b : Use := .zero
  ords : List Ord := [.plain]
  /-- `cl.wb`, `cl.inv`: the scope names the level acted on -/
  level : Bool := false
  ins : MOp → Instr

def AtomOp.ofCode : Nat → Option AtomOp
  | 0 => some .add | 1 => some .min | 2 => some .max | 3 => some .and | 4 => some .or | 5 => some .xor
  | 6 => some .exch | 7 => some .inc | 8 => some .dec | _ => none

/-- The types an atomic operation admits (R251). -/
def atomTys : AtomOp → List Ty
  | .add | .min | .max => [.i32, .i64, .n32, .n64, .f32]
  | .and | .or | .xor | .exch => tBits
  | .inc | .dec => [.n32]

def tMem : List Ty := [.i8, .i16, .i32, .i64, .n8, .n16, .n32, .n64, .b32, .f32, .f16x2, .bf16x2]
def allOrds : List Ord := [.plain, .acq, .rel, .acqrel]

/-- The M-format row of a major, an operation field and a type (R69, R244, R293). -/
def mRow (major op : Nat) (t : Ty) : Option MRow :=
  let la : List Ord := [.plain, .acq]
  let sr : List Ord := [.plain, .rel]
  match major with
  | 0x58 => some { tys := tMem, d := dstT t, a := .ptr, ords := la, ins := .ld }
  | 0x59 => some { tys := tMem, d := srcT t, a := .ptr, ords := sr, ins := .st }
  | 0x5A => some { tys := tMem, spad := true, d := dstT t, a := .src, ords := la, ins := .ldl }
  | 0x5B => some { tys := tMem, spad := true, d := srcT t, a := .src, ords := sr, ins := .stl }
  | 0x5C => some { tys := [.i32, .n32, .b32, .f32, .f16x2, .bf16x2], dir := true, spad := true, d := .dst, a := .src, ords := la, ins := .ldlTile }
  | 0x5D => (AtomOp.ofCode op).map fun k =>
      { tys := atomTys k, bu := .reg, atomic := true, d := dstT t, a := .ptr, b := srcT t, ords := allOrds, ins := .atom k }
  | 0x5E => some { tys := tBits, bu := .reg, atomic := true, d := dstT t, a := .ptr, b := .grp (if Ty.wide t then 4 else 2), ords := allOrds, ins := .atomx }
  | 0x5F => (AtomOp.ofCode op).map fun k =>
      { tys := atomTys k, bu := .reg, atomic := true, spad := true, d := dstT t, a := .src, b := srcT t, ords := allOrds, ins := .atl k }
  | 0x60 => some { tys := [.i32, .i64, .n32, .n64, .b32, .f32], spad := true, d := dstT t, a := .src, ins := .ldlk }
  | 0x61 => some { tys := [.i32, .i64, .n32, .n64, .b32, .f32], spad := true, d := srcT t, a := .src, ins := .stul }
  | 0x62 => some { bu := .zero, d := .zero, a := .ptr, ins := .prf }
  | 0x63 => some { bu := .zero, d := .zero, a := .ptr, level := true, ins := .clWb }
  | 0x64 => some { bu := .zero, d := .zero, a := .ptr, level := true, ins := .clInv }
  | 0x69 => some { bu := .reg, d := .zero, a := .ptr, b := .pairI, ords := sr, ins := .gAdd }
  | 0x6A => some { bu := .reg, d := .dpair, a := .ptr, b := .pairI, ords := la, ins := .gWait }
  | 0x6B => some { bu := .zero, d := .dpair, a := .ptr, ords := la, ins := .gRead }
  | _ => none

def Scope.code (s : Scope) : Nat := s.ctorIdx
def Ord.code (s : Ord) : Nat := s.ctorIdx

def MRow.zeroOk (f : MRow) (o : MOp) : Bool :=
  (f.dir || !o.dir) && (!f.spad || decide (o.xsel = 0)) && (!f.atomic || decide (o.off = 0))
    && f.d.zeroOk o.d && f.a.zeroOk o.a && f.b.zeroOk o.b

def MRow.regOk (f : MRow) (budget : Nat) (o : MOp) : Bool :=
  f.d.ok budget o.d && f.a.ok budget o.a && f.b.ok budget o.b

/-- Orderings and scopes an M-format row admits (R58). -/
def MRow.operandOk (f : MRow) (o : MOp) : Bool :=
  if f.level then decide (o.ord = .plain ∧ 3 ≤ Scope.code o.scope)
  else if o.ord = .plain then decide (o.scope = .thread)
  else f.ords.contains o.ord && decide (1 ≤ Scope.code o.scope) && (!f.spad || decide (Scope.code o.scope ≤ 3))

/-- A row of an X-format command (R70, R267 to R376). -/
structure XRow where
  d : Use := .zero
  a : Use := .zero
  b : Use := .zero
  c : Use := .zero
  xa : Bool := false
  xb : Bool := false
  scope : Bool := false
  ins : XOp → Instr

def xRow (major cmd : Nat) : Option XRow :=
  match major, cmd with
  | 0x6C, 0 => some { a := .ptr, b := .ptr, c := .src, xa := true, xb := true, scope := true, ins := .cpEl 0 }
  | 0x6C, 1 => some { a := .ptr, b := .ptr, c := .src, xa := true, xb := true, scope := true, ins := .cpEl 1 }
  | 0x6C, 2 => some { a := .ptr, b := .ptr, c := .src, xa := true, xb := true, scope := true, ins := .cpEl 2 }
  | 0x6D, 0 => some { d := .dst, a := .ptr, xa := true, scope := true, ins := .cpBlk }
  | 0x6D, 1 => some { d := .dst, a := .ptr, xa := true, ins := .cpIng }
  | 0x6E, 0 => some { d := .dst, a := .ptr, xa := true, scope := true, ins := .mxIssue }
  | 0x6E, 1 => some { d := .dpair, a := .ptr, xa := true, ins := .mxStat }
  | 0x6E, 2 => some { d := .dpair, a := .ptr, xa := true, ins := .mxAbort }
  | 0x6F, 0 => some { d := .dst, a := .ptr, b := .ptr, xa := true, xb := true, ins := .trvBind }
  | 0x6F, 1 => some { d := .dst, a := .grp 16, b := .src, ins := .trvCast }
  | 0x6F, 2 => some { d := .grp 8, a := .src, ins := .trvPoll }
  | 0x6F, 3 => some { d := .grp 8, a := .src, ins := .trvRes }
  | 0x6F, 4 => some { a := .src, b := .src, ins := .trvCont }
  | 0x6F, 5 => some { d := .dst, a := .src, ins := .trvSave }
  | 0x6F, 6 => some { d := .dst, a := .ptr, xa := true, ins := .trvLoad }
  | 0x70, 0 => some { d := .dst, a := .ptr, xa := true, ins := .subOpen }
  | 0x70, 1 => some { d := .dst, a := .src, ins := .subClose }
  | 0x70, 2 => some { d := .dst, ins := .subFlush }
  | 0x70, 3 => some { d := .dpair, a := .src, ins := .subStat }
  | 0x72, 0 => some { d := .dst, a := .ptr, xa := true, scope := true, ins := .lnch }
  | 0x73, 0 => some { d := .dst, a := .ptr, b := .dst, xa := true, ins := .rqPut }
  | 0x73, 1 => some { d := .dst, a := .ptr, xa := true, ins := .rqGet }
  | 0x73, 2 => some { d := .dst, a := .ptr, xa := true, ins := .rqDone }
  | _, _ => none

def XRow.zeroOk (f : XRow) (o : XOp) : Bool :=
  f.d.zeroOk o.d && f.a.zeroOk o.a && f.b.zeroOk o.b && f.c.zeroOk o.c
    && (f.xa || decide (o.xa = 0)) && (f.xb || decide (o.xb = 0)) && (f.scope || decide (o.scope = .thread))

def XRow.regOk (f : XRow) (budget : Nat) (o : XOp) : Bool :=
  f.d.ok budget o.d && f.a.ok budget o.a && f.b.ok budget o.b && f.c.ok budget o.c

/-- Scopes of engine commands are team to system (R168, R267, R270, R373). -/
def XRow.operandOk (f : XRow) (o : XOp) : Bool := !f.scope || decide (2 ≤ Scope.code o.scope)

/-- A row of a W-format double word (R61, R64, R119). -/
structure WRow where
  a : Use := .zero
  ins : WOp → Instr

def wRow (major minor : Nat) : Option WRow :=
  match major, minor with
  | 0x0C, 0 => some { ins := .mov64 }
  | 0x0D, 0 => some { a := .pairI, ins := .addW }
  | 0x0E, 0 => some { a := .pairI, ins := .andW }
  | 0x0E, 1 => some { a := .pairI, ins := .orW }
  | 0x0E, 2 => some { a := .pairI, ins := .xorW }
  | _, _ => none

/-- A row of a B-format major (R59, R64). -/
structure BRow where
  link : Use := .zero
  ins : BOp → Instr

def bRow (major : Nat) : Option BRow :=
  match major with
  | 0x01 => some { ins := .bra }
  | 0x02 => some { ins := .bru }
  | 0x04 => some { link := .dpair, ins := .call }
  | _ => none

end Sys2Proof.Machine
end

