-- ==== Sys2Proof/Machine/Enc.lean ====
section
/-! DEFINITION. The place of every instruction in the opcode map: its format, major, minor and operands (R52 to R70, R191). The well-formedness check, the encoder and the hazard rules read it. -/

namespace Sys2Proof.Machine

/-- Where an instruction stands in the opcode map. -/
inductive Enc where
  /-- R format -/
  | r (major minor : Nat) (o : ROp)
  /-- R format with a predicate destination (R54) -/
  | p (major minor : Nat) (o : POp)
  | pfn (o : PfnOp)
  | fence (o : FenceOp)
  | fenceX (o : FenceXOp)
  | phase (h : Hdr)
  | retSet (k : Fin 4) (o : RetOp)
  | retClr (k : Fin 4) (h : Hdr)
  /-- I format -/
  | i (major minor : Nat) (o : IOp)
  /-- M format, with the operation field of R57 -/
  | m (major op : Nat) (o : MOp)
  /-- B format -/
  | b (major : Nat) (o : BOp)
  /-- X format, with its command -/
  | x (major cmd : Nat) (o : XOp)
  /-- W double word -/
  | w (major minor : Nat) (o : WOp)
  /-- traversal microword: op, sel, imm, target (R191) -/
  | u (op sel imm target : Nat)
  /-- an event or a host command: no instruction word -/
  | nothing
  deriving DecidableEq, Repr

/-- The place of each constructor (R64 to R70, R191). -/
def toEnc (i : Instr) : Enc :=
  match i with
  | .nop o => .r 0x0 0 o
  | .bra o => .b 0x1 o
  | .bru o => .b 0x2 o
  | .brx o => .r 0x3 0 o
  | .call o => .b 0x4 o
  | .callx o => .r 0x5 0 o
  | .ret o => .r 0x6 0 o
  | .exit o => .r 0x7 0 o
  | .yield o => .r 0x8 0 o
  | .cvg o => .r 0x9 0 o
  | .mov64 o => .w 0xc 0 o
  | .addW o => .w 0xd 0 o
  | .andW o => .w 0xe 0 o
  | .orW o => .w 0xe 1 o
  | .xorW o => .w 0xe 2 o
  | .add o => .r 0x10 0 o
  | .sub o => .r 0x10 1 o
  | .neg o => .r 0x10 2 o
  | .addc o => .r 0x10 3 o
  | .subb o => .r 0x10 4 o
  | .abs o => .r 0x10 5 o
  | .min o => .r 0x10 6 o
  | .max o => .r 0x10 7 o
  | .sad o => .r 0x10 8 o
  | .mul o => .r 0x11 0 o
  | .mulh o => .r 0x11 1 o
  | .mad o => .r 0x11 2 o
  | .madw o => .r 0x11 3 o
  | .dot4 o => .r 0x11 4 o
  | .div o => .r 0x12 0 o
  | .rem o => .r 0x12 1 o
  | .and o => .r 0x13 0 o
  | .or o => .r 0x13 1 o
  | .xor o => .r 0x13 2 o
  | .bitf tab o => .r 0x14 tab.toNat o
  | .shl o => .r 0x15 0 o
  | .shr o => .r 0x15 1 o
  | .sar o => .r 0x15 2 o
  | .shf o => .r 0x15 3 o
  | .bfe o => .r 0x16 0 o
  | .bfi o => .r 0x16 1 o
  | .prmt o => .r 0x16 2 o
  | .popc o => .r 0x17 0 o
  | .clz o => .r 0x17 1 o
  | .ctz o => .r 0x17 2 o
  | .brev o => .r 0x17 3 o
  | .sel neg p o => .r 0x18 ((if neg then 8 else 0) + p.val) o
  | .setp cmp o => .p 0x19 cmp.ctorIdx o
  | .pfn o => .pfn o
  | .mov o => .r 0x1b 0 o
  | .lea o => .r 0x1b 1 o
  | .addI o => .i 0x20 0 o
  | .mulI o => .i 0x21 0 o
  | .andI o => .i 0x22 0 o
  | .orI o => .i 0x22 1 o
  | .xorI o => .i 0x22 2 o
  | .shlI o => .i 0x23 0 o
  | .shrI o => .i 0x23 1 o
  | .sarI o => .i 0x23 2 o
  | .minI unsigned o => .i 0x24 (if unsigned then 1 else 0) o
  | .maxI unsigned o => .i 0x24 (if unsigned then 3 else 2) o
  | .movi o => .i 0x25 0 o
  | .fadd o => .r 0x30 0 o
  | .fmul o => .r 0x31 0 o
  | .ffma o => .r 0x32 0 o
  | .fmin o => .r 0x33 0 o
  | .fmax o => .r 0x33 1 o
  | .fsetp cmp o => .p 0x34 cmp.ctorIdx o
  | .fdiv o => .r 0x35 0 o
  | .frcp o => .r 0x36 0 o
  | .frsq o => .r 0x36 1 o
  | .fsqrt o => .r 0x36 2 o
  | .fex2 o => .r 0x36 3 o
  | .flg2 o => .r 0x36 4 o
  | .fsin o => .r 0x36 5 o
  | .fcos o => .r 0x36 6 o
  | .ftnh o => .r 0x36 7 o
  | .frnd o => .r 0x37 0 o
  | .fdot2 o => .r 0x38 0 o
  | .fclass o => .r 0x39 0 o
  | .cvt sub src o => .r 0x48 (sub.val * 32 + Ty.code src) o
  | .pack o => .r 0x49 0 o
  | .qnt sub xs o => .r 0x4a (sub.val * 32 + (if xs then 1 else 0)) o
  | .dqn xs o => .r 0x4b (if xs then 1 else 0) o
  | .faddI rnd o => .i 0x40 rnd.ctorIdx o
  | .fmulI rnd o => .i 0x41 rnd.ctorIdx o
  | .fminI o => .i 0x42 0 o
  | .fmaxI o => .i 0x42 1 o
  | .xch m o => .r 0x50 m.ctorIdx o
  | .agr m o => .r 0x51 m.ctorIdx o
  | .bal o => .r 0x52 0 o
  | .scan op exc o => .r 0x53 (op.ctorIdx + (if exc then 4 else 0)) o
  | .redw op o => .r 0x54 op.ctorIdx o
  | .matchSeats all o => .r 0x55 (if all then 1 else 0) o
  | .elect o => .r 0x56 0 o
  | .xbar k o => .r 0x57 (k.val * 2) o
  | .xbarLd k o => .r 0x57 (k.val * 2 + 1) o
  | .ld o => .m 0x58 0 o
  | .st o => .m 0x59 0 o
  | .ldl o => .m 0x5a 0 o
  | .stl o => .m 0x5b 0 o
  | .ldlTile o => .m 0x5c 0 o
  | .atom op o => .m 0x5d op.ctorIdx o
  | .atomx o => .m 0x5e 0 o
  | .atl op o => .m 0x5f op.ctorIdx o
  | .ldlk o => .m 0x60 0 o
  | .stul o => .m 0x61 0 o
  | .prf o => .m 0x62 0 o
  | .clWb o => .m 0x63 0 o
  | .clInv o => .m 0x64 0 o
  | .fence o => .fence o
  | .fenceX o => .fenceX o
  | .phase h => .phase h
  | .retSet k o => .retSet k o
  | .retClr k h => .retClr k h
  | .chbInit o => .r 0x68 0 o
  | .chbExpect o => .r 0x68 1 o
  | .chbArrive o => .r 0x68 2 o
  | .chbWait o => .r 0x68 3 o
  | .chbTest o => .r 0x68 4 o
  | .chbRetire o => .r 0x68 5 o
  | .gAdd o => .m 0x69 0 o
  | .gWait o => .m 0x6a 0 o
  | .gRead o => .m 0x6b 0 o
  | .cpEl wlog o => .x 0x6c wlog.val o
  | .cpBlk o => .x 0x6d 0 o
  | .cpIng o => .x 0x6d 1 o
  | .mxIssue o => .x 0x6e 0 o
  | .mxStat o => .x 0x6e 1 o
  | .mxAbort o => .x 0x6e 2 o
  | .trvBind o => .x 0x6f 0 o
  | .trvCast o => .x 0x6f 1 o
  | .trvPoll o => .x 0x6f 2 o
  | .trvRes o => .x 0x6f 3 o
  | .trvCont o => .x 0x6f 4 o
  | .trvSave o => .x 0x6f 5 o
  | .trvLoad o => .x 0x6f 6 o
  | .subOpen o => .x 0x70 0 o
  | .subClose o => .x 0x70 1 o
  | .subFlush o => .x 0x70 2 o
  | .subStat o => .x 0x70 3 o
  | .logMark o => .r 0x71 0 o
  | .lnch o => .x 0x72 0 o
  | .rqPut o => .x 0x73 0 o
  | .rqGet o => .x 0x73 1 o
  | .rqDone o => .x 0x73 2 o
  | .csrRd o => .i 0x74 0 o
  | .csrWr o => .i 0x74 1 o
  | .trap o => .i 0x75 0 o
  | .tret o => .r 0x76 0 o
  | .brk o => .r 0x76 1 o
  | .halt o => .r 0x76 2 o
  | .uopNop => .u 0 0 0 0
  | .uopFetch => .u 1 0 0 0
  | .uopBox => .u 2 0 0 0
  | .uopSort desc => .u 3 (if desc then 1 else 0) 0 0
  | .uopPushh => .u 4 0 0 0
  | .uopPushn => .u 5 0 0 0
  | .uopTake => .u 6 0 0 0
  | .uopPop target => .u 7 0 0 target.val
  | .uopTri => .u 8 0 0 0
  | .uopJmp target => .u 9 0 0 target.val
  | .uopJif cond target => .u 10 cond.ctorIdx 0 target.val
  | .uopSetc imm => .u 11 0 imm.toNat 0
  | .uopDecc => .u 12 0 0 0
  | .uopEnd imm => .u 13 0 imm.toNat 0
  | .raySave _ => .nothing
  | .rayReentry _ => .nothing
  | .convergentPerform _ _ => .nothing
  | .reconvergenceTimeout _ _ => .nothing
  | .resultArrival _ => .nothing
  | .chbWaitLeave _ => .nothing
  | .gWaitLeave _ => .nothing
  | .trvResLeave _ => .nothing
  | .lockRetry _ => .nothing
  | .mxRowStep _ => .nothing
  | .mxSave _ => .nothing
  | .mxReentry _ => .nothing
  | .collectiveCommit _ => .nothing
  | .engineGaugeAdd _ => .nothing
  | .bargeIssue _ => .nothing
  | .bargePerform _ _ => .nothing
  | .bargeAck _ _ => .nothing
  | .bargeResend _ _ => .nothing
  | .tagRetire _ => .nothing
  | .copySave _ => .nothing
  | .savedImageRaise _ => .nothing
  | .ingressWrite _ _ _ => .nothing
  | .iwBarWrite _ _ _ => .nothing
  | .batchIdleClose _ => .nothing
  | .batchApply _ => .nothing
  | .publisherFlush _ => .nothing
  | .launchRecordWrite _ _ _ => .nothing
  | .launchEligible _ => .nothing
  | .teamPlacement _ _ _ _ => .nothing
  | .berthRecordWrite _ _ _ => .nothing
  | .preemptionRequest _ _ => .nothing
  | .drainTimeout _ => .nothing
  | .teamSave _ => .nothing
  | .teamRestore _ _ _ _ => .nothing
  | .teamEnd _ => .nothing
  | .eventRecordPost _ _ => .nothing
  | .eventRingTimer _ _ => .nothing
  | .erCtlWrite _ _ _ => .nothing
  | .erTailWrite _ _ _ => .nothing
  | .faultRecordPost _ _ => .nothing
  | .frCtlWrite _ _ _ => .nothing
  | .frTailWrite _ _ _ => .nothing
  | .sliceEnd => .nothing
  | .urgentWindowEnd => .nothing
  | .switchTimeout => .nothing
  | .rqFlushTimeout _ => .nothing
  | .teamHalt _ => .nothing
  | .secondStageService _ => .nothing
  | .sectorCopy _ _ => .nothing
  | .mergeAttempt _ _ => .nothing
  | .sweep _ => .nothing
  | .keyIdFree _ => .nothing
  | .lazyPageTransfer _ => .nothing
  | .invalidationComplete _ => .nothing
  | .wsBankRefresh _ _ => .nothing
  | .memoryScrub _ => .nothing
  | .uncorrectableError _ => .nothing
  | .schedCoreRestart => .nothing
  | .logTailReread _ _ => .nothing
  | .heartbeatSend => .nothing
  | .heartbeatReceive _ _ _ _ => .nothing
  | .heartbeatTimeout _ _ => .nothing
  | .moduleReset => .nothing
  | .schedulerRunning => .nothing
  | .functionLevelReset _ => .nothing
  | .hostLinkDown => .nothing
  | .hostLinkUp _ _ _ => .nothing
  | .thermalStop => .nothing
  | .sidebandSetPower _ => .nothing
  | .sidebandRead _ => .nothing
  | .bar2Write _ _ _ => .nothing
  | .bar2Read _ _ _ => .nothing
  | .registerWrite _ _ _ _ => .nothing
  | .cmdContext _ => .nothing
  | .cmdLogNone _ => .nothing
  | .cmdLogRecord _ => .nothing
  | .cmdLogReplay _ => .nothing
  | .cmdQueueEnable _ => .nothing
  | .cmdQueueDisable _ => .nothing
  | .cmdBerth _ => .nothing
  | .cmdQuota _ => .nothing
  | .cmdGrant _ => .nothing
  | .cmdQuantum _ => .nothing
  | .cmdPower _ => .nothing
  | .cmdSwitch _ => .nothing
  | .cmdRoot1 _ => .nothing
  | .cmdInval1 _ => .nothing
  | .cmdResumeRetry _ => .nothing
  | .cmdResumeAbort _ => .nothing
  | .cmdRoot2 _ => .nothing
  | .cmdInval2 _ => .nothing
  | .cmdKeyCreate _ => .nothing
  | .cmdKeyDestroy _ => .nothing
  | .cmdKeySetPrivate _ => .nothing
  | .cmdDomainPlace _ => .nothing
  | .cmdDomainHashShare _ => .nothing
  | .cmdMergeList _ => .nothing
  | .cmdUnref _ => .nothing
  | .cmdFork _ => .nothing
  | .cmdWorldMask _ => .nothing
  | .cmdWorldWays _ => .nothing
  | .cmdGroupCreate _ => .nothing
  | .cmdGroupAdmit _ => .nothing
  | .cmdGroupRemove _ => .nothing
  | .cmdGroupQuery _ => .nothing
  | .cmdGroupDissolve _ => .nothing
  | .cmdPoolDonate _ => .nothing
  | .cmdPoolSweepShare _ => .nothing
  | .cmdPoolZeroNow _ => .nothing
  | .cmdMove _ => .nothing
  | .cmdReport _ => .nothing
  | .cmdExtend _ => .nothing
  | .mbAttach _ => .nothing
  | .mbDetach _ => .nothing
  | .mbPointBreakpoint _ => .nothing
  | .mbPointWatchpoint _ => .nothing
  | .mbHalt _ => .nothing
  | .mbStep _ => .nothing
  | .mbResume _ => .nothing
  | .mbAbort _ => .nothing
  | .mbRead _ => .nothing
  | .mbWrite _ => .nothing
  | .mbList _ => .nothing
  | .faultRingTimer _ _ => .nothing
  | .issueGovernor _ => .nothing
  | .cxlMemAccess _ _ _ => .nothing
  | .correctedError _ => .nothing
  | .handoverTimeout => .nothing
  | .admissionConfirmation _ _ => .nothing

/-- What a word carries beside its operands: the switch marker and the guard (R50); `none` for a row that is no instruction word. -/
def Enc.hdr : Enc → Option Hdr
  | .r _ _ o => some o.h
  | .p _ _ o => some o.h
  | .pfn o => some o.h
  | .fence o => some o.h
  | .fenceX o => some o.h
  | .phase h => some h
  | .retSet _ o => some o.h
  | .retClr _ h => some h
  | .i _ _ o => some o.h
  | .m _ _ o => some o.h
  | .b _ o => some o.h
  | .x _ _ o => some o.h
  | .w _ _ o => some o.h
  | .u _ _ _ _ => none
  | .nothing => none

/-- How an M-format row reads its b field. -/
def MRow.bUse (f : MRow) : Use := if f.bu = .reg then f.b else .zero

/-- The register fields of an instruction with their uses (R345: "a source, destination, group, pair, guard or mask"). -/
def Enc.fields : Enc → List (Use × Src)
  | .r major minor o =>
    match rRow major minor o.ty with
    | some row => [(row.form.d, o.d), (row.form.a, o.a), (row.form.b, o.b), (row.form.c, o.c)]
    | none => []
  | .p major minor o =>
    match pRow major minor with
    | some _ => [(srcT o.ty, o.a), (srcT o.ty, o.b)]
    | none => []
  | .i major minor o =>
    match iRow major minor with
    | some row => [(row.d, o.d), (row.a, o.a)]
    | none => []
  | .m major op o =>
    match mRow major op o.ty with
    | some row => [(row.d, o.d), (row.a, o.a), (row.bUse, o.b)]
    | none => []
  | .b major o =>
    match bRow major with
    | some row => [(row.link, o.link)]
    | none => []
  | .x major cmd o =>
    match xRow major cmd with
    | some row => [(row.d, o.d), (row.a, o.a), (row.b, o.b), (row.c, o.c)]
    | none => []
  | .w major minor o =>
    match wRow major minor with
    | some row => [(.dpair, o.d), (row.a, o.a)]
    | none => []
  | .retSet _ o => [(.ptr, o.a), (.src, o.b)]
  | .pfn _ | .fence _ | .fenceX _ | .phase _ | .retClr _ _ | .u _ _ _ _ | .nothing => []

/-- The well-formedness of an instruction under a vector budget: every check of R72 after the opcode, the split and the minor. -/
def Enc.ok (budget : Nat) (ins : Instr) : Enc → Bool
  | .r major minor o =>
    match rRow major minor o.ty with
    | some row => row.form.tys.contains o.ty && row.form.zeroOk o && row.form.regOk budget o && rTies budget ins
    | none => false
  | .p major minor o =>
    match pRow major minor with
    | some row => row.tys.contains o.ty && (row.ftz || !o.ftz) && (srcT o.ty).ok budget o.a && (srcT o.ty).ok budget o.b
    | none => false
  | .pfn _ => true
  | .fence o => decide (o.ord ≠ .plain ∧ o.scope ≠ .thread)
  | .fenceX o => decide (o.ps ≠ 0 ∧ o.pd ≠ 0 ∧ o.scope ≠ .thread)
  | .phase _ => true
  | .retSet _ o => Use.ptr.ok budget o.a && Use.src.ok budget o.b
  | .retClr _ _ => true
  | .i major minor o =>
    match iRow major minor with
    | some row => row.zeroOk o && row.regOk budget o
    | none => false
  | .m major op o =>
    match mRow major op o.ty with
    | some row => row.tys.contains o.ty && row.zeroOk o && row.regOk budget o && row.operandOk o
    | none => false
  | .b major o =>
    match bRow major with
    | some row => row.link.zeroOk o.link && row.link.ok budget o.link
    | none => false
  | .x major cmd o =>
    match xRow major cmd with
    | some row => row.zeroOk o && row.regOk budget o && row.operandOk o
    | none => false
  | .w major minor o =>
    match wRow major minor with
    | some row => row.a.zeroOk o.a && row.a.ok budget o.a && Use.dpair.ok budget o.d
    | none => false
  | .u _ _ _ _ => true
  | .nothing => true

end Sys2Proof.Machine
end

