-- ==== Sys2Proof/WellFormed.lean ====
section
/-! DEFINITION. The well-formed instructions: those that some instruction word of the opcode map encodes for a warp of a given vector budget (R29, R53 to R63, R71, R72). An event or a host command is well-formed as it stands: it has no word whose checks could fail. -/

namespace Sys2Proof

/-- The instruction passes every check of R72 after opcode, split and minor under this vector budget. -/
def wellFormed (budget : Nat) (i : Instr) : Bool := (Machine.toEnc i).ok budget i

/-- The instruction has an instruction word (it is no event, no host command and no micro-operation). -/
def hasWord (i : Instr) : Bool :=
  match Machine.toEnc i with
  | .nothing => false
  | .u _ _ _ _ => false
  | _ => true

/-- The instruction is a traversal micro-operation (R191). -/
def isMicro (i : Instr) : Bool :=
  match Machine.toEnc i with
  | .u _ _ _ _ => true
  | _ => false

end Sys2Proof
end

