-- ==== Sys2Proof/Decode.lean ====
section
/-! DEFINITION. The decoder, total on any bytes, with the checks of R72 in their order and a named rejection for each; after it the encoder, written from the same field maps (R52 to R61, R191). -/

namespace Sys2Proof.Machine

/-- The reasons of R71, in value order. -/
inductive Reason where
  | opcode | minor | type | reserved | register | header | split | operand
  deriving DecidableEq, Repr, Inhabited

/-- The formats of R71, in value order; `nofmt` is the reserved major. -/
inductive Format where
  | H | R | I | M | B | X | W | nofmt
  deriving DecidableEq, Repr, Inhabited

/-- Why bytes are no instruction. -/
inductive Reject where
  /-- an illegal encoding (R71) -/
  | illegal (r : Reason) (f : Format)
  /-- a microword that names no micro-operation or holds a nonzero reserved field (R191, R192) -/
  | microword
  /-- fewer bytes than the instruction needs -/
  | short
  deriving DecidableEq, Repr, Inhabited

/-- The 6-bit detail, equal to the cause code: 8 x reason + format (R71). -/
def detail (r : Reason) (f : Format) : Nat := 8 * r.ctorIdx + f.ctorIdx

/-- The cause code of a rejection of an instruction word. -/
def Reject.cause : Reject → Nat
  | .illegal r f => detail r f
  | .microword => 0
  | .short => 0

/-- n bits of a word from bit lo upward, as a number (R3). -/
def fld (w lo n : Nat) : Nat := w / 2 ^ lo % 2 ^ n

def fbit (w i : Nat) : Bool := decide (w / 2 ^ i % 2 = 1)

/-- The format that the major opcode alone determines (R50, R64 to R70). -/
def formatOf (major : Nat) : Format :=
  if major = 0x01 ∨ major = 0x02 ∨ major = 0x04 then .B
  else if major ≤ 0x09 then .R
  else if 0x0C ≤ major ∧ major ≤ 0x0E then .W
  else if 0x10 ≤ major ∧ major ≤ 0x1B then .R
  else if 0x20 ≤ major ∧ major ≤ 0x25 then .I
  else if 0x30 ≤ major ∧ major ≤ 0x39 then .R
  else if 0x40 ≤ major ∧ major ≤ 0x42 then .I
  else if 0x48 ≤ major ∧ major ≤ 0x4B then .R
  else if 0x50 ≤ major ∧ major ≤ 0x57 then .R
  else if 0x58 ≤ major ∧ major ≤ 0x64 then .M
  else if major = 0x65 ∨ major = 0x66 ∨ major = 0x68 then .R
  else if 0x69 ≤ major ∧ major ≤ 0x6B then .M
  else if 0x6C ≤ major ∧ major ≤ 0x70 then .X
  else if major = 0x71 then .R
  else if major = 0x72 ∨ major = 0x73 then .X
  else if major = 0x74 ∨ major = 0x75 then .I
  else if major = 0x76 then .R
  else .nofmt

/-- Bits [63], [55:52] (R50). -/
def hdrOf (w : Nat) : Hdr := { sw := fbit w 63, g := { neg := fbit w 55, p := Fin.ofNat 8 (fld w 52 3) } }

/-- A raw field against its use: an unused field holds zero (R63). -/
def Use.rawZero (u : Use) (n : Nat) : Bool := !decide (u = .zero) || decide (n = 0)

def scopeOf : Nat → Scope
  | 0 => .thread | 1 => .warp | 2 => .team | 3 => .core | 4 => .cluster | 5 => .die | 6 => .module | _ => .system

def ordOf : Nat → Ord
  | 0 => .plain | 1 => .acq | 2 => .rel | _ => .acqrel

/-- The type field; a reserved code reads as none here and is rejected by `tyKnown`. -/
def tyOf (n : Nat) : Ty := (Ty.ofCode n).getD .none

def tyKnown (n : Nat) : Bool := (Ty.ofCode n).isSome

/-- What an instruction needs of a decoding: a check that fails, or the instruction. -/
abbrev Dec := Except Reject Instr

/-- Fail with a reason unless the check holds. -/
def need (c : Bool) (r : Reason) (f : Format) (k : Dec) : Dec := if c then k else .error (.illegal r f)

/-- A plain R-format word. -/
def decR (budget w : Nat) : Dec :=
  let t := tyOf (fld w 8 5)
  match rRow (fld w 56 7) (fld w 0 8) t with
  | none => .error (.illegal .minor .R)
  | some row =>
    need (tyKnown (fld w 8 5) && row.form.tys.contains t) .type .R <|
    need ((row.form.rnd || decide (fld w 14 2 = 0)) && (row.form.ftz || !fbit w 13)
      && row.form.d.rawZero (fld w 43 9) && row.form.a.rawZero (fld w 34 9)
      && row.form.b.rawZero (fld w 25 9) && row.form.c.rawZero (fld w 16 9)) .reserved .R <|
    match Src.ofNum (fld w 43 9), Src.ofNum (fld w 34 9), Src.ofNum (fld w 25 9), Src.ofNum (fld w 16 9) with
    | some d, some a, some b, some c =>
      let o : ROp := { h := hdrOf w, d, a, b, c, rnd := Rnd.ofCode (fld w 14 2), ftz := fbit w 13, ty := t }
      need (row.form.regOk budget o && rTies budget (row.ins o)) .register .R <| .ok (row.ins o)
    | _, _, _, _ => .error (.illegal .register .R)

/-- `setp` and `fsetp` (R54). -/
def decP (budget w : Nat) : Dec :=
  match pRow (fld w 56 7) (fld w 0 8) with
  | none => .error (.illegal .minor .R)
  | some row =>
    let t := tyOf (fld w 8 5)
    need (tyKnown (fld w 8 5) && row.tys.contains t) .type .R <|
    need (decide (fld w 14 2 = 0) && (row.ftz || !fbit w 13) && decide (fld w 16 9 = 0)) .reserved .R <|
    match Src.ofNum (fld w 34 9), Src.ofNum (fld w 25 9) with
    | some a, some b =>
      need (decide (fld w 46 6 = 0) && (srcT t).ok budget a && (srcT t).ok budget b) .register .R <|
      .ok (row.ins { h := hdrOf w, pd := Fin.ofNat 8 (fld w 43 3), a, b, ftz := fbit w 13, ty := t })
    | _, _ => .error (.illegal .register .R)

/-- `pfn` (R54, R114): every minor is a truth table. -/
def decPfn (w : Nat) : Dec :=
  need (decide (fld w 8 5 = 0)) .type .R <|
  need (decide (fld w 13 3 = 0)) .reserved .R <|
  need (decide (fld w 46 6 = 0 ∧ fld w 37 6 = 0 ∧ fld w 28 6 = 0 ∧ fld w 19 6 = 0)) .register .R <|
  .ok (.pfn { h := hdrOf w, pd := Fin.ofNat 8 (fld w 43 3), pa := Fin.ofNat 8 (fld w 34 3), pb := Fin.ofNat 8 (fld w 25 3),
              pc := Fin.ofNat 8 (fld w 16 3), tab := BitVec.ofNat 8 (fld w 0 8) })

/-- Major 0x65: `fence`, `fence.x`, `phase` (R69, R259 to R261). -/
def decFence (w : Nat) : Dec :=
  match fld w 0 8 with
  | 0 =>
    need (decide (fld w 8 3 = 0 ∧ fld w 16 36 = 0)) .reserved .R <|
    need (decide (fld w 14 2 ≠ 0 ∧ fld w 11 3 ≠ 0)) .operand .R <|
    .ok (.fence { h := hdrOf w, ord := ordOf (fld w 14 2), scope := scopeOf (fld w 11 3) })
  | 1 =>
    need (decide (fld w 8 3 = 0 ∧ fld w 14 2 = 0 ∧ fld w 16 9 = 0 ∧ fld w 32 2 = 0 ∧ fld w 41 2 = 0 ∧ fld w 43 9 = 0)) .reserved .R <|
    need (decide (fld w 34 7 ≠ 0 ∧ fld w 25 7 ≠ 0 ∧ fld w 11 3 ≠ 0)) .operand .R <|
    .ok (.fenceX { h := hdrOf w, ps := BitVec.ofNat 7 (fld w 34 7), pd := BitVec.ofNat 7 (fld w 25 7), scope := scopeOf (fld w 11 3) })
  | 2 => need (decide (fld w 8 44 = 0)) .reserved .R <| .ok (.phase (hdrOf w))
  | _ => .error (.illegal .minor .R)

/-- Major 0x66: `ret.set`, `ret.clr` (R262). -/
def decRetain (budget w : Nat) : Dec :=
  let m := fld w 0 8
  if m < 4 then
    need (decide (fld w 11 5 = 0 ∧ fld w 16 9 = 0 ∧ fld w 43 9 = 0)) .reserved .R <|
    match Src.ofNum (fld w 34 9), Src.ofNum (fld w 25 9) with
    | some a, some b =>
      need (Use.ptr.ok budget a && Use.src.ok budget b) .register .R <|
      .ok (.retSet (Fin.ofNat 4 m) { h := hdrOf w, a, b, j := Fin.ofNat 8 (fld w 8 3) })
    | _, _ => .error (.illegal .register .R)
  else if 0x10 ≤ m ∧ m < 0x14 then
    need (decide (fld w 8 44 = 0)) .reserved .R <| .ok (.retClr (Fin.ofNat 4 m) (hdrOf w))
  else .error (.illegal .minor .R)

/-- An I-format word (R55). -/
def decI (budget w : Nat) : Dec :=
  match iRow (fld w 56 7) (fld w 32 2) with
  | none => .error (.illegal .minor .I)
  | some row =>
    let imm : W32 := BitVec.ofNat 32 (fld w 0 32)
    need (decide (imm &&& row.immZero = 0) && row.d.rawZero (fld w 43 9) && row.a.rawZero (fld w 34 9)) .reserved .I <|
    match Src.ofNum (fld w 43 9), Src.ofNum (fld w 34 9) with
    | some d, some a =>
      let o : IOp := { h := hdrOf w, d, a, imm }
      need (row.regOk budget o) .register .I <| .ok (row.ins o)
    | _, _ => .error (.illegal .register .I)

/-- Where the type and the operation of an M-format word stand (R57). -/
def mTypeAt (major : Nat) : Nat :=
  if major = 0x5D ∨ major = 0x5E ∨ major = 0x5F then 9 else 25

def mHasType (major : Nat) : Bool := decide (major ≤ 0x61)

/-- An M-format word (R56, R57). A bit that R57 makes zero (an access code's [33:31], a direction bit outside `ldl.tile`, an atomic's [4:0]) is a reserved field like those of R56: R71 names R57 beside the register reason only (DEDUCED, log 93). -/
def decM (budget w : Nat) : Dec :=
  let major := fld w 56 7
  let tc := if mHasType major then fld w (mTypeAt major) 5 else 0
  let op := if major = 0x5D ∨ major = 0x5F then fld w 5 4 else 0
  match mRow major op (tyOf tc) with
  | none => .error (.illegal .minor .M)
  | some row =>
    let t := tyOf tc
    let bzero := match row.bu with
      | .access => decide (fld w 31 3 = 0) && (row.dir || !fbit w 30)
      | .reg => row.b.rawZero (fld w 25 9)
      | .zero => decide (fld w 25 9 = 0)
    let low := if row.atomic then decide (fld w 0 5 = 0) && (decide (major ≠ 0x5E) || decide (fld w 5 4 = 0)) else true
    need (tyKnown tc && row.tys.contains t) .type .M <|
    need (bzero && low && row.d.rawZero (fld w 43 9) && row.a.rawZero (fld w 34 9)
      && (!row.spad || decide (fld w 14 3 = 0))) .reserved .M <|
    match Src.ofNum (fld w 43 9), Src.ofNum (fld w 34 9), Src.ofNum (if row.bu = .reg then fld w 25 9 else 0) with
    | some d, some a, some b =>
      let o : MOp := { h := hdrOf w, d, a, b, ty := t, dir := decide (row.bu = .access) && fbit w 30, ord := ordOf (fld w 23 2), scope := scopeOf (fld w 20 3), evict := Fin.ofNat 8 (fld w 17 3), xsel := Fin.ofNat 8 (fld w 14 3), off := BitVec.ofNat 14 (if row.atomic then 0 else fld w 0 14) }
      need (row.regOk budget o) .register .M <| need (row.operandOk o) .operand .M <| .ok (row.ins o)
    | _, _, _ => .error (.illegal .register .M)

/-- The condition field [42:39] of a B-format word (R59). -/
def condOf (w : Nat) : Guard := { neg := fbit w 42, p := Fin.ofNat 8 (fld w 39 3) }

def decB (budget w : Nat) : Dec :=
  match bRow (fld w 56 7) with
  | none => .error (.illegal .minor .B)
  | some row =>
    need (decide (fld w 32 7 = 0) && row.link.rawZero (fld w 43 9)) .reserved .B <|
    match Src.ofNum (fld w 43 9) with
    | some link =>
      need (row.link.ok budget link) .register .B <|
      .ok (row.ins { h := hdrOf w, link, cond := condOf w, disp := BitVec.ofNat 32 (fld w 0 32) })
    | none => .error (.illegal .register .B)

def decX (budget w : Nat) : Dec :=
  match xRow (fld w 56 7) (fld w 0 7) with
  | none => .error (.illegal .minor .X)
  | some row =>
    need (row.d.rawZero (fld w 43 9) && row.a.rawZero (fld w 34 9) && row.b.rawZero (fld w 25 9) && row.c.rawZero (fld w 16 9)
      && (row.xa || decide (fld w 13 3 = 0)) && (row.xb || decide (fld w 10 3 = 0)) && (row.scope || decide (fld w 7 3 = 0)))
      .reserved .X <|
    match Src.ofNum (fld w 43 9), Src.ofNum (fld w 34 9), Src.ofNum (fld w 25 9), Src.ofNum (fld w 16 9) with
    | some d, some a, some b, some c =>
      let o : XOp := { h := hdrOf w, d, a, b, c, xa := Fin.ofNat 8 (fld w 13 3), xb := Fin.ofNat 8 (fld w 10 3), scope := scopeOf (fld w 7 3) }
      need (row.regOk budget o) .register .X <| need (row.operandOk o) .operand .X <| .ok (row.ins o)
    | _, _, _, _ => .error (.illegal .register .X)

/-- A W double word: its first word and the immediate (R61, R71 split). -/
def decW (budget : Nat) (last : Bool) (w imm : Nat) : Dec :=
  need (!last) .split .W <|
  match wRow (fld w 56 7) (fld w 32 2) with
  | none => .error (.illegal .minor .W)
  | some row =>
    need (decide (fld w 0 32 = 0) && row.a.rawZero (fld w 34 9)) .reserved .W <|
    match Src.ofNum (fld w 43 9), Src.ofNum (fld w 34 9) with
    | some d, some a =>
      need (Use.dpair.ok budget d && row.a.ok budget a) .register .W <|
      .ok (row.ins { h := hdrOf w, d, a, imm := BitVec.ofNat 64 imm })
    | _, _ => .error (.illegal .register .W)

/-- Decode one instruction word under a vector budget. `last` says that the word is the last of its block, `imm` is the word after it, read only by a double word (R49, R50, R72). -/
def decodeWord (budget : Nat) (last : Bool) (w imm : Nat) : Dec :=
  let major := fld w 56 7
  match formatOf major with
  | .nofmt | .H => .error (.illegal .opcode .nofmt)
  | .W => decW budget last w imm
  | .B => decB budget w
  | .I => decI budget w
  | .M => decM budget w
  | .X => decX budget w
  | .R =>
    if major = 0x65 then decFence w
    else if major = 0x66 then decRetain budget w
    else if major = 0x1A then decPfn w
    else if major = 0x19 ∨ major = 0x34 then decP budget w
    else decR budget w

/-- The instruction takes two words (R61). -/
def isDouble (w : Nat) : Bool := decide (formatOf (fld w 56 7) = .W)

/-- The traversal microword of R191 and R192; `none` where the word names no micro-operation or a field that must be zero is not. -/
def decodeMicro (w : Nat) : Option Instr :=
  let sel := fld w 24 3
  let imm := fld w 16 8
  let tgt := fld w 0 6
  if fld w 27 1 ≠ 0 ∨ fld w 6 10 ≠ 0 then none
  else
    let selOk := match fld w 28 4 with
      | 3 => decide (sel < 2)
      | 10 => true
      | _ => decide (sel = 0)
    let immOk := match fld w 28 4 with
      | 11 | 13 => true
      | _ => decide (imm = 0)
    let tgtOk := match fld w 28 4 with
      | 7 | 9 | 10 => true
      | _ => decide (tgt = 0)
    if !(selOk && immOk && tgtOk) then none
    else
      let cond := match sel with
        | 0 => JifCond.leaf | 1 => .inner | 2 => .hit | 3 => .nohit | 4 => .cz | 5 => .cnz | 6 => .found | _ => .empty
      match fld w 28 4 with
      | 0 => some .uopNop | 1 => some .uopFetch | 2 => some .uopBox | 3 => some (.uopSort (decide (sel = 1)))
      | 4 => some .uopPushh | 5 => some .uopPushn | 6 => some .uopTake | 7 => some (.uopPop (Fin.ofNat 64 tgt))
      | 8 => some .uopTri | 9 => some (.uopJmp (Fin.ofNat 64 tgt)) | 10 => some (.uopJif cond (Fin.ofNat 64 tgt))
      | 11 => some (.uopSetc (BitVec.ofNat 8 imm)) | 12 => some .uopDecc | 13 => some (.uopEnd (BitVec.ofNat 8 imm))
      | _ => none

/-! ## The encoder -/

def b2n (b : Bool) : Nat := if b then 1 else 0

/-- Bits [63:52] (R50). -/
def hdrBits (major : Nat) (h : Hdr) : Nat := b2n h.sw * 2 ^ 63 + major * 2 ^ 56 + b2n h.g.neg * 2 ^ 55 + h.g.p.val * 2 ^ 52

/-- Where the offset, or the type and operation, of an M-format word stand (R57). -/
def mLow (major op : Nat) (o : MOp) : Nat :=
  if major = 0x5D ∨ major = 0x5E ∨ major = 0x5F then Ty.code o.ty * 2 ^ 9 + op * 2 ^ 5 else o.off.toNat

/-- The b field of an M-format word (R57). -/
def mB (major : Nat) (o : MOp) : Nat :=
  if major = 0x5D ∨ major = 0x5E ∨ major = 0x5F ∨ 0x69 ≤ major then Src.num o.b
  else b2n o.dir * 2 ^ 5 + Ty.code o.ty

/-- The first word of an instruction, by the field maps of R52 to R61 and R191. -/
def Enc.word : Enc → Nat
  | .r major minor o => hdrBits major o.h + Src.num o.d * 2 ^ 43 + Src.num o.a * 2 ^ 34 + Src.num o.b * 2 ^ 25 + Src.num o.c * 2 ^ 16
      + o.rnd.ctorIdx * 2 ^ 14 + b2n o.ftz * 2 ^ 13 + Ty.code o.ty * 2 ^ 8 + minor
  | .p major minor o => hdrBits major o.h + o.pd.val * 2 ^ 43 + Src.num o.a * 2 ^ 34 + Src.num o.b * 2 ^ 25
      + b2n o.ftz * 2 ^ 13 + Ty.code o.ty * 2 ^ 8 + minor
  | .pfn o => hdrBits 0x1A o.h + o.pd.val * 2 ^ 43 + o.pa.val * 2 ^ 34 + o.pb.val * 2 ^ 25 + o.pc.val * 2 ^ 16 + o.tab.toNat
  | .fence o => hdrBits 0x65 o.h + Ord.code o.ord * 2 ^ 14 + Scope.code o.scope * 2 ^ 11
  | .fenceX o => hdrBits 0x65 o.h + o.ps.toNat * 2 ^ 34 + o.pd.toNat * 2 ^ 25 + Scope.code o.scope * 2 ^ 11 + 1
  | .phase h => hdrBits 0x65 h + 2
  | .retSet k o => hdrBits 0x66 o.h + Src.num o.a * 2 ^ 34 + Src.num o.b * 2 ^ 25 + o.j.val * 2 ^ 8 + k.val
  | .retClr k h => hdrBits 0x66 h + 0x10 + k.val
  | .i major minor o => hdrBits major o.h + Src.num o.d * 2 ^ 43 + Src.num o.a * 2 ^ 34 + minor * 2 ^ 32 + o.imm.toNat
  | .m major op o => hdrBits major o.h + Src.num o.d * 2 ^ 43 + Src.num o.a * 2 ^ 34 + mB major o * 2 ^ 25 + Ord.code o.ord * 2 ^ 23
      + Scope.code o.scope * 2 ^ 20 + o.evict.val * 2 ^ 17 + o.xsel.val * 2 ^ 14 + mLow major op o
  | .b major o => hdrBits major o.h + Src.num o.link * 2 ^ 43 + b2n o.cond.neg * 2 ^ 42 + o.cond.p.val * 2 ^ 39 + o.disp.toNat
  | .x major cmd o => hdrBits major o.h + Src.num o.d * 2 ^ 43 + Src.num o.a * 2 ^ 34 + Src.num o.b * 2 ^ 25 + Src.num o.c * 2 ^ 16
      + o.xa.val * 2 ^ 13 + o.xb.val * 2 ^ 10 + Scope.code o.scope * 2 ^ 7 + cmd
  | .w major minor o => hdrBits major o.h + Src.num o.d * 2 ^ 43 + Src.num o.a * 2 ^ 34 + minor * 2 ^ 32
  | .u op sel imm target => op * 2 ^ 28 + sel * 2 ^ 24 + imm * 2 ^ 16 + target
  | .nothing => 0

/-- The second word: the immediate of a double word (R61). -/
def Enc.imm : Enc → Nat
  | .w _ _ o => o.imm.toNat
  | _ => 0

/-- The words of an instruction: one 64-bit word, two for a double word, one 32-bit microword; none for an event or a host command. -/
inductive Words where
  | one (w : W64)
  | two (w imm : W64)
  | micro (w : W32)
  | none
  deriving DecidableEq, Repr, Inhabited

end Sys2Proof.Machine

namespace Sys2Proof

/-- The words of a well-formed instruction. -/
def encode (i : Instr) : Machine.Words :=
  let e := Machine.toEnc i
  match e with
  | .nothing => .none
  | .u _ _ _ _ => .micro (BitVec.ofNat 32 e.word)
  | .w _ _ _ => .two (BitVec.ofNat 64 e.word) (BitVec.ofNat 64 e.imm)
  | _ => .one (BitVec.ofNat 64 e.word)

/-- The bytes of an instruction, as memory holds them (R3, R61). -/
def encodeBytes (i : Instr) : List Byte :=
  match encode i with
  | .one w => toBytes w 8
  | .two w v => toBytes w 8 ++ toBytes v 8
  | .micro w => toBytes w 4
  | .none => []

/-- Decode the instruction at the front of a byte list: the instruction and the bytes after it, or the named rejection. -/
def decodeBytes (budget : Nat) (last : Bool) (bs : List Byte) : Except Machine.Reject (Instr × List Byte) :=
  if bs.length < 8 then .error .short
  else
    let w := ofBytesNat (bs.take 8)
    if Machine.isDouble w && !last then
      if bs.length < 16 then .error .short
      else match Machine.decodeWord budget last w (ofBytesNat ((bs.drop 8).take 8)) with
        | .ok i => .ok (i, bs.drop 16)
        | .error r => .error r
    else match Machine.decodeWord budget last w 0 with
      | .ok i => .ok (i, bs.drop 8)
      | .error r => .error r

/-- What the decoder reads from an instruction of the opcode table whose bits are w: a 32-bit row is a traversal microword (R191), a longer one an instruction word of a warp with the full budget of 384 registers (R29). -/
def decodeTableWord (nbits w : Nat) : Option Instr :=
  if nbits ≤ 32 then Machine.decodeMicro (w % 2 ^ 32)
  else match Machine.decodeWord 384 false (w % 2 ^ 64) (w / 2 ^ 64 % 2 ^ 64) with
    | .ok i => some i
    | .error _ => none

end Sys2Proof
end

