-- ==== Sys2Proof/Machine/Alu.lean ====
section
/-! DEFINITION. Integer, logic, bit-field and address arithmetic on values (R77, R106 to R117). Values are numbers below 2^n, n the width of the type. -/

namespace Sys2Proof.Machine

/-- A source value read in the type's signedness (R106). -/
def Ty.val (t : Ty) (x : Nat) : Int := if Ty.signed t then signedNat (Ty.width t) x else (x : Int)

/-- An exact result reduced modulo 2^n (R77). -/
def Ty.wrap (t : Ty) (x : Int) : Nat := wrapInt (Ty.width t) x

def aluAdd (t : Ty) (a b : Nat) : Nat := Ty.wrap t (Ty.val t a + Ty.val t b)
def aluSub (t : Ty) (a b : Nat) : Nat := Ty.wrap t (Ty.val t a - Ty.val t b)
def aluNeg (t : Ty) (a : Nat) : Nat := Ty.wrap t (-(Ty.val t a))
/-- The minimum of the type saturates (R106, R107). -/
def aluAbs (t : Ty) (a : Nat) : Nat :=
  if Ty.val t a = -(2 ^ (Ty.width t - 1) : Nat) then 2 ^ (Ty.width t - 1) - 1 else (Ty.val t a).natAbs
def aluMin (t : Ty) (a b : Nat) : Nat := if Ty.val t a ≤ Ty.val t b then a else b
def aluMax (t : Ty) (a b : Nat) : Nat := if Ty.val t b ≤ Ty.val t a then a else b
def aluSad (t : Ty) (a b c : Nat) : Nat := (c + (Ty.val t a - Ty.val t b).natAbs) % 2 ^ 32
def aluMul (t : Ty) (a b : Nat) : Nat := Ty.wrap t (Ty.val t a * Ty.val t b)
/-- The floor of the exact product over 2^n (R106). -/
def aluMulh (t : Ty) (a b : Nat) : Nat := Ty.wrap t ((Ty.val t a * Ty.val t b) / ((2 ^ Ty.width t : Nat) : Int))
def aluMad (t : Ty) (a b c : Nat) : Nat := Ty.wrap t (Ty.val t a * Ty.val t b + Ty.val t c)
/-- 32 × 32 bits plus a 64-bit accumulator, modulo 2^64. -/
def aluMadw (t : Ty) (a b c : Nat) : Nat := wrapInt 64 (Ty.val t a * Ty.val t b + (c : Int))

/-- Byte i of a word in the type's signedness. -/
def Ty.byteVal (t : Ty) (x i : Nat) : Int := Ty.val t (x / 2 ^ (8 * i) % 256)

/-- Four byte products and an accumulator (R106); the type is that of the bytes. -/
def aluDot4 (t : Ty) (a b c : Nat) : Nat :=
  wrapInt 32 ((List.range 4).foldl (fun (s : Int) i => s + Ty.byteVal t a i * Ty.byteVal t b i) (c : Int))

/-- Sum with carry-in: the word and the carry-out (R106). -/
def aluAddc (a b c : Nat) : Nat × Nat := let s := a + b + c % 2; (s % 2 ^ 32, s / 2 ^ 32)
/-- Difference with borrow-in: the word and the borrow-out (R106). -/
def aluSubb (a b c : Nat) : Nat × Nat :=
  let s : Int := (a : Int) - (b : Int) - ((c % 2 : Nat) : Int)
  (wrapInt 32 s, if s < 0 then 1 else 0)

/-- Division rounded toward zero, with the fixed results of R108. -/
def aluDiv (t : Ty) (a b : Nat) : Nat :=
  let n := Ty.width t
  let A := Ty.val t a
  let B := Ty.val t b
  if B = 0 then (if Ty.signed t then (if 0 ≤ A then 2 ^ (n - 1) - 1 else 2 ^ (n - 1)) else 2 ^ n - 1)
  else if Ty.signed t ∧ A = -(2 ^ (n - 1) : Nat) ∧ B = -1 then 2 ^ (n - 1) - 1
  else Ty.wrap t (A.tdiv B)

/-- The remainder takes the sign of the dividend (R108). -/
def aluRem (t : Ty) (a b : Nat) : Nat :=
  let A := Ty.val t a
  let B := Ty.val t b
  if B = 0 then a else Ty.wrap t (A.tmod B)

/-- A function of three inputs bit by bit: bit i of the result is bit a + 2b + 4c of the table (R109). -/
def aluBitf (tab : Byte) (a b c : W32) : W32 :=
  (List.range 8).foldl (fun r i =>
    if tab.getLsbD i then r ||| ((if i % 2 = 1 then a else ~~~a) &&& (if i / 2 % 2 = 1 then b else ~~~b) &&& (if i / 4 % 2 = 1 then c else ~~~c)) else r) 0

/-- Shifts by any amount (R110). -/
def aluShl (t : Ty) (a s : Nat) : Nat := if s < Ty.width t then a * 2 ^ s % 2 ^ Ty.width t else 0
def aluShr (t : Ty) (a s : Nat) : Nat := if s < Ty.width t then a / 2 ^ s else 0
def aluSar (t : Ty) (a s : Nat) : Nat := Ty.wrap t (signedNat (Ty.width t) a / ((2 ^ Nat.min s (Ty.width t) : Nat) : Int))
/-- Funnel shift of {b, a} (R110). -/
def aluShf (a b c : Nat) : Nat := (b * 2 ^ 32 + a) / 2 ^ Nat.min c 32 % 2 ^ 32

/-- Bit-field extract (R111). -/
def aluBfe (t : Ty) (a b c : Nat) : Nat :=
  let p := Nat.min b 32
  let l := Nat.min c 32
  if Ty.signed t then wrapInt 32 (signedNat l (wrapInt 32 (signedNat 32 a / ((2 ^ p : Nat) : Int))))
  else a / 2 ^ p % 2 ^ l

/-- Bit-field insert (R111). -/
def aluBfi (a b c : W32) : W32 :=
  let p := Nat.min (c.toNat % 256) 32
  let l := Nat.min (c.toNat / 256 % 256) 32
  let m : W32 := BitVec.ofNat 32 ((2 ^ l - 1) * 2 ^ p)
  (b &&& ~~~m) ||| (BitVec.ofNat 32 (a.toNat * 2 ^ p) &&& m)

/-- Byte permute (R111). -/
def aluPrmt (a b c : Nat) : Nat :=
  let x := b * 2 ^ 32 + a
  (List.range 4).foldl (fun r i =>
    let s := c / 2 ^ (4 * i) % 16
    let y := x / 2 ^ (8 * (s % 8)) % 256
    r + (if s < 8 then y else if 128 ≤ y then 255 else 0) * 2 ^ (8 * i)) 0

/-- Counts over n bits (R112). -/
def aluPopc (n a : Nat) : Nat := ((List.range n).filter (fun i => a.testBit i)).length
def aluClz (n a : Nat) : Nat :=
  match (List.range n).find? (fun i => a.testBit (n - 1 - i)) with
  | some i => i
  | none => n
def aluCtz (n a : Nat) : Nat :=
  match (List.range n).find? (fun i => a.testBit i) with
  | some i => i
  | none => n
def aluBrev (n a : Nat) : Nat := (List.range n).foldl (fun r i => if a.testBit i then r + 2 ^ (n - 1 - i) else r) 0

/-- Integer comparisons in the type's signedness (R113). -/
def aluCmp (c : ICmp) (t : Ty) (a b : Nat) : Bool :=
  match c with
  | .eq => decide (a = b)
  | .ne => decide (a ≠ b)
  | .lt => decide (Ty.val t a < Ty.val t b)
  | .le => decide (Ty.val t a ≤ Ty.val t b)
  | .gt => decide (Ty.val t b < Ty.val t a)
  | .ge => decide (Ty.val t b ≤ Ty.val t a)

/-- A three-input predicate function (R114). -/
def aluPfn (tab : Byte) (a b c : Bool) : Bool := tab.getLsbD (b2n a + 2 * b2n b + 4 * b2n c)

/-- A pointer from a base and a shifted index (R117). -/
def aluLea (t : Ty) (a b s : Nat) : Nat :=
  let idx := wrapInt 64 (Ty.val t b)
  (a + (if s < 64 then idx * 2 ^ s else 0)) % 2 ^ 64

end Sys2Proof.Machine
end

