-- ==== Sys2Proof/Config.lean ====
section
/-! DEFINITION. What an implementation fixes or the manual leaves open: free values. No constant of this file has a body that a proof could see; each is applied to the operands it depends on or to the counter `fresh` of State (assumption log 1, 2, 5, 6). -/

namespace Sys2Proof.Config

/-- A free bit: which of two allowed outcomes happens (hazard reads R346, races R237, R389). Log 2. -/
opaque freeBit : Nat → Bool

/-- A free number: an amount of time or an order the manual leaves open. Log 2. -/
opaque freeNat : Nat → Nat

/-- The pair of AES-256 keys behind a key id, drawn anew by the secure core at each creation (R395). Arguments: the id, the number of the draw. Log 6. -/
opaque keyPair : Nat → Nat → BitVec 512

/-- Which of the translations that may serve an access serves it: the entry in memory, or one that a cache still holds (R382, R384, R389). Arguments: the moment, the stage, the level, the region. Log 2. -/
opaque cachedChoice : Nat → Nat → Nat → Nat → Nat

/-- The pattern over a frame's copy and subscription entries, which the manual gives no layout (R440). Arguments: the section, the byte. Log 5. -/
opaque frameByte : Nat → Nat → Byte

/-- Random words: nonces that the secure core draws from its own source (R466). Log 6. -/
opaque randomWord : Nat → BitVec 256

/-- The ML-DSA-87 signature of a message under the module's identity key (R422, R423). Log 6. -/
opaque mldsaSign : List Byte → List Byte

/-- ML-DSA-87 verification: public key, message, signature (R22, R466). Log 6. -/
opaque mldsaVerify : List Byte → List Byte → List Byte → Bool

/-- The module's identity public key, 2,592 bytes (R422). Log 6. -/
opaque identityKey : List Byte

/-- The measured firmware images M0 and M1 as SHA3-512 values (R422). Log 6. -/
opaque firmwareDigest : Nat → BitVec 512

/-- The hardware queue behind a slot of a virtual function: the physical function's assignment, for which the manual gives no register (R17). Log 9. -/
opaque vfQueue : Nat → Nat → Option Nat

/-- The size of a function's BAR2 as a power of two above 1 GiB, set by means outside the manual (module chapter). Log 9. -/
opaque bar2Log : Nat → Nat

/-- The severity that a function's AER severity register selects: fatal or not (R459). Log 9. -/
opaque aerFatal : Nat → Bool

/-- Silicon stepping and the firmware security versions of `md_ident`, which have no reset value (R19). Log 9. -/
opaque stepping : BitVec 8
opaque fwSched : BitVec 8
opaque fwSecure : BitVec 8

/-- Whether the signature of a firmware image (0 secure core, 1 scheduling core) verifies at a boot, by number of the reset (R22). Log 9. -/
opaque imageGood : Nat → Nat → Bool

/-- What a temperature sensor reads at a moment: 0 to 3 the dies, 4 the coolant (R27). Log 2. -/
opaque temperature : Nat → Nat → Nat

/-- The measurement M2 of a module configuration, whose byte layout the manual does not give (R422). Log 6. -/
opaque configDigest : List Nat → BitVec 512

/-- The value of a correctly rounded function where the bounded-precision evaluation of this model does not decide it (R132). Arguments: function, operand bits. Log 7. -/
opaque undecided : Nat → Nat → Nat

end Sys2Proof.Config
end

