-- ==== Sys2Proof/Machine/Store.lean ====
section
/-! DEFINITION. Tables as sorted lists: the one form in which the machine holds memory, register files and its unit tables. Keys rise strictly; a `Tbl` lists no key whose word is zero, so equal tables are equal data. -/

namespace Sys2Proof.Machine

/-- A table of records by number, keys strictly rising. -/
abbrev Assoc (α : Type) := List (Nat × α)

/-- A table of words by number; an unlisted number reads as zero. -/
abbrev Tbl (w : Nat) := List (Nat × BitVec w)

def Assoc.find {α : Type} : Assoc α → Nat → Option α
  | [], _ => none
  | (j, a) :: t, k => if k = j then some a else Assoc.find t k

/-- Put a record, keeping the keys rising. -/
def Assoc.put {α : Type} : Assoc α → Nat → α → Assoc α
  | [], k, v => [(k, v)]
  | (j, a) :: t, k, v =>
    if k < j then (k, v) :: (j, a) :: t
    else if k = j then (k, v) :: t
    else (j, a) :: Assoc.put t k v

/-- Remove a record. -/
def Assoc.del {α : Type} (t : Assoc α) (k : Nat) : Assoc α := t.filter (fun p => decide (p.1 ≠ k))

/-- Change a record where there is one. -/
def Assoc.upd {α : Type} (t : Assoc α) (k : Nat) (f : α → α) : Assoc α :=
  match Assoc.find t k with
  | some a => Assoc.put t k (f a)
  | none => t

def Assoc.vals {α : Type} (t : Assoc α) : List α := t.map Prod.snd

def Assoc.keys {α : Type} (t : Assoc α) : List Nat := t.map Prod.fst

/-- Every record changed by a function of its number. -/
def Assoc.mapVals {α : Type} (t : Assoc α) (f : Nat → α → α) : Assoc α := t.map (fun p => (p.1, f p.1 p.2))

/-- Keys strictly rising, all above a bound. -/
def Assoc.risingFrom {α : Type} : Option Nat → Assoc α → Bool
  | _, [] => true
  | none, (j, _) :: t => Assoc.risingFrom (some j) t
  | some k, (j, _) :: t => decide (k < j) && Assoc.risingFrom (some j) t

def Assoc.rising {α : Type} (t : Assoc α) : Bool := Assoc.risingFrom none t

def Tbl.get {w : Nat} (t : Tbl w) (k : Nat) : BitVec w := (Assoc.find t k).getD 0

/-- Writing the value an unlisted number reads as removes the entry. -/
def Tbl.set {w : Nat} (t : Tbl w) (k : Nat) (v : BitVec w) : Tbl w :=
  if v = 0 then Assoc.del t k else Assoc.put t k v

/-- The canonical form: keys strictly rising and no zero word listed. -/
def Tbl.wf {w : Nat} (t : Tbl w) : Bool := Assoc.rising t && t.all (fun p => decide (p.2 ≠ 0))

/-- The bytes at consecutive numbers. -/
def Tbl.getN {w : Nat} (t : Tbl w) (k n : Nat) : List (BitVec w) := (List.range n).map (fun i => Tbl.get t (k + i))

/-- Store consecutive words, the first at the lowest number. -/
def Tbl.setN {w : Nat} (t : Tbl w) (k : Nat) : List (BitVec w) → Tbl w
  | [] => t
  | b :: bs => Tbl.setN (Tbl.set t k b) (k + 1) bs

/-- Zero every number of a range. -/
def Tbl.clear {w : Nat} (t : Tbl w) (lo n : Nat) : Tbl w :=
  t.filter (fun p => decide (p.1 < lo ∨ lo + n ≤ p.1))

/-- Apply a function to one element of a list. -/
def setAt {α : Type} : List α → Nat → α → List α
  | [], _, _ => []
  | _ :: t, 0, v => v :: t
  | a :: t, k + 1, v => a :: setAt t k v

end Sys2Proof.Machine
end

