-- ==== Sys2Proof/Machine/State.lean ====
section
/-! DEFINITION. The state of an XD-4816 module as plain data: every register, table and unit state the spec names, in flat tables by number; the outcomes a step can stop with; and the state right after module reset. INVENTORY.md, State, gives the rule and the reset value of each field. -/

namespace Sys2Proof.Machine

/-! ## Threads -/

/-- The thread states of R336, by code. -/
inductive TState where
  | ready | switchParked | parked | reconverging | exited
  deriving DecidableEq, Repr, Inhabited

/-- What a parked thread waits for (R336 code 2, R142, R199, R254, R261, R291, R294, R308, R310, R446). The instruction is kept so that its own rule can finish it. -/
inductive Wait where
  | none
  /-- a convergent instruction: region number, mask, guard value (R142) -/
  | conv (seq : B16) (mask : W32) (guard : Bool) (i : Instr)
  /-- `phase`, with its switch marker (R261, R344) -/
  | phase (sw : Bool)
  | tret
  /-- a scratchpad lock (R254): the offset and operands that the instruction read at its issue -/
  | lock (i : Instr) (off : Nat) (b c : W64)
  | chamber (off : Nat) (gen : Nat) (i : Instr)
  /-- a gauge (R294): address and target read at issue, and the count of its instruction (R478) -/
  | gauge (i : Instr) (addr : Addr80) (target : W64) (tc : Nat)
  | ray (handle : Nat) (i : Instr) (tc : Nat)
  | flush (batches : List (Nat × Nat)) (count : Nat) (i : Instr) (tc : Nat)
  | close (sub : Nat) (i : Instr) (tc : Nat)
  /-- parked by an instruction that parks again after a restore (R145, R261, R291, R294): it performs the instruction at its pc once more -/
  | again (mask : W32)
  deriving DecidableEq, Repr, Inhabited

/-- The 64-byte fault record of R427. -/
structure FaultRec where
  pc : W64 := 0
  addr : W64 := 0
  addrhi : B16 := 0
  cause : BitVec 10 := 0x3C0
  late : Bool := false
  more : Bool := false
  done : W32 := 0
  fx : W32 := 0
  skid : Nat := 0
  token : W64 := 0
  tcount : Nat := 0
  deriving DecidableEq, Repr, Inhabited

/-- A result of a variable-latency instruction that has not arrived (R343): its registers with their values (true: a w register), the flags it ORs into cr.fx at arrival (R121), the pc and team count of its instruction, the address and cause of poisoned data (R429, R457); for a w destination the threads that performed it, and whether they differ in checked mode (R30). -/
structure Pending where
  pc : W64
  tcount : Nat := 0
  dst : List ((Bool × Nat) × W32)
  fx : W32 := 0
  /-- a result of the float chapter, which a read of cr.fx waits for (R121) -/
  flt : Bool := false
  late : Option (BitVec 10) := .none
  addr : Addr80 := 0
  differ : Bool := false
  group : W32 := 0
  /-- the done mask of its instruction (R431) -/
  done : W32 := 0
  /-- saves of rays that the result still waits for, and whether a value stands already (R202) -/
  held : Nat := 0
  has : Bool := true
  /-- its instruction is one that threads leave one by one: its value comes when its thread leaves the wait (R254, R308, R310) -/
  parks : Bool := false
  deriving DecidableEq, Repr, Inhabited

/-- An open lock window (R255): scratchpad offset, width in bytes, instructions counted, and which of its bytes another access has written since the `ldlk` (R242). -/
structure LockWin where
  off : Nat
  width : Nat
  count : Nat
  after : List Nat := []
  deriving DecidableEq, Repr, Inhabited

/-- The trap state a thread saves at handler entry (R435): resume point, block, stack, region number, the state before entry and its wait. -/
structure TrapState where
  resume : W64
  saved : W64
  block : W64
  stack : List W64
  seq : B16
  before : TState
  wait : Wait
  /-- words and live counts of the saved block; no words where the thread stood at a header it had not passed -/
  len : Nat := 0
  vlive : Nat := 0
  wlive : Nat := 0
  /-- the record it entered the handler with, which its handler registers read while the handler has raised no cause (R436, R437) -/
  rcd : FaultRec := {}
  deriving DecidableEq, Repr, Inhabited

structure Thread where
  st : TState := .ready
  /-- bits [63:0] of the program counter (R331); equal to `block` while the thread stands at a header it has not passed -/
  pc : W64 := 0
  block : W64 := 0
  /-- words of its block, and the live counts, from the header it passed (R40, R42) -/
  len : Nat := 0
  vlive : Nat := 0
  wlive : Nat := 0
  v : Tbl 32 := []
  p : BitVec 7 := 0
  fx : W32 := 0
  /-- reconvergence stack, top first (R340) -/
  stack : List W64 := []
  seq : B16 := 0
  wait : Wait := .none
  /-- wait count of R338 -/
  waitCount : Nat := 0
  yielded : Bool := false
  out : List Pending := []
  win : Option LockWin := .none
  rcd : FaultRec := {}
  trap : Option TrapState := .none
  /-- resumed past a breakpoint (R449) -/
  skipBp : Bool := false
  /-- the warp's opportunity count when the thread arrived at its reconvergence point (R340) -/
  arrived : Nat := 0
  /-- launch-byte stores still due before the first instruction (R358) -/
  launchDue : Bool := false
  /-- poisoned vector registers (R456) -/
  poison : List Nat := []
  deriving DecidableEq, Repr, Inhabited

/-- A fixed-latency instruction to w registers whose threads leave it one by one (R30, R199, R291, R294): the seats still to leave, and of those that have left the lowest with what it wrote (32: none yet). -/
structure Join where
  seats : W32
  low : Nat := 32
  vals : List ((Bool × Nat) × W32) := []
  deriving DecidableEq, Repr, Inhabited

structure Warp where
  lane : Nat := 0
  /-- 0 no roles, 1 producer, 2 consumer (R36) -/
  role : Nat := 0
  /-- vector budget of its role (R29) -/
  budget : Nat := 8
  w : Tbl 32 := []
  /-- instructions issued since the team began, the clock of record and replay (R37) -/
  issued : Nat := 0
  /-- issue opportunities (R337) -/
  opp : Nat := 0
  /-- instructions issued after a halt reached it (R427) -/
  skid : Nat := 0
  halted : Bool := false
  /-- results outstanding to w registers (R343) -/
  out : List Pending := []
  /-- the clock value from which it may issue again: 8 aclk after its last issue (R335) -/
  readyAt : Nat := 0
  /-- the debugger has given it one issue opportunity, and the done mask of the instruction it issued (R452, R472) -/
  step : Bool := false
  stepDone : W32 := 0
  joins : List Join := []
  deriving DecidableEq, Repr, Inhabited

/-! ## Teams -/

/-- Where a team is in its life (R226, R362, R365, R433, R438, R450). -/
inductive Life where
  /-- on its berth, running -/
  | resident
  /-- draining under R365, until the clock value given -/
  | draining (until_ : Nat)
  /-- a halt has been called and not yet decided (R433) -/
  | halting
  /-- debug-halted on its berth (R450) -/
  | debugHalted
  /-- in its frame: pre-empted (R366) -/
  | saved
  /-- in its frame: waits for its translation tokens (R393) -/
  | parkedFault
  /-- in its frame: unhandled with fact 0 (R438) -/
  | parkedUnhandled
  /-- every thread has exited, or the team was aborted on its berth; engine work may be outstanding (R176, R266, R438) -/
  | ending
  /-- aborted off its berth; engine work may be outstanding (R438) -/
  | endingOff
  | ended
  deriving DecidableEq, Repr, Inhabited

/-- What a saved team's scratchpad image is still to receive (R296, R312): bytes of a batch at an offset under a mask, and a chamber raise with its path and the instruction it belongs to. -/
structure HeldUpdate where
  off : Nat := 0
  mask : BitVec 64 := 0
  data : BitVec 512 := 0
  chamber : Nat := 0
  bytes : Nat := 0
  path : Nat := 4
  thread : Nat := 0
  tcount : Nat := 0
  deriving DecidableEq, Repr, Inhabited

/-- A traversal binding (R179, R486). -/
structure Binding where
  layout : W64
  image : BitVec 2048
  imageAddr : Addr80
  bcheck : W32
  deriving DecidableEq, Repr, Inhabited

/-- Where a translation fault of a team's thread was met: its stage, virtual address, level, and guest-physical address (R390, R391). -/
structure Walked where
  stage : Nat
  va : Nat
  level : Nat
  ipa : Nat
  deriving DecidableEq, Repr, Inhabited

structure Team where
  func : Nat := 0
  ctx : Nat := 0
  /-- number of its launch in `launches` -/
  launch : Nat := 0
  /-- its launch record (R358) -/
  lrec : BitVec 512 := 0
  queue : Nat := 0
  seqNo : Nat := 0
  /-- linear index and grid coordinates (R300, R329) -/
  index : Nat := 0
  x : W32 := 0
  y : W32 := 0
  z : W32 := 0
  core : Nat := 0
  berth : Nat := 0
  /-- team_slot of R214 -/
  slot : Nat := 0
  world : Nat := 0
  warps : Nat := 1
  life : Life := .resident
  /-- a pre-emption has been asked for: the team is saved once its halt is decided (R365, R434) -/
  leaving : Bool := false
  /-- its halt is decided and it goes into its frame, with this reason (R439) -/
  saveAs : Option Nat := .none
  /-- debug-halted while off its berth or on its way there (R450) -/
  debugged : Bool := false
  /-- its frame's access waits on a token (R493) -/
  frameTok : Option Nat := .none
  /-- restart instead of save (R365) -/
  flush : Bool := false
  codeHi : B16 := 0
  /-- xh0 to xh7 (R38) -/
  xh : Vector B16 8 := #v[0, 0, 0, 0, 0, 0, 0, 0xFFFF]
  /-- capacity refreshes of the phase (R39) -/
  cref : Nat := 0
  /-- scratchpad bytes and size (R212) -/
  spad : Tbl 8 := []
  spadSize : Nat := 0
  /-- poisoned scratchpad words (R456) -/
  spadPoison : List Nat := []
  /-- pt0 to pt15 entries: table * 256 + row * 8 + k (R153) -/
  pat : Tbl 8 := []
  /-- armed chamber offsets (R285) -/
  chambers : List Nat := []
  /-- by chamber, the latest generation that counted bytes (R240, R291) -/
  counted : Assoc Nat := []
  /-- instructions issued since start (R316) -/
  tcount : Nat := 0
  /-- aclk run over its placements (R365), and when this placement began -/
  run : Nat := 0
  since : Nat := 0
  handler : Bool := false
  /-- primary cause at handler entry and its sr.tid (R436) -/
  prim : BitVec 10 := 0x3C0
  primTid : Nat := 0
  /-- this halt was called by the mailbox (2) or by `halt` (3): the stop reason its threads record (R426, R434, R447) -/
  debugCall : Nat := 0
  /-- next matrix ticket (R168) -/
  ticket : Nat := 0
  binding : Option Binding := .none
  /-- read digest, fills and number of the phase (R325, R478) -/
  digest : W32 := 0xFFFFFFFF
  fills : Nat := 0
  phaseNo : Nat := 0
  /-- tokens it waits for, and whether one was aborted (R394) -/
  tokens : List Nat := []
  aborted : Bool := false
  /-- its translation faults not yet reported, one for each stage and page -/
  walked : List Walked := []
  /-- guest-physical address of its frame (R362) -/
  frame : W64 := 0
  /-- has performed lnch or rq.put (R367) -/
  launched : Bool := false
  /-- its record range: queue descriptor number, first record, count, next, done (R374, R375) -/
  rq : Option (Nat × Nat × Nat) := .none
  rqNext : Nat := 0
  rqDone : Bool := false
  /-- flags and cause that go to its completion record (R92, R174, R277, R320, R370) -/
  subst : Bool := false
  lateCause : BitVec 10 := 0x3C0
  lateAddr : W64 := 0
  lateHi : B16 := 0
  /-- exited threads whose causes came into this account: they count among the threads that faulted (R370; DEDUCED, log 42) -/
  lateThreads : List Nat := []
  logStall : Bool := false
  crefSeen : Bool := false
  restarted : Bool := false
  demoted : Bool := false
  /-- how it ended: 0 completed, 1 aborted on a fault, 2 aborted by command (R370) -/
  status : Nat := 0
  /-- updates held for its saved image, oldest first (R296, R312) -/
  heldUps : List HeldUpdate := []
  /-- replay: saved though no BERTH record names the save (R327) -/
  offLog : Bool := false
  /-- releases at core scope or wider it has made (R304, R305) -/
  epoch : Nat := 0
  /-- when it halted, for the skid bounds (R433), and when it left its core -/
  haltAt : Nat := 0
  leftAt : Nat := 0
  /-- a cause that ends it in place of its threads' records (R442, R493) -/
  forced : Option (BitVec 10) := .none
  /-- thread and team count of the instruction that ended its last thread (R321) -/
  lastExit : Nat × Nat := (0, 0)
  deriving DecidableEq, Repr, Inhabited

/-! ## Cores, caches, memory -/

/-- A line of a core's L1 (R218, R227, R229). `have_` marks the bytes it holds, `pend` the pending ones. -/
structure L1Line where
  data : BitVec 1024 := 0
  have_ : BitVec 128 := 0
  pend : BitVec 128 := 0
  /-- a load filled or hit it (R231) -/
  read : Bool := false
  pri : Nat := 3
  use : Nat := 0
  /-- key id of the access that filled it (R396), virtual line address and owner -/
  key : Nat := 0
  va : Addr80 := 0
  func : Nat := 0
  ctx : Nat := 0
  sealed : Bool := false
  poison : Bool := false
  deriving DecidableEq, Repr, Inhabited

structure Core where
  /-- L1 lines by physical line number (R218) -/
  l1 : Assoc L1Line := []
  /-- world latch (R363, R401) -/
  world : Nat := 0
  /-- lock holders of scratchpad words: bank * 8 + bit to thread number (R254) -/
  locks : Assoc Nat := []
  /-- the last warp given a turn, as berth * 32 + wid + 1: of each lane, and of the core in record and replay (R316, R337) -/
  turn : Tbl 32 := []
  coreTurn : Nat := 0
  /-- code words as this core first fetched them since its last kernel start, by context and virtual address (R51) -/
  code : Assoc Nat := []
  deriving DecidableEq, Repr, Inhabited

/-- A line present in an L2 slice: its way and what replacement, worlds and retention need (R219 to R223, R403, R404). Data is in `mem`. -/
structure L2Line where
  way : Nat := 0
  /-- priority of the last access (R220) and the virtual line it named (R221) -/
  pri : Nat := 3
  vline : Nat := 0
  use : Nat := 0
  dirty : Bool := false
  world : Nat := 0
  cipher : Bool := false
  sealed : Bool := false
  key : Nat := 0
  retained : Option Nat := .none
  deriving DecidableEq, Repr, Inhabited

structure DeepLine where
  use : Nat := 0
  dirty : Bool := false
  cipher : Bool := false
  key : Nat := 0
  deriving DecidableEq, Repr, Inhabited

/-- ECC metadata of a line of memory: the key id and key generation it was last written under, and poison (R396, R456). A line without an entry has its zero flag set. -/
structure LineMeta where
  key : Nat := 0
  gen : Nat := 0
  poison : Bool := false
  deriving DecidableEq, Repr, Inhabited

/-- A table entry that an agent holds cached (R384): the agent (a core, or `deviceAgent`), the stage, whose tables (a context for the first stage, a function for the second), the level (5: a split leaf), the region of the address space it serves, the entry (32 bytes for a split leaf), and for the first stage the guest-physical address it was read at. -/
structure Tlb where
  agent : Nat
  stage : Nat
  owner : Nat
  level : Nat
  region : Nat
  e : Nat
  via : Nat := 0
  deriving DecidableEq, Repr, Inhabited

/-! ## Functions, contexts, rings, queues, launches -/

/-- An event ring or a fault ring (R372, R392), with its held records and signalling state. -/
structure Ring where
  base : W64 := 0
  ctl : W64 := 0
  head : W32 := 0
  tail : W32 := 0
  held : List (BitVec 512) := []
  unsig : Nat := 0
  oldest : Nat := 0
  token : Option Nat := .none
  deriving DecidableEq, Repr, Inhabited

/-- An ingress slot (R280) and what `cp.ing` armed it with (R281). -/
structure Ingress where
  bar : W64 := 0
  size : Nat := 0
  queue : Nat := 0
  drops : Nat := 0
  reason : Nat := 0
  dropPosted : Bool := false
  armed : Bool := false
  team : Nat := 0
  thread : Nat := 0
  pc : W64 := 0
  armCount : Nat := 0
  base : Addr80 := 0
  gptr : Addr80 := 0
  kind : Nat := 0
  perWrite : Bool := false
  chamber : Nat := 0
  scope : Nat := 7
  deriving DecidableEq, Repr, Inhabited

/-- A command status register (R361, R451). -/
structure CmdStat where
  done : W32 := 0
  busy : Bool := false
  result : Byte := 0
  deriving DecidableEq, Repr, Inhabited

/-- A command still running, which ends by an event of its own: an invalidation (stage, function, context, first page, pages with 0 for all), a grant that waits for its units (die, function, context, base and size in 64 KiB), a switch transaction, a move. -/
inductive Running where
  | none
  | inval (stage func ctx page pages : Nat)
  | grant (die func ctx base size : Nat)
  | switch
  | move
  /-- a command that waits on a log or a handover, and is tried again -/
  | waiting (w : BitVec 512)
  deriving DecidableEq, Repr, Inhabited

/-- A function: the physical one is 0, virtual ones 1 to 64 (R13). -/
structure Func where
  root2 : Option Nat := .none
  root2Ring : Nat := 0
  worldMask : BitVec 16 := 1
  domain : Nat := 0
  dkey : Nat := 0
  privKey : Option Nat := .none
  homeDie : Nat := 0
  /-- a fork or a move has set the home die (R411) -/
  homeFixed : Bool := false
  er : Assoc Ring := []
  fr : Assoc Ring := []
  iw : Assoc Ingress := []
  cmd : CmdStat := {}
  running : Running := .none
  mb : CmdStat := {}
  mbEvt : W64 := 0
  mbResp : Tbl 8 := []
  /-- a step under way: its team, and each named warp with the threads that may record a cause (R472) -/
  stepping : Option (Nat × List (Nat × W32)) := .none
  /-- M3 (R422) -/
  m3 : BitVec 512 := 0
  /-- AER status bits, the signal at fatal severity, the header log (R459), and counts since the last report by kind -/
  aerCorr : Bool := false
  aerUnc : Bool := false
  aerFatal : Bool := false
  hdrLog : BitVec 128 := 0
  aerCount : Assoc Nat := []
  aerLast : Assoc Nat := []
  /-- window-access records posted: page to clock (R15) -/
  waLast : Assoc Nat := []
  /-- ingress writes received that wait on a log: BAR2 offset and bytes, oldest first (R320, R323) -/
  iwHeld : List (Nat × List Byte) := []
  /-- a move is in progress: its old die, and the first page not yet passed (R420) -/
  moving : Bool := false
  /-- a function-level reset waits for a handover (R464) -/
  flrDue : Bool := false
  oldDie : Nat := 0
  lazyNext : Nat := 0
  /-- completed moves, for the escrow records of its keys (R462) -/
  moves : BitVec 16 := 0
  /-- urgent core-aclk used in the window, those used since its last slice began, and those that shorten its present slice (R364, R368) -/
  urgentUsed : Nat := 0
  sliceDebt : Nat := 0
  sliceCut : Nat := 0
  deriving DecidableEq, Repr, Inhabited

/-- A weight-store grant of a context on a die (R215), in 64 KiB units. -/
structure Grant where
  base : Nat := 0
  size : Nat := 0
  deriving DecidableEq, Repr, Inhabited

/-- A parked ray's record whose fault `trv.res` has reported: its area, and the stage and page of its token; refused once that token was resumed with action 1 (R394). -/
structure Park where
  area : Addr80
  stage : Nat
  page : Nat
  refused : Bool := false
  deriving DecidableEq, Repr, Inhabited

structure Ctx where
  stackBase : Addr80 := 0
  stackSize : Nat := 0
  world : Nat := 0
  /-- byte 21 of command 0x01: checked, host scheduling, host first-stage fault service, host completion, host merging, host erasure (R361) -/
  mode : Byte := 0
  frameBase : W64 := 0
  frameUnits : Nat := 0
  /-- frames in use: base GPA to length -/
  frames : Assoc Nat := []
  logMode : Nat := 0
  logBlock : Addr80 := 0
  /-- next order number or cursor (R318, R323) -/
  order : Nat := 0
  stalled : Bool := false
  diverged : Bool := false
  divReason : Nat := 0
  dorder : Nat := 0
  /-- what the model keeps of the control block between its reads and writes (R319) -/
  logBase : Addr80 := 0
  logN : Nat := 10
  logTail : Nat := 0
  rereadAt : Nat := 0
  /-- an event met a cursor that does not match: what performs it waits (R323) -/
  miss : Bool := false
  /-- the thread number of that event's position, and the recipient code of R426 -/
  missAt : Nat := 0
  missFor : Nat := 0
  /-- of an engine's event, the pc, team count and done mask of the instruction that issued it (R429) -/
  missPc : W64 := 0
  missCount : Nat := 0
  missDone : W32 := 0
  /-- a switch transaction has given its berths to another context (R369) -/
  switchedOut : Bool := false
  /-- retention quota by die in 64 KiB units; unlisted 8 is 512 KiB (R221) -/
  quota : Assoc Nat := []
  grants : Assoc Grant := []
  parks : List Park := []
  root1 : W64 := 0
  root1Ring : Nat := 0
  root1En : Bool := false
  /-- ret0 to ret3: first and last line of the virtual range (R221, R262) -/
  ret : Assoc (Nat × Nat) := []
  deriving DecidableEq, Repr, Inhabited

structure Queue where
  func : Nat := 0
  slot : Nat := 0
  ctx : Nat := 0
  ring : Nat := 0
  enabled : Bool := false
  bound : Bool := false
  cword : Addr80 := 0
  nextSeq : Nat := 1
  /-- completed launch numbers above the contiguous prefix, and the prefix (R371) -/
  done : List Nat := []
  contig : Nat := 0
  deriving DecidableEq, Repr, Inhabited

structure Launch where
  queue : Nat := 0
  func : Nat := 0
  ctx : Nat := 0
  seqNo : Nat := 0
  lrec : BitVec 512 := 0
  eligible : Bool := false
  eligAt : Nat := 0
  /-- teams placed so far and ended so far (R362, R370) -/
  placed : Nat := 0
  ended : Nat := 0
  total : Nat := 1
  token : Option Nat := .none
  done : Bool := false
  /-- consumer launch of a record queue: descriptor, first record, count (R374) -/
  rq : Option (Nat × Nat × Nat) := .none
  cause : BitVec 10 := 0x3C0
  faddr : W64 := 0
  fhi : B16 := 0
  /-- the team its cause comes from (R432) -/
  causeAt : Nat := 0
  nfault : Nat := 0
  status : Nat := 0
  subst : Bool := false
  crefSeen : Bool := false
  logOver : Bool := false
  restarted : Bool := false
  demoted : Bool := false
  /-- its completion record waits in its ring or behind the link (R370) -/
  held : Bool := false
  /-- its queue has been bound anew since it was accepted: it has no number in the new numbering (R357) -/
  stale : Bool := false
  deriving DecidableEq, Repr, Inhabited

/-- Who waits on a fault token (R390, R394). -/
inductive Waiter where
  | team (t : Nat)
  | copy (c : Nat)
  | mop (m : Nat)
  | coll (c : Nat)
  | gadd (g : Nat)
  | launch (l : Nat)
  | ring (func idx : Nat) (isFault : Bool)
  | saveFrame (t : Nat)
  | placing (core berth : Nat) (record : BitVec 256)
  deriving DecidableEq, Repr, Inhabited

structure Token where
  func : Nat
  ctx : Nat
  stage : Nat
  page : Nat
  /-- the fault record without its time (R391) -/
  fault : BitVec 512
  reason : Nat
  waiters : List Waiter
  /-- waits for the secure core (R390) -/
  secure : Bool
  forwarded : Bool
  key : Nat
  die : Nat
  deriving DecidableEq, Repr, Inhabited

/-! ## Engines -/

/-- A barge of a copy that has been issued (R264, R276): its destination space (0 global, 1 scratchpad, 2 weight store), its 128-byte line by generic address, physically or in the model's weight-store space, and its elements: place in the line in half bytes, source bits, poison. state: 1 issued, 2 performed. -/
structure Barge where
  space : Nat
  line : Nat
  pa : Nat := 0
  key : Nat := 0
  elems : List (Nat × Nat × Bool)
  state : Nat
  deriving DecidableEq, Repr, Inhabited

/-- A copy: a `cp.blk` request or the requests of one `cp.el`, with its progress record (R263 to R279). -/
structure Copy where
  team : Nat
  thread : Nat
  pc : W64
  tcount : Nat
  core : Nat
  id : Nat
  /-- it holds a slot of its core; false: saved, or restored and without a slot yet -/
  live : Bool
  scope : Nat
  /-- request packet (R271); zero for `cp.el` -/
  packet : BitVec 512
  isEl : Bool
  /-- bytes of a `cp.el` element -/
  width : Nat
  /-- `cp.el` requests: source, destination, chamber offset, in seat order (R268) -/
  reqs : List (Addr80 × Addr80 × Option Nat)
  barges : Assoc Barge := []
  /-- low mark and map of acknowledged barges (R276) -/
  low : Nat := 0
  map : BitVec 64 := 0
  suspended : Option Nat := .none
  /-- the address whose translation suspended it -/
  faultAt : Addr80 := 0
  failed : Bool := false
  gaugeSent : Bool := false
  /-- the done mask of its instruction (R431) -/
  done : W32 := 0
  deriving DecidableEq, Repr, Inhabited

/-- A gauge add of an engine that is not yet performed (R492). path: 1 C, 2 M, 3 L, 4 X. -/
structure GAdd where
  team : Nat
  thread : Nat
  func : Nat
  ctx : Nat
  addr : Addr80
  amount : Nat
  path : Nat
  scope : Nat
  pc : W64
  tcount : Nat
  tag : Option (Nat × Nat) := .none
  /-- not an add but the chamber raise of an ingress write that follows earlier signals of its port (R282) -/
  raise : Option Nat := .none
  owner : Nat := 0
  token : Option Nat := .none
  done : W32 := 0
  deriving DecidableEq, Repr, Inhabited

/-- A matrix operation (R158 to R178). state is that of R169. -/
structure MxOp where
  team : Nat
  thread : Nat
  pc : W64
  tcount : Nat
  cluster : Nat
  core : Nat
  blockAddr : Addr80
  block : BitVec 1024
  scope : Nat
  ticket : Nat
  order : Nat
  state : Nat
  rows : Nat := 0
  nan : Bool := false
  ovf : Bool := false
  sn : Bool := false
  token : Option Nat := .none
  /-- the address whose translation suspended it -/
  faultAt : Addr80 := 0
  abort : Bool := false
  coll : Option Nat := .none
  done : W32 := 0
  /-- a status write is owed, and the state that it or a later one is to show: a final one, or that of a re-entry (R169) -/
  due : Bool := false
  redo : Nat := 0
  deriving DecidableEq, Repr, Inhabited

/-- A reduction collective (R177, R468): its group, base and shape; the members accepted and those whose slots are complete. -/
structure Coll where
  group : Nat
  base : Addr80
  func : Nat
  ctx : Nat
  count : Nat
  m : Nat
  n : Nat
  dtype : Nat
  members : List Nat := []
  complete : List Nat := []
  failed : Bool := false
  /-- the token that the sum waits on -/
  token : Option Nat := .none
  deriving DecidableEq, Repr, Inhabited

/-- A ray (R179 to R207). state is that of R180. -/
structure Ray where
  team : Nat
  handle : Nat
  state : Nat
  o : Vector W32 3 := #v[0, 0, 0]
  d : Vector W32 3 := #v[0, 0, 0]
  tmin : W32 := 0
  tmax : W32 := 0
  base : Addr80 := 0
  mask : Byte := 0
  flags : Nat := 0
  area : Addr80 := 0
  tag : W32 := 0
  /-- best and candidate: t, u, v, inst, prim -/
  best : Vector W32 5 := #v[0, 0, 0, 0, 0]
  found : Bool := false
  cand : Vector W32 5 := #v[0, 0, 0, 0, 0]
  n : W32 := 0
  upc : Nat := 0
  b : W32 := 0
  buf : Option (BitVec 2048) := .none
  hits : Byte := 0
  tnear : Vector W32 8 := #v[0, 0, 0, 0, 0, 0, 0, 0]
  order : BitVec 24 := 0xFAC688
  sorted : Bool := false
  c : Byte := 0
  /-- resident stack entries, top first -/
  stack : List W32 := []
  spilled : Nat := 0
  tprog : Nat := 0
  steps : Nat := 0
  nodes : Nat := 0
  tests : Nat := 0
  code : Byte := 0
  /-- 0: on the core; 1: in the frame, to be loaded; 2: in the frame as done or failed -/
  saved : Nat := 0
  /-- the threads that asked for its save, in order: thread number and the team count of the instruction (R202) -/
  saveReq : List (Nat × Nat) := []
  /-- a decision taken while the ray stood in the frame, to be applied once it is loaded (R201, R206) -/
  decision : Option Nat := .none
  /-- where its park met the fault, for `trv.res` (R199): the address, the cause, and the level and GPA of the fault -/
  faultAddr : Addr80 := 0
  faultCode : Nat := 0
  faultLevel : Nat := 0
  faultIpa : Nat := 0
  deriving DecidableEq, Repr, Inhabited

/-- A batch of a subscription: block offset in the publisher's region, mask, bytes (R304). -/
structure Batch where
  block : Nat
  mask : BitVec 64
  data : BitVec 512
  seed : Bool := false
  /-- the publisher team's count of releases when it closed (R305) -/
  epoch : Nat := 0
  /-- the publisher's count when it closed -/
  at_ : Nat := 0
  deriving DecidableEq, Repr, Inhabited

/-- A subscription: its subscriber entry and its publisher entry (R297 to R314). -/
structure Sub where
  subscriber : Nat
  publisher : Nat
  handle : Nat
  local_ : Nat
  remote : Nat
  size : Nat
  chen : Bool
  chamber : Nat
  /-- the publisher entry stands -/
  pubOpen : Bool := true
  pubEnded : Bool := false
  open_ : Option Batch := .none
  closed : List Batch := []
  /-- blocks not yet seeded (R302) -/
  seeds : List Nat := []
  idleSince : Nat := 0
  applied : W32 := 0
  made : Nat := 0
  /-- a `sub.close` waits for delivery (R310) -/
  closing : Bool := false
  deriving DecidableEq, Repr, Inhabited

/-- What the device keeps of a record queue beside its descriptor in memory (R374, R375). -/
structure RecQ where
  func : Nat
  ctx : Nat
  addr : Addr80
  lastPut : Nat := 0
  /-- written slots at or above ready, and ranges done out of order -/
  written : List Nat := []
  doneRanges : List (Nat × Nat) := []
  thread : Nat := 0
  deriving DecidableEq, Repr, Inhabited

/-! ## Secure core, sharing, groups, errors -/

/-- A memory-encryption key id with its escrow record (R395, R462). state: 0 free, 1 live, 2 moving, 3 destroyed. -/
structure Key where
  state : Nat := 0
  owner : Nat := 0
  home : Nat := 0
  dest : Nat := 0
  confirmed : Bool := false
  moves : BitVec 16 := 0
  gen : Nat := 0
  /-- dies whose key cache holds an entry (R397) -/
  cached : BitVec 4 := 0
  /-- frames under it that still await the sweep after a destruction (R399) -/
  frames : List Nat := []
  deriving DecidableEq, Repr, Inhabited

/-- A hash-directory entry (R407), by hidx. -/
structure HEntry where
  digest : BitVec 256 := 0
  frame : Nat := 0
  refs : Nat := 0
  domain : Nat := 0
  home : Nat := 0
  fork : Bool := false
  busy : Bool := false
  deriving DecidableEq, Repr, Inhabited

/-- A die: free pool of zeroed frames, sweep share, frames awaiting erasure with where they go (R414 to R417), scan position, weight-store units. -/
structure Die where
  pool : List Nat := []
  share : Nat := 2
  /-- frame PA to destination: 0 pool, 1 nowhere (grants), and whether host-driven -/
  erasing : Assoc (Nat × Bool) := []
  /-- last holder of each 64 KiB unit of the weight store: func * 256 + ctx + 1 -/
  wsHolder : Assoc Nat := []
  /-- the hash engine's place: function * 2^64 + guest-physical address, plus one (R406) -/
  scan : Nat := 0
  refresh : Nat := 0
  scrubbed : Nat := 0
  /-- classes that its issue governor withholds turns from: 1 background, 2 batch too, 3 interactive too (R26) -/
  withheld : Nat := 0
  deriving DecidableEq, Repr, Inhabited

/-- A collective group table entry (R465 to R467). state: 0 none, 1 forming, 2 active, 3 suspended, 4 fabric unsupported. -/
structure Group where
  state : Nat := 1
  index : Nat := 0
  count : Nat := 1
  admitted : BitVec 32 := 0
  changed : BitVec 32 := 0
  confirmed : BitVec 32 := 0
  nonces : Assoc (BitVec 256) := []
  pbr : Assoc Nat := []
  meas : Assoc (BitVec 1536) := []
  /-- last heartbeat: resets, digest, clock -/
  beats : Assoc (Nat × BitVec 512 × Nat) := []
  sent : Nat := 0
  /-- the reset count and digest of its last heartbeat, and when the group became active -/
  out : Option (Nat × BitVec 512) := .none
  activeAt : Nat := 0
  deriving DecidableEq, Repr, Inhabited

/-- A write or message that waits for the host link, its address translated (R14): bytes of a line; an interrupt; a ring record with its place; a queue's completion word with its place. -/
inductive LinkMsg where
  | line (key ln : Nat) (mask : BitVec 128) (data : BitVec 1024)
  | msix (func vector : Nat)
  | record (func ring : Nat) (rec : BitVec 512) (isFault : Bool) (pa key : Nat)
  | cword (queue n pa key : Nat)
  deriving DecidableEq, Repr, Inhabited

/-- A breakpoint comparator and a watchpoint comparator (R449). -/
structure Breakpoint where
  en : Bool := false
  addr : Addr80 := 0
  deriving DecidableEq, Repr, Inhabited

structure Watchpoint where
  en : Bool := false
  off : Nat := 0
  len : Nat := 0
  onRead : Bool := false
  onWrite : Bool := false
  team : W32 := 0xFFFFFFFF
  deriving DecidableEq, Repr, Inhabited

/-- A switch transaction, with the teams that it has asked to leave and the life each had (R369). -/
structure Switch where
  func : Nat
  out : Nat
  into : Nat
  since : Nat
  asked : List (Nat × Life) := []
  deriving DecidableEq, Repr, Inhabited

/-- A key handover (R463): function, destination, clock of its step 1, new root. -/
structure Handover where
  func : Nat
  dest : Nat
  since : Nat
  newRoot : Nat
  frames : List Nat
  step : Nat
  deriving DecidableEq, Repr, Inhabited

/-- The module as a whole. -/
structure Module where
  ready : Bool := false
  booted : Bool := false
  bootFailed : Bool := false
  /-- thermal stop or module error: waits for module reset (R26, R460) -/
  stopped : Nat := 0
  /-- a module error met within a step: every team halts at the step's end (R460) -/
  stopDue : Bool := false
  power : Nat := 700
  governed : Bool := false
  linkUp : Bool := false
  gen : Nat := 5
  width : Nat := 16
  protocol : Nat := 1
  /-- the windows of host-managed memory that the physical function has configured: base and bytes (R13; at reset all general memory, log 66) -/
  cxlWindows : List (Nat × Nat) := [(0, 0x1F80000000), (0x2000000000, 0x1F80000000), (0x4000000000, 0x1F80000000), (0x6000000000, 0x1F80000000)]
  linkQ : List LinkMsg := []
  /-- MSI-X messages sent: function and vector, newest first -/
  msix : List (Nat × Nat) := []
  /-- answers to host reads: newest first -/
  reads : List (List Byte) := []
  /-- sideband answers, newest first -/
  sideband : List Nat := []
  hashShare : Nat := 1
  ways : Assoc (BitVec 16) := []
  quantum : Assoc (Nat × Nat) := []
  sliceIdx : Nat := 0
  sliceAt : Nat := 0
  windowAt : Nat := 0
  switch : Option Switch := .none
  handover : Option Handover := .none
  attached : Option (Nat × Nat × Nat) := .none
  bps : Assoc Breakpoint := []
  wps : Assoc Watchpoint := []
  signed : Nat := 0
  resets : Nat := 0
  /-- error counts by die * 8 + kind (R459) -/
  errors : Assoc Nat := []
  thermal : Bool := false
  restarting : Bool := false
  /-- deduplication windows: tag key to the slice that holds it (R278) -/
  dedup : Assoc Nat := []
  deriving DecidableEq, Repr, Inhabited

/-! ## What moves next -/

/-- One move of one agent: a warp's issue opportunity, a microword of a ray, a host or unit event of the opcode table, a 64-byte host write, a host read of the register window. -/
inductive Activity where
  | turn (team wid : Nat)
  | uop (ray : Nat)
  | occur (i : Instr)
  | write64 (func offset : Nat) (data : BitVec 512)
  | read (func offset size : Nat)
  deriving DecidableEq, Repr, Inhabited

/-- The issue group an instruction is performed for (R338): the team and warp, its seats and the address of the instruction. -/
structure Focus where
  team : Nat
  wid : Nat
  group : W32
  pc : W64
  /-- parked threads that perform their instruction again after a restore: no issue is counted -/
  again : Bool := false
  deriving DecidableEq, Repr, Inhabited

/-- The machine. -/
structure State where
  /-- physical memory by byte address; the weight store of die d at 2^52 + d * 2^32 (R9, R215) -/
  mem : List Host.Cell
  lines : Assoc LineMeta
  cores : Assoc Core
  teams : Assoc Team
  warps : Assoc Warp
  threads : Assoc Thread
  funcs : Assoc Func
  ctxs : Assoc Ctx
  queues : Assoc Queue
  launches : Assoc Launch
  berths : Tbl 256
  l2 : Assoc L2Line
  deep : Assoc DeepLine
  tlb : List Tlb
  copies : Assoc Copy
  gadds : Assoc GAdd
  mops : Assoc MxOp
  colls : Assoc Coll
  rays : Assoc Ray
  subs : Assoc Sub
  rqs : Assoc RecQ
  tokens : Assoc Token
  keys : Assoc Key
  hdir : Assoc HEntry
  dies : Assoc Die
  groups : Assoc Group
  mod : Module
  /-- aclk since module reset (R37) -/
  clock : Nat
  /-- the model's own fields: agents' next moves, counter of free values, the group and the ray being performed, next record number -/
  sched : List Activity
  fresh : Nat
  focus : Option Focus
  /-- watchpoints that the block reads of the instruction in progress met: thread, cause, address (R449, R490) -/
  hits : List (Nat × Nat × Addr80)
  uray : Option Nat
  nextId : Nat
  deriving DecidableEq, Repr, Inhabited

/-- Why the machine stops: it never does. Every stop of the spec is a state that goes on, a halted team or a stopped module. Safe: no behaviour is cut off. -/
inductive Fault where
  deriving DecidableEq, Repr

/-- Why an instruction has no meaning. -/
inductive Refusal where
  /-- Raised by the dispatch for an instruction the model gives no meaning. Safe: the machine stops. -/
  | notModelled (mnemonic : String)
  deriving DecidableEq, Repr, Inhabited

/-- The machine right after module reset (R22): every register at the reset value the spec gives, memory with nothing listed, no team, no queue bound, `ready` 0. Unlisted functions, contexts, cores and dies hold the default records above (assumption log 3, 8). -/
def State.reset : State :=
  { mem := [], lines := [], cores := [], teams := [], warps := [], threads := [], funcs := [], ctxs := [], queues := [],
    launches := [], berths := [], l2 := [], deep := [], tlb := [], copies := [], gadds := [], mops := [], colls := [],
    rays := [], subs := [], rqs := [], tokens := [], keys := [], hdir := [], dies := [], groups := [], mod := {}, clock := 0,
    sched := [], fresh := 0, focus := none, hits := [], uray := none, nextId := 1 }

end Sys2Proof.Machine

namespace Sys2Proof.Config

/-- Which agent moves next when `sched` names none: nothing in the manual orders the agents (log 1). -/
opaque nextActivity : Nat → Sys2Proof.Machine.Activity

end Sys2Proof.Config
end

