-- ==== Sys2Proof/Machine/Base.lean ====
section
/-! DEFINITION. Reading and changing the tables of State, the free values, launch-record fields, and recording a cause in a thread. -/

namespace Sys2Proof.Machine

abbrev Out := Host.Outcome State Fault Refusal

/-- Number of a warp and of a thread in the flat tables. -/
def wkey (team wid : Nat) : Nat := team * 32 + wid
def tkey (team wid seat : Nat) : Nat := (team * 32 + wid) * 32 + seat

/-- The parts of a thread number. -/
def teamOf (k : Nat) : Nat := k / 1024
def warpOf (k : Nat) : Nat := k / 32
def widOf (k : Nat) : Nat := k / 32 % 32
def seatOf (k : Nat) : Nat := k % 32

def State.thread (s : State) (k : Nat) : Thread := (Assoc.find s.threads k).getD {}
def State.warp (s : State) (k : Nat) : Warp := (Assoc.find s.warps k).getD {}
def State.team (s : State) (k : Nat) : Team := (Assoc.find s.teams k).getD {}
def State.core (s : State) (k : Nat) : Core := (Assoc.find s.cores k).getD {}
def State.func (s : State) (k : Nat) : Func := (Assoc.find s.funcs k).getD {}
def State.queue (s : State) (k : Nat) : Queue := (Assoc.find s.queues k).getD {}
def State.launch (s : State) (k : Nat) : Launch := (Assoc.find s.launches k).getD {}
def State.die (s : State) (k : Nat) : Die := (Assoc.find s.dies k).getD {}
def State.key (s : State) (k : Nat) : Key := (Assoc.find s.keys k).getD {}
def ckey (func ctx : Nat) : Nat := func * 256 + ctx
def State.ctx (s : State) (k : Nat) : Ctx := (Assoc.find s.ctxs k).getD {}
def State.ctxOf (s : State) (t : Team) : Ctx := s.ctx (ckey t.func t.ctx)

def State.setThread (s : State) (k : Nat) (x : Thread) : State := { s with threads := Assoc.put s.threads k x }
def State.setWarp (s : State) (k : Nat) (x : Warp) : State := { s with warps := Assoc.put s.warps k x }
def State.setTeam (s : State) (k : Nat) (x : Team) : State := { s with teams := Assoc.put s.teams k x }
def State.setCore (s : State) (k : Nat) (x : Core) : State := { s with cores := Assoc.put s.cores k x }
def State.setFunc (s : State) (k : Nat) (x : Func) : State := { s with funcs := Assoc.put s.funcs k x }
def State.setQueue (s : State) (k : Nat) (x : Queue) : State := { s with queues := Assoc.put s.queues k x }
def State.setLaunch (s : State) (k : Nat) (x : Launch) : State := { s with launches := Assoc.put s.launches k x }
def State.setDie (s : State) (k : Nat) (x : Die) : State := { s with dies := Assoc.put s.dies k x }
def State.setKey (s : State) (k : Nat) (x : Key) : State := { s with keys := Assoc.put s.keys k x }
def State.setCtx (s : State) (k : Nat) (x : Ctx) : State := { s with ctxs := Assoc.put s.ctxs k x }

def State.updThread (s : State) (k : Nat) (f : Thread → Thread) : State := s.setThread k (f (s.thread k))
def State.updWarp (s : State) (k : Nat) (f : Warp → Warp) : State := s.setWarp k (f (s.warp k))
def State.updTeam (s : State) (k : Nat) (f : Team → Team) : State := s.setTeam k (f (s.team k))
def State.updCore (s : State) (k : Nat) (f : Core → Core) : State := s.setCore k (f (s.core k))
def State.updFunc (s : State) (k : Nat) (f : Func → Func) : State := s.setFunc k (f (s.func k))
def State.updQueue (s : State) (k : Nat) (f : Queue → Queue) : State := s.setQueue k (f (s.queue k))
def State.updLaunch (s : State) (k : Nat) (f : Launch → Launch) : State := s.setLaunch k (f (s.launch k))
def State.updDie (s : State) (k : Nat) (f : Die → Die) : State := s.setDie k (f (s.die k))
def State.updKey (s : State) (k : Nat) (f : Key → Key) : State := s.setKey k (f (s.key k))
def State.updCtx (s : State) (k : Nat) (f : Ctx → Ctx) : State := s.setCtx k (f (s.ctx k))
def State.updMod (s : State) (f : Module → Module) : State := { s with mod := f s.mod }

/-- A free bit for this moment (log 2). -/
def State.flip (s : State) : Bool × State := (Config.freeBit (2 * s.fresh), { s with fresh := s.fresh + 1 })

/-- A free number for this moment (log 2). -/
def State.pick (s : State) : Nat × State := (Config.freeNat (2 * s.fresh), { s with fresh := s.fresh + 1 })

/-- A new number for a unit record. -/
def State.newId (s : State) : Nat × State := (s.nextId, { s with nextId := s.nextId + 1 })

/-- The thread numbers of a team, in sr.tid order, and of one warp. -/
def teamThreads (t : Nat) (tm : Team) : List Nat := (List.range (tm.warps * 32)).map (fun i => t * 1024 + i)
def warpThreads (w : Nat) : List Nat := (List.range 32).map (fun i => w * 32 + i)

/-- Unit numbers of R8. -/
def clusterOf (core : Nat) : Nat := core / 4
def dieOf (core : Nat) : Nat := core / 96

/-- What is being performed waits for room that is not there, and is not performed now (R306, R491): the mark that the log's own waits use, under a reason of its own. -/
def State.holdBack (s : State) (ctx : Nat) : State := s.updCtx ctx (fun c => { c with miss := true, missFor := 9 })

/-! ## Launch record fields (R358) -/

def lrQ (r : BitVec 512) (byte : Nat) : W64 := r.extractLsb' (8 * byte) 64
def lrD (r : BitVec 512) (byte : Nat) : W32 := r.extractLsb' (8 * byte) 32
def lrEntryHi (r : BitVec 512) : B16 := (lrQ r 0x28).extractLsb' 48 16
def lrParamHi (r : BitVec 512) : B16 := (lrQ r 0x28).extractLsb' 32 16
def lrDepHi (r : BitVec 512) : B16 := (lrQ r 0x28).extractLsb' 16 16
def lrEntry (r : BitVec 512) : Addr80 := lrEntryHi r ++ lrQ r 0
def lrParam (r : BitVec 512) : Addr80 := lrParamHi r ++ lrQ r 8
def lrDep (r : BitVec 512) : Addr80 := lrDepHi r ++ lrQ r 0x10
def lrTrapMask (r : BitVec 512) : Nat := field (lrQ r 0x28) 14 0
def lrTrapd (r : BitVec 512) : W32 := lrD r 0x24
def lrTarget (r : BitVec 512) : Nat := field (lrQ r 0x30) 63 16
def lrWorld (r : BitVec 512) : Nat := field (lrQ r 0x30) 15 12
def lrSpad (r : BitVec 512) : Nat := field (lrQ r 0x30) 11 0 * 256
def lrCtl (r : BitVec 512) : W64 := lrQ r 0x38
def lrExpect (r : BitVec 512) : Nat := field (lrCtl r) 63 40
def lrClass (r : BitVec 512) : Nat := field (lrCtl r) 39 38
def lrPrio (r : BitVec 512) : Nat := field (lrCtl r) 37 35
def lrIdem (r : BitVec 512) : Bool := bit (lrCtl r) 34
def lrFact (r : BitVec 512) : Bool := bit (lrCtl r) 33
def lrCword (r : BitVec 512) : Bool := bit (lrCtl r) 32
def lrCscope (r : BitVec 512) : Nat := field (lrCtl r) 31 29
def lrWarps (r : BitVec 512) : Nat := field (lrCtl r) 28 24 + 1
def lrPwarps (r : BitVec 512) : Nat := field (lrCtl r) 23 19
def lrBud0 (r : BitVec 512) : Nat := (field (lrCtl r) 18 13 + 1) * 8
def lrBud1 (r : BitVec 512) : Nat := (field (lrCtl r) 12 7 + 1) * 8
def lrDepen (r : BitVec 512) : Bool := bit (lrCtl r) 6
def lrTeams (r : BitVec 512) : Nat := ((lrD r 0x18).toNat + 1) * ((lrD r 0x1C).toNat + 1) * ((lrD r 0x20).toNat + 1)

/-- The vector budget of warp w under a launch record (R330, R358). -/
def lrBudget (r : BitVec 512) (w : Nat) : Nat :=
  if lrPwarps r = 0 then lrBud0 r else if w < lrPwarps r then lrBud0 r else lrBud1 r

/-! ## Modes of a context (R39, R315, R361) -/

def Ctx.checked (c : Ctx) : Bool := bit c.mode 0 || decide (c.logMode = 2)
def Ctx.hostSched (c : Ctx) : Bool := bit c.mode 1
def Ctx.hostFault (c : Ctx) : Bool := bit c.mode 2
def Ctx.hostCompl (c : Ctx) : Bool := bit c.mode 3
def Ctx.hostMerge (c : Ctx) : Bool := bit c.mode 4
def Ctx.hostErase (c : Ctx) : Bool := bit c.mode 5

/-! ## Causes (R424 to R433) -/

def causeClass (c : BitVec 10) : Nat := c.toNat / 64

/-- Release every scratchpad lock a thread holds, and close its window (R255, R256). -/
def State.dropLocks (s : State) (k : Nat) : State :=
  let t := s.team (teamOf k)
  let s := s.updCore t.core (fun c => { c with locks := c.locks.filter (fun p => decide (p.2 ≠ k)) })
  s.updThread k (fun th => { th with win := none })

/-- What the team does when a thread records a cause of a class other than none (R433): it begins to halt, and the thread's warp issues nothing more. -/
def State.callHalt (s : State) (k : Nat) : State :=
  let tm := s.team (teamOf k)
  let s := s.updWarp (warpOf k) (fun w => { w with halted := true })
  match tm.life with
  | .resident | .draining _ => s.setTeam (teamOf k) { tm with life := .halting, haltAt := s.clock }
  | _ => s

/-- In the handler the record of the entry stands until the handler raises a cause; a stop reason replaces no cause (R430, R436, R437). -/
def Thread.showsEntry (th : Thread) : Bool :=
  match th.trap with
  | some tr => decide (th.rcd.cause = 0x3C0 ∨ (causeClass th.rcd.cause = 15 ∧ tr.rcd.cause ≠ 0x3C0))
  | none => false

/-- The record that stands for a thread. -/
def Thread.shown (th : Thread) : FaultRec :=
  match th.trap with
  | some tr => if th.showsEntry then tr.rcd else th.rcd
  | none => th.rcd

/-- The fields of a record about to be written. -/
structure NewCause where
  pc : W64
  addr : Addr80
  code : Nat
  late : Bool
  done : W32
  tcount : Nat

/-- Record a cause in a thread's fault record (R427 to R430): a non-empty record is replaced only by a lower class; otherwise more is set. -/
def State.recordCause (s : State) (k : Nat) (n : NewCause) : State :=
  let th := s.thread k
  if th.st = .exited then s
  else
    let r := th.rcd
    let new : FaultRec := { pc := n.pc, addr := n.addr.extractLsb' 0 64, addrhi := n.addr.extractLsb' 64 16, cause := BitVec.ofNat 10 n.code, late := n.late, more := r.more, done := n.done, fx := th.fx, skid := r.skid, token := 0, tcount := n.tcount }
    let s := if n.code / 64 < causeClass r.cause ∨ (causeClass r.cause = 15 ∧ r.cause = 0x3C0)
      then s.setThread k { th with rcd := new }
      else s.setThread k { th with rcd := { r with more := true } }
    let s := if th.win.isSome then s.dropLocks k else s
    if n.code / 64 < 15 then s.callHalt k else s

/-- A thread counts among those that faulted after their exit. -/
def Team.late (t : Team) (thread : Nat) : Team := if t.lateThreads.contains thread then t else { t with lateThreads := t.lateThreads ++ [thread] }

/-- A late cause of an engine: in the record of the thread that issued the operation, or where that has exited in the team's account for its completion record (R174, R277, R429). -/
def State.lateCause (s : State) (team thread : Nat) (pc : W64) (tcount code : Nat) (addr : Addr80) (done : W32) : State :=
  if (s.thread thread).st = .exited then
    (s.updTeam team (fun t => t.late thread)).updTeam team (fun t => if causeClass t.lateCause = 15 ∨ code / 64 < causeClass t.lateCause then { t with lateCause := BitVec.ofNat 10 code, lateAddr := addr.extractLsb' 0 64, lateHi := addr.extractLsb' 64 16 } else t)
  else s.recordCause thread { pc := pc, addr := addr, code := code, late := true, done := done, tcount := tcount }

end Sys2Proof.Machine
end

