-- ==== Sys2Proof/Machine/Flags.lean ====
section
/-! DEFINITION. The sticky flags of `cr.fx` (R90, R91) and their combination. -/

namespace Sys2Proof.Machine

def fxNv : W32 := 0x01
def fxDz : W32 := 0x02
def fxOf : W32 := 0x04
def fxUf : W32 := 0x08
def fxNx : W32 := 0x10
def fxSb : W32 := 0x20
def fxSt : W32 := 0x40
def fxSn : W32 := 0x80

/-- A flag where its condition holds. -/
def fxIf (b : Bool) (f : W32) : W32 := if b then f else 0

/-- Flags of several elements or steps (R91: each contributes). -/
def fxAll (fs : List W32) : W32 := fs.foldl (· ||| ·) 0

/-- An instruction's flags are ORed into the thread's register; none is ever cleared by it (R91). -/
def Thread.raiseFx (th : Thread) (f : W32) : Thread := { th with fx := th.fx ||| f }

/-- A write of `cr.fx` replaces bits [7:0]; the reserved bits read zero (R90, R91). -/
def Thread.writeFx (th : Thread) (x : W32) : Thread := { th with fx := x &&& 0xFF }

end Sys2Proof.Machine
end

