-- ==== Sys2Proof/Machine/Float.lean ====
section
/-! DEFINITION. Floating formats, the values they encode, the one rounding of every result, and exact arithmetic on values (R78 to R87, R93, R125 to R131). -/

namespace Sys2Proof.Machine

/-! ## Formats (R78) -/

inductive Fmt where
  | f32 | f16 | bf16 | e4m3 | e5m2 | e2m1
  deriving DecidableEq, Repr, Inhabited

/-- Width in bits. -/
def Fmt.width : Fmt → Nat
  | .f32 => 32 | .f16 | .bf16 => 16 | .e4m3 | .e5m2 => 8 | .e2m1 => 4

/-- Fraction bits. -/
def Fmt.frac : Fmt → Nat
  | .f32 => 23 | .f16 => 10 | .bf16 => 7 | .e4m3 => 3 | .e5m2 => 2 | .e2m1 => 1

def Fmt.bias : Fmt → Int
  | .f32 | .bf16 => 127 | .f16 | .e5m2 => 15 | .e4m3 => 7 | .e2m1 => 1

/-- The code of the largest finite magnitude. -/
def Fmt.maxCode : Fmt → Nat
  | .f32 => 0x7F7FFFFF | .f16 => 0x7BFF | .bf16 => 0x7F7F | .e4m3 => 0x7E | .e5m2 => 0x7B | .e2m1 => 7

/-- The code of infinity; 0 where there is none. -/
def Fmt.infCode : Fmt → Nat
  | .f32 => 0x7F800000 | .f16 => 0x7C00 | .bf16 => 0x7F80 | .e5m2 => 0x7C | .e4m3 | .e2m1 => 0

def Fmt.hasInf (f : Fmt) : Bool := decide (f.infCode ≠ 0)

/-- The canonical NaN (R80); E2M1 has none and its code 0 is never used for one. -/
def Fmt.nan : Fmt → Nat
  | .f32 => 0x7FC00000 | .f16 => 0x7E00 | .bf16 => 0x7FC0 | .e4m3 => 0x7F | .e5m2 => 0x7E | .e2m1 => 0

/-- ftz acts on FP32, FP16 and BF16 only (R87). -/
def Fmt.flushes : Fmt → Bool
  | .f32 | .f16 | .bf16 => true
  | _ => false

def Fmt.signBit (f : Fmt) : Nat := 2 ^ (f.width - 1)

/-- The exponent of the last place of subnormals. -/
def Fmt.minQ (f : Fmt) : Int := 1 - f.bias - (f.frac : Int)

/-! ## Values -/

/-- A value: NaN (signalling or quiet), infinity, or (−1)^neg × m × 2^e. -/
inductive FVal where
  | nan (sig : Bool)
  | inf (neg : Bool)
  | fin (neg : Bool) (m : Nat) (e : Int)
  deriving DecidableEq, Repr, Inhabited

/-- The magnitude code of a word. -/
def Fmt.mag (f : Fmt) (x : Nat) : Nat := x % f.signBit
def Fmt.neg (f : Fmt) (x : Nat) : Bool := decide (f.signBit ≤ x % 2 ^ f.width)

/-- The value of a word (R78). -/
def Fmt.decode (f : Fmt) (x : Nat) : FVal :=
  let g := f.mag x
  if f.hasInf && decide (g = f.infCode) then .inf (f.neg x)
  else if (f.hasInf && decide (f.infCode < g)) || (decide (f = .e4m3) && decide (g = 0x7F)) then
    .nan (!g.testBit (f.frac - 1))
  else
    let ex := g / 2 ^ f.frac
    if ex = 0 then .fin (f.neg x) g f.minQ
    else .fin (f.neg x) (2 ^ f.frac + g % 2 ^ f.frac) (f.minQ + (ex : Int) - 1)

/-- A subnormal code. -/
def Fmt.isSub (f : Fmt) (x : Nat) : Bool := decide (0 < f.mag x ∧ f.mag x < 2 ^ f.frac)

/-- The value an operation reads: with ftz a subnormal input is a zero of its sign (R87). -/
def Fmt.read (f : Fmt) (ftz : Bool) (x : Nat) : FVal :=
  if ftz && f.flushes && f.isSub x then .fin (f.neg x) 0 f.minQ else f.decode x

def Fmt.zero (f : Fmt) (neg : Bool) : Nat := if neg then f.signBit else 0
def Fmt.signed (f : Fmt) (neg : Bool) (mag : Nat) : Nat := (if neg then f.signBit else 0) + mag

/-! ## Rounding (R83 to R87) -/

/-- A word and the flags it raised. -/
abbrev Rounded := Nat × W32

/-- Whether a magnitude with remainder r of a place 2^sh is rounded up (R83). -/
def roundsUp (rnd : Rnd) (neg : Bool) (n r sh : Nat) : Bool :=
  match rnd with
  | .rn => decide (2 ^ sh < 2 * r) || (decide (2 * r = 2 ^ sh) && decide (n % 2 = 1))
  | .rz => false
  | .ru => decide (0 < r) && !neg
  | .rd => decide (0 < r) && neg

/-- m × 2^e rounded to a multiple of 2^q: the multiple, and whether it is inexact. -/
def roundTo (rnd : Rnd) (neg : Bool) (m : Nat) (e q : Int) : Nat × Bool :=
  if q ≤ e then (m * 2 ^ (e - q).toNat, false)
  else
    let sh := (q - e).toNat
    let n := m / 2 ^ sh
    let r := m % 2 ^ sh
    (if roundsUp rnd neg n r sh then n + 1 else n, decide (r ≠ 0))

/-- The overflowed result (R84, R85). -/
def Fmt.overflow (f : Fmt) (rnd : Rnd) (neg : Bool) : Rounded :=
  if !f.hasInf then (f.signed neg f.maxCode, fxOf ||| fxNx ||| fxSt)
  else
    let toInf := match rnd with
      | .rn => true
      | .rz => false
      | .ru => !neg
      | .rd => neg
    (f.signed neg (if toInf then f.infCode else f.maxCode), fxOf ||| fxNx)

/-- Round an exact nonzero magnitude m × 2^e once. -/
def Fmt.roundMag (f : Fmt) (rnd : Rnd) (ftz neg : Bool) (m : Nat) (e : Int) : Rounded :=
  let E := e + (Nat.log2 m : Int)
  let q := max (E - (f.frac : Int)) f.minQ
  let r := roundTo rnd neg m e q
  let code := (q - f.minQ).toNat * 2 ^ f.frac + r.1
  let emin := 1 - f.bias
  let tiny := decide (E < emin) && (let u := roundTo rnd neg m e (E - (f.frac : Int)); !(decide (u.1 = 2 ^ (f.frac + 1)) && decide (E + 1 = emin)))
  if f.maxCode < code then f.overflow rnd neg
  else if ftz && f.flushes && tiny then (f.zero neg, fxUf ||| fxNx)
  else (f.signed neg code, fxIf r.2 fxNx ||| fxIf (tiny && r.2) fxUf)

/-- Round a value: zeros and infinities keep their sign, NaN is canonical (R80). -/
def Fmt.round (f : Fmt) (rnd : Rnd) (ftz : Bool) (x : FVal) : Rounded :=
  match x with
  | .nan _ => (f.nan, 0)
  | .inf neg => (f.signed neg f.infCode, 0)
  | .fin neg m e => if m = 0 then (f.zero neg, 0) else f.roundMag rnd ftz neg m e

/-- A value that stands for num / den × 2^e: exact where the division is, else strictly between the same representable values and midpoints. `bits` places are kept. -/
def ratio (neg : Bool) (num den : Nat) (e : Int) (bits : Nat) : FVal :=
  let n := num * 2 ^ bits
  .fin neg (2 * (n / den) + (if n % den = 0 then 0 else 1)) (e - (bits : Int) - 1)

/-! ## Exact arithmetic on values (R82, R125) -/

def FVal.isNan : FVal → Bool
  | .nan _ => true
  | _ => false
def FVal.isSig : FVal → Bool
  | .nan s => s
  | _ => false
def FVal.isInf : FVal → Bool
  | .inf _ => true
  | _ => false
def FVal.isZero : FVal → Bool
  | .fin _ m _ => decide (m = 0)
  | _ => false
def FVal.isNeg : FVal → Bool
  | .nan _ => false
  | .inf n => n
  | .fin n _ _ => n

/-- Signed integer at a scale not above the value's own. -/
def FVal.at_ (x : FVal) (e0 : Int) : Int :=
  match x with
  | .fin neg m e => let v : Int := ((m * 2 ^ (e - e0).toNat : Nat) : Int); if neg then -v else v
  | _ => 0

def FVal.exp : FVal → Int
  | .fin _ _ e => e
  | _ => 0

/-- The sign of an exact sum of zero (R82): negative under `rd` alone, but for a sum of two zeros of one sign, which keeps it. -/
def zeroSign (rnd : Rnd) (xs : List FVal) : Bool :=
  match xs with
  | [x, y] => if x.isZero && y.isZero && x.isNeg == y.isNeg then x.isNeg else decide (rnd = .rd)
  | _ => decide (rnd = .rd)

/-- The least exponent of a list of terms, none of them NaN. -/
def minExp : List FVal → Int
  | [] => 0
  | [x] => x.exp
  | x :: xs => min x.exp (minExp xs)

/-- The exact sum of terms, with the invalid flag: NaN, opposite infinities (R125). -/
def sumVals (rnd : Rnd) (xs : List FVal) : FVal × W32 :=
  if xs.any FVal.isNan then (.nan false, fxIf (xs.any FVal.isSig) fxNv)
  else
    let infs := xs.filter FVal.isInf
    match infs with
    | i :: _ => if infs.any (fun y => y.isNeg != i.isNeg) then (.nan false, fxNv) else (.inf i.isNeg, 0)
    | [] =>
      let e0 := minExp xs
      let v := xs.foldl (fun (a : Int) x => a + x.at_ e0) 0
      if v = 0 then (.fin (zeroSign rnd xs) 0 e0, 0) else (.fin (decide (v < 0)) v.natAbs e0, 0)

/-- The exact product (R125). -/
def mulVals (x y : FVal) : FVal × W32 :=
  match x, y with
  | .nan a, .nan b => (.nan false, fxIf (a || b) fxNv)
  | .nan a, _ => (.nan false, fxIf a fxNv)
  | _, .nan b => (.nan false, fxIf b fxNv)
  | .inf a, .inf b => (.inf (a != b), 0)
  | .inf a, .fin b m _ => if m = 0 then (.nan false, fxNv) else (.inf (a != b), 0)
  | .fin a m _, .inf b => if m = 0 then (.nan false, fxNv) else (.inf (a != b), 0)
  | .fin a m e, .fin b n g => (.fin (a != b) (m * n) (e + g), 0)

/-- The quotient (R125, R132). -/
def divVals (x y : FVal) : FVal × W32 :=
  match x, y with
  | .nan a, .nan b => (.nan false, fxIf (a || b) fxNv)
  | .nan a, _ => (.nan false, fxIf a fxNv)
  | _, .nan b => (.nan false, fxIf b fxNv)
  | .inf _, .inf _ => (.nan false, fxNv)
  | .inf a, .fin b _ _ => (.inf (a != b), 0)
  | .fin a _ e, .inf b => (.fin (a != b) 0 e, 0)
  | .fin a m e, .fin b n g =>
    if n = 0 then (if m = 0 then (.nan false, fxNv) else (.inf (a != b), fxDz))
    else if m = 0 then (.fin (a != b) 0 (e - g), 0)
    else (ratio (a != b) m n (e - g) 80, 0)

/-! ## Operations on words -/

/-- Round the outcome of an exact operation, keeping its flags. -/
def Fmt.finish (f : Fmt) (rnd : Rnd) (ftz : Bool) (r : FVal × W32) : Rounded :=
  let o := f.round rnd ftz r.1
  (o.1, o.2 ||| r.2)

def Fmt.add (f : Fmt) (rnd : Rnd) (ftz : Bool) (a b : Nat) : Rounded := f.finish rnd ftz (sumVals rnd [f.read ftz a, f.read ftz b])
def Fmt.mul (f : Fmt) (rnd : Rnd) (ftz : Bool) (a b : Nat) : Rounded := f.finish rnd ftz (mulVals (f.read ftz a) (f.read ftz b))
def Fmt.div (f : Fmt) (rnd : Rnd) (ftz : Bool) (a b : Nat) : Rounded := f.finish rnd ftz (divVals (f.read ftz a) (f.read ftz b))

/-- One rounding of x × y + z; 0 × ∞ is invalid whatever z holds (R125, R126). -/
def Fmt.fma (f : Fmt) (rnd : Rnd) (ftz : Bool) (a b c : Nat) : Rounded :=
  let p := mulVals (f.read ftz a) (f.read ftz b)
  let z := f.read ftz c
  let s := sumVals rnd [p.1, z]
  f.finish rnd ftz (s.1, s.2 ||| p.2)

/-- Two products and an FP32 addend, rounded once to FP32 (R127). -/
def dot2 (f : Fmt) (rnd : Rnd) (ftz : Bool) (a b c : Nat) : Rounded :=
  let p := mulVals (f.read ftz (a % 65536)) (f.read ftz (b % 65536))
  let q := mulVals (f.read ftz (a / 65536)) (f.read ftz (b / 65536))
  let s := sumVals rnd [p.1, q.1, Fmt.f32.read ftz c]
  Fmt.f32.finish rnd ftz (s.1, s.2 ||| p.2 ||| q.2)

/-- Order of two numbers that are no NaN: −0 and +0 are equal here. -/
def FVal.less (x y : FVal) : Bool :=
  match x, y with
  | .nan _, _ | _, .nan _ => false
  | .inf a, .inf b => a && !b
  | .inf a, .fin _ _ _ => a
  | .fin _ _ _, .inf b => !b
  | .fin _ _ _, .fin _ _ _ => let e0 := min x.exp y.exp; decide (x.at_ e0 < y.at_ e0)

def FVal.same (x y : FVal) : Bool := !x.isNan && !y.isNan && !x.less y && !y.less x

/-- The word an operand stands for after any flush. -/
def Fmt.flushed (f : Fmt) (ftz : Bool) (x : Nat) : Nat := if ftz && f.flushes && f.isSub x then f.zero (f.neg x) else x % 2 ^ f.width

/-- `fmin` and `fmax` (R128): no rounding, −0 below +0, a NaN gives way to a number. -/
def Fmt.minmax (f : Fmt) (isMax ftz : Bool) (a b : Nat) : Rounded :=
  let x := f.read ftz a
  let y := f.read ftz b
  let fl := fxIf (x.isSig || y.isSig) fxNv
  if x.isNan && y.isNan then (f.nan, fl)
  else if x.isNan then (f.flushed ftz b, fl)
  else if y.isNan then (f.flushed ftz a, fl)
  else
    let aFirst := x.less y || (x.same y && x.isNeg && !y.isNeg)
    (if aFirst != isMax then f.flushed ftz a else f.flushed ftz b, fl)

/-- `fsetp` (R129): the comparison and the invalid flag. -/
def fcmp (c : FCmp) (x y : FVal) : Bool × W32 :=
  let un := x.isNan || y.isNan
  let sig := x.isSig || y.isSig
  let lt := x.less y
  let gt := y.less x
  let eq := !un && !lt && !gt
  match c with
  | .eq => (eq, fxIf sig fxNv)
  | .ne => (!eq, fxIf sig fxNv)
  | .lt => (lt, fxIf un fxNv)
  | .le => (lt || eq, fxIf un fxNv)
  | .gt => (gt, fxIf un fxNv)
  | .ge => (gt || eq, fxIf un fxNv)
  | .num => (!un, fxIf sig fxNv)
  | .nan => (un, fxIf sig fxNv)
  | .equ => (un || eq, fxIf sig fxNv)
  | .neu => (un || !eq, fxIf sig fxNv)
  | .ltu => (un || lt, fxIf sig fxNv)
  | .leu => (un || lt || eq, fxIf sig fxNv)
  | .gtu => (un || gt, fxIf sig fxNv)
  | .geu => (un || gt || eq, fxIf sig fxNv)

/-- `fclass` (R130). -/
def Fmt.cls (f : Fmt) (x : Nat) : Nat :=
  match f.decode x with
  | .nan sig => if sig then 1 else 2
  | .inf neg => if neg then 4 else 0x200
  | .fin neg m _ =>
    if m = 0 then (if neg then 0x20 else 0x40)
    else if f.isSub x then (if neg then 0x10 else 0x80)
    else (if neg then 8 else 0x100)

/-- `frnd` (R131): integral, the sign kept, no flag but those of NaN. -/
def Fmt.integral (f : Fmt) (rnd : Rnd) (ftz : Bool) (x : Nat) : Rounded :=
  match f.read ftz x with
  | .nan sig => (f.nan, fxIf sig fxNv)
  | .inf neg => (f.signed neg f.infCode, 0)
  | .fin neg m e => ((f.round .rz false (.fin neg (roundTo rnd neg m e 0).1 0)).1, 0)

end Sys2Proof.Machine
end

