-- ==== Sys2Proof/Machine/Special.lean ====
section
/-! DEFINITION. The special functions, correctly rounded (R132, R133): roots by exact integer square roots; the others by a fixed-point enclosure of 512 bits, whose two ends must round alike. Where they do not, which of the two roundings stands is a free value (assumption log 7). -/

namespace Sys2Proof.Machine

/-! ## Exact roots -/

/-- The integer square root by bits, from bit `k` down. -/
def isqrtFrom (x : Nat) : Nat → Nat → Nat
  | 0, r => r
  | k + 1, r => let c := r + 2 ^ k; isqrtFrom x k (if c * c ≤ x then c else r)

def isqrt (x : Nat) : Nat := isqrtFrom x (Nat.log2 x / 2 + 1) 0

/-- √(m × 2^e) as a value that rounds like it: 120 places of an integer root and a sticky place. -/
def sqrtVal (m : Nat) (e : Int) : FVal :=
  let odd := e % 2 ≠ 0
  let x := m * 2 ^ (240 + (if odd then 1 else 0))
  let g := if odd then e - 1 else e
  let r := isqrt x
  .fin false (2 * r + (if r * r = x then 0 else 1)) (g / 2 - 121)

/-- 1 / √(m × 2^e). -/
def rsqrtVal (m : Nat) (e : Int) : FVal :=
  let odd := e % 2 ≠ 0
  let n := if odd then 2 * m else m
  let g := if odd then e - 1 else e
  let k := 240 + 2 * (Nat.log2 n + 1)
  let q := 2 ^ k / n
  let r := isqrt q
  .fin false (2 * r + (if r * r * n = 2 ^ k then 0 else 1)) (-(g / 2) - (k / 2 : Nat) - 1)

/-! ## Fixed point: P fraction bits -/

def fixP : Nat := 512
def fixOne : Nat := 2 ^ fixP
/-- π and ln 2, truncated to 512 fraction bits. -/
def fixPi : Nat := 0x3243f6a8885a308d313198a2e03707344a4093822299f31d0082efa98ec4e6c89452821e638d01377be5466cf34e90c6cc0ac29b7c97c50dd3f84d5b5b5470917
def fixLn2 : Nat := 0xb17217f7d1cf79abc9e3b39803f2f6af40f343267298b62d8a0d175b8baafa2be7b876206debac98559552fb4afa1b10ed2eae35c138214427573b291169b825

def fixMul (a b : Nat) : Nat := a * b / fixOne

/-- e^z for 0 ≤ z < 1: the Taylor sum from term `n` with value `t`. -/
def expSeries (z : Nat) : Nat → Nat → Nat → Nat → Nat
  | 0, _, _, acc => acc
  | k + 1, n, t, acc => expSeries z k (n + 1) (fixMul t z / (n + 1)) (acc + t)

def fixExp (z : Nat) : Nat := expSeries z 120 0 fixOne 0

/-- The series of sin (from z, n = 1) and cos (from 1, n = 0), terms alternating. -/
def trigSeries (z2 : Nat) : Nat → Nat → Nat → Bool → Nat → Nat
  | 0, _, _, _, acc => acc
  | k + 1, n, t, plus, acc => trigSeries z2 k (n + 2) (fixMul t z2 / ((n + 1) * (n + 2))) (!plus) (if plus then acc + t else acc - t)

def fixSin (z : Nat) : Nat := trigSeries (fixMul z z) 60 1 z true 0
def fixCos (z : Nat) : Nat := trigSeries (fixMul z z) 60 0 fixOne true 0

/-- atanh w for 0 ≤ w ≤ 1/3. -/
def atanhSeries (w2 : Nat) : Nat → Nat → Nat → Nat → Nat
  | 0, _, _, acc => acc
  | k + 1, n, t, acc => atanhSeries w2 k (n + 2) (fixMul t w2) (acc + t / n)

def fixAtanh (w : Nat) : Nat := atanhSeries (fixMul w w) 180 1 w 0

/-- The width allowed to either side of a fixed-point result: far above the error of the sums above. -/
def fixSlack : Nat := 2 ^ 20

/-- Round an enclosed value (−1)^neg × r × 2^(x − P). -/
def roundEnclosed (f : Fmt) (rnd : Rnd) (ftz neg : Bool) (r : Nat) (x : Int) (fn arg : Nat) : Rounded :=
  let lo := f.roundMag rnd ftz neg (r - fixSlack) (x - (fixP : Int))
  let hi := f.roundMag rnd ftz neg (r + fixSlack) (x - (fixP : Int))
  if lo = hi then lo else if Config.undecided fn arg % 2 = 0 then lo else hi

/-- A value just below m × 2^e in magnitude. -/
def justBelow (neg : Bool) (m : Nat) (e : Int) : FVal := .fin neg (m * 2 ^ 200 - 1) (e - 200)

/-! ## The functions -/

/-- m × 2^e in fixed point; fraction bits beyond P do not occur in the ranges used. -/
def toFix (m : Nat) (e : Int) : Nat := if 0 ≤ e + (fixP : Int) then m * 2 ^ (e + (fixP : Int)).toNat else m / 2 ^ (-(e + (fixP : Int))).toNat

/-- 2^x: the integer part becomes the exponent (held to ±2^20, beyond every format's range), the fraction is enclosed. -/
def ex2 (f : Fmt) (rnd : Rnd) (ftz : Bool) (arg : Nat) (neg : Bool) (m : Nat) (e : Int) : Rounded :=
  if m = 0 then f.round rnd ftz (.fin false 1 0)
  else if 20 < e + (Nat.log2 m : Int) then f.roundMag rnd ftz false (2 ^ 60 + 1) (if neg then -(2 ^ 20 : Int) else 2 ^ 20)
  else
    let x : Int := if neg then -((toFix m e : Nat) : Int) else ((toFix m e : Nat) : Int)
    let n := x / (fixOne : Int)
    let fr := (x % (fixOne : Int)).toNat
    if fr = 0 then f.roundMag rnd ftz false 1 n
    else roundEnclosed f rnd ftz false (fixExp (fixMul fr fixLn2)) n 3 arg

/-- log₂(m × 2^e). -/
def lg2 (f : Fmt) (rnd : Rnd) (ftz : Bool) (arg m : Nat) (e : Int) : Rounded :=
  let k := Nat.log2 m
  let E := e + (k : Int)
  let y := m * 2 ^ (fixP - k)
  if y = fixOne then f.round rnd ftz (.fin (decide (E < 0)) E.natAbs 0)
  else
    let l := 2 * fixAtanh ((y - fixOne) * fixOne / (y + fixOne)) * fixOne / fixLn2
    let v : Int := E * (fixOne : Int) + (l : Int)
    roundEnclosed f rnd ftz (decide (v < 0)) v.natAbs 0 4 arg

/-- sin or cos of π × (quarter × 1/2 + fr), 0 ≤ fr < 1/2. -/
def trigPi (f : Fmt) (rnd : Rnd) (ftz : Bool) (fn arg : Nat) (neg useCos : Bool) (fr : Nat) : Rounded :=
  if fr = 0 then (if useCos then f.round rnd ftz (.fin neg 1 0) else (f.zero neg, 0))
  else
    let small := decide (4 * fr ≤ fixOne)
    let g := if small then fr else fixOne / 2 - fr
    let z := fixMul fixPi g
    roundEnclosed f rnd ftz neg (if useCos == small then fixCos z else fixSin z) 0 fn arg

/-- The argument modulo 2 as a quarter number and a rest below one half. -/
def halfTurns (m : Nat) (e : Int) : Nat × Nat :=
  let r := if 1 ≤ e then 0 else toFix m e % (2 * fixOne)
  (r / (fixOne / 2), r % (fixOne / 2))

/-- sin(π x): an integer argument gives a zero of its own sign. -/
def sinPi (f : Fmt) (rnd : Rnd) (ftz : Bool) (arg : Nat) (neg : Bool) (m : Nat) (e : Int) : Rounded :=
  let h := halfTurns m e
  if h.2 = 0 ∧ h.1 % 2 = 0 then (f.zero neg, 0)
  else trigPi f rnd ftz 5 arg (neg != decide (2 ≤ h.1)) (decide (h.1 % 2 = 1)) h.2

/-- cos(π x): n + 1/2 gives +0. -/
def cosPi (f : Fmt) (rnd : Rnd) (ftz : Bool) (arg m : Nat) (e : Int) : Rounded :=
  let h := halfTurns m e
  if h.2 = 0 ∧ h.1 % 2 = 1 then (f.zero false, 0)
  else trigPi f rnd ftz 6 arg (decide (h.1 = 1 ∨ h.1 = 2)) (decide (h.1 % 2 = 0)) h.2

/-- tanh x: beside x itself for small arguments, just below 1 for large ones, by e^(2x) between. -/
def tanhVal (f : Fmt) (rnd : Rnd) (ftz : Bool) (arg : Nat) (neg : Bool) (m : Nat) (e : Int) : Rounded :=
  if m = 0 then (f.zero neg, 0)
  else
    let E := e + (Nat.log2 m : Int)
    if E < -40 then f.round rnd ftz (.fin neg (m * 2 ^ 64 - 1) (e - 64))
    else if 6 ≤ E then f.round rnd ftz (justBelow neg 1 0)
    else
      let x2 := 2 * toFix m e
      let n := x2 / fixLn2
      let y := fixExp (x2 % fixLn2) * 2 ^ n
      roundEnclosed f rnd ftz neg ((y - fixOne) * fixOne / (y + fixOne)) 0 7 arg

/-! ## Major 0x36 by minor (R132, R133) -/

def invalid (f : Fmt) : Rounded := (f.nan, fxNv)

/-- Function 0 frcp, 1 frsq, 2 fsqrt, 3 fex2, 4 flg2, 5 fsin, 6 fcos, 7 ftnh of one element. -/
def special (f : Fmt) (fn : Nat) (rnd : Rnd) (ftz : Bool) (a : Nat) : Rounded :=
  match f.read ftz a with
  | .nan sig => (f.nan, fxIf sig fxNv)
  | .inf neg =>
    match fn with
    | 0 => (f.zero neg, 0)
    | 1 => if neg then invalid f else (f.zero false, 0)
    | 2 | 4 => if neg then invalid f else (f.infCode, 0)
    | 3 => if neg then (f.zero false, 0) else (f.infCode, 0)
    | 7 => f.round rnd ftz (.fin neg 1 0)
    | _ => invalid f
  | .fin neg m e =>
    match fn with
    | 0 => f.finish rnd ftz (divVals (.fin false 1 0) (.fin neg m e))
    | 1 => if m = 0 then (f.signed neg f.infCode, fxDz) else if neg then invalid f else f.round rnd ftz (rsqrtVal m e)
    | 2 => if m = 0 then (f.zero neg, 0) else if neg then invalid f else f.round rnd ftz (sqrtVal m e)
    | 3 => ex2 f rnd ftz a neg m e
    | 4 => if m = 0 then (f.signed true f.infCode, fxDz) else if neg then invalid f else lg2 f rnd ftz a m e
    | 5 => if m = 0 then (f.zero neg, 0) else sinPi f rnd ftz a neg m e
    | 6 => cosPi f rnd ftz a m e
    | _ => tanhVal f rnd ftz a neg m e

end Sys2Proof.Machine
end

