-- ==== Sys2Proof/Machine/Convert.lean ====
section
/-! DEFINITION. Conversions into narrow targets and integers, block scales, quantisation and dequantisation on values (R85, R88, R89, R93, R94, R136 to R140). -/

namespace Sys2Proof.Machine

/-- The element format a type code names (R53, R79). -/
def Ty.fmt : Ty → Option Fmt
  | .f32 => some .f32
  | .f16x2 => some .f16
  | .bf16x2 => some .bf16
  | .e4m3 => some .e4m3
  | .e5m2 => some .e5m2
  | .e2m1 => some .e2m1
  | _ => none

/-- The formats whose NaN and infinite sources are substituted (R88). -/
def Fmt.substitutes (f : Fmt) : Bool := decide (f = .e4m3) || decide (f = .e2m1)

/-- The substitute written for a NaN or an infinite source (R88). -/
def Fmt.substitute (f : Fmt) (sel : Nat) (x : FVal) : Nat :=
  match sel with
  | 0 => if x.isNan then (if f = .e4m3 then 0x7F else 0) else f.signed x.isNeg f.maxCode
  | 1 => 0
  | 2 => if x.isNan then f.maxCode else f.signed x.isNeg f.maxCode
  | _ => f.signed (x.isNan || x.isNeg) f.maxCode

/-- One rounding into a destination format, with substitutes (R136). -/
def Fmt.narrow (f : Fmt) (rnd : Rnd) (ftz : Bool) (sel : Nat) (x : FVal) : Rounded :=
  let sg := fxIf x.isSig fxNv
  if f.substitutes && (x.isNan || x.isInf) then (f.substitute sel x, fxSb ||| sg)
  else f.finish rnd ftz (x, sg)

/-- A float value converted to an integer type (R89). -/
def toIntTy (t : Ty) (rnd : Rnd) (x : FVal) : Rounded :=
  let n := Ty.width t
  let hi : Int := if Ty.signed t then ((2 ^ (n - 1) - 1 : Nat) : Int) else ((2 ^ n - 1 : Nat) : Int)
  let lo : Int := if Ty.signed t then -((2 ^ (n - 1) : Nat) : Int) else 0
  match x with
  | .nan _ => (0, fxNv)
  | .inf neg => (wrapInt n (if neg then lo else hi), fxNv)
  | .fin neg m e =>
    if m = 0 then (0, 0)
    else if 80 < e + (Nat.log2 m : Int) then (wrapInt n (if neg then lo else hi), fxNv)
    else
      let r := roundTo rnd neg m e 0
      let v : Int := if neg then -((r.1 : Nat) : Int) else ((r.1 : Nat) : Int)
      if hi < v then (wrapInt n hi, fxNv) else if v < lo then (wrapInt n lo, fxNv) else (wrapInt n v, fxIf r.2 fxNx)

/-- An integer source as a value. -/
def ofInt (v : Int) : FVal := .fin (decide (v < 0)) v.natAbs 0

/-- Element i of a word, in lanes of a width. -/
def laneOf (width x i : Nat) : Nat := x / 2 ^ (width * i) % 2 ^ width

/-- Pack elements, element 0 lowest (R79). -/
def packLanes (width : Nat) : List Nat → Nat
  | [] => 0
  | x :: xs => x % 2 ^ width + 2 ^ width * packLanes width xs

/-- Split a list of elements into 32-bit words of `n` elements each; the fuel is the list's length. -/
def packWords (width n : Nat) : Nat → List Nat → List W32
  | 0, _ => []
  | k + 1, xs => if xs = [] then [] else BitVec.ofNat 32 (packLanes width (xs.take n)) :: packWords width n k (xs.drop n)

/-- The elements of a group of registers, register by register (R136). -/
def elementsOf (f : Fmt) (ws : List W32) : List Nat :=
  (ws.map (fun w => (List.range (32 / f.width)).map (fun i => laneOf f.width w.toNat i))).flatten

/-- A narrowing `cvt`: every element of the group (R136). -/
def cvtGroupVals (df sf : Fmt) (rnd : Rnd) (ftz : Bool) (sel : Nat) (ws : List W32) : Rounded :=
  let rs := (elementsOf sf ws).map (fun x => df.narrow rnd ftz sel (sf.read ftz x))
  (packLanes df.width (rs.map Prod.fst), fxAll (rs.map Prod.snd))

/-! ## Block scales (R93, R94) -/

/-- The value of a scale: E8M0 from [7:0], XS16 from [15:0]; NaN is none. -/
def scaleVal (xs : Bool) (w : Nat) : Option (Nat × Int) :=
  if xs then
    let e := w / 256 % 256
    if e = 255 then none else some (256 + w % 256, (e : Int) - 135)
  else
    let e := w % 256
    if e = 255 then none else some (1, (e : Int) - 127)

/-- An element times a scale (R94, R140). -/
def scaled (f : Fmt) (xs : Bool) (el w : Nat) : FVal × W32 :=
  let v := f.decode el
  match scaleVal xs w with
  | none => (.nan false, fxSn ||| fxIf v.isSig fxNv)
  | some (m, e) => mulVals v (.fin false m e)

/-- `dqn` (R140). -/
def dequant (f : Fmt) (xs : Bool) (rnd : Rnd) (ftz : Bool) (el w : Nat) : Rounded := Fmt.f32.finish rnd ftz (scaled f xs el w)

/-! ## Quantisation (R138, R139) -/

/-- The exponent of the largest finite value, and that value. -/
def Fmt.emax : Fmt → Int
  | .e4m3 => 8 | .e5m2 => 15 | _ => 2
def Fmt.top : Fmt → Nat
  | .e4m3 => 448 | .e5m2 => 57344 | _ => 6

/-- A finite FP32 magnitude in units of 2^-149. -/
def unit149 (x : FVal) : Nat := (x.at_ (-149)).natAbs

/-- The E8M0 code for a largest magnitude M × 2^-149, M nonzero. -/
def scaleE8 (f : Fmt) (M : Nat) : Nat :=
  let s := (Nat.log2 M : Int) - 149 - f.emax
  (max (-127) (min 127 s) + 127).toNat

/-- Division rounded up. -/
def ceilDiv (a b : Nat) : Nat := (a + b - 1) / b

/-- The least XS16 code at or above M × 2^-149 / T. -/
def scaleXs (f : Fmt) (M : Nat) : Nat :=
  let E := (Nat.log2 (M * 2 ^ 32 / f.top) : Int) - 181
  let fr := if 0 ≤ E + 149 then ceilDiv (M * 256) (f.top * 2 ^ (E + 149).toNat) else ceilDiv (M * 256 * 2 ^ (-(E + 149)).toNat) f.top
  let code := (E + 127) * 256 + ((fr : Int) - 256)
  if code < 0 then 0 else code.toNat

/-- A block quantised: its elements, its scale word, its flags. -/
def quantise (f : Fmt) (xs : Bool) (rnd : Rnd) (ftz : Bool) (sel : Nat) (ws : List W32) : List Nat × Nat × W32 :=
  let vs := ws.map (fun w => Fmt.f32.read ftz w.toNat)
  if vs.any (fun v => v.isNan || v.isInf) then
    let sg := fxIf (vs.any FVal.isSig) fxNv
    (vs.map (fun _ => if f.substitutes then f.substitute sel (.nan false) else f.nan),
      if xs then 0xFF00 else 0xFF, fxSn ||| fxIf f.substitutes fxSb ||| sg)
  else
    let M := (vs.map unit149).foldl Nat.max 0
    let code := if M = 0 then 0 else if xs then scaleXs f M else scaleE8 f M
    let sc := (scaleVal xs code).getD (1, 0)
    let rs := vs.map (fun v => match v with
      | .fin neg m e => if m = 0 then (f.zero neg, 0) else f.narrow rnd ftz sel (ratio neg m sc.1 (e - sc.2) 80)
      | _ => (0, 0))
    (rs.map Prod.fst, code, fxAll (rs.map Prod.snd))

end Sys2Proof.Machine
end

