-- ==== Sys2Proof/Machine/Aes.lean ====
section
/-! DEFINITION. AES-256 (FIPS 197) and the XTS mode (IEEE 1619) over one 128-byte line, as R395 names them for LPDDR-6. -/

namespace Sys2Proof.Machine

/-- Multiplication by x in the field of AES. -/
def xtime (a : Byte) : Byte := (a <<< 1) ^^^ (if a.msb then 0x1B else 0)

def gmul (a b : Byte) : Byte :=
  ((List.range 8).foldl (fun (acc : Byte × Byte) i => (if b.getLsbD i then acc.1 ^^^ acc.2 else acc.1, xtime acc.2)) (0, a)).1

/-- The inverse in the field, the 254th power; 0 for 0. -/
def ginv (a : Byte) : Byte :=
  ((List.range 7).foldl (fun (acc : Byte × Byte) _ => (gmul acc.1 (gmul acc.2 acc.2), gmul acc.2 acc.2)) (1, a)).1

def subByte (a : Byte) : Byte :=
  let b := ginv a
  b ^^^ b.rotateLeft 1 ^^^ b.rotateLeft 2 ^^^ b.rotateLeft 3 ^^^ b.rotateLeft 4 ^^^ 0x63

def unsubByte (a : Byte) : Byte := ginv (a.rotateLeft 1 ^^^ a.rotateLeft 3 ^^^ a.rotateLeft 6 ^^^ 0x05)

/-- A block of 16 bytes, column by column; the byte of row r and column c at r + 4 c. -/
abbrev AesBlock := List Byte

def xorBytes (a b : List Byte) : List Byte := List.zipWith (· ^^^ ·) a b

def shiftRows (b : AesBlock) : AesBlock := (List.range 16).map (fun i => b.getD ((i + 4 * (i % 4)) % 16) 0)
def unshiftRows (b : AesBlock) : AesBlock := (List.range 16).map (fun i => b.getD ((i + 12 * (i % 4)) % 16) 0)

/-- Each column times the circulant matrix whose first row is given. -/
def mixBy (row : List Byte) (b : AesBlock) : AesBlock :=
  (List.range 16).map (fun i => (List.range 4).foldl (fun x j => x ^^^ gmul (row.getD j 0) (b.getD (4 * (i / 4) + (i + j) % 4) 0)) 0)

/-- The 60 words of the key schedule, from the words still to make, the constant of the round, and the last eight words. -/
def keyWords : Nat → Byte → List (List Byte) → List (List Byte)
  | 0, _, _ => []
  | n + 1, rc, w =>
    let i := 52 - (n + 1)
    let last := w.getD 7 []
    let t := if i % 8 = 0 then xorBytes ((last.drop 1 ++ last.take 1).map subByte) [rc, 0, 0, 0]
      else if i % 8 = 4 then last.map subByte
      else last
    let new := xorBytes (w.getD 0 []) t
    new :: keyWords n (if i % 8 = 0 then xtime rc else rc) (w.drop 1 ++ [new])

/-- The 15 round keys of a 256-bit key, byte 0 the lowest. -/
def roundKeys (key : BitVec 256) : List AesBlock :=
  let w := (List.range 8).map (fun i => (List.range 4).map (fun j => key.extractLsb' (8 * (4 * i + j)) 8))
  let all := w ++ keyWords 52 1 w
  (List.range 15).map (fun r => ((all.drop (4 * r)).take 4).flatten)

def aesEncrypt (ks : List AesBlock) (b : AesBlock) : AesBlock :=
  let b := (List.range 13).foldl (fun b r => xorBytes (mixBy [2, 3, 1, 1] (shiftRows (b.map subByte))) (ks.getD (r + 1) [])) (xorBytes b (ks.getD 0 []))
  xorBytes (shiftRows (b.map subByte)) (ks.getD 14 [])

def aesDecrypt (ks : List AesBlock) (b : AesBlock) : AesBlock :=
  let b := (unshiftRows (xorBytes b (ks.getD 14 []))).map unsubByte
  let b := (List.range 13).foldl (fun b r => (unshiftRows (mixBy [14, 11, 13, 9] (xorBytes b (ks.getD (13 - r) [])))).map unsubByte) b
  xorBytes b (ks.getD 0 [])

/-- The tweak of the next block: times x in the field of XTS. -/
def nextTweak (t : BitVec 128) : BitVec 128 := (t <<< 1) ^^^ (if t.msb then 0x87 else 0)

/-- The eight blocks of a line under a block function, each between its tweak. -/
def xtsBlocks (f : AesBlock → AesBlock) : Nat → BitVec 128 → List Byte → List Byte
  | 0, _, _ => []
  | n + 1, t, bs =>
    let x := toBytes t 16
    xorBytes (f (xorBytes (bs.take 16) x)) x ++ xtsBlocks f n (nextTweak t) (bs.drop 16)

/-- The first tweak of a line: its number, bits [51:7] of its address, under the second key of the pair. -/
def lineTweak (pair : BitVec 512) (ln : Nat) : BitVec 128 := ofBytes 128 (aesEncrypt (roundKeys (pair.extractLsb' 256 256)) (toBytes (BitVec.ofNat 128 ln) 16))

/-- A line of 128 bytes encrypted and decrypted under a pair of keys (R395). -/
def xtsEncrypt (pair : BitVec 512) (ln : Nat) (bs : List Byte) : List Byte := xtsBlocks (aesEncrypt (roundKeys (pair.extractLsb' 0 256))) 8 (lineTweak pair ln) bs
def xtsDecrypt (pair : BitVec 512) (ln : Nat) (bs : List Byte) : List Byte := xtsBlocks (aesDecrypt (roundKeys (pair.extractLsb' 0 256))) 8 (lineTweak pair ln) bs

end Sys2Proof.Machine
end

