-- ==== Sys2Proof/Machine/Mem.lean ====
section
/-! DEFINITION. Physical memory at the home agents: bytes, encryption by key id, poison, the L2 and deep-cache tags (R9, R218 to R223, R395 to R397, R403, R404, R453 to R456). -/

namespace Sys2Proof.Machine

/-- The canonical form of memory: addresses strictly rising, and no byte listed that an unlisted address reads as (0, log 3). -/
def Memory.wf (m : List Host.Cell) : Bool := Tbl.wf m

/-- Where the weight store of a die stands in the model's flat byte space, above every 52-bit physical address. -/
def wsBase (die : Nat) : Nat := 2 ^ 52 + die * 2 ^ 32

/-- Physical addresses: across the host link; backed on the module; in secure memory (R9). -/
def isHost (pa : Nat) : Bool := decide (pa / 2 ^ 51 % 2 = 1)
def isBacked (pa : Nat) : Bool := decide (pa < 0x8000000000) || (isHost pa && decide (pa < 2 ^ 52))
def isSecure (pa : Nat) : Bool := decide (pa < 0x8000000000 ∧ 0x1F80000000 ≤ pa % 0x2000000000)
def paDie (pa : Nat) : Nat := if isHost pa then 0 else pa / 0x2000000000

/-- The home slice of a line (R219). -/
def homeSlice (ln : Nat) : Nat := 48 * paDie (ln * 128) + ln % 48

/-- The key generation that a line must have been written under to read as written. -/
def State.keyGen (s : State) (key : Nat) : Nat := (s.key key).gen

/-- The lines encrypted under a key id are those of LPDDR-6 (R396). -/
def isLpddr (pa : Nat) : Bool := decide (pa < 0x8000000000)

/-- A line as an access under a key reads it that was written under another: decrypted with the one from what the other encrypted (R395, R396). -/
def State.lineUnder (s : State) (key ln : Nat) (m : LineMeta) : List Byte :=
  xtsDecrypt (Config.keyPair key (s.keyGen key)) ln (xtsEncrypt (Config.keyPair m.key m.gen) ln (Tbl.getN s.mem (ln * 128) 128))

/-- The newest write of a byte that waits for the host link (R14). -/
def queuedByte (q : List LinkMsg) (pa : Nat) : Option Byte :=
  q.foldl (fun b m => match m with
    | .line _ ln mask data => if ln = pa / 128 ∧ mask.getLsbD (pa % 128) = true then some (byteOf data (pa % 128)) else b
    | _ => b) none

/-- One byte at its home as an access under a key id reads it: of LPDDR-6, a line never written reads as it stands (its zero flag), and any other is decrypted under the key (R396); across the link, the home agent answers with a write that waits there. -/
def State.byteAt (s : State) (key pa : Nat) : Byte :=
  if isLpddr pa then
    match Assoc.find s.lines (pa / 128) with
    | none => Tbl.get s.mem pa
    | some m => if m.key = key ∧ m.gen = s.keyGen key then Tbl.get s.mem pa else (s.lineUnder key (pa / 128) m).getD (pa % 128) 0
  else (queuedByte s.mod.linkQ pa).getD (Tbl.get s.mem pa)

/-- The bytes at consecutive addresses (R3). -/
def State.bytesAt (s : State) (key pa n : Nat) : List Byte := (List.range n).map (fun i => s.byteAt key (pa + i))

/-- A little-endian word of n bytes at its home. -/
def State.numAt (s : State) (key pa n : Nat) : Nat := ofBytesNat (s.bytesAt key pa n)

/-- The line is poisoned (R456). -/
def State.poisoned (s : State) (ln : Nat) : Bool :=
  match Assoc.find s.lines ln with
  | none => false
  | some m => m.poison

/-- A line takes a key id: the bytes an access under it does not write are those it reads (XTS data unit, R395). -/
def State.claimLine (s : State) (key ln : Nat) : State :=
  match Assoc.find s.lines ln with
  | none => { s with lines := Assoc.put s.lines ln { key := key, gen := s.keyGen key } }
  | some m =>
    if m.key = key ∧ m.gen = s.keyGen key then s
    else
      let bs := s.bytesAt key (ln * 128) 128
      { s with mem := Tbl.setN s.mem (ln * 128) bs, lines := Assoc.put s.lines ln { m with key := key, gen := s.keyGen key } }

/-- Put bytes of one line at its home, under a byte mask: element i stands at offset i of the line (R227, R264). A write of the whole line clears its poison; a partial one does not (R456). -/
def State.putMasked (s : State) (key ln : Nat) (mask : BitVec 128) (data : BitVec 1024) : State :=
  let s := if isLpddr (ln * 128) then s.claimLine key ln else s
  let mem := (List.range 128).foldl (fun m i => if mask.getLsbD i then Tbl.set m (ln * 128 + i) (byteOf data i) else m) s.mem
  let lines := match Assoc.find s.lines ln with
    | some m => if mask = BitVec.allOnes 128 then Assoc.put s.lines ln { m with poison := false } else s.lines
    | none => s.lines
  { s with mem, lines }

/-- Write bytes of one line: with the link down, a line across the link waits in the link's queue (R14). -/
def State.writeMasked (s : State) (key ln : Nat) (mask : BitVec 128) (data : BitVec 1024) : State :=
  if isHost (ln * 128) && decide (ln * 128 < 2 ^ 52) && !s.mod.linkUp then s.updMod (fun m => { m with linkQ := m.linkQ ++ [.line key ln mask data] })
  else s.putMasked key ln mask data

/-- A line of bytes from a list starting at an offset, and its mask. -/
def lineData (off : Nat) (bs : List Byte) : BitVec 1024 := BitVec.ofNat 1024 (ofBytesNat bs * 2 ^ (8 * off))
def lineMask (off n : Nat) : BitVec 128 := BitVec.ofNat 128 ((2 ^ n - 1) * 2 ^ off)

/-- Write consecutive bytes at their homes, line piece by line piece. The fuel is the number of lines touched. -/
def State.writeBytesFuel (key : Nat) : Nat → State → Nat → List Byte → State
  | 0, s, _, _ => s
  | k + 1, s, pa, bs =>
    if bs = [] then s
    else
      let room := 128 - pa % 128
      let now := bs.take room
      State.writeBytesFuel key k (s.writeMasked key (pa / 128) (lineMask (pa % 128) now.length) (lineData (pa % 128) now)) (pa + now.length) (bs.drop room)

def State.writeBytes (s : State) (key pa : Nat) (bs : List Byte) : State := State.writeBytesFuel key (bs.length / 128 + 2) s pa bs

def State.writeNum (s : State) (key pa n v : Nat) : State := s.writeBytes key pa (toBytes (BitVec.ofNat (8 * n) v) n)

/-- A whole line at its home. -/
def State.lineAt (s : State) (key ln : Nat) : BitVec 1024 := ofBytes 1024 (s.bytesAt key (ln * 128) 128)

/-- Mark a line poisoned (R456). -/
def State.poisonLine (s : State) (ln : Nat) : State :=
  match Assoc.find s.lines ln with
  | some m => { s with lines := Assoc.put s.lines ln { m with poison := true } }
  | none => { s with lines := Assoc.put s.lines ln { poison := true } }

/-! ## L2 and deep cache (R218 to R223, R403, R404) -/

def l2Set (ln : Nat) : Nat := ln / 48 % 1024
def deepSet (ln : Nat) : Nat := ln % 393216

/-- The ways reserved to a world, and those shared (R402). -/
def State.waysOf (s : State) (w : Nat) : BitVec 16 := (Assoc.find s.mod.ways w).getD 0
def State.sharedWays (s : State) : BitVec 16 := ~~~ ((Assoc.vals s.mod.ways).foldl (· ||| ·) 0)

/-- A world is protected while it holds reserved ways; world 0 never (R400). -/
def State.isProtected (s : State) (w : Nat) : Bool := decide (w ≠ 0) && decide (s.waysOf w ≠ 0)

/-- The ways a fill for a world may take (R403). -/
def State.fillWays (s : State) (w : Nat) : BitVec 16 := if s.isProtected w then s.waysOf w ||| s.sharedWays else s.sharedWays

/-- An L2 line as the priority rule of R220 sees it: a retained line counts as 8. -/
def L2Line.rank (x : L2Line) : Nat := if x.retained.isSome then 8 else x.pri

/-- Put a line into the deep cache of its die, displacing the least recently used of a full set (R223). -/
def State.deepPut (s : State) (ln : Nat) (x : DeepLine) : State :=
  let set := s.deep.filter (fun p => decide (deepSet p.1 = deepSet ln ∧ paDie (p.1 * 128) = paDie (ln * 128)))
  let s := if set.length < 16 then s
    else match set.foldl (fun b p => match b with | none => some p | some q => if p.2.use < q.2.use then some p else b) (none : Option (Nat × DeepLine)) with
      | some v => { s with deep := Assoc.del s.deep v.1 }
      | none => s
  { s with deep := Assoc.put s.deep ln x }

/-- Evict an L2 line (R223): priority 0 is not placed in the deep cache. Data already stands at its home. -/
def State.l2Evict (s : State) (ln : Nat) : State :=
  match Assoc.find s.l2 ln with
  | none => s
  | some x =>
    let s := { s with l2 := Assoc.del s.l2 ln }
    if x.rank = 0 then s else s.deepPut ln { use := s.clock, dirty := x.dirty, cipher := x.sealed, key := x.key }

/-- The context's retained lines on a die, in lines (R221). -/
def State.retainedOf (s : State) (die ctx : Nat) : Nat :=
  (s.l2.filter (fun p => decide (p.2.retained = some ctx ∧ paDie (p.1 * 128) = die))).length

/-- What an access to a line brings to its slice: virtual line, context, priority, world, key and seal. -/
structure L2Acc where
  ctx : Nat := 0
  vline : Nat := 0
  pri : Nat := 3
  world : Nat := 0
  key : Nat := 0
  seal_ : Bool := false
  write : Bool := false

/-- The line lies in one of the context's retention ranges (R221). -/
def Ctx.inRange (c : Ctx) (vline : Nat) : Bool := c.ret.any (fun p => decide (p.2.1 ≤ vline ∧ vline ≤ p.2.2))

/-- The lines of one L2 set. -/
def State.l2Mine (s : State) (ln : Nat) : List (Nat × L2Line) :=
  s.l2.filter (fun p => decide (l2Set p.1 = l2Set ln) && decide (homeSlice p.1 = homeSlice ln))

/-- The victim of R220 among candidates: lowest priority, then least recently used. -/
def l2Victim : List (Nat × L2Line) → Option (Nat × L2Line)
  | [] => none
  | p :: t =>
    match l2Victim t with
    | none => some p
    | some q => if q.2.rank < p.2.rank || (decide (q.2.rank = p.2.rank) && decide (q.2.use < p.2.use)) then some q else some p

/-- Whether a filled line becomes retained (R221). -/
def State.l2Retain (s : State) (ln : Nat) (a : L2Acc) (mine : List (Nat × L2Line)) : Bool :=
  let die := paDie (ln * 128)
  let quota := (Assoc.find (s.ctx a.ctx).quota die).getD 8
  (s.ctx a.ctx).inRange a.vline && decide (s.retainedOf die a.ctx * 128 + 128 ≤ quota * 65536)
    && decide ((mine.filter (fun p => p.2.retained.isSome)).length < 8)

/-- A way for a line about to be filled, after evicting the victim where the ways are full (R220, R403). -/
def State.l2Room (s : State) (ways : BitVec 16) (mine : List (Nat × L2Line)) : Nat × State :=
  match (List.range 16).find? (fun w => ways.getLsbD w && !(mine.map (fun p => p.2.way)).contains w) with
  | some w => (w, s)
  | none =>
    match l2Victim (mine.filter (fun p => ways.getLsbD p.2.way)) with
    | some v => (v.2.way, s.l2Evict v.1)
    | none => (0, s)

/-- A hit: the line takes the access's priority, a retained one keeps the virtual line it is retained for (R221, R222); a line in ways the accessor may not fill moves to one it may, sealed there when its page is sealed (R220, R403, R404). -/
def State.l2Hit (s : State) (ln : Nat) (a : L2Acc) (x : L2Line) : State :=
  let y := { x with pri := a.pri, use := s.clock, dirty := x.dirty || a.write, vline := if x.retained.isSome then x.vline else a.vline }
  if (s.fillWays a.world).getLsbD x.way then { s with l2 := Assoc.put s.l2 ln y }
  else
    let s := { s with l2 := Assoc.del s.l2 ln }
    let r := s.l2Room (s.fillWays a.world) (s.l2Mine ln)
    { r.2 with l2 := Assoc.put r.2.l2 ln { y with way := r.1, world := a.world, cipher := a.seal_ && !(s.isProtected a.world && (s.waysOf a.world).getLsbD r.1) } }

/-- A miss: the line is filled from the deep cache or from memory (R223) into the way that R220 and R403 give. -/
def State.l2Fill (s : State) (ln : Nat) (a : L2Acc) : State :=
  let wasDirty := match Assoc.find s.deep ln with
    | some d => d.dirty
    | none => false
  let s := { s with deep := Assoc.del s.deep ln }
  let mine := s.l2Mine ln
  let retain := s.l2Retain ln a mine
  let r := s.l2Room (s.fillWays a.world) mine
  let cipher := a.seal_ && !(s.isProtected a.world && (s.waysOf a.world).getLsbD r.1)
  { r.2 with l2 := Assoc.put r.2.l2 ln { way := r.1, pri := a.pri, vline := a.vline, use := s.clock, dirty := a.write || wasDirty, world := a.world, cipher := cipher, sealed := a.seal_, key := a.key, retained := if retain then some a.ctx else none } }

/-- An access to a line at its slice (R218 to R223, R403, R404). -/
def State.l2Access (s : State) (ln : Nat) (a : L2Acc) : State :=
  match Assoc.find s.l2 ln with
  | some x => s.l2Hit ln a x
  | none => s.l2Fill ln a

/-- Each retained line of a context that no remaining range covers returns to the priority of its last access (R222). -/
def State.unretain (s : State) (ctx : Nat) : State :=
  { s with l2 := Assoc.mapVals s.l2 (fun _ x => if x.retained = some ctx ∧ (s.ctx ctx).inRange x.vline = false then { x with retained := none } else x) }

/-- Every cached tag of a line goes (R399, R417, R258). -/
def State.uncache (s : State) (ln : Nat) : State := { s with l2 := Assoc.del s.l2 ln, deep := Assoc.del s.deep ln }

end Sys2Proof.Machine
end

