-- ==== Sys2Proof/Machine/Xlat.lean ====
section
/-! DEFINITION. The two stages of translation, the sector copy, the cached translations and the fault codes of both stages (R377 to R389, R397, R411, R412). -/

namespace Sys2Proof.Machine

/-- Access kinds by value (R386, R425). -/
inductive Acc where
  | read | write | atomic | fetch | traversal | walk
  deriving DecidableEq, Repr, Inhabited

def Acc.code (a : Acc) : Nat := a.ctorIdx

/-- A translation fault: stage, reason (R386), level, and the guest-physical address that failed. -/
structure XFault where
  stage : Nat
  reason : Nat
  level : Nat
  ipa : Nat
  walk : Bool := false
  deriving DecidableEq, Repr, Inhabited

/-- The frame a second-stage walk ends in. -/
structure Frame2 where
  pa : Nat
  key : Nat
  r : Bool
  w : Bool
  x : Bool
  sealed : Bool
  /-- split leaf: physical address of the leaf, and whether the byte's sector is still shared under cow -/
  split : Option Nat := none
  shared : Bool := false
  level : Nat := 4
  deriving DecidableEq, Repr, Inhabited

abbrev X (α : Type) := Except XFault α

def sfault (reason level gpa : Nat) {α : Type} : X α := .error { stage := 2, reason, level, ipa := gpa }
def ffault (reason level : Nat) {α : Type} : X α := .error { stage := 1, reason, level, ipa := 0 }

/-- Fields of an entry (R379). -/
def eKey (e : Nat) : Nat := fld e 52 12
def eAddr (e : Nat) : Nat := fld e 16 36 * 65536
def eV (e : Nat) : Bool := fbit e 0
def eTbl (e : Nat) : Bool := fbit e 1

/-- Malformed entries (R380). `stage2` selects the second stage. -/
def malformed (stage2 : Bool) (level e : Nat) (word0 : Bool) : Bool :=
  decide (fld e 10 6 ≠ 0)
  || (!eTbl e && decide (level < 3)) || (eTbl e && decide (level = 4))
  || (eTbl e && (fbit e 2 || fbit e 3 || fbit e 4 || fbit e 5 || fbit e 9 || fbit e 8 || fbit e 7))
  || (fbit e 6 && !(stage2 && eTbl e && decide (level = 3)))
  || (!stage2 && (fbit e 9 || fbit e 8 || fbit e 7))
  || (!eTbl e && decide (level = 3) && decide (fld e 16 13 ≠ 0))
  || (stage2 && !eTbl e && fbit e 7 && !word0)
  || (stage2 && fbit e 6 && decide (eAddr e % 262144 ≠ 0))
  || (stage2 && eTbl e && decide (eKey e ≠ 0))
  || (word0 && (eTbl e || fbit e 5))

/-- A physical address that a translation may yield, and whether its key is at hand (R9, R397, R399, R407): an access names its key at every use, so a destroyed one faults even where the translation was cached. -/
def State.checkPa (s : State) (pa key gpa level : Nat) (sealed : Bool) : X Unit :=
  if !isBacked pa then sfault 3 level gpa
  else if isSecure pa then sfault 1 level gpa
  else if key = 0 then (if sealed then sfault 5 level gpa else .ok ())
  else if (s.key key).state = 3 ∨ (isLpddr pa = true ∧ (s.key key).cached.getLsbD (paDie pa) = false) then sfault 5 level gpa
  else .ok ()

/-- A split leaf (R381): word 0, word 1, sectors, hidx as one 32-byte read. -/
structure SplitLeaf where
  w0 : Nat
  w1 : Nat
  sectors : Nat
  w3 : Nat

def SplitLeaf.ofNat (n : Nat) : SplitLeaf := { w0 := fld n 0 64, w1 := fld n 64 64, sectors := fld n 128 64, w3 := fld n 192 64 }

def State.readSplit (s : State) (at_ : Nat) : SplitLeaf := SplitLeaf.ofNat (s.numAt 0 at_ 32)

def SplitLeaf.pv (l : SplitLeaf) : Bool := fbit l.w1 0
def SplitLeaf.pkey (l : SplitLeaf) : Nat := eKey l.w1

def SplitLeaf.bad (l : SplitLeaf) : Bool :=
  malformed true 4 l.w0 true || decide (fld l.w1 1 15 ≠ 0) || decide (fld l.w3 32 32 ≠ 0)
  || (!l.pv && decide (l.sectors ≠ 0)) || (l.pv && decide (l.pkey = 0)) || (!l.pv && decide (l.pkey ≠ 0))

/-! ## Entries, in memory and cached (R380 to R384) -/

/-- The size of what an entry serves, as a power of two: a page at level 4 and for a split leaf (R378). -/
def lvlBits (level : Nat) : Nat := if 4 ≤ level then 16 else 68 - 13 * level

/-- The frame a leaf names is the same but for its place in the group, and so are flags and key (R382). -/
def extendLeaf (e size from_ to_ : Nat) : Nat := e + to_ * size - from_ * size

/-- A first reading of an entry in memory: backed and not secure, present, well formed, not poisoned (R9, R380, R386, R456). -/
def State.entryAt (s : State) (stage2 : Bool) (pa key level gpa : Nat) : X Nat :=
  let fault (reason : Nat) : X Nat := if stage2 then sfault reason level gpa else ffault reason level
  if stage2 && !isBacked pa then sfault 3 level gpa
  else if stage2 && isSecure pa then sfault 1 level gpa
  else
    let e := s.numAt key pa 8
    if !eV e then fault 0
    else if malformed stage2 level e false || s.poisoned (pa / 128) then fault 2
    else .ok e

/-- What the contiguity hint lets a cache give in place of a leaf: another marked member of its aligned group, 32 pages or 16 larger leaves, extended over the group, where that is the frame, key and flags of an entry the group holds (R382). -/
def State.groupLeaves (s : State) (stage2 : Bool) (pa key level e : Nat) : List Nat :=
  if eTbl e || !fbit e 5 then []
  else
    let n := if level = 4 then 32 else 16
    let i := pa / 8 % n
    let member := fun j => match s.entryAt stage2 (pa - 8 * i + 8 * j) key level 0 with
      | .ok x => if eTbl x || !fbit x 5 then none else some x
      | .error _ => none
    let held := (List.range n).filterMap member
    ((List.range n).filterMap (fun j => (member j).map (fun x => extendLeaf x (2 ^ lvlBits level) j i))).filter (fun x => held.contains x)

/-- Where an entry that a walk needs stands: the walking agent (none: the walk uses no cache), stage, table owner, level, the address it serves, and for the first stage the address it is read at. -/
structure Slot where
  agent : Option Nat
  stage : Nat
  owner : Nat
  level : Nat
  addr : Nat
  via : Nat := 0

def Slot.region (x : Slot) : Nat := x.addr / 2 ^ lvlBits x.level

/-- The entries that the agent holds cached for a slot. -/
def State.cachedAt (s : State) (x : Slot) : List Nat :=
  match x.agent with
  | none => []
  | some a => (s.tlb.filter (fun t => decide (t.agent = a) && decide (t.stage = x.stage) && decide (t.owner = x.owner) && decide (t.level = x.level) && decide (t.region = x.region))).map Tlb.e

/-- The entry that serves a walk: the one in memory, one its group may give, or one still cached; where they differ, which is free (R382, R384, R389). -/
def State.serve (s : State) (x : Slot) (here : X Nat) (group : List Nat) : X Nat :=
  let same := fun e => match here with | .ok h => decide (h = e) | .error _ => false
  let others := (group ++ s.cachedAt x).filter (fun e => !same e)
  if others = [] then here
  else
    let i := Config.cachedChoice s.fresh x.stage x.level x.region % (others.length + 1)
    match others[i]? with
    | some e => .ok e
    | none => here

/-- A cache takes an entry that served (R384); an engine keeps no split leaf with cow set (R413). -/
def Slot.used (x : Slot) (e : X Nat) (engine : Bool) : List Tlb :=
  match x.agent, e with
  | some a, .ok e => if engine && decide (x.level = 5) && fbit e 7 then [] else [{ agent := a, stage := x.stage, owner := x.owner, level := x.level, region := x.region, e := e, via := x.via }]
  | _, _ => []

/-- The translation caches are those of the 384 cores, and one for the engines and management cores. -/
def deviceAgent : Nat := 400

/-- A walk under way: the entries it has used, and what it gives. -/
abbrev Walk (α : Type) := List Tlb × X α

/-- Go on with the entry that a step of a walk gave. -/
def Walk.step {α : Type} (used : List Tlb) (e : X Nat) (next : Nat → Walk α) : Walk α :=
  match e with
  | .error f => (used, .error f)
  | .ok e => let r := next e; (used ++ r.1, r.2)

/-! ## The walks (R378, R381, R383) -/

/-- The frame that a leaf gives for a guest-physical address, under its offset. -/
def leafFrame (e off : Nat) : Frame2 :=
  { pa := eAddr e + off, key := eKey e, r := fbit e 2, w := fbit e 3, x := fbit e 4, sealed := fbit e 9 }

/-- The frame that a well-formed split leaf gives (R381). -/
def SplitLeaf.frame (l : SplitLeaf) (at_ off : Nat) : Frame2 :=
  let base := leafFrame l.w0 off
  if fbit l.sectors (off / 1024) then { base with pa := eAddr l.w1 + off, key := l.pkey, split := some at_ }
  else { base with split := some at_, shared := fbit l.w0 7 }

/-- A split leaf in memory, as one entry of 32 bytes; the address of its table belongs to the entry of level 3 (R381, R386). -/
def State.splitAt (s : State) (at_ gpa : Nat) : X Nat :=
  if !isBacked at_ then sfault 3 3 gpa
  else if isSecure at_ then sfault 1 3 gpa
  else
    let l := s.readSplit at_
    if !eV l.w0 then sfault 0 4 gpa
    else if l.bad || s.poisoned (at_ / 128) then sfault 2 4 gpa
    else .ok (s.numAt 0 at_ 32)

/-- The end of a second-stage walk at a split leaf. -/
def State.splitFrame (s : State) (agent : Option Nat) (func at_ gpa : Nat) : Walk Frame2 :=
  let slot : Slot := { agent := agent, stage := 2, owner := func, level := 5, addr := gpa }
  let e := s.serve slot (s.splitAt at_ gpa) []
  Walk.step (slot.used e (agent == some deviceAgent)) e (fun e => ([], .ok ((SplitLeaf.ofNat e).frame at_ (gpa % 65536))))

/-- The entry of a second-stage table that serves a walk, and what a cache takes of it. -/
def State.entry2 (s : State) (agent : Option Nat) (func gpa level table : Nat) : Walk Nat :=
  let at_ := table + (if level = 1 then fld gpa 55 9 else fld gpa (68 - 13 * level) 13) * 8
  let slot : Slot := { agent := agent, stage := 2, owner := func, level := level, addr := gpa }
  let here := s.entryAt true at_ 0 level gpa
  let group := match agent, here with | some _, .ok e => s.groupLeaves true at_ 0 level e | _, _ => []
  let e := s.serve slot here group
  (slot.used e false, e)

/-- The second-stage walk from a level downward. The fuel is the levels left. -/
def State.walk2From (s : State) (agent : Option Nat) (func gpa : Nat) : Nat → Nat → Nat → Walk Frame2
  | 0, _, _ => ([], sfault 2 4 gpa)
  | k + 1, level, table =>
    let r := s.entry2 agent func gpa level table
    Walk.step r.1 r.2 (fun e =>
      if eTbl e then
        if fbit e 6 then s.splitFrame agent func (eAddr e + fld gpa 16 13 * 32) gpa
        else s.walk2From agent func gpa k (level + 1) (eAddr e)
      else ([], .ok { leafFrame e (if level = 3 then gpa % 536870912 else gpa % 65536) with level := level }))

/-- The checks that end a second-stage walk: permissions, then the address and the key. -/
def State.checkFrame (s : State) (fr : Frame2) (gpa : Nat) (r w x : Bool) : X Frame2 :=
  if (r && !fr.r) || (w && !fr.w) || (x && !fr.x) then sfault 1 fr.level gpa
  else match s.checkPa fr.pa fr.key gpa fr.level fr.sealed with
    | .error f => .error f
    | .ok _ => .ok fr

/-- Translate a guest-physical address of a function for reading, writing or fetching. -/
def State.walk2For (s : State) (agent : Option Nat) (func gpa : Nat) (r w x : Bool) : Walk Frame2 :=
  match (s.func func).root2 with
  | none => ([], sfault 0 1 gpa)
  | some root =>
    match s.walk2From agent func gpa 4 1 root with
    | (used, .error f) => (used, .error f)
    | (used, .ok fr) => (used, s.checkFrame fr gpa r w x)

/-- The second stage by the tables in memory alone. -/
def State.walk2 (s : State) (func gpa : Nat) (r w x : Bool) : X Frame2 := (s.walk2For none func gpa r w x).2

/-- An entry of the first stage in memory, read at a guest-physical address that the second stage translates; a fault there has access walk. -/
def State.entry1 (s : State) (agent : Option Nat) (func gpa level : Nat) : Walk (Nat × List Nat) :=
  match s.walk2For agent func gpa true false false with
  | (used, .error f) => (used, .error { f with walk := true })
  | (used, .ok fr) => match s.entryAt false fr.pa fr.key level gpa with
    | .error f => (used, .error f)
    | .ok e => (used, .ok (e, if agent.isSome then s.groupLeaves false fr.pa fr.key level e else []))

/-- The first-stage walk of a context: the leaf entry and its level. -/
def State.walk1From (s : State) (agent : Option Nat) (ctx va : Nat) : Nat → Nat → Nat → Walk (Nat × Nat)
  | 0, _, _ => ([], ffault 2 4)
  | k + 1, level, table =>
    let gpa := table + (if level = 0 then fld va 68 12 else fld va (68 - 13 * level) 13) * 8
    let slot : Slot := { agent := agent, stage := 1, owner := ctx, level := level, addr := va, via := gpa }
    let r := s.entry1 agent (ctx / 256) gpa level
    let e := match r.2 with | .ok x => s.serve slot (.ok x.1) x.2 | .error f => s.serve slot (.error f) []
    Walk.step (r.1 ++ slot.used e false) e (fun e => if eTbl e then s.walk1From agent ctx va k (level + 1) (eKey e * 2 ^ 52 + eAddr e) else ([], .ok (e, level)))

/-- What a translation answers: an address, a first-stage denial, a fault of either stage, or an address of the apertures, which never reaches translation (R209). -/
inductive Xlat where
  | ok (pa key : Nat) (sealed : Bool) (frame : Frame2) (gpa : Nat)
  | denied
  | fault (f : XFault)
  | aperture
  deriving DecidableEq, Repr, Inhabited

def needR : Acc → Bool
  | .read | .atomic | .traversal => true
  | _ => false
def needW : Acc → Bool
  | .write | .atomic => true
  | _ => false
def needX : Acc → Bool
  | .fetch => true
  | _ => false

/-- Walk both stages for one access (R383, R385): a first-stage denial wins over any second-stage fault of the frame. -/
def State.walkFor (s : State) (agent : Option Nat) (ctx va : Nat) (a : Acc) : List Tlb × Xlat :=
  let c := s.ctx ctx
  if 0xFFFF * 2 ^ 64 ≤ va then ([], .aperture)
  else if !c.root1En then ([], .fault { stage := 1, reason := 0, level := 0, ipa := 0 })
  else
    match s.walk1From agent ctx va 5 0 c.root1.toNat with
    | (used, .error f) => (used, .fault f)
    | (used, .ok (e, level)) =>
      let gpa := eKey e * 2 ^ 52 + eAddr e + (if level = 3 then va % 536870912 else va % 65536)
      if (needR a && !fbit e 2) || (needW a && !fbit e 3) || (needX a && !fbit e 4) then (used, .denied)
      else match s.walk2For agent (ctx / 256) gpa (needR a) (needW a) (needX a) with
        | (more, .error f) => (used ++ more, .fault f)
        | (more, .ok fr) => (used ++ more, .ok fr.pa fr.key fr.sealed fr gpa)

/-- Both stages by the tables in memory alone. -/
def State.walkBoth (s : State) (ctx va : Nat) (a : Acc) : Xlat := (s.walkFor none ctx va a).2

/-- The code of a translation that fails (R385, R386, R426). -/
def XFault.code (f : XFault) (a : Acc) : Nat :=
  (if f.stage = 1 then 0x140 else 0x180) + 8 * (if f.walk then 5 else a.code) + f.reason

def deniedCode (a : Acc) : Nat := 0x100 + 8 * a.code

/-! ## Cached translations (R384, R388, R389, R413) -/

/-- Translate one address for an agent of a context; the entries that served stay cached (R384). -/
def State.translate (s : State) (agent ctx va : Nat) (a : Acc) : Xlat × State :=
  let r := s.walkFor (some agent) ctx va a
  (r.2, { s with tlb := r.1.foldl (fun l t => if l.contains t then l else t :: l) s.tlb, fresh := s.fresh + 1 })

/-- Two ranges of addresses meet. -/
def meets (a n b m : Nat) : Bool := decide (a < b + m) && decide (b < a + n)

/-- A cached entry serves an address of a range of pages; 0 pages mean every address (R388). -/
def Tlb.serves (t : Tlb) (base pages : Nat) : Bool := decide (pages = 0) || meets (t.region * 2 ^ lvlBits t.level) (2 ^ lvlBits t.level) base (pages * 65536)

/-- Drop what was derived from a range of the first-stage tables of a context (R388). -/
def State.dropTlb1 (s : State) (ctx va pages : Nat) : State :=
  { s with tlb := s.tlb.filter (fun t => !(decide (t.stage = 1) && decide (t.owner = ctx) && t.serves va pages)) }

/-- Drop what was derived from a range of the second-stage tables of a function: its entries, and the first-stage entries read through them (R388). -/
def State.dropTlb2 (s : State) (func gpa pages : Nat) : State :=
  { s with tlb := s.tlb.filter (fun t =>
      if t.stage = 2 then !(decide (t.owner = func) && t.serves gpa pages)
      else !(decide (t.owner / 256 = func) && (decide (pages = 0) || meets t.via 8 gpa (pages * 65536)))) }

/-- A core's snapshot ends: its cached split leaves with cow set go (R413). -/
def State.dropCowLeaves (s : State) (core : Nat) : State :=
  { s with tlb := s.tlb.filter (fun t => !(decide (t.agent = core) && decide (t.level = 5) && fbit t.e 7)) }

/-- The agent's cached split leaves of a page go: it has copied a sector of it. -/
def State.dropLeaf (s : State) (agent func gpa : Nat) : State :=
  { s with tlb := s.tlb.filter (fun t => !(decide (t.agent = agent) && decide (t.level = 5) && decide (t.owner = func) && t.serves gpa 1)) }

/-! ## The sector copy (R411, R412) -/

/-- Subtract a reference from a hash-directory entry; at zero the entry goes and its frame awaits the sweep (R410). -/
def State.unref (s : State) (hidx : Nat) : State :=
  match Assoc.find s.hdir hidx with
  | none => s
  | some e =>
    if e.refs ≤ 1 then
      let s := { s with hdir := Assoc.del s.hdir hidx }
      s.updDie (paDie e.frame) (fun d => { d with erasing := Assoc.put d.erasing e.frame (0, false) })
    else { s with hdir := Assoc.put s.hdir hidx { e with refs := e.refs - 1 } }

/-- A collapse: the leaf becomes an ordinary private page, and no candidate until software says so (R412; DEDUCED, log 97). -/
def State.collapse (s : State) (at_ : Nat) (l : SplitLeaf) : State :=
  let w0 := l.pkey * 2 ^ 52 + eAddr l.w1 + (l.w0 % 65536 - (if fbit l.w0 7 then 128 else 0) - (if fbit l.w0 8 then 256 else 0))
  let s := (((s.writeNum 0 at_ 8 w0).writeNum 0 (at_ + 8) 8 0).writeNum 0 (at_ + 16) 8 0).writeNum 0 (at_ + 24) 8 0xFFFFFFFF
  if l.w3 % 2 ^ 32 = 0xFFFFFFFF then s else s.unref (l.w3 % 2 ^ 32)

/-- The bytes are copied and the leaf written in one step; a full page collapses. -/
def State.sectorDone (s : State) (at_ : Nat) (l : SplitLeaf) (sec : Nat) : State :=
  let src := eAddr l.w0 + sec * 1024
  let dst := eAddr l.w1 + sec * 1024
  let bs := s.bytesAt (eKey l.w0) src 1024
  let bad := (List.range 8).filter (fun i => s.poisoned (src / 128 + i))
  let s := s.writeBytes l.pkey dst bs
  let s := bad.foldl (fun s i => s.poisonLine (dst / 128 + i)) s
  let sectors := l.sectors + (if fbit l.sectors sec then 0 else 2 ^ sec)
  if sectors = 2 ^ 64 - 1 then s.collapse at_ { l with sectors := sectors }
  else (s.writeNum 0 (at_ + 8) 8 l.w1).writeNum 0 (at_ + 16) 8 sectors

/-- Copy the sector of a shared page that a write is about to touch (R411); the answer is the reason of a fault, 4 pool empty, 5 no private key or no key at hand, 1 or 3 for a private frame that no write may reach, or none. -/
def State.sectorCopy (s : State) (func at_ gpa : Nat) : Option Nat × State :=
  let l := s.readSplit at_
  let sec := gpa % 65536 / 1024
  let into := fun (l : SplitLeaf) (s : State) => match s.checkPa (eAddr l.w1 + gpa % 65536) l.pkey gpa 4 (fbit l.w0 9) with
    | .error f => (some f.reason, s)
    | .ok _ => (none, s.sectorDone at_ l sec)
  if fbit l.sectors sec || !fbit l.w0 7 then (none, s)
  else if l.pv then into l s
  else match (s.func func).privKey with
    | none => (some 5, s)
    | some pk =>
      match (s.die (s.func func).homeDie).pool with
      | [] => (some 4, s)
      | fr :: rest =>
        let l := { l with w1 := pk * 2 ^ 52 + fr + 1 }
        match into l (s.updDie (s.func func).homeDie (fun d => { d with pool := rest })) with
        | (none, s') => (none, s')
        | (some reason, _) => (some reason, s)

/-- Translate for an access that may have to copy a sector first: a write to a shared sector copies it and then goes to the private frame (R381, R411). -/
def State.translateW (s : State) (agent ctx va : Nat) (a : Acc) : Xlat × State :=
  match s.translate agent ctx va a with
  | (.ok pa key sealed fr gpa, s1) =>
    if needW a && fr.shared then
      match fr.split with
      | none => (.ok pa key sealed fr gpa, s1)
      | some at_ =>
        match s1.sectorCopy (ctx / 256) at_ gpa with
        | (some reason, s2) => (.fault { stage := 2, reason, level := 4, ipa := gpa }, s2)
        | (none, s2) =>
          match s2.walk2 (ctx / 256) gpa (needR a) (needW a) false with
          | .ok fr2 => (.ok fr2.pa fr2.key fr2.sealed fr2 gpa, s2.dropLeaf agent (ctx / 256) gpa)
          | .error f => (.fault f, s2)
    else (.ok pa key sealed fr gpa, s1)
  | (r, s1) => (r, s1)

end Sys2Proof.Machine
end

