-- ==== Sys2Proof/Machine/Log.lean ====
section
/-! DEFINITION. Device accesses through a context's two stages, event records, and the log of record and replay modes (R315 to R327, R370). -/

namespace Sys2Proof.Machine

/-- One byte into the CRC-32 of R195 and R325 (IEEE 802.3 polynomial, reflected). -/
def crcByte (c : W32) (b : Byte) : W32 :=
  (List.range 8).foldl (fun (x : W32) _ => if x.getLsbD 0 then (x >>> 1) ^^^ 0xEDB88320#32 else x >>> 1) (c ^^^ b.setWidth 32)

def crcUpdate (c : W32) (bs : List Byte) : W32 := bs.foldl crcByte c

/-- The CRC-32 of bytes, from 0xFFFF_FFFF and inverted at the end (R325). -/
def crc32 (bs : List Byte) : W32 := ~~~ (crcUpdate 0xFFFFFFFF bs)

/-- Split a byte range into pieces that lie in one line: address and length. The fuel bounds the pieces. -/
def pieces : Nat → Nat → Nat → List (Nat × Nat)
  | 0, _, _ => []
  | k + 1, a, n => if n = 0 then [] else
      let m := Nat.min n (128 - a % 128)
      (a, m) :: pieces k (a + m) (n - m)

def piecesOf (a n : Nat) : List (Nat × Nat) := pieces (n / 128 + 2) a n

/-- Read bytes of a context at their home agents; a failing translation is answered. -/
def State.devRead (s : State) (ctx va n : Nat) : Except Xlat (List Byte) × State :=
  (piecesOf va n).foldl (fun acc p =>
    match acc with
    | (.error e, s) => (.error e, s)
    | (.ok bs, s) =>
      match s.translate deviceAgent ctx p.1 .read with
      | (.ok pa key _ _ _, s) => (.ok (bs ++ s.bytesAt key pa p.2), s)
      | (x, s) => (.error x, s)) (.ok [], s)

/-- Write bytes of a context at their home agents. A piece whose translation fails is not written and the failure is answered. -/
def State.devWrite (s : State) (ctx va : Nat) (bs : List Byte) : Option Xlat × State :=
  (piecesOf va bs.length).foldl (fun acc p =>
    match acc with
    | (some e, s) => (some e, s)
    | (none, s) =>
      match s.translateW deviceAgent ctx p.1 .write with
      | (.ok pa key _ _ _, s) => (none, s.writeBytes key pa ((bs.drop (p.1 - va)).take p.2))
      | (x, s) => (some x, s)) (none, s)

/-- Read through a function's second stage only (R15, R372, R439). -/
def State.physRead (s : State) (func gpa n : Nat) : Except XFault (List Byte) :=
  (piecesOf gpa n).foldl (fun acc p =>
    match acc with
    | .error e => .error e
    | .ok bs => match s.walk2 func p.1 true false false with
      | .ok fr => .ok (bs ++ s.bytesAt fr.key fr.pa p.2)
      | .error f => .error f) (.ok [])

/-- Where a write through a function's second stage alone goes; a shared sector is copied first (R411). -/
def State.physPlace (s : State) (func gpa : Nat) : X Frame2 × State :=
  match s.walk2 func gpa false true false with
  | .error f => (.error f, s)
  | .ok fr =>
    match fr.shared, fr.split with
    | true, some at_ =>
      match s.sectorCopy func at_ gpa with
      | (some r, s) => (sfault r 4 gpa, s)
      | (none, s) => (s.walk2 func gpa false true false, s)
    | _, _ => (.ok fr, s)

/-- Write through a function's second stage only, up to the piece that meets a fault. -/
def State.physWrite (s : State) (func gpa : Nat) (bs : List Byte) : Option XFault × State :=
  (piecesOf gpa bs.length).foldl (fun acc p =>
    match acc with
    | (some e, s) => (some e, s)
    | (none, s) =>
      match s.physPlace func p.1 with
      | (.error f, s) => (some f, s)
      | (.ok fr, s) => (none, s.writeBytes fr.key fr.pa ((bs.drop (p.1 - gpa)).take p.2))) (none, s)

/-- Send an MSI-X message, or queue it while the link is down (R14). A function's table has 128 vectors, a virtual one's 32 (R21); a number beyond it names none. -/
def State.sendMsix (s : State) (func vector : Nat) : State :=
  if (if func = 0 then 128 else 32) ≤ vector then s
  else if s.mod.linkUp then s.updMod (fun m => { m with msix := (func, vector) :: m.msix })
  else s.updMod (fun m => { m with linkQ := m.linkQ ++ [.msix func vector] })

/-- The host can reach the device: the link is up, and no failed boot has left only the reads of BAR0 (R14, R22). -/
def State.hostOpen (s : State) : Bool := s.mod.linkUp && !s.mod.bootFailed

/-! ## Event records (R370) -/

/-- The fields of a 256-bit event record. -/
structure EventRec where
  kind : Nat
  status : Nat := 0
  queue : Nat := 0
  seqNo : Nat := 0
  subst : Bool := false
  crefSeen : Bool := false
  logOver : Bool := false
  restarted : Bool := false
  demoted : Bool := false
  nfault : Nat := 0
  cause : BitVec 10 := 0
  fhi : B16 := 0
  faddr : W64 := 0

/-- The record word, posted at a clock value. -/
def EventRec.word (e : EventRec) (time : Nat) : BitVec 512 :=
  BitVec.ofNat 512 (time % 2 ^ 64 + e.status * 2 ^ 64 + e.kind * 2 ^ 72 + e.queue * 2 ^ 76 + e.seqNo % 2 ^ 40 * 2 ^ 88
    + b2n e.subst * 2 ^ 128 + b2n e.crefSeen * 2 ^ 129 + b2n e.logOver * 2 ^ 130 + b2n e.restarted * 2 ^ 131 + b2n e.demoted * 2 ^ 132
    + Nat.min e.nfault 0xFFFF * 2 ^ 144 + e.cause.toNat * 2 ^ 166 + e.fhi.toNat * 2 ^ 176 + e.faddr.toNat * 2 ^ 192)

def Func.ring (f : Func) (i : Nat) : Ring := (Assoc.find f.er i).getD {}
def Func.fring (f : Func) (i : Nat) : Ring := (Assoc.find f.fr i).getD {}

def State.updRing (s : State) (func i : Nat) (g : Ring → Ring) : State :=
  s.updFunc func (fun f => { f with er := Assoc.put f.er i (g (f.ring i)) })
def State.updFring (s : State) (func i : Nat) (g : Ring → Ring) : State :=
  s.updFunc func (fun f => { f with fr := Assoc.put f.fr i (g (f.fring i)) })

/-- Hand a record to an event ring: it waits there until EVENT_RECORD_POST writes it, in posting order (R372). -/
def State.postEvent (s : State) (func ring : Nat) (e : EventRec) : State :=
  s.updRing func ring (fun r => { r with held := r.held ++ [e.word s.clock] })

/-! ## Snapshots (R230, R231, R413) -/

/-- Clean lines go, and clean bytes of lines with pending bytes (R230). An acquire does not refresh weight-store lines (R216): `all` says whether they go too. -/
def Core.dropClean (c : Core) (all : Bool) : Core :=
  let stays := fun (ln : Nat) => match Assoc.find c.l1 ln with
    | some l => decide (l.pend ≠ 0) || !(all || decide (ln < 2 ^ 45))
    | none => false
  { c with l1 := (c.l1.filter (fun p => stays p.1)).map (fun p => if all || decide (p.1 < 2 ^ 45) then (p.1, { p.2 with have_ := p.2.pend, read := false }) else p) }

/-- The end of a snapshot at an acquire (R216, R230). -/
def State.endSnapshot (s : State) (core : Nat) : State := (s.updCore core (fun c => c.dropClean false)).dropCowLeaves core

/-- The end of a snapshot at a phase boundary or a capacity refresh: every clean line goes (R226, R230, R231). -/
def State.dropSnapshot (s : State) (core : Nat) : State := (s.updCore core (fun c => c.dropClean true)).dropCowLeaves core

/-- The teams on a core. -/
def Team.onCore (t : Team) (core : Nat) : Bool :=
  decide (t.core = core) && (match t.life with
    | .resident | .draining _ | .halting | .debugHalted | .ending => true
    | _ => false)

/-- A capacity refresh (R231): every clean line goes, and every resident team counts it. -/
def State.refreshCore (s : State) (core : Nat) : State :=
  let s := s.dropSnapshot core
  { s with teams := Assoc.mapVals s.teams (fun _ t => if t.onCore core then { t with cref := t.cref + 1, crefSeen := true } else t) }

/-! ## The log -/

/-- Where an event stands: its team's number, linear index and core, and its warp, seat and count (R321). -/
structure Pos where
  ctx : Nat
  team : Nat
  index : Nat
  core : Nat
  wid : Nat := 0
  seat : Nat := 0
  tl : Bool := false
  tcount : Nat := 0
  /-- of an engine's event, the pc and the done mask of the instruction that issued it -/
  pc : W64 := 0
  done : W32 := 0
  deriving Inhabited

/-- The position of a thread's instruction. -/
def State.posOf (s : State) (k : Nat) (tcount : Nat) : Pos :=
  let t := s.team (teamOf k)
  { ctx := ckey t.func t.ctx, team := teamOf k, index := t.index, core := t.core, wid := widOf k, seat := seatOf k, tcount := tcount }

/-- The position of an engine's event: that of the instruction that issued the operation (R321). -/
def State.enginePos (s : State) (k : Nat) (tcount : Nat) (pc : W64) (done : W32) : Pos := { s.posOf k tcount with pc := pc, done := done }

/-- The position of a team event (R478). -/
def State.posTeam (s : State) (team : Nat) : Pos :=
  let t := s.team team
  { ctx := ckey t.func t.ctx, team := team, index := t.index, core := t.core, tl := true, tcount := t.tcount }

/-- A log record (R321): kind, position and payload from bit 160 up. -/
def logWord (order kind payload : Nat) (p : Pos) : Nat :=
  order % 2 ^ 40 + p.core * 2 ^ 47 + kind * 2 ^ 56 + p.index * 2 ^ 64 + p.wid * 2 ^ 96 + p.seat * 2 ^ 101 + b2n p.tl * 2 ^ 106
    + p.tcount % 2 ^ 48 * 2 ^ 112 + payload * 2 ^ 160

def logSlot (c : Ctx) (n : Nat) : Nat := c.logBase.toNat + 32 * (n % 2 ^ c.logN)

/-- Free records (R320), with the tail the device has last read. -/
def Ctx.logFree (c : Ctx) : Nat := 2 ^ c.logN - (c.order - c.logTail)

def State.writeStatus (s : State) (ctx : Nat) : State :=
  let c := s.ctx ctx
  let v := b2n c.stalled + 2 * b2n c.diverged + 4 * c.divReason
  let s := (s.devWrite ctx (c.logBlock.toNat + 0x20) (toBytes (BitVec.ofNat 32 v) 4)).2
  (s.devWrite ctx (c.logBlock.toNat + 0x28) (toBytes (BitVec.ofNat 64 c.dorder) 8)).2

/-- A stall begins: status, and one high-water record (R320). -/
def State.startStall (s : State) (ctx : Nat) : State :=
  ((s.updCtx ctx (fun c => { c with stalled := true, rereadAt := s.clock })).writeStatus ctx).postEvent (ctx / 256) 0 { kind := 5 }

/-- Note a stall when free falls below 64 (R320). -/
def State.logStallCheck (s : State) (ctx : Nat) : State :=
  let c := s.ctx ctx
  if c.logMode = 1 ∧ c.logFree < 64 ∧ c.stalled = false then s.startStall ctx else s

/-- Stop the cursor with a reason (R324): 0 value, 1 digest, 2 position, 3 refresh, 4 record. -/
def State.diverge (s : State) (ctx reason : Nat) : State :=
  let c := s.ctx ctx
  if c.diverged then s
  else
    let s := s.setCtx ctx { c with diverged := true, divReason := reason, dorder := c.order }
    s.writeStatus ctx

/-- The record at the cursor of a context in replay mode. -/
def State.cursorRec (s : State) (ctx : Nat) : Option Nat × State :=
  let c := s.ctx ctx
  if c.logTail ≤ c.order then (none, s)
  else match s.devRead ctx (logSlot c c.order) 32 with
    | (.ok bs, s) => (some (ofBytesNat bs), s)
    | (.error _, s) => (none, s)

/-- A ring record that R324 finds bad: kind 0 or reserved, or a nonzero Reserved field. -/
def badRecord (r : Nat) : Bool := decide (fld r 56 8 = 0) || decide (0x0F ≤ fld r 56 8) || decide (fld r 40 7 ≠ 0) || decide (fld r 107 5 ≠ 0)

/-- A wait that stands for the instruction of a team count. -/
def Wait.isAt (w : Wait) (tc : Nat) : Bool :=
  match w with
  | .gauge _ _ _ t | .ray _ _ t | .flush _ _ _ t | .close _ _ t => decide (t = tc)
  | .again _ => true
  | _ => false

/-- The thread still waits in the instruction of a team count, or will again when its handler returns. -/
def Thread.waitsAt (th : Thread) (tc : Nat) : Bool :=
  (decide (th.st = .parked) && th.wait.isAt tc) || (match th.trap with | some tr => tr.wait.isAt tc | none => false)

/-- A live team has passed the place that a record names: the instruction of its count, or for an event of the team its count, lies behind. An engine's event comes after its instruction, and a boundary's publications come after the instruction that completes it (R321, R324; DEDUCED, log 38). -/
def State.passedBy (s : State) (team : Nat) (t : Team) (r : Nat) : Bool :=
  let kind := fld r 56 8
  let tc := fld r 112 48
  let gone := decide (tc < t.tcount)
  if kind = 2 ∨ kind = 0x0D ∨ (kind = 3 ∧ fld r 240 4 = 7) then gone && !(s.thread (tkey team (fld r 96 5) (fld r 101 5))).waitsAt tc
  else if kind = 3 ∧ fld r 240 4 = 1 then decide (tc + 1 < t.tcount)
  else if kind = 5 ∨ (kind = 4 ∧ fld r 240 3 ≠ 0) then false
  else gone

/-- The record names a place that the replay has passed (R324 position): a live team that is past it, or a team that has ended. A placement, and the publications of a world clear, may name a team that has ended. -/
def State.passed (s : State) (ctx r : Nat) : Bool :=
  let named := s.teams.filter (fun p => decide (ckey p.2.func p.2.ctx = ctx) && decide (p.2.index = fld r 64 32))
  let live := named.filter (fun p => decide (p.2.life ≠ .ended))
  if (fld r 56 8 = 8 ∧ fld r 160 3 = 0) ∨ (fld r 56 8 = 3 ∧ fld r 240 4 = 8) then false
  else if live.isEmpty then !named.isEmpty
  else live.any (fun p => s.passedBy p.1 p.2 r)

/-- A record that is still to be enforced from order number `o` on, among the next `n`, is an event of the team at this count: until it is performed the team issues nothing there (R323). The search ends with the team's own end. -/
def State.teamEventAhead (s : State) (ctx : Nat) (t : Team) : Nat → Nat → Bool
  | _, 0 => false
  | o, n + 1 =>
    match (s.devRead ctx (logSlot (s.ctx ctx) o) 32).1 with
    | .error _ => false
    | .ok bs =>
      let r := ofBytesNat bs
      let mine := decide (fld r 64 32 = t.index)
      if mine && decide (fld r 56 8 = 8) && (decide (fld r 160 3 = 0) || decide (fld r 160 3 = 4)) then false
      else if mine && decide (fld r 106 1 = 1) && decide (fld r 47 9 = t.core) && decide (fld r 112 48 = t.tcount) then true
      else s.teamEventAhead ctx t (o + 1) n

/-- In replay mode an event of the team at its present count is still to be performed. -/
def State.teamHeld (s : State) (team : Nat) : Bool :=
  let t := s.team team
  let c := s.ctxOf t
  decide (c.logMode = 2) && !c.diverged && s.teamEventAhead (ckey t.func t.ctx) t c.order (c.logTail - c.order)

/-- Bits of the payload that an event is compared on beside its kind and position, and those whose difference is the value reason (R323, R324). -/
structure LogCmp where
  payload : Nat
  /-- mask of payload bits that must match before the event is performed -/
  match_ : Nat := 0
  /-- mask of payload bits whose difference diverges -/
  value : Nat := 0

/-- The performer of an event waits without effect; where it waits is kept for a divergence fault (R324). -/
def State.logMiss (s : State) (p : Pos) (kind : Nat) : State :=
  s.updCtx p.ctx (fun c => if c.miss then c else { c with miss := true, missAt := tkey p.team p.wid p.seat, missPc := p.pc, missCount := p.tcount, missDone := p.done, missFor := if kind = 0x0B then 1 else if kind = 4 ∨ kind = 5 then 2 else if p.tl then 3 else 0 })

/-- The cursor or the head stands at an order number, and the control block's head shows it (R319). -/
def State.logCursor (s : State) (ctx n : Nat) : State :=
  let s := s.updCtx ctx (fun c => { c with order := n })
  (s.devWrite ctx ((s.ctx ctx).logBlock.toNat + 0x10) (toBytes (BitVec.ofNat 64 n) 8)).2

/-- The cursor or the head moves past one record. -/
def State.logAdvance (s : State) (ctx : Nat) : State := s.logCursor ctx ((s.ctx ctx).order + 1)

/-- Record mode: the record takes the next order number, or the event stalls (R320). -/
def State.logWrite (s : State) (kind : Nat) (p : Pos) (e : LogCmp) : State :=
  let c := s.ctx p.ctx
  if c.stalled then s.logMiss p kind
  else
    let s := (s.devWrite p.ctx (logSlot c c.order) (toBytes (BitVec.ofNat 256 (logWord c.order kind e.payload p)) 32)).2
    (s.logAdvance p.ctx).logStallCheck p.ctx

/-- A replay cause (R324, R426). -/
def replayCode (reason recipient : Nat) : Nat := 0x280 + 8 * reason + recipient

/-- A thread's own event of the instruction being performed: an atomic, an ordered read, a mark (R317). -/
def State.threadEvent (s : State) (kind : Nat) (p : Pos) : Bool := s.focus.isSome && !p.tl && (decide (kind = 1) || decide (kind = 2) || decide (kind = 0x0C))

/-- The instruction being performed has found a value that differs from its record. -/
def State.differed (s : State) : Bool := s.hits.any (fun h => decide (h.2.1 = replayCode 0 0))

/-- A thread of the instruction being performed is to record a replay cause. -/
def State.noteReplay (s : State) (p : Pos) (reason : Nat) : State := { s with hits := s.hits ++ [(tkey p.team p.wid p.seat, replayCode reason 0, 0)] }

/-- Replay mode: the event against the record at the cursor (R323, R324). A value is compared once the event is performed: a thread's event stands, and the thread records the cause (DEDUCED, log 39). -/
def State.logMatch (s : State) (kind : Nat) (p : Pos) (e : LogCmp) (r : Nat) : State :=
  let want := logWord (s.ctx p.ctx).order kind e.payload p
  let posMask : Nat := 0xFF * 2 ^ 56 + 0x1FF * 2 ^ 47 + 0xFFFFFFFF * 2 ^ 64 + 0x7FF * 2 ^ 96 + 0xFFFFFFFFFFFF * 2 ^ 112
  let mask := posMask + e.match_ * 2 ^ 160
  if badRecord r then (s.diverge p.ctx 4).logMiss p kind
  else if r &&& mask = want &&& mask then
    if r / 2 ^ 160 &&& e.value = e.payload &&& e.value then s.logAdvance p.ctx
    else if s.threadEvent kind p then (s.diverge p.ctx 0).noteReplay p 0
    else (s.diverge p.ctx (if kind = 0x0B then 1 else 0)).logMiss p kind
  else if s.passed p.ctx r then (s.diverge p.ctx 2).logMiss p kind
  else s.logMiss p kind

/-- An event after a divergence: within the instruction that found it, a later thread halts at its own event and the rest goes unlogged; elsewhere the event waits (R324). -/
def State.logStopped (s : State) (kind : Nat) (p : Pos) : State :=
  if s.differed then (if s.threadEvent kind p then s.noteReplay p 2 else s) else s.logMiss p kind

/-- The record at the cursor is a CREF record whose position an event of the same instruction has reached (R323). -/
def crefDue (r : Nat) (p : Pos) : Bool :=
  decide (fld r 56 8 = 9) && !badRecord r && !p.tl && decide (fld r 47 9 = p.core) && decide (fld r 64 32 = p.index) && decide (fld r 96 5 = p.wid) && decide (fld r 101 5 ≤ p.seat) && decide (fld r 112 48 = p.tcount % 2 ^ 48)

/-- Replay mode: an event of this place; a CREF record that comes first, with no refresh needed, performs one all the same (R323). The fuel is the records in the ring. -/
def State.logReplay (s : State) (kind : Nat) (p : Pos) (e : LogCmp) : Nat → State
  | 0 => s.logMiss p kind
  | n + 1 =>
    match s.cursorRec p.ctx with
    | (none, s) => s.logMiss p kind
    | (some r, s) =>
      if kind ≠ 9 ∧ s.focus.isSome = true ∧ crefDue r p = true then State.logReplay ((s.refreshCore p.core).logAdvance p.ctx) kind p e n
      else s.logMatch kind p e r

/-- Take an event's place in the log: in record mode its record is written, in replay mode it is enforced against the cursor; elsewhere nothing happens. A stall, or a cursor that does not match, sets `miss`, and the performer waits. -/
def State.logEvent (s : State) (kind : Nat) (p : Pos) (e : LogCmp) : State :=
  let c := s.ctx p.ctx
  if c.logMode = 1 then s.logWrite kind p e
  else if c.logMode = 2 then
    if c.diverged then s.logStopped kind p
    else s.logReplay kind p e (c.logTail - c.order + 1)
  else s

/-- An instruction has been performed: a CREF record of its position that stands at the cursor performs its refresh (R323). The fuel is the records in the ring. -/
def State.crefRest (s : State) (p : Pos) : Nat → State
  | 0 => s
  | n + 1 =>
    let c := s.ctx p.ctx
    if c.logMode ≠ 2 ∨ c.diverged = true then s
    else match s.cursorRec p.ctx with
      | (some r, s) => if crefDue r p then State.crefRest ((s.refreshCore p.core).logAdvance p.ctx) p n else s
      | (none, _) => s

/-- What the records still in the ring say of a team: some true where one passes the test, some false where a later one of the team or warp comes first, none where the ring ends before either. The fuel is the records in the ring. -/
def State.recordAhead (s : State) (p : Pos) (test : Nat → Bool) : Nat → Nat → Option Bool
  | _, 0 => none
  | o, n + 1 =>
    match (s.devRead p.ctx (logSlot (s.ctx p.ctx) o) 32).1 with
    | .error _ => none
    | .ok bs =>
      let r := ofBytesNat bs
      let mine := decide (fld r 64 32 = p.index)
      if mine && test r then some true
      else if mine && ((decide (fld r 56 8 = 8) && decide (fld r 160 3 = 4)) || ((fbit r 106 || decide (fld r 96 5 = p.wid)) && decide (p.tcount < fld r 112 48))) then some false
      else s.recordAhead p test (o + 1) n

/-- A CREF record of exactly this position is still to come. -/
def State.crefAhead (s : State) (p : Pos) (o n : Nat) : Option Bool :=
  s.recordAhead p (fun r => decide (fld r 56 8 = 9) && decide (fld r 47 9 = p.core) && decide (fld r 96 5 = p.wid) && decide (fld r 101 5 = p.seat) && decide (fld r 112 48 = p.tcount)) o n

/-- A BERTH record that names this team's save is still to come (R327). -/
def State.saveAhead (s : State) (p : Pos) : Bool :=
  let c := s.ctx p.ctx
  s.recordAhead p (fun r => decide (fld r 56 8 = 8) && decide (fld r 160 3 = 2) && decide (fld r 47 9 = p.core) && decide (fld r 112 48 = p.tcount)) c.order (c.logTail - c.order) == some true

end Sys2Proof.Machine
end

