-- ==== Sys2Proof/Machine/L1.lean ====
section
/-! DEFINITION. Path T: address decode, checks and translation of a thread's access, and the core's L1 with its pending bytes, snapshot, evictions and publications (R209 to R216, R218, R220, R226 to R233, R247, R325, R458, R459). -/

namespace Sys2Proof.Machine

/-- Where a generic address goes (R209). -/
inductive Space where
  | global (va : Nat)
  | spad (off : Nat)
  | stack (off : Nat)
  | weights (off : Nat)
  | reserved
  deriving DecidableEq, Repr, Inhabited

def decodeAddr (a : Addr80) : Space :=
  if a.extractLsb' 64 16 ≠ 0xFFFF#16 then .global a.toNat
  else
    let off := (a.extractLsb' 0 32).toNat
    match (a.extractLsb' 32 32).toNat with
    | 1 => .spad off
    | 2 => .stack off
    | 3 => .weights off
    | _ => .reserved

/-- A piece of an access inside one line: physical address (or the model's weight-store address), length, key, virtual address. -/
structure Piece where
  pa : Nat
  n : Nat
  key : Nat
  sealed : Bool
  va : Nat
  deriving DecidableEq, Repr, Inhabited

/-- Where an access that passed its checks goes. -/
inductive Loc where
  | spad (off : Nat)
  | mem (ps : List Piece)
  deriving DecidableEq, Repr, Inhabited

def boundsCode (a : Acc) (space : Nat) : Nat := 0xC0 + 8 * a.code + space
def alignCode (a : Acc) (log2 : Nat) : Nat := 0x80 + 8 * a.code + log2

/-- log2 of an access width. -/
def widthLog (n : Nat) : Nat := if n ≤ 1 then 0 else if n ≤ 2 then 1 else if n ≤ 4 then 2 else if n ≤ 8 then 3 else if n ≤ 16 then 4 else if n ≤ 32 then 5 else if n ≤ 64 then 6 else 7

/-- The virtual address of a stack byte (R214). -/
def stackVa (c : Ctx) (slot wid seat o : Nat) : Nat :=
  c.stackBase.toNat + (slot * 32 + wid) * 32 * c.stackSize + o / 4 * 128 + 4 * seat + o % 4

/-- Keep where a team's translation fault was met until it is reported (R390, R391). -/
def State.noteWalk (s : State) (team va : Nat) (f : XFault) : State :=
  s.updTeam team (fun t => { t with walked := { stage := f.stage, va := va, level := f.level, ipa := f.ipa } :: t.walked.filter (fun w => decide (w.stage ≠ f.stage ∨ w.va / 65536 ≠ va / 65536)) })

/-- Translate the global pieces of an access for a thread of a team: the first failing piece gives the cause. -/
def State.resolvePieces (s : State) (team : Nat) (a : Acc) (ps : List (Nat × Nat)) : Except Nat (List Piece) × State :=
  let t := s.team team
  ps.foldl (fun acc p =>
    match acc with
    | (.error e, s) => (.error e, s)
    | (.ok out, s) =>
      match s.translateW t.core (ckey t.func t.ctx) p.1 a with
      | (.ok pa key sealed _ _, s) => (.ok (out ++ [{ pa := pa, n := p.2, key := key, sealed := sealed, va := p.1 }]), s)
      | (.denied, s) => (.error (deniedCode a), s)
      | (.aperture, s) => (.error (boundsCode a 3), s)
      | (.fault f, s) => (.error (f.code a), s.noteWalk team p.1 f)) (.ok [], s)

/-- Checks 2 to 5 of R247 on a thread's access of n bytes: bounds, permission, translation. -/
def State.resolve (s : State) (k : Nat) (addr : Addr80) (n : Nat) (a : Acc) : Except Nat Loc × State :=
  let t := s.team (teamOf k)
  let ctx := ckey t.func t.ctx
  match decodeAddr addr with
  | .spad off => (if off + n ≤ t.spadSize then .ok (.spad off) else .error (boundsCode a 0), s)
  | .stack off =>
    let c := s.ctx ctx
    if off + n ≤ c.stackSize then
      let ps := if n ≤ 4 then [(stackVa c t.slot (widOf k) (seatOf k) off, n)]
        else (List.range (n / 4)).map (fun i => (stackVa c t.slot (widOf k) (seatOf k) (off + 4 * i), 4))
      match s.resolvePieces (teamOf k) a ps with
      | (.ok ps, s) => (.ok (.mem ps), s)
      | (.error e, s) => (.error e, s)
    else (.error (boundsCode a 1), s)
  | .weights off =>
    let die := dieOf t.core
    let g := (Assoc.find (s.ctx ctx).grants die).getD {}
    if off + n ≤ g.size * 65536 then
      if a = .atomic then (.error (0x100 + 8 * a.code + 1), s)
      else (.ok (.mem ((piecesOf (wsBase die + g.base * 65536 + off) n).map (fun p => { pa := p.1, n := p.2, key := 0, sealed := false, va := addr.toNat + (p.1 - (wsBase die + g.base * 65536 + off)) }))), s)
    else (.error (boundsCode a 2), s)
  | .reserved => (.error (boundsCode a 3), s)
  | .global va =>
    match s.resolvePieces (teamOf k) a (piecesOf va n) with
    | (.ok ps, s) => (.ok (.mem ps), s)
    | (.error e, s) => (.error e, s)

/-! ## Error counts (R459) -/

/-- Count an error event of a die, and report it to a function's AER capability, at most once per millisecond and kind. -/
def State.aer (s : State) (func event storage access die pa key : Nat) : State :=
  let s := s.updMod (fun m => { m with errors := Assoc.put m.errors (die * 8 + event) ((Assoc.find m.errors (die * 8 + event)).getD 0 + 1) })
  s.updFunc func (fun f =>
    let n := (Assoc.find f.aerCount event).getD 0 + 1
    let due := match Assoc.find f.aerLast event with
      | none => true
      | some t => decide (t + 2200000 ≤ s.clock)
    if due then
      let w := event * 2 ^ 28 + storage * 2 ^ 25 + access * 2 ^ 22 + die * 2 ^ 20 + Nat.min n 0xFFFF
        + (if func = 0 then pa / 128 * 128 % 2 ^ 52 else 0) * 2 ^ 32 + (key + func * 2 ^ 12) * 2 ^ 96
      { f with aerCount := Assoc.put f.aerCount event 0, aerLast := Assoc.put f.aerLast event s.clock, hdrLog := BitVec.ofNat 128 w, aerCorr := f.aerCorr || decide (event = 0), aerUnc := f.aerUnc || decide (event ≠ 0), aerFatal := f.aerFatal || (decide (event ≠ 0) && Config.aerFatal func) }
    else { f with aerCount := Assoc.put f.aerCount event n })

/-! ## Publications -/

/-- What an L1 keeps of a weight-store line whose bytes are written: the pending ones. -/
def Core.forget (c : Core) (ln : Nat) : Core :=
  match Assoc.find c.l1 ln with
  | none => c
  | some l => { c with l1 := if l.pend = 0 then Assoc.del c.l1 ln else Assoc.put c.l1 ln { l with have_ := l.pend, read := false } }

/-- Write bytes of a weight-store line: no L1 keeps a clean copy of it, so the writing team and later kernels receive what was written (R216). -/
def State.weightWrite (s : State) (ln : Nat) (mask : BitVec 128) (data : BitVec 1024) : State :=
  let s := s.writeMasked 0 ln mask data
  { s with cores := Assoc.mapVals s.cores (fun _ c => c.forget ln) }

/-- A home write of one line's bytes, seen by the L2 slice unless the line is the weight store's (R216, R228). -/
def State.homeWrite (s : State) (key ln : Nat) (mask : BitVec 128) (data : BitVec 1024) (acc : L2Acc) : State :=
  if ln < 2 ^ 45 then (s.writeMasked key ln mask data).l2Access ln { acc with write := true, key := key } else s.weightWrite ln mask data

/-- A poisoned line is written back from an L1: it is charged to the function that owns its key id; under key id 0 it is a module error, whose stop of every team comes with the end of the step; a line of the weight store or of host memory, which no key id covers, is charged to the function that wrote it (R458, R460; DEDUCED, log 97). -/
def State.chargeL1 (s : State) (core ln : Nat) (l : L1Line) : State :=
  if l.key = 0 ∧ isLpddr (ln * 128) = true then (s.updFunc 0 (fun f => { f with aerUnc := true, aerFatal := true })).updMod (fun m => { m with stopped := 2, stopDue := true })
  else s.aer (if l.key = 0 then l.func else (s.key l.key).owner) 1 2 7 (dieOf core) (ln * 128) l.key

/-- Write the pending bytes of one L1 line to its home as one write (R227); the line stays, clean. -/
def State.publishLine (s : State) (core ln : Nat) : State :=
  match Assoc.find (s.core core).l1 ln with
  | none => s
  | some l =>
    if l.pend = 0 then s
    else
      let s := s.homeWrite l.key ln l.pend l.data { ctx := ckey l.func l.ctx, vline := l.va.toNat / 128, pri := l.pri, world := (s.core core).world, seal_ := l.sealed }
      let s := if l.poison then (s.poisonLine ln).chargeL1 core ln l else s
      s.updCore core (fun c => { c with l1 := Assoc.put c.l1 ln { l with pend := 0 } })

/-- Publish the pending bytes of one L1 line; the PUB record has the given cause (R317, R322). -/
def State.publish (s : State) (core ln cause : Nat) (p : Pos) : State :=
  match Assoc.find (s.core core).l1 ln with
  | none => s
  | some l =>
    if l.pend = 0 then s
    else (s.logEvent 3 { p with ctx := ckey l.func l.ctx } { payload := l.va.toNat / 128 * 128 + cause * 2 ^ 80, match_ := 0 }).publishLine core ln

/-- Publish every pending byte of a core (R226, R227). -/
def State.publishCore (s : State) (core cause : Nat) (p : Pos) : State :=
  (Assoc.keys (s.core core).l1).foldl (fun s ln => s.publish core ln cause p) s

/-- A capacity refresh that replacement needs (R231): logged in record mode; a replay that has no CREF record at this place diverges (R323, R324). -/
def State.refresh (s : State) (core : Nat) (p : Pos) : State :=
  let c := s.ctx p.ctx
  if c.logMode = 2 ∧ c.diverged = false ∧ s.crefAhead p c.order (c.logTail - c.order) = some false then (s.diverge p.ctx 3).logMiss p 9
  else
    let s := s.refreshCore core
    s.logEvent 9 p { payload := (s.team p.team).cref % 2 ^ 32 }

/-! ## L1 lines -/

def l1Set (ln : Nat) : Nat := ln % 128

def l1Victim : List (Nat × L1Line) → Option (Nat × L1Line)
  | [] => none
  | p :: t =>
    match l1Victim t with
    | none => some p
    | some q => if decide (q.2.pri < p.2.pri) || (decide (q.2.pri = p.2.pri) && decide (q.2.use < p.2.use)) then some q else some p

/-- Make room in a set for one line (R220, R231). A prefetch never evicts a clean read line: it answers false. -/
def State.l1Room (s : State) (core ln : Nat) (p : Pos) (prefetch : Bool) : Bool × State :=
  let mine := (s.core core).l1.filter (fun q => decide (l1Set q.1 = l1Set ln))
  if mine.length < 16 then (true, s)
  else
    let cand := if prefetch then mine.filter (fun q => !(decide (q.2.pend = 0) && q.2.read)) else mine
    match l1Victim cand with
    | none => (false, s)
    | some v =>
      let s := if v.2.pend = 0 then (if v.2.read then s.refresh core p else s) else s.publish core v.1 2 p
      (true, s.updCore core (fun c => { c with l1 := Assoc.del c.l1 v.1 }))

/-- Bytes of `a` where the mask says, of `b` elsewhere. -/
def mergeLine (mask : BitVec 128) (a b : BitVec 1024) : BitVec 1024 :=
  let m := (List.range 128).foldl (fun (acc : Nat) i => if mask.getLsbD i then acc + 255 * 2 ^ (8 * i) else acc) 0
  (a &&& BitVec.ofNat 1024 m) ||| (b &&& ~~~ (BitVec.ofNat 1024 m))

/-- Who fills, under which priority (R220, R325). -/
structure Fill where
  core : Nat
  team : Nat
  func : Nat
  ctx : Nat
  pri : Nat := 3
  pos : Pos
  prefetch : Bool := false
  /-- a load or a prefetch, whose fills the digest counts; not an instruction fetch -/
  digest : Bool := true
  deriving Inhabited

/-- The read digest and the fill count of the team (R325). -/
def State.digestFill (s : State) (f : Fill) (va : Nat) (data : BitVec 1024) : State :=
  if !f.digest then s else s.updTeam f.team (fun t => { t with digest := crcUpdate t.digest (toBytes (BitVec.ofNat 80 (va / 128 * 128)) 10 ++ toBytes data 128), fills := t.fills + 1 })

/-- The L2 slice of a line serves a core's L1 (R218, R220, R403); weight-store lines have none (R216). -/
def State.l2Serve (s : State) (f : Fill) (pc : Piece) : State :=
  if pc.pa / 128 < 2 ^ 45 then s.l2Access (pc.pa / 128) { ctx := ckey f.func f.ctx, vline := pc.va / 128, pri := f.pri, world := (s.core f.core).world, key := pc.key, seal_ := pc.sealed } else s

/-- Bring every byte of a line into the L1 (R229): bytes it holds stay, the others come from the home. A prefetch touches a line that is already whole as a fill does (R220, R257). -/
def State.l1Fill (s : State) (f : Fill) (pc : Piece) : Bool × State :=
  let ln := pc.pa / 128
  match Assoc.find (s.core f.core).l1 ln with
  | some l =>
    if l.have_ = BitVec.allOnes 128 then
      (true, if f.prefetch then (s.l2Serve f pc).updCore f.core (fun c => { c with l1 := Assoc.put c.l1 ln { l with pri := f.pri, use := s.clock } }) else s)
    else
      let home := s.lineAt pc.key ln
      let s := (s.l2Serve f pc).digestFill f pc.va home
      (true, s.updCore f.core (fun c => { c with l1 := Assoc.put c.l1 ln { l with data := mergeLine l.have_ l.data home, have_ := BitVec.allOnes 128, poison := l.poison || s.poisoned ln, pri := f.pri, use := s.clock } }))
  | none =>
    match s.l1Room f.core ln f.pos f.prefetch with
    | (false, s) => (false, s)
    | (true, s) =>
      let home := s.lineAt pc.key ln
      let s := (s.l2Serve f pc).digestFill f pc.va home
      (true, s.updCore f.core (fun c => { c with l1 := Assoc.put c.l1 ln { data := home, have_ := BitVec.allOnes 128, pri := f.pri, use := s.clock, key := pc.key, va := BitVec.ofNat 80 (pc.va / 128 * 128), func := f.func, ctx := f.ctx, sealed := pc.sealed, poison := s.poisoned ln } }))

/-- The bytes of a piece that an L1 line holds. -/
def L1Line.bytes (l : L1Line) (pc : Piece) : List Byte := (List.range pc.n).map (fun i => byteOf l.data (pc.pa % 128 + i))
def L1Line.holds (l : L1Line) (pc : Piece) : Bool := decide (l.have_ &&& lineMask (pc.pa % 128) pc.n = lineMask (pc.pa % 128) pc.n)

/-- A plain load of one piece (R229): from the L1, filling what it lacks; the line is marked read (R231). The flag says that the line is poisoned. -/
def State.l1Load (s : State) (f : Fill) (pc : Piece) : List Byte × Bool × State :=
  let ln := pc.pa / 128
  let hit := match Assoc.find (s.core f.core).l1 ln with
    | some l => l.holds pc
    | none => false
  let s := if hit then s else (s.l1Fill f pc).2
  match Assoc.find (s.core f.core).l1 ln with
  | some l => (l.bytes pc, l.poison, s.updCore f.core (fun c => { c with l1 := Assoc.put c.l1 ln { l with read := true, pri := f.pri, use := s.clock } }))
  | none => (s.bytesAt pc.key pc.pa pc.n, s.poisoned ln, s)

/-- A plain store of one piece: its bytes become pending in the L1 (R227). -/
def State.l1Store (s : State) (f : Fill) (pc : Piece) (bs : List Byte) : State :=
  let ln := pc.pa / 128
  let mask := lineMask (pc.pa % 128) pc.n
  let data := lineData (pc.pa % 128) bs
  match Assoc.find (s.core f.core).l1 ln with
  | some l => s.updCore f.core (fun c => { c with l1 := Assoc.put c.l1 ln { l with data := mergeLine mask data l.data, have_ := l.have_ ||| mask, pend := l.pend ||| mask, pri := f.pri, use := s.clock, func := f.func, ctx := f.ctx, va := BitVec.ofNat 80 (pc.va / 128 * 128) } })
  | none =>
    let s := (s.l1Room f.core ln f.pos false).2
    s.updCore f.core (fun c => { c with l1 := Assoc.put c.l1 ln { data := data, have_ := mask, pend := mask, pri := f.pri, use := s.clock, key := pc.key, va := BitVec.ofNat 80 (pc.va / 128 * 128), func := f.func, ctx := f.ctx, sealed := pc.sealed } })

/-- Drop a line from a core's L1. -/
def State.l1Drop (s : State) (core ln : Nat) : State := s.updCore core (fun c => { c with l1 := Assoc.del c.l1 ln })

/-- Whether a scope reaches beyond the core (R227, R230, R232). -/
def wideScope (sc : Scope) : Bool := decide (4 ≤ Scope.code sc)

/-- The value a load at cluster scope or wider reads: the core's pending bytes of the line are published, then the home is read (R232). -/
def State.homeLoad (s : State) (f : Fill) (pc : Piece) : List Byte × Bool × State :=
  let ln := pc.pa / 128
  let s := (s.publish f.core ln 7 f.pos).l2Serve f pc
  (s.bytesAt pc.key pc.pa pc.n, s.poisoned ln, s)

/-- Fold a load over the pieces of an access. -/
def State.loadPieces (s : State) (f : Fill) (atHome : Bool) (ps : List Piece) : List Byte × Bool × State :=
  ps.foldl (fun acc pc =>
    let r := if atHome then acc.2.2.homeLoad f pc else acc.2.2.l1Load f pc
    (acc.1 ++ r.1, acc.2.1 || r.2.1, r.2.2)) ([], false, s)

def State.storePieces (s : State) (f : Fill) : List Piece → List Byte → State
  | [], _ => s
  | pc :: ps, bs => State.storePieces (s.l1Store f pc (bs.take pc.n)) f ps (bs.drop pc.n)

end Sys2Proof.Machine
end

