-- ==== Sys2Proof/Machine/Spad.lean ====
section
/-! DEFINITION. The scratchpad: its bytes, lock bits, chambers with their evaluation, and the forwarding of writes to subscriptions (R212, R213, R254, R285 to R288, R296, R302 to R307). -/

namespace Sys2Proof.Machine

/-! ## Banks and locks (R213, R254) -/

def bankOf (word : Nat) : Nat := (word % 32 + word / 32) % 32
def lockBit (word : Nat) : Nat := (word / 32 ^^^ word / 256) % 8

/-- The lock numbers of an access: those of each word it touches, in the core's banks, which its teams share. -/
def lockNums (off width : Nat) : List Nat :=
  (List.range (if width = 8 then 2 else 1)).map (fun i => bankOf (off / 4 + i) * 8 + lockBit (off / 4 + i))

/-- No other thread holds any lock of the access. -/
def Core.locksFree (c : Core) (k : Nat) (ls : List Nat) : Bool :=
  ls.all (fun l => match Assoc.find c.locks l with
    | none => true
    | some o => decide (o = k))

def Core.takeLocks (c : Core) (k : Nat) (ls : List Nat) : Core := { c with locks := ls.foldl (fun t l => Assoc.put t l k) c.locks }

/-! ## Chambers (R285, R286) -/

structure Chamber where
  gen : Nat
  fs : Bool
  armed : Bool
  arr : Nat
  atgt : Nat
  bcnt : Nat
  btgt : Nat
  deriving DecidableEq, Repr, Inhabited

def Chamber.ofWord (w : Nat) : Chamber :=
  { gen := fld w 98 30, fs := fbit w 97, armed := fbit w 96, arr := fld w 80 16, atgt := fld w 64 16, bcnt := fld w 32 32, btgt := fld w 0 32 }

def Chamber.word (c : Chamber) : Nat :=
  c.gen % 2 ^ 30 * 2 ^ 98 + b2n c.fs * 2 ^ 97 + b2n c.armed * 2 ^ 96 + c.arr % 2 ^ 16 * 2 ^ 80 + c.atgt % 2 ^ 16 * 2 ^ 64 + c.bcnt % 2 ^ 32 * 2 ^ 32 + c.btgt % 2 ^ 32

/-- The state word: bits [127:96] (R289). -/
def Chamber.stateWord (c : Chamber) : W32 := BitVec.ofNat 32 (c.gen % 2 ^ 30 * 4 + b2n c.fs * 2 + b2n c.armed)

/-- The evaluation after every update (R286): the chamber, and whether it advanced. -/
def Chamber.eval (c : Chamber) : Chamber × Bool :=
  if c.arr = c.atgt ∧ c.bcnt = c.btgt then ({ c with gen := (c.gen + 1) % 2 ^ 30, arr := 0, bcnt := 0, btgt := 0 }, true)
  else if c.arr = c.atgt ∧ c.btgt < c.bcnt then ({ c with fs := true }, false)
  else (c, false)

def Team.chamber (t : Team) (off : Nat) : Chamber := Chamber.ofWord (ofBytesNat (Tbl.getN t.spad off 16))

/-- The slot is an armed chamber of the team. -/
def Team.armed (t : Team) (off : Nat) : Bool := t.chambers.contains off

/-- An access touches a byte of an armed slot (R288). -/
def Team.touchesArmed (t : Team) (off n : Nat) : Bool := t.chambers.any (fun c => decide (off < c + 16) && decide (c < off + n))

def Team.putChamber (t : Team) (off : Nat) (c : Chamber) : Team := { t with spad := Tbl.setN t.spad off (toBytes (BitVec.ofNat 128 c.word) 16) }

/-- The chamber reasons of R426 for a waiting thread. -/
def codeNotArmed : Nat := 0x211
def codeOverrun : Nat := 0x215

/-- A thread that waits on a chamber leaves its wait with a cause. -/
def State.chamberCause (s : State) (k off code : Nat) : State :=
  let pc := (s.thread k).pc
  (s.updThread k (fun th => { th with st := .ready, wait := .none })).recordCause k { pc := pc, addr := BitVec.ofNat 80 off, code := code, late := false, done := 0, tcount := (s.team (teamOf k)).tcount }

/-- The threads of a team that wait on a chamber slot for the generation after one. -/
def State.chamberWaiters (s : State) (team off : Nat) : List (Nat × Nat) :=
  (teamThreads team (s.team team)).filterMap (fun k =>
    let th := s.thread k
    if th.st = .parked then (match th.wait with | .chamber o g _ => if o = off then some (k, g) else none | _ => none) else none)

/-- What waiting threads meet after a change of their slot (R291): not armed, or overrun where the generation stands and fs is 1. -/
def State.chamberWake (s : State) (team off : Nat) : State :=
  (s.chamberWaiters team off).foldl (fun s x =>
    let t := s.team team
    if !t.armed off then s.chamberCause x.1 off codeNotArmed
    else
      let c := t.chamber off
      if c.gen = x.2 && c.fs then s.chamberCause x.1 off codeOverrun else s) s

/-- Perform an update of an armed chamber and evaluate it; an advance is logged as ADV (R286, R317). -/
def State.chUpdate (s : State) (team off : Nat) (f : Chamber → Chamber) : State :=
  let t := s.team team
  let c := f (t.chamber off)
  let r := c.eval
  let s := s.setTeam team (t.putChamber off r.1)
  let s := if r.2 then
      (if c.bcnt = 0 then s else s.updTeam team (fun t => { t with counted := Assoc.put t.counted off c.gen })).logEvent 6 (s.posTeam team)
        { payload := off + r.1.gen * 2 ^ 32, match_ := 2 ^ 32 - 1, value := (2 ^ 30 - 1) * 2 ^ 32 }
    else s
  s.chamberWake team off

/-- The team's scratchpad stands on a core and no cutover has begun (R296). -/
def Team.live (t : Team) : Bool :=
  match t.life with
  | .resident | .draining _ | .halting | .debugHalted | .ending => true
  | _ => false

/-- Raise a chamber by bytes (R287): held for a saved image, discarded at a slot no longer armed. -/
def State.chRaise (s : State) (team off bytes path : Nat) (p : Pos) : State :=
  let t := s.team team
  if !t.live then (if t.life = .ended then s else s.setTeam team { t with heldUps := t.heldUps ++ [{ chamber := off, bytes := bytes, path := path, thread := tkey p.team p.wid p.seat, tcount := p.tcount }] })
  else if !t.armed off then s
  else
    let s := if path = 4 then s else s.logEvent 5 p { payload := off + bytes * 2 ^ 32 + path * 2 ^ 64, match_ := 2 ^ 66 - 1 }
    s.chUpdate team off (fun c => { c with bcnt := (c.bcnt + bytes) % 2 ^ 32 })

/-- Set the fault-seen bit of an armed chamber (R277, R287, R307). -/
def State.chFault (s : State) (team off : Nat) : State :=
  let t := s.team team
  if t.armed off then (s.setTeam team (t.putChamber off { t.chamber off with fs := true })).chamberWake team off else s

/-! ## Scratchpad bytes -/

/-- Words of the scratchpad wholly covered by a write lose their poison (R456). -/
def clearPoison (ps : List Nat) (off n : Nat) : List Nat := ps.filter (fun w => !(decide (off ≤ 4 * w) && decide (4 * w + 4 ≤ off + n)))

/-- The bytes of a lock window that a write covers. -/
def LockWin.cover (w : LockWin) (off n : Nat) : LockWin :=
  { w with after := w.after ++ ((List.range w.width).map (fun i => w.off + i)).filter (fun a => decide (off ≤ a) && decide (a < off + n) && !w.after.contains a) }

/-- A write over a word whose lock window another thread has open comes after that thread's `ldlk` and `stul`, which are one step: the `stul` is to leave these bytes (R242; DEDUCED, log 84). -/
def State.coverWindows (s : State) (team off n : Nat) : State :=
  if (s.core (s.team team).core).locks = [] then s
  else ((s.core (s.team team).core).locks.filter (fun p => decide (teamOf p.2 = team))).foldl (fun s p => s.updThread p.2 (fun th => { th with win := th.win.map (fun w => w.cover off n) })) s

/-- Write bytes into a team's scratchpad with no forwarding (copies, ingress, updates). -/
def State.spadPut (s : State) (team off : Nat) (bs : List Byte) : State :=
  (s.coverWindows team off bs.length).updTeam team (fun t => { t with spad := Tbl.setN t.spad off bs, spadPoison := clearPoison t.spadPoison off bs.length })

/-! ## Subscriptions: batches applied (R305, R307) -/

/-- Bytes of a batch, with their places in the subscriber's local region. -/
def Batch.cells (b : Batch) (x : Sub) : List (Nat × Byte) :=
  ((List.range 64).filter (fun i => b.mask.getLsbD i)).map (fun i => (x.local_ + 64 * b.block + i, byteOf b.data i))

/-- The bytes of a batch that are written: not those in an armed slot of the subscriber. -/
def Team.writable (t : Team) (cs : List (Nat × Byte)) : List (Nat × Byte) := cs.filter (fun c => !t.touchesArmed c.1 1)

/-- Write a batch's bytes into a live scratchpad: bytes in an armed slot are not written and set its fs. The answer counts the bytes written. -/
def State.applyCells (s : State) (team : Nat) (cs : List (Nat × Byte)) : Nat × State :=
  let t := s.team team
  let out := t.writable cs
  let hit := t.chambers.filter (fun a => cs.any (fun c => decide (a ≤ c.1 ∧ c.1 < a + 16)))
  let s := out.foldl (fun s c => s.spadPut team c.1 [c.2]) s
  let full := (out.map (fun c => c.1 / 4)).filter (fun w => (List.range 4).all (fun i => out.any (fun c => decide (c.1 = 4 * w + i))))
  let s := s.updTeam team (fun t => { t with spadPoison := t.spadPoison.filter (fun w => !full.contains w) })
  (out.length, hit.foldl (fun s a => s.chFault team a) s)

/-- Apply the oldest closed batch of a subscription: in the subscriber's scratchpad with its chamber raise, or held at its frame; an ended subscriber's is discarded (R307, R312, R313). -/
def State.applyBatch (s : State) (i : Nat) : State :=
  match Assoc.find s.subs i with
  | none => s
  | some x =>
    match x.closed with
    | [] => s
    | b :: rest =>
      let t := s.team x.subscriber
      let n := (t.writable (b.cells x)).length
      let s := { s with subs := Assoc.put s.subs i { x with closed := rest, applied := x.applied + BitVec.ofNat 32 n } }
      if t.life = .ended then s
      else if !t.live then s.setTeam x.subscriber { t with heldUps := t.heldUps ++ [{ off := x.local_ + 64 * b.block, mask := b.mask, data := b.data, chamber := x.chamber, bytes := if x.chen then n else 0 }] }
      else
        let s := s.logEvent 7 (s.posTeam x.subscriber) { payload := x.handle + (x.local_ / 64 + b.block) * 2 ^ 16 + b.mask.toNat * 2 ^ 32, match_ := 2 ^ 96 - 1 }
        let r := s.applyCells x.subscriber (b.cells x)
        if x.chen && t.armed x.chamber then r.2.chUpdate x.subscriber x.chamber (fun c => { c with bcnt := (c.bcnt + r.1) % 2 ^ 32 }) else r.2

/-- Every batch of the publisher team that closed before an earlier release has been applied (R305). -/
def State.batchDue (s : State) (i : Nat) : Bool :=
  match Assoc.find s.subs i with
  | none => false
  | some x =>
    match x.closed with
    | [] => false
    | b :: _ => s.subs.all (fun p => decide (p.2.publisher ≠ x.publisher) || p.2.closed.all (fun c => decide (b.epoch ≤ c.epoch)))

/-- The subscriptions whose batches a publisher team still has to deliver. -/
def State.undelivered (s : State) (team : Nat) : Option Nat :=
  (s.subs.find? (fun p => decide (p.2.publisher = team) && s.batchDue p.1)).map Prod.fst

/-- Apply batches of a publisher until none is left. -/
def State.deliverFuel (team : Nat) : Nat → State → State
  | 0, s => s
  | n + 1, s =>
    match s.undelivered team with
    | none => s
    | some i => State.deliverFuel team n (s.applyBatch i)

/-- The number of batches a publisher's entries hold. -/
def State.heldBy (s : State) (team : Nat) : Nat := ((s.subs.filter (fun p => decide (p.2.publisher = team))).map (fun p => p.2.closed.length)).foldl (· + ·) 0

/-! ## Subscriptions: forwarding (R303 to R306) -/

/-- A closed batch joins an entry. A ninth makes the issue group that closes it wait (R306): `miss` is set. Where the eight are of that instruction itself, they are applied as its writes go on, so that the wait ends. -/
def State.pushBatch (s : State) (i : Nat) (x : Sub) (b : Batch) : State :=
  let t := s.team x.publisher
  let s := { s with subs := Assoc.put s.subs i x }
  let s := if x.closed.length < 8 then s
    else if x.closed.all (fun c => decide (c.at_ = t.tcount)) then State.deliverFuel x.publisher (s.heldBy x.publisher) s
    else s.holdBack (ckey t.func t.ctx)
  { s with subs := Assoc.upd s.subs i (fun y => { y with closed := y.closed ++ [{ b with epoch := t.epoch, at_ := t.tcount }], made := y.made + 1 }) }

/-- Close the open batch of one subscription. -/
def State.closeBatch (s : State) (i : Nat) : State :=
  match Assoc.find s.subs i with
  | none => s
  | some x =>
    match x.open_ with
    | none => s
    | some b => s.pushBatch i { x with open_ := none } b

/-- Emit the seed batch of the next block: the block's contents as they stand (R302). -/
def State.emitSeed (s : State) (i : Nat) : State :=
  match Assoc.find s.subs i with
  | none => s
  | some x =>
    match x.seeds with
    | [] => s
    | b :: rest =>
      let bs := Tbl.getN (s.team x.publisher).spad (x.remote + 64 * b) 64
      s.pushBatch i { x with seeds := rest } { block := b, mask := BitVec.allOnes 64, data := ofBytes 512 bs, seed := true }

/-- A publisher entry is removed: what its region held and what was forwarded up to this moment is still delivered, and nothing after (R302, R310). -/
def State.removeEntry (s : State) (i : Nat) : State :=
  match Assoc.find s.subs i with
  | none => s
  | some x =>
    let t := s.team x.publisher
    let seeds := x.seeds.map (fun b => ({ block := b, mask := BitVec.allOnes 64, data := ofBytes 512 (Tbl.getN t.spad (x.remote + 64 * b) 64), seed := true } : Batch))
    let last := (x.open_.toList ++ seeds).map (fun b => { b with epoch := t.epoch, at_ := t.tcount })
    { s with subs := Assoc.put s.subs i { x with open_ := none, seeds := [], closed := x.closed ++ last, made := x.made + last.length, pubOpen := false, closing := true } }

/-- Emit every seed batch up to a block. -/
def State.seedTo (s : State) (i block : Nat) : State :=
  match Assoc.find s.subs i with
  | none => s
  | some x => (x.seeds.filter (fun b => decide (b ≤ block))).foldl (fun s _ => s.emitSeed i) s

/-- The moment from which an open batch is idle: the clock, or in record and replay modes the publisher's count (R304, R314). -/
def State.idleNow (s : State) (team : Nat) : Nat :=
  let t := s.team team
  if (s.ctxOf t).logMode = 0 then s.clock else t.tcount

/-- Close every open batch of a publisher team (R304). -/
def State.closeBatches (s : State) (team : Nat) : State :=
  (s.subs.filter (fun p => decide (p.2.publisher = team) && p.2.pubOpen)).foldl (fun s p => s.closeBatch p.1) s

/-- A release at core scope or wider by a thread of a team closes its batches first (R304, R305). -/
def State.releaseBatches (s : State) (team : Nat) : State :=
  (s.closeBatches team).updTeam team (fun t => { t with epoch := t.epoch + 1 })

/-- Merge a write into the open batch of one subscription, after the block's seed batch; a write to another block closes the batch (R302, R304). -/
def State.forwardOne (s : State) (i off : Nat) (bs : List Byte) : State :=
  match Assoc.find s.subs i with
  | none => s
  | some x0 =>
    let block := (off - x0.remote) / 64
    let o := (off - x0.remote) % 64
    let mask : BitVec 64 := BitVec.ofNat 64 ((2 ^ bs.length - 1) * 2 ^ o)
    let data : BitVec 512 := BitVec.ofNat 512 (ofBytesNat bs * 2 ^ (8 * o))
    let full : BitVec 512 := BitVec.ofNat 512 ((2 ^ (8 * bs.length) - 1) * 2 ^ (8 * o))
    let s := s.seedTo i block
    let s := match x0.open_ with
      | some b => if b.block = block then s else s.closeBatch i
      | none => s
    match Assoc.find s.subs i with
    | none => s
    | some x =>
      let b := match x.open_ with
        | some b => { b with mask := b.mask ||| mask, data := (b.data &&& ~~~ full) ||| data }
        | none => { block := block, mask := mask, data := data }
      { s with subs := Assoc.put s.subs i { x with idleSince := s.idleNow x.publisher, open_ := some b } }

/-- Forward a path-T write of a publisher team to each of its subscriptions whose region holds it (R298, R303). -/
def State.forward (s : State) (team off : Nat) (bs : List Byte) : State :=
  (s.subs.filter (fun p => decide (p.2.publisher = team) && p.2.pubOpen && decide (p.2.remote ≤ off) && decide (off + bs.length ≤ p.2.remote + p.2.size))).foldl (fun s p => s.forwardOne p.1 off bs) s

/-- A path-T write: performed and forwarded (R248, R303). -/
def State.spadStore (s : State) (team off : Nat) (bs : List Byte) : State := (s.spadPut team off bs).forward team off bs

def State.spadLoad (s : State) (team off n : Nat) : List Byte := Tbl.getN (s.team team).spad off n

/-- A read touches a poisoned word (R457). -/
def Team.spadPoisoned (t : Team) (off n : Nat) : Bool := t.spadPoison.any (fun w => decide (4 * w < off + n) && decide (off < 4 * w + 4))

end Sys2Proof.Machine
end

