-- ==== Sys2Proof/Machine/Operands.lean ====
section
/-! DEFINITION. Operand forms: register numbers, inline constants, special sources, pairs, groups, guards and predicates; reading and writing registers under the hazard rules; the commit of results (R28 to R37, R62, R76, R100, R101, R141, R343 to R346). -/

namespace Sys2Proof.Machine

/-! ## Values a field supplies -/

/-- The 32-bit pattern of inline constant k, field value 480 + k (R33). -/
def inl32 (k : Nat) : W32 :=
  if k < 16 then BitVec.ofNat 32 k
  else if k < 24 then BitVec.ofNat 32 (2 ^ 32 - (k - 15))
  else if k = 24 then 0x3F000000
  else if k = 25 then 0xBF000000
  else if k = 26 then 0x3F800000
  else if k = 27 then 0xBF800000
  else if k = 28 then 0x40000000
  else if k = 29 then 0xC0000000
  else if k = 30 then 0x40800000
  else 0xC0800000

/-- The 64-bit value of an inline constant: integers sign-extended, FP32 patterns zero-extended (R33). -/
def inl64 (k : Nat) : W64 := if k < 24 then (inl32 k).signExtend 64 else (inl32 k).setWidth 64

/-- The clock a thread reads: aclk, or in record and replay modes the instructions its warp has issued (R37). -/
def State.clockOf (s : State) (k : Nat) : W64 :=
  BitVec.ofNat 64 (if (s.ctxOf (s.team (teamOf k))).logMode = 0 then s.clock else (s.warp (warpOf k)).issued)

/-- A special source as a thread reads it (R36). -/
def State.special (s : State) (k : Nat) (x : Special) : W32 :=
  let t := s.team (teamOf k)
  match x with
  | .tid => BitVec.ofNat 32 (32 * widOf k + seatOf k)
  | .wid => BitVec.ofNat 32 (widOf k)
  | .seat => BitVec.ofNat 32 (seatOf k)
  | .teamx => t.x
  | .teamy => t.y
  | .teamz => t.z
  | .role => BitVec.ofNat 32 (s.warp (warpOf k)).role
  | .core => BitVec.ofNat 32 t.core
  | .cluster => BitVec.ofNat 32 (clusterOf t.core)
  | .die => BitVec.ofNat 32 (dieOf t.core)
  | .cvseq => (s.thread k).seq.setWidth 32
  | .clock => lo32 (s.clockOf k)
  | .clockhi => hi32 (s.clockOf k)
  | .cause => (s.thread k).shown.cause.setWidth 32

/-! ## Registers by number -/

/-- A register: false a vector register of the thread, true a w register of the warp. -/
abbrev Reg := Bool × Nat

/-- Register i of the group a field names. -/
def srcReg (x : Src) (i : Nat) : Option Reg :=
  match x with
  | .v r => some (false, r.val + i)
  | .w r => some (true, r.val + i)
  | _ => none

/-- The registers of a group of n. -/
def srcRegs (x : Src) (n : Nat) : List Reg := (List.range n).filterMap (fun i => srcReg x i)

/-- How many registers a use takes (R34, R62). -/
def Use.count : Use → Nat
  | .zero => 0
  | .gconst => 0
  | .src | .dst => 1
  | .pairI | .pairC | .ptr | .dpair => 2
  | .grp n => n

/-- The registers that an instruction's fields name (R345). -/
def instrRegs (i : Instr) : List Reg :=
  match i with
  | .xbar _ o => srcRegs o.d (xbarG o.b) ++ srcRegs o.a (xbarG o.b) ++ srcRegs o.c 1
  | _ => ((toEnc i).fields.map (fun p => srcRegs p.2 p.1.count)).flatten

/-- The fields that are read: every source use, and groups anywhere but in the d field. -/
def readUse (isD : Bool) : Use → Bool
  | .dst | .dpair => false
  | .grp _ => !isD
  | _ => true

/-- The registers that an instruction reads. -/
def readRegs (i : Instr) : List Reg :=
  match i with
  | .xbar _ o => srcRegs o.a (xbarG o.b) ++ srcRegs o.c 1
  | _ =>
    match (toEnc i).fields with
    | [] => []
    | p :: ps => (if readUse true p.1 then srcRegs p.2 p.1.count else [])
        ++ (ps.map (fun q => if readUse false q.1 then srcRegs q.2 q.1.count else [])).flatten

/-- The registers from which a memory or engine instruction forms the addresses it checks (R247, R269). -/
def addrRegs (i : Instr) : List Reg :=
  match toEnc i with
  | .m major op o => (match mRow major op o.ty with | some row => srcRegs o.a row.a.count | none => [])
  | .x major cmd o =>
    (match xRow major cmd with
      | some row => srcRegs o.a row.a.count ++ srcRegs o.b (if readUse false row.b then row.b.count else 0) ++ srcRegs o.c row.c.count
      | none => [])
  | _ => readRegs i

/-! ## Outstanding results (R343, R346) -/

/-- The value a pending result brings to a register, if it brings one. -/
def Pending.brings (p : Pending) (r : Reg) : Option W32 :=
  if p.late.isSome || p.differ || !p.has then none else (p.dst.find? (fun q => decide (q.1 = r))).map Prod.snd

/-- A register has an outstanding result. -/
def awaited (ps : List Pending) (r : Reg) : Bool := ps.any (fun p => p.dst.any (fun q => decide (q.1 = r)))

/-- The results outstanding to registers of a thread: its own, and those of its warp. -/
def State.outFor (s : State) (k : Nat) (r : Reg) : List Pending := if r.1 then (s.warp (warpOf k)).out else (s.thread k).out

/-- The number of a free choice about one register of one thread: in record and replay modes it depends only on the run (R346). -/
def State.hazardIndex (s : State) (k : Nat) (r : Reg) : Nat :=
  let t := s.team (teamOf k)
  let n := if (s.ctxOf t).logMode = 0 then 2 * s.fresh else 2 * (t.index * 2 ^ 48 + t.tcount) + 1
  2 * ((n * 1024 + k % 1024) * 1024 + (if r.1 then 512 + r.2 else r.2)) + 1

/-- The value of a register with outstanding results: the old one or an arriving one (R346). -/
def State.choose (s : State) (k : Nat) (r : Reg) (old : W32) : W32 :=
  match (s.outFor k r).filterMap (fun p => p.brings r) with
  | [] => old
  | c :: cs => ((old :: c :: cs)[Config.freeNat (s.hazardIndex k r) % (cs.length + 2)]?).getD old

/-- Read one register. -/
def State.readReg (s : State) (k : Nat) (r : Reg) : W32 :=
  let old := if r.1 then Tbl.get (s.warp (warpOf k)).w r.2 else Tbl.get (s.thread k).v r.2
  s.choose k r old

/-- A 32-bit source. -/
def State.rd (s : State) (k : Nat) (x : Src) : W32 :=
  match x with
  | .v r => s.readReg k (false, r.val)
  | .w r => s.readReg k (true, r.val)
  | .sr sp => s.special k sp
  | .inl c => inl32 c.val

/-- Register i of a group. -/
def State.rdAt (s : State) (k : Nat) (x : Src) (i : Nat) : W32 :=
  match srcReg x i with
  | some r => s.readReg k r
  | none => 0

/-- A 64-bit source (R34): a pair, `sr.clock` whole, or an inline constant. -/
def State.rd64 (s : State) (k : Nat) (x : Src) : W64 :=
  match x with
  | .sr .clock => s.clockOf k
  | .sr _ => 0
  | .inl c => inl64 c.val
  | _ => pair64 (s.rdAt k x 0) (s.rdAt k x 1)

/-- A group of n registers. -/
def State.rdGroup (s : State) (k : Nat) (x : Src) (n : Nat) : List W32 := (List.range n).map (fun i => s.rdAt k x i)

/-- A source of the instruction's type as a number: bits [n-1:0] (R76, R100). -/
def State.rdTy (s : State) (k : Nat) (t : Ty) (x : Src) : Nat :=
  if Ty.wide t then (s.rd64 k x).toNat else (s.rd k x).toNat % 2 ^ Ty.width t

/-! ## Predicates and guards -/

/-- A predicate: p7 reads as 1 (R31). -/
def Thread.pred (th : Thread) (p : Fin 8) : Bool := if p = 7 then true else th.p.getLsbD p.val

/-- A write to p7 is discarded (R31). -/
def Thread.setPred (th : Thread) (p : Fin 8) (b : Bool) : Thread :=
  if p = 7 then th
  else { th with p := (th.p &&& ~~~ (1#7 <<< p.val)) ||| (if b then 1#7 <<< p.val else 0) }

/-- A guard or a branch condition: the predicate, negated where the negate bit is set (R44). -/
def Thread.holds (th : Thread) (g : Guard) : Bool := th.pred g.p != g.neg

/-- The header of an instruction's word; an event has none and acts as an unguarded word. -/
def wordHdr (i : Instr) : Hdr := (toEnc i).hdr.getD { sw := false, g := { neg := false, p := 7 } }

/-! ## Writing registers -/

/-- A result outstanding to a register is dropped. -/
def Pending.drop (p : Pending) (r : Reg) : Pending := { p with dst := p.dst.filter (fun q => decide (q.1 ≠ r)) }

/-- Over a register with an outstanding result a write leaves the written value or the arriving one (R346): where the written one is to stand, the arriving one is dropped. -/
def State.settleOut (s : State) (k : Nat) (r : Reg) (ps : List Pending) : List Pending :=
  if awaited ps r && Config.freeBit (s.hazardIndex k r) then ps.map (fun p => p.drop r) else ps

/-- Write one register: it loses its poison (R456). -/
def State.writeReg (s : State) (k : Nat) (r : Reg) (x : W32) : State :=
  if r.1 then s.updWarp (warpOf k) (fun w => { w with w := Tbl.set w.w r.2 x, out := s.settleOut k r w.out })
  else s.updThread k (fun th => { th with v := Tbl.set th.v r.2 x, poison := th.poison.filter (fun n => decide (n ≠ r.2)), out := s.settleOut k r th.out })

def State.writeRegs (s : State) (k : Nat) (ws : List (Reg × W32)) : State := ws.foldl (fun s p => s.writeReg k p.1 p.2) s

/-! ## Results of one instruction -/

/-- What one thread computes: register writes, predicate writes, flags. -/
structure Result where
  k : Nat
  dst : List (Reg × W32) := []
  preds : List (Fin 8 × Bool) := []
  fx : W32 := 0
  /-- late cause of poisoned data: nothing is written (R457) -/
  late : Option (BitVec 10) := none
  addr : Addr80 := 0
  deriving Inhabited

def Result.vs (r : Result) : List (Reg × W32) := r.dst.filter (fun p => !p.1.1)
def Result.ws (r : Result) : List (Reg × W32) := r.dst.filter (fun p => p.1.1)

/-- The w values of the threads differ from the lowest-seated one's (R30, R101). -/
def resultsDiffer : List Result → Bool
  | [] => false
  | r :: rs => rs.any (fun q => decide (q.ws ≠ r.ws))

/-- A destination of one register. -/
def dstOne (d : Src) (x : W32) : List (Reg × W32) :=
  match srcReg d 0 with
  | some r => [(r, x)]
  | none => []

/-- A destination of consecutive registers (R62). -/
def dstGroup (d : Src) (xs : List W32) : List (Reg × W32) :=
  (List.range xs.length).filterMap (fun i => (srcReg d i).map (fun r => (r, xs[i]?.getD 0)))

/-- A destination of a 64-bit value (R34). -/
def dstPair (d : Src) (x : W64) : List (Reg × W32) := dstGroup d [lo32 x, hi32 x]

/-- A destination of the instruction's type: narrow results are extended to the register as R76 says. -/
def dstTy (t : Ty) (d : Src) (x : Nat) : List (Reg × W32) :=
  if Ty.wide t then dstPair d (BitVec.ofNat 64 x)
  else dstOne d (if Ty.signed t then BitVec.ofNat 32 (wrapInt 32 (signedNat (Ty.width t) x)) else BitVec.ofNat 32 (x % 2 ^ Ty.width t))

/-- The predicate writes and flags of a result. -/
def Result.onThread (r : Result) (th : Thread) : Thread :=
  (r.preds.foldl (fun th p => th.setPred p.1 p.2) th).raiseFx r.fx

/-- Write fixed-latency results: each thread's own registers, predicates and flags, then the w registers with the lowest-seated thread's value (R30, R101). -/
def State.commit (s : State) (rs : List Result) : State :=
  let s := rs.foldl (fun s r => (s.writeRegs r.k r.vs).updThread r.k r.onThread) s
  match rs with
  | [] => s
  | r :: _ => s.writeRegs r.k r.ws

/-- The result of one thread as it is outstanding until RESULT_ARRIVAL (R343). -/
def Result.pending (r : Result) (pc : W64) (tcount : Nat) (flt : Bool) (done : W32) : Pending :=
  { pc := pc, tcount := tcount, dst := r.vs, fx := r.fx, flt := flt, late := r.late, addr := r.addr, done := done }

/-- Issue variable-latency results: they are outstanding from now on. A w destination is outstanding for the whole warp with the lowest-seated thread's value. The float flags of a thread arrive with its result whether or not the w values differ (DESIGN CHOICE, log 79). -/
def State.issueResults (s : State) (pc : W64) (tcount : Nat) (flt checked : Bool) (rs : List Result) : State :=
  let done := maskOf ((rs.filter (fun q => q.late.isNone)).map (fun q => seatOf q.k))
  let s := rs.foldl (fun s r => s.updThread r.k (fun th => { th with out := th.out ++ [r.pending pc tcount flt done] })) s
  match rs with
  | [] => s
  | r :: _ =>
    if r.ws = [] then s
    else s.updWarp (warpOf r.k) (fun w => { w with out := w.out ++ [{ pc := pc, tcount := tcount, dst := r.ws, flt := flt, late := r.late, addr := r.addr, differ := checked && resultsDiffer rs, group := maskOf (rs.map (fun q => seatOf q.k)), done := done }] })

/-! ## Results of threads that park (R30, R202, R254, R308, R310, R343) -/

/-- The results of an instruction that some threads perform now while others park at it: those of the parked ones, to the registers `d`, are outstanding from now on and take their values as each thread leaves. -/
def State.issueParked (s : State) (pc : W64) (tcount : Nat) (checked : Bool) (d : List Reg) (rs : List Result) (parked : List Nat) : State :=
  match parked with
  | [] => s.issueResults pc tcount false checked rs
  | k0 :: _ =>
    let done := maskOf (rs.map (fun q => seatOf q.k))
    let s := rs.foldl (fun s r => s.updThread r.k (fun th => { th with out := th.out ++ [r.pending pc tcount false done] })) s
    let vs := (d.filter (fun r => !r.1)).map (fun r => (r, 0#32))
    let s := parked.foldl (fun s k => s.updThread k (fun th => { th with out := th.out ++ [{ pc := pc, tcount := tcount, dst := vs, held := 1, has := false, parks := true, done := maskOf [seatOf k] }] })) s
    let ws := (d.filter (fun r => r.1)).map (fun r => (r, 0#32))
    if ws = [] then s
    else s.updWarp (warpOf k0) (fun w => { w with out := w.out ++ [{ pc := pc, tcount := tcount, dst := match rs with | r :: _ => r.ws | [] => ws, held := parked.length, has := !rs.isEmpty, parks := true, differ := checked && resultsDiffer rs, group := maskOf (rs.map (fun q => seatOf q.k) ++ parked.map seatOf), done := done }] })

/-- The result only waits for parked threads to leave: no halt waits for it (R347). -/
def Pending.atParked (p : Pending) : Bool := p.parks && decide (p.held ≠ 0)

/-- A held result takes its value. -/
def Pending.fill (p : Pending) (x : Reg → Option W32) : Pending := { p with dst := p.dst.map (fun d => (d.1, (x d.1).getD d.2)), held := p.held - 1, has := true }

/-- A value that brings a register something else than the result already does. -/
def Pending.clashes (p : Pending) (x : Reg → Option W32) : Bool := p.has && p.dst.any (fun d => match x d.1 with | some v => decide (v ≠ d.2) | none => false)

/-- A value of a thread's instruction is there: it goes to the results that its thread and its warp hold for that instruction. A w register takes the lowest-seated thread's value; in checked mode a differing one is noted (R30, R343). -/
def State.answerHeld (s : State) (k tc : Nat) (x : Reg → Option W32) : State :=
  let checked := (s.ctxOf (s.team (teamOf k))).checked
  let s := s.updThread k (fun th => { th with out := th.out.map (fun p => if p.tcount = tc ∧ p.held ≠ 0 then p.fill x else p) })
  s.updWarp (warpOf k) (fun w => { w with out := w.out.map (fun p =>
    if p.tcount = tc ∧ p.held ≠ 0 then
      let q := if p.has && lowSeat p.group != some (seatOf k) then { p with held := p.held - 1 } else p.fill x
      { q with differ := p.differ || (checked && p.clashes x) }
    else p) })

/-- The team count of the instruction that a thread is parked at with its result outstanding. -/
def Thread.parkedAtCount (th : Thread) : Option Nat := (th.out.find? Pending.atParked).map (fun p => p.tcount)

/-- The value of a parked thread's instruction, as its result says; where a restore has ended its outstanding result it issues anew (R347). -/
def State.answerParked (s : State) (r : Result) : State :=
  let t := s.team (teamOf r.k)
  match (s.thread r.k).parkedAtCount with
  | none => s.issueResults (s.thread r.k).pc t.tcount false (s.ctxOf t).checked [r]
  | some tc => s.answerHeld r.k tc (fun q => (r.dst.find? (fun d => decide (d.1 = q))).map Prod.snd)

/-- A warp's registers take what threads that did not park have brought to a result that still waits for parked ones: a save keeps it (R30, R347). -/
def Warp.landParked (w : Warp) : Warp :=
  w.out.foldl (fun w p => if p.atParked ∧ p.has = true ∧ p.differ = false then { w with w := p.dst.foldl (fun t d => Tbl.set t d.1.2 d.2) w.w } else w) w

/-- A thread leaves its wait without performing its instruction: its result is awaited no more. -/
def State.dropParked (s : State) (k : Nat) : State :=
  match (s.thread k).parkedAtCount with
  | none => s
  | some tc =>
    let s := s.updThread k (fun th => { th with out := th.out.filter (fun p => !(p.parks && decide (p.tcount = tc))) })
    s.updWarp (warpOf k) (fun w => { w with out := (w.out.map (fun p => if p.parks ∧ p.tcount = tc then { p with held := p.held - 1, group := p.group &&& ~~~ maskOf [seatOf k] } else p)).filter (fun p => !p.parks || p.has || decide (p.held ≠ 0)) })

/-! ## Addresses (R209, R211, R244) -/

/-- The 80-bit address {xh, 64 bits}. -/
def Team.addr (t : Team) (xsel : Fin 8) (x : W64) : Addr80 := t.xh[xsel] ++ x

/-- The signed 14-bit byte offset of an M-format word. -/
def memOffset (o : MOp) : W64 := o.off.signExtend 64

/-- The generic address of a thread's access (R209). -/
def State.gaddr (s : State) (k : Nat) (o : MOp) : Addr80 := (s.team (teamOf k)).addr o.xsel (s.rd64 k o.a + memOffset o)

/-- The scratchpad address of a thread's access, in the scratchpad window (R211). -/
def State.laddr (s : State) (k : Nat) (o : MOp) : Nat := (s.rd k o.a + lo32 (memOffset o)).toNat

/-- A scratchpad offset as a generic address. -/
def spadAddr (off : Nat) : Addr80 := 0xFFFF#16 ++ (1#32 ++ BitVec.ofNat 32 off)

/-- The pointer pair of an engine instruction as an address. -/
def State.xaddr (s : State) (k : Nat) (sel : Fin 8) (p : Src) : Addr80 := (s.team (teamOf k)).addr sel (s.rd64 k p)

end Sys2Proof.Machine
end

