-- ==== Sys2Proof/Machine/Flow.lean ====
section
/-! DEFINITION. Block headers and where a thread stands: fetching, the header checks, entering a header, reconvergence and its release, switch-parking (R40, R41, R331, R336, R340 to R344). -/

namespace Sys2Proof.Machine

/-! ## Fetching -/

/-- The 64-bit word that a core's L1 holds at an address, where it holds all of it (R229). -/
def State.l1Word (s : State) (core pa : Nat) : Option Nat :=
  match Assoc.find (s.core core).l1 (pa / 128) with
  | none => none
  | some l => if l.have_ &&& lineMask (pa % 128) 8 = lineMask (pa % 128) 8 then some (ofBytesNat ((List.range 8).map (fun i => byteOf l.data (pa % 128 + i)))) else none

/-- The line of a code word is poisoned where the fetch reads it (R457). -/
def State.codePoisoned (s : State) (core pa : Nat) : Bool :=
  match s.l1Word core pa, Assoc.find (s.core core).l1 (pa / 128) with
  | some _, some l => l.poison
  | _, _ => s.poisoned (pa / 128)

/-- The code word that a core fetches through its L1 (R51, R224): the word its L1 shows, the one at the home agent, or the one it first fetched since its last kernel start. Where these differ a store has come since, and which version the fetch returns is free; in record and replay modes it is the L1's (log 11). -/
def State.codeValue (s : State) (core ctx : Nat) (p : Piece) : Nat :=
  let home := s.numAt p.key p.pa 8
  let now := (s.l1Word core p.pa).getD home
  let old := (Assoc.find (s.core core).code (ctx * 2 ^ 80 + p.va)).getD now
  if (home = now ∧ old = now) ∨ (s.ctx ctx).logMode ≠ 0 then now
  else ([now, home, old][Config.freeNat (2 * s.fresh + 1) % 3]?).getD now

/-- Where a code word stands: fetches go only to the global space and need execute permission; the cause of a fetch that fails (R331, R385, R457). -/
def State.codeAt (s : State) (team : Nat) (pc : Addr80) : Except Nat Piece × State :=
  let t := s.team team
  match decodeAddr pc with
  | .global va =>
    match s.translate t.core (ckey t.func t.ctx) va .fetch with
    | (.ok pa key sealed _ _, s) => (if s.codePoisoned t.core pa then .error 0x32B else .ok { pa := pa, n := 8, key := key, sealed := sealed, va := va }, s)
    | (.denied, s) => (.error (deniedCode .fetch), s)
    | (.aperture, s) => (.error (boundsCode .fetch 3), s)
    | (.fault f, s) => (.error (f.code .fetch), s.noteWalk team va f)
  | _ => (.error (boundsCode .fetch 3), s)

/-- Read an instruction word or a header. -/
def State.fetch (s : State) (team : Nat) (pc : Addr80) : Except Nat Nat × State :=
  let t := s.team team
  match s.codeAt team pc with
  | (.error code, s) => (.error code, s)
  | (.ok p, s) => (.ok (s.codeValue t.core (ckey t.func t.ctx) p), s)

/-! ## Headers (R40, R41) -/

def hdrLen (w : Nat) : Nat := fld w 48 12
def hdrVlive (w : Nat) : Nat := fld w 39 9
def hdrWlive (w : Nat) : Nat := fld w 33 6
def hdrC (w : Nat) : Bool := fbit w 32
/-- The reconvergence displacement, modulo 2^64 in bytes; 0 means none. -/
def hdrReconv (w : Nat) : W64 := (BitVec.ofNat 20 (fld w 12 20)).signExtend 64 * 8

/-- The check byte: the XOR of bytes 1 to 7. -/
def hdrCheck (w : Nat) : Nat := (List.range 7).foldl (fun x i => x ^^^ fld w (8 * (i + 1)) 8) 0

/-- A malformed header for a role of a given budget (R41). -/
def hdrBad (budget w : Nat) : Bool :=
  decide (fld w 60 4 ≠ 0xB) || decide (fld w 0 8 ≠ hdrCheck w) || decide (hdrLen w = 0) || decide (384 < hdrVlive w) || decide (budget < hdrVlive w)

/-- Push a reconvergence target: onto 16 entries the bottom one goes (R340 step 4). -/
def pushStack (stack : List W64) (t : W64) : List W64 := if stack.head? = some t then stack else t :: stack.take 15

/-- The region and the push of a header that passed its checks; the thread stands at the first word (R340 steps 3 and 4). -/
def Thread.passHeader (th : Thread) (H : W64) (w : Nat) : Thread :=
  { th with st := .ready, block := H, len := hdrLen w, vlive := hdrVlive w, wlive := hdrWlive w, pc := H + 8, seq := th.seq + (if hdrC w then 1 else 0), stack := if hdrReconv w = 0 then th.stack else pushStack th.stack (H + hdrReconv w) }

/-- A cause at a header: the thread stands at it (R41, R349). -/
def State.headerCause (s : State) (k : Nat) (H : W64) (addr : Addr80) (code : Nat) : State :=
  s.recordCause k { pc := H, addr := addr, code := code, late := false, done := 0, tcount := (s.team (teamOf k)).tcount }

/-- Steps 2 to 4 of R340: the checks, the region, the push. -/
def State.enterChecks (s : State) (k : Nat) (H : W64) : State :=
  let t := s.team (teamOf k)
  let s := s.updThread k (fun th => { th with st := .ready, pc := H, block := H })
  if H.toNat % 8 ≠ 0 then s.headerCause k H 0 0x28
  else match s.fetch (teamOf k) (t.codeHi ++ H) with
    | (.error code, s) => s.headerCause k H (t.codeHi ++ H) code
    | (.ok w, s) => if hdrBad (s.warp (warpOf k)).budget w then s.headerCause k H 0 0x28 else s.updThread k (fun th => th.passHeader H w)

/-- Entering a header (R340): a thread whose stack holds it becomes reconverging there, any other goes through the checks. -/
def State.enter (s : State) (k : Nat) (H : W64) : State :=
  let th := s.thread k
  if th.stack.contains H then
    s.setThread k { th with st := .reconverging, pc := H, block := H, stack := th.stack.dropWhile (fun x => decide (x ≠ H)), arrived := (s.warp (warpOf k)).opp }
  else s.enterChecks k H

/-! ## Release (R340) -/

/-- The threads of a warp reconverging at a header. -/
def State.reconvergingAt (s : State) (w : Nat) (H : W64) : List Nat :=
  (warpThreads w).filter (fun k => decide ((s.thread k).st = .reconverging) && decide ((s.thread k).pc = H))

/-- Every non-exited thread whose stack holds the header is reconverging at it. -/
def State.allArrived (s : State) (w : Nat) (H : W64) : Bool :=
  (warpThreads w).all (fun k =>
    let th := s.thread k
    decide (th.st = .exited) || !th.stack.contains H || (decide (th.st = .reconverging) && decide (th.pc = H)))

/-- Release a header: each thread reconverging there pops it and goes on from step 2. -/
def State.releaseAt (s : State) (w : Nat) (H : W64) : State :=
  (s.reconvergingAt w H).foldl (fun s k => (s.updThread k (fun th => { th with stack := th.stack.tail, st := .ready })).enterChecks k H) s

/-- A header of the warp whose holders have all arrived. -/
def State.releasable (s : State) (w : Nat) : Option W64 :=
  ((warpThreads w).find? (fun k => decide ((s.thread k).st = .reconverging) && s.allArrived w (s.thread k).pc)).map (fun k => (s.thread k).pc)

/-- Release every header that can be released: at most one per thread. -/
def State.releaseFuel (w : Nat) : Nat → State → State
  | 0, s => s
  | n + 1, s =>
    match s.releasable w with
    | none => s
    | some H => State.releaseFuel w n (s.releaseAt w H)

def State.releaseAll (s : State) (w : Nat) : State := State.releaseFuel w 32 s

/-! ## Switch-parking (R343, R344) -/

/-- No result that a switch marker waits for: none is outstanding, but for those of instructions that threads in the handler were parked at when they entered it (R435; DESIGN CHOICE, log 80). -/
def State.noneDue (s : State) (k : Nat) (ps : List Pending) : Bool :=
  ps.isEmpty || ((s.team (teamOf k)).handler && ps.all (fun p => p.parks && decide (p.held ≠ 0)))

/-- A thread whose results have all arrived leaves switch-parking; one that stands before a header then enters it. -/
def State.leaveSwitch (s : State) (k : Nat) : State :=
  let th := s.thread k
  if th.st = .switchParked ∧ s.noneDue k th.out = true ∧ s.noneDue k (s.warp (warpOf k)).out = true then
    let s := s.setThread k { th with st := .ready }
    if th.pc = th.block then s.enter k th.pc else s
  else s

def State.settleSwitch (s : State) (w : Nat) : State := ((warpThreads w).foldl (fun s k => s.leaveSwitch k) s).releaseAll w

/-! ## Going on after an instruction -/

/-- The address after an instruction of a thread, and the header that follows its block (R349). -/
def Thread.after (th : Thread) (words : Nat) : W64 := th.pc + BitVec.ofNat 64 (8 * words)
def Thread.nextHeader (th : Thread) : W64 := th.block + BitVec.ofNat 64 (8 * (th.len + 1))

/-- The marker parks a thread (R344). -/
def Thread.mark (th : Thread) (sw : Bool) : Thread := if sw then { th with st := .switchParked } else th

/-- Go to a header: a thread that its marker parks, or that has recorded a cause after performing, stands before it until it goes on. -/
def State.goHeader (s : State) (k : Nat) (sw hold : Bool) (H : W64) : State :=
  if sw || hold then s.updThread k (fun th => ({ th with pc := H, block := H } : Thread).mark sw) else s.enter k H

/-- Move one thread on from its instruction: to a header it transfers to, to the next word, or to the header after its block. -/
def State.moveOn (s : State) (k words : Nat) (sw hold : Bool) (target : Option W64) : State :=
  let th := s.thread k
  match target with
  | some H => s.goHeader k sw hold H
  | none =>
    if th.after words = th.nextHeader then s.goHeader k sw hold th.nextHeader
    else s.setThread k (({ th with pc := th.after words } : Thread).mark sw)

/-- A parked thread leaves its instruction and goes on (R336). -/
def State.leaveWait (s : State) (k : Nat) (sw : Bool) : State :=
  (s.updThread k (fun th => { th with st := .ready, wait := .none })).moveOn k 1 sw false none

end Sys2Proof.Machine
end

