-- ==== Sys2Proof/Machine/Ops.lean ====
section
/-! DEFINITION. The shared operations: performing an instruction for an issue group with its checks, causes and marker; events that wait for the log; taking an exception (the trap handler's entry) and returning from one (R30, R44, R73, R247, R255, R256, R316, R320, R323, R324, R427 to R431, R435, R445, R446, R449, R457). -/

namespace Sys2Proof.Machine

/-! ## Waiting for the log (R320, R323, R324) -/

/-- The context whose log held an event back. -/
def State.missed (s : State) : Option Nat := (s.ctxs.find? (fun p => p.2.miss)).map Prod.fst

/-- The threads that a divergence fault reaches: the one at the event's position, or for a DIGEST every thread parked at the boundary (R324). -/
def State.divergeThreads (s : State) (c : Ctx) : List Nat :=
  let t := teamOf c.missAt
  if (Assoc.find s.threads c.missAt).isNone then []
  else if c.missFor = 1 then (teamThreads t (s.team t)).filter (fun k => decide ((s.thread k).st = .parked)) else [c.missAt]

/-- An event that a log, or want of room, held back is not performed: the state before it stands, except that time passes, that a stall is noted for the completion, and that a divergence is recorded (R320, R323, R324). -/
def State.backOut (s s' : State) (cn : Nat) : State :=
  let c' := s'.ctx cn
  let s0 : State := { s with fresh := s'.fresh + 1 }
  if c'.missFor = 9 then s0
  else if c'.diverged then
    let was := (s.ctx cn).diverged
    let s1 := if was then s0 else (s0.logCursor cn c'.order).diverge cn c'.divReason
    let code := replayCode (if was then 2 else c'.divReason) c'.missFor
    if c'.missFor = 2 then s1.lateCause (teamOf c'.missAt) c'.missAt c'.missPc c'.missCount code 0 c'.missDone
    else (s1.divergeThreads c').foldl (fun s k => s.recordCause k { pc := (s.thread k).pc, addr := 0, code := code, late := false, done := 0, tcount := (s.team (teamOf k)).tcount }) s1
  else if c'.stalled then (if (s.ctx cn).stalled then s0 else s0.startStall cn).updTeam (teamOf c'.missAt) (fun t => { t with logStall := true })
  else s0

/-- Perform an event, or leave it waiting on a log. -/
def State.atomically (s : State) (g : State → State) : State :=
  let s' := g s
  match s'.missed with
  | none => s'
  | some c => s.backOut s' c

/-! ## What an instruction is made of -/

/-- A cause of one thread: thread, code, address. -/
abbrev Flt := Nat × Nat × Addr80

/-- What performing did: the state; threads that faulted on the way; threads that do not go on (parked or exited); threads that transferred; causes recorded after the performance (`trap`, `brk`, watchpoints). -/
structure Acted where
  s : State
  faults : List Flt := []
  stay : List Nat := []
  /-- of these, the threads that no free resource was left for: they have not performed the instruction (R491) -/
  unserved : List Nat := []
  goto_ : List (Nat × W64) := []
  later : List Flt := []
  /-- threads that stop with this instruction: a header they come to is entered when they go on (`halt`) -/
  hold : List Nat := []
  /-- what the instruction completes once it has been counted: a boundary, the end of a team -/
  after_ : State → State := id

/-- An instruction: its checks per thread, which give what the performance needs, and its performance for the threads that passed. `every` says which threads it concerns though their guard is false: those whom a convergent instruction names (R141). -/
structure Plan (α : Type) where
  ins : Instr
  words : Nat := 1
  every : State → Nat → Bool := fun _ _ => false
  check : State → Nat → Except (Nat × Addr80) α × State
  act : Focus → State → List (Nat × α) → Acted

/-- The thread numbers of an issue group, in ascending seat order. -/
def Focus.threads (f : Focus) : List Nat := (seats f.group).map (fun x => tkey f.team f.wid x)

/-- The major opcode of a word. -/
def Enc.majorOf : Enc → Nat
  | .r n _ _ | .p n _ _ | .i n _ _ | .m n _ _ | .b n _ | .x n _ _ | .w n _ _ => n
  | .pfn _ => 0x1A
  | .fence _ | .fenceX _ | .phase _ => 0x65
  | .retSet _ _ | .retClr _ _ => 0x66
  | .u _ _ _ _ | .nothing => 0

/-- `ldlk` and `stul` do not count in a lock window (R255). -/
def isLockWord (i : Instr) : Bool := decide ((toEnc i).majorOf = 0x60 ∨ (toEnc i).majorOf = 0x61)

/-- Instructions a lock window does not admit (R255). -/
def windowForbids (i : Instr) : Bool :=
  let m := (toEnc i).majorOf
  decide (m = 0x07 ∨ m = 0x08) || (decide (0x50 ≤ m ∧ m ≤ 0x73) && decide (m ≠ 0x61))

/-- The instruction breaks the thread's lock window (R256): a forbidden one with the guard true, or the 17th. -/
def Thread.windowBroken (th : Thread) (i : Instr) (guard : Bool) : Bool :=
  match th.win with
  | none => false
  | some w => (guard && windowForbids i) || (!isLockWord i && decide (16 ≤ w.count))

/-- The codes of R426 that the shared checks raise. -/
def codeHazard : Nat := 0x200
def codeWindow : Nat := 0x220
def codeUniform : Nat := 0x6F
def codeRegPoison : Nat := 0x300

/-- A register of the list has an outstanding result for the thread (R345). -/
def State.hazardIn (s : State) (k : Nat) (rs : List Reg) : Bool := rs.any (fun r => awaited (s.outFor k r) r)

/-- A register of the list is poisoned (R456, R457). -/
def State.poisonIn (s : State) (k : Nat) (rs : List Reg) : Bool := rs.any (fun r => !r.1 && (s.thread k).poison.contains r.2)

/-- What the checks of one instruction decide for one thread: it passes by, it faults, or it performs. -/
inductive Gate (α : Type) where
  | pass
  | bad (code : Nat) (addr : Addr80)
  | go (a : α)

/-- A `csr.rd` of `cr.fx` waits for the outstanding results of the float chapter and meets no hazard in them (R121). -/
def isFxRead (i : Instr) : Bool :=
  match i with
  | .csrRd o => decide (o.imm.toNat % 4096 = 0)
  | _ => false

/-- The registers whose outstanding results the instruction may not meet: all that its fields name for an active thread, the sources and the mask for a named thread whose guard is false (R145, R345); those of groups whose size an operand gives are the instruction's own check (R374). -/
def State.hazardous (s : State) (k : Nat) (i : Instr) (guard : Bool) : Bool :=
  let rs := if guard then instrRegs i else readRegs i
  if isFxRead i then rs.any (fun r => awaited ((s.outFor k r).filter (fun p => !p.flt)) r) else s.hazardIn k rs

/-- The checks of one thread in their order: the operand's address checks, unless the address itself awaits a result; then hazard, lock window and poisoned register (R247, R345, R430, R457). -/
def Plan.gate {α : Type} (p : Plan α) (checked : Bool) (s : State) (k : Nat) : Gate α × State :=
  let th := s.thread k
  let guard := th.holds (wordHdr p.ins).g
  let broken := th.windowBroken p.ins guard
  if !(guard || p.every s k) then (if broken then .bad codeWindow 0 else .pass, s)
  else if checked && s.hazardIn k (addrRegs p.ins) then (.bad codeHazard 0, s)
  else match p.check s k with
    | (.error e, s') => (.bad e.1 e.2, s')
    | (.ok a, s') =>
      if checked && s.hazardous k p.ins guard then (.bad codeHazard 0, s')
      else if broken then (.bad codeWindow 0, s')
      else if s.poisonIn k (readRegs p.ins) then (.bad codeRegPoison 0, s')
      else (.go a, s')

/-- The gates of a list of threads: the causes, the performers, the state. -/
def Plan.gates {α : Type} (p : Plan α) (checked : Bool) : State → List Nat → List Flt × List (Nat × α) × State
  | s, [] => ([], [], s)
  | s, k :: ks =>
    let g := p.gate checked s k
    let r := p.gates checked g.2 ks
    match g.1 with
    | .pass => r
    | .bad code addr => ((k, code, addr) :: r.1, r.2)
    | .go a => (r.1, (k, a) :: r.2.1, r.2.2)

/-! ## Breakpoints (R449) -/

/-- The context is attached to the debugger. -/
def State.attachedTo (s : State) (t : Team) : Bool :=
  match s.mod.attached with
  | some a => decide (a.1 = t.func) && decide (a.2.1 = t.ctx)
  | none => false

/-- The breakpoint comparator that matches an address for a team. -/
def State.breakAt (s : State) (t : Team) (pc : W64) : Option Nat :=
  if s.attachedTo t then
    (s.mod.bps.find? (fun b => b.2.en && decide (b.2.addr = t.codeHi ++ pc))).map Prod.fst
  else none

/-- The watchpoint that a thread's scratchpad access meets, as its cause: 0x348 + index for a read, 0x350 + index where it writes (R449). -/
def State.watchAt (s : State) (k off n : Nat) (reads writes : Bool) : Option Nat :=
  let t := s.team (teamOf k)
  if s.attachedTo t then
    (s.mod.wps.find? (fun p => p.2.en && decide (off < p.2.off + p.2.len) && decide (p.2.off < off + n)
      && (decide (p.2.team = 0xFFFFFFFF) || decide (p.2.team.toNat = t.index)) && ((reads && p.2.onRead) || (writes && p.2.onWrite)))).map
      (fun p => if writes then 0x350 + p.1 else 0x348 + p.1)
  else none

/-! ## Performing -/

/-- Every thread of the group starts its instruction: its wait count, yield mark and breakpoint exemption end (R338, R353, R449). -/
def State.startIssue (s : State) (g : List Nat) : State :=
  g.foldl (fun s k => s.updThread k (fun th => { th with waitCount := 0, yielded := false, skipBp := false })) s

/-- The instruction counts for the team, the warp and each open lock window (R37, R255, R316). -/
def State.countIssue (s : State) (f : Focus) (i : Instr) (g : List Nat) : State :=
  if f.again then s
  else
    let s := (s.updTeam f.team (fun t => { t with tcount := t.tcount + 1 })).updWarp (wkey f.team f.wid) (fun w => { w with issued := w.issued + 1 })
    if isLockWord i then s
    else g.foldl (fun s k => if (s.thread k).win.isSome then s.updThread k (fun th => { th with win := th.win.map (fun w => { w with count := w.count + 1 }) }) else s) s

/-- Record the causes of one instruction: each record holds the done mask, which is empty for illegal encodings and convergence causes (R431). -/
def State.recordAll (s : State) (pc : W64) (tcount : Nat) (done : W32) (fs : List Flt) : State :=
  fs.foldl (fun s x => s.recordCause x.1 { pc := pc, addr := x.2.2, code := x.2.1, late := false, done := if x.2.1 < 0x80 then 0 else done, tcount := tcount }) s

/-- The scratchpad-only instructions: their records hold the 32-bit offset itself as address (R211, R469). -/
def spadOnly (i : Instr) : Bool :=
  match i with
  | .ldl _ | .stl _ | .ldlTile _ | .atl _ _ | .ldlk _ | .stul _ => true
  | .chbInit _ | .chbExpect _ | .chbArrive _ | .chbWait _ | .chbTest _ | .chbRetire _ => true
  | _ => false

/-- The address that a record of an instruction holds. -/
def recAddr (i : Instr) (a : Addr80) : Addr80 := if spadOnly i then (a.extractLsb' 0 32).setWidth 80 else a

/-- Parked threads that performed their instruction again have done so: those that did not park anew wait for nothing. -/
def State.againDone (s : State) (f : Focus) : State :=
  if f.again then f.threads.foldl (fun s k => s.updThread k (fun th => { th with wait := match th.wait with | .again _ => .none | x => x })) s else s

/-- The end of an instruction: counts, causes, where each thread goes, the marker, releases. -/
def finish (f : Focus) (i : Instr) (words : Nat) (g : List Nat) (done : W32) (bad : List Flt) (a : Acted) : State :=
  let tc := (a.s.team f.team).tcount
  let s := (a.s.againDone f).countIssue f i g
  let s := if (s.team f.team).life = .debugHalted then s.updWarp (wkey f.team f.wid) (fun w => { w with stepDone := done }) else s
  let s := s.recordAll f.pc tc done ((bad ++ a.later).map (fun x => (x.1, x.2.1, recAddr i x.2.2)))
  let still := bad.map (fun x => x.1) ++ a.stay
  let sw := (wordHdr i).sw
  let s := (g.filter (fun k => !still.contains k)).foldl (fun s k => s.moveOn k words sw ((a.later.map (fun x => x.1) ++ a.hold).contains k) ((a.goto_.find? (fun x => decide (x.1 = k))).map (fun x => x.2))) s
  let w := wkey f.team f.wid
  (a.after_ s).settleSwitch w

/-- The whole of one instruction for one group. -/
def Plan.run {α : Type} (p : Plan α) (f : Focus) (s : State) : State :=
  let t := s.team f.team
  let bp := s.breakAt t f.pc
  let stopped := if bp.isSome then f.threads.filter (fun k => !(s.thread k).skipBp) else []
  let g := f.threads.filter (fun k => !stopped.contains k)
  if g = [] then s.recordAll f.pc t.tcount 0 (stopped.map (fun k => (k, 0x340 + bp.getD 0, 0)))
  else
    let s1 := s.startIssue g
    let r := p.gates (s1.ctxOf t).checked s1 g
    let a := p.act f r.2.2 r.2.1
    let faults := a.faults ++ a.s.hits.filter (fun h => decide (h.2.1 = replayCode 2 0))
    let later := a.later ++ a.s.hits.filter (fun h => decide (h.2.1 ≠ replayCode 2 0))
    let bad := r.1 ++ faults
    let done := maskOf ((r.2.1.filter (fun x => !(faults.any (fun y => decide (y.1 = x.1))) && !a.unserved.contains x.1)).map (fun x => seatOf x.1))
    finish f p.ins p.words g done (bad ++ stopped.map (fun k => (k, 0x340 + bp.getD 0, 0))) { a with s := { a.s with fresh := a.s.fresh + 1, hits := [] }, later := later }

/-- In replay mode an instruction that would take its team past a count at which an event of the team is still to come does not issue (R323). -/
def State.heldCount (after_ : State) (team : Nat) (before : State) : State :=
  let t := before.team team
  if (before.ctxOf t).logMode = 2 ∧ after_.missed = none ∧ (after_.team team).tcount ≠ t.tcount ∧ (after_.setTeam team t).teamHeld team = true then
    after_.holdBack (ckey t.func t.ctx)
  else after_

/-- The refreshes that a replay's log names at the instruction just performed, and that it did not need (R323). -/
def State.crefAfter (after_ : State) (f : Focus) (before : State) : State :=
  let t := before.team f.team
  let c := before.ctxOf t
  if c.logMode = 2 ∧ after_.missed = none then after_.crefRest (before.posOf (tkey f.team f.wid 31) t.tcount) (c.logTail - c.order + 1) else after_

/-- Perform an instruction for the group in focus; with none there is no thread to perform it. An instruction that a log holds back is not performed and waits. -/
def perform {α : Type} (p : Plan α) (s : State) : Out :=
  match s.focus with
  | none => .next s
  | some f => .next (s.atomically (fun s => ((p.run f s).crefAfter f s).heldCount f.team s))

/-! ## Instructions over registers -/

/-- Fixed-latency results: the uniformity fault of R30, or the writes. The fault is recorded in every active thread that passed its checks, and the instruction then sets no float flag (DESIGN CHOICE, log 79). -/
def actFixed (s : State) (f : Focus) (rs : List Result) : Acted :=
  if (s.ctxOf (s.team f.team)).checked && resultsDiffer rs then { s := s, faults := rs.map (fun r => (r.k, codeUniform, 0)) }
  else { s := s.commit rs }

/-- Where a fixed-latency instruction writes w registers and some of its threads park, the warp keeps who has still to leave and what the lowest-seated thread so far wrote (R30). -/
def State.joinParked (s : State) (f : Focus) (d : Src) (rs : List Result) (parked : List Nat) : State :=
  match srcReg d 0 with
  | some (true, _) =>
    if parked = [] then s
    else
      let m := maskOf (parked.map seatOf)
      let new : Join := match rs with | [] => { seats := m } | r :: _ => { seats := m, low := seatOf r.k, vals := r.ws }
      s.updWarp (wkey f.team f.wid) (fun w => { w with joins := new :: (w.joins.map (fun j => { j with seats := j.seats &&& ~~~ m })).filter (fun j => decide (j.seats ≠ 0)) })
  | _ => s

/-- Fixed-latency results of the threads that do not park, beside those that do. -/
def actParking (s : State) (f : Focus) (d : Src) (rs : List Result) (parked : List Nat) : Acted :=
  let a := actFixed s f rs
  { a with s := a.s.joinParked f d (if a.faults.isEmpty then rs else []) parked, stay := parked }

/-- A thread leaves a fixed-latency instruction that it was parked at, with its result. Its w registers take the value of the lowest-seated thread that has left; in checked mode a thread whose value differs from that of one that left before records the uniformity fault and writes nothing to them (R30; DESIGN CHOICE, log 79). -/
def State.leaveFixed (s : State) (i : Instr) (r : Result) : State :=
  let w := warpOf r.k
  match (s.warp w).joins.find? (fun j => j.seats.getLsbD (seatOf r.k)) with
  | none => (s.commit [r]).leaveWait r.k (wordHdr i).sw
  | some j =>
    let lower := decide (seatOf r.k < j.low)
    let clash := (s.ctxOf (s.team (teamOf r.k))).checked && decide (j.low < 32) && decide (j.vals ≠ r.ws)
    let j' : Join := { seats := j.seats &&& ~~~ maskOf [seatOf r.k], low := if lower && !clash then seatOf r.k else j.low, vals := if lower && !clash then r.ws else j.vals }
    let s := s.updWarp w (fun x => { x with joins := (x.joins.map (fun q => if q = j then j' else q)).filter (fun q => decide (q.seats ≠ 0)) })
    if clash then
      let pc := (s.thread r.k).pc
      (s.updThread r.k (fun th => { th with st := .ready, wait := .none })).recordCause r.k { pc := pc, addr := 0, code := codeUniform, late := false, done := 0, tcount := (s.team (teamOf r.k)).tcount }
    else (s.commit [{ r with dst := if lower then r.dst else r.vs }]).leaveWait r.k (wordHdr i).sw

/-- Variable-latency results. -/
def actVar (s : State) (f : Focus) (flt : Bool) (rs : List Result) : Acted :=
  let t := s.team f.team
  { s := s.issueResults f.pc t.tcount flt (s.ctxOf t).checked rs }

/-- No check of its own. -/
def noCheck (s : State) (_ : Nat) : Except (Nat × Addr80) Unit × State := (.ok (), s)

/-- An instruction that computes one result per thread from registers (R100 to R102). -/
def regPlan (i : Instr) (words : Nat) (g : State → Nat → Result) : Plan Unit :=
  { ins := i, words := words, check := noCheck, act := fun f s ks => actFixed s f (ks.map (fun x => g s x.1)) }

/-- The same with a variable latency (R121). -/
def varPlan (i : Instr) (g : State → Nat → Result) : Plan Unit :=
  { ins := i, check := noCheck, act := fun f s ks => actVar s f true (ks.map (fun x => g s x.1)) }

/-! ## Illegal encodings (R71 to R73) -/

/-- An illegal word raises its cause in the threads named, but for those that a breakpoint at it stops first (R449); no thread performs it and its marker has no effect. The answer tells whether a thread issued it. -/
def State.illegalIn (s : State) (f : Focus) (ks : List Nat) (code : Nat) : Bool × State :=
  let t := s.team f.team
  let bp := s.breakAt t f.pc
  let stopped := if bp.isSome then ks.filter (fun k => !(s.thread k).skipBp) else []
  let g := ks.filter (fun k => !stopped.contains k)
  let s := s.recordAll f.pc t.tcount 0 (stopped.map (fun k => (k, 0x340 + bp.getD 0, 0)))
  (!g.isEmpty, (s.startIssue g).recordAll f.pc t.tcount 0 (g.map (fun k => (k, code, 0))))

/-- An illegal word for the whole group: it counts as issued (R73, R316). -/
def State.illegal (s : State) (f : Focus) (code : Nat) : State :=
  let r := (s.againDone f).illegalIn f f.threads code
  if r.1 && !f.again then (r.2.updTeam f.team (fun t => { t with tcount := t.tcount + 1 })).updWarp (wkey f.team f.wid) (fun w => { w with issued := w.issued + 1 })
  else r.2

/-! ## The trap handler: entry and return (R435, R446) -/

/-- Save a thread's place, leave its wait, and enter the handler header (R435). -/
def State.trapThread (s : State) (k : Nat) (handler : W64) : State :=
  let th := s.thread k
  if th.st = .exited then s
  else
    let before := if th.st = .switchParked then TState.ready else th.st
    let s := s.setThread k { th with st := .ready, wait := .none, rcd := {}, trap := some { rcd := th.rcd, resume := th.pc, saved := th.pc, block := th.block, stack := th.stack, seq := th.seq, before := before, wait := th.wait, len := if th.pc = th.block then 0 else th.len, vlive := th.vlive, wlive := th.wlive } }
    s.enter k handler

/-- The header of the trap handler: the entry header address + 8 × trapd. -/
def Team.handlerHeader (t : Team) : W64 := lrQ t.lrec 0 + (lrTrapd t.lrec).signExtend 64 * 8

/-- The primary cause of a team (R432): the least class value, class none last; a tie goes to the lowest thread. -/
def State.primary (s : State) (team : Nat) : BitVec 10 × Nat :=
  let ks := teamThreads team (s.team team)
  ks.foldl (fun b k =>
    let c := (s.thread k).shown.cause
    if c.toNat / 64 < b.1.toNat / 64 ∨ (b.1 = 0x3C0 ∧ c ≠ 0x3C0) then (c, k % 1024) else b) (0x3C0, 0)

/-- Take the exception: the team enters its handler (R435). -/
def State.takeTrap (s : State) (team : Nat) : State :=
  let t := s.team team
  let p := s.primary team
  let s := s.setTeam team { t with handler := true, prim := p.1, primTid := p.2, life := .resident, debugCall := 0 }
  let s := (List.range t.warps).foldl (fun s w => s.updWarp (wkey team w) (fun x => { x with halted := false, skid := 0 })) s
  let s := (teamThreads team t).foldl (fun s k => s.trapThread k t.handlerHeader) s
  (List.range t.warps).foldl (fun s w => s.releaseAll (wkey team w)) s

/-- A resume address names a word of the saved block: it lies after the header, within the block, 8-byte aligned. -/
def TrapState.inBlock (tr : TrapState) : Bool :=
  let d := (tr.resume - tr.block).toNat
  decide (0 < d ∧ d ≤ 8 * tr.len ∧ d % 8 = 0)

/-- One thread returns from the handler (R446 steps 3 to 6). One that goes on from its entry with launch bytes due stores them before its first instruction; from any other resume point they are due no more (R358). -/
def State.untrapThread (s : State) (k : Nat) : State :=
  let th := s.thread k
  match th.trap with
  | none => s
  | some tr =>
    if th.st = .exited then s
    else
      let due := th.launchDue && decide (tr.resume = lrQ (s.team (teamOf k)).lrec 0)
      let th := { th with launchDue := due, st := .ready, wait := .none, rcd := {}, stack := tr.stack, seq := tr.seq, trap := none, pc := tr.resume, block := tr.block, len := tr.len, vlive := tr.vlive, wlive := tr.wlive, skipBp := true }
      if tr.before = .parked ∧ tr.resume = tr.saved then s.setThread k { th with st := .parked, wait := tr.wait }
      else if due then (s.setThread k { th with block := tr.resume }).dropParked k
      else if tr.inBlock then (s.setThread k th).dropParked k
      else ((s.setThread k th).dropParked k).enter k tr.resume

/-- Return from the exception: the team leaves handler mode (R446). -/
def State.leaveTrap (s : State) (team : Nat) : State :=
  let s := s.updTeam team (fun t => { t with handler := false, prim := 0x3C0, primTid := 0 })
  let t := s.team team
  let s := (teamThreads team t).foldl (fun s k => s.untrapThread k) s
  (List.range t.warps).foldl (fun s w => s.releaseAll (wkey team w)) s

end Sys2Proof.Machine
end

