-- ==== Sys2Proof/Machine/FloatInstr.lean ====
section
/-! DEFINITION. The floating-point, conversion and quantisation instructions (R120 to R140). -/

namespace Sys2Proof.Machine

/-- The element format of an arithmetic type; codes 10 to 12 (R123). -/
def Ty.flt (t : Ty) : Fmt := (Ty.fmt t).getD .f32

/-- Apply an operation element by element and pack the results: `.f32` has one element, the packed types two (R79, R126). -/
def lanes1 (t : Ty) (g : Nat → Rounded) (a : W32) : W32 × W32 :=
  let f := Ty.flt t
  let rs := (List.range (32 / f.width)).map (fun i => g (laneOf f.width a.toNat i))
  (BitVec.ofNat 32 (packLanes f.width (rs.map Prod.fst)), fxAll (rs.map Prod.snd))

def lanes2 (t : Ty) (g : Nat → Nat → Rounded) (a b : W32) : W32 × W32 :=
  let f := Ty.flt t
  let rs := (List.range (32 / f.width)).map (fun i => g (laneOf f.width a.toNat i) (laneOf f.width b.toNat i))
  (BitVec.ofNat 32 (packLanes f.width (rs.map Prod.fst)), fxAll (rs.map Prod.snd))

def lanes3 (t : Ty) (g : Nat → Nat → Nat → Rounded) (a b c : W32) : W32 × W32 :=
  let f := Ty.flt t
  let rs := (List.range (32 / f.width)).map (fun i => g (laneOf f.width a.toNat i) (laneOf f.width b.toNat i) (laneOf f.width c.toNat i))
  (BitVec.ofNat 32 (packLanes f.width (rs.map Prod.fst)), fxAll (rs.map Prod.snd))

/-- A 32-bit result with flags. -/
def fres (k : Nat) (d : Src) (r : W32 × W32) : Result := { k := k, dst := dstOne d r.1, fx := r.2 }

def fltUn (o : ROp) (g : Nat → Rounded) (s : State) (k : Nat) : Result := fres k o.d (lanes1 o.ty g (s.rd k o.a))
def fltBin (o : ROp) (g : Nat → Nat → Rounded) (s : State) (k : Nat) : Result := fres k o.d (lanes2 o.ty g (s.rd k o.a) (s.rd k o.b))
def fltTri (o : ROp) (g : Nat → Nat → Nat → Rounded) (s : State) (k : Nat) : Result := fres k o.d (lanes3 o.ty g (s.rd k o.a) (s.rd k o.b) (s.rd k o.c))

/-! ## Arithmetic (R126 to R131) -/

def execFadd (o : ROp) (s : State) : Out := perform (regPlan (.fadd o) 1 (fltBin o ((Ty.flt o.ty).add o.rnd o.ftz))) s
def execFmul (o : ROp) (s : State) : Out := perform (regPlan (.fmul o) 1 (fltBin o ((Ty.flt o.ty).mul o.rnd o.ftz))) s
def execFfma (o : ROp) (s : State) : Out := perform (regPlan (.ffma o) 1 (fltTri o ((Ty.flt o.ty).fma o.rnd o.ftz))) s
def execFmin (o : ROp) (s : State) : Out := perform (regPlan (.fmin o) 1 (fltBin o ((Ty.flt o.ty).minmax false o.ftz))) s
def execFmax (o : ROp) (s : State) : Out := perform (regPlan (.fmax o) 1 (fltBin o ((Ty.flt o.ty).minmax true o.ftz))) s

def execFsetp (cmp : FCmp) (o : POp) (s : State) : Out :=
  perform (regPlan (.fsetp cmp o) 1 (fun s k =>
    let r := fcmp cmp (Fmt.f32.read o.ftz (s.rd k o.a).toNat) (Fmt.f32.read o.ftz (s.rd k o.b).toNat)
    { k := k, preds := [(o.pd, r.1)], fx := r.2 })) s

def execFrnd (o : ROp) (s : State) : Out := perform (regPlan (.frnd o) 1 (fltUn o ((Ty.flt o.ty).integral o.rnd o.ftz))) s

def execFdot2 (o : ROp) (s : State) : Out :=
  perform (regPlan (.fdot2 o) 1 (fun s k =>
    let r := dot2 (Ty.flt o.ty) o.rnd o.ftz (s.rd k o.a).toNat (s.rd k o.b).toNat (s.rd k o.c).toNat
    { k := k, dst := dstOne o.d (BitVec.ofNat 32 r.1), fx := r.2 })) s

/-- `fclass`: element 0's mask in [9:0], element 1's in [25:16] (R130). -/
def execFclass (o : ROp) (s : State) : Out :=
  perform (regPlan (.fclass o) 1 (fltUn o (fun x => ((Ty.flt o.ty).cls x, 0)))) s

/-! ## Division and special functions (R121, R132): variable latency -/

def execFdiv (o : ROp) (s : State) : Out := perform (varPlan (.fdiv o) (fltBin o ((Ty.flt o.ty).div o.rnd o.ftz))) s
def execFrcp (o : ROp) (s : State) : Out := perform (varPlan (.frcp o) (fltUn o (special (Ty.flt o.ty) 0 o.rnd o.ftz))) s
def execFrsq (o : ROp) (s : State) : Out := perform (varPlan (.frsq o) (fltUn o (special (Ty.flt o.ty) 1 o.rnd o.ftz))) s
def execFsqrt (o : ROp) (s : State) : Out := perform (varPlan (.fsqrt o) (fltUn o (special (Ty.flt o.ty) 2 o.rnd o.ftz))) s
def execFex2 (o : ROp) (s : State) : Out := perform (varPlan (.fex2 o) (fltUn o (special (Ty.flt o.ty) 3 o.rnd o.ftz))) s
def execFlg2 (o : ROp) (s : State) : Out := perform (varPlan (.flg2 o) (fltUn o (special (Ty.flt o.ty) 4 o.rnd o.ftz))) s
def execFsin (o : ROp) (s : State) : Out := perform (varPlan (.fsin o) (fltUn o (special (Ty.flt o.ty) 5 o.rnd o.ftz))) s
def execFcos (o : ROp) (s : State) : Out := perform (varPlan (.fcos o) (fltUn o (special (Ty.flt o.ty) 6 o.rnd o.ftz))) s
def execFtnh (o : ROp) (s : State) : Out := perform (varPlan (.ftnh o) (fltUn o (special (Ty.flt o.ty) 7 o.rnd o.ftz))) s

/-! ## Conversion (R135 to R137) -/

/-- A conversion to `.f32`: of an integer, or of element C mod n of a float source (R136). -/
def cvtToF32 (src : Ty) (o : ROp) (s : State) (k : Nat) : Rounded :=
  match Ty.fmt src with
  | none => Fmt.f32.round o.rnd o.ftz (ofInt (Ty.val src (s.rdTy k src o.a)))
  | some f =>
    let n := 32 / f.width
    Fmt.f32.narrow o.rnd o.ftz 0 (f.read o.ftz (laneOf f.width (s.rd k o.a).toNat ((s.rd k o.c).toNat % n)))

def cvtResult (sub : Fin 4) (src : Ty) (o : ROp) (s : State) (k : Nat) : Result :=
  if o.ty = .f32 then
    let r := cvtToF32 src o s k
    { k := k, dst := dstOne o.d (BitVec.ofNat 32 r.1), fx := r.2 }
  else match Ty.fmt o.ty with
    | none =>
      let r := toIntTy o.ty o.rnd (Fmt.f32.read o.ftz (s.rd k o.a).toNat)
      { k := k, dst := dstTy o.ty o.d r.1, fx := r.2 }
    | some df =>
      let r := cvtGroupVals df ((Ty.fmt src).getD .f32) o.rnd o.ftz sub.val (s.rdGroup k o.a (cvtGroup o.ty src))
      { k := k, dst := dstOne o.d (BitVec.ofNat 32 r.1), fx := r.2 }

def execCvt (sub : Fin 4) (src : Ty) (o : ROp) (s : State) : Out := perform (regPlan (.cvt sub src o) 1 (cvtResult sub src o)) s

/-- `pack` copies the low halves (R137). -/
def execPack (o : ROp) (s : State) : Out :=
  perform (regPlan (.pack o) 1 (fun s k => { k := k, dst := dstOne o.d (((s.rd k o.b).extractLsb' 0 16) ++ ((s.rd k o.a).extractLsb' 0 16)) })) s

/-! ## Quantisation (R138 to R140) -/

def qntResult (sub : Fin 4) (xs : Bool) (o : ROp) (s : State) (k : Nat) : Result :=
  let f := (Ty.fmt o.ty).getD .e4m3
  let r := quantise f xs o.rnd o.ftz sub.val (s.rdGroup k o.a (qntN xs))
  { k := k, dst := dstGroup o.d (packWords f.width (32 / f.width) 16 r.1) ++ dstOne o.b (BitVec.ofNat 32 r.2.1), fx := r.2.2 }

def execQnt (sub : Fin 4) (xs : Bool) (o : ROp) (s : State) : Out := perform (varPlan (.qnt sub xs o) (qntResult sub xs o)) s

def execDqn (xs : Bool) (o : ROp) (s : State) : Out :=
  perform (regPlan (.dqn xs o) 1 (fun s k =>
    let f := (Ty.fmt o.ty).getD .e4m3
    let r := dequant f xs o.rnd o.ftz (laneOf f.width (s.rd k o.a).toNat ((s.rd k o.c).toNat % (32 / f.width))) (s.rd k o.b).toNat
    { k := k, dst := dstOne o.d (BitVec.ofNat 32 r.1), fx := r.2 })) s

/-! ## Immediate forms (R134): FP32 with ftz off -/

def fltImm (o : IOp) (g : Nat → Nat → Rounded) (s : State) (k : Nat) : Result :=
  let r := g (s.rd k o.a).toNat o.imm.toNat
  { k := k, dst := dstOne o.d (BitVec.ofNat 32 r.1), fx := r.2 }

def execFaddI (rnd : Rnd) (o : IOp) (s : State) : Out := perform (regPlan (.faddI rnd o) 1 (fltImm o (Fmt.f32.add rnd false))) s
def execFmulI (rnd : Rnd) (o : IOp) (s : State) : Out := perform (regPlan (.fmulI rnd o) 1 (fltImm o (Fmt.f32.mul rnd false))) s
def execFminI (o : IOp) (s : State) : Out := perform (regPlan (.fminI o) 1 (fltImm o (Fmt.f32.minmax false false))) s
def execFmaxI (o : IOp) (s : State) : Out := perform (regPlan (.fmaxI o) 1 (fltImm o (Fmt.f32.minmax true false))) s

end Sys2Proof.Machine
end

