-- ==== Sys2Proof/Machine/Sync.lean ====
section
/-! DEFINITION. Ordering on path T: releases, acquires and the phase boundary; convergent arrival and its faults; the end of threads (R141 to R145, R226, R227, R230, R234, R239, R261, R304, R325, R352, R477). -/

namespace Sys2Proof.Machine

/-! ## Releases and acquires -/

/-- A warp's team runs on its berth. -/
def State.warpRuns (s : State) (w : Nat) : Bool :=
  !(s.warp w).halted && (match (s.team (w / 32)).life with | .resident | .draining _ => true | _ => false)

/-- The position of a thread's instruction, at its team's count. -/
def State.here (s : State) (k : Nat) : Pos := s.posOf k (s.team (teamOf k)).tcount

/-- Who fills for a thread, with an eviction priority (R220). -/
def State.filler (s : State) (k pri : Nat) : Fill :=
  let t := s.team (teamOf k)
  { core := t.core, team := teamOf k, func := t.func, ctx := t.ctx, pri := pri, pos := s.here k }

/-- A release by a thread at a scope (R227, R234, R304): at core scope or wider its team's batches close first; at cluster scope or wider the core's pending bytes are published. -/
def State.release (s : State) (k : Nat) (sc cause : Nat) : State :=
  let s := if 3 ≤ sc then s.releaseBatches (teamOf k) else s
  if 4 ≤ sc then s.publishCore (s.team (teamOf k)).core cause (s.here k) else s

/-- An acquire by a thread at a scope: at cluster scope or wider the snapshot ends (R230). -/
def State.acquire (s : State) (k : Nat) (sc : Nat) : State := if 4 ≤ sc then s.endSnapshot (s.team (teamOf k)).core else s

def Ord.isRel : Ord → Bool
  | .rel | .acqrel => true
  | _ => false

def Ord.isAcq : Ord → Bool
  | .acq | .acqrel => true
  | _ => false

/-! ## The phase boundary (R226) -/

/-- A phase ends or begins: the digest of one that ends is recorded, the phase's counts start anew (R39, R325). -/
def State.endPhase (s : State) (team : Nat) (endsPhase : Bool) : State :=
  let t := s.team team
  let s := if endsPhase then s.logEvent 0x0B (s.posTeam team) { payload := (~~~ t.digest).toNat + t.fills % 2 ^ 32 * 2 ^ 32 + t.phaseNo % 2 ^ 32 * 2 ^ 64, value := 2 ^ 96 - 1 } else s
  s.updTeam team (fun t => { t with cref := 0, digest := 0xFFFFFFFF, fills := 0, phaseNo := if endsPhase then t.phaseNo + 1 else t.phaseNo })

/-- A boundary of a team, with the position its publications carry. -/
def State.boundary (s : State) (team : Nat) (p : Pos) (endsPhase : Bool) : State :=
  let core := (s.team team).core
  (((s.releaseBatches team).publishCore core 1 p).dropSnapshot core).endPhase team endsPhase

/-- Every non-exited thread of the team waits as told, and there is one. -/
def State.allWait (s : State) (team : Nat) (w : Wait → Bool) : Bool :=
  let ks := (teamThreads team (s.team team)).filter (fun k => decide ((s.thread k).st ≠ .exited))
  !ks.isEmpty && ks.all (fun k => decide ((s.thread k).st = .parked) && w (s.thread k).wait)

/-- The switch marker of the `phase` that a thread is parked at. -/
def Wait.phaseMark : Wait → Option Bool
  | .phase sw => Option.some sw
  | _ => Option.none

/-- A thread leaves its `phase`, whose marker then acts (R261, R344). -/
def State.leavePhase (s : State) (k : Nat) : State :=
  match (s.thread k).wait.phaseMark with
  | some sw => s.leaveWait k sw
  | none => s

/-- Switch-parked threads of every warp of a team with nothing outstanding go on. -/
def State.settleTeam (s : State) (team : Nat) : State := (List.range (s.team team).warps).foldl (fun s w => s.settleSwitch (wkey team w)) s

/-- When every non-exited thread has parked at `phase`, the boundary takes place and all leave together (R261). Its publications carry the position of the instruction that completes it. -/
def State.phaseCheck (s : State) (team : Nat) (p : Pos) : State :=
  if s.allWait team (fun w => w.phaseMark.isSome) then
    let s := s.boundary team p true
    ((teamThreads team (s.team team)).foldl (fun s j => s.leavePhase j) s).settleTeam team
  else s

/-! ## Convergent instructions (R141 to R145) -/

/-- The instruction code of the convergence class (R426). -/
def convCode (i : Instr) : Nat :=
  match (toEnc i).majorOf with
  | 0x50 => 0
  | 0x51 | 0x52 => 1
  | 0x53 | 0x54 => 2
  | 0x55 | 0x56 => 3
  | 0x57 => 4
  | _ => 5

/-- The mask field of a convergent instruction. -/
def convMask (i : Instr) : Src :=
  match toEnc i with
  | .r _ _ o => o.c
  | _ => .zero

/-- The mask a thread arrives with: its field c, or for a thread that parks again after a restore the mask it saved (R141, R145). -/
def State.partMask (s : State) (k : Nat) (i : Instr) : W32 :=
  match (s.focus.map (fun f => f.again)).getD false, (s.thread k).wait with
  | true, .again m => m
  | _, _ => s.rd k (convMask i)

/-- A convergent instruction concerns a thread whose guard is false where its mask names it; in checked mode it also does where the mask awaits a result, which is then a hazard (R141, R145). -/
def State.concerns (s : State) (i : Instr) (k : Nat) : Bool :=
  (s.partMask k i).getLsbD (seatOf k) || ((s.ctxOf (s.team (teamOf k))).checked && s.hazardIn k (srcRegs (convMask i) 1))

/-- A convergence cause: reason 0 sequence, 1 mask, 2 absent, 3 unnamed, 4 stall. -/
def convCause (i : Instr) (reason : Nat) : Nat := 0x40 + 8 * reason + convCode i

/-- The convergent wait of a thread: region number, mask, guard, instruction. -/
def Thread.convWait (th : Thread) : Option (B16 × W32 × Bool × Instr) :=
  if th.st = .parked then (match th.wait with | .conv q m g i => some (q, m, g, i) | _ => none) else none

/-- The threads of a warp parked at the convergent instruction of an address. -/
def State.parkedAt (s : State) (w : Nat) (pc : W64) : List Nat :=
  (warpThreads w).filter (fun k => (s.thread k).convWait.isSome && decide ((s.thread k).pc = pc))

/-- A convergence fault: in each thread parked at the instruction, which leaves its wait, and in the one whose arrival triggers it (R143). -/
def State.convFault (s : State) (w : Nat) (pc : W64) (i : Instr) (reason : Nat) (also : List Nat) : State :=
  let tc := (s.team (w / 32)).tcount
  let ks := s.parkedAt w pc
  let s := ks.foldl (fun s k => s.updThread k (fun th => { th with st := .ready, wait := .none })) s
  (ks ++ also.filter (fun k => !ks.contains k)).foldl (fun s k => s.recordCause k { pc := pc, addr := 0, code := convCause i reason, late := false, done := 0, tcount := tc }) s

/-- The reason an arrival meets, if any, in the order of R143. -/
def State.arrivalReason (s : State) (w : Nat) (pc : W64) (seat : Nat) (seq : B16) (m : W32) (guard : Bool) : Option Nat :=
  let named := m.getLsbD seat
  let parked := (s.parkedAt w pc).filterMap (fun k => (s.thread k).convWait)
  if named && parked.any (fun x => decide (x.1 ≠ seq)) then some 0
  else if named && parked.any (fun x => decide (x.2.1 ≠ m)) then some 1
  else if named && (seats m).any (fun j => decide ((s.thread (w * 32 + j)).st = .exited)) then some 2
  else if !named && guard then some 3
  else none

/-- One thread reaches a convergent instruction: it passes by, parks, or faults together with the parked ones (R141 to R143). The answer tells which threads stay at the instruction. -/
def State.convArrive (s : State) (i : Instr) (k : Nat) (pc : W64) : List Nat × State :=
  let th := s.thread k
  let w := warpOf k
  let m := s.partMask k i
  let guard := th.holds (wordHdr i).g
  match s.arrivalReason w pc (seatOf k) th.seq m guard with
  | some r => ([k], s.convFault w pc i r [k])
  | none =>
    if m.getLsbD (seatOf k) then ([k], s.setThread k { th with st := .parked, wait := .conv th.seq m guard i })
    else ([], s)

/-- Arrivals of an issue group in ascending seat order: a thread that an earlier arrival's fault has already stopped does not arrive. -/
def State.convArrivals (i : Instr) (pc : W64) : State → List Nat → List Nat × State
  | s, [] => ([], s)
  | s, k :: ks =>
    let r := s.convArrive i k pc
    let t := State.convArrivals i pc r.2 ks
    (r.1 ++ t.1, t.2)

/-- Every named thread is parked at the instruction with one region number and one mask (R142). -/
def State.convReady (s : State) (w : Nat) (pc : W64) (m : W32) (q : B16) : Bool :=
  (seats m).all (fun j => match (s.thread (w * 32 + j)).convWait with
    | some x => decide ((s.thread (w * 32 + j)).pc = pc) && decide (x.1 = q) && decide (x.2.1 = m)
    | none => false)

/-- The stall of R144: every non-exited thread of the warp is parked at a convergent instruction and none can be performed. -/
def State.convStalled (s : State) (w : Nat) : Bool :=
  let ks := (warpThreads w).filter (fun k => decide ((s.thread k).st ≠ .exited))
  !ks.isEmpty && ks.all (fun k => match (s.thread k).convWait with
    | some x => !s.convReady w (s.thread k).pc x.2.1 x.1
    | none => false)

/-- Raise the stall in every parked thread, address by address. -/
def State.stallCheck (s : State) (w : Nat) : State :=
  if s.convStalled w then
    (warpThreads w).foldl (fun s k => match (s.thread k).convWait with
      | some x => s.convFault w (s.thread k).pc x.2.2.2 4 []
      | none => s) s
  else s

/-- A convergent instruction: its arrival (R141 to R145). -/
def convPlan (i : Instr) : Plan Unit :=
  { ins := i, every := fun s k => s.concerns i k, check := noCheck, act := fun f s ks =>
      let r := State.convArrivals i f.pc s (ks.map Prod.fst)
      { s := r.2.stallCheck (wkey f.team f.wid), stay := r.1 } }

/-! ## Exits (R352) -/

/-- The threads of a warp parked waiting for a seat: the absent reason (R143). -/
def State.absentCheck (s : State) (k : Nat) : State :=
  (warpThreads (warpOf k)).foldl (fun s j =>
    match (s.thread j).convWait with
    | some x => if x.2.1.getLsbD (seatOf k) then s.convFault (warpOf k) (s.thread j).pc x.2.2.2 2 [] else s
    | none => s) s

/-- After a return from the handler, whose threads may have exited in it: waits for a seat that has gone, and a stall (R143, R144, R446). -/
def State.absentAll (s : State) (w : Nat) : State :=
  (((warpThreads w).filter (fun k => decide ((s.thread k).st = .exited))).foldl (fun s k => s.absentCheck k) s).stallCheck w

/-- When every non-exited thread has parked at `tret`, the team leaves handler mode; threads that park again in their former waits meet what those waits meet now: a seat that has exited, a stall, a chamber retired or overrun, a phase whose last thread they are (R143, R144, R261, R291, R446). -/
def State.tretCheck (s : State) (team : Nat) (p : Pos) : State :=
  if s.allWait team (fun w => decide (w = .tret)) then
    let s := s.leaveTrap team
    let s := (List.range (s.team team).warps).foldl (fun s w => s.absentAll (wkey team w)) s
    let offs := (teamThreads team (s.team team)).filterMap (fun k => match (s.thread k).wait with | .chamber off _ _ => some off | _ => none)
    (offs.foldl (fun s off => s.chamberWake team off) s).phaseCheck team p
  else s

/-- The conversion-substitute flag that a thread leaves behind: of its fault record's `cr.fx` where it has faulted, else of its own (R92). -/
def Thread.substituted (th : Thread) : Bool := decide ((if causeClass th.shown.cause < 15 then th.shown.fx else th.fx) &&& fxSb ≠ 0)

/-- One thread exits: its outstanding results are discarded, its substitute flag goes to the team (R92, R343, R352). -/
def State.exitThread (s : State) (k : Nat) : State :=
  let th := s.thread k
  let s := s.setThread k { th with st := .exited, out := [], wait := .none }
  let s := if th.substituted then s.updTeam (teamOf k) (fun t => { t with subst := true }) else s
  s.absentCheck k

/-- What an exit can complete: a stall, a phase boundary, a `tret`, the end of the team. -/
def State.exitChecks (s : State) (team w : Nat) (p : Pos) : State :=
  let s := (s.releaseAll w).stallCheck w
  let s := (s.phaseCheck team p).tretCheck team p
  if (teamThreads team (s.team team)).all (fun j => decide ((s.thread j).st = .exited)) then
    s.updTeam team (fun t => { t with lastExit := (tkey p.team p.wid p.seat, p.tcount), life := match t.life with | .resident | .draining _ => .ending | x => x })
  else s

end Sys2Proof.Machine
end

