-- ==== Sys2Proof/Machine/Memory.lean ====
section
/-! DEFINITION. Loads, stores, atomics, lock windows, prefetch, cache maintenance, fences, `phase` and retention (R244 to R262). -/

namespace Sys2Proof.Machine

/-! ## Widths, checks -/

/-- The bytes an access of a type moves (R244). -/
def memBytes (t : Ty) : Nat :=
  match t with
  | .i8 | .n8 => 1
  | .i16 | .n16 => 2
  | .i64 | .n64 => 8
  | _ => 4

/-- The codes of R426 that memory accesses raise. -/
def codeChamberAccess : Nat := 0x210
def codeNoLock : Nat := 0x221
def codeLockMismatch : Nat := 0x222
def codePoison (storage access : Nat) : Nat := 0x300 + 8 * storage + access

/-- Where an access that passed its checks goes, and its generic address. -/
abbrev At := Addr80 × Loc

/-- The last checks of an access into the scratchpad: an armed chamber slot, and for a read poisoned words (R288, R457). -/
def State.spadCheck (s : State) (k : Nat) (addr : Addr80) (off n : Nat) (a : Acc) : Except (Nat × Addr80) At :=
  let t := s.team (teamOf k)
  if t.touchesArmed off n then .error (codeChamberAccess, addr)
  else if needR a && t.spadPoisoned off n then .error (codePoison 1 a.code, addr)
  else .ok (addr, .spad off)

/-- The checks of one access in the order of R247. -/
def State.accessCheck (s : State) (k : Nat) (addr : Addr80) (n : Nat) (a : Acc) : Except (Nat × Addr80) At × State :=
  if addr.toNat % n ≠ 0 then (.error (alignCode a (widthLog n), addr), s)
  else
    match s.resolve k addr n a with
    | (.error code, s) => (.error (code, addr), s)
    | (.ok (.spad off), s) => (s.spadCheck k addr off n a, s)
    | (.ok (.mem ps), s) => (.ok (addr, .mem ps), s)

/-- A generic access, and a scratchpad-only one (R209, R211). -/
def checkG (o : MOp) (a : Acc) (s : State) (k : Nat) : Except (Nat × Addr80) At × State := s.accessCheck k (s.gaddr k o) (memBytes o.ty) a
def checkL (o : MOp) (a : Acc) (s : State) (k : Nat) : Except (Nat × Addr80) At × State := s.accessCheck k (spadAddr (s.laddr k o)) (memBytes o.ty) a

/-- The word offset of a thread's tile access, and its checks (R250). -/
def State.tileOff (s : State) (k : Nat) (o : MOp) : Nat :=
  (s.laddr k o / 4 + (if o.dir then 32 else 1) * seatOf k) * 4

def checkTile (o : MOp) (s : State) (k : Nat) : Except (Nat × Addr80) At × State :=
  let off := s.tileOff k o
  if (s.team (teamOf k)).spadSize < off + 4 then (.error (boundsCode .read 0, spadAddr off), s)
  else (s.spadCheck k (spadAddr off) off 4 .read, s)

/-! ## Loads -/

/-- A piece of the weight store (R216). -/
def Piece.weights (p : Piece) : Bool := decide (2 ^ 52 ≤ p.pa)

/-- The storage a poisoned piece is charged to: weight store or LPDDR-6. -/
def piecesStorage (ps : List Piece) : Nat := if ps.any Piece.weights then 6 else 5

/-- The first virtual address of an access. -/
def piecesVa (ps : List Piece) (addr : Addr80) : Nat := (ps.head?.map Piece.va).getD addr.toNat

/-- What an ordering means for a load: an acquire at cluster scope or wider reads at the home agent (R232). -/
def homeRead (ord : Ord) (sc : Scope) (ps : List Piece) : Bool := Ord.isAcq ord && wideScope sc && !ps.any Piece.weights

/-- A read of an access in memory by a thread: the value, the late cause of poisoned data, the state (R229, R232, R457). -/
def State.memRead (s : State) (k : Nat) (o : MOp) (ps : List Piece) (home : Bool) : Nat × Option Nat × State :=
  let r := s.loadPieces (s.filler k o.evict.val) home ps
  (ofBytesNat r.1, if r.2.1 then some (codePoison (piecesStorage ps) 0) else none, r.2.2)

/-- The HREAD record of a read at the home agent (R317, R322). -/
def State.logRead (s : State) (p : Pos) (va v : Nat) : State :=
  s.logEvent 2 p { payload := va + v % 2 ^ 16 * 2 ^ 80, value := (2 ^ 16 - 1) * 2 ^ 80 }

/-- One thread's load: the bytes, the late cause of poisoned data, the state. An ordered load at cluster scope or wider is logged (R229, R232, R317, R457). -/
def State.loadOne (s : State) (k : Nat) (o : MOp) (n : Nat) (x : At) : Nat × Option Nat × State :=
  match x.2 with
  | .spad off => (ofBytesNat (s.spadLoad (teamOf k) off n), none, s)
  | .mem ps =>
    let home := homeRead o.ord o.scope ps
    let r := s.memRead k o ps home
    (r.1, r.2.1, if home then r.2.2.logRead (r.2.2.here k) (piecesVa ps x.1) r.1 else r.2.2)

/-- The result of a load: the extended value, or nothing but the late cause. -/
def loadResult (k : Nat) (t : Ty) (d : Src) (addr : Addr80) (v : Nat) (late : Option Nat) : Result :=
  { k := k, dst := dstTy t d v, late := late.map (BitVec.ofNat 10), addr := addr }

/-- The watchpoint causes of scratchpad accesses. -/
def State.watches (s : State) (reads writes : Bool) (n : Nat) (ks : List (Nat × At)) : List Flt :=
  ks.filterMap (fun x => match x.2.2 with
    | .spad off => (s.watchAt x.1 off n reads writes).map (fun c => (x.1, c, x.2.1))
    | .mem _ => none)

/-- Loads of an issue group in ascending seat order. -/
def loadAll (o : MOp) (n : Nat) : State → List (Nat × At) → List Result × State
  | s, [] => ([], s)
  | s, (k, x) :: ks =>
    let r := s.loadOne k o n x
    let t := loadAll o n r.2.2 ks
    (loadResult k o.ty o.d x.1 r.1 r.2.1 :: t.1, t.2)

/-- An acquire by the threads that performed: the snapshot ends once (R230, R249). -/
def State.acquireBy (s : State) (ord : Ord) (sc : Scope) (ks : List (Nat × At)) : State :=
  match ks with
  | [] => s
  | (k, _) :: _ => if Ord.isAcq ord then s.acquire k (Scope.code sc) else s

def actLoad (o : MOp) (n : Nat) (f : Focus) (s : State) (ks : List (Nat × At)) : Acted :=
  let r := loadAll o n s ks
  { actVar (r.2.acquireBy o.ord o.scope ks) f false r.1 with later := s.watches true false n ks }

/-- Variable-latency results where some threads park: theirs are outstanding from the issue too (R30, R343). -/
def actParkingVar (s : State) (f : Focus) (d : List Reg) (rs : List Result) (parked : List Nat) : Acted :=
  let t := s.team f.team
  { s := s.issueParked f.pc t.tcount (s.ctxOf t).checked d rs parked, stay := parked }

def execLd (o : MOp) (s : State) : Out := perform { ins := .ld o, check := checkG o .read, act := actLoad o (memBytes o.ty) } s
def execLdl (o : MOp) (s : State) : Out := perform { ins := .ldl o, check := checkL o .read, act := actLoad o (memBytes o.ty) } s
def execLdlTile (o : MOp) (s : State) : Out := perform { ins := .ldlTile o, check := checkTile o, act := actLoad o 4 } s

/-! ## Stores -/

/-- The low bytes of a store's data source (R248). -/
def State.storeData (s : State) (k : Nat) (o : MOp) : List Byte :=
  toBytes (if Ty.wide o.ty then s.rd64 k o.d else (s.rd k o.d).setWidth 64) (memBytes o.ty)

/-- One thread's store: a release first closes batches and publishes, and is itself published at cluster scope or wider (R227, R248, R249, R303). -/
def State.storeOne (s : State) (k : Nat) (o : MOp) (x : At) (bs : List Byte) : State :=
  let s := if Ord.isRel o.ord then s.release k (Scope.code o.scope) 0 else s
  match x.2 with
  | .spad off => s.spadStore (teamOf k) off bs
  | .mem ps =>
    let s := s.storePieces (s.filler k o.evict.val) ps bs
    if Ord.isRel o.ord && wideScope o.scope then ps.foldl (fun s p => s.publish (s.team (teamOf k)).core (p.pa / 128) 0 (s.here k)) s else s

def actStore (o : MOp) (_ : Focus) (s : State) (ks : List (Nat × At)) : Acted :=
  let work := ks.map (fun x => (x.1, x.2, s.storeData x.1 o))
  { s := work.foldl (fun s x => s.storeOne x.1 o x.2.1 x.2.2) s, later := s.watches false true (memBytes o.ty) ks }

def execSt (o : MOp) (s : State) : Out := perform { ins := .st o, check := checkG o .write, act := actStore o } s
def execStl (o : MOp) (s : State) : Out := perform { ins := .stl o, check := checkL o .write, act := actStore o } s

/-! ## Atomics (R251 to R254) -/

/-- The new value of an atomic (R251). -/
def atomNew (op : AtomOp) (t : Ty) (old b : Nat) : Nat :=
  match op with
  | .add => if t = .f32 then (Fmt.f32.add .rn false old b).1 else aluAdd t old b
  | .min => if t = .f32 then (Fmt.f32.minmax false false old b).1 else aluMin t old b
  | .max => if t = .f32 then (Fmt.f32.minmax true false old b).1 else aluMax t old b
  | .and => old &&& b
  | .or => old ||| b
  | .xor => old ^^^ b
  | .exch => b
  | .inc => if b ≤ old then 0 else old + 1
  | .dec => if old = 0 ∨ b < old then b else old - 1

/-- What an atomic instruction writes over an old value, from its operands b and c. -/
def atomUpdate (i : Instr) (old b c : Nat) : Nat :=
  match i with
  | .atom op o => atomNew op o.ty old b
  | .atl op o => atomNew op o.ty old b
  | .atomx _ => if old = b then c else old
  | _ => old

/-- The operands of an M-format atomic. -/
def atomOp (i : Instr) : Option MOp :=
  match i with
  | .atom _ o | .atl _ o | .atomx o => some o
  | _ => none

/-- The operands b and c of an atomic as a thread reads them at issue: the operand, or the compare and new values (R57, R252). -/
def State.atomOperands (s : State) (k : Nat) (i : Instr) : W64 × W64 :=
  match i with
  | .atomx o =>
    if Ty.wide o.ty then (pair64 (s.rdAt k o.b 0) (s.rdAt k o.b 1), pair64 (s.rdAt k o.b 2) (s.rdAt k o.b 3))
    else ((s.rdAt k o.b 0).setWidth 64, (s.rdAt k o.b 1).setWidth 64)
  | .atom _ o | .atl _ o => (if Ty.wide o.ty then s.rd64 k o.b else (s.rd k o.b).setWidth 64, 0)
  | _ => (0, 0)

/-- An atomic in the scratchpad in one step: the old value; the new one is forwarded where it changes the word (R253, R303). -/
def State.spadAtomic (s : State) (k : Nat) (i : Instr) (off n : Nat) (b c : W64) : Nat × State :=
  let old := ofBytesNat (s.spadLoad (teamOf k) off n)
  let new := atomUpdate i old b.toNat c.toNat
  (old, if new = old then s else s.spadStore (teamOf k) off (toBytes (BitVec.ofNat 64 new) n))

/-- The core's pending bytes of each line of an atomic are published and its copies go first (R242). -/
def State.clearForAtomic (s : State) (k : Nat) (ps : List Piece) : State :=
  let core := (s.team (teamOf k)).core
  ps.foldl (fun s p => (s.publish core (p.pa / 128) 3 (s.here k)).l1Drop core (p.pa / 128)) s

/-- The value at the home agents of an access. -/
def State.homeValue (s : State) (ps : List Piece) : Nat := ofBytesNat ((ps.map (fun p => s.bytesAt p.key p.pa p.n)).flatten)

/-- Write a value at the home agents of an access (R228, R242). -/
def State.homePut (s : State) (core ctx pri : Nat) (ps : List Piece) (v : Nat) : State :=
  let n := (ps.map Piece.n).foldl (· + ·) 0
  (ps.foldl (fun (acc : State × List Byte) p =>
    (acc.1.homeWrite p.key (p.pa / 128) (lineMask (p.pa % 128) p.n) (lineData (p.pa % 128) (acc.2.take p.n))
      { ctx := ctx, vline := p.va / 128, pri := pri, world := (acc.1.core core).world, seal_ := p.sealed }, acc.2.drop p.n)) (s, toBytes (BitVec.ofNat 64 v) n)).1

/-- A thread's read-modify-write at the home agents, logged as ATOM (R242, R253, R317): the old value, or the late cause of poisoned data. -/
def State.homeAtomic (s : State) (k : Nat) (o : MOp) (ps : List Piece) (addr : Addr80) (f : Nat → Nat) : Nat × Option Nat × State :=
  let s := s.clearForAtomic k ps
  if ps.any (fun p => s.poisoned (p.pa / 128)) then (0, some (codePoison 5 2), s)
  else
    let old := s.homeValue ps
    let t := s.team (teamOf k)
    let s := s.logEvent 1 (s.here k) { payload := piecesVa ps addr + old % 2 ^ 16 * 2 ^ 80, value := (2 ^ 16 - 1) * 2 ^ 80 }
    (old, none, s.homePut t.core (ckey t.func t.ctx) o.evict.val ps (f old))

/-- What performing one atomic thread did: a result, or it parks at a lock. -/
inductive AtomDone where
  | done (r : Result)
  | parks

/-- One thread's atomic: its release, the operation, its acquire. In the scratchpad it needs its locks (R249, R253, R254). -/
def State.atomOne (s : State) (k : Nat) (i : Instr) (o : MOp) (x : At) (b c : W64) : AtomDone × State :=
  let n := memBytes o.ty
  match x.2 with
  | .spad off =>
    let t := s.team (teamOf k)
    if (s.core t.core).locksFree k (lockNums off n) then
      let s := if Ord.isRel o.ord then s.release k (Scope.code o.scope) 0 else s
      let r := s.spadAtomic k i off n b c
      (.done (loadResult k o.ty o.d x.1 r.1 none), if Ord.isAcq o.ord then r.2.acquire k (Scope.code o.scope) else r.2)
    else (.parks, s.updThread k (fun th => { th with st := .parked, wait := .lock i off b c }))
  | .mem ps =>
    let s := if Ord.isRel o.ord then s.release k (Scope.code o.scope) 0 else s
    let r := s.homeAtomic k o ps x.1 (fun old => atomUpdate i old b.toNat c.toNat)
    (.done (loadResult k o.ty o.d x.1 r.1 r.2.1), if Ord.isAcq o.ord then r.2.2.acquire k (Scope.code o.scope) else r.2.2)

/-- The atomics of an issue group in ascending seat order: the results, the threads that park, the state. -/
def atomAll (i : Instr) (o : MOp) : State → List (Nat × At × W64 × W64) → List Result × List Nat × State
  | s, [] => ([], [], s)
  | s, (k, x, b, c) :: ks =>
    let r := if s.differed then (AtomDone.parks, s.noteReplay (s.here k) 2) else s.atomOne k i o x b c
    let t := atomAll i o r.2 ks
    match r.1 with
    | .done a => (a :: t.1, t.2)
    | .parks => (t.1, k :: t.2.1, t.2.2)

def actAtom (i : Instr) (o : MOp) (f : Focus) (s : State) (ks : List (Nat × At)) : Acted :=
  let r := atomAll i o s (ks.map (fun x => let bc := s.atomOperands x.1 i; (x.1, x.2, bc.1, bc.2)))
  { actParkingVar r.2.2 f ((dstTy o.ty o.d 0).map Prod.fst) r.1 r.2.1 with later := s.watches true true (memBytes o.ty) (ks.filter (fun x => !r.2.1.contains x.1)) }

def execAtom (op : AtomOp) (o : MOp) (s : State) : Out := perform { ins := .atom op o, check := checkG o .atomic, act := actAtom (.atom op o) o } s
def execAtomx (o : MOp) (s : State) : Out := perform { ins := .atomx o, check := checkG o .atomic, act := actAtom (.atomx o) o } s
def execAtl (op : AtomOp) (o : MOp) (s : State) : Out := perform { ins := .atl op o, check := checkL o .atomic, act := actAtom (.atl op o) o } s

/-! ## Lock windows (R255, R256) -/

/-- One thread's `ldlk`: it takes its locks, loads and opens its window, or parks. -/
def State.lockOne (s : State) (k : Nat) (o : MOp) (addr : Addr80) (off : Nat) : AtomDone × State :=
  let n := memBytes o.ty
  let t := s.team (teamOf k)
  let ls := lockNums off n
  if (s.core t.core).locksFree k ls then
    let s := s.updCore t.core (fun c => c.takeLocks k ls)
    let s := s.updThread k (fun th => { th with win := some { off := off, width := n, count := 0 } })
    (.done (loadResult k o.ty o.d addr (ofBytesNat (s.spadLoad (teamOf k) off n)) none), s)
  else (.parks, s.updThread k (fun th => { th with st := .parked, wait := .lock (.ldlk o) off 0 0 }))

def lockAll (o : MOp) : State → List (Nat × At) → List Result × List Nat × State
  | s, [] => ([], [], s)
  | s, (k, x) :: ks =>
    let off := match x.2 with | .spad off => off | .mem _ => 0
    let r := s.lockOne k o x.1 off
    let t := lockAll o r.2 ks
    match r.1 with
    | .done a => (a :: t.1, t.2)
    | .parks => (t.1, k :: t.2.1, t.2.2)

def actLock (o : MOp) (f : Focus) (s : State) (ks : List (Nat × At)) : Acted :=
  let r := lockAll o s ks
  { actParkingVar r.2.2 f ((dstTy o.ty o.d 0).map Prod.fst) r.1 r.2.1 with later := s.watches true true (memBytes o.ty) (ks.filter (fun x => !r.2.1.contains x.1)) }

def execLdlk (o : MOp) (s : State) : Out := perform { ins := .ldlk o, check := checkL o .read, act := actLock o } s

/-- The checks of `stul`: those of a store, then its window (R256). -/
def checkUnlock (o : MOp) (s : State) (k : Nat) : Except (Nat × Addr80) At × State :=
  match checkL o .write s k with
  | (.error e, s) => (.error e, s)
  | (.ok x, s) =>
    match (s.thread k).win with
    | none => (.error (codeNoLock, x.1), s)
    | some w => (if x.2 = .spad w.off ∧ memBytes o.ty = w.width then .ok x else .error (codeLockMismatch, x.1), s)

/-- The bytes of a `stul` that no other access wrote since its `ldlk`, in runs. -/
def LockWin.runs (w : LockWin) (bs : List Byte) : List (Nat × List Byte) :=
  if w.after = [] then [(w.off, bs)]
  else ((List.range bs.length).filter (fun i => !w.after.contains (w.off + i))).map (fun i => (w.off + i, [bs[i]?.getD 0]))

/-- One thread's `stul`: it writes under its locks, which it then releases (R242, R255). -/
def State.unlockOne (s : State) (k : Nat) (bs : List Byte) : State :=
  match (s.thread k).win with
  | none => s
  | some w => (w.runs bs).foldl (fun s r => s.spadStore (teamOf k) r.1 r.2) (s.dropLocks k)

def actUnlock (o : MOp) (_ : Focus) (s : State) (ks : List (Nat × At)) : Acted :=
  let work := ks.map (fun x => (x.1, s.storeData x.1 o))
  { s := work.foldl (fun s x => s.unlockOne x.1 x.2) s, later := s.watches true true (memBytes o.ty) ks }

def execStul (o : MOp) (s : State) : Out := perform { ins := .stul o, check := checkUnlock o, act := actUnlock o } s

/-- A thread parked at a lock performs its instruction now that its locks are free: its result, and where a watchpoint matches, that cause (R254). -/
def State.retryLock (s : State) (k : Nat) : State :=
  let th := s.thread k
  match th.wait with
  | .lock i off b c =>
    if th.st ≠ .parked then s
    else
      let done : Option (AtomDone × State × MOp) := match i with
        | .ldlk o => let r := s.lockOne k o (spadAddr off) off; some (r.1, r.2, o)
        | .atom _ o | .atl _ o | .atomx o => let r := s.atomOne k i o (spadAddr off, .spad off) b c; some (r.1, r.2, o)
        | _ => none
      match done with
      | some (.done r, s', o) =>
        let t := s'.team (teamOf k)
        let hit := s.watchAt k off (memBytes o.ty) true true
        let s' := s'.answerParked r
        let s' := s'.leaveWait k (wordHdr i).sw
        match hit with
        | some code => s'.recordCause k { pc := th.pc, addr := recAddr i (spadAddr off), code := code, late := false, done := maskOf [seatOf k], tcount := t.tcount }
        | none => s'
      | _ => s
  | _ => s

/-- The parked threads of a warp retry, lowest seat first. -/
def State.retryLocks (s : State) (w : Nat) : State := (warpThreads w).foldl (fun s k => s.atomically (fun s => s.retryLock k)) s

/-! ## Prefetch and cache maintenance (R257, R258) -/

/-- The line of a global or stack address that translates without any permission, or of a weight-store address; no cause is raised. -/
def State.lineOf (s : State) (k : Nat) (o : MOp) (a : Acc) : Option Piece × State :=
  match s.resolve k (s.gaddr k o) 1 a with
  | (.ok (.mem (p :: _)), s) => (some p, s)
  | (_, s) => (none, s)

/-- `prf`: fill the line with its priority; it is not marked read (R257). -/
def State.prefetchLine (s : State) (k : Nat) (o : MOp) : State :=
  match s.lineOf k o .read with
  | (some p, s') => if p.weights then s' else (s'.l1Fill { s'.filler k o.evict.val with prefetch := true } p).2
  | (none, s') => s'

def execPrf (o : MOp) (s : State) : Out :=
  perform { ins := .prf o, check := noCheck, act := fun _ s ks => { s := ks.foldl (fun s x => s.prefetchLine x.1 o) s } } s

/-- The home agent writes a dirty line back to its memory; it stays cached, clean. -/
def State.cleanLine (s : State) (ln : Nat) : State :=
  { s with l2 := Assoc.upd s.l2 ln (fun x => { x with dirty := false }), deep := Assoc.upd s.deep ln (fun x => { x with dirty := false }) }

/-- `cl.wb` on one line (R258). -/
def State.writeBack (s : State) (k : Nat) (o : MOp) : State :=
  match s.lineOf k o .walk with
  | (none, s') => s'
  | (some p, s') =>
    let ln := p.pa / 128
    let core := (s'.team (teamOf k)).core
    if Scope.code o.scope ≤ 3 then s'
    else
      let s' := s'.publish core ln 5 (s'.here k)
      if o.scope = .system ∧ p.weights = false then s'.cleanLine ln else s'

/-- `cl.inv` on one line (R258). -/
def State.invalidate (s : State) (k : Nat) (o : MOp) : State :=
  match s.lineOf k o .walk with
  | (none, s') => s'
  | (some p, s') =>
    let ln := p.pa / 128
    let core := (s'.team (teamOf k)).core
    let s' := (s'.publish core ln 5 (s'.here k)).l1Drop core ln
    if o.scope = .system ∧ p.weights = false then s'.uncache ln else s'

def execClWb (o : MOp) (s : State) : Out :=
  perform { ins := .clWb o, check := noCheck, act := fun _ s ks => { s := ks.foldl (fun s x => s.writeBack x.1 o) s } } s
def execClInv (o : MOp) (s : State) : Out :=
  perform { ins := .clInv o, check := noCheck, act := fun _ s ks => { s := ks.foldl (fun s x => s.invalidate x.1 o) s } } s

/-! ## Fences (R239, R259, R260) -/

/-- `fence`: a release, an acquire, or both, by each active thread. -/
def State.fenceOne (s : State) (k : Nat) (o : FenceOp) : State :=
  let s := if Ord.isRel o.ord then s.release k (Scope.code o.scope) 0 else s
  if Ord.isAcq o.ord then s.acquire k (Scope.code o.scope) else s

def execFence (o : FenceOp) (s : State) : Out :=
  perform { ins := .fence o, check := noCheck, act := fun _ s ks => { s := ks.foldl (fun s x => s.fenceOne x.1 o) s } } s

/-- Mask bit 0 is path T (R224). -/
def namesT (m : BitVec 7) : Bool := m.getLsbD 0
def namesEngine (m : BitVec 7) : Bool := decide (m &&& 0x7E#7 ≠ 0)

/-- `fence.x` by one thread (R239): engine writes stand at their homes or in the scratchpad once their completion signal happened. -/
def State.fenceXOne (s : State) (k : Nat) (o : FenceXOp) : State :=
  let sc := Scope.code o.scope
  let core := (s.team (teamOf k)).core
  let s := if namesT o.ps then
      let s := if 3 ≤ sc then s.releaseBatches (teamOf k) else s
      if 4 ≤ sc || namesEngine o.pd then s.publishCore core 4 (s.here k) else s
    else s
  if namesT o.pd && (namesEngine o.ps || decide (4 ≤ sc)) then s.endSnapshot core else s

def execFenceX (o : FenceXOp) (s : State) : Out :=
  perform { ins := .fenceX o, check := noCheck, act := fun _ s ks => { s := ks.foldl (fun s x => s.fenceXOne x.1 o) s } } s

/-- `phase`: each active thread parks; when the last arrives the boundary takes place (R261). -/
def actPhase (mark : Bool) (f : Focus) (s : State) (ks : List (Nat × Unit)) : Acted :=
  { s := ks.foldl (fun s x => s.updThread x.1 (fun th => { th with st := .parked, wait := .phase mark })) s, stay := ks.map (fun x => x.1),
    after_ := match ks with
      | [] => id
      | k :: _ => fun s' => s'.phaseCheck f.team (s.here k.1) }

def execPhase (h : Hdr) (s : State) : Out := perform { ins := .phase h, check := noCheck, act := actPhase h.sw } s

/-! ## Retention (R221, R222, R262) -/

/-- Clear one range of a context: its lines that no other range covers are retained no more. -/
def State.clearRange (s : State) (c k : Nat) : State := (s.updCtx c (fun x => { x with ret := Assoc.del x.ret k })).unretain c

/-- The lines of a range of L bytes from A; none for L = 0. -/
def retLines (a : Addr80) (l : W32) : Option (Nat × Nat) :=
  if l = 0 then none else some (a.toNat / 128, (a.toNat + l.toNat - 1) / 128)

/-- `ret.set`: the range of the lowest-seated active thread; a window address raises 0x0C3 in every active thread (R262). -/
def actRetSet (r : Fin 4) (o : RetOp) (f : Focus) (s : State) (ks : List (Nat × Unit)) : Acted :=
  match ks with
  | [] => { s := s }
  | k :: _ =>
    let t := s.team f.team
    let a := s.xaddr k.1 o.j o.a
    if a.extractLsb' 64 16 = 0xFFFF#16 then { s := s, faults := ks.map (fun x => (x.1, 0x0C3, a)) }
    else
      let c := ckey t.func t.ctx
      let s' := s.clearRange c r.val
      match retLines a (s.rd k.1 o.b) with
      | none => { s := s' }
      | some l => { s := s'.updCtx c (fun x => { x with ret := Assoc.put x.ret r.val l }) }

def execRetSet (r : Fin 4) (o : RetOp) (s : State) : Out := perform { ins := .retSet r o, check := noCheck, act := actRetSet r o } s

def actRetClr (r : Fin 4) (f : Focus) (s : State) (ks : List (Nat × Unit)) : Acted :=
  let t := s.team f.team
  { s := if ks = [] then s else s.clearRange (ckey t.func t.ctx) r.val }

def execRetClr (r : Fin 4) (h : Hdr) (s : State) : Out := perform { ins := .retClr r h, check := noCheck, act := actRetClr r } s

end Sys2Proof.Machine
end

