-- ==== Sys2Proof/Machine/Chambers.lean ====
section
/-! DEFINITION. Chambers and gauges: the instructions and the events that end their waits (R240, R285 to R294). -/

namespace Sys2Proof.Machine

/-! ## Checks (R292) -/

def codeArmed : Nat := 0x212
def codeFull : Nat := 0x213
def codeCount : Nat := 0x214

/-- Alignment and bounds of a chamber slot, access kind 6. -/
def checkSlot (a : Src) (s : State) (k : Nat) : Except (Nat × Addr80) Nat × State :=
  let off := (s.rd k a).toNat
  if off % 16 ≠ 0 then (.error (0x80 + 8 * 6 + 4, spadAddr off), s)
  else if (s.team (teamOf k)).spadSize < off + 16 then (.error (0xC0 + 8 * 6, spadAddr off), s)
  else (.ok off, s)

/-- The entries in use in a core's chamber directory (R285). -/
def State.directoryUse (s : State) (core : Nat) : Nat :=
  ((s.teams.filter (fun p => p.2.onCore core)).map (fun p => p.2.chambers.length)).foldl (· + ·) 0

/-! ## Updates (R290) -/

/-- What one thread's operation did: a cause, or nothing more; or a state word to write; or it parks. -/
inductive ChDone where
  | bad (code : Nat)
  | done
  | word (x : W32)
  | parks
  deriving DecidableEq, Repr

def chInit (b : Src) (s : State) (k off : Nat) : ChDone × State :=
  let x := (s.rd k b).toNat
  let t := s.team (teamOf k)
  if 65535 < x then (.bad codeCount, s)
  else if t.armed off then (.bad codeArmed, s)
  else if 256 ≤ s.directoryUse t.core then (.bad codeFull, s)
  else
    let t := t.putChamber off { gen := 0, fs := false, armed := true, arr := 0, atgt := x, bcnt := 0, btgt := 0 }
    (.done, s.setTeam (teamOf k) { t with chambers := off :: t.chambers, counted := Assoc.del t.counted off, spadPoison := clearPoison t.spadPoison off 16 })

def chExpect (b : Src) (s : State) (k off : Nat) : ChDone × State :=
  let x := (s.rd k b).toNat
  let t := s.team (teamOf k)
  if !t.armed off then (.bad codeNotArmed, s)
  else if 2 ^ 32 ≤ (t.chamber off).btgt + x then (.bad codeCount, s)
  else (.done, s.chUpdate (teamOf k) off (fun c => { c with btgt := c.btgt + x }))

/-- `chb.arrive`: a release at core scope, then one step; an arrival that would pass its target sets fs instead. -/
def chArrive (b : Src) (s : State) (k off : Nat) : ChDone × State :=
  let x := (s.rd k b).toNat
  let t := s.team (teamOf k)
  if !t.armed off then (.bad codeNotArmed, s)
  else if 2 ^ 32 ≤ (t.chamber off).btgt + x then (.bad codeCount, s)
  else (.done, (s.release k 3 0).chUpdate (teamOf k) off (fun c =>
    if c.atgt ≤ c.arr then { c with btgt := c.btgt + x, fs := true } else { c with btgt := c.btgt + x, arr := c.arr + 1 }))

def chRetire (s : State) (k off : Nat) : ChDone × State :=
  let t := s.team (teamOf k)
  if !t.armed off then (.bad codeNotArmed, s)
  else
    let t := { t with spad := Tbl.setN t.spad off (List.replicate 16 0), chambers := t.chambers.filter (fun c => decide (c ≠ off)), counted := Assoc.del t.counted off }
    (.done, (s.setTeam (teamOf k) t).chamberWake (teamOf k) off)

/-- The fences on leaving a wait: an acquire at core scope, and the cross-path fence of R240 where bytes were counted in a generation passed since `g`. -/
def State.chamberFence (s : State) (k off g : Nat) : State :=
  let t := s.team (teamOf k)
  let s := s.acquire k 3
  match Assoc.find t.counted off with
  | none => s
  | some last => if (last + 2 ^ 30 - g) % 2 ^ 30 < ((t.chamber off).gen + 2 ^ 30 - g) % 2 ^ 30 then s.endSnapshot t.core else s

def chWait (o : ROp) (s : State) (k off : Nat) : ChDone × State :=
  let g := (s.rd k o.b).toNat / 4
  let t := s.team (teamOf k)
  if !t.armed off then (.bad codeNotArmed, s)
  else
    let c := t.chamber off
    if c.gen ≠ g then (.word c.stateWord, s.chamberFence k off g)
    else if c.fs then (.bad codeOverrun, s)
    else (.parks, s.updThread k (fun th => { th with st := .parked, wait := .chamber off g (.chbWait o) }))

def chTest (o : ROp) (s : State) (k off : Nat) : ChDone × State :=
  let g := (s.rd k o.b).toNat / 4
  let t := s.team (teamOf k)
  if !t.armed off then (.bad codeNotArmed, s)
  else
    let c := t.chamber off
    (.word c.stateWord, if c.gen ≠ g then s.chamberFence k off g else s)

/-- The operations of an issue group in ascending seat order: the results, the causes, the threads that park, the state. -/
def chAll (op : State → Nat → Nat → ChDone × State) (d : Src) : State → List (Nat × Nat) → List Result × List Flt × List Nat × State
  | s, [] => ([], [], [], s)
  | s, (k, off) :: ks =>
    let r := op s k off
    let t := chAll op d r.2 ks
    match r.1 with
    | .bad code => (t.1, (k, code, spadAddr off) :: t.2.1, t.2.2)
    | .done => t
    | .word x => ({ k := k, dst := dstOne d x } :: t.1, t.2)
    | .parks => (t.1, t.2.1, k :: t.2.2.1, t.2.2.2)

/-- A chamber instruction without a result. -/
def chPlan (i : Instr) (a : Src) (op : State → Nat → Nat → ChDone × State) : Plan Nat :=
  { ins := i, check := checkSlot a, act := fun _ s ks =>
      let r := chAll op .zero s ks
      { s := r.2.2.2, faults := r.2.1 } }

def execChbInit (o : ROp) (s : State) : Out := perform (chPlan (.chbInit o) o.a (chInit o.b)) s
def execChbExpect (o : ROp) (s : State) : Out := perform (chPlan (.chbExpect o) o.a (chExpect o.b)) s
def execChbArrive (o : ROp) (s : State) : Out := perform (chPlan (.chbArrive o) o.a (chArrive o.b)) s
def execChbRetire (o : ROp) (s : State) : Out := perform (chPlan (.chbRetire o) o.a chRetire) s

/-- `chb.wait`: threads whose generation has passed go on with the state word, visible to their next instruction; the others park (R291). -/
def actChbWait (o : ROp) (f : Focus) (s : State) (ks : List (Nat × Nat)) : Acted :=
  let r := chAll (chWait o) o.d s ks
  let a := actParking r.2.2.2 f o.d r.1 r.2.2.1
  { a with faults := r.2.1 ++ a.faults }

def execChbWait (o : ROp) (s : State) : Out := perform { ins := .chbWait o, check := checkSlot o.a, act := actChbWait o } s

/-- `chb.test`: the state word as a variable-latency result. -/
def actChbTest (o : ROp) (f : Focus) (s : State) (ks : List (Nat × Nat)) : Acted :=
  let r := chAll (chTest o) o.d s ks
  { actVar r.2.2.2 f false r.1 with faults := r.2.1 }

def execChbTest (o : ROp) (s : State) : Out := perform { ins := .chbTest o, check := checkSlot o.a, act := actChbTest o } s

/-- A thread's team runs on its berth: its parked threads may leave. -/
def State.threadRuns (s : State) (k : Nat) : Bool := s.warpRuns (warpOf k)

/-- A thread parked at `chb.wait` whose generation has changed leaves with the state word and its fences (R291). -/
def State.chbLeave (s : State) (k : Nat) : State :=
  let th := s.thread k
  match th.wait with
  | .chamber off g (.chbWait o) =>
    let t := s.team (teamOf k)
    let c := t.chamber off
    if th.st = .parked && t.armed off && decide (c.gen ≠ g) then
      (s.chamberFence k off g).leaveFixed (.chbWait o) { k := k, dst := dstOne o.d c.stateWord }
    else s
  | _ => s

/-- The threads of a warp that wait on chambers leave, lowest seat first. -/
def State.chbLeaves (s : State) (w : Nat) : State := ((warpThreads w).foldl (fun s k => s.chbLeave k) s).settleSwitch w

/-! ## Gauges (R293, R294) -/

/-- The checks of a gauge address: alignment to 8, a global address, translation. -/
def State.gaugeCheck (s : State) (k : Nat) (addr : Addr80) (a : Acc) : Except (Nat × Addr80) At × State :=
  if addr.toNat % 8 ≠ 0 then (.error (alignCode a 3, addr), s)
  else match decodeAddr addr with
    | .global _ =>
      match s.resolve k addr 8 a with
      | (.error code, s) => (.error (code, addr), s)
      | (.ok l, s) => (.ok (addr, l), s)
    | _ => (.error (boundsCode a 3, addr), s)

def checkGauge (o : MOp) (a : Acc) (s : State) (k : Nat) : Except (Nat × Addr80) At × State := s.gaugeCheck k (s.gaddr k o) a

def Loc.pieces (l : Loc) : List Piece := match l with | .mem ps => ps | .spad _ => []

/-- One thread's `g.add`: its release, then one atomic at the home agent, logged as GAUGE (R242, R294, R317). Poisoned data stops it. -/
def State.gaugeAdd (s : State) (k : Nat) (o : MOp) (x : At) (b : W64) : Option Nat × State :=
  let ps := x.2.pieces
  let s' := if Ord.isRel o.ord then s.release k (Scope.code o.scope) 0 else s
  let s' := s'.clearForAtomic k ps
  if ps.any (fun p => s'.poisoned (p.pa / 128)) then (some (codePoison 5 2), s')
  else
    let t := s'.team (teamOf k)
    let s' := s'.logEvent 4 (s'.here k) { payload := x.1.toNat }
    (none, s'.homePut t.core (ckey t.func t.ctx) 3 ps ((s'.homeValue ps + b.toNat) % 2 ^ 64))

def gaugeAddAll (o : MOp) : State → List (Nat × At × W64) → List Flt × State
  | s, [] => ([], s)
  | s, (k, x, b) :: ks =>
    let r := s.gaugeAdd k o x b
    let t := gaugeAddAll o r.2 ks
    match r.1 with
    | some code => ((k, code, x.1) :: t.1, t.2)
    | none => t

def actGAdd (o : MOp) (_ : Focus) (s : State) (ks : List (Nat × At)) : Acted :=
  let r := gaugeAddAll o s (ks.map (fun x => (x.1, x.2, s.rd64 x.1 o.b)))
  { s := r.2, faults := r.1 }

def execGAdd (o : MOp) (s : State) : Out := perform { ins := .gAdd o, check := checkGauge o .atomic, act := actGAdd o } s

/-- A gauge read by a thread: at cluster scope or wider at the home agent, else under R229 (R294). -/
def State.gaugeRead (s : State) (k : Nat) (o : MOp) (ps : List Piece) : Nat × Option Nat × State := s.memRead k o ps (wideScope o.scope)

def gReadAll (o : MOp) : State → List (Nat × At) → List Result × State
  | s, [] => ([], s)
  | s, (k, x) :: ks =>
    let r := s.gaugeRead k o x.2.pieces
    let s := if wideScope o.scope then r.2.2.logRead (r.2.2.here k) x.1.toNat r.1 else r.2.2
    let t := gReadAll o s ks
    ({ k := k, dst := dstPair o.d (BitVec.ofNat 64 r.1), late := r.2.1.map (BitVec.ofNat 10), addr := x.1 } :: t.1, t.2)

def actGRead (o : MOp) (f : Focus) (s : State) (ks : List (Nat × At)) : Acted :=
  let r := gReadAll o s ks
  actVar (r.2.acquireBy o.ord o.scope ks) f false r.1

def execGRead (o : MOp) (s : State) : Out := perform { ins := .gRead o, check := checkGauge o .read, act := actGRead o } s

/-- What a `g.wait` read did: a cause of poisoned data, or the value where the target is reached. -/
inductive WaitRead where
  | bad (code : Nat)
  | below
  | reached (v : W64)

/-- The read of a `g.wait`; the one that lets it leave is logged, with the wake, at the count of its instruction, and is its acquire (R294, R317). -/
def State.gWaitRead (s : State) (k : Nat) (o : MOp) (x : At) (target : W64) (tc : Nat) : WaitRead × State :=
  let r := s.gaugeRead k o x.2.pieces
  match r.2.1 with
  | some code => (.bad code, r.2.2)
  | none =>
    if r.1 < target.toNat then (.below, r.2.2)
    else
      let p := r.2.2.posOf k tc
      let s := if wideScope o.scope then r.2.2.logRead p x.1.toNat r.1 else r.2.2
      let s := s.logEvent 0x0D p { payload := 0, match_ := 3 }
      (.reached (BitVec.ofNat 64 r.1), if Ord.isAcq o.ord then s.acquire k (Scope.code o.scope) else s)

def gWaitAll (o : MOp) : State → List (Nat × At × W64) → List Result × List Flt × List Nat × State
  | s, [] => ([], [], [], s)
  | s, (k, x, b) :: ks =>
    let tc := (s.team (teamOf k)).tcount
    let r := s.gWaitRead k o x b tc
    match r.1 with
    | .bad code =>
      let t := gWaitAll o r.2 ks
      (t.1, (k, code, x.1) :: t.2.1, t.2.2)
    | .reached v =>
      let t := gWaitAll o r.2 ks
      ({ k := k, dst := dstPair o.d v } :: t.1, t.2)
    | .below =>
      let t := gWaitAll o (r.2.updThread k (fun th => { th with st := .parked, wait := .gauge (.gWait o) x.1 b tc })) ks
      (t.1, t.2.1, k :: t.2.2.1, t.2.2.2)

/-- `g.wait`: threads whose target is reached go on with the value; the others park (R294). -/
def actGWait (o : MOp) (f : Focus) (s : State) (ks : List (Nat × At)) : Acted :=
  let r := gWaitAll o s (ks.map (fun x => (x.1, x.2, s.rd64 x.1 o.b)))
  let a := actParking r.2.2.2 f o.d r.1 r.2.2.1
  { a with faults := r.2.1 ++ a.faults }

def execGWait (o : MOp) (s : State) : Out := perform { ins := .gWait o, check := checkGauge o .read, act := actGWait o } s

/-- A parked `g.wait` reads again: it leaves when the target is reached; a read that faults ends the wait with its cause. -/
def State.gWaitAgain (s : State) (k : Nat) (o : MOp) (addr : Addr80) (target : W64) (tc : Nat) : State :=
  let pc := (s.thread k).pc
  let wake := fun (s : State) => s.updThread k (fun th => { th with st := .ready, wait := .none })
  let cause := fun (s : State) (code : Nat) => (wake s).recordCause k { pc := pc, addr := addr, code := code, late := false, done := 0, tcount := tc }
  match s.gaugeCheck k addr .read with
  | (.error e, s') => cause s' e.1
  | (.ok x, s') =>
    match s'.gWaitRead k o x target tc with
    | (.bad code, s') => cause s' code
    | (.below, s') => s'
    | (.reached v, s') => (s'.leaveFixed (.gWait o) { k := k, dst := dstPair o.d v }).settleSwitch (warpOf k)

/-- G_WAIT_LEAVE: a parked `g.wait` reads again on a line change (R294). -/
def execGWaitLeave (thread : Nat) (s : State) : Out :=
  let th := s.thread thread
  match th.wait with
  | .gauge (.gWait o) addr target tc =>
    .next (if th.st = .parked && s.threadRuns thread then s.atomically (fun s => s.gWaitAgain thread o addr target tc) else s)
  | _ => .next s

end Sys2Proof.Machine
end

