-- ==== Sys2Proof/Machine/Crypto.lean ====
section
/-! DEFINITION. SHA3-256 and SHA3-512 (FIPS 202, named by R407, R422, R423, R466, R467): the Keccak permutation and its sponge. -/

namespace Sys2Proof.Machine

/-- A Keccak state: 25 lanes, lane (x, y) at x + 5 y. -/
abbrev Keccak := List W64

def klane (a : Keccak) (x y : Nat) : W64 := a.getD (x % 5 + 5 * (y % 5)) 0
def kgen (f : Nat → Nat → W64) : Keccak := (List.range 25).map (fun i => f (i % 5) (i / 5))

/-- Rotation offsets by lane. -/
def kRot : List Nat := [0, 1, 62, 28, 27, 36, 44, 6, 55, 20, 3, 10, 43, 25, 39, 41, 45, 15, 21, 8, 18, 2, 61, 56, 14]

/-- The bits of the round constants come from a linear feedback shift register. -/
def kLfsr (r : Nat) : Nat := if r * 2 < 256 then r * 2 else (r * 2) ^^^ 0x171
def kRcBits : Nat → Nat → List Bool
  | 0, _ => []
  | n + 1, r => fbit r 0 :: kRcBits n (kLfsr r)

/-- The constant of a round: bit 2^j − 1 is the register's output 7 i + j. -/
def kConst (bits : List Bool) (i : Nat) : W64 :=
  BitVec.ofNat 64 (((List.range 7).map (fun j => if bits.getD (7 * i + j) false then 2 ^ (2 ^ j - 1) else 0)).foldl (· + ·) 0)

/-- One round: theta, rho and pi, chi, iota. -/
def kRound (rc : W64) (a : Keccak) : Keccak :=
  let c := (List.range 5).map (fun x => klane a x 0 ^^^ klane a x 1 ^^^ klane a x 2 ^^^ klane a x 3 ^^^ klane a x 4)
  let d := (List.range 5).map (fun x => c.getD ((x + 4) % 5) 0 ^^^ (c.getD ((x + 1) % 5) 0).rotateLeft 1)
  let a := kgen (fun x y => klane a x y ^^^ d.getD x 0)
  let b := kgen (fun x y => let x0 := (x + 3 * y) % 5; (klane a x0 x).rotateLeft (kRot.getD (x0 + 5 * x) 0))
  let a := kgen (fun x y => klane b x y ^^^ (~~~ klane b (x + 1) y &&& klane b (x + 2) y))
  match a with
  | [] => []
  | h :: t => (h ^^^ rc) :: t

def keccakF (a : Keccak) : Keccak :=
  let bits := kRcBits 168 1
  (List.range 24).foldl (fun a i => kRound (kConst bits i) a) a

/-- Absorb one block of the rate's length. -/
def kAbsorb (a : Keccak) (block : List Byte) : Keccak :=
  keccakF ((List.range 25).map (fun i => a.getD i 0 ^^^ ofBytes 64 ((block.drop (8 * i)).take 8)))

/-- Absorb whole blocks. The fuel is their number. -/
def kAbsorbAll (rate : Nat) : Nat → Keccak → List Byte → Keccak
  | 0, a, _ => a
  | n + 1, a, bs => kAbsorbAll rate n (kAbsorb a (bs.take rate)) (bs.drop rate)

/-- SHA-3 padding: 01, then 10*1 to a whole block. -/
def kPad (rate : Nat) (bs : List Byte) : List Byte :=
  let n := rate - bs.length % rate
  bs ++ (if n = 1 then [0x86#8] else 0x06#8 :: (List.replicate (n - 2) 0#8 ++ [0x80#8]))

def sha3 (rate out : Nat) (bs : List Byte) : List Byte :=
  let p := kPad rate bs
  (((kAbsorbAll rate (p.length / rate) (List.replicate 25 0) p).map (fun x => toBytes x 8)).flatten).take out

def sha3_256 (bs : List Byte) : List Byte := sha3 136 32 bs
def sha3_512 (bs : List Byte) : List Byte := sha3 72 64 bs

end Sys2Proof.Machine
end

