-- ==== Sys2Proof/Machine/Subs.lean ====
section
/-! DEFINITION. Scratchpad subscriptions: opening, closing, flushing, the application of batches, the end of a publisher (R297 to R314, R490). -/

namespace Sys2Proof.Machine

/-! ## Blocks that an instruction reads from memory (R490) -/

/-- The checks of a block of n bytes: its alignment, then aperture, permission and translation over every byte. -/
def State.blockCheck (s : State) (k : Nat) (addr : Addr80) (n : Nat) : Except (Nat × Addr80) At × State := s.accessCheck k addr n .read

/-- The same for a block that only global memory and the scratchpad may hold: another space raises the permission cause, after the alignment and bounds checks and before translation (R167, R247, R265, R300, R426). -/
def State.blockCheckIn (s : State) (k : Nat) (addr : Addr80) (n : Nat) : Except (Nat × Addr80) At × State :=
  let r := s.blockCheck k addr n
  match decodeAddr addr with
  | .stack _ | .weights _ =>
    match r.1 with
    | .error e => if e.1 < 0x100 then r else (.error (0x102, addr), r.2)
    | .ok _ => (.error (0x102, addr), r.2)
  | _ => r

/-- A block read in the scratchpad meets a watchpoint: the thread records it, at the 16-byte unit that touches the range first, once the instruction is performed (R449, R490). -/
def State.noteHit (s : State) (k off n : Nat) (addr : Addr80) : State :=
  match (List.range ((n + 15) / 16)).findSome? (fun i => (s.watchAt k (off + 16 * i) (min 16 n) true false).map (fun c => (k, c, addr + BitVec.ofNat 80 (16 * i)))) with
  | some h => { s with hits := s.hits ++ [h] }
  | none => s

/-- Read a block as path-T loads: its bytes, or the cause of poisoned data. -/
def State.readBlock (s : State) (k : Nat) (x : At) (n : Nat) : Except Nat (List Byte) × State :=
  match x.2 with
  | .spad off => (if (s.team (teamOf k)).spadPoisoned off n then .error (codePoison 1 0) else .ok (s.spadLoad (teamOf k) off n), s.noteHit k off n x.1)
  | .mem ps =>
    let r := s.loadPieces (s.filler k 3) false ps
    (if r.2.1 then .error (codePoison (piecesStorage ps) 0) else .ok r.1, r.2.2)

/-- A status word {code in [31:24], low bits}. -/
def codeWord (code low : Nat) : W32 := BitVec.ofNat 32 (code * 2 ^ 24 + low)

/-! ## Opening (R300 to R302) -/

/-- The 32-byte descriptor. -/
structure SubDesc where
  local_ : Nat
  remote : Nat
  pteam : Nat
  plaunch : Nat
  ctl : Nat
  pqueue : Nat
  rest : Nat

def SubDesc.ofBytes (bs : List Byte) : SubDesc :=
  let w := ofBytesNat bs
  { local_ := fld w 0 32, remote := fld w 32 32, pteam := fld w 64 32, plaunch := fld w 96 32, ctl := fld w 128 32, pqueue := fld w 160 16, rest := fld w 176 80 }

def SubDesc.size (d : SubDesc) : Nat := (fld d.ctl 0 10 + 1) * 64
def SubDesc.chen (d : SubDesc) : Bool := fbit d.ctl 31
def SubDesc.seed (d : SubDesc) : Bool := fbit d.ctl 15
def SubDesc.chamber (d : SubDesc) : Nat := fld d.ctl 16 15 * 16

/-- The hardware queue of a slot: slot n is queue n in the physical function, the nth assigned queue in a virtual one (R17). -/
def State.hwQueue (_ : State) (func slot : Nat) : Option Nat := if 4096 ≤ slot then none else if func = 0 then some slot else Config.vfQueue func slot

/-- The launch that a descriptor names: the subscriber's own, or one of a queue of its function that has not completed (R300). -/
def State.subLaunch (s : State) (t : Team) (d : SubDesc) : Option Nat :=
  if d.plaunch = 0 then some t.launch
  else (s.launches.find? (fun p =>
    decide (p.2.func = t.func) && decide (some p.2.queue = s.hwQueue t.func (fld d.pqueue 0 12)) && decide (p.2.seqNo % 2 ^ 32 = d.plaunch) && !p.2.done)).map Prod.fst

/-- The publisher team, where it is of the same context and holds a berth. -/
def State.subPublisher (s : State) (t : Team) (d : SubDesc) : Option Nat :=
  match s.subLaunch t d with
  | none => none
  | some l => (s.teams.find? (fun p => decide (p.2.launch = l) && decide (p.2.index = d.pteam) && decide (p.2.func = t.func) && decide (p.2.ctx = t.ctx) && p.2.onCore p.2.core)).map Prod.fst

/-- The subscriber and publisher entries in use on a core (R297). -/
def State.subscriberUse (s : State) (core : Nat) : Nat := (s.subs.filter (fun p => (s.team p.2.subscriber).onCore core)).length
def State.publisherUse (s : State) (core : Nat) : Nat := (s.subs.filter (fun p => p.2.pubOpen && (s.team p.2.publisher).onCore core)).length

/-- The subscription of a team with a handle. -/
def State.subByHandle (s : State) (team handle : Nat) : Option Nat :=
  (s.subs.find? (fun p => decide (p.2.subscriber = team) && decide (p.2.handle = handle))).map Prod.fst

/-- The lowest handle no open subscription of the team has. -/
def State.freeHandle (s : State) (team : Nat) : Option Nat := (List.range 16).find? (fun h => (s.subByHandle team h).isNone)

/-- The code of the first check of R301 that fails; 0 with the publisher and the handle where none does. The publisher's bounds are those of the launch that the descriptor names, whether its team holds a berth or not. -/
def State.subCheck (s : State) (team : Nat) (d : SubDesc) : Nat × Nat × Nat :=
  let t := s.team team
  let pub := s.subPublisher t d
  let tooBig := match s.subLaunch t d with
    | some l => decide (d.pteam < (s.launch l).total ∧ lrSpad (s.launch l).lrec < d.remote + d.size)
    | none => false
  if d.local_ % 64 ≠ 0 ∨ d.remote % 64 ≠ 0 then (1, 0, 0)
  else if fld d.ctl 10 5 ≠ 0 ∨ fld d.pqueue 12 4 ≠ 0 ∨ d.rest ≠ 0 then (2, 0, 0)
  else if t.spadSize < d.local_ + d.size ∨ tooBig = true then (3, 0, 0)
  else if (d.chen && !t.armed d.chamber) || t.touchesArmed d.local_ d.size then (4, 0, 0)
  else match pub with
    | none => (5, 0, 0)
    | some p =>
      match s.freeHandle team with
      | none => (6, 0, 0)
      | some h => if 16 ≤ s.subscriberUse t.core ∨ 16 ≤ s.publisherUse (s.team p).core then (6, 0, 0) else (0, p, h)

/-- The LINK record of an installation or a removal, positioned by the publisher (R314, R317, R322). -/
def State.logLink (s : State) (x : Sub) (removed : Bool) : State :=
  let t := s.team x.subscriber
  s.logEvent 0x0E (s.posTeam x.publisher) { payload := x.handle + b2n removed * 16 + t.index * 2 ^ 32 + t.core * 2 ^ 64, match_ := 2 ^ 96 - 1 }

/-- Install a subscription (R301). -/
def State.install (s : State) (team pub handle : Nat) (d : SubDesc) : State :=
  let x : Sub := { subscriber := team, publisher := pub, handle := handle, local_ := d.local_, remote := d.remote, size := d.size, chen := d.chen, chamber := d.chamber, seeds := if d.seed then List.range (d.size / 64) else [] }
  let n := s.newId
  { (n.2.logLink x false) with subs := Assoc.put (n.2.logLink x false).subs n.1 x }

/-- One thread's `sub.open`: its result, or the cause of poisoned data. -/
def State.subOpenOne (s : State) (k : Nat) (x : At) : Except Nat W32 × State :=
  match s.readBlock k x 32 with
  | (.error code, s) => (.error code, s)
  | (.ok bs, s) =>
    let d := SubDesc.ofBytes bs
    let c := s.subCheck (teamOf k) d
    if c.1 ≠ 0 then (.ok (codeWord c.1 0), s) else (.ok (codeWord 0 c.2.2), s.install (teamOf k) c.2.1 c.2.2 d)

/-- An engine instruction whose threads act in ascending seat order, each with a result of one register, or a cause. -/
def wordAll {α : Type} (d : Src) (op : State → Nat → α → Except Flt W32 × State) : State → List (Nat × α) → List Result × List Flt × State
  | s, [] => ([], [], s)
  | s, (k, x) :: ks =>
    let r := op s k x
    let t := wordAll d op r.2 ks
    match r.1 with
    | .error e => (t.1, e :: t.2.1, t.2.2)
    | .ok w => ({ k := k, dst := dstOne d w } :: t.1, t.2)

/-- The performance of such an instruction with variable latency. -/
def actWord {α : Type} (d : Src) (op : State → Nat → α → Except Flt W32 × State) (f : Focus) (s : State) (ks : List (Nat × α)) : Acted :=
  let r := wordAll d op s ks
  { actVar r.2.2 f false r.1 with faults := r.2.1 }

def execSubOpen (o : XOp) (s : State) : Out :=
  perform { ins := .subOpen o, check := fun s k => s.blockCheckIn k (s.xaddr k o.xa o.a) 32,
            act := actWord o.d (fun s k x => match s.subOpenOne k x with
              | (.ok w, s) => (.ok w, s)
              | (.error c, s) => (.error (k, c, x.1), s)) } s

/-! ## Applying batches (R307) -/

/-- Where an entry holds no closed batch, the next seed batch is emitted first (R302). -/
def State.seedNext (s : State) (i : Nat) : State :=
  match Assoc.find s.subs i with
  | none => s
  | some x => if x.closed = [] then s.emitSeed i else s

/-- BATCH_APPLY (R307). -/
def execBatchApply (sub : Nat) (s : State) : Out :=
  .next (s.atomically (fun s =>
    let s := s.seedNext sub
    if s.batchDue sub then s.applyBatch sub else s))

/-- BATCH_IDLE_CLOSE: 64 aclk with no forwarded write; in record and replay modes 64 instructions of the publisher team (R304, R314). -/
def State.idleClose (s : State) (sub : Nat) : State :=
  match Assoc.find s.subs sub with
  | none => s
  | some x => if x.open_.isSome && decide (x.idleSince + 64 ≤ s.idleNow x.publisher) && decide (x.closed.length < 8) then s.closeBatch sub else s

def execBatchIdleClose (sub : Nat) (s : State) : Out := .next (s.idleClose sub)

/-- The idle batches of a team's entries close. -/
def State.idleAll (s : State) (team : Nat) : State :=
  (s.subs.filter (fun p => decide (p.2.publisher = team))).foldl (fun s p => s.idleClose p.1) s

/-! ## Delivery to the last batch (R310, R311, R313) -/

/-- One entry's remaining seed batches and its open batch are emitted and delivered. -/
def State.drainSub (s : State) (team : Nat) (i : Nat) : State :=
  let n := match Assoc.find s.subs i with | some x => x.seeds.length | none => 0
  let s := (List.range n).foldl (fun s _ => State.deliverFuel team (s.heldBy team + 1) (s.emitSeed i)) s
  let s := s.closeBatch i
  State.deliverFuel team (s.heldBy team) s

/-- Everything a publisher team has forwarded is delivered (R311). -/
def State.flushPublisher (s : State) (team : Nat) : State :=
  let s := State.deliverFuel team (s.heldBy team) s
  (s.subs.filter (fun p => decide (p.2.publisher = team))).foldl (fun s p => s.drainSub team p.1) s

/-- PUBLISHER_FLUSH: before a leaving publisher's entries go into its frame (R311). -/
def execPublisherFlush (team : Nat) (s : State) : Out :=
  .next (if (s.team team).saveAs.isSome = true then s.atomically (fun s => s.flushPublisher team) else s)

/-- The end of a team: as a publisher its batches are delivered and its subscriptions end; as a subscriber they close (R313). -/
def State.endSubs (s : State) (team : Nat) : State :=
  let s := s.flushPublisher team
  let s := { s with subs := Assoc.mapVals s.subs (fun _ x => if x.publisher = team then { x with pubOpen := false, pubEnded := true } else x) }
  (s.subs.filter (fun p => decide (p.2.subscriber = team))).foldl (fun s p =>
    let s := if p.2.pubOpen && (s.team p.2.publisher).live then s.logLink p.2 true else s
    { s with subs := Assoc.del s.subs p.1 }) s

/-! ## sub.flush, sub.close, sub.stat (R308 to R310) -/

/-- The batches that a flush waits for: subscription and the number made so far. -/
def State.flushTargets (s : State) (team : Nat) : List (Nat × Nat) :=
  (s.subs.filter (fun p => decide (p.2.publisher = team) && p.2.pubOpen)).map (fun p => (p.1, p.2.made))

/-- The batches have been applied, or accepted at a frame. -/
def State.flushed (s : State) (bs : List (Nat × Nat)) : Bool :=
  bs.all (fun b => match Assoc.find s.subs b.1 with
    | none => true
    | some x => decide (b.2 + x.closed.length ≤ x.made))

/-- A thread leaves `sub.flush` or `sub.close` where what it waits for has happened: the wake is logged, the result written (R308, R310, R317). -/
def State.subLeave (s : State) (k : Nat) : State :=
  let th := s.thread k
  if th.st ≠ .parked then s
  else match th.wait with
    | .flush bs count i tc =>
      (match i with
        | .subFlush o =>
          if s.flushed bs then
            let s := s.logEvent 0x0D (s.posOf k tc) { payload := 2, match_ := 3 }
            (s.answerParked { k := k, dst := dstOne o.d (BitVec.ofNat 32 count) }).leaveWait k (wordHdr i).sw
          else s
        | _ => s)
    | .close sub i tc =>
      (match i with
        | .subClose o =>
          let ready := match Assoc.find s.subs sub with
            | none => true
            | some x => decide (x.closed = []) && x.open_.isNone && decide (x.seeds = [])
          if ready then
            let s := s.logEvent 0x0D (s.posOf k tc) { payload := 3, match_ := 3 }
            let s := { s with subs := Assoc.del s.subs sub }
            (s.answerParked { k := k, dst := dstOne o.d 0 }).leaveWait k (wordHdr i).sw
          else s
        | _ => s)
    | _ => s

/-- The waits of a warp's threads on subscriptions are looked at (R308, R310). -/
def State.subLeaves (s : State) (w : Nat) : State :=
  ((warpThreads w).foldl (fun s k => s.atomically (fun s => s.subLeave k)) s).settleSwitch w

/-- `sub.flush` acts once for the issue group: it closes the open batches, and each active thread parks (R308). -/
def actSubFlush (o : XOp) (f : Focus) (s : State) (ks : List (Nat × Unit)) : Acted :=
  if ks = [] then { s := s }
  else
    let tc := (s.team f.team).tcount
    let s := s.closeBatches f.team
    let bs := s.flushTargets f.team
    let s := ks.foldl (fun s x => s.updThread x.1 (fun th => { th with st := .parked, wait := .flush bs bs.length (.subFlush o) tc })) s
    actParkingVar s f ((dstOne o.d 0).map Prod.fst) [] (ks.map Prod.fst)

def execSubFlush (o : XOp) (s : State) : Out := perform { ins := .subFlush o, check := noCheck, act := actSubFlush o } s

/-- One thread's `sub.close`: with no such subscription code 1; else the publisher entry goes at this moment and the thread parks until every batch has been applied (R310). -/
def State.subCloseOne (s : State) (k : Nat) (o : XOp) : Bool × State :=
  match s.subByHandle (teamOf k) ((s.rd k o.a).toNat % 16) with
  | none => (false, s)
  | some i =>
    let tc := (s.team (teamOf k)).tcount
    let s := match Assoc.find s.subs i with
      | some x =>
        if x.pubOpen then
          let s := if (s.team x.publisher).live then s.logLink x true else s
          s.removeEntry i
        else s
      | none => s
    (true, s.updThread k (fun th => { th with st := .parked, wait := .close i (.subClose o) tc }))

def subCloseAll (o : XOp) : State → List (Nat × Unit) → List Result × List Nat × State
  | s, [] => ([], [], s)
  | s, (k, _) :: ks =>
    let r := s.subCloseOne k o
    let t := subCloseAll o r.2 ks
    if r.1 then (t.1, k :: t.2.1, t.2.2) else ({ k := k, dst := dstOne o.d (codeWord 1 0) } :: t.1, t.2)

def actSubClose (o : XOp) (f : Focus) (s : State) (ks : List (Nat × Unit)) : Acted :=
  let r := subCloseAll o s ks
  actParkingVar r.2.2 f ((dstOne o.d 0).map Prod.fst) r.1 r.2.1

def execSubClose (o : XOp) (s : State) : Out := perform { ins := .subClose o, check := noCheck, act := actSubClose o } s

/-- The status pair of a subscription (R309). -/
def Sub.status (x : Sub) : W32 :=
  let state := if x.pubEnded then 3 else if x.seeds ≠ [] ∨ x.closed.any (fun b => b.seed) = true then 2 else 1
  codeWord state (Nat.min x.closed.length 8)

def actSubStat (o : XOp) (f : Focus) (s : State) (ks : List (Nat × Unit)) : Acted :=
  actVar s f false (ks.map (fun x =>
    match (s.subByHandle (teamOf x.1) ((s.rd x.1 o.a).toNat % 16)).bind (fun i => Assoc.find s.subs i) with
    | some y => { k := x.1, dst := dstGroup o.d [y.status, y.applied] }
    | none => { k := x.1, dst := dstGroup o.d [0, 0] }))

def execSubStat (o : XOp) (s : State) : Out := perform { ins := .subStat o, check := noCheck, act := actSubStat o } s

end Sys2Proof.Machine
end

