-- ==== Sys2Proof/Machine/Engine.lean ====
section
/-! DEFINITION. What the engines share: serving the threads of an instruction that takes one resource each, engine reads and writes at the home agents, fences between paths for a byte range (R204, R238, R456, R457, R491). -/

namespace Sys2Proof.Machine

/-! ## Serving threads (R491) -/

/-- The threads of the group in focus whose guard is true. -/
def State.activeFor (s : State) (i : Instr) : List Nat :=
  match s.focus with
  | none => []
  | some f => f.threads.filter (fun k => (s.thread k).holds (wordHdr i).g)

/-- How many active threads of lower seat an instruction has. -/
def State.rankOf (s : State) (i : Instr) (k : Nat) : Nat := ((s.activeFor i).filter (fun j => decide (j < k))).length

/-- A thread that a free resource remains for is served: only then its block is checked. -/
def serveCheck {α : Type} (i : Instr) (free : State → Nat → Nat) (chk : State → Nat → Except (Nat × Addr80) α × State) (s : State) (k : Nat) : Except (Nat × Addr80) (Option α) × State :=
  if s.rankOf i k < free s (teamOf k) then
    match chk s k with
    | (.ok a, s) => (.ok (some a), s)
    | (.error e, s) => (.error e, s)
  else (.ok none, s)

/-- With no free resource the group does not issue; else the served threads perform and the others stay at the instruction. -/
def actServed {α : Type} (i : Instr) (free : State → Nat → Nat) (act : Focus → State → List (Nat × α) → Acted) (f : Focus) (s : State) (ks : List (Nat × Option α)) : Acted :=
  let t := s.team f.team
  if decide (free s f.team = 0) && !(s.activeFor i).isEmpty then { s := s.holdBack (ckey t.func t.ctx), stay := ks.map (fun x => x.1) }
  else
    let a := act f s (ks.filterMap (fun x => x.2.map (fun y => (x.1, y))))
    let rest := (ks.filter (fun x => x.2.isNone)).map (fun x => x.1)
    { a with stay := a.stay ++ rest, unserved := rest }

/-! ## Engine accesses at the home agents -/

/-- The L2 slice sees an access of a world, with an eviction priority (R218 to R223, R403). -/
def State.touchIn (s : State) (world pri ctx va pa key : Nat) (sealed write : Bool) : State :=
  if pa / 128 < 2 ^ 45 then s.l2Access (pa / 128) { ctx := ctx, vline := va / 128, pri := pri, world := world, key := key, seal_ := sealed, write := write } else s

/-- An engine's access has the world of its team's core (R403), and the priority of its own field, where it has one (R220). -/
def State.touch (s : State) (core ctx va pa key : Nat) (sealed write : Bool) (pri : Nat := 3) : State :=
  s.touchIn (s.core core).world pri ctx va pa key sealed write

/-- Read bytes of a context for an engine: the bytes and whether any line is poisoned, or the translation that fails. -/
def State.engRead (s : State) (core ctx va n : Nat) (a : Acc) (pri : Nat := 3) : Except Xlat (List Byte × Bool) × State :=
  (piecesOf va n).foldl (fun acc p =>
    match acc with
    | (.error e, s) => (.error e, s)
    | (.ok r, s) =>
      match s.translate deviceAgent ctx p.1 a with
      | (.ok pa key sealed _ _, s) => (.ok (r.1 ++ s.bytesAt key pa p.2, r.2 || s.poisoned (pa / 128)), s.touch core ctx p.1 pa key sealed false pri)
      | (x, s) => (.error x, s)) (.ok ([], false), s)

/-- Write bytes of a context for an engine; a piece whose translation fails is not written and the failure is answered. -/
def State.engWrite (s : State) (core ctx va : Nat) (bs : List Byte) (pri : Nat := 3) : Option Xlat × State :=
  (piecesOf va bs.length).foldl (fun acc p =>
    match acc with
    | (some e, s) => (some e, s)
    | (none, s) =>
      match s.translateW deviceAgent ctx p.1 .write with
      | (.ok pa key sealed _ _, s) => (none, (s.writeBytes key pa ((bs.drop (p.1 - va)).take p.2)).touch core ctx p.1 pa key sealed true pri)
      | (x, s) => (some x, s)) (none, s)

/-- The whole range lies in the global aperture (R209). -/
def globalRange (a : Addr80) (n : Nat) : Bool :=
  match decodeAddr a with
  | .global va => decide (va + n ≤ 0xFFFF * 2 ^ 64)
  | _ => false

/-! ## The scratchpad of a saved team (R296, R312, R440) -/

/-- The little-endian bytes of a number. -/
def leBytes (n v : Nat) : List Byte := toBytes (BitVec.ofNat (8 * n) v) n

/-- The vector budgets of a launch's warps. -/
def lrBudgets (r : BitVec 512) : List Nat := (List.range (lrWarps r)).map (lrBudget r)

/-- The sizes of the ten sections. -/
def secSizes (r : BitVec 512) : List Nat :=
  [512 * lrWarps r, 16384 * lrWarps r, 128 * (lrBudgets r).foldl (· + ·) 0, lrSpad r, 4096, 1024, 2048, 24576, 262144, 2048]

/-- The offset of a section from its frame; section 10 stands for the end. -/
def secOff (r : BitVec 512) (i : Nat) : Nat := 256 + ((secSizes r).take i).foldl (· + ·) 0

/-- A section, or a part of one. -/
def State.readPart (s : State) (t : Team) (i off n : Nat) : Except XFault (List Byte) := s.physRead t.func (t.frame.toNat + secOff t.lrec i + off) n

def State.imageRead (s : State) (team off n : Nat) : List Byte :=
  match s.readPart (s.team team) 3 off n with
  | .ok bs => bs
  | .error _ => []
def State.imageWrite (s : State) (team off : Nat) (bs : List Byte) : State :=
  let t := s.team team
  (s.physWrite t.func (t.frame.toNat + secOff t.lrec 3 + off) bs).2

end Sys2Proof.Machine
end

