-- ==== Sys2Proof/Machine/Launch.lean ====
section
/-! DEFINITION. Fault tokens, launches and record queues: the checks of a launch record, acceptance, eligibility, completion; `lnch`, `rq.put`, `rq.get`, `rq.done` and the flush time (R17, R357 to R360, R370, R371, R373 to R375, R390, R391). -/

namespace Sys2Proof.Machine

/-! ## Fault records and tokens (R390, R391) -/

/-- What a fault record tells of the work that met it. -/
structure FaultCtx where
  func : Nat
  ctx : Nat
  va : Nat
  source : Nat
  core : Nat := 0
  seq : Nat := 0
  team : Nat := 0
  queue : Nat := 0

/-- The 64-byte record without its time (R391). -/
def faultWord (c : FaultCtx) (f : XFault) (a : Acc) (token : Nat) : BitVec 512 :=
  let info := f.stage * 2 ^ 14 + c.source * 2 ^ 11 + (if f.walk then 5 else a.code) * 2 ^ 8 + f.level * 2 ^ 5 + f.reason
  BitVec.ofNat 512 (c.va % 2 ^ 64 + (if f.stage = 2 then f.ipa else 0) * 2 ^ 64 + c.va / 2 ^ 64 * 2 ^ 128 + info * 2 ^ 144 + c.func * 2 ^ 160 + c.ctx * 2 ^ 168
    + c.core * 2 ^ 176 + c.seq % 2 ^ 64 * 2 ^ 192 + c.team * 2 ^ 256 + c.queue * 2 ^ 288 + token * 2 ^ 320)

/-- The function and the ring that a first-stage fault is reported to (R390). -/
def State.faultRing1 (s : State) (func ctx : Nat) : Nat × Nat :=
  let c := s.ctx (ckey func ctx)
  if c.hostFault && decide (func ≠ 0) then (0, func - 1) else (func, c.root1Ring)

/-- Report a fault under a token, or join the outstanding one of the same context, stage and page; the work named waits on it (R390). The second stage is reported to the secure core alone. -/
def State.raiseToken (s : State) (c : FaultCtx) (f : XFault) (a : Acc) (ws : List Waiter) : Nat × State :=
  let page := if f.stage = 2 then f.ipa / 65536 else c.va / 65536
  match s.tokens.find? (fun p => decide (p.2.func = c.func) && decide (p.2.ctx = c.ctx) && decide (p.2.stage = f.stage) && decide (p.2.page = page)) with
  | some p => (p.1, { s with tokens := Assoc.put s.tokens p.1 { p.2 with waiters := p.2.waiters ++ ws.filter (fun w => !p.2.waiters.contains w) } })
  | none =>
    let n := s.newId
    let rec_ := faultWord c f a n.1
    let t : Token := { func := c.func, ctx := c.ctx, stage := f.stage, page := page, fault := rec_, reason := f.reason, waiters := ws, secure := decide (f.stage = 2), forwarded := false, key := 0, die := 0 }
    let s := { n.2 with tokens := Assoc.put n.2.tokens n.1 t }
    if f.stage = 2 then (n.1, s)
    else
      let r := s.faultRing1 c.func c.ctx
      (n.1, s.updFring r.1 r.2 (fun x => { x with held := x.held ++ [rec_] }))

/-- What an engine's operation waits for: a page not present at either stage, and at the second stage what its own resolvers may mend, which the guest never sees: a denial, an empty pool, a key (R174, R277, R385, R390, R397). -/
def XFault.waits (f : XFault) : Bool := decide (f.reason = 0) || (decide (f.stage = 2) && decide (f.reason = 1 ∨ f.reason = 4 ∨ f.reason = 5))

/-- The fault record's account of a team's work. -/
def State.teamFault (s : State) (team va source : Nat) : FaultCtx :=
  let t := s.team team
  { func := t.func, ctx := t.ctx, va := va, source := source, core := t.core, seq := t.seqNo, team := t.index, queue := t.queue }

/-! ## Queues and records (R17, R357 to R359) -/

/-- A world a launch of a context may name (R400). -/
def launchWorldOk (c : Ctx) (r : BitVec 512) (own : Option Nat) : Bool :=
  match own with
  | some w => decide (lrWorld r = w) && (decide (w = 0) || decide (w = c.world))
  | none => decide (lrWorld r = 0) || decide (lrWorld r = c.world)

/-- A Reserved field of the record is nonzero, or a field breaks its rule (R358, R359). -/
def lrReserved (r : BitVec 512) : Bool :=
  bit (lrQ r 0x28) 15 || decide (field (lrCtl r) 5 0 ≠ 0) || (decide (lrPwarps r = 0) && decide (field (lrCtl r) 12 7 ≠ 0))
    || (if lrCword r then decide (lrCscope r < 5) else decide (lrCscope r ≠ 0))

/-- The record's shape breaks its limits. -/
def lrShape (r : BitVec 512) : Bool :=
  decide (2 ^ 32 < lrTeams r) || decide (lrWarps r < lrPwarps r) || decide (384 < lrBud0 r) || (decide (lrPwarps r ≠ 0) && decide (384 < lrBud1 r)) || decide (2048 < lrSpad r / 256)

def lrMisaligned (r : BitVec 512) : Bool := decide (lrQ r 0 % 8#64 ≠ 0) || (lrDepen r && decide (lrQ r 0x10 % 8#64 ≠ 0))

/-- Launches of a queue that have not yet completed (R359, R370). -/
def State.outstanding (s : State) (q : Nat) : Nat := (s.launches.filter (fun p => decide (p.2.queue = q) && !p.2.done)).length

/-- The checks that look at the record alone: codes 2 to 4, or 0. -/
def formCode (r : BitVec 512) : Nat := if lrReserved r then 2 else if lrShape r then 3 else if lrMisaligned r then 4 else 0

/-- The code a launch record is refused with; 0 where it is accepted (R359). -/
def State.recordCode (s : State) (q : Nat) (own : Option Nat) (r : BitVec 512) : Nat :=
  let x := s.queue q
  let c := s.ctx (ckey x.func x.ctx)
  if formCode r ≠ 0 then formCode r
  else if x.bound && !launchWorldOk c r own then 5
  else if !x.bound || !x.enabled then 6
  else if 256 ≤ s.outstanding q then 7
  else if lrParam r ≠ 0 ∧ c.stackSize < 16 then 8
  else 0

/-- Queue an accepted record: it takes the queue's next number (R357). -/
def State.accept (s : State) (q : Nat) (r : BitVec 512) (rq : Option (Nat × Nat × Nat)) : Nat × State :=
  let x := s.queue q
  let n := s.newId
  let l : Launch := { queue := q, func := x.func, ctx := x.ctx, seqNo := x.nextSeq, lrec := r, total := lrTeams r, rq := rq }
  (x.nextSeq, { n.2 with launches := Assoc.put n.2.launches n.1 l }.setQueue q { x with nextSeq := x.nextSeq + 1 })

/-- A launch-reject record to the queue's ring, or to ring 0 of the function (R357, R359, R370). -/
def State.rejectRecord (s : State) (func : Nat) (q : Option Nat) (code : Nat) : State :=
  match q with
  | some n => let x := s.queue n
    if x.bound then s.postEvent x.func x.ring { kind := 2, status := code, queue := n } else s.postEvent func 0 { kind := 2, status := code, queue := n }
  | none => s.postEvent func 0 { kind := 2, status := code }

/-- A 64-byte write to a queue-port slot (R357, R359). -/
def State.portWrite (s : State) (func slot : Nat) (r : BitVec 512) : State :=
  if !s.mod.ready then s
  else match s.hwQueue func slot with
    | none => s.rejectRecord func none (if formCode r ≠ 0 then formCode r else 6)
    | some q =>
      if (s.queue q).bound && decide ((s.queue q).func ≠ func) then s.rejectRecord func none (if formCode r ≠ 0 then formCode r else 6)
      else
        let code := s.recordCode q none r
        if code = 0 then (s.accept q r none).2 else s.rejectRecord func (some q) code

/-- LAUNCH_RECORD_WRITE (R357). -/
def execLaunchRecordWrite (func slot : Nat) (record : BitVec 512) (s : State) : Out := .next (if s.hostOpen then s.portWrite func slot record else s)

/-! ## What a record queue holds and launches (R374) -/

/-- The 64-byte descriptor. -/
structure RqDesc where
  ring : Addr80
  capLog : Nat
  rsz : Nat
  queue : Nat
  cfgLow : Nat
  batch : Nat
  flush : Nat
  batchLow : Nat
  cons : Addr80
  put : Nat
  ready : Nat
  taken : Nat
  done : Nat

def RqDesc.ofBytes (bs : List Byte) : RqDesc :=
  let w := ofBytesNat bs
  { ring := BitVec.ofNat 80 (fld w 0 64 + fld w 112 16 * 2 ^ 64), capLog := fld w 91 5, rsz := fld w 88 3, queue := fld w 76 12, cfgLow := fld w 64 12,
    batch := fld w 176 16 + 1, flush := fld w 160 16, batchLow := fld w 128 32, cons := BitVec.ofNat 80 (fld w 192 64 + fld w 96 16 * 2 ^ 64),
    put := fld w 256 64, ready := fld w 320 64, taken := fld w 384 64, done := fld w 448 64 }

def RqDesc.malformed (d : RqDesc) : Bool :=
  decide (d.capLog < 4 ∨ 24 < d.capLog ∨ 4 < d.rsz ∨ d.cfgLow ≠ 0 ∨ d.batchLow ≠ 0 ∨ d.ring.toNat % 64 ≠ 0 ∨ d.cons.toNat % 64 ≠ 0)

def RqDesc.words (d : RqDesc) : Nat := 2 ^ d.rsz
/-- The address of record q. -/
def RqDesc.slot (d : RqDesc) (q : Nat) : Addr80 := d.ring + BitVec.ofNat 80 (4 * d.words * (q % 2 ^ d.capLog))

/-- What the device keeps of the queue at a descriptor, made at its first use. -/
def State.rqAt (s : State) (func ctx : Nat) (addr : Addr80) : Nat × State :=
  match s.rqs.find? (fun p => decide (p.2.func = func) && decide (p.2.ctx = ctx) && decide (p.2.addr = addr)) with
  | some p => (p.1, s)
  | none => let n := s.newId; (n.1, { n.2 with rqs := Assoc.put n.2.rqs n.1 { func := func, ctx := ctx, addr := addr, lastPut := s.clock } })

/-- Write a counter of the descriptor at its home agent. -/
def State.rqCounter (s : State) (func ctx : Nat) (addr : Addr80) (off v : Nat) : State :=
  (s.devWrite (ckey func ctx) (addr.toNat + off) (toBytes (BitVec.ofNat 64 v) 8)).2

/-- Give n records to a consumer launch: the cons record as a one-team grid on the named queue. A record that cannot be read or is refused launches nothing now; it is tried again whenever a launch of the queue completes or the queue is enabled. -/
def State.formConsumer (s : State) (id n : Nat) (d : RqDesc) : State :=
  match Assoc.find s.rqs id with
  | none => s
  | some q =>
    match s.devRead (ckey q.func q.ctx) d.cons.toNat 64 with
    | (.error _, s) => s
    | (.ok bs, s) =>
      let r0 := ofBytes 512 bs
      let r := r0 &&& ~~~ (BitVec.ofNat 512 ((2 ^ 96 - 1) * 2 ^ 192))
      match s.hwQueue q.func d.queue with
      | none => s
      | some hq =>
        if s.recordCode hq none r = 0 ∧ (s.queue hq).func = q.func ∧ (s.queue hq).ctx = q.ctx then
          ((s.accept hq r (some (id, d.taken, n))).2).rqCounter q.func q.ctx q.addr 0x30 (d.taken + n)
        else s

/-- Whenever ready − taken reaches the batch size a consumer is launched (R374). -/
def State.rqForm (s : State) (id : Nat) : State :=
  match Assoc.find s.rqs id with
  | none => s
  | some q =>
    match s.devRead (ckey q.func q.ctx) q.addr.toNat 64 with
    | (.error _, s) => s
    | (.ok bs, s) =>
      let d := RqDesc.ofBytes bs
      if d.malformed then s
      else if d.taken + d.batch ≤ d.ready then s.formConsumer id d.batch d else s

/-- A record queue launches consumers as long as it has batches and its launches are accepted. The fuel bounds their number. -/
def State.rqFormAll (id : Nat) : Nat → State → State
  | 0, s => s
  | n + 1, s => let s' := s.rqForm id; if s'.launches.length = s.launches.length then s' else State.rqFormAll id n s'

/-- The record queues of a context try the batches that a full or disabled queue left unlaunched (R374). -/
def State.rqRetry (s : State) (func ctx : Nat) : State :=
  (s.rqs.filter (fun p => decide (p.2.func = func) && decide (p.2.ctx = ctx))).foldl (fun s p => State.rqFormAll p.1 256 s) s

/-! ## Completion (R370) -/

/-- The completion record of a launch. -/
def Launch.event (l : Launch) : EventRec :=
  { kind := 1, status := l.status, queue := l.queue, seqNo := l.seqNo, subst := l.subst, crefSeen := l.crefSeen, logOver := l.logOver, restarted := l.restarted, demoted := l.demoted, nfault := l.nfault, cause := l.cause, fhi := l.fhi, faddr := l.faddr }

/-- The queue's contiguous prefix of completed launches grows. The fuel is the number of launches completed out of order. -/
def contigFrom : Nat → Nat → List Nat → Nat × List Nat
  | 0, n, ds => (n, ds)
  | k + 1, n, ds => if ds.contains (n + 1) then contigFrom k (n + 1) (ds.filter (fun d => decide (d ≠ n + 1))) else (n, ds)

def Queue.credit (q : Queue) (n : Nat) : Queue :=
  let r := contigFrom (q.done.length + 1) q.contig (n :: q.done)
  { q with contig := r.1, done := r.2 }

/-- A launch completes: it counts among its queue's completed launches, its record is handed to the queue's ring, and its place in the queue is free (R359, R370, R371, R374). -/
def State.completeLaunch (s : State) (id : Nat) : State :=
  let l := s.launch id
  if l.done then s
  else
    let s := s.setLaunch id { l with done := true, held := true }
    let s := if l.stale then s else s.updQueue l.queue (fun q => q.credit l.seqNo)
    (s.postEvent l.func (s.queue l.queue).ring l.event).rqRetry l.func l.ctx

/-- A launch whose gauge cannot be read ends at once with status 3 (R360). -/
def State.failLaunch (s : State) (id code : Nat) : State :=
  let s := s.updLaunch id (fun l => { l with status := 3, cause := BitVec.ofNat 10 code, faddr := (lrDep l.lrec).extractLsb' 0 64, fhi := (lrDep l.lrec).extractLsb' 64 16, placed := l.total })
  s.completeLaunch id

/-! ## Eligibility (R360) -/

/-- Every team of each earlier launch of the queue has been placed. -/
def State.earlierPlaced (s : State) (l : Launch) : Bool :=
  s.launches.all (fun p => decide (p.2.queue ≠ l.queue) || decide (l.seqNo ≤ p.2.seqNo) || p.2.done || decide (p.2.total ≤ p.2.placed))

/-- The dependence gauge is read as an acquire at system scope: met, not met, or the launch ends or waits on a token. -/
def State.readDep (s : State) (id : Nat) (l : Launch) : State :=
  let go := fun (s : State) => s.updLaunch id (fun l => { l with eligible := true, eligAt := s.clock })
  if !lrDepen l.lrec then go s
  else match decodeAddr (lrDep l.lrec) with
    | .global va =>
      match s.translate deviceAgent (ckey l.func l.ctx) va .read with
      | (.ok pa key _ _ _, s) => if lrTarget l.lrec ≤ s.numAt key pa 8 then go s else s
      | (.denied, s) => s.failLaunch id (deniedCode .read)
      | (.aperture, s) => s.failLaunch id (boundsCode .read 3)
      | (.fault f, s) =>
        if f.stage = 1 then s.failLaunch id (f.code .read)
        else
          let r := s.raiseToken { func := l.func, ctx := l.ctx, va := va, source := 0, seq := l.seqNo, queue := l.queue } f .read [.launch id]
          r.2.updLaunch id (fun l => { l with token := some r.1 })
    | _ => s.failLaunch id (boundsCode .read 3)

/-- LAUNCH_ELIGIBLE (R360). -/
def execLaunchEligible (launch : Nat) (s : State) : Out :=
  match Assoc.find s.launches launch with
  | none => .next s
  | some l => .next (if l.done || l.eligible || l.token.isSome || !s.mod.ready || !s.earlierPlaced l then s else s.readDep launch l)

/-! ## lnch (R373) -/

/-- One thread's `lnch`: its record is read and checked, its earlier accesses are released, and an accepted record is queued. -/
def State.lnchOne (s : State) (k : Nat) (o : XOp) (x : At) : Except Flt W32 × State :=
  match s.readBlock k x 64 with
  | (.error c, s) => (.error (k, c, x.1), s)
  | (.ok bs, s) =>
    let r := ofBytes 512 bs
    let t := s.team (teamOf k)
    let code := s.recordCode t.queue (some t.world) r
    let s := (s.release k (Scope.code o.scope) 0).updTeam (teamOf k) (fun t => { t with launched := true })
    if code = 0 then
      let a := s.accept t.queue r none
      (.ok (codeWord 0 (a.1 % 2 ^ 24)), a.2)
    else (.ok (codeWord code 0), s)

def execLnch (o : XOp) (s : State) : Out :=
  perform { ins := .lnch o, check := fun s k => s.blockCheck k (s.xaddr k o.xa o.a) 64, act := actWord o.d (fun s k x => s.lnchOne k o x) } s

/-! ## Record queues (R374, R375) -/

/-- RQ_FLUSH_TIMEOUT: the flush time has passed with no `rq.put` and records remain (R374). -/
def execRqFlushTimeout (rq : Nat) (s : State) : Out :=
  match Assoc.find s.rqs rq with
  | none => .next s
  | some q =>
    match s.devRead (ckey q.func q.ctx) q.addr.toNat 64 with
    | (.error _, s) => .next s
    | (.ok bs, s) =>
      let d := RqDesc.ofBytes bs
      .next (if !d.malformed && decide (d.flush ≠ 0) && decide (d.taken < d.ready) && decide (q.lastPut + d.flush * 1024 ≤ s.clock) then s.formConsumer rq (Nat.min d.batch (d.ready - d.taken)) d else s)

/-- The checks of a descriptor operand: alignment to 64, a global address, translation. -/
def checkRq (o : XOp) (a : Acc) (s : State) (k : Nat) : Except (Nat × Addr80) At × State :=
  let addr := s.xaddr k o.xa o.a
  if addr.toNat % 64 ≠ 0 then (.error (alignCode a 6, addr), s)
  else match decodeAddr addr with
    | .global _ => s.accessCheck k addr 64 a
    | _ => (.error (boundsCode a 3, addr), s)

/-- The descriptor as it stands at its home agent. -/
def State.rqDesc (s : State) (x : At) : RqDesc :=
  RqDesc.ofBytes ((match x.2 with | Loc.mem ps => ps | Loc.spad _ => []).map (fun (p : Piece) => s.bytesAt p.key p.pa p.n)).flatten

/-- The status code that stops a record-queue instruction: 2, 3, 4 or 6, else 0. -/
def State.rqCode (s : State) (k : Nat) (grp : Option Src) (needTeam : Bool) (addr : Addr80) (d : RqDesc) : Nat :=
  let t := s.team (teamOf k)
  let mine := match t.rq with
    | some r => (match Assoc.find s.rqs r.1 with | some q => decide (q.addr = addr) && decide (q.func = t.func) && decide (q.ctx = t.ctx) | none => false)
    | none => false
  if needTeam && !mine then 2
  else if (match grp with | some g => !(Use.grp (2 ^ Nat.min d.rsz 4)).ok (s.warp (warpOf k)).budget g | none => false) then 3
  else if d.malformed then 4
  else if (s.ctxOf t).logMode ≠ 0 then 6
  else 0

/-- The cause that the registers of a group of 2^rsz raise, whose size the descriptor gives: an outstanding result of any of them in checked mode, a poisoned source (R345, R457). -/
def State.rqGroupBad (s : State) (k : Nat) (g : Src) (n : Nat) (reads : Bool) : Option Nat :=
  if (s.ctxOf (s.team (teamOf k))).checked && s.hazardIn k (srcRegs g n) then some codeHazard
  else if reads && s.poisonIn k (srcRegs g n) then some codeRegPoison
  else none

/-- One thread's `rq.put`. -/
def State.rqPutOne (s : State) (k : Nat) (o : XOp) (x : At) : Except Flt W32 × State :=
  let d := s.rqDesc x
  let t := s.team (teamOf k)
  let code := s.rqCode k (some o.b) false x.1 d
  let bad := if code = 0 ∨ code = 6 then s.rqGroupBad k o.b d.words true else none
  if bad.isSome then (.error (k, bad.getD 0, 0), s)
  else
  let s := s.updTeam (teamOf k) (fun t => { t with launched := true })
  if code ≠ 0 then (.ok (codeWord code 0), s)
  else if 2 ^ d.capLog ≤ d.put - d.done then (.ok (codeWord 1 0), s)
  else
    let slot := d.slot d.put
    match s.resolve k slot (4 * d.words) .write with
    | (.error c, s) => (.error (k, c, slot), s)
    | (.ok (.spad _), s) => (.error (k, boundsCode .write 3, slot), s)
    | (.ok (.mem ps), s) =>
      let ws := BitVec.ofNat 32 d.put :: (List.range (d.words - 1)).map (fun i => s.rdAt k o.b (i + 1))
      let s := s.release k 6 0
      let bs := (ws.map (fun w => toBytes w 4)).flatten
      let s := ps.foldl (fun s p => s.l1Drop t.core (p.pa / 128)) (ps.foldl (fun s p => s.publish t.core (p.pa / 128) 0 (s.here k)) s)
      let s := (ps.foldl (fun (acc : State × List Byte) p => (acc.1.writeBytes p.key p.pa (acc.2.take p.n), acc.2.drop p.n)) (s, bs)).1
      let s := (s.rqCounter t.func t.ctx x.1 0x20 (d.put + 1)).rqCounter t.func t.ctx x.1 0x28 (d.put + 1)
      let r := s.rqAt t.func t.ctx x.1
      let s := { r.2 with rqs := Assoc.upd r.2.rqs r.1 (fun q => { q with lastPut := r.2.clock }) }
      (.ok (codeWord 0 (d.put % 2 ^ 24)), s.rqForm r.1)

def execRqPut (o : XOp) (s : State) : Out :=
  perform { ins := .rqPut o, check := checkRq o .atomic, act := actWord o.d (fun s k x => s.rqPutOne k o x) } s

/-- One thread's `rq.get`: its result group, or the cause of the slot's address. -/
def State.rqGetOne (s : State) (k : Nat) (o : XOp) (x : At) : Except Flt (List W32) × State :=
  let d := s.rqDesc x
  let t := s.team (teamOf k)
  let code := s.rqCode k (some o.d) true x.1 d
  let bad := if code = 0 ∨ code = 6 then s.rqGroupBad k o.d d.words false else none
  if bad.isSome then (.error (k, bad.getD 0, 0), s)
  else if code ≠ 0 then (.ok [codeWord code 0], s)
  else
    let range := t.rq.getD (0, 0, 0)
    if range.2.2 ≤ t.rqNext then (.ok [codeWord 1 0], s)
    else
      let slot := d.slot (range.2.1 + t.rqNext)
      match s.resolve k slot (4 * d.words) .read with
      | (.error c, s) => (.error (k, c, slot), s)
      | (.ok (.spad _), s) => (.error (k, boundsCode .read 3, slot), s)
      | (.ok (.mem ps), s) =>
        let s := ps.foldl (fun s p => s.publish t.core (p.pa / 128) 7 (s.here k)) s
        let bs := (ps.map (fun p => s.bytesAt p.key p.pa p.n)).flatten
        let ws := (List.range (d.words - 1)).map (fun i => ofBytes 32 ((bs.drop (4 * (i + 1))).take 4))
        let s := s.acquire k 6
        (.ok (codeWord 0 (t.rqNext % 2 ^ 16) :: ws), s.updTeam (teamOf k) (fun t => { t with rqNext := t.rqNext + 1 }))

/-- The threads' results of an engine instruction that writes a group each. -/
def groupAll {α : Type} (d : Src) (op : State → Nat → α → Except Flt (List W32) × State) : State → List (Nat × α) → List Result × List Flt × State
  | s, [] => ([], [], s)
  | s, (k, x) :: ks =>
    let r := op s k x
    let t := groupAll d op r.2 ks
    match r.1 with
    | .error e => (t.1, e :: t.2.1, t.2.2)
    | .ok ws => ({ k := k, dst := dstGroup d ws } :: t.1, t.2)

def actGroup {α : Type} (d : Src) (op : State → Nat → α → Except Flt (List W32) × State) (f : Focus) (s : State) (ks : List (Nat × α)) : Acted :=
  let r := groupAll d op s ks
  { actVar r.2.2 f false r.1 with faults := r.2.1 }

def execRqGet (o : XOp) (s : State) : Out :=
  perform { ins := .rqGet o, check := checkRq o .read, act := actGroup o.d (fun s k x => s.rqGetOne k o x) } s

/-- The done counter advances over contiguous finished ranges. The fuel is their number. -/
def advanceDone : Nat → Nat → List (Nat × Nat) → Nat × List (Nat × Nat)
  | 0, done, rs => (done, rs)
  | n + 1, done, rs =>
    match rs.find? (fun r => decide (r.1 = done)) with
    | none => (done, rs)
    | some r => advanceDone n (done + r.2) (rs.filter (fun x => decide (x ≠ r)))

/-- A range of a record queue is done: the done counter advances over contiguous ranges (R375). -/
def State.rqRangeDone (s : State) (r : Nat × Nat × Nat) : State :=
  match Assoc.find s.rqs r.1 with
  | none => s
  | some q =>
    match s.devRead (ckey q.func q.ctx) (q.addr.toNat + 0x38) 8 with
    | (.error _, s) => { s with rqs := Assoc.put s.rqs r.1 { q with doneRanges := q.doneRanges ++ [(r.2.1, r.2.2)] } }
    | (.ok bs, s) =>
      let rs := q.doneRanges ++ [(r.2.1, r.2.2)]
      let a := advanceDone rs.length (ofBytesNat bs) rs
      { s with rqs := Assoc.put s.rqs r.1 { q with doneRanges := a.2 } }.rqCounter q.func q.ctx q.addr 0x38 a.1

/-- Mark a team's whole range done: the records newly marked (R375). -/
def State.rqMark (s : State) (team : Nat) : Nat × State :=
  let t := s.team team
  match t.rq with
  | none => (0, s)
  | some r => if t.rqDone then (0, s) else (r.2.2, (s.setTeam team { t with rqDone := true }).rqRangeDone r)

def State.rqDoneOne (s : State) (k : Nat) (x : At) : Except Flt W32 × State :=
  let code := s.rqCode k none true x.1 (s.rqDesc x)
  if code ≠ 0 then (.ok (codeWord code 0), s)
  else
    let r := s.rqMark (teamOf k)
    (.ok (codeWord 0 (r.1 % 2 ^ 16)), r.2)

def execRqDone (o : XOp) (s : State) : Out :=
  perform { ins := .rqDone o, check := checkRq o .atomic, act := actWord o.d (fun s k x => s.rqDoneOne k x) } s

end Sys2Proof.Machine
end

