-- ==== Sys2Proof/Machine/Copies.lean ====
section
/-! DEFINITION. Asynchronous copies: `cp.el`, `cp.blk`, barges with their tags, engine gauge adds, ingress windows (R240, R242, R263 to R284, R295, R429, R457, R491, R492). -/

namespace Sys2Proof.Machine

/-! ## Request packets (R271, R272) -/

def pkQ (p : BitVec 512) (byte : Nat) : W64 := p.extractLsb' (8 * byte) 64
def pkD (p : BitVec 512) (byte : Nat) : W32 := p.extractLsb' (8 * byte) 32
def pkSrc (p : BitVec 512) : Addr80 := (pkQ p 0x18).extractLsb' 48 16 ++ pkQ p 0
def pkDst (p : BitVec 512) : Addr80 := (pkQ p 0x18).extractLsb' 32 16 ++ pkQ p 8
def pkGauge (p : BitVec 512) : Addr80 := (pkQ p 0x18).extractLsb' 16 16 ++ pkQ p 0x10
def pkInc (p : BitVec 512) : Nat := field (pkQ p 0x18) 15 0
def pkN0 (p : BitVec 512) : Nat := field (pkQ p 0x20) 63 48 + 1
def pkN1 (p : BitVec 512) : Nat := field (pkQ p 0x20) 47 32 + 1
def pkN2 (p : BitVec 512) : Nat := field (pkQ p 0x20) 31 16 + 1
/-- The signed strides: source 1 and 2 at 0x28 and 0x2C, destination 1 and 2 at 0x30 and 0x34. -/
def pkStr (p : BitVec 512) (byte : Nat) : Int := (pkD p byte).toInt
def pkCtl (p : BitVec 512) : W64 := pkQ p 0x38
def pkStype (p : BitVec 512) : Nat := field (pkCtl p) 63 59
def pkDtype (p : BitVec 512) : Nat := field (pkCtl p) 58 54
def pkRed (p : BitVec 512) : Nat := field (pkCtl p) 53 52
def pkSubst (p : BitVec 512) : Nat := field (pkCtl p) 51 49
def pkChen (p : BitVec 512) : Bool := bit (pkCtl p) 48
def pkSlot (p : BitVec 512) : Nat := field (pkCtl p) 47 33 * 16
def pkEvict (p : BitVec 512) : Nat := field (pkCtl p) 32 30

/-- Width of a single element in half bytes (R272). -/
def typeNibs (code : Nat) : Nat :=
  if code = 15 then 1
  else if code = 1 ∨ code = 5 ∨ code = 13 ∨ code = 14 ∨ code = 16 then 2
  else if code = 2 ∨ code = 6 ∨ code = 11 ∨ code = 12 ∨ code = 17 then 4
  else if code = 4 ∨ code = 8 then 16
  else 8

def nibBytes (n : Nat) : Nat := (n + 1) / 2

/-! ## Elements and barges (R264, R268, R274) -/

/-- An address in half bytes: an offset added to an address without a carry into bits [79:64] (R209). -/
def nibAddr (a : Addr80) (off : Int) : Nat :=
  2 * ((a.extractLsb' 64 16).toNat * 2 ^ 64 + (((a.extractLsb' 0 64).toNat + off / 2) % (2 ^ 64 : Int)).toNat) + (off % 2).toNat

/-- The elements of a copy in index order or seat order: source, destination (in half bytes), chamber. -/
def Copy.elements (c : Copy) : List (Nat × Nat × Option Nat) :=
  if c.isEl then c.reqs.map (fun r => (2 * r.1.toNat, 2 * r.2.1.toNat, r.2.2))
  else
    let p := c.packet
    let ch := if pkChen p then some (pkSlot p) else none
    (List.range (pkN2 p)).flatMap (fun (i2 : Nat) => (List.range (pkN1 p)).flatMap (fun (i1 : Nat) => (List.range (pkN0 p)).map (fun (i0 : Nat) =>
      (nibAddr (pkSrc p) ((i0 * typeNibs (pkStype p) : Nat) + 2 * ((i1 : Int) * pkStr p 0x28 + (i2 : Int) * pkStr p 0x2C)),
       nibAddr (pkDst p) ((i0 * typeNibs (pkDtype p) : Nat) + 2 * ((i1 : Int) * pkStr p 0x30 + (i2 : Int) * pkStr p 0x34)), ch))))

/-- The eviction priority of the copy's L2 fills; `cp.el` names none (R220, R272). -/
def Copy.pri (c : Copy) : Nat := if c.isEl then 3 else pkEvict c.packet

def Copy.srcNibs (c : Copy) : Nat := if c.isEl then 2 * c.width else typeNibs (pkStype c.packet)
def Copy.dstNibs (c : Copy) : Nat := if c.isEl then 2 * c.width else typeNibs (pkDtype c.packet)

/-- The first occurrence of each number of a list. -/
def firsts (l : List Nat) : List Nat := l.foldl (fun acc x => if acc.contains x then acc else acc ++ [x]) []

def insertNat (x : Nat) : List Nat → List Nat
  | [] => [x]
  | y :: ys => if x ≤ y then x :: y :: ys else y :: insertNat x ys

/-- The destination lines of a copy in the order of their barges' numbers (R264). -/
def Copy.lines (c : Copy) : List Nat :=
  let ls := firsts (c.elements.map (fun e => e.2.1 / 256))
  if c.isEl then ls.foldl (fun acc x => insertNat x acc) [] else ls

/-- The elements of one destination line. -/
def Copy.lineElems (c : Copy) (line : Nat) : List (Nat × Nat × Option Nat) := c.elements.filter (fun e => decide (e.2.1 / 256 = line))

/-- The bytes of a line that elements touch, each with the chamber of the last element that covers it (R268). -/
def Copy.lineBytes (c : Copy) (line : Nat) : List (Nat × Option Nat) :=
  let els := c.lineElems line
  (List.range 128).filterMap (fun i =>
    (els.filter (fun e => decide (e.2.1 % 256 / 2 ≤ i ∧ i < e.2.1 % 256 / 2 + nibBytes c.dstNibs))).getLast?.map (fun e => (i, e.2.2)))

/-! ## Values (R99, R136, R274) -/

/-- The greater or the lesser of the destination and the source value, rounded to the destination's format (R128). -/
def redMinMax (f : Fmt) (isMax : Bool) (old : Nat) (x : FVal) : Nat :=
  let d := f.decode old
  let new := (f.round .rn false x).1
  if d.isNan && x.isNan then f.nan
  else if d.isNan then new
  else if x.isNan then old
  else
    let dFirst := d.less x || (d.same x && d.isNeg && !x.isNeg)
    if dFirst != isMax then old else new

/-- An integer reduction of n bits (R77, R99). -/
def redInt (n red : Nat) (signed : Bool) (old x : Nat) : Nat :=
  let less := if signed then decide (signedNat n old < signedNat n x) else decide (old < x)
  match red with
  | 1 => (old + x) % 2 ^ n
  | 2 => if less then old else x
  | _ => if less then x else old

/-- What an element of the copy writes over the bits that stand at its destination, and whether it is a substitute (R274). -/
def Copy.conv (c : Copy) (x old : Nat) : Nat × Bool :=
  let p := c.packet
  let red := pkRed p
  if c.isEl then (x, false)
  else if red = 0 ∧ pkStype p = pkDtype p then (x, false)
  else match (Ty.ofCode (pkStype p)).bind Ty.fmt, (Ty.ofCode (pkDtype p)).bind Ty.fmt with
    | some sf, some df =>
      let v := sf.decode x
      if red = 0 then let r := df.narrow .rn false (pkSubst p) v; (r.1, decide (r.2 &&& fxSb ≠ 0))
      else if red = 1 then ((df.finish .rn false (sumVals .rn [df.decode old, v])).1, false)
      else (redMinMax df (decide (red = 3)) old v, false)
    | _, _ => (redInt (4 * typeNibs (pkDtype p)) red (decide (pkDtype p = 3 ∨ pkDtype p = 4)) old x, false)

/-! ## Checks of a request (R273, R275) -/

/-- The space that both ends of a range lie in, of a scratchpad and a weight grant of so many bytes. -/
def spaceOf (spad grant : Nat) (first last : Space) : Option Nat :=
  match first, last with
  | .global _, .global _ => some 0
  | .spad x, .spad y => if x ≤ y ∧ y < spad then some 1 else none
  | .weights x, .weights y => if x ≤ y ∧ y < grant then some 2 else none
  | _, _ => none

/-- A range of bytes from an address, offsets lo to hi, lies in one space that the engine admits, within its bounds (R265): its space. -/
def State.rangeSpace (s : State) (t : Team) (a : Addr80) (lo hi : Int) : Option Nat :=
  spaceOf t.spadSize (((Assoc.find (s.ctxOf t).grants (dieOf t.core)).getD {}).size * 65536) (decodeAddr (BitVec.ofNat 80 (nibAddr a (2 * lo) / 2))) (decodeAddr (BitVec.ofNat 80 (nibAddr a (2 * hi) / 2)))

def minInt (a b : Int) : Int := if a ≤ b then a else b
def maxInt (a b : Int) : Int := if a ≤ b then b else a

/-- The least and the greatest byte offset of a request's side. -/
def pkSpan (p : BitVec 512) (nibs at1 at2 : Nat) : Int × Int :=
  let e1 := ((pkN1 p - 1 : Nat) : Int) * pkStr p at1
  let e2 := ((pkN2 p - 1 : Nat) : Int) * pkStr p at2
  (minInt 0 e1 + minInt 0 e2, ((pkN0 p * nibs + 1) / 2 : Nat) - 1 + maxInt 0 e1 + maxInt 0 e2)

def pkTypesOk (p : BitVec 512) : Bool :=
  let a := pkStype p
  let b := pkDtype p
  (decide (a = b) && decide (1 ≤ a ∧ a ≤ 17)) || (decide (10 ≤ a ∧ a ≤ 15) && decide (10 ≤ b ∧ b ≤ 15))

def pkAligned (p : BitVec 512) : Bool :=
  let ws := nibBytes (typeNibs (pkStype p))
  let wd := nibBytes (typeNibs (pkDtype p))
  decide ((pkSrc p).toNat % ws = 0) && decide (pkStr p 0x28 % ws = 0) && decide (pkStr p 0x2C % ws = 0)
  && decide ((pkDst p).toNat % wd = 0) && decide (pkStr p 0x30 % wd = 0) && decide (pkStr p 0x34 % wd = 0)
  && (decide (pkInc p = 0) || decide ((pkGauge p).toNat % 8 = 0))

def pkReserved (p : BitVec 512) : Bool :=
  decide (field (pkQ p 0x20) 15 0 ≠ 0) || decide (field (pkCtl p) 29 0 ≠ 0) || decide (3 < pkSubst p)
  || (decide (pkSubst p ≠ 0) && decide (pkDtype p ≠ 13 ∧ pkDtype p ≠ 15))

def pkReduceOk (p : BitVec 512) : Bool :=
  let d := pkDtype p
  decide (pkRed p = 0) || (decide (d = 3 ∨ d = 4 ∨ d = 7 ∨ d = 8 ∨ d = 10 ∨ d = 11 ∨ d = 12) && (decide (10 ≤ d) || decide (pkStype p = d)))

/-- An element of the request's destination touches an armed slot. -/
def Copy.touchesArmed (c : Copy) (t : Team) : Bool :=
  c.elements.any (fun e => match decodeAddr (BitVec.ofNat 80 (e.2.1 / 2)) with
    | .spad off => t.touchesArmed off (nibBytes c.dstNibs)
    | _ => false)

/-- The code of a request's first check that fails; 0 for a valid one. -/
def State.packetCode (s : State) (c : Copy) : Nat :=
  let t := s.team c.team
  let p := c.packet
  let d := pkSpan p (typeNibs (pkDtype p)) 0x30 0x34
  let e := pkSpan p (typeNibs (pkStype p)) 0x28 0x2C
  let ds := s.rangeSpace t (pkDst p) d.1 d.2
  if !pkTypesOk p then 1
  else if ((pkStype p = 15 ∨ pkDtype p = 15) ∧ pkN0 p % 2 = 1) ∨ 2 ^ 32 - 1 < d.2 - d.1 + 1 then 2
  else if !pkAligned p then 3
  else if pkReserved p then 4
  else if (s.rangeSpace t (pkSrc p) e.1 e.2).isNone || ds.isNone || (decide (pkRed p ≠ 0) && decide (ds ≠ some 0))
      || (decide (pkInc p ≠ 0) && !globalRange (pkGauge p) 8) then 5
  else if !pkReduceOk p then 6
  else if (pkChen p && !t.armed (pkSlot p)) || (decide (ds = some 1) && c.touchesArmed t) then 7
  else 0

/-! ## Slots (R263, R491) -/

/-- Copy ids in use on a core. -/
def State.copyIds (s : State) (core : Nat) : List Nat := (s.copies.filter (fun p => p.2.live && decide (p.2.core = core))).map (fun p => p.2.id)

def State.freeCopies (s : State) (team : Nat) : Nat := 256 - (s.copyIds (s.team team).core).length

/-- A free copy id: which one, the manual leaves open. -/
def State.takeCopyId (s : State) (core : Nat) : Nat × State :=
  let used := s.copyIds core
  let free := (List.range 256).filter (fun i => !used.contains i)
  let p := s.pick
  (free.getD (p.1 % free.length) 0, p.2)

/-- Put a copy into a slot of its team's core. -/
def State.addCopy (s : State) (c : Copy) : Nat × State :=
  let i := s.takeCopyId c.core
  let n := i.2.newId
  (i.1, { n.2 with copies := Assoc.put n.2.copies n.1 { c with id := i.1 } })

/-- The copies that an instruction has made carry its done mask (R431). -/
def State.stampCopies (s : State) (since : Nat) (done : W32) : State :=
  { s with copies := Assoc.mapVals s.copies (fun n c => if since ≤ n then { c with done := done } else c) }

/-! ## cp.el (R267 to R269) -/

/-- S, D and H of a thread. -/
def State.elAddrs (s : State) (k : Nat) (o : XOp) : Addr80 × Addr80 × Nat := (s.xaddr k o.xa o.a, s.xaddr k o.xb o.b, (s.rd k o.c).toNat)

/-- The bounds code of a copy address for an access kind; none where it is admitted. -/
def State.elBounds (s : State) (t : Team) (a : Addr80) (w : Nat) (acc : Acc) : Option Nat :=
  match decodeAddr a with
  | .global _ => none
  | .spad off => if off + w ≤ t.spadSize then none else some (boundsCode acc 0)
  | .weights off => if off + w ≤ ((Assoc.find (s.ctxOf t).grants (dieOf t.core)).getD {}).size * 65536 then none else some (boundsCode acc 2)
  | .stack _ | .reserved => some (boundsCode acc 3)

/-- The checks of one thread (R269). -/
def checkCpEl (wlog : Nat) (o : XOp) (s : State) (k : Nat) : Except (Nat × Addr80) (Addr80 × Addr80 × Option Nat) × State :=
  let x := s.elAddrs k o
  let w := 2 ^ wlog
  let t := s.team (teamOf k)
  let none_ := decide (x.2.2 = 0xFFFFFFFF)
  let dOff := match decodeAddr x.2.1 with | .spad off => some off | _ => none
  (if x.1.toNat % w ≠ 0 then .error (alignCode .read wlog, x.1)
   else if x.2.1.toNat % w ≠ 0 then .error (alignCode .write wlog, x.2.1)
   else if !none_ && decide (x.2.2 % 16 ≠ 0) then .error (0x80 + 8 * 6 + 4, BitVec.ofNat 80 x.2.2)
   else match s.elBounds t x.1 w .read with
     | some c => .error (c, x.1)
     | none =>
       match s.elBounds t x.2.1 w .write with
       | some c => .error (c, x.2.1)
       | none =>
         if !none_ && !t.armed x.2.2 then .error (codeNotArmed, BitVec.ofNat 80 x.2.2)
         else if (match dOff with | some off => t.touchesArmed off w | none => false) then .error (codeChamberAccess, x.2.1)
         else .ok (x.1, x.2.1, if none_ then none else some x.2.2), s)

/-- The requests of the instruction become one copy; with no free slot the group does not issue (R491). -/
def actCpEl (i : Instr) (wlog : Nat) (o : XOp) (f : Focus) (s : State) (ks : List (Nat × (Addr80 × Addr80 × Option Nat))) : Acted :=
  let t := s.team f.team
  if decide (s.freeCopies f.team = 0) && !(s.activeFor i).isEmpty then { s := s.holdBack (ckey t.func t.ctx), stay := ks.map (fun x => x.1) }
  else match ks with
  | [] => { s := s }
  | k :: _ =>
    { s := (s.addCopy { team := f.team, thread := k.1, pc := f.pc, tcount := t.tcount, core := t.core, id := 0, live := true, scope := Scope.code o.scope, packet := 0, isEl := true, width := 2 ^ wlog, reqs := ks.map (fun x => x.2), done := maskOf (ks.map (fun x => seatOf x.1)) }).2 }

def cpElLog (wlog : Fin 3) : Nat := wlog.val + 2

def execCpEl (wlog : Fin 3) (o : XOp) (s : State) : Out :=
  perform { ins := .cpEl wlog o, check := checkCpEl (cpElLog wlog) o, act := actCpEl (.cpEl wlog o) (cpElLog wlog) o } s

/-! ## cp.blk (R270 to R275) -/

def State.blkOne (s : State) (pc : W64) (k : Nat) (o : XOp) (x : At) : Except Flt W32 × State :=
  match s.readBlock k x 64 with
  | (.error c, s) => (.error (k, c, x.1), s)
  | (.ok bs, s) =>
    let t := s.team (teamOf k)
    let c : Copy := { team := teamOf k, thread := k, pc := pc, tcount := t.tcount, core := t.core, id := 0, live := true, scope := Scope.code o.scope, packet := ofBytes 512 bs, isEl := false, width := 0, reqs := [] }
    let code := s.packetCode c
    if code ≠ 0 then (.ok (codeWord code 0), s)
    else let r := s.addCopy c; (.ok (codeWord 0 r.1), r.2)

def actCpBlk (o : XOp) (f : Focus) (s : State) (ks : List (Nat × At)) : Acted :=
  let a := actWord o.d (fun s k x => s.blkOne f.pc k o x) f s ks
  let bad := a.faults.map (fun x => x.1)
  { a with s := a.s.stampCopies s.nextId (maskOf ((ks.filter (fun x => !bad.contains x.1)).map (fun x => seatOf x.1))) }

def execCpBlk (o : XOp) (s : State) : Out :=
  perform { ins := .cpBlk o, check := serveCheck (.cpBlk o) State.freeCopies (fun s k => s.blockCheckIn k (s.xaddr k o.xa o.a) 64),
            act := actServed (.cpBlk o) State.freeCopies (actCpBlk o) } s

/-! ## Faults of a copy (R277, R429) -/

def State.copyOf (s : State) (id : Nat) : Copy := (Assoc.find s.copies id).getD { team := 0, thread := 0, pc := 0, tcount := 0, core := 0, id := 0, live := false, scope := 0, packet := 0, isEl := true, width := 4, reqs := [] }

/-- The chambers a copy names. -/
def Copy.chambers (c : Copy) : List Nat :=
  if c.isEl then firsts (c.reqs.filterMap (fun r => r.2.2)) else if pkChen c.packet then [pkSlot c.packet] else []

def Copy.inc (c : Copy) : Nat := if c.isEl then 0 else pkInc c.packet

/-- Every barge is acknowledged, or the copy has failed and nothing is under way. -/
def Copy.finished (c : Copy) : Bool := c.barges.isEmpty && (c.failed || decide (c.lines.length ≤ c.low))

/-- When every barge is acknowledged and every raise made, the gauge add is sent (R274, R277); off its core a copy has no tag (R295). -/
def State.copySettle (s : State) (id : Nat) : State :=
  match Assoc.find s.copies id with
  | none => s
  | some c =>
    if c.finished && decide (c.inc ≠ 0) && !c.gaugeSent then
      let t := s.team c.team
      let n := s.newId
      { n.2 with copies := Assoc.put n.2.copies id { c with gaugeSent := true },
                 gadds := Assoc.put n.2.gadds n.1 { team := c.team, thread := c.thread, func := t.func, ctx := t.ctx, addr := pkGauge c.packet, amount := c.inc, path := 1, scope := c.scope, pc := c.pc, tcount := c.tcount, tag := if c.live then some (c.core, c.id) else none, owner := id, done := c.done } }
    else s

/-- A copy fails: no further barge, fs of its chambers, a late cause; the gauge add still comes. -/
def State.copyFail (s : State) (id reason : Nat) (addr : Addr80) (cause : Bool) : State :=
  match Assoc.find s.copies id with
  | none => s
  | some c =>
    let s := { s with copies := Assoc.put s.copies id { c with failed := true, suspended := none } }
    let s := c.chambers.foldl (fun s o => s.chFault c.team o) s
    let s := if cause then s.lateCause c.team c.thread c.pc c.tcount (0x240 + reason) addr c.done else s
    s.copySettle id

/-- A translation of a copy that fails: it is suspended on a token, or fails, its fault reported too (R277, R390). An address beyond what its space holds ends it as one of a wrong size (DESIGN CHOICE, log 87). -/
def State.copyFault (s : State) (id : Nat) (c : Copy) (va : Nat) (x : Xlat) (a : Acc) : State :=
  match x with
  | .fault f =>
    let r := s.raiseToken (s.teamFault c.team va 1) f a (if f.waits then [.copy id] else [])
    if f.waits then { r.2 with copies := Assoc.put r.2.copies id { c with suspended := some r.1, faultAt := BitVec.ofNat 80 va } }
    else r.2.copyFail id f.reason (BitVec.ofNat 80 va) true
  | .aperture => s.copyFail id 3 (BitVec.ofNat 80 va) true
  | _ => s.copyFail id 1 (BitVec.ofNat 80 va) true

/-- Where n bytes of the weight store from an offset stand for a team; none beyond the grant of the die it is on (R215). -/
def State.weightPlace (s : State) (t : Team) (off n : Nat) : Option Nat :=
  let g := (Assoc.find (s.ctxOf t).grants (dieOf t.core)).getD {}
  if off + n ≤ g.size * 65536 then some (wsBase (dieOf t.core) + g.base * 65536 + off) else none

/-! ## Barges (R264, R276, R278, R279) -/

/-- The lowest barge in the progress window that is neither acknowledged nor under way. -/
def Copy.next (c : Copy) : Option Nat :=
  let n := c.lines.length
  (List.range 64).findSome? (fun i => if c.low + i < n && !c.map.getLsbD i && (Assoc.find c.barges (c.low + i)).isNone then some (c.low + i) else none)

/-- The half-byte field of a byte list. -/
def nibsOf (bs : List Byte) (nib nibs : Nat) : Nat := ofBytesNat bs / 2 ^ (4 * nib) % 2 ^ (4 * nibs)

/-- Read one source element: its bits and whether they are poisoned, or the translation that fails. -/
def State.readElem (s : State) (c : Copy) (src : Nat) : Except (Nat × Xlat) (Nat × Bool) × State :=
  let t := s.team c.team
  let a : Addr80 := BitVec.ofNat 80 (src / 2)
  let n := nibBytes c.srcNibs
  match decodeAddr a with
  | .spad off => (.ok (nibsOf (s.spadLoad c.team off n) (src % 2) c.srcNibs, t.spadPoisoned off n), s)
  | .weights off =>
    (match s.weightPlace t off n with
      | some pa => .ok (nibsOf (s.bytesAt 0 pa n) (src % 2) c.srcNibs, s.poisoned (pa / 128))
      | none => .error (a.toNat, .aperture), s)
  | .global va =>
    match s.engRead t.core (ckey t.func t.ctx) va n .read c.pri with
    | (.ok x, s) => (.ok (nibsOf x.1 (src % 2) c.srcNibs, x.2), s)
    | (.error x, s) => (.error (va, x), s)
  | _ => (.ok (0, false), s)

/-- Read the elements of a barge. -/
def State.readElems (s : State) (c : Copy) : List (Nat × Nat × Option Nat) → Except (Nat × Xlat) (List (Nat × Nat × Bool)) × State
  | [] => (.ok [], s)
  | e :: es =>
    match s.readElem c e.1 with
    | (.error x, s) => (.error x, s)
    | (.ok v, s) =>
      match State.readElems s c es with
      | (.error x, s) => (.error x, s)
      | (.ok vs, s) => (.ok ((e.2.1 % 256, v.1, v.2) :: vs), s)

/-- The barge of a destination line with its place, or the translation that fails. -/
def State.makeBarge (s : State) (c : Copy) (line : Nat) : Except (Nat × Xlat × Acc) Barge × State :=
  let t := s.team c.team
  match s.readElems c (c.lineElems line) with
  | (.error x, s) => (.error (x.1, x.2, .read), s)
  | (.ok els, s) =>
    match decodeAddr (BitVec.ofNat 80 (line * 128)) with
    | .spad off => (.ok { space := 1, line := off, elems := els, state := 1 }, s)
    | .weights off =>
      (match s.weightPlace t off 128 with
        | some pa => .ok { space := 2, line := line, pa := pa, elems := els, state := 1 }
        | none => .error (line * 128, .aperture, .write), s)
    | _ =>
      let a : Acc := if !c.isEl && decide (pkRed c.packet ≠ 0) then .atomic else .write
      let va := ((c.lineElems line).head?.map (fun e => e.2.1 / 2)).getD (line * 128)
      match s.translateW deviceAgent (ckey t.func t.ctx) va a with
      | (.ok pa key _ _ _, s) => (.ok { space := 0, line := line, pa := pa / 128 * 128, key := key, elems := els, state := 1 }, s)
      | (x, s) => (.error (va, x, a), s)

/-- Barges under way on a core. -/
def State.inFlight (s : State) (core : Nat) : Nat :=
  ((s.copies.filter (fun p => p.2.live && decide (p.2.core = core))).map (fun p => p.2.barges.length)).foldl (· + ·) 0

/-- The team's engine work may go on: it stands on its core and does not leave it (R295). -/
def Team.engines (t : Team) : Bool := t.onCore t.core && t.saveAs.isNone

/-- The engine issues the next barge of a copy. -/
def State.issueBarge (s : State) (id : Nat) (c : Copy) : State :=
  match c.next with
  | none => s.copySettle id
  | some seq =>
    match s.makeBarge c (c.lines.getD seq 0) with
    | (.ok b, s) => { s with copies := Assoc.put s.copies id { c with barges := Assoc.put c.barges seq b } }
    | (.error (va, x, a), s) => s.copyFault id c va x a

/-- A restored copy takes a slot and a tag as one frees (R295). -/
def State.slotCopy (s : State) (id : Nat) (c : Copy) : State :=
  if s.freeCopies c.team = 0 then s
  else
    let core := (s.team c.team).core
    let i := s.takeCopyId core
    { i.2 with copies := Assoc.put i.2.copies id { c with live := true, core := core, id := i.1 } }

/-- BARGE_ISSUE (R264, R276). -/
def execBargeIssue (copy : Nat) (s : State) : Out :=
  match Assoc.find s.copies copy with
  | none => .next s
  | some c =>
    .next (if !(s.team c.team).engines then s
      else if !c.live then s.slotCopy copy c
      else if c.failed || c.suspended.isSome || decide (4096 ≤ s.inFlight c.core) then s
      else s.issueBarge copy c)

/-- The tag of a barge in the deduplication windows: core, copy id, sequence number. -/
def tagKey (core id seq : Nat) : Nat := (core * 256 + id) * 2 ^ 32 + seq

/-- The tags a home agent holds. -/
def State.tagsAt (s : State) (slice : Nat) : Nat := (s.mod.dedup.filter (fun p => decide (p.2 = slice))).length

def State.addTag (s : State) (key slice : Nat) : State := s.updMod (fun m => { m with dedup := Assoc.put m.dedup key slice })

/-- A line with the barge's elements put in, and whether a substitute was written. -/
def Copy.merge (c : Copy) (b : Barge) (old : BitVec 1024) : BitVec 1024 × Bool :=
  b.elems.foldl (fun acc e =>
    let w := 4 * c.dstNibs
    let at_ := 4 * e.1
    let o := acc.1.toNat / 2 ^ at_ % 2 ^ w
    let v := c.conv e.2.1 o
    (BitVec.ofNat 1024 (acc.1.toNat - o * 2 ^ at_ + v.1 % 2 ^ w * 2 ^ at_), acc.2 || v.2)) (old, false)

def Copy.maskOf (c : Copy) (b : Barge) : BitVec 128 := b.elems.foldl (fun m e => m ||| lineMask (e.1 / 2) (nibBytes c.dstNibs)) 0

def State.noteSubst (s : State) (team : Nat) (b : Bool) : State := if b then s.updTeam team (fun t => { t with subst := true }) else s

/-- A barge into memory or the weight store is performed (R228, R241, R457). -/
def State.bargeHome (s : State) (c : Copy) (b : Barge) : State :=
  let ln := b.pa / 128
  let t := s.team c.team
  let r := c.merge b (s.lineAt b.key ln)
  let bad := b.elems.any (fun e => e.2.2) || (!c.isEl && decide (pkRed c.packet ≠ 0) && s.poisoned ln)
  let s := (if ln < 2 ^ 45 then (s.writeMasked b.key ln (c.maskOf b) r.1).touch t.core (ckey t.func t.ctx) (b.line * 128) b.pa b.key false true c.pri else s.weightWrite ln (c.maskOf b) r.1).noteSubst c.team r.2
  if bad then s.poisonLine ln else s

/-- A barge into the scratchpad is performed: bytes in an armed slot are not written and set its fs (R287). -/
def State.bargeSpad (s : State) (c : Copy) (b : Barge) : State :=
  let r := c.merge b (ofBytes 1024 (s.spadLoad c.team b.line 128))
  let mask := c.maskOf b
  let cells := ((List.range 128).filter (fun i => mask.getLsbD i)).map (fun i => (b.line + i, byteOf r.1 i))
  let s := ((s.applyCells c.team cells).2).noteSubst c.team r.2
  let bad := (b.elems.filter (fun e => e.2.2)).map (fun e => (b.line + e.1 / 2) / 4)
  if bad = [] then s else s.updTeam c.team (fun t => { t with spadPoison := t.spadPoison ++ bad.filter (fun w => !t.spadPoison.contains w) })

/-- BARGE_PERFORM (R278): performed once; with its tag in the window only acknowledged; refused by a full window, or under a key that is no more: it is then translated anew (R399). -/
def State.performBarge (s : State) (id seq : Nat) (c : Copy) (b : Barge) : State :=
  let put := fun (s : State) (b : Barge) => { s with copies := Assoc.put s.copies id { c with barges := Assoc.put c.barges seq b } }
  if b.space = 1 then put (s.bargeSpad c b) { b with state := 2 }
  else if b.space = 2 then put (s.bargeHome c b) { b with state := 2 }
  else
    let key := tagKey c.core c.id seq
    let slice := homeSlice (b.pa / 128)
    if (Assoc.find s.mod.dedup key).isSome then put s { b with state := 2 }
    else if decide (8192 ≤ s.tagsAt slice) || (s.checkPa b.pa b.key 0 4 false).toOption.isNone then { s with copies := Assoc.put s.copies id { c with barges := Assoc.del c.barges seq } }
    else put ((s.bargeHome c b).addTag key slice) { b with state := 2 }

def execBargePerform (copy seq : Nat) (s : State) : Out :=
  match Assoc.find s.copies copy with
  | none => .next s
  | some c =>
    match Assoc.find c.barges seq with
    | none => .next s
    | some b => .next (if b.state = 1 then s.performBarge copy seq c b else s)

/-- Acknowledge a barge in the progress record. -/
def Copy.ack (c : Copy) (seq : Nat) : Copy :=
  let map := c.map ||| (1#64 <<< (seq - c.low))
  let n := ((List.range 64).takeWhile (fun i => map.getLsbD i)).length
  { c with barges := Assoc.del c.barges seq, low := c.low + n, map := map >>> n }

/-- The raises of an acknowledged barge: for each chamber its own bytes (R268, R274, R276). -/
def State.bargeRaises (s : State) (c : Copy) (line : Nat) : State :=
  let bs := c.lineBytes line
  (c.chambers.foldl (fun acc o => insertNat o acc) []).foldl (fun s o =>
    let n := (bs.filter (fun x => decide (x.2 = some o))).length
    if n = 0 then s else s.chRaise c.team o n 0 (s.enginePos c.thread c.tcount c.pc c.done)) s

/-- BARGE_ACK (R276). -/
def State.ackBarge (s : State) (id seq : Nat) (c : Copy) : State :=
  let s := s.bargeRaises c (c.lines.getD seq 0)
  ({ s with copies := Assoc.put s.copies id (c.ack seq) }).copySettle id

def execBargeAck (copy seq : Nat) (s : State) : Out :=
  match Assoc.find s.copies copy with
  | none => .next s
  | some c =>
    match Assoc.find c.barges seq with
    | none => .next s
    | some b => .next (if b.state = 2 then s.atomically (fun s => s.ackBarge copy seq c) else s)

/-- BARGE_RESEND: the acknowledgement was lost; the barge is sent again under its tag (R279). Barges that carry no tag are performed in place and lose none. -/
def execBargeResend (copy seq : Nat) (s : State) : Out :=
  match Assoc.find s.copies copy with
  | none => .next s
  | some c =>
    match Assoc.find c.barges seq with
    | none => .next s
    | some b => .next (if b.state = 2 ∧ b.space = 0 then { s with copies := Assoc.put s.copies copy { c with barges := Assoc.put c.barges seq { b with state := 1 } } } else s)

/-- The tag's entries in the windows are freed. -/
def State.retireTag (s : State) (core id : Nat) : State :=
  s.updMod (fun m => { m with dedup := m.dedup.filter (fun p => decide (p.1 / 2 ^ 32 ≠ core * 256 + id)) })

/-- A copy's tag is retired; off its core it has none (R278, R295). -/
def State.retireOf (s : State) (c : Copy) : State := if c.live then s.retireTag c.core c.id else s

/-- A gauge add of the copy is still to be performed. -/
def State.copyAdds (s : State) (id : Nat) : Bool := s.gadds.any (fun p => decide (p.2.path = 1) && decide (p.2.owner = id))

/-- The copy has come to its end: gauge added, or none to add. -/
def State.copyDone (s : State) (id : Nat) (c : Copy) : Bool := c.finished && (decide (c.inc = 0) || (c.gaugeSent && !s.copyAdds id))

/-- TAG_RETIRE: the copy's tag is retired, and its slot and id are free (R278). -/
def execTagRetire (copy : Nat) (s : State) : Out :=
  match Assoc.find s.copies copy with
  | none => .next s
  | some c => .next (if s.copyDone copy c then { (s.retireOf c) with copies := Assoc.del s.copies copy } else s)

/-- A copy of a leaving team with nothing under way: its tag is retired and it goes into the frame; a gauge add not yet performed comes again after the restore (R295). -/
def State.saveCopy (s : State) (id : Nat) (c : Copy) : State :=
  let s := s.retireTag c.core c.id
  if s.copyDone id c then { s with copies := Assoc.del s.copies id }
  else
    let c := if s.copyAdds id then { c with gaugeSent := false } else c
    { s with copies := Assoc.put s.copies id { c with live := false, suspended := none }, gadds := s.gadds.filter (fun p => !(decide (p.2.path = 1) && decide (p.2.owner = id))) }

/-- COPY_SAVE (R295). -/
def execCopySave (copy : Nat) (s : State) : Out :=
  match Assoc.find s.copies copy with
  | none => .next s
  | some c => .next (if c.live && !(s.team c.team).engines && c.barges.isEmpty then s.saveCopy copy c else s)

/-- The end of a copy's wait on a token (R394): action 0 lets it go on, action 1 fails it with reason 0. -/
def State.copyResume (s : State) (id action : Nat) : State :=
  match Assoc.find s.copies id with
  | none => s
  | some c =>
    if c.suspended.isNone then s
    else if action = 0 then { s with copies := Assoc.put s.copies id { c with suspended := none } }
    else s.copyFail id 0 c.faultAt true

/-! ## Engine gauge adds (R492) -/

/-- The engine number of a path in causes: copy, matrix, collective, ingress (R426). -/
def pathEngine (path : Nat) : Nat := if path = 1 then 0 else if path = 2 then 1 else if path = 3 then 4 else 5

def State.ingress (s : State) (func slot : Nat) : Ingress := (Assoc.find (s.func func).iw slot).getD {}
def State.updIngress (s : State) (func slot : Nat) (g : Ingress → Ingress) : State :=
  s.updFunc func (fun f => { f with iw := Assoc.put f.iw slot (g ((Assoc.find f.iw slot).getD {})) })

def Ingress.disarm (w : Ingress) : Ingress := { w with armed := false }

/-- A drop is counted, its reason kept (R280, R283). -/
def Ingress.drop (w : Ingress) (reason : Nat) : Ingress := { w with drops := Nat.min (w.drops + 1) 0xFFFFFFFF, reason := reason }

/-- The add is over; a matrix operation that waited for it alone goes (R173). -/
def State.gaddOver (s : State) (id : Nat) (g : GAdd) : State :=
  let s := { s with gadds := Assoc.del s.gadds id }
  if g.path = 2 ∨ g.path = 3 then { s with mops := Assoc.del s.mops g.owner } else s

/-- The add is lost: an ingress signal counts as a drop and disarms; of an operation, a late cause stands with its thread. -/
def State.gaddFail (s : State) (id : Nat) (g : GAdd) (reason : Nat) : State :=
  let s := s.gaddOver id g
  if g.path = 4 then s.updIngress g.func g.owner (fun w => (w.drop 1).disarm)
  else s.lateCause g.team g.thread g.pc g.tcount (0x240 + 8 * pathEngine g.path + reason) g.addr g.done

/-- The add is performed at its home agent, once under its tag (R242, R278). -/
def State.gaddHome (s : State) (id : Nat) (g : GAdd) (pa key : Nat) : State :=
  let slice := homeSlice (pa / 128)
  let done := fun (s : State) => s.gaddOver id g
  let add := fun (s : State) =>
    let p := s.enginePos g.thread g.tcount g.pc g.done
    let s := s.logEvent 4 { p with ctx := ckey g.func g.ctx } { payload := g.addr.toNat + g.path * 2 ^ 80 }
    (s.writeNum key pa 8 ((s.numAt key pa 8 + g.amount) % 2 ^ 64)).touch (s.team g.team).core (ckey g.func g.ctx) g.addr.toNat pa key false true
  match g.tag with
  | none => done (add s)
  | some (core, cid) =>
    let k := tagKey core cid 0xFFFFFFFF
    if (Assoc.find s.mod.dedup k).isSome then done s
    else if 8192 ≤ s.tagsAt slice then s
    else done ((add s).addTag k slice)

/-- One engine gauge add: translated with access atomic, performed, waiting, or lost; an add that is lost reports its fault all the same (R390, R492). A queued raise of an ingress window is made. -/
def State.doGadd (s : State) (id : Nat) (g : GAdd) : State :=
  match g.raise with
  | some off => (s.chRaise g.team off g.amount 3 (s.posOf g.thread g.tcount)).gaddOver id g
  | none =>
  match s.translateW deviceAgent (ckey g.func g.ctx) g.addr.toNat .atomic with
  | (.ok pa key _ _ _, s) => s.gaddHome id g pa key
  | (.fault f, s) =>
    if g.path = 4 then s.gaddFail id g f.reason
    else
      let waits := decide (f.reason = 0 ∨ f.reason = 4 ∨ f.reason = 5)
      let r := s.raiseToken (s.teamFault g.team g.addr.toNat (if g.path = 1 then 1 else 2)) f .atomic (if waits then [.gadd id] else [])
      if waits then { r.2 with gadds := Assoc.put r.2.gadds id { g with token := some r.1 } } else r.2.gaddFail id g f.reason
  | (.aperture, s) => s.gaddFail id g 3
  | (_, s) => s.gaddFail id g 1

/-- Signals of a port follow the order of its writes (R282). -/
def State.gaddFirst (s : State) (id : Nat) (g : GAdd) : Bool :=
  decide (g.path ≠ 4) || s.gadds.all (fun p => decide (p.2.path ≠ 4) || decide (p.2.func ≠ g.func) || decide (id ≤ p.1))

/-- ENGINE_GAUGE_ADD (R492). -/
def execEngineGaugeAdd (add : Nat) (s : State) : Out :=
  match Assoc.find s.gadds add with
  | none => .next s
  | some g => .next (if g.token.isNone && s.gaddFirst add g then s.atomically (fun s => s.doGadd add g) else s)

/-- The end of an add's wait on a token. -/
def State.gaddResume (s : State) (id action : Nat) : State :=
  match Assoc.find s.gadds id with
  | none => s
  | some g => if action = 0 then { s with gadds := Assoc.put s.gadds id { g with token := none } } else s.gaddFail id g 0

/-! ## Ingress windows (R280 to R284) -/

def Ingress.en (w : Ingress) : Bool := bit w.bar 0
def Ingress.start (w : Ingress) : Nat := field w.bar 63 16 * 65536
def Ingress.bytes (w : Ingress) : Nat := (w.size + 1) * 65536

/-- The ingress descriptor's fields (R281). -/
structure IngDesc where
  base : Addr80
  gptr : Addr80
  slot : Nat
  kind : Nat
  perWrite : Bool
  chamber : Nat
  scope : Nat
  reserved : Bool

def IngDesc.ofBytes (bs : List Byte) : IngDesc :=
  let w := ofBytesNat bs
  let ctl := fld w 128 64
  { base := BitVec.ofNat 80 (fld w 0 64 + fld ctl 48 16 * 2 ^ 64), gptr := BitVec.ofNat 80 (fld w 64 64 + fld ctl 32 16 * 2 ^ 64), slot := fld ctl 26 6,
    kind := fld ctl 24 2, perWrite := fbit ctl 23, chamber := fld ctl 8 15 * 16, scope := fld ctl 5 3, reserved := decide (fld ctl 0 5 ≠ 0 ∨ fld w 192 64 ≠ 0) }

/-- The window belongs to the team's context: its queue slot's queue is bound to it. -/
def State.ownsWindow (s : State) (t : Team) (w : Ingress) : Bool :=
  match s.hwQueue t.func w.queue with
  | some q => let x := s.queue q
    x.bound && decide (x.func = t.func) && decide (x.ctx = t.ctx)
  | none => false

/-- The code of the first check of `cp.ing` that fails. -/
def State.ingCode (s : State) (team : Nat) (d : IngDesc) : Nat :=
  let t := s.team team
  let w := s.ingress t.func d.slot
  if d.base.toNat % 65536 ≠ 0 ∨ (d.kind = 0 ∧ d.gptr.toNat % 8 ≠ 0) then 1
  else if !w.en || !s.ownsWindow t w || (if d.kind = 2 then !(w.armed && decide (w.team = team)) else w.armed) then 2
  else if d.reserved || decide (d.kind = 3) || (decide (d.kind = 0) && decide (d.scope < 5 ∨ 7 < d.scope)) then 3
  else if !globalRange d.base 1 || (decide (d.kind = 0) && !globalRange d.gptr 8) then 4
  else if d.kind = 1 ∧ t.armed d.chamber = false then 5
  else 0

/-- The checks before the read: a misaligned descriptor is not read. -/
def checkIng (o : XOp) (s : State) (k : Nat) : Except (Nat × Addr80) (Option At) × State :=
  let a := s.xaddr k o.xa o.a
  if a.toNat % 32 ≠ 0 then (.ok none, s)
  else match s.blockCheckIn k a 32 with
    | (.ok x, s) => (.ok (some x), s)
    | (.error e, s) => (.error e, s)

def State.ingOne (s : State) (pc : W64) (k : Nat) (x : Option At) : Except Flt W32 × State :=
  match x with
  | none => (.ok (codeWord 1 0), s)
  | some x =>
    match s.readBlock k x 32 with
    | (.error c, s) => (.error (k, c, x.1), s)
    | (.ok bs, s) =>
      let d := IngDesc.ofBytes bs
      let t := s.team (teamOf k)
      let code := s.ingCode (teamOf k) d
      if code ≠ 0 then (.ok (codeWord code d.slot), s)
      else if d.kind = 2 then (.ok (codeWord 0 d.slot), s.updIngress t.func d.slot Ingress.disarm)
      else (.ok (codeWord 0 d.slot), s.updIngress t.func d.slot (fun w => { w with armed := true, team := teamOf k, thread := k, pc := pc, armCount := t.tcount, base := d.base, gptr := d.gptr, kind := d.kind, perWrite := d.perWrite, chamber := d.chamber, scope := d.scope }))

def execCpIng (o : XOp) (s : State) : Out :=
  perform { ins := .cpIng o, check := checkIng o, act := fun f s ks => actWord o.d (fun s k x => s.ingOne f.pc k x) f s ks } s

/-- IW_BAR_WRITE (R280): en from 1 to 0 disarms; from 0 to 1 clears drops and reason; other fields are kept while en is 1. -/
def Ingress.writeBar (w : Ingress) (v : W64) : Ingress :=
  if w.en then (if bit v 0 then w else { w with bar := w.bar &&& ~~~1#64, armed := false })
  else
    let w := { w with bar := (v &&& 0xFFFFFFFFFFFF0000#64) ||| (v &&& 1#64) }
    if bit v 0 then { w with drops := 0, reason := 0, dropPosted := false } else w

def execIwBarWrite (func slot : Nat) (value : W64) (s : State) : Out :=
  .next (if s.hostOpen && decide (slot < 64) then s.updIngress func slot (fun w => w.writeBar value) else s)

/-- The lowest-numbered enabled window of a function that holds a BAR2 offset. -/
def State.windowAt (s : State) (func offset : Nat) : Option Nat :=
  (List.range 64).find? (fun i => let w := s.ingress func i; w.en && decide (w.start ≤ offset) && decide (offset < w.start + w.bytes))

/-- A write is dropped whole (R283): counted, with one record to ring 0 since the window was enabled. -/
def State.dropWrite (s : State) (func slot offset reason : Nat) : State :=
  let w := s.ingress func slot
  let s := s.updIngress func slot (fun w => { w.drop reason with dropPosted := true, armed := w.armed && decide (reason ≠ 3) })
  if w.dropPosted then s else s.postEvent func 0 { kind := 4, faddr := BitVec.ofNat 64 offset }

/-- The places of a write's line pieces; none where one of them does not translate. -/
def State.ingPieces (s : State) (ctx : Nat) : List (Nat × Nat) → Option (List Piece) × State
  | [] => (some [], s)
  | p :: ps =>
    match s.translateW deviceAgent ctx p.1 .write with
    | (.ok pa key sealed _ _, s) =>
      (match State.ingPieces s ctx ps with
        | (some r, s) => (some ({ pa := pa, n := p.2, key := key, sealed := sealed, va := p.1 } :: r), s)
        | (none, s) => (none, s))
    | (_, s) => (none, s)

/-- The signal of a performed write: a raise, or an engine gauge add; it waits for the signals of earlier writes of its port (R282). -/
def State.ingSignal (s : State) (func slot n : Nat) : State :=
  let w := s.ingress func slot
  let t := s.team w.team
  let amount := if w.perWrite then 1 else n
  if w.kind = 1 ∧ s.gadds.all (fun p => decide (p.2.path ≠ 4 ∨ p.2.func ≠ func)) = true then s.chRaise w.team w.chamber n 3 (s.posOf w.thread w.armCount)
  else
    let g := s.newId
    let raise := if w.kind = 1 then some w.chamber else none
    { g.2 with gadds := Assoc.put g.2.gadds g.1 { team := w.team, thread := w.thread, func := func, ctx := t.ctx, addr := w.gptr, amount := if w.kind = 1 then n else amount, path := 4, scope := w.scope, pc := w.pc, tcount := w.armCount, raise := raise, owner := slot } }

/-- A write inside an enabled window (R282, R283). -/
def State.ingWrite (s : State) (func slot offset : Nat) (data : List Byte) : State :=
  let w := s.ingress func slot
  let t := s.team w.team
  if !w.armed then s.dropWrite func slot offset 4
  else if w.start + w.bytes < offset + data.length then s.dropWrite func slot offset 2
  else if w.kind = 1 ∧ t.armed w.chamber = false then s.dropWrite func slot offset 3
  else
    match s.ingPieces (ckey func t.ctx) (piecesOf (w.base.toNat + (offset - w.start)) data.length) with
    | (none, s) => s.dropWrite func slot offset 1
    | (some ps, s) =>
      let s := s.logEvent 0x0A (s.posTeam w.team) { payload := slot + (offset - w.start) % 2 ^ 32 * 2 ^ 32 + data.length * 2 ^ 64, match_ := 2 ^ 32 - 1, value := 2 ^ 96 - 2 ^ 32 }
      let s := (ps.foldl (fun (acc : State × List Byte) p =>
        ((acc.1.writeBytes p.key p.pa (acc.2.take p.n)).touchIn 0 3 (ckey func t.ctx) p.va p.pa p.key p.sealed true, acc.2.drop p.n)) (s, data)).1
      s.ingSignal func slot data.length

/-- A write at the port: performed in its turn, after those that the port still holds; one that a log holds back stays at the port (R282, R320, R323). -/
def State.ingHeld (s : State) (func : Nat) : List (Nat × List Byte) → State
  | [] => s.updFunc func (fun f => { f with iwHeld := [] })
  | (offset, data) :: rest =>
    match s.windowAt func offset with
    | none => State.ingHeld s func rest
    | some slot =>
      let s' := s.ingWrite func slot offset data
      match s'.missed with
      | none => State.ingHeld s' func rest
      | some c => (s.backOut s' c).updFunc func (fun f => { f with iwHeld := (offset, data) :: rest })

/-- INGRESS_WRITE (R282, R283). -/
def execIngressWrite (func offset : Nat) (data : List Byte) (s : State) : Out :=
  .next (if !s.hostOpen then s
    else match s.windowAt func offset with
      | none => s
      | some _ => s.ingHeld func ((s.func func).iwHeld ++ [(offset, data)]))

/-- The windows of a team disarm at its end (R284). -/
def State.disarmAll (s : State) (team : Nat) : State :=
  let f := (s.team team).func
  (Assoc.keys (s.func f).iw).foldl (fun s i => s.updIngress f i (fun w => if w.team = team then w.disarm else w)) s

end Sys2Proof.Machine
end

