-- ==== Sys2Proof/Machine/Matrix.lean ====
section
/-! DEFINITION. The matrix engine: parameter blocks, acceptance, row steps with their summation order, drains, suspension, saving, aborts and reduction collectives (R94 to R97, R158 to R178, R429, R457, R468). -/

namespace Sys2Proof.Machine

/-! ## The parameter block (R161 to R164) -/

def mbQ (b : BitVec 1024) (byte : Nat) : W64 := b.extractLsb' (8 * byte) 64
def mbD (b : BitVec 1024) (byte : Nat) : Nat := (b.extractLsb' (8 * byte) 32).toNat
/-- A pointer with its upper bits from one of the two words of high halves. -/
def mbPtr (b : BitVec 1024) (low hiWord hiBit : Nat) : Addr80 := (mbQ b hiWord).extractLsb' hiBit 16 ++ mbQ b low
def mbA (b : BitVec 1024) : Addr80 := mbPtr b 0x00 0x30 48
def mbB (b : BitVec 1024) : Addr80 := mbPtr b 0x08 0x30 32
def mbC (b : BitVec 1024) : Addr80 := mbPtr b 0x10 0x30 16
def mbDst (b : BitVec 1024) : Addr80 := mbPtr b 0x18 0x30 0
def mbAs (b : BitVec 1024) : Addr80 := mbPtr b 0x20 0x38 48
def mbBs (b : BitVec 1024) : Addr80 := mbPtr b 0x28 0x38 32
def mbGauge (b : BitVec 1024) : Addr80 := mbPtr b 0x68 0x38 16
def mbShape (b : BitVec 1024) : W64 := mbQ b 0x58
def mbFmt (b : BitVec 1024) : W64 := mbQ b 0x60
def mbColl (b : BitVec 1024) : W64 := mbQ b 0x70
def mbM (b : BitVec 1024) : Nat := field (mbShape b) 55 48 + 1
def mbN (b : BitVec 1024) : Nat := field (mbShape b) 47 40 + 1
def mbK (b : BitVec 1024) : Nat := field (mbShape b) 39 28 + 1
def mbAt (b : BitVec 1024) : Nat := field (mbFmt b) 63 59
def mbBt (b : BitVec 1024) : Nat := field (mbFmt b) 58 54
def mbAscale (b : BitVec 1024) : Nat := field (mbFmt b) 53 52
def mbBscale (b : BitVec 1024) : Nat := field (mbFmt b) 51 50
def mbAlay (b : BitVec 1024) : Bool := bit (mbFmt b) 49
def mbBlay (b : BitVec 1024) : Bool := bit (mbFmt b) 48
def mbCmode (b : BitVec 1024) : Nat := field (mbFmt b) 47 46
def mbDrain (b : BitVec 1024) : Nat := field (mbFmt b) 45 44
def mbDtype (b : BitVec 1024) : Nat := field (mbFmt b) 43 39
def mbEvict (b : BitVec 1024) : Nat := field (mbFmt b) 38 36
def mbChen (b : BitVec 1024) : Bool := bit (mbFmt b) 31
def mbSlot (b : BitVec 1024) : Nat := field (mbFmt b) 30 16 * 16
def mbInc (b : BitVec 1024) : Nat := field (mbFmt b) 15 0
def mbGroup (b : BitVec 1024) : Nat := field (mbColl b) 63 48
def mbMember (b : BitVec 1024) : Nat := field (mbColl b) 47 38
def mbCount (b : BitVec 1024) : Nat := field (mbColl b) 37 28

/-- The K limit of an operand class (R165); none for a pairing outside the classes. -/
def mxLimit (a b : Nat) : Option Nat :=
  if a = 15 ∧ b = 15 then some 4096
  else if (a = 13 ∨ a = 14) ∧ (b = 13 ∨ b = 14) then some 2048
  else if (a = 11 ∧ b = 11) ∨ (a = 12 ∧ b = 12) then some 1024
  else if (a = 1 ∨ a = 5) ∧ (b = 1 ∨ b = 5) then some 2048
  else none

/-- Integer operands. -/
def mxIsInt (a : Nat) : Bool := decide (a = 1 ∨ a = 5)

/-- Bits of a single element (R79, R163). -/
def mxBits (code : Nat) : Nat := if code = 15 then 4 else if code = 11 ∨ code = 12 then 16 else 8
/-- bytes_before of R166. -/
def mxBefore (code x : Nat) : Nat := x * mxBits code / 8
/-- Bytes that x elements take. -/
def mxSize (code x : Nat) : Nat := (x * mxBits code + 7) / 8
/-- Bytes of an element of D. -/
def mbE (b : BitVec 1024) : Nat := if mbDtype b = 10 ∨ mbDtype b = 3 then 4 else 2
/-- Bytes of a scale, and elements along K that one scale covers. -/
def scaleZ (s : Nat) : Nat := if s = 2 then 2 else 1
def scaleL (s : Nat) : Nat := if s = 2 then 16 else 32
def mbGroups (b : BitVec 1024) : Nat := (mbK b + 15) / 16

/-- An address with an offset, bits [79:64] unchanged (R209). -/
def addTo (a : Addr80) (off : Nat) : Addr80 := a.extractLsb' 64 16 ++ (a.extractLsb' 0 64 + BitVec.ofNat 64 off)

/-! ## Checks of a block (R170) -/

def mbTypesOk (b : BitVec 1024) : Bool :=
  (mxLimit (mbAt b) (mbBt b)).isSome && (if mxIsInt (mbAt b) then decide (mbDtype b = 3) else decide (mbDtype b = 10 ∨ mbDtype b = 11 ∨ mbDtype b = 12))
  && (decide (mbDrain b ≠ 1) || decide (mbDtype b = 10 ∨ mbDtype b = 3))

def mbAligned (b : BitVec 1024) : Bool :=
  let al := fun (n m : Nat) => decide (n % m = 0)
  al (mbA b).toNat 16 && al (mbD b 0x40) 16 && al (mbB b).toNat 16 && al (mbD b 0x44) 16 && al (mbDst b).toNat 16
  && (decide (mbDrain b = 1) || al (mbD b 0x4C) 16) && (decide (mbCmode b ≠ 1) || (al (mbC b).toNat 16 && al (mbD b 0x48) 16))
  && (decide (mbAscale b = 0) || (al (mbAs b).toNat (scaleZ (mbAscale b)) && al (mbD b 0x50) (scaleZ (mbAscale b))))
  && (decide (mbBscale b = 0) || (al (mbBs b).toNat (scaleZ (mbBscale b)) && al (mbD b 0x54) (scaleZ (mbBscale b))))
  && (decide (mbInc b = 0) || al (mbGauge b).toNat 8)

def mbReserved (b : BitVec 1024) : Bool :=
  decide (field (mbShape b) 63 56 ≠ 0 ∨ field (mbShape b) 27 0 ≠ 0 ∨ field (mbFmt b) 35 32 ≠ 0 ∨ field (mbQ b 0x38) 15 0 ≠ 0
    ∨ (mbDrain b = 1 ∧ field (mbColl b) 27 0 ≠ 0) ∨ 1 < mbCmode b ∨ 1 < mbDrain b ∨ mbAscale b = 3 ∨ mbBscale b = 3)

/-- Bytes that an operand spans: rows of a stride, the last one of `last` bytes. -/
def spanOf (rows stride last : Nat) : Nat := (rows - 1) * stride + last

/-- The bytes of a scale row. -/
def scaleBytes (b : BitVec 1024) (s : Nat) : Nat := scaleZ s * (16 * (mbGroups b - 1) / scaleL s + 1)

/-- Whether an operand may lie in a space: global memory, the scratchpad, the weight store. -/
def spaceMay (ws spad : Bool) (x : Option Nat) : Bool :=
  match x with
  | some 0 => true
  | some 1 => spad
  | some _ => ws
  | none => false

/-- A range from an address lies in an admitted space, within its bounds. -/
def State.mxFits (s : State) (t : Team) (a : Addr80) (n : Nat) (ws spad : Bool) : Bool :=
  spaceMay ws spad (s.rangeSpace t a 0 ((n : Int) - 1))

def State.mbPlaced (s : State) (t : Team) (b : BitVec 1024) : Bool :=
  s.mxFits t (mbA b) (if mbAlay b then spanOf (mbK b) (mbD b 0x40) (mxSize (mbAt b) (mbM b)) else spanOf (mbM b) (mbD b 0x40) (mxSize (mbAt b) (mbK b))) true true
  && s.mxFits t (mbB b) (if mbBlay b then spanOf (mbK b) (mbD b 0x44) (mxSize (mbBt b) (mbN b)) else spanOf (mbN b) (mbD b 0x44) (mxSize (mbBt b) (mbK b))) true true
  && (decide (mbAscale b = 0) || s.mxFits t (mbAs b) (spanOf (mbM b) (mbD b 0x50) (scaleBytes b (mbAscale b))) true true)
  && (decide (mbBscale b = 0) || s.mxFits t (mbBs b) (spanOf (mbN b) (mbD b 0x54) (scaleBytes b (mbBscale b))) true true)
  && (decide (mbCmode b = 0) || s.mxFits t (mbC b) (spanOf (mbM b) (mbD b 0x48) (4 * mbN b)) true true)
  && (if mbDrain b = 1 then s.mxFits t (mbDst b) ((mbCount b + 1) * mbM b * mbN b * 4) false false else s.mxFits t (mbDst b) (spanOf (mbM b) (mbD b 0x4C) (mbE b * mbN b)) false true)
  && (decide (mbInc b = 0) || s.mxFits t (mbGauge b) 8 false false)

def State.group (s : State) (g : Nat) : Group := (Assoc.find s.groups g).getD { state := 0 }

/-- The collective that a member of a context joins: one that has failed takes only the members it has not seen. -/
def State.collFor (s : State) (t : Team) (b : BitVec 1024) : Option (Nat × Coll) :=
  s.colls.find? (fun p => decide (p.2.group = mbGroup b) && decide (p.2.base = mbDst b) && decide (p.2.func = t.func) && decide (p.2.ctx = t.ctx)
    && !(p.2.failed && p.2.members.contains (mbMember b)))

/-- The collective fields hold together, and the module is in the group, which is active (R164, R177, R466). -/
def State.collOk (s : State) (t : Team) (b : BitVec 1024) : Bool :=
  if mbDrain b = 0 then decide (mbColl b = 0)
  else decide (1 ≤ mbCount b) && decide (mbMember b ≤ mbCount b) && decide ((s.group (mbGroup b)).state = 2)
    && (match s.collFor t b with
      | none => true
      | some p => decide (p.2.count = mbCount b) && decide (p.2.m = mbM b) && decide (p.2.n = mbN b) && decide (p.2.dtype = mbDtype b) && !p.2.members.contains (mbMember b))

/-- The operation is queued, running, suspended or saved. -/
def MxOp.live (o : MxOp) : Bool := decide (1 ≤ o.state ∧ o.state ≤ 4)

def State.mxCode (s : State) (team : Nat) (addr : Addr80) (b : BitVec 1024) : Nat :=
  let t := s.team team
  if !mbTypesOk b then 1
  else if mbN b % 8 ≠ 0 ∨ (mxLimit (mbAt b) (mbBt b)).getD 0 < mbK b then 2
  else if !mbAligned b then 3
  else if mbReserved b then 4
  else if (mbAscale b ≠ 0 ∨ mbBscale b ≠ 0) ∧ (mbAt b = 11 ∨ mbAt b = 12 ∨ mxIsInt (mbAt b) = true) then 5
  else if !s.mbPlaced t b then 6
  else if !s.collOk t b then 7
  else if s.mops.any (fun p => decide (p.2.team = team) && decide (p.2.blockAddr = addr) && p.2.live) then 8
  else if mbChen b && !t.armed (mbSlot b) then 9
  else 0

/-! ## Entries (R158, R175, R491) -/

/-- Entries that a core owns are taken by its queued, running and suspended operations. -/
def State.entriesUsed (s : State) (core : Nat) : Nat := (s.mops.filter (fun p => decide (p.2.core = core) && decide (1 ≤ p.2.state ∧ p.2.state ≤ 3))).length

/-- Saved operations of a core's teams take precedence over new ones. -/
def State.entriesOwed (s : State) (core : Nat) : Nat := (s.mops.filter (fun p => decide (p.2.state = 4) && (s.team p.2.team).onCore core)).length

def State.freeEntries (s : State) (team : Nat) : Nat :=
  let core := (s.team team).core
  8 - s.entriesUsed core - s.entriesOwed core

/-! ## Status words (R169) -/

def MxOp.word (o : MxOp) : W64 :=
  BitVec.ofNat 64 (o.state * 2 ^ 56 + b2n o.nan * 2 ^ 55 + b2n o.ovf * 2 ^ 54 + b2n o.sn * 2 ^ 53 + o.ticket % 2 ^ 16 * 2 ^ 32 + o.rows % 512)

def State.putOp (s : State) (id : Nat) (o : MxOp) : State := { s with mops := Assoc.put s.mops id o }

/-- Write the status word into the operation's block, of a saved team's scratchpad in its image: the translation that fails, if one does. -/
def State.mxStatus (s : State) (o : MxOp) : Option Xlat × State :=
  let t := s.team o.team
  let a := addTo o.blockAddr 0x78
  match decodeAddr a with
  | .spad off => (none, if t.onCore t.core then s.spadPut o.team off (toBytes o.word 8) else s.imageWrite o.team off (toBytes o.word 8))
  | .global va => s.engWrite t.core (ckey t.func t.ctx) va (toBytes o.word 8)
  | _ => (none, s)

/-- The gauge add of an ended operation is sent; with none the operation is over (R173, R177). -/
def State.mxGauge (s : State) (id : Nat) (o : MxOp) : State :=
  let t := s.team o.team
  if mbInc o.block = 0 then { s with mops := Assoc.del s.mops id }
  else
    let n := s.newId
    { (n.2.putOp id o) with gadds := Assoc.put n.2.gadds n.1 { team := o.team, thread := o.thread, func := t.func, ctx := t.ctx, addr := mbGauge o.block, amount := mbInc o.block, path := if o.coll.isSome then 3 else 2, scope := o.scope, pc := o.pc, tcount := o.tcount, owner := id, done := o.done } }

/-- Where the status word of an operation stands. -/
def MxOp.statusAt (o : MxOp) : Addr80 := addTo o.blockAddr 0x78

/-- What an operation's translation failed with: the fault is reported, and the operation waits on its token where it may be mended; else the reason that ends it is answered (R174, R390). An address beyond what its space holds has the reason of a wrong size (DESIGN CHOICE, log 87). -/
def State.mxMeet (s : State) (id : Nat) (o : MxOp) (va : Addr80) (x : Xlat) (a : Acc) : Option Nat × State :=
  match x with
  | .fault f =>
    let r := s.raiseToken (s.teamFault o.team va.toNat 2) f a (if f.waits then [.mop id] else [])
    if f.waits then (none, r.2.putOp id { o with state := 3, token := some r.1, faultAt := va }) else (some f.reason, r.2)
  | .aperture => (some 3, s)
  | _ => (some 1, s)

/-- The cause of an operation's failure (R174). -/
def State.mxCause (s : State) (o : MxOp) (reason : Nat) (addr : Addr80) : State :=
  s.lateCause o.team o.thread o.pc o.tcount (0x248 + reason) addr o.done

/-- An operation ends: its final status is written, then its gauge add is sent. A status write that waits suspends the operation with its end owed; one that cannot be completed ends it without its status (R169). -/
def State.mxFinal (s : State) (id : Nat) (o : MxOp) : State :=
  match s.mxStatus o with
  | (none, s) => s.mxGauge id o
  | (some x, s) =>
    match s.mxMeet id { o with due := true, redo := o.state } o.statusAt x .write with
    | (none, s) => s
    | (some reason, s) => (s.mxGauge id o).mxCause o reason o.statusAt

/-- A live member of a collective ends with the collective. -/
def State.mxRelease (s : State) (id state : Nat) : State :=
  match Assoc.find s.mops id with
  | none => s
  | some o => if o.live && decide (o.redo < 0x10) then s.mxFinal id { o with state := state, token := none, abort := false, due := false, redo := 0 } else s

/-- The members of a collective that are still held. -/
def State.collMembers (s : State) (c : Nat) : List Nat := (s.mops.filter (fun p => decide (p.2.coll = some c))).map (fun p => p.1)

/-- A collective fails: every member's status becomes 0x13 and every gauge receives its amount (R177). It stands until each member has been seen. -/
def State.collFail (s : State) (c : Nat) : State :=
  match Assoc.find s.colls c with
  | none => s
  | some x =>
    let s := { s with colls := if x.count < x.members.length then Assoc.del s.colls c else Assoc.put s.colls c { x with failed := true, token := none } }
    (s.collMembers c).foldl (fun s id => s.mxRelease id 0x13) s

/-- An operation has come to its end: its own, or as a member that aborts or fails that of its collective (R177). -/
def State.mxOver (s : State) (id : Nat) (o : MxOp) : State :=
  match o.coll.bind (Assoc.find s.colls) with
  | none => s.mxFinal id o
  | some x => if x.failed then s.mxFinal id o else (s.putOp id { o with state := 3, redo := 0 }).collFail (o.coll.getD 0)

/-- An operation fails (R174): its status unless the write of that is what failed, the gauge add, a late cause. -/
def State.mxFail (s : State) (id : Nat) (o : MxOp) (reason : Nat) (addr : Addr80) : State :=
  let o := { o with token := none, due := false }
  let s := if 0x10 ≤ o.redo ∨ addr = o.statusAt ∧ o.coll = none then s.mxGauge id { o with state := 0x12 } else s.mxOver id { o with state := 0x12, redo := 0 }
  s.mxCause o reason addr

/-- What stays owed of an operation whose status stands: its end only. -/
def MxOp.owed (o : MxOp) : Nat := if 0x10 ≤ o.redo then o.redo else 0

/-- Write the status of an operation that goes on, is suspended or saved; a write that waits leaves it suspended with the status owed, and one that cannot be completed fails it (R169). -/
def State.mxNote (s : State) (id : Nat) (o : MxOp) : State :=
  match s.mxStatus o with
  | (none, s) => s.putOp id { o with redo := o.owed }
  | (some x, s) =>
    match s.mxMeet id { o with due := true, redo := if o.state = 1 then Nat.max 1 o.owed else o.owed } o.statusAt x .write with
    | (none, s) => if o.state = 4 then s.putOp id o else s
    | (some reason, s) => s.mxFail id o reason o.statusAt

/-- The end of an operation's wait on a token (R174, R394): a status that is owed is written first, and an owed end is made. Until the next status write the live word shows it queued, or running once rows are drained (DESIGN CHOICE, log 90). -/
def State.mxResume (s : State) (id action : Nat) : State :=
  match Assoc.find s.mops id with
  | none => s
  | some o =>
    if o.state ≠ 3 ∨ o.token = none then s
    else if action ≠ 0 then s.mxFail id o 0 o.faultAt
    else
      let o' := { o with token := none, due := false, redo := o.owed, state := if o.redo = 1 ∨ o.rows = 0 then 1 else 2 }
      if 0x10 ≤ o.redo then s.mxFinal id { o' with state := o.redo, redo := 0 }
      else if o.due then s.mxNote id o' else s.putOp id o'

/-! ## Row steps (R96, R166, R171, R173) -/

/-- What a read or write of a row step met. -/
structure MxBad where
  va : Addr80
  x : Xlat
  acc : Acc

/-- Read a range of an operand with the priority of the block's evict field (R163, R220): the bytes, and whether any is poisoned. -/
def State.mxRead (s : State) (o : MxOp) (a : Addr80) (n : Nat) : Except MxBad (List Byte × Bool) × State :=
  let t := s.team o.team
  match decodeAddr a with
  | .spad off => (.ok (s.spadLoad o.team off n, t.spadPoisoned off n), s)
  | .weights off =>
    (match s.weightPlace t off n with
      | some pa => (.ok (s.bytesAt 0 pa n, (piecesOf pa n).any (fun p => s.poisoned (p.1 / 128))), s)
      | none => (.error { va := a, x := .aperture, acc := .read }, s))
  | .global va =>
    match s.engRead t.core (ckey t.func t.ctx) va n .read (mbEvict o.block) with
    | (.ok r, s) => (.ok r, s)
    | (.error x, s) => (.error { va := a, x := x, acc := .read }, s)
  | _ => (.ok ([], false), s)

/-- Read a list of ranges. -/
def State.mxReads (s : State) (o : MxOp) : List (Addr80 × Nat) → Except MxBad (List (List Byte) × Bool) × State
  | [] => (.ok ([], false), s)
  | r :: rs =>
    match s.mxRead o r.1 r.2 with
    | (.error e, s) => (.error e, s)
    | (.ok x, s) =>
      match State.mxReads s o rs with
      | (.error e, s) => (.error e, s)
      | (.ok y, s) => (.ok (x.1 :: y.1, x.2 || y.2), s)

/-- The element codes of a packed range. -/
def mxCodes (code : Nat) (bs : List Byte) (count : Nat) : List Nat :=
  let x := ofBytesNat bs
  (List.range count).map (fun k => x / 2 ^ (mxBits code * k) % 2 ^ mxBits code)

/-- The ranges of an operand for rows lo to lo + n - 1 over K: one per row, or with the other layout one per k. -/
def mxRanges (ptr : Addr80) (stride code : Nat) (lay : Bool) (lo n k : Nat) : List (Addr80 × Nat) :=
  if lay then (List.range k).map (fun j => (addTo ptr (j * stride + mxBefore code lo), mxSize code n))
  else (List.range n).map (fun i => (addTo ptr ((lo + i) * stride), mxSize code k))

/-- The codes by row, then k. -/
def mxTable (code : Nat) (lay : Bool) (n k : Nat) (bs : List (List Byte)) : List (List Nat) :=
  if lay then
    let cols := bs.map (fun b => mxCodes code b n)
    (List.range n).map (fun i => cols.map (fun c => c.getD i 0))
  else bs.map (fun b => mxCodes code b k)

/-- The element format of a type code. -/
def mxFmt (code : Nat) : Fmt := ((Ty.ofCode code).bind Ty.fmt).getD .f32

/-- The value of a scale: 1 without scales, NaN for a NaN scale (R94). -/
def mxScale (kind : Nat) (bs : List Byte) (g : Nat) : FVal :=
  if kind = 0 then .fin false 1 0
  else
    let i := 16 * g / scaleL kind
    match scaleVal (decide (kind = 2)) (ofBytesNat ((bs.drop (scaleZ kind * i)).take (scaleZ kind))) with
    | some (m, e) => .fin false m e
    | none => .nan false

/-- An element of D in FP32: groups of 16 in ascending K, one rounding a group; whether a NaN scale was read (R96). -/
def mxSum (af bf : Fmt) (xs ys : List Nat) (sa sb : Nat → FVal) (groups : Nat) (init : Nat) : Nat × Bool :=
  (List.range groups).foldl (fun acc g =>
    let ps := (((xs.drop (16 * g)).take 16).zip ((ys.drop (16 * g)).take 16)).map (fun p => (mulVals (af.decode p.1) (bf.decode p.2)).1)
    let sn := (sa g).isNan || (sb g).isNan
    let v := (mulVals (mulVals (sumVals .rn ps).1 (sa g)).1 (sb g)).1
    (((Fmt.f32.round .rn false (sumVals .rn [Fmt.f32.decode acc.1, v]).1).1), acc.2 || sn)) (init, false)

/-- An INT8 element: exact sums modulo 2^32. -/
def mxIntSum (acode bcode : Nat) (xs ys : List Nat) (init : Nat) : Nat :=
  let v := fun (code x : Nat) => if code = 1 then signedNat 8 x else (x : Int)
  wrapInt 32 ((xs.zip ys).foldl (fun (a : Int) p => a + v acode p.1 * v bcode p.2) (init : Int))

/-- What one row step computes. -/
structure MxRows where
  rows : List (List Byte)
  nan : Bool
  ovf : Bool
  sn : Bool
  poison : Bool

/-- The final word of an element: FP32, or rounded once to FP16 or BF16 (R171). -/
def mxFinal (dtype acc : Nat) : Nat :=
  if dtype = 10 ∨ dtype = 3 then acc
  else let f : Fmt := if dtype = 11 then .f16 else .bf16; (f.round .rn false (Fmt.f32.decode acc)).1

/-- The operands of a row step, read. -/
structure MxIn where
  a : List (List Nat)
  b : List (List Nat)
  sa : List (List Byte)
  sb : List (List Byte)
  c : List (List Byte)
  poison : Bool

def State.mxGather (s : State) (o : MxOp) (lo n : Nat) : Except MxBad MxIn × State :=
  let b := o.block
  let K := mbK b
  let ra := mxRanges (mbA b) (mbD b 0x40) (mbAt b) (mbAlay b) lo n K
  let rb := mxRanges (mbB b) (mbD b 0x44) (mbBt b) (mbBlay b) 0 (mbN b) K
  let rsa := if mbAscale b = 0 then [] else (List.range n).map (fun i => (addTo (mbAs b) ((lo + i) * mbD b 0x50), scaleBytes b (mbAscale b)))
  let rsb := if mbBscale b = 0 then [] else (List.range (mbN b)).map (fun j => (addTo (mbBs b) (j * mbD b 0x54), scaleBytes b (mbBscale b)))
  let rc := if mbCmode b = 0 then [] else (List.range n).map (fun i => (addTo (mbC b) ((lo + i) * mbD b 0x48), 4 * mbN b))
  match s.mxReads o (ra ++ rb ++ rsa ++ rsb ++ rc) with
  | (.error e, s) => (.error e, s)
  | (.ok r, s) =>
    let bs := r.1
    let d1 := bs.drop ra.length
    let d2 := d1.drop rb.length
    let d3 := d2.drop rsa.length
    let d4 := d3.drop rsb.length
    (.ok { a := mxTable (mbAt b) (mbAlay b) n K (bs.take ra.length), b := mxTable (mbBt b) (mbBlay b) (mbN b) K (d1.take rb.length), sa := d2.take rsa.length, sb := d3.take rsb.length, c := d4, poison := r.2 }, s)

/-- One element: its bits, NaN, overflow, NaN scale. -/
def mxElement (b : BitVec 1024) (x : MxIn) (i j : Nat) : Nat × Bool × Bool × Bool :=
  let xs := x.a.getD i []
  let ys := x.b.getD j []
  let init := ofBytesNat (((x.c.getD i []).drop (4 * j)).take 4)
  if mxIsInt (mbAt b) then (mxIntSum (mbAt b) (mbBt b) xs ys init, false, false, false)
  else
    let r := mxSum (mxFmt (mbAt b)) (mxFmt (mbBt b)) xs ys (mxScale (mbAscale b) (x.sa.getD i [])) (mxScale (mbBscale b) (x.sb.getD j [])) (mbGroups b) init
    let bits := mxFinal (mbDtype b) r.1
    let f : Fmt := if mbDtype b = 11 then .f16 else if mbDtype b = 12 then .bf16 else .f32
    let v := f.decode bits
    let infIn := xs.any (fun c => ((mxFmt (mbAt b)).decode c).isInf) || ys.any (fun c => ((mxFmt (mbBt b)).decode c).isInf) || (Fmt.f32.decode init).isInf
    (bits, v.isNan, v.isInf && !infIn, r.2)

def mxCompute (b : BitVec 1024) (x : MxIn) (n : Nat) : MxRows :=
  let els := (List.range n).map (fun i => (List.range (mbN b)).map (fun j => mxElement b x i j))
  { rows := els.map (fun row => (row.map (fun e => toBytes (BitVec.ofNat 32 e.1) (mbE b))).flatten), nan := els.any (fun r => r.any (fun e => e.2.1)), ovf := els.any (fun r => r.any (fun e => e.2.2.1)), sn := els.any (fun r => r.any (fun e => e.2.2.2)), poison := x.poison }

/-- Where row i of D goes: the operation's own D, or its slot of the collective (R166, R177). -/
def MxOp.rowAddr (o : MxOp) (i : Nat) : Addr80 :=
  let b := o.block
  if mbDrain b = 1 then addTo (mbDst b) (mbMember b * mbM b * mbN b * 4 + i * 4 * mbN b) else addTo (mbDst b) (i * mbD b 0x4C)

/-- A place of drained bytes: the scratchpad, or a physical line piece. -/
inductive Drain where
  | spad (off : Nat) (bs : List Byte)
  | home (va pa key : Nat) (sealed : Bool) (bs : List Byte)

/-- Translate every piece of a range of global memory that is to be written. -/
def State.globalPlaces (s : State) (ctx va : Nat) (bs : List Byte) : Except MxBad (List Drain) × State :=
  (piecesOf va bs.length).foldl (fun acc p =>
    match acc with
    | (.error e, s) => (.error e, s)
    | (.ok ds, s) =>
      match s.translateW deviceAgent ctx p.1 .write with
      | (.ok pa key sealed _ _, s) => (.ok (ds ++ [.home p.1 pa key sealed ((bs.drop (p.1 - va)).take p.2)]), s)
      | (x, s) => (.error { va := BitVec.ofNat 80 p.1, x := x, acc := .write }, s)) (.ok [], s)

/-- Translate every piece of the rows before any is written. -/
def State.mxPlaces (s : State) (o : MxOp) : List (Addr80 × List Byte) → Except MxBad (List Drain) × State
  | [] => (.ok [], s)
  | r :: rs =>
    let t := s.team o.team
    let here : Except MxBad (List Drain) × State :=
      match decodeAddr r.1 with
      | .spad off => (.ok [.spad off r.2], s)
      | .global va => s.globalPlaces (ckey t.func t.ctx) va r.2
      | _ => (.ok [], s)
    match here with
    | (.error e, s) => (.error e, s)
    | (.ok ds, s) =>
      match State.mxPlaces s o rs with
      | (.error e, s) => (.error e, s)
      | (.ok es, s) => (.ok (ds ++ es), s)

/-- Drain one piece for a context, through the L2 slice of its home with the world of a core (R403); poison goes with it (R457). -/
def State.drainOne (s : State) (core ctx team : Nat) (poison : Bool) (d : Drain) : State :=
  match d with
  | .spad off bs =>
    let s := s.spadPut team off bs
    if poison then s.updTeam team (fun t => { t with spadPoison := t.spadPoison ++ ((List.range (bs.length / 4)).map (fun i => off / 4 + i)).filter (fun w => !t.spadPoison.contains w) }) else s
  | .home va pa key sealed bs =>
    let s := (s.writeBytes key pa bs).touch core ctx va pa key sealed true
    if poison then s.poisonLine (pa / 128) else s

/-- A row step that met a translation fault: abandoned; the operation is suspended with its status, or fails (R174). -/
def State.mxStepFault (s : State) (id : Nat) (o : MxOp) (e : MxBad) : State :=
  match s.mxMeet id o e.va e.x e.acc with
  | (some reason, s) => s.mxFail id o reason e.va
  | (none, s) =>
    match Assoc.find s.mops id with
    | some o => s.mxNote id o
    | none => s

/-- A row step is drained: progress is shown; after the last one the operation ends, or as a member its slot is complete, and its status stands until the collective commits or fails (R173, R177, R468). -/
def State.mxDrained (s : State) (id : Nat) (o : MxOp) : State :=
  if o.rows < mbM o.block then s.mxNote id { o with state := 2 }
  else match o.coll with
    | none => s.mxFinal id { o with state := 0x10 }
    | some c => { (s.putOp id { o with state := 2 }) with colls := Assoc.upd s.colls c (fun x => { x with complete := mbMember o.block :: x.complete }) }

/-- Compute and drain the next row step of an operation (R159, R173); one that came back with its end owed makes that (R169, R175). -/
def State.mxStep (s : State) (id : Nat) (o : MxOp) : State :=
  let b := o.block
  let t := s.team o.team
  let n := Nat.min 16 (mbM b - o.rows)
  if 0x10 ≤ o.redo then s.mxFinal id { o with state := o.redo, redo := 0 }
  else match s.mxGather o o.rows n with
  | (.error e, s) => s.mxStepFault id o e
  | (.ok x, s) =>
    let r := mxCompute b x n
    match s.mxPlaces o ((List.range n).map (fun i => (o.rowAddr (o.rows + i), r.rows.getD i []))) with
    | (.error e, s) => s.mxStepFault id o e
    | (.ok ds, s) =>
      let s := ds.foldl (fun s d => s.drainOne t.core (ckey t.func t.ctx) o.team r.poison d) s
      let o := { o with rows := o.rows + n, nan := o.nan || r.nan, ovf := o.ovf || r.ovf, sn := o.sn || r.sn }
      let s := if mbChen b then s.chRaise o.team (mbSlot b) (n * mbN b * mbE b) 1 (s.posOf o.thread o.tcount) else s
      s.mxDrained id o

/-- An entry is ready: queued or running with rows or its end to make, not to be aborted, its team on its core and not leaving it (R159). -/
def State.mxReady (s : State) (cluster : Nat) (o : MxOp) : Bool :=
  decide (o.cluster = cluster) && decide (o.state = 1 ∨ o.state = 2) && decide (o.rows < mbM o.block ∨ 0x10 ≤ o.redo) && !o.abort && (s.team o.team).engines

/-- The arbiter's choice: queue class, then acceptance order. -/
def State.mxPick (s : State) (cluster : Nat) : Option (Nat × MxOp) :=
  (s.mops.filter (fun p => s.mxReady cluster p.2)).foldl (fun best p =>
    match best with
    | none => some p
    | some q =>
      let c := lrClass (s.team p.2.team).lrec
      let d := lrClass (s.team q.2.team).lrec
      if c < d ∨ (c = d ∧ p.2.order < q.2.order) then some p else some q) none

/-- MX_ROW_STEP (R159, R173, R174). -/
def execMxRowStep (cluster : Nat) (s : State) : Out :=
  match s.mxPick cluster with
  | none => .next s
  | some p => .next (s.atomically (fun s => s.mxStep p.1 p.2))

/-! ## Saves, aborts, re-entry (R175, R178) -/

/-- An operation stops at its row boundary: aborted, or saved with its leaving team, an end it owes kept with it. -/
def State.mxStop (s : State) (id : Nat) (o : MxOp) : State :=
  if o.abort then
    if 0x10 ≤ o.redo then s.mxFinal id { o with state := o.redo, redo := 0, due := false, abort := false, token := none }
    else s.mxOver id { o with state := 0x11, abort := false, due := false, redo := 0, token := none }
  else s.mxNote id { o with state := 4, token := none, due := false }

/-- MX_SAVE (R175, R178). -/
def execMxSave (op : Nat) (s : State) : Out :=
  match Assoc.find s.mops op with
  | none => .next s
  | some o =>
    let leaves := decide (1 ≤ o.state ∧ o.state ≤ 3) && !(s.team o.team).engines && (s.team o.team).onCore (s.team o.team).core
    .next (if (o.abort && o.live) || leaves then s.mxStop op o else s)

/-- MX_REENTRY: in ticket order as entries free (R175). In its new cluster the operation is the youngest: its acceptance there is its re-entry (DESIGN CHOICE, log 89). -/
def execMxReentry (op : Nat) (s : State) : Out :=
  match Assoc.find s.mops op with
  | none => .next s
  | some o =>
    let t := s.team o.team
    let first := s.mops.all (fun p => decide (p.2.team ≠ o.team) || decide (p.2.state ≠ 4) || decide (op ≤ p.1))
    .next (if o.state = 4 ∧ t.engines = true ∧ first = true ∧ s.entriesUsed t.core < 8 then
        let n := s.newId
        n.2.mxNote op { o with state := 1, core := t.core, cluster := clusterOf t.core, order := n.1 }
      else s)

/-! ## The instructions -/

/-- An accepted member joins its collective, or forms it. -/
def State.joinColl (s : State) (team : Nat) (o : MxOp) : Option Nat × State :=
  let b := o.block
  if mbDrain b = 0 then (none, s)
  else
    let t := s.team team
    match s.collFor t b with
    | none =>
      let n := s.newId
      (some n.1, { n.2 with colls := Assoc.put n.2.colls n.1 { group := mbGroup b, base := mbDst b, func := t.func, ctx := t.ctx, count := mbCount b, m := mbM b, n := mbN b, dtype := mbDtype b, members := [mbMember b] } })
    | some p => (some p.1, { s with colls := Assoc.put s.colls p.1 { p.2 with members := mbMember b :: p.2.members } })

/-- A member that joined a failed collective ends with it, and after the last one nothing of it is left. -/
def State.joinedLate (s : State) (id : Nat) (c : Option Nat) : State :=
  match c.bind (Assoc.find s.colls) with
  | none => s
  | some x =>
    if x.failed then
      let s := s.mxRelease id 0x13
      if x.count < x.members.length then { s with colls := Assoc.del s.colls (c.getD 0) } else s
    else s

/-- One thread's `mx.issue`. -/
def State.mxIssueOne (s : State) (pc : W64) (k : Nat) (o : XOp) (x : At) : Except Flt W32 × State :=
  match s.readBlock k x 128 with
  | (.error c, s) => (.error (k, c, x.1), s)
  | (.ok bs, s) =>
    let b := ofBytes 1024 bs
    let t := s.team (teamOf k)
    let code := s.mxCode (teamOf k) x.1 b
    if code ≠ 0 then (.ok (codeWord code 0), s)
    else
      let n := s.newId
      let op : MxOp := { team := teamOf k, thread := k, pc := pc, tcount := t.tcount, cluster := clusterOf t.core, core := t.core, blockAddr := x.1, block := b, scope := Scope.code o.scope, ticket := t.ticket, order := n.1, state := 1 }
      let j := (n.2.updTeam (teamOf k) (fun t => { t with ticket := (t.ticket + 1) % 2 ^ 16 })).joinColl (teamOf k) op
      (.ok (codeWord 0 t.ticket), (j.2.mxNote n.1 { op with coll := j.1 }).joinedLate n.1 j.1)

/-- The operations that an instruction has made carry its done mask (R431). -/
def State.stampOps (s : State) (since : Nat) (done : W32) : State :=
  { s with mops := Assoc.mapVals s.mops (fun n o => if since ≤ n then { o with done := done } else o) }

def actMxIssue (o : XOp) (f : Focus) (s : State) (ks : List (Nat × At)) : Acted :=
  let a := actWord o.d (fun s k x => s.mxIssueOne f.pc k o x) f s ks
  let bad := a.faults.map (fun x => x.1)
  { a with s := a.s.stampOps s.nextId (maskOf ((ks.filter (fun x => !bad.contains x.1)).map (fun x => seatOf x.1))) }

def execMxIssue (o : XOp) (s : State) : Out :=
  perform { ins := .mxIssue o, check := serveCheck (.mxIssue o) State.freeEntries (fun s k => s.blockCheckIn k (s.xaddr k o.xa o.a) 128),
            act := actServed (.mxIssue o) State.freeEntries (actMxIssue o) } s

/-- The team's live operation with a block address. -/
def State.mxByAddr (s : State) (team : Nat) (a : Addr80) : Option (Nat × MxOp) := s.mops.find? (fun p => decide (p.2.team = team) && decide (p.2.blockAddr = a) && p.2.live)

/-- The status word of a thread's operation; zero where there is none. -/
def State.mxWord (s : State) (k : Nat) (o : XOp) : W64 :=
  match s.mxByAddr (teamOf k) (s.xaddr k o.xa o.a) with
  | some p => p.2.word
  | none => 0

def execMxStat (o : XOp) (s : State) : Out :=
  perform { ins := .mxStat o, check := noCheck, act := fun f s ks => actVar s f false (ks.map (fun x => { k := x.1, dst := dstPair o.d (s.mxWord x.1 o) })) } s

/-- One thread's `mx.abort`: the live operation is to stop at its row boundary. -/
def State.mxAbortOne (s : State) (k : Nat) (o : XOp) : W64 × State :=
  match s.mxByAddr (teamOf k) (s.xaddr k o.xa o.a) with
  | some p => (p.2.word, s.putOp p.1 { p.2 with abort := true })
  | none => (0, s)

def mxAbortAll (o : XOp) : State → List Nat → List Result × State
  | s, [] => ([], s)
  | s, k :: ks =>
    let r := s.mxAbortOne k o
    let t := mxAbortAll o r.2 ks
    ({ k := k, dst := dstPair o.d r.1 } :: t.1, t.2)

def execMxAbort (o : XOp) (s : State) : Out :=
  perform { ins := .mxAbort o, check := noCheck, act := fun f s ks => let r := mxAbortAll o s (ks.map (fun x => x.1)); actVar r.2 f false r.1 } s

/-! ## The commit of a collective (R97, R177, R468) -/

/-- The core whose world the accesses of a collective have: that of its first member here. -/
def State.collCore (s : State) (id : Nat) : Nat := ((s.mops.find? (fun p => decide (p.2.coll = some id))).map (fun p => p.2.core)).getD 0

/-- Part of a slot of a collective. -/
def State.readSlot (s : State) (core : Nat) (c : Coll) (m off n : Nat) : Except MxBad (List Byte × Bool) × State :=
  let a := addTo c.base (m * c.m * c.n * 4 + off)
  match s.engRead core (ckey c.func c.ctx) a.toNat n .read with
  | (.ok r, s) => (.ok r, s)
  | (.error x, s) => (.error { va := a, x := x, acc := .read }, s)

/-- The slots of some members. -/
def State.readSlots (s : State) (core : Nat) (c : Coll) : List Nat → Except MxBad (List (List Byte) × Bool) × State
  | [] => (.ok ([], false), s)
  | m :: ms =>
    match s.readSlot core c m 0 (c.m * c.n * 4) with
    | (.error x, s) => (.error x, s)
    | (.ok r, s) =>
      match State.readSlots s core c ms with
      | (.error x, s) => (.error x, s)
      | (.ok q, s) => (.ok (r.1 :: q.1, r.2 || q.2), s)

/-- Whether any slot's share of a drained piece of slot 0 is poisoned (R457). -/
def State.sharePoisoned (s : State) (core : Nat) (c : Coll) (d : Drain) : Bool :=
  match d with
  | .home va _ _ _ bs => (List.range (c.count + 1)).any (fun m => match (s.readSlot core c m (va - c.base.toNat) bs.length).1 with | .ok r => r.2 | .error _ => false)
  | .spad _ _ => false

/-- Member contributions added element by element in ascending member order. -/
def collSum (dtype elems : Nat) (slots : List (List Byte)) : List Byte :=
  ((List.range elems).map (fun i =>
    let xs := slots.map (fun b => ofBytesNat ((b.drop (4 * i)).take 4))
    let v := match xs with
      | [] => 0
      | x :: rest => rest.foldl (fun acc y => if dtype = 3 then (acc + y) % 2 ^ 32 else (Fmt.f32.add .rn false acc y).1) x
    toBytes (BitVec.ofNat 32 v) 4)).flatten

/-- The sum met a fault: it is reported, and the sum tried again when its token is resumed; where it cannot be completed the collective fails, with an engine-class cause of the collective in each member's thread (DESIGN CHOICE, log 88). -/
def State.collEnd (s : State) (id reason : Nat) (addr : Addr80) : State :=
  let ms := s.mops.filter (fun p => decide (p.2.coll = some id))
  ms.foldl (fun s p => s.lateCause p.2.team p.2.thread p.2.pc p.2.tcount (0x260 + reason) addr p.2.done) (s.collFail id)

def State.collFault (s : State) (id : Nat) (c : Coll) (e : MxBad) : State :=
  match e.x with
  | .fault f =>
    let team := ((s.mops.find? (fun p => decide (p.2.coll = some id))).map (fun p => p.2.team)).getD 0
    let r := s.raiseToken { s.teamFault team e.va.toNat 2 with func := c.func, ctx := c.ctx } f e.acc (if f.waits then [.coll id] else [])
    if f.waits then { r.2 with colls := Assoc.put r.2.colls id { c with token := some r.1 } } else r.2.collEnd id f.reason e.va
  | .aperture => s.collEnd id 3 e.va
  | _ => s.collEnd id 1 e.va

/-- The end of a sum's wait on a token. -/
def State.collResume (s : State) (id action : Nat) : State :=
  match Assoc.find s.colls id with
  | none => s
  | some c =>
    let s := { s with colls := Assoc.put s.colls id { c with token := none } }
    if action = 0 ∨ c.token = none then s else s.collEnd id 0 c.base

/-- Every slot complete and the group active: the sum is written over slot 0, then every member's status becomes done and its gauge receives its amount (R177, R468). -/
def State.collCommit (s : State) (id : Nat) (c : Coll) : State :=
  let core := s.collCore id
  match s.readSlots core c (List.range (c.count + 1)) with
  | (.error e, s) => s.collFault id c e
  | (.ok r, s) =>
    match s.globalPlaces (ckey c.func c.ctx) c.base.toNat (collSum c.dtype (c.m * c.n) r.1) with
    | (.error e, s) => s.collFault id c e
    | (.ok ds, s) =>
      let ps := ds.map (fun d => (d, r.2 && s.sharePoisoned core c d))
      let s := ps.foldl (fun s p => s.drainOne core (ckey c.func c.ctx) 0 p.2 p.1) s
      let s := { s with colls := Assoc.del s.colls id }
      (s.collMembers id).foldl (fun s m => s.mxRelease m 0x10) s

/-- Members that no team of this module has issued may lie on peer modules of the group: at a moment of theirs one of them has drained its slot, with what it computed, or has failed (R177; log 88). -/
def State.collPeers (s : State) (id : Nat) (c : Coll) : State :=
  let missing := (List.range (c.count + 1)).filter (fun m => !c.members.contains m)
  let x := s.pick
  let m := missing.getD (x.1 / 3 % missing.length) 0
  if missing.isEmpty || c.failed || decide (x.1 % 3 = 0) then x.2
  else if x.1 % 3 = 1 then x.2.collFail id
  else
    let n := c.m * c.n * 4
    let y := x.2.pick
    match y.2.engWrite (s.collCore id) (ckey c.func c.ctx) (addTo c.base (m * n)).toNat ((List.range n).map (fun i => BitVec.ofNat 8 (y.1 / 256 ^ i))) with
    | (none, s) => { s with colls := Assoc.put s.colls id { c with members := m :: c.members, complete := m :: c.complete } }
    | (some _, s) => s

/-- COLLECTIVE_COMMIT (R468). -/
def execCollectiveCommit (coll : Nat) (s : State) : Out :=
  match Assoc.find s.colls coll with
  | none => .next s
  | some c =>
    if (s.group c.group).state ≠ 2 ∨ c.failed = true ∨ c.token.isSome = true then .next s
    else .next (if c.complete.length = c.count + 1 then s.collCommit coll c else s.collPeers coll c)

/-- A group has changed: every collective of it that has not committed ends with state 0x14 (R468). -/
def State.collChanged (s : State) (group : Nat) : State :=
  (s.colls.filter (fun p => decide (p.2.group = group))).foldl (fun s p =>
    let s := { s with colls := Assoc.del s.colls p.1 }
    (s.collMembers p.1).foldl (fun s id => s.mxRelease id 0x14) s) s

/-- The operations of a team that starts again are discarded without status or gauge add, their places in their collectives too (R175, R367). -/
def State.discardOps (s : State) (team : Nat) : State :=
  let mine := s.mops.filter (fun p => decide (p.2.team = team))
  { s with mops := s.mops.filter (fun p => decide (p.2.team ≠ team)),
           colls := (Assoc.mapVals s.colls (fun c x =>
             let gone := (mine.filter (fun p => decide (p.2.coll = some c))).map (fun p => mbMember p.2.block)
             { x with members := x.members.filter (fun m => !gone.contains m), complete := x.complete.filter (fun m => !gone.contains m) })).filter (fun p => !p.2.members.isEmpty) }

end Sys2Proof.Machine
end

