-- ==== Sys2Proof/Machine/System.lean ====
section
/-! DEFINITION. The system instructions, `log.mark`, and the arrival of variable-latency results (R36 to R39, R121, R328, R343, R346, R436, R443 to R447). -/

namespace Sys2Proof.Machine

/-! ## Arrival of results (R343) -/

/-- Write the registers and flags a result brings to a thread. -/
def State.landResult (s : State) (k : Nat) (p : Pending) : State :=
  match p.late with
  | some code => s.recordCause k { pc := p.pc, addr := p.addr, code := code.toNat, late := true, done := p.done, tcount := (s.team (teamOf k)).tcount }
  | none => (s.writeRegs k p.dst).updThread k (fun th => th.raiseFx p.fx)

/-- A result of a thread arrives. -/
def State.arrive (s : State) (k n : Nat) : State :=
  match (s.thread k).out[n]? with
  | none => s
  | some p => if p.held ≠ 0 then s else (s.updThread k (fun th => { th with out := th.out.eraseIdx n })).landResult k p

/-- A result to w registers arrives: where the threads' values differ in checked mode each of them records the uniformity cause (R30). -/
def State.arriveW (s : State) (w n : Nat) : State :=
  match (s.warp w).out[n]? with
  | none => s
  | some p =>
    if p.held ≠ 0 then s
    else
    let s := s.updWarp w (fun x => { x with out := x.out.eraseIdx n })
    if p.differ then
      (seats p.group).foldl (fun s seat => s.recordCause (w * 32 + seat) { pc := p.pc, addr := 0, code := 0x6F, late := true, done := 0, tcount := (s.team (w / 32)).tcount }) s
    else if p.late.isSome then s
    else s.writeRegs (w * 32) p.dst

/-- Which of n outstanding results arrives next: any of them; in record and replay modes the oldest (R346). -/
def State.whichResult (s : State) (k n : Nat) : Nat :=
  if (s.ctxOf (s.team (teamOf k))).logMode = 0 then Config.freeNat (2 * s.fresh) % n else 0

/-- RESULT_ARRIVAL: one result outstanding to the thread or to its warp is written, which may end switch-parking (R343, R344). -/
def execResultArrival (thread : Nat) (s : State) : Out :=
  let a := (s.thread thread).out.length
  let b := (s.warp (warpOf thread)).out.length
  .next (if a + b = 0 then s
    else
      let n := s.whichResult thread (a + b)
      let s := { s with fresh := s.fresh + 1 }
      (if n < a then s.arrive thread n else s.arriveW (warpOf thread) (n - a)).settleSwitch (warpOf thread))

/-- Every outstanding result of the float chapter arrives, to the thread's registers and to those of its warp: an access to `cr.fx` waits for it (R91, R121). The fuel is the number outstanding. -/
def State.arriveFloatW (w : Nat) : Nat → State → State
  | 0, s => s
  | n + 1, s =>
    match (s.warp w).out.findIdx? (fun p => p.flt) with
    | none => s
    | some i => State.arriveFloatW w n (s.arriveW w i)

def State.arriveFloat (k : Nat) : Nat → State → State
  | 0, s => State.arriveFloatW (warpOf k) (s.warp (warpOf k)).out.length s
  | n + 1, s =>
    match (s.thread k).out.findIdx? (fun p => p.flt) with
    | none => State.arriveFloatW (warpOf k) (s.warp (warpOf k)).out.length s
    | some i => State.arriveFloat k n (s.arrive k i)

/-- The flags of a group's earlier instructions are in before its instruction reads or writes `cr.fx` (R91, R121). -/
def State.settleFlags (s : State) (n : Nat) (ks : List (Nat × Unit)) : State :=
  if n = 0 then ks.foldl (fun s x => State.arriveFloat x.1 (s.thread x.1).out.length s) s else s

/-! ## Control registers (R38, R39, R436, R444) -/

def isHandlerReg (n : Nat) : Bool := decide (0x100 ≤ n ∧ n < 0x200)
def isDebugReg (n : Nat) : Bool := decide (0x200 ≤ n ∧ n < 0x300)
def isXh (n : Nat) : Bool := decide (0x020 ≤ n ∧ n < 0x028)

/-- The registers a program may write. -/
def isWritable (n : Nat) : Bool := decide (n = 0) || isXh n || decide (0x100 ≤ n ∧ n ≤ 0x102)

/-- The register number of a word. -/
def csrNum (o : IOp) : Nat := o.imm.toNat % 4096

/-- The checks of one thread (R444). -/
def checkCsr (n : Nat) (write : Bool) (s : State) (k : Nat) : Except (Nat × Addr80) Unit × State :=
  let w := if write then 8 else 0
  if isHandlerReg n && !(s.team (teamOf k)).handler then (.error (0x104 + w, 0), s)
  else if isDebugReg n then (.error (0x105 + w, 0), s)
  else if write && !isWritable n then (.error (0x10B, 0), s)
  else (.ok (), s)

/-- The saved trap state of a thread, where it has one. -/
def Thread.trapState (th : Thread) : TrapState := th.trap.getD { resume := 0, saved := 0, block := 0, stack := [], seq := 0, before := .ready, wait := .none }

/-- The code of a thread state (R336). -/
def TState.code : TState → Nat
  | .ready => 0
  | .switchParked => 1
  | .parked => 2
  | .reconverging => 3
  | .exited => 4

/-- A control register as a thread sees it. -/
def State.csr (s : State) (k n : Nat) : W32 :=
  let t := s.team (teamOf k)
  let c := s.ctxOf t
  let th := s.thread k
  let r := th.shown
  if n = 0x000 then th.fx
  else if n = 0x001 then BitVec.ofNat 32 (b2n c.checked + 2 * b2n (decide (c.logMode = 1)) + 4 * b2n (decide (c.logMode = 2)))
  else if n = 0x002 then BitVec.ofNat 32 ((s.core t.core).world % 16)
  else if n = 0x003 then BitVec.ofNat 32 t.func
  else if n = 0x010 then BitVec.ofNat 32 t.cref
  else if isXh n then (t.xh[(Fin.ofNat 8 (n - 0x020))]).setWidth 32
  else if n = 0x100 then BitVec.ofNat 32 (r.cause.toNat + 1024 * b2n r.late + 2048 * b2n r.more)
  else if n = 0x101 then lo32 th.trapState.resume
  else if n = 0x102 then hi32 th.trapState.resume
  else if n = 0x103 then lo32 r.addr
  else if n = 0x104 then hi32 r.addr
  else if n = 0x105 then r.addrhi.setWidth 32
  else if n = 0x106 then r.done
  else if n = 0x107 then BitVec.ofNat 32 (r.skid % 32)
  else if n = 0x108 then BitVec.ofNat 32 (t.prim.toNat + t.primTid % 1024 * 2 ^ 16)
  else if n = 0x109 then BitVec.ofNat 32 (TState.code th.trapState.before)
  else 0

/-- `csr.rd` (R444): a read of `cr.fx` waits for the outstanding float results of the thread (R121). -/
def actCsrRd (o : IOp) (f : Focus) (s : State) (ks : List (Nat × Unit)) : Acted :=
  let s := s.settleFlags (csrNum o) ks
  actFixed s f (ks.map (fun x => { k := x.1, dst := dstOne o.d (s.csr x.1 (csrNum o)) }))

def execCsrRd (o : IOp) (s : State) : Out := perform { ins := .csrRd o, check := checkCsr (csrNum o) false, act := actCsrRd o } s

/-- Half of a resume address changed. -/
def Thread.setResume (th : Thread) (hi : Bool) (x : W32) : Thread :=
  { th with trap := th.trap.map (fun tr => { tr with resume := if hi then pair64 (lo32 tr.resume) x else pair64 x (hi32 tr.resume) }) }

/-- A write of `cr.tcause` changes the record that stands for the thread (R436, R444). -/
def Thread.setCause (th : Thread) (c : BitVec 10) : Thread :=
  let put := fun (r : FaultRec) => { r with cause := c, late := false, more := false }
  if th.rcd.cause = 0x3C0 then { th with trap := th.trap.map (fun tr => { tr with rcd := put tr.rcd }) } else { th with rcd := put th.rcd }

/-- A write of a per-thread control register (R91, R436). -/
def Thread.writeCsr (th : Thread) (n : Nat) (x : W32) : Thread :=
  if n = 0x000 then th.writeFx x
  else if n = 0x100 then th.setCause (x.extractLsb' 0 10)
  else if n = 0x101 then th.setResume false x
  else if n = 0x102 then th.setResume true x
  else th

/-- `csr.wr` (R38, R91, R444): an xh register takes the value of the lowest-seated active thread, and the team's next instruction of any warp uses it (DESIGN CHOICE, log 81); a write of `cr.fx` comes after the flags of the thread's earlier instructions. -/
def actCsrWr (o : IOp) (f : Focus) (s : State) (ks : List (Nat × Unit)) : Acted :=
  let n := csrNum o
  match ks with
  | [] => { s := s }
  | k :: _ =>
    if isXh n then { s := s.updTeam f.team (fun t => { t with xh := t.xh.set (Fin.ofNat 8 (n - 0x020)) ((s.rd k.1 o.a).extractLsb' 0 16) }) }
    else
      let ws := ks.map (fun x => (x.1, s.rd x.1 o.a))
      let s := s.settleFlags n ks
      { s := ws.foldl (fun s x => s.updThread x.1 (fun th => th.writeCsr n x.2)) s }

def execCsrWr (o : IOp) (s : State) : Out := perform { ins := .csrWr o, check := checkCsr (csrNum o) true, act := actCsrWr o } s

/-! ## trap, tret, brk, halt (R445 to R447) -/

/-- An instruction that records a cause after it is performed. -/
def causePlan (i : Instr) (code : Nat) : Plan Unit :=
  { ins := i, check := noCheck, act := fun _ s ks => { s := s, later := ks.map (fun x => (x.1, code, 0)) } }

/-- `trap n` records 0x380 + n (R445). -/
def execTrap (o : IOp) (s : State) : Out := perform (causePlan (.trap o) (0x380 + o.imm.toNat % 64)) s

/-- `brk` records 0x358 (R447). -/
def execBrk (o : ROp) (s : State) : Out := perform (causePlan (.brk o) 0x358) s

/-- `tret` outside handler mode raises 0x104 (R446). -/
def checkTret (s : State) (k : Nat) : Except (Nat × Addr80) Unit × State :=
  (if (s.team (teamOf k)).handler then .ok () else .error (0x104, 0), s)

/-- `tret`: each active thread parks; when the last arrives the team leaves handler mode (R446). -/
def actTret (f : Focus) (s : State) (ks : List (Nat × Unit)) : Acted :=
  { s := ks.foldl (fun s x => s.updThread x.1 (fun th => { th with st := .parked, wait := .tret })) s, stay := ks.map (fun x => x.1),
    after_ := match ks with | [] => id | k :: _ => fun s' => s'.tretCheck f.team (s.here k.1) }

def execTret (o : ROp) (s : State) : Out := perform { ins := .tret o, check := checkTret, act := actTret } s

/-- `halt`: with a debugger attached the team halts for debug and its warp stops; with none there is no effect (R447). -/
def actHalt (f : Focus) (s : State) (ks : List (Nat × Unit)) : Acted :=
  let t := s.team f.team
  if ks = [] ∨ s.attachedTo t = false then { s := s }
  else
    { hold := ks.map Prod.fst, s := (s.setTeam f.team { t with debugCall := 3, life := match t.life with | .resident | .draining _ => .halting | x => x, haltAt := match t.life with | .resident | .draining _ => s.clock | _ => t.haltAt }).updWarp (wkey f.team f.wid) (fun w => { w with halted := true }) }

def execHalt (o : ROp) (s : State) : Out := perform { ins := .halt o, check := noCheck, act := actHalt } s

/-! ## log.mark (R328) -/

/-- `log.mark`: a MARK record of each active thread's value in record mode, compared in replay mode, in ascending seat order. -/
def execLogMark (o : ROp) (s : State) : Out :=
  perform { ins := .logMark o, check := noCheck, act := fun _ s ks =>
    { s := ks.foldl (fun s x => s.logEvent 0x0C (s.here x.1) { payload := (s.rd x.1 o.a).toNat, value := 2 ^ 32 - 1 }) s } } s

end Sys2Proof.Machine
end

