-- ==== Sys2Proof/Machine/Traversal.lean ====
section
/-! DEFINITION. The ray traversal engine: layouts and nodes, box and triangle tests, microcode, stacks and ray areas, saving, loading and re-entry, and the `trv` instructions (R179 to R207, R484 to R486). -/

namespace Sys2Proof.Machine

/-! ## Layouts (R182) -/

def layUnits (w : W64) : Nat := field w 63 60 + 1
def layBytes (w : W64) : Nat := 16 * layUnits w
def layKids (w : W64) : Nat := field w 59 57 + 1
def layQ8 (w : W64) : Bool := bit w 56
def layBoxAt (w : W64) : Nat := 4 * field w 55 50
def layPtrAt (w : W64) : Nat := field w 49 39
def layPtrW (w : W64) : Nat := field w 38 34 + 1
def layStride (w : W64) : Nat := field w 33 28
def layRel (w : W64) : Bool := bit w 27
def layScale (w : W64) : Nat := field w 26 23
def layLcb (w : W64) : Nat := field w 22 21
def layLimit (w : W64) : Nat := (field w 20 15 + 1) * 64

/-- The descriptor is valid (R182). -/
def layOk (w : W64) : Bool :=
  decide (8 ≤ layPtrW w) && decide (layPtrW w ≤ layStride w) && decide (layLcb w + 1 < layPtrW w)
  && decide (layPtrAt w + (layKids w - 1) * layStride w + layPtrW w ≤ 8 * layBytes w)
  && decide (layBoxAt w + (if layQ8 w then 16 + 6 * layKids w else 24 * layKids w) ≤ layBytes w)
  && decide (field w 14 0 = 0)

/-! ## Stack entries and pointer fields (R183) -/

def entLeaf (e : W32) : Bool := bit e 31
def entCount (e : W32) : Nat := if entLeaf e then field e 30 28 + 1 else 1
def entOff (e : W32) : Nat := field e 27 0

/-- Pointer field i of a node. -/
def ptrField (w : W64) (node : BitVec 2048) (i : Nat) : Nat := node.toNat / 2 ^ (layPtrAt w + i * layStride w) % 2 ^ layPtrW w

/-- Child i is empty. -/
def kidEmpty (w : W64) (node : BitVec 2048) (i : Nat) : Bool := decide (layKids w ≤ i) || decide (ptrField w node i = 2 ^ layPtrW w - 1)

/-- The entry of a field of the node at offset `at_`; none where its offset reaches 2^28. A field is decoded when its child is pushed or taken, and only then can it fail the ray: the manual does not say which micro-operation decodes it (DESIGN CHOICE, log 91). -/
def kidEntry (w : W64) (node : BitVec 2048) (at_ i : Nat) : Option W32 :=
  let F := ptrField w node i
  let top := layPtrW w - 1
  let leaf := F.testBit top
  let low := F % 2 ^ top
  let count := if leaf then low % 2 ^ layLcb w else 0
  let raw := if leaf then low / 2 ^ layLcb w else low
  let off := raw * 2 ^ layScale w + (if layRel w then at_ else 0)
  if 2 ^ 28 ≤ off then none else some (BitVec.ofNat 32 (b2n leaf * 2 ^ 31 + count * 2 ^ 28 + off))

/-! ## Box tests (R184, R185) -/

def f32v (x : W32) : FVal := Fmt.f32.decode x.toNat
def f32neg (x : W32) : W32 := x ^^^ 0x80000000#32

def FVal.atMost (x y : FVal) : Bool := !x.isNan && !y.isNan && !y.less x
def FVal.finite (x : FVal) : Bool := !x.isNan && !x.isInf

/-- Word and byte of a node at a byte offset. -/
def nodeWord (node : BitVec 2048) (at_ : Nat) : W32 := node.extractLsb' (8 * at_) 32
def nodeByte (node : BitVec 2048) (at_ : Nat) : Nat := (byteOf node at_).toNat

/-- The planes of child i on one axis; none where they make the box empty. -/
def boxPlanes (w : W64) (node : BitVec 2048) (i axis : Nat) : Option (FVal × FVal) :=
  let b := layBoxAt w
  if layQ8 w then
    let o := f32v (nodeWord node (b + 4 * axis))
    let e := nodeByte node (b + 12 + axis)
    let lo := nodeByte node (b + 16 + 6 * i + axis)
    let hi := nodeByte node (b + 16 + 6 * i + 3 + axis)
    if !o.finite || decide (e = 255) || decide (hi < lo) then none
    else
      let plane := fun (q : Nat) => (sumVals .rn [o, .fin false q ((e : Int) - 127)]).1
      some (plane lo, plane hi)
  else
    let lo := f32v (nodeWord node (b + 24 * i + 4 * axis))
    let hi := f32v (nodeWord node (b + 24 * i + 12 + 4 * axis))
    if !lo.finite || !hi.finite || hi.less lo then none else some (lo, hi)

/-- near and far of one axis, or a miss. -/
def boxAxis (o d : W32) (p : FVal × FVal) : Option (FVal × FVal) :=
  let ov := f32v o
  let dv := f32v d
  if dv.isZero then (if p.1.atMost ov && ov.atMost p.2 then some (.inf true, .inf false) else none)
  else
    let q := fun (x : FVal) => (divVals (sumVals .rn [x, f32v (f32neg o)]).1 dv).1
    let q1 := q p.1
    let q2 := q p.2
    if q1.isNan || q2.isNan then none
    else
      let lo := if q2.less q1 then q2 else q1
      let hi := if q2.less q1 then q1 else q2
      some (f32v (BitVec.ofNat 32 (Fmt.f32.round .rd false lo).1), f32v (BitVec.ofNat 32 (Fmt.f32.round .ru false hi).1))

def FVal.maxOf (x y : FVal) : FVal := if x.less y then y else x
def FVal.minOf (x y : FVal) : FVal := if y.less x then y else x

/-- The value's FP32 word. -/
def f32word (x : FVal) : W32 := BitVec.ofNat 32 (Fmt.f32.round .rn false x).1

/-- near and far over the axes. -/
def Ray.boxRange (r : Ray) (w : W64) (node : BitVec 2048) (i : Nat) : Option (FVal × FVal) :=
  (List.range 3).foldl (fun acc a =>
    match acc, boxPlanes w node i a with
    | some x, some p =>
      (match boxAxis (r.o.toList.getD a 0) (r.d.toList.getD a 0) p with
        | some y => some (x.1.maxOf y.1, x.2.minOf y.2)
        | none => none)
    | _, _ => none) (some (f32v r.tmin, f32v r.tmax))

/-- The box test of every child of the buffered node: hit mask and sort keys. -/
def Ray.testBoxes (r : Ray) (w : W64) (node : BitVec 2048) : Nat × List W32 :=
  (List.range 8).foldl (fun acc i =>
    match if kidEmpty w node i then none else r.boxRange w node i with
    | some x => (acc.1 + (if x.1.atMost x.2 then 2 ^ i else 0), acc.2 ++ [f32word x.1])
    | none => (acc.1, acc.2 ++ [0])) (0, [])

/-- Eight keys of a list. -/
def keysOf (l : List W32) : Vector W32 8 := Vector.ofFn (fun i => l.getD i.val 0)

/-! ## Triangles (R186 to R189) -/

def fma32 (a b c : W32) : W32 := BitVec.ofNat 32 (Fmt.f32.fma .rn false a.toNat b.toNat c.toNat).1
def mul32 (a b : W32) : W32 := BitVec.ofNat 32 (Fmt.f32.mul .rn false a.toNat b.toNat).1
def div32 (a b : W32) : W32 := BitVec.ofNat 32 (Fmt.f32.div .rn false a.toNat b.toNat).1

/-- What one triangle record gives for a ray: t, u, v where it is hit (R187). -/
def Ray.hitTri (r : Ray) (m : List W32) : Option (W32 × W32 × W32) :=
  let e := fun (k j : Nat) => m.getD (4 * k + j) 0
  let o' := fun (k : Nat) => fma32 (e k 2) r.o[2] (fma32 (e k 1) r.o[1] (fma32 (e k 0) r.o[0] (e k 3)))
  let d' := fun (k : Nat) => fma32 (e k 2) r.d[2] (fma32 (e k 1) r.d[1] (mul32 (e k 0) r.d[0]))
  if (f32v (d' 2)).isZero || (List.range 3).any (fun k => (f32v (o' k)).isNan || (f32v (d' k)).isNan) then none
  else
    let t := div32 (f32neg (o' 2)) (d' 2)
    let u := fma32 (d' 0) t (o' 0)
    let v := fma32 (d' 1) t (o' 1)
    let zero : FVal := .fin false 0 0
    if zero.atMost (f32v u) && zero.atMost (f32v v) && ((sumVals .rn [f32v u, f32v v]).1).atMost (.fin false 1 0) && (f32v r.tmin).atMost (f32v t) && (f32v t).atMost (f32v r.tmax)
    then some (t, u, v) else none

/-- The closest-hit order (R188). -/
def Ray.offer (r : Ray) (hit : Vector W32 5) : Ray :=
  let better := !r.found || (f32v hit[0]).less (f32v r.best[0])
    || ((f32v hit[0]).same (f32v r.best[0]) && (decide (hit[3] < r.best[3]) || (decide (hit[3] = r.best[3]) && decide (hit[4] < r.best[4]))))
  let r := if better then { r with best := hit, found := true, tmax := hit[0] } else r
  if r.flags.testBit 1 then { r with state := 3, code := 0 } else r

/-- A ray fails with a reason of R193. -/
def Ray.fail (r : Ray) (reason : Nat) : Ray := { r with state := 5, code := BitVec.ofNat 8 reason }

/-! ## Reading nodes and records (R181, R193, R205, R457) -/

inductive YRead where
  | ok (bs : List Byte)
  /-- a not-present page, or what the second stage's own resolvers may mend: the fault -/
  | park (f : XFault)
  | fail (reason : Nat)
  deriving DecidableEq, Repr, Inhabited

/-- The team of a ray, its core and its context. -/
def State.rayTeam (s : State) (r : Ray) : Team := s.team r.team

/-- A ray's access that cannot wait reports its fault all the same (R390). -/
def State.rayReport (s : State) (r : Ray) (addr : Nat) (x : Xlat) (a : Acc) : State :=
  match x with
  | .fault f => (s.raiseToken (s.teamFault r.team addr 3) f a []).2
  | _ => s

/-- Read a node or a record: it parks the ray where its fault may be mended, at either stage; else the ray fails (R193, R205, R385, R397, R457). -/
def State.readNode (s : State) (r : Ray) (addr : Addr80) (n : Nat) : YRead × State :=
  let t := s.rayTeam r
  if !globalRange addr n then (.fail 4, s)
  else match s.engRead t.core (ckey t.func t.ctx) addr.toNat n .traversal with
    | (.ok x, s) => (if x.2 then .fail 7 else .ok x.1, s)
    | (.error (.fault f), s) => if f.waits then (.park f, s) else (.fail 5, s.rayReport r addr.toNat (.fault f) .traversal)
    | (.error _, s) => (.fail 5, s)

/-- Addresses of R183 and R186. -/
def Ray.entryAddr (r : Ray) (e : W32) : Addr80 := r.base + BitVec.ofNat 80 (16 * entOff e)

/-! ## The ray-state record (R195) -/

def vecBytes {n : Nat} (v : Vector W32 n) : List Byte := (v.toList.map (fun x => toBytes x 4)).flatten

def Ray.ctl (r : Ray) (state : Nat) : W32 :=
  BitVec.ofNat 32 (state * 2 ^ 24 + r.tprog % 8 * 2 ^ 21 + b2n r.found * 2 ^ 20 + b2n r.buf.isSome * 2 ^ 19 + b2n r.sorted * 2 ^ 18 + r.c.toNat * 2 ^ 6 + r.upc % 64)

def Ray.record (r : Ray) (state : Nat) (bcheck : W32) : List Byte :=
  vecBytes r.o ++ toBytes r.tmin 4 ++ vecBytes r.d ++ toBytes r.tmax 4 ++ toBytes (r.base.extractLsb' 0 64) 8
    ++ toBytes (BitVec.ofNat 32 ((r.base.extractLsb' 64 16).toNat + r.mask.toNat * 2 ^ 16 + r.flags % 4 * 2 ^ 24)) 4 ++ toBytes r.tag 4
    ++ vecBytes r.best ++ toBytes r.n 4 ++ toBytes (r.ctl state) 4 ++ toBytes (BitVec.ofNat 32 (r.hits.toNat * 2 ^ 24 + r.order.toNat)) 4
    ++ vecBytes r.cand ++ toBytes (BitVec.ofNat 32 r.spilled) 4 ++ toBytes (BitVec.ofNat 32 r.steps) 4 ++ toBytes (BitVec.ofNat 32 r.tests) 4
    ++ toBytes (BitVec.ofNat 32 r.nodes) 4 ++ toBytes bcheck 4 ++ toBytes r.b 4 ++ toBytes (0 : W32) 4

/-- The address of spilled entry j (R194). -/
def Ray.spillAddr (r : Ray) (j : Nat) : Addr80 := r.area + BitVec.ofNat 80 (128 + 4 * j)

/-- A write to the ray's area: whether it was performed whole. -/
def State.areaWrite (s : State) (r : Ray) (addr : Addr80) (bs : List Byte) : Bool × State :=
  let t := s.rayTeam r
  if bs = [] then (true, s)
  else if !globalRange addr bs.length then (false, s)
  else match s.engWrite t.core (ckey t.func t.ctx) addr.toNat bs with
    | (none, s) => (true, s)
    | (some x, s) => (false, s.rayReport r addr.toNat x .write)

/-- What is known of a parked record in an area goes with the record (R394). -/
def State.dropPark (s : State) (ctx : Nat) (area : Addr80) : State :=
  if (s.ctx ctx).parks.any (fun p => decide (p.area = area)) then s.updCtx ctx (fun c => { c with parks := c.parks.filter (fun p => decide (p.area ≠ area)) }) else s

/-- Write every resident entry and the record with a state; the ray's spilled count then covers every entry (R202, R205). -/
def State.writeRay (s : State) (r : Ray) (state : Nat) : Bool × Ray × State :=
  let b := match (s.rayTeam r).binding with | some b => b.bcheck | none => 0
  let x := s.areaWrite r (r.spillAddr r.spilled) ((r.stack.reverse.map (fun e => toBytes e 4)).flatten)
  let r := { r with spilled := r.spilled + r.stack.length, stack := [] }
  let y := x.2.areaWrite r r.area (r.record state b)
  (x.1 && y.1, r, y.2.dropPark (ckey (s.rayTeam r).func (s.rayTeam r).ctx) r.area)

/-- A ray that waits at a page, with the fault that `trv.res` will report (R199, R205). -/
def Ray.parked (r : Ray) (addr : Addr80) (f : XFault) : Ray := { r with state := 4, faultAddr := addr, faultCode := f.code .traversal, faultLevel := f.level, faultIpa := f.ipa }

/-- A ray meets a not-present page (R205, R485): its record is written with state parked, or it fails with reason 6. -/
def State.parkRay (s : State) (r : Ray) (addr : Addr80) (f : XFault) : Ray × State :=
  let r := { r with buf := none, hits := 0, sorted := false, order := 0 }
  let x := s.writeRay r 4
  (if x.1 then x.2.1.parked addr f else x.2.1.fail 6, x.2.2)

/-! ## The stack (R194) -/

/-- Push an entry: false where the ray failed. -/
def State.pushRay (s : State) (r : Ray) (limit : Nat) (e : W32) : Bool × Ray × State :=
  if limit ≤ r.stack.length + r.spilled then (false, r.fail 3, s)
  else if 64 ≤ r.stack.length then
    let x := s.areaWrite r (r.spillAddr r.spilled) (((r.stack.reverse.take 16).map (fun e => toBytes e 4)).flatten)
    if x.1 then (true, { r with stack := e :: r.stack.take (r.stack.length - 16), spilled := r.spilled + 16 }, x.2)
    else (false, r.fail 6, x.2)
  else (true, { r with stack := e :: r.stack }, s)

/-- Refill an empty resident stack from the area: false where the ray failed. -/
def State.refillRay (s : State) (r : Ray) : Bool × Ray × State :=
  if r.stack ≠ [] ∨ r.spilled = 0 then (true, r, s)
  else
    let m := Nat.min 16 r.spilled
    let at_ := r.spillAddr (r.spilled - m)
    let t := s.rayTeam r
    if !globalRange at_ (4 * m) then (false, r.fail 6, s)
    else match s.engRead t.core (ckey t.func t.ctx) at_.toNat (4 * m) .read with
      | (.ok x, s) =>
        if x.2 then (false, r.fail 7, s)
        else (true, { r with stack := ((List.range m).map (fun i => ofBytes 32 ((x.1.drop (4 * i)).take 4))).reverse, spilled := r.spilled - m }, s)
      | (.error x, s) => (false, r.fail 6, s.rayReport r at_.toNat x .read)

/-! ## Micro-operations (R190 to R193) -/

/-- How a micro-operation ends: at the next microword, at a named one, or with the ray parked, paused, done or failed. -/
inductive UEnd where
  | next
  | at_ (upc : Nat)
  | stop
  deriving DecidableEq, Repr, Inhabited

def Ray.bound (s : State) (r : Ray) : W64 := match (s.rayTeam r).binding with | some b => b.layout | none => 0

/-- A micro-operation executed: it counts, and upc moves; past word 63 the ray fails (R192, R193, R485). -/
def Ray.stepOn (r : Ray) (upc : Nat) : Ray :=
  let r := { r with steps := r.steps + 1, upc := upc }
  if 63 < upc ∧ r.state = 1 then r.fail 1 else r

/-- Perform a micro-operation for the ray of the unit's turn; with none there is no ray to perform it. -/
def microOp (g : State → Ray → UEnd × Ray × State) (s : State) : Out :=
  match s.uray with
  | none => .next s
  | some id =>
    match Assoc.find s.rays id with
    | none => .next s
    | some r =>
      if r.state ≠ 1 then .next s
      else
        let x := g s r
        let r' := match x.1 with
          | .next => x.2.1.stepOn (r.upc + 1)
          | .at_ u => x.2.1.stepOn u
          | .stop => x.2.1
        .next { x.2.2 with rays := Assoc.put x.2.2.rays id r' }

def execUopNop (s : State) : Out := microOp (fun s r => (.next, r, s)) s

/-- The order field: the child index at each position, zero past the node's last child (R195; DEDUCED, log 40). -/
def packOrder (l : List Nat) : BitVec 24 := BitVec.ofNat 24 (((List.range 8).map (fun k => l.getD k 0 * 2 ^ (3 * k))).foldl (· + ·) 0)

/-- `fetch`: node N into the buffer, or the ray parks or fails. -/
def uFetch (s : State) (r : Ray) : UEnd × Ray × State :=
  if entLeaf r.n then (.stop, r.fail 1, s)
  else
    match s.readNode r (r.entryAddr r.n) (layBytes (r.bound s)) with
    | (.ok bs, s) => (.next, { r with hits := 0, sorted := false, order := packOrder (List.range (layKids (r.bound s))), b := r.n, buf := some (ofBytes 2048 bs), nodes := r.nodes + 1 }, s)
    | (.park f, s) => let x := s.parkRay r (r.entryAddr r.n) f; (.stop, x.1, x.2)
    | (.fail k, s) => (.stop, r.fail k, s)

def execUopFetch (s : State) : Out := microOp uFetch s

def execUopBox (s : State) : Out :=
  microOp (fun s r => match r.buf with
    | none => (.stop, r.fail 1, s)
    | some node => let x := r.testBoxes (r.bound s) node; (.next, { r with hits := BitVec.ofNat 8 x.1, tnear := keysOf x.2 }, s)) s

/-- The child at position k of the order. -/
def Ray.orderAt (r : Ray) (k : Nat) : Nat := if r.sorted then field r.order (3 * k + 2) (3 * k) else k

/-- The hit children in order. -/
def Ray.hitKids (r : Ray) (w : W64) (node : BitVec 2048) : List Nat :=
  ((List.range (layKids w)).map r.orderAt).filter (fun i => r.hits.getLsbD i && !kidEmpty w node i)

/-- Insert a child before the first that its key comes before; children come in ascending index. -/
def insertKid (before : FVal → FVal → Bool) (key : Nat → FVal) (i : Nat) : List Nat → List Nat
  | [] => [i]
  | j :: js => if before (key i) (key j) then i :: j :: js else j :: insertKid before key i js


def uSort (desc : Bool) (s : State) (r : Ray) : UEnd × Ray × State :=
  let key := fun (i : Nat) => f32v (r.tnear.toList.getD i 0)
  let before := fun (x y : FVal) => if desc then y.less x else x.less y
  let kids := List.range (layKids (r.bound s))
  let hit := kids.filter (fun i => r.hits.getLsbD i)
  let sorted := hit.foldl (fun l i => insertKid before key i l) []
  (.next, { r with sorted := true, order := packOrder (sorted ++ kids.filter (fun i => !r.hits.getLsbD i)) }, s)

def execUopSort (desc : Bool) (s : State) : Out := microOp (uSort desc) s

/-- Push the entries of children, in the order of the list: false where the ray failed. -/
def State.pushKids (w : W64) (node : BitVec 2048) : State → Ray → List Nat → Bool × Ray × State
  | s, r, [] => (true, r, s)
  | s, r, i :: is =>
    match kidEntry w node (entOff r.b) i with
    | none => (false, r.fail 4, s)
    | some e =>
      match s.pushRay r (layLimit w) e with
      | (true, r, s) => State.pushKids w node s r is
      | x => x

def uPushh (s : State) (r : Ray) : UEnd × Ray × State :=
  match r.buf with
  | none => (.next, { r with hits := 0 }, s)
  | some node =>
    let w := r.bound s
    match State.pushKids w node s r (r.hitKids w node).reverse with
    | (true, r, s) => (.next, { r with hits := 0 }, s)
    | (false, r, s) => (.stop, r, s)

def execUopPushh (s : State) : Out := microOp uPushh s

def execUopPushn (s : State) : Out :=
  microOp (fun s r => match s.pushRay r (layLimit (r.bound s)) r.n with
    | (true, r, s) => (.next, r, s)
    | (false, r, s) => (.stop, r, s)) s

/-- `take`. A record may be loaded with hit bits and no node buffered, which no run writes: `take` then leaves N as it is, as `pushh` pushes nothing (DESIGN CHOICE, log 92). -/
def uTake (s : State) (r : Ray) : UEnd × Ray × State :=
  match r.buf with
  | none => (.next, r, s)
  | some node =>
    let w := r.bound s
    match r.hitKids w node with
    | [] => (.next, r, s)
    | i :: _ =>
      match kidEntry w node (entOff r.b) i with
      | none => (.stop, r.fail 4, s)
      | some e => (.next, { r with n := e, hits := r.hits &&& ~~~ (1#8 <<< i) }, s)

def execUopTake (s : State) : Out := microOp uTake s

def uPop (target : Nat) (s : State) (r : Ray) : UEnd × Ray × State :=
  match s.refillRay r with
  | (false, r, s) => (.stop, r, s)
  | (true, r, s) =>
    match r.stack with
    | [] => (.at_ target, r, s)
    | e :: rest => (.next, { r with n := e, stack := rest }, s)

def execUopPop (target : Fin 64) (s : State) : Out := microOp (uPop target.val) s

/-- `tri`: the record of one triangle tested, and how the ray ends there, or that the next follows. -/
def State.triOne (s : State) (r : Ray) : Option UEnd × Ray × State :=
  let addr := r.entryAddr r.n + BitVec.ofNat 80 (64 * r.tprog)
  match s.readNode r addr 64 with
  | (.park f, s) => let x := s.parkRay r addr f; (some .stop, x.1, x.2)
  | (.fail reason, s) => (some .stop, r.fail reason, s)
  | (.ok bs, s) =>
    let m := (List.range 16).map (fun i => (ofBytes 32 ((bs.drop (4 * i)).take 4) : W32))
    let flags := m.getD 14 0
    let on := fun (r : Ray) => ((none, { r with tprog := r.tprog + 1 }, s) : Option UEnd × Ray × State)
    if (flags.setWidth 8) &&& r.mask = 0 then on r
    else
      let r := { r with tests := r.tests + 1 }
      match r.hitTri m with
      | none => on r
      | some (t, u, v) =>
        let c : Vector W32 5 := #v[t, u, v, m.getD 12 0, m.getD 13 0]
        if bit flags 8 || r.flags.testBit 0 then
          let r := r.offer c
          if r.state = 3 then (some .next, r, s) else on r
        else (some .stop, { r with cand := c, state := 2 }, s)

/-- The triangles of a leaf in turn. The fuel is the triangles left. -/
def State.triFuel : Nat → State → Ray → UEnd × Ray × State
  | 0, s, r => (.next, { r with tprog := 0 }, s)
  | k + 1, s, r =>
    match s.triOne r with
    | (some e, r, s) => (e, r, s)
    | (none, r, s) => State.triFuel k s r

def uTri (s : State) (r : Ray) : UEnd × Ray × State :=
  if !entLeaf r.n then (.stop, r.fail 1, s) else State.triFuel (entCount r.n - r.tprog) s r

def execUopTri (s : State) : Out := microOp uTri s

def execUopJmp (target : Fin 64) (s : State) : Out := microOp (fun s r => (.at_ target.val, r, s)) s

/-- The conditions of `jif` (R192). -/
def Ray.cond (r : Ray) (c : JifCond) : Bool :=
  match c with
  | .leaf => entLeaf r.n
  | .inner => !entLeaf r.n
  | .hit => decide (r.hits ≠ 0)
  | .nohit => decide (r.hits = 0)
  | .cz => decide (r.c = 0)
  | .cnz => decide (r.c ≠ 0)
  | .found => r.found
  | .empty => r.stack.isEmpty && decide (r.spilled = 0)

def execUopJif (cond : JifCond) (target : Fin 64) (s : State) : Out :=
  microOp (fun s r => (if r.cond cond then .at_ target.val else .next, r, s)) s

def execUopSetc (imm : Byte) (s : State) : Out := microOp (fun s r => (.next, { r with c := imm }, s)) s

def execUopDecc (s : State) : Out := microOp (fun s r => (.next, { r with c := r.c - 1 }, s)) s

def execUopEnd (imm : Byte) (s : State) : Out := microOp (fun s r => (.next, { r with state := 3, code := imm }, s)) s

/-- The microword at upc with the fields its operation does not use cleared: they have no effect (R191). -/
def microWord (image : BitVec 2048) (upc : Nat) : Nat :=
  let w := image.toNat / 2 ^ (32 * upc) % 2 ^ 32
  let op := fld w 28 4
  op * 2 ^ 28 + (if op = 10 then fld w 24 3 else if op = 3 then fld w 24 1 else 0) * 2 ^ 24 + (if op = 11 ∨ op = 13 then fld w 16 8 else 0) * 2 ^ 16
    + (if op = 7 ∨ op = 9 ∨ op = 10 then fld w 0 6 else 0)

/-- The unit takes up a running ray on its core: the micro-operation at its upc, or the failure that stands in its way (R193). A ray asked for its save stands at its boundary. -/
def State.openUop (s : State) (ray : Nat) : Option Instr × State :=
  match Assoc.find s.rays ray with
  | none => (none, s)
  | some r =>
    let t := s.rayTeam r
    if r.state ≠ 1 ∨ r.saved ≠ 0 ∨ r.saveReq ≠ [] ∨ t.onCore t.core = false then (none, s)
    else match t.binding with
      | none => (none, s)
      | some b =>
        if 2 ^ 24 ≤ r.steps then (none, { s with rays := Assoc.put s.rays ray (r.fail 2) })
        else (decodeMicro (microWord b.image r.upc), { s with uray := some ray })

/-- The unit leaves the ray. -/
def State.closeUop (s : State) (_ : Nat) : State := { s with uray := none }

/-! ## Rays of a team -/

/-- The team's live ray with a handle. -/
def State.rayBy (s : State) (team handle : Nat) : Option Nat :=
  (s.rays.find? (fun p => decide (p.2.team = team) && decide (p.2.handle = handle))).map Prod.fst

def State.ray (s : State) (id : Nat) : Ray := (Assoc.find s.rays id).getD { team := 0, handle := 0, state := 0 }
def State.setRay (s : State) (id : Nat) (r : Ray) : State := { s with rays := Assoc.put s.rays id r }
def State.dropRay (s : State) (id : Nat) : State := { s with rays := Assoc.del s.rays id }

/-- The lowest handle no live ray of the team holds (R484). -/
def State.newHandle (s : State) (team : Nat) : Nat := ((List.range 512).find? (fun h => (s.rayBy team h).isNone)).getD 0

/-- The ray slots free for casts and loads on the team's core: saved rays of its teams come first (R179, R206, R491). -/
def State.freeRays (s : State) (team : Nat) : Nat :=
  let core := (s.team team).core
  512 - (s.rays.filter (fun p => (s.team p.2.team).onCore core)).length

/-- The result group (R200). -/
def Ray.result (r : Ray) : List W32 :=
  let code := if r.state = 3 ∨ r.state = 5 then r.code.toNat else 0
  let hit := if r.state = 2 then r.cand.toList else if r.found then r.best.toList else List.replicate 5 0
  BitVec.ofNat 32 (r.state + code * 2 ^ 8 + b2n r.found * 2 ^ 16) :: (hit ++ [BitVec.ofNat 32 r.nodes, BitVec.ofNat 32 r.tests])

def State.rayResult (s : State) (ray : Option Nat) : List W32 :=
  match ray with
  | some id => let r := s.ray id
    if r.saved = 1 ∧ (r.state = 4 ∨ r.decision.isSome = true) then ({ r with state := 1 } : Ray).result else r.result
  | none => List.replicate 8 0

/-- Observing a ray that is done, failed or parked makes the unit's writes visible to the core, as a fence from path Y to path T does (R204, R230, R238). -/
def State.observeRay (s : State) (id : Nat) : State :=
  let r := s.ray id
  if 3 ≤ r.state then s.endSnapshot (s.rayTeam r).core else s

/-! ## trv.bind (R197) -/

/-- The fields of a microword that R197 judges. -/
def badMicro (image : BitVec 2048) (i : Nat) : Bool :=
  let w := image.toNat / 2 ^ (32 * i) % 2 ^ 32
  decide (14 ≤ fld w 28 4) || fbit w 27 || decide (fld w 6 10 ≠ 0)

/-- The two addresses, read-checked; none for a misaligned block. -/
def checkBind (o : XOp) (s : State) (k : Nat) : Except (Nat × Addr80) (Option (At × At)) × State :=
  let la := s.xaddr k o.xa o.a
  let ia := s.xaddr k o.xb o.b
  if la.toNat % 8 ≠ 0 ∨ ia.toNat % 256 ≠ 0 then (.ok none, s)
  else match s.blockCheckIn k la 8 with
    | (.error e, s) => (.error e, s)
    | (.ok l, s) =>
      match s.blockCheckIn k ia 256 with
      | (.error e, s) => (.error e, s)
      | (.ok i, s) => (.ok (some (l, i)), s)

def bindWord (code index : Nat) : W32 := BitVec.ofNat 32 (code * 2 ^ 24 + index)

def State.bindOne (s : State) (k : Nat) (x : Option (At × At)) : Except Flt W32 × State :=
  match x with
  | none => (.ok (bindWord 1 0), s)
  | some (l, i) =>
    match s.readBlock k l 8 with
    | (.error c, s) => (.error (k, c, l.1), s)
    | (.ok lb, s) =>
      match s.readBlock k i 256 with
      | (.error c, s) => (.error (k, c, i.1), s)
      | (.ok ib, s) =>
        let layout := ofBytes 64 lb
        let image := ofBytes 2048 ib
        if !layOk layout then (.ok (bindWord 2 0), s)
        else match (List.range 64).find? (badMicro image) with
          | some n => (.ok (bindWord 3 n), s)
          | none =>
            if s.rays.any (fun p => decide (p.2.team = teamOf k)) then (.ok (bindWord 4 0), s)
            else (.ok 0, s.updTeam (teamOf k) (fun t => { t with binding := some { layout := layout, image := image, imageAddr := i.1, bcheck := crc32 (lb ++ ib) } }))

def execTrvBind (o : XOp) (s : State) : Out :=
  perform { ins := .trvBind o, check := checkBind o, act := actWord o.d (fun s k x => s.bindOne k x) } s

/-! ## trv.cast (R198) -/

/-- The ray that a group describes, with the area's and base's upper words. -/
def castRay (team handle : Nat) (g : List W32) (b : W32) : Ray :=
  let w := fun (i : Nat) => g.getD i 0
  { team := team, handle := handle, state := 1, o := #v[w 0, w 1, w 2], tmin := w 3, d := #v[w 4, w 5, w 6], tmax := w 7,
    base := (w 10).extractLsb' 0 16 ++ pair64 (w 8) (w 9), mask := (w 10).extractLsb' 16 8, flags := b.toNat % 4,
    area := (w 13).extractLsb' 0 16 ++ pair64 (w 11) (w 12), tag := w 14 }

/-- The code of the first check that fails. -/
def castCode (bound : Option Binding) (g : List W32) (b : W32) (r : Ray) : Nat :=
  let v := fun (i : Nat) => f32v (g.getD i 0)
  match bound with
  | none => 1
  | some bd =>
    if (List.range 8).any (fun i => (v i).isNan) || [0, 1, 2, 4, 5, 6].any (fun i => (v i).isInf) || [4, 5, 6].all (fun i => (v i).isZero) || (v 7).less (v 3) then 2
    else if 4 ≤ b.toNat ∨ field (g.getD 10 0) 31 24 ≠ 0 ∨ field (g.getD 13 0) 31 16 ≠ 0 then 3
    else if r.area.toNat % 128 ≠ 0 ∨ globalRange r.area (128 + 4 * layLimit bd.layout) = false then 4
    else if r.base.toNat % 16 ≠ 0 ∨ globalRange r.base 1 = false then 5
    else 0

def State.castOne (s : State) (k : Nat) (o : XOp) : Except Flt W32 × State :=
  let g := s.rdGroup k o.a 16
  let b := s.rd k o.b
  let r := castRay (teamOf k) (s.newHandle (teamOf k)) g b
  let code := castCode (s.team (teamOf k)).binding g b r
  if code ≠ 0 then (.ok (codeWord code 0), s)
  else let n := s.newId; (.ok (codeWord 0 r.handle), n.2.setRay n.1 r)

def execTrvCast (o : XOp) (s : State) : Out :=
  perform { ins := .trvCast o, check := serveCheck (.trvCast o) State.freeRays noCheck,
            act := actServed (.trvCast o) State.freeRays (actWord o.d (fun s k _ => s.castOne k o)) } s

/-! ## trv.poll, trv.res (R199, R207) -/

def handleOf (x : W32) : Nat := field x 8 0

/-- Each active thread parks for a ray. -/
def parkForRay (i : Instr) (o : XOp) (f : Focus) (s : State) (ks : List (Nat × Unit)) : Acted :=
  let tc := (s.team f.team).tcount
  { s := (ks.foldl (fun s x => s.updThread x.1 (fun th => { th with st := .parked, wait := .ray (handleOf (s.rd x.1 o.a)) i tc })) s).joinParked f o.d [] (ks.map (fun x => x.1)), stay := ks.map (fun x => x.1) }

def actPoll (o : XOp) (f : Focus) (s : State) (ks : List (Nat × Unit)) : Acted :=
  if (s.ctxOf (s.team f.team)).logMode ≠ 0 then parkForRay (.trvPoll o) o f s ks
  else
    let rays := ks.map (fun x => (x.1, s.rayBy f.team (handleOf (s.rd x.1 o.a))))
    let rs : List Result := rays.map (fun x => { k := x.1, dst := dstGroup o.d (s.rayResult x.2) })
    actVar (rays.foldl (fun s x => match x.2 with | some id => s.observeRay id | none => s) s) f false rs

def execTrvPoll (o : XOp) (s : State) : Out := perform { ins := .trvPoll o, check := noCheck, act := actPoll o } s

/-- What a thread finds at its ray (R199): the ray runs and the thread waits; the ray's translation fault, as code and address; or the result group, with a done or failed ray's handle freed. -/
inductive RayFound where
  | running
  | bad (code : Nat) (addr : Addr80)
  | result (ws : List W32)

/-- A parked ray's fault is reported: it is the thread's, and the record's in its area waits on the same token (R199, R391, R394). -/
def State.reportRay (s : State) (r : Ray) : State :=
  let t := s.rayTeam r
  let stage := if causeClass (BitVec.ofNat 10 r.faultCode) = 5 then 1 else 2
  let s := s.noteWalk r.team r.faultAddr.toNat { stage := stage, reason := r.faultCode % 8, level := r.faultLevel, ipa := r.faultIpa }
  (s.dropPark (ckey t.func t.ctx) r.area).updCtx (ckey t.func t.ctx) (fun c => { c with parks := { area := r.area, stage := stage, page := (if stage = 2 then r.faultIpa else r.faultAddr.toNat) / 65536 } :: c.parks })

def State.findRay (s : State) (k handle : Nat) : RayFound × State :=
  let found := s.rayBy (teamOf k) handle
  let r := match found with | some id => s.ray id | none => { team := 0, handle := 0, state := 0 }
  let s := match found with | some id => s.observeRay id | none => s
  if r.state = 1 ∨ r.saved ≠ 0 then (.running, s)
  else if r.state = 4 then (.bad r.faultCode r.faultAddr, s.reportRay r)
  else (.result r.result, match found with | some id => if r.state = 3 ∨ r.state = 5 then s.dropRay id else s | none => s)

/-- The threads of a `trv.res` in ascending seat order: results, causes, and those that park. -/
def findRays (i : Instr) (o : XOp) (tc : Nat) : State → List Nat → List Result × List Flt × List Nat × State
  | s, [] => ([], [], [], s)
  | s, k :: ks =>
    let h := handleOf (s.rd k o.a)
    let r := s.findRay k h
    match r.1 with
    | .running =>
      let t := findRays i o tc (r.2.updThread k (fun th => { th with st := .parked, wait := .ray h i tc })) ks
      (t.1, t.2.1, k :: t.2.2.1, t.2.2.2)
    | .bad code addr =>
      let t := findRays i o tc r.2 ks
      (t.1, (k, code, addr) :: t.2.1, t.2.2)
    | .result ws =>
      let t := findRays i o tc r.2 ks
      ({ k := k, dst := dstGroup o.d ws } :: t.1, t.2)

/-- `trv.res`: threads whose ray runs park, the others act at once. In record and replay modes every thread parks, so that each leave takes its place in the log (R199, R207, R317). -/
def actRes (o : XOp) (f : Focus) (s : State) (ks : List (Nat × Unit)) : Acted :=
  if (s.ctxOf (s.team f.team)).logMode ≠ 0 then parkForRay (.trvRes o) o f s ks
  else
    let r := findRays (.trvRes o) o (s.team f.team).tcount s (ks.map (fun x => x.1))
    let a := actParking r.2.2.2 f o.d r.1 r.2.2.1
    { a with faults := r.2.1 ++ a.faults }

def execTrvRes (o : XOp) (s : State) : Out := perform { ins := .trvRes o, check := noCheck, act := actRes o } s

/-- The destination group of a waiting `trv.res` or `trv.poll`. -/
def rayDst (i : Instr) : Src :=
  match i with
  | .trvRes o | .trvPoll o => o.d
  | _ => .zero

/-- A waiting thread acts on the state it finds: it leaves with the result group, or meets the ray's translation fault (R199). -/
def State.rayLeave (s : State) (k handle : Nat) (i : Instr) (tc : Nat) : State :=
  let pc := (s.thread k).pc
  let r := s.findRay k handle
  match r.1 with
  | .running => r.2
  | .bad code addr => (r.2.updThread k (fun th => { th with st := .ready, wait := .none })).recordCause k { pc := pc, addr := addr, code := code, late := false, done := 0, tcount := tc }
  | .result ws =>
    let s := r.2.logEvent 0x0D (r.2.posOf k tc) { payload := 1, match_ := 3 }
    (s.leaveFixed i { k := k, dst := dstGroup (rayDst i) ws }).settleSwitch (warpOf k)

/-- TRV_RES_LEAVE (R199). -/
def execTrvResLeave (thread : Nat) (s : State) : Out :=
  let th := s.thread thread
  match th.wait with
  | .ray handle i tc => .next (if th.st = .parked && s.warpRuns (warpOf thread) then s.atomically (fun s => s.rayLeave thread handle i tc) else s)
  | _ => .next s

/-! ## trv.cont (R189, R201) -/

/-- A paused `tri` goes on after its candidate: at the next record, or past the last one. -/
def Ray.resumeTri (r : Ray) : Ray :=
  let r := { r with state := 1 }
  if entCount r.n ≤ r.tprog + 1 then ({ r with tprog := 0 } : Ray).stepOn (r.upc + 1) else { r with tprog := r.tprog + 1 }

def Ray.decide_ (r : Ray) (b : Nat) : Ray :=
  let r := if b = 1 ∨ b = 2 then r.offer r.cand else r
  if r.state = 3 then r
  else if 2 ≤ b then { r with state := 3, code := 0 }
  else r.resumeTri

/-- One thread's `trv.cont`. A candidate that its team's restore has not yet loaded takes the decision with it. -/
def State.contOne (s : State) (k : Nat) (o : XOp) : State :=
  match s.rayBy (teamOf k) (handleOf (s.rd k o.a)) with
  | none => s
  | some id => let r := s.ray id
    let b := field (s.rd k o.b) 1 0
    if r.state ≠ 2 ∨ r.decision.isSome = true then s
    else s.setRay id (if r.saved = 0 then r.decide_ b else { r with decision := some b })

def execTrvCont (o : XOp) (s : State) : Out :=
  perform { ins := .trvCont o, check := noCheck, act := fun _ s ks => { s := ks.foldl (fun s x => s.contOne x.1 o) s } } s

/-! ## trv.save and RAY_SAVE (R202, R204, R206) -/

/-- {code in [31:24], the ray's state in [7:0]}: what is recorded, or where nothing is recorded the state in which the ray stays (R202; DEDUCED, log 41). -/
def saveWord (code state : Nat) : W32 := BitVec.ofNat 32 (code * 2 ^ 24 + state)

/-- What a `trv.save` answers at once; none where the save is still to come. -/
def State.saveAsk (s : State) (k : Nat) (o : XOp) : Option W32 × State :=
  match s.rayBy (teamOf k) (handleOf (s.rd k o.a)) with
  | none => (some (saveWord 1 0), s)
  | some id =>
    let r := s.ray id
    if r.state = 3 ∨ r.state = 5 then (some (saveWord 2 r.state), s)
    else (none, s.setRay id { r with saveReq := r.saveReq ++ [(k, (s.team (teamOf k)).tcount)] })

def saveAskAll (o : XOp) : State → List Nat → List (Nat × Option W32) × State
  | s, [] => ([], s)
  | s, k :: ks =>
    let r := s.saveAsk k o
    let t := saveAskAll o r.2 ks
    ((k, r.1) :: t.1, t.2)

/-- `trv.save`: each active thread asks for the save; results still to come are held (R202). -/
def actSave (o : XOp) (f : Focus) (s : State) (ks : List (Nat × Unit)) : Acted :=
  let tc := (s.team f.team).tcount
  let r := saveAskAll o s (ks.map (fun x => x.1))
  let checked := (s.ctxOf (s.team f.team)).checked
  let done := maskOf (ks.map (fun x => seatOf x.1))
  let s := r.1.foldl (fun s x =>
    let ds := dstOne o.d (x.2.getD 0)
    s.updThread x.1 (fun th => { th with out := th.out ++ [{ pc := f.pc, tcount := tc, dst := ds.filter (fun p => !p.1.1), held := if x.2.isNone then 1 else 0, has := x.2.isSome, done := done }] })) r.2
  let now := r.1.filterMap (fun x => x.2)
  match dstOne o.d (now.head?.getD 0) with
  | [((true, n), v)] =>
    if ks = [] then { s := s }
    else { s := s.updWarp (wkey f.team f.wid) (fun w => { w with out := w.out ++ [{ pc := f.pc, tcount := tc, dst := [((true, n), v)], held := (r.1.filter (fun x => x.2.isNone)).length, has := !now.isEmpty, differ := checked && now.any (fun x => decide (x ≠ v)), group := done, done := done }] }) }
  | _ => { s := s }

def execTrvSave (o : XOp) (s : State) : Out := perform { ins := .trvSave o, check := noCheck, act := actSave o } s

/-- The value of a save reaches the outstanding results of its instruction: those of the thread and of its warp. -/
def State.saveAnswer (s : State) (k tc : Nat) (x : W32) : State := s.answerHeld k tc (fun _ => some x)

/-- The outcome of a save for those that asked: the first, and the others, which find the ray as the first left it (R202). -/
def State.saveAnswers (s : State) (asked : List (Nat × Nat)) (first later : W32) : State :=
  match asked with
  | [] => s
  | a :: as => as.foldl (fun s p => s.saveAnswer p.1 p.2 later) (s.saveAnswer a.1 a.2 first)

/-- The save of `trv.save` at a boundary. Threads that wait on a ray no longer there leave at their next chance; saving frees the handle (R199). -/
def State.saveRay (s : State) (id : Nat) (r : Ray) : State :=
  if r.state = 4 then ((s.observeRay id).dropRay id).saveAnswers r.saveReq (saveWord 0 4) (saveWord 1 0)
  else if r.state = 3 ∨ r.state = 5 then (s.setRay id { r with saveReq := [] }).saveAnswers r.saveReq (saveWord 2 r.state) (saveWord 2 r.state)
  else
    let x := s.writeRay r r.state
    if x.1 then ((x.2.2.endSnapshot (s.rayTeam r).core).dropRay id).saveAnswers r.saveReq (saveWord 0 r.state) (saveWord 1 0)
    else (x.2.2.setRay id { x.2.1.fail 6 with saveReq := [] }).saveAnswers r.saveReq (saveWord 3 5) (saveWord 2 5)

/-- A ray of a team that leaves its core goes into the frame (R206). -/
def State.frameRay (s : State) (id : Nat) (r : Ray) : State :=
  if r.state = 3 ∨ r.state = 5 then s.setRay id { r with saved := 2 }
  else if r.state = 4 then s.setRay id { r with saved := 1 }
  else
    let x := s.writeRay r r.state
    x.2.2.setRay id (if x.1 then { x.2.1 with saved := 1 } else { x.2.1.fail 6 with saved := 2 })

/-! ## trv.load and RAY_REENTRY (R195, R203, R206) -/

def recWord (bs : List Byte) (at_ : Nat) : W32 := ofBytes 32 ((bs.drop at_).take 4)
def recVec (bs : List Byte) (at_ n : Nat) : Vector W32 n := Vector.ofFn (fun i => recWord bs (at_ + 4 * i.val))

/-- The ray of a record; whether check 3 holds stands beside it. -/
def rayOfRecord (bs : List Byte) (team handle : Nat) (area : Addr80) (limit : Nat) : Bool × Ray :=
  let w := recWord bs
  let ctl := w 0x48
  let bc := w 0x28
  let state := field ctl 31 24
  let r : Ray :=
    { team := team, handle := handle, state := if state = 2 then 2 else 1, o := recVec bs 0 3, tmin := w 0x0C, d := recVec bs 0x10 3, tmax := w 0x1C,
      base := bc.extractLsb' 0 16 ++ pair64 (w 0x20) (w 0x24), mask := bc.extractLsb' 16 8, flags := field bc 25 24, area := area, tag := w 0x2C,
      best := recVec bs 0x30 5, found := bit ctl 20, cand := recVec bs 0x50 5, n := w 0x44, upc := field ctl 5 0, b := w 0x78,
      hits := (w 0x4C).extractLsb' 24 8, order := (w 0x4C).extractLsb' 0 24, sorted := bit ctl 18, c := ctl.extractLsb' 6 8, spilled := (w 0x64).toNat,
      tprog := field ctl 23 21, steps := (w 0x68).toNat, nodes := (w 0x70).toNat, tests := (w 0x6C).toNat }
  (decide (state = 1 ∨ state = 2 ∨ state = 4) && decide (field bc 31 26 = 0) && decide (field ctl 17 14 = 0) && decide (w 0x7C = 0)
    && decide (r.tprog < entCount r.n) && decide (r.spilled ≤ limit), r)

/-- After a load, a buffered node is read again and its sort keys recomputed; a not-present page parks the ray and leaves its record as it was loaded (R195). -/
def State.rereadNode (s : State) (r : Ray) (buf : Bool) : Ray × State :=
  if !buf then (r, s)
  else
    let w := r.bound s
    match s.readNode r (r.entryAddr r.b) (layBytes w) with
    | (.ok bs, s) => let node := ofBytes 2048 bs; ({ r with buf := some node, tnear := keysOf (r.testBoxes w node).2 }, s)
    | (.park f, s) => (r.parked (r.entryAddr r.b) f, s)
    | (.fail reason, s) => (r.fail (if reason = 7 then 7 else 5), s)

/-- A ray resumes from its record: its node read again; one whose park's token was resumed with action 1 fails with reason access (R394). -/
def State.resumeRecord (s : State) (r : Ray) (parked buf : Bool) : Ray × State :=
  let t := s.rayTeam r
  let ctx := ckey t.func t.ctx
  let refused := parked && (s.ctx ctx).parks.any (fun p => decide (p.area = r.area) && p.refused)
  let s := s.dropPark ctx r.area
  if refused then (r.fail 5, s) else s.rereadNode r buf

/-- The state of a record, and whether a node is buffered. -/
def recParked (bs : List Byte) : Bool := decide (field (recWord bs 0x48) 31 24 = 4)
def recBuf (bs : List Byte) : Bool := bit (recWord bs 0x48) 19

/-- A `trv.load`'s own checks before the read (R203): a code, or the area's place. -/
def checkLoad (o : XOp) (s : State) (k : Nat) : Except (Nat × Addr80) (Nat ⊕ At) × State :=
  let area := s.xaddr k o.xa o.a
  match (s.team (teamOf k)).binding with
  | none => (.ok (.inl 1), s)
  | some b =>
    if area.toNat % 128 ≠ 0 ∨ globalRange area (128 + 4 * layLimit b.layout) = false then (.ok (.inl 4), s)
    else match s.accessCheck k area 128 .read with
      | (.error e, s) => (.error e, s)
      | (.ok x, s) => (.ok (.inr x), s)

def State.loadOneRay (s : State) (k : Nat) (x : Nat ⊕ At) : Except Flt W32 × State :=
  match x with
  | .inl code => (.ok (codeWord code 0), s)
  | .inr x =>
    match s.readBlock k x 128 with
    | (.error c, s) => (.error (k, c, x.1), s)
    | (.ok bs, s) =>
      match (s.team (teamOf k)).binding with
      | none => (.ok (codeWord 1 0), s)
      | some b =>
        let r := rayOfRecord bs (teamOf k) (s.newHandle (teamOf k)) x.1 (layLimit b.layout)
        if recWord bs 0x74 ≠ b.bcheck then (.ok (codeWord 2 0), s)
        else if !r.1 then (.ok (codeWord 3 0), s)
        else
          let s := s.release k 6 4
          let n := s.newId
          let y := n.2.resumeRecord r.2 (recParked bs) (recBuf bs)
          (.ok (codeWord 0 r.2.handle), y.2.setRay n.1 y.1)

def execTrvLoad (o : XOp) (s : State) : Out :=
  perform { ins := .trvLoad o, check := serveCheck (.trvLoad o) State.freeRays (checkLoad o),
            act := actServed (.trvLoad o) State.freeRays (actWord o.d (fun s k x => s.loadOneRay k x)) } s

/-- A saved ray re-enters from its record under its handle, or failed: reason 1 for a team restored unbound, reason 6 where its record cannot be read or fails check 3, and where its area fails check 4 (R206, R486; the last DEDUCED, log 53). -/
def State.reenterRay (s : State) (id : Nat) (r : Ray) : State :=
  let t := s.rayTeam r
  let back := fun (s : State) (y : Ray) => s.setRay id { y with saved := 0, saveReq := r.saveReq }
  if r.saved = 2 then back s r
  else match t.binding with
    | none => back s (r.fail 1)
    | some b =>
      if r.area.toNat % 128 ≠ 0 ∨ globalRange r.area (128 + 4 * layLimit b.layout) = false then back s (r.fail 6)
      else match s.engRead t.core (ckey t.func t.ctx) r.area.toNat 128 .read with
      | (.error x, s) => back (s.rayReport r r.area.toNat x .read) (r.fail 6)
      | (.ok x, s) =>
        let y := rayOfRecord x.1 r.team r.handle r.area (layLimit b.layout)
        if x.2 || !y.1 then back s (r.fail 6)
        else
          let z := s.resumeRecord y.2 (recParked x.1) (recBuf x.1)
          back z.2 (match r.decision with | some d => if z.1.state = 2 then z.1.decide_ d else z.1 | none => z.1)

/-- One ray saved: as asked by `trv.save`, once it is loaded, or because its team leaves. -/
def State.raySaveNow (s : State) (id : Nat) : State :=
  match Assoc.find s.rays id with
  | none => s
  | some r =>
    match r.saveReq with
    | _ :: _ => let s := if r.saved = 0 then s else s.reenterRay id r
      s.saveRay id (s.ray id)
    | [] => if r.saved = 0 ∧ (s.rayTeam r).saveAs.isSome = true then s.frameRay id r else s

/-- RAY_SAVE (R202, R206). -/
def execRaySave (ray : Nat) (s : State) : Out := .next (s.raySaveNow ray)

/-- The rays of a core's teams that hold its slots. -/
def State.raysIn (s : State) (core : Nat) : Nat := (s.rays.filter (fun p => (s.team p.2.team).onCore core && decide (p.2.saved = 0))).length

/-- RAY_REENTRY: in handle order, as slots free (R206). -/
def execRayReentry (ray : Nat) (s : State) : Out :=
  match Assoc.find s.rays ray with
  | none => .next s
  | some r =>
    let t := s.rayTeam r
    let first := s.rays.all (fun p => decide (p.2.team ≠ r.team) || decide (p.2.saved = 0) || decide (r.handle ≤ p.2.handle))
    .next (if r.saved ≠ 0 ∧ t.onCore t.core = true ∧ t.saveAs.isNone = true ∧ first = true ∧ s.raysIn t.core < 512 then s.reenterRay ray r else s)

end Sys2Proof.Machine
end

