-- ==== Sys2Proof/Machine/Cross.lean ====
section
/-! DEFINITION. Cross-thread instructions and the crossbar: the arrival of each, and what its performance writes (R141 to R156). -/

namespace Sys2Proof.Machine

/-! ## Folds (R98, R152) -/

/-- One step of a fold: integer operations wrap or compare in the type's signedness, `.f32` follows R98 and R128. -/
def foldAdd (t : Ty) (rnd : Rnd) (ftz : Bool) (a b : Nat) : Rounded := if t = .f32 then Fmt.f32.add rnd ftz a b else (aluAdd t a b, 0)
def foldMin (t : Ty) (ftz : Bool) (a b : Nat) : Rounded := if t = .f32 then Fmt.f32.minmax false ftz a b else (aluMin t a b, 0)
def foldMax (t : Ty) (ftz : Bool) (a b : Nat) : Rounded := if t = .f32 then Fmt.f32.minmax true ftz a b else (aluMax t a b, 0)

def scanStep (op : ScanOp) (o : ROp) : Nat → Nat → Rounded :=
  match op with
  | .add => foldAdd o.ty o.rnd o.ftz
  | .min => foldMin o.ty o.ftz
  | .max => foldMax o.ty o.ftz

def redStep (op : RedOp) (o : ROp) : Nat → Nat → Rounded :=
  match op with
  | .add => foldAdd o.ty o.rnd o.ftz
  | .min => foldMin o.ty o.ftz
  | .max => foldMax o.ty o.ftz
  | .and => fun a b => (a &&& b, 0)
  | .or => fun a b => (a ||| b, 0)
  | .xor => fun a b => (a ^^^ b, 0)

/-- The identity of an exclusive scan (R152). -/
def scanIdentity (op : ScanOp) (t : Ty) : Nat :=
  match op with
  | .add => 0
  | .min => if t = .f32 then 0x7F800000 else if Ty.signed t then 0x7FFFFFFF else 0xFFFFFFFF
  | .max => if t = .f32 then 0xFF800000 else if Ty.signed t then 0x80000000 else 0

/-- A left fold in ascending seat order (R152); one value alone is unchanged but for its flush. -/
def seatFold (ident : Nat) (t : Ty) (ftz : Bool) (step : Nat → Nat → Rounded) : List Nat → Rounded
  | [] => (ident, 0)
  | x :: xs => xs.foldl (fun acc y => let r := step acc.1 y; (r.1, acc.2 ||| r.2)) (if t = .f32 then Fmt.f32.flushed ftz x else x, 0)

/-! ## What each thread receives -/

/-- The source seat of an exchange (R149); none: its own value. -/
def xchSeat (m : XchMode) (seat : Nat) (b : W32) : Option Nat :=
  match m with
  | .abs => some (b.toNat % 32)
  | .rot => some ((seat + b.toNat) % 32)
  | .sh => let j : Int := (seat : Int) + b.toInt; if 0 ≤ j ∧ j ≤ 31 then some j.toNat else none
  | .mir => let j := (BitVec.ofNat 32 seat ^^^ b).toNat; if j ≤ 31 then some j else none

/-- The results of a convergent instruction for the named threads whose guard is true; `w` is the warp, `M` the mask (R149 to R155). -/
def State.convResult (s : State) (w : Nat) (M : W32) (i : Instr) (k : Nat) : Result :=
  let seat := seatOf k
  let at_ := fun j => w * 32 + j
  match i with
  | .xch m o =>
    let j := match xchSeat m seat (s.rd k o.b) with
      | some j => if M.getLsbD j then j else seat
      | none => seat
    { k := k, dst := dstTy o.ty o.d (s.rdTy (at_ j) o.ty o.a) }
  | .agr m o =>
    let vs := (seats M).map (fun j => s.rd (at_ j) o.a)
    let r := match m with
      | .every => vs.all (fun v => decide (v ≠ 0))
      | .some => vs.any (fun v => decide (v ≠ 0))
      | .none => vs.all (fun v => decide (v = 0))
      | .same => vs.all (fun v => decide (some v = vs.head?))
    { k := k, dst := dstOne o.d (if r then 1 else 0) }
  | .bal o => { k := k, dst := dstOne o.d (maskOf ((seats M).filter (fun j => decide (s.rd (at_ j) o.a ≠ 0)))) }
  | .scan op exc o =>
    let r := seatFold (scanIdentity op o.ty) o.ty o.ftz (scanStep op o)
      (((seats M).filter (fun j => decide (j < seat) || (!exc && decide (j = seat)))).map (fun j => (s.rd (at_ j) o.a).toNat))
    { k := k, dst := dstOne o.d (BitVec.ofNat 32 r.1), fx := r.2 }
  | .redw op o =>
    let r := seatFold 0 o.ty o.ftz (redStep op o) ((seats M).map (fun j => (s.rd (at_ j) o.a).toNat))
    { k := k, dst := dstOne o.d (BitVec.ofNat 32 r.1), fx := r.2 }
  | .matchSeats all o =>
    let own := s.rdTy k o.ty o.a
    let eq := (seats M).filter (fun j => decide (s.rdTy (at_ j) o.ty o.a = own))
    { k := k, dst := dstOne o.d (if all then (if eq = seats M then M else 0) else maskOf eq) }
  | .elect o =>
    let first := (seats M).find? (fun j => match (s.thread (at_ j)).convWait with | some x => x.2.2.1 | none => false)
    { k := k, dst := dstOne o.d (if first = some seat then 1 else 0) }
  | .xbar kk o =>
    let g := xbarG o.b
    let row := fun n => (Tbl.get (s.team (teamOf k)).pat (kk.val * 256 + seat * 8 + n)).toNat
    { k := k, dst := dstGroup o.d ((List.range g).map (fun n =>
        let e := row n
        if e / 32 < g ∧ M.getLsbD (e % 32) = true then s.rdAt (at_ (e % 32)) o.a (e / 32) else 0)) }
  | _ => { k := k }

/-- Rows of a pattern table from the writing threads' pairs (R154). The team's next `xbar` of any warp uses the new rows (R153; DESIGN CHOICE, log 81). -/
def State.loadPattern (s : State) (kk : Nat) (a : Src) (ks : List Nat) : State :=
  ks.foldl (fun s k =>
    let x := s.rd64 k a
    s.updTeam (teamOf k) (fun t => { t with pat := Tbl.setN t.pat (kk * 256 + seatOf k * 8) (toBytes x 8) })) s

/-- The threads that write: named, with their guard true. -/
def State.convWriters (s : State) (w : Nat) (M : W32) : List Nat :=
  ((seats M).map (fun j => w * 32 + j)).filter (fun k => match (s.thread k).convWait with | some x => x.2.2.1 | none => false)

/-- The writes of a performance: fixed latency, but for `xbar`; none where the values of a w destination differ in checked mode (R30, R146, R156). -/
def State.convCommit (s : State) (w : Nat) (pc : W64) (i : Instr) (rs : List Result) : State :=
  let t := s.team (w / 32)
  match i with
  | .xbar _ _ => s.issueResults pc t.tcount false (s.ctxOf t).checked rs
  | _ => s.commit rs

/-- The instructions that raise no uniformity fault here: `xbar`, whose result arrives later, and `match`, whose w destination takes the lowest-seated thread's mask (R30, R151, R156). -/
def noUniformity (i : Instr) : Bool :=
  match i with
  | .xbar _ _ | .matchSeats _ _ => true
  | _ => false

/-- What the writers write once the instruction is performed: their results, or their rows of a pattern table (R143, R153). -/
def State.convWrite (s : State) (w : Nat) (pc : W64) (i : Instr) (rs : List Result) (writers : List Nat) : State :=
  match i with
  | .xbarLd kk o => s.loadPattern kk.val o.a writers
  | _ => s.convCommit w pc i rs

/-- Perform a convergent instruction whose named threads have all parked (R142): all leave together. -/
def State.convPerform (s : State) (w : Nat) (pc : W64) (M : W32) (i : Instr) : State :=
  let ks := (seats M).map (fun j => w * 32 + j)
  let writers := s.convWriters w M
  let rs := writers.map (fun k => s.convResult w M i k)
  let t := s.team (w / 32)
  if (s.ctxOf t).checked && !noUniformity i && resultsDiffer rs then
    let s := ks.foldl (fun s k => s.updThread k (fun th => { th with st := .ready, wait := .none })) s
    s.recordAll pc t.tcount 0 (writers.map (fun k => (k, codeUniform, 0)))
  else
    let s := s.convWrite w pc i rs writers
    let s := ks.foldl (fun s k => s.leaveWait k (wordHdr i).sw) s
    { s.settleSwitch w with fresh := s.fresh + 1 }

/-! ## The instructions: arrivals (R141 to R145) -/

def execXch (m : XchMode) (o : ROp) (s : State) : Out := perform (convPlan (.xch m o)) s
def execAgr (m : AgrMode) (o : ROp) (s : State) : Out := perform (convPlan (.agr m o)) s
def execBal (o : ROp) (s : State) : Out := perform (convPlan (.bal o)) s
def execScan (op : ScanOp) (exc : Bool) (o : ROp) (s : State) : Out := perform (convPlan (.scan op exc o)) s
def execRedw (op : RedOp) (o : ROp) (s : State) : Out := perform (convPlan (.redw op o)) s
def execMatchSeats (all : Bool) (o : ROp) (s : State) : Out := perform (convPlan (.matchSeats all o)) s
def execElect (o : ROp) (s : State) : Out := perform (convPlan (.elect o)) s
def execXbar (k : Fin 16) (o : ROp) (s : State) : Out := perform (convPlan (.xbar k o)) s
def execXbarLd (k : Fin 16) (o : ROp) (s : State) : Out := perform (convPlan (.xbarLd k o)) s

end Sys2Proof.Machine
end

