-- ==== Sys2Proof/Machine/Turn.lean ====
section
/-! DEFINITION. Turns: which warp a lane or a core offers its next issue opportunity, the issue group it forms, the launch-byte stores, fetching and decoding (R26, R255, R315, R316, R331, R335, R337, R338, R358, R433). -/

namespace Sys2Proof.Machine

/-! ## Launch bytes (R358) -/

/-- Launch bytes are due for a launch whose parameter field is nonzero. -/
def lrHasParam (r : BitVec 512) : Bool := decide (lrParam r ≠ 0)

/-- The 16 launch bytes. -/
def launchBytes (r : BitVec 512) : List Byte := toBytes (lrParam r) 10 ++ List.replicate 6 0

/-- The launch-byte stores of one thread: plain path-T stores to stack offsets 0 to 15, or the cause of the one that faults. -/
def State.launchStore (s : State) (k : Nat) : State :=
  let t := s.team (teamOf k)
  let at_ : Addr80 := 0xFFFF#16 ++ (2#32 ++ 0#32)
  match s.resolve k at_ 16 .write with
  | (.ok (.mem ps), s) => (s.storePieces (s.filler k 3) ps (launchBytes t.lrec)).updThread k (fun th => { th with launchDue := false })
  | (.ok (.spad _), s) => s
  | (.error code, s) => (s.updThread k (fun th => { th with launchDue := true })).recordCause k { pc := lrQ t.lrec 0, addr := at_, code := code, late := false, done := 0, tcount := 0 }

/-! ## Which warp may have a turn -/

/-- The ready threads of a warp. -/
def State.readyIn (s : State) (w : Nat) : List Nat := (warpThreads w).filter (fun k => decide ((s.thread k).st = .ready))

/-- A thread of the warp has an open lock window, and goes on after a halt (R433). -/
def State.windowIn (s : State) (w : Nat) : Bool := (s.readyIn w).any (fun k => (s.thread k).win.isSome)

/-- The warp of a team may issue: it runs, it has skid left, a lock window is open in it, or the debugger steps it (R433, R450, R472). -/
def State.mayIssue (s : State) (team wid : Nat) : Bool :=
  let t := s.team team
  let w := s.warp (wkey team wid)
  match t.life with
  | .resident | .draining _ => !w.halted
  | .halting => (t.saveAs.isNone && !w.halted && decide (w.skid < 16) && decide (s.clock < t.haltAt + 64)) || s.windowIn (wkey team wid)
  | .debugHalted => w.step
  | _ => false

/-- The issue governor of the die withholds turns from this team: background first, then batch, then interactive, never urgent (R26). -/
def State.withheld (s : State) (t : Team) : Bool := decide (4 ≤ lrClass t.lrec + (s.die (dieOf t.core)).withheld) && decide (lrClass t.lrec ≠ 0)

/-- The warps of a core that may issue, with their place in turn order: berth * 32 + wid + 1 (R316). -/
def State.turnWarps (s : State) (core : Nat) : List (Nat × Nat × Nat) :=
  ((s.teams.filter (fun p => p.2.onCore core)).map (fun p =>
    ((List.range p.2.warps).filter (fun w => s.mayIssue p.1 w)).map (fun w => (p.2.berth * 32 + w + 1, p.1, w)))).flatten

def minKey : List (Nat × Nat × Nat) → Option (Nat × Nat × Nat)
  | [] => none
  | x :: xs =>
    match minKey xs with
    | none => some x
    | some y => if y.1 < x.1 then some y else some x

/-- The next of a cyclic order after a pointer. -/
def nextAfter (ptr : Nat) (xs : List (Nat × Nat × Nat)) : Option (Nat × Nat × Nat) :=
  match minKey (xs.filter (fun x => decide (ptr < x.1))) with
  | some x => some x
  | none => minKey xs

/-- A team of the core belongs to a context in record or replay mode (R316). -/
def State.ordered (s : State) (core : Nat) : Bool := s.teams.any (fun p => p.2.onCore core && decide ((s.ctxOf p.2).logMode ≠ 0))

/-- A thread of the warp waits for a result behind a switch marker: the warp holds the turn, even with other threads ready (R316; DEDUCED, log 31). -/
def State.holdsTurn (s : State) (w : Nat) : Bool := (warpThreads w).any (fun k => decide ((s.thread k).st = .switchParked))

/-- The turn that comes next reaches this warp: in record and replay modes the core's fixed order, which waits for a warp that the governor withholds its turn from; else round robin over its lane's warps that neither the spacing of R335 nor the governor holds (R26, R316, R337). -/
def State.isNext (s : State) (team wid : Nat) : Bool :=
  let t := s.team team
  let c := s.core t.core
  let ws := s.turnWarps t.core
  if s.ordered t.core then
    decide ((nextAfter c.coreTurn ws).map (fun x => x.2) = some (team, wid)) && !s.holdsTurn (wkey team wid) && !s.withheld t
  else
    let lane := (s.warp (wkey team wid)).lane
    let ls := ws.filter (fun x => let w := s.warp (wkey x.2.1 x.2.2); decide (w.lane = lane) && decide (w.readyAt ≤ s.clock) && !s.withheld (s.team x.2.1))
    decide ((nextAfter (Tbl.get c.turn lane).toNat ls).map (fun x => x.2) = some (team, wid))

/-- Pass the turn on: the pointers of the lane and of the core move to this warp. -/
def State.passTurn (s : State) (team wid : Nat) : State :=
  let t := s.team team
  let key := t.berth * 32 + wid + 1
  s.updCore t.core (fun c => { c with turn := Tbl.set c.turn (s.warp (wkey team wid)).lane (BitVec.ofNat 32 key), coreTurn := key })

/-! ## The issue group (R338) -/

def lowestPc (s : State) : List Nat → Option W64
  | [] => none
  | k :: ks =>
    match lowestPc s ks with
    | none => some (s.thread k).pc
    | some x => if x < (s.thread k).pc then some x else some (s.thread k).pc

/-- The address of the group: aged threads first, then threads without a yield mark, then all. -/
def State.groupPc (s : State) (ks : List Nat) : Option W64 :=
  match lowestPc s (ks.filter (fun k => decide (4096 ≤ (s.thread k).waitCount))) with
  | some x => some x
  | none =>
    match lowestPc s (ks.filter (fun k => !(s.thread k).yielded)) with
    | some x => some x
    | none => lowestPc s ks

/-- A halt has stopped the warp but for its threads with an open lock window (R433). -/
def State.onlyWindows (s : State) (w : Nat) : Bool :=
  let t := s.team (w / 32)
  let wp := s.warp w
  decide (t.life = .halting) && (t.saveAs.isSome || wp.halted || decide (16 ≤ wp.skid) || decide (t.haltAt + 64 ≤ s.clock))

/-- The threads that take part: the ready ones; of a warp that a halt has stopped, those with an open lock window (R433); of a stepped warp, those without a cause (R472). -/
def State.issuers (s : State) (w : Nat) : List Nat :=
  let t := s.team (w / 32)
  (s.readyIn w).filter (fun k => (!s.onlyWindows w || (s.thread k).win.isSome) && (decide (t.life ≠ .debugHalted) || decide (causeClass (s.thread k).rcd.cause = 15)))

/-- Threads that perform their waiting instruction again after a restore. -/
def Thread.isAgain (th : Thread) : Bool :=
  decide (th.st = .parked ∨ th.st = .ready) && (match th.wait with | .again _ => true | _ => false)

/-- Ready threads that stand at a header enter it; one whose launch bytes are still due stores them first, at its resume point and not in the handler (R340, R358). -/
def State.settleThread (s : State) (k : Nat) : State :=
  let th := s.thread k
  if th.st ≠ .ready then s
  else
    let trapped := (s.team (teamOf k)).handler
    let s := if th.launchDue && !trapped then s.launchStore k else s
    if (trapped = true ∨ (s.thread k).launchDue = false) ∧ th.pc = th.block then s.enter k th.pc else s

/-- A header whose earliest arrival lies 4,096 opportunities of the warp back (R340). -/
def State.overdue (s : State) (w : Nat) : Option W64 :=
  ((warpThreads w).find? (fun k => decide ((s.thread k).st = .reconverging) && decide ((s.thread k).arrived + 4096 ≤ (s.warp w).opp))).map (fun k => (s.thread k).pc)

/-- Release every header whose time is over: at most one per thread (R339, R340). -/
def State.releaseOverdue (w : Nat) : Nat → State → State
  | 0, s => s
  | n + 1, s =>
    match s.overdue w with
    | none => s
    | some H => State.releaseOverdue w n ((s.releaseAt w H).releaseAll w)

/-- Threads enter the headers they stand at, and the headers are released that may be; a step releases none by its time (R450). -/
def State.settleHeaders (s : State) (w : Nat) : State :=
  let s := ((warpThreads w).foldl (fun s k => s.settleThread k) s).releaseAll w
  if (s.team (w / 32)).life = .debugHalted then s else State.releaseOverdue w 32 s

/-! ## Fetch and decode (R331, R49 to R72) -/

/-- A fetch fault at an address, in every thread of the group. -/
def State.fetchFault (s : State) (f : Focus) (addr : Addr80) (code : Nat) : State :=
  (s.againDone f).recordAll f.pc (s.team f.team).tcount 0 (f.threads.map (fun k => (k, code, addr)))

/-- A code word has been fetched: its line stands in the core's L1 (R218, R224), and the word is kept as the first that the core has fetched there since its kernel start (R51). A fetch is no load: it marks no line read and adds to no digest (R231, R325); its line has the default priority (DESIGN CHOICE, log 11). -/
def State.keepCode (s : State) (k : Nat) (p : Piece) (word : Nat) : State :=
  let t := s.team (teamOf k)
  let key := ckey t.func t.ctx * 2 ^ 80 + p.va
  let s := (s.l1Fill { s.filler k 3 with digest := false } p).2
  if (Assoc.find (s.core t.core).code key).isSome then s else s.updCore t.core (fun c => { c with code := Assoc.put c.code key word })

/-- Fetch a word for the group's instruction. -/
def State.fetchWord (s : State) (f : Focus) (pc : Addr80) : Except Nat Nat × State :=
  let t := s.team f.team
  match s.codeAt f.team pc with
  | (.error code, s) => (.error code, s)
  | (.ok p, s) =>
    let w := s.codeValue t.core (ckey t.func t.ctx) p
    (.ok w, s.keepCode (f.threads.head?.getD 0) p w)

/-- The threads of a group whose block ends with the group's word. -/
def State.atLastWord (s : State) (f : Focus) : List Nat := f.threads.filter (fun k => decide ((s.thread k).after 1 = (s.thread k).nextHeader))

/-- The first word of a double word has no second one in the blocks that end with it: the threads there record the illegal encoding, and the others go on as the group (R49, R70, R71). -/
def State.cutDouble (s : State) (f : Focus) (word : Nat) : Focus × State :=
  let ends := s.atLastWord f
  let rest := f.threads.filter (fun k => !ends.contains k)
  if Machine.isDouble word && !ends.isEmpty && !rest.isEmpty then
    match decodeWord (s.warp (wkey f.team f.wid)).budget true word 0 with
    | .error r => ({ f with group := maskOf (rest.map seatOf) }, (s.illegalIn f ends r.cause).2)
    | .ok _ => (f, s)
  else (f, s)

/-- Fetch and decode the group's instruction. Where the second word of a double word cannot be fetched, that fault is the cause, whatever the first word holds (R72; DESIGN CHOICE, log 82). -/
def State.fetchDecode (s : State) (f : Focus) : Option Instr × State :=
  let t := s.team f.team
  let at_ : Addr80 := t.codeHi ++ f.pc
  match s.fetchWord f at_ with
  | (.error code, s) => (none, s.fetchFault f at_ code)
  | (.ok w, s) =>
    let (f, s) := s.cutDouble f w
    let last := !(s.atLastWord f).isEmpty
    match if isDouble w && !last then s.fetchWord f (t.codeHi ++ (f.pc + 8)) else (.ok 0, s) with
    | (.error code, s) => (none, s.fetchFault f (t.codeHi ++ (f.pc + 8)) code)
    | (.ok imm, s) =>
      match decodeWord (s.warp (wkey f.team f.wid)).budget last w imm with
      | .ok i => (some i, { s with focus := some f })
      | .error r => (none, s.illegal f r.cause)

/-! ## A turn -/

/-- The warp's opportunity counts, and the ready threads outside the group wait one more (R337, R338). -/
def State.countTurn (s : State) (team wid : Nat) (g : List Nat) : State :=
  let w := wkey team wid
  let s := s.updWarp w (fun x => { x with opp := x.opp + 1, step := false, readyAt := if g = [] then x.readyAt else s.clock + 8 })
  (s.readyIn w).foldl (fun s k => if g.contains k then s else s.updThread k (fun th => { th with waitCount := th.waitCount + 1 })) s

/-- Fetch and decode; a group that met a cause instead passes the turn. A fetch whose line fill a log holds back is made again at the warp's next turn (R320, R323). -/
def State.fetchTurn (s : State) (f : Focus) : Option Instr × State :=
  let r := s.fetchDecode f
  match r.2.missed with
  | some c => (none, s.backOut r.2 c)
  | none =>
    match r with
    | (none, s) => (none, s.passTurn f.team f.wid)
    | r => r

/-- The convergent instruction of a warp whose named threads have all parked: its address, mask and word (R142). -/
def State.convDue (s : State) (w : Nat) : Option (W64 × W32 × Instr) :=
  (warpThreads w).findSome? (fun k => match (s.thread k).convWait with
    | some x => if s.convReady w (s.thread k).pc x.2.1 x.1 then some ((s.thread k).pc, x.2.1, x.2.2.2) else none
    | none => none)

/-- A turn that a performance takes: it counts as an opportunity of the warp, and no group forms (R142; DEDUCED, log 83). -/
def State.convTurn (s : State) (team wid : Nat) (x : W64 × W32 × Instr) : State :=
  ((s.countTurn team wid []).convPerform (wkey team wid) x.1 x.2.1 x.2.2).passTurn team wid

/-- Everything of a turn up to the instruction the group performs: none where the turn is not offered, the warp passes, or a cause was recorded instead. -/
def State.openTurn (s : State) (team wid : Nat) : Option Instr × State :=
  let w := wkey team wid
  if !s.mayIssue team wid || !(s.isNext team wid || (s.warp w).step) then (none, s)
  else
    let s := (((s.retryLocks w).subLeaves w).chbLeaves w).settleHeaders w
    match lowestPc s ((warpThreads w).filter (fun k => (s.thread k).isAgain)) with
    | some pc =>
      let g := (warpThreads w).filter (fun k => (s.thread k).isAgain && decide ((s.thread k).pc = pc))
      let s := (g.foldl (fun s k => s.updThread k (fun th => { th with st := .ready })) s).countTurn team wid g
      s.fetchTurn { team := team, wid := wid, group := maskOf (g.map seatOf), pc := pc, again := true }
    | none =>
      match if s.onlyWindows w then none else s.convDue w with
      | some x => (none, s.convTurn team wid x)
      | none =>
        let ks := s.issuers w
        match s.groupPc ks with
        | none => (none, (s.countTurn team wid []).passTurn team wid)
        | some pc =>
          let g := ks.filter (fun k => decide ((s.thread k).pc = pc))
          (s.countTurn team wid g).fetchTurn { team := team, wid := wid, group := maskOf (g.map seatOf), pc := pc }

/-- Where the core follows the fixed order of record and replay modes, a move of a warp of its own waits for the warp's turn (R316). -/
def State.inOrder (s : State) (w : Nat) : Bool := !s.ordered (s.team (w / 32)).core || s.isNext (w / 32) (w % 32)

/-- CHB_WAIT_LEAVE: the generation has changed and the thread leaves, at the latest when its warp's next turn opens (R291, R316). -/
def execChbWaitLeave (thread : Nat) (s : State) : Out :=
  .next (if s.threadRuns thread && s.inOrder (warpOf thread) then (s.chbLeave thread).settleSwitch (warpOf thread) else s)

/-- CONVERGENT_PERFORM: the instruction of an address is performed in the warp's next issue opportunity once every named thread is parked at it with one region number and one mask (R142). -/
def execConvergentPerform (warp : Nat) (pc : W64) (s : State) : Out :=
  match (s.parkedAt warp pc).head? with
  | none => .next s
  | some k =>
    match (s.thread k).convWait with
    | none => .next s
    | some x => .next (if s.warpRuns warp && s.inOrder warp && s.convReady warp pc x.2.1 x.1 then s.convTurn (warp / 32) (warp % 32) (pc, x.2.1, x.2.2.2) else s)

/-- RECONVERGENCE_TIMEOUT: 4,096 opportunities after the earliest arrival a header is released, at the latest when the warp's next turn opens (R339, R340). -/
def execReconvergenceTimeout (warp : Nat) (header : W64) (s : State) : Out :=
  let ks := s.reconvergingAt warp header
  let due := ks.any (fun k => decide ((s.thread k).arrived + 4096 ≤ (s.warp warp).opp))
  .next (if s.warpRuns warp && s.inOrder warp && due then (s.releaseAt warp header).releaseAll warp else s)

/-- LOCK_RETRY: at the warp's next issue opportunity its threads parked at a lock retry, before its issue group forms (R254). -/
def execLockRetry (warp : Nat) (s : State) : Out :=
  .next (if s.mayIssue (warp / 32) (warp % 32) && s.isNext (warp / 32) (warp % 32) then s.retryLocks warp else s)

/-- The end of a turn: the focus goes; the skid counts; the turn passes, unless in record or replay mode the log held the instruction back: then the warp keeps its turn and counts no opportunity (R316, R320, R433). -/
def State.closeTurn (before s : State) (team wid : Nat) : State :=
  let w := wkey team wid
  let waits := match s.focus with
    | some f => if f.again then f.threads.any (fun k => (s.thread k).isAgain) else decide ((s.warp w).issued = (before.warp w).issued)
    | none => decide ((s.warp w).issued = (before.warp w).issued)
  let s := { s with focus := none }
  if waits = true ∧ before.ordered (before.team team).core = true ∧ (s.team team).life = (before.team team).life then
    let s := s.updWarp w (fun x => { x with opp := (before.warp w).opp, step := (before.warp w).step })
    (warpThreads w).foldl (fun s k => s.updThread k (fun th => { th with waitCount := (before.thread k).waitCount })) s
  else
    let s := if before.ordered (before.team team).core then s.idleAll team else s
    let s := if (before.team team).life = .halting ∧ (s.warp w).issued ≠ (before.warp w).issued then s.updWarp w (fun x => { x with skid := x.skid + 1 }) else s
    s.passTurn team wid

end Sys2Proof.Machine
end

