-- ==== Sys2Proof/Machine/Frames.lean ====
section
/-! DEFINITION. Team frames: their layout, what a save writes and what a restore reads back (R42, R347, R427, R439 to R442, R486). -/

namespace Sys2Proof.Machine

/-- A block of bytes from fields: offset, bytes, value; every other byte is zero. -/
def packBytes (size : Nat) (fs : List (Nat × Nat × Nat)) : List Byte :=
  leBytes size ((fs.map (fun f => f.2.2 % 2 ^ (8 * f.2.1) * 2 ^ (8 * f.1))).foldl (· + ·) 0)

/-- The little-endian number of n bytes at an offset of a block. -/
def uAt (bs : List Byte) (off n : Nat) : Nat := ofBytesNat ((bs.drop off).take n)

/-! ## Layout (R440) -/

/-- A frame's length in units of 4,096 bytes. -/
def frameUnits (r : BitVec 512) : Nat := (secOff r 10 + 4095) / 4096

/-! ## The header (R439) -/

structure FrameHead where
  kind : Nat
  seqNo : Nat
  team : Nat
  world : Nat
  reason : Nat := 0
  handler : Bool := false
  debugged : Bool := false
  tcount : Nat := 0
  run : Nat := 0
  prim : Nat := 0
  primTid : Nat := 0
  slot : Nat := 0
  codeHi : Nat := 0
  lrec : BitVec 512
  counts : List Nat := []

/-- The section entries: count and offset. -/
def FrameHead.entries (h : FrameHead) : List (Nat × Nat × Nat) :=
  (List.range h.counts.length).map (fun i => (0x80 + 8 * i, 8, h.counts.getD i 0 * 2 ^ 40 + secOff h.lrec i))

def FrameHead.bytes (h : FrameHead) : List Byte :=
  let raw := packBytes 256 ([(0, 8, 0x4816 * 2 ^ 48 + 2 ^ 40 + h.kind * 2 ^ 32 + frameUnits h.lrec), (8, 8, h.seqNo), (0x10, 4, h.team),
    (0x14, 4, h.world % 16 + h.reason % 16 * 16 + b2n h.handler * 256 + b2n h.debugged * 512), (0x18, 8, h.tcount % 2 ^ 48), (0x20, 8, h.run),
    (0x28, 4, h.prim % 1024 + h.primTid % 1024 * 2 ^ 16), (0x30, 2, h.slot % 32), (0x32, 2, h.codeHi), (0x40, 64, h.lrec.toNat)] ++ h.entries)
  raw.take 0x2C ++ leBytes 4 (crc32 raw).toNat ++ raw.drop 0x30

/-- The fcheck of a header's bytes holds. -/
def headOk (bs : List Byte) : Bool := decide ((crc32 (bs.take 0x2C ++ leBytes 4 0 ++ bs.drop 0x30)).toNat = uAt bs 0x2C 4)

/-- The world detail that a header's checks end with, if any (R442): version, check, world, world mask. -/
def State.headCheck (s : State) (func world kind : Nat) (bs : List Byte) : Option Nat :=
  if uAt bs 6 2 ≠ 0x4816 ∨ uAt bs 5 1 ≠ 1 ∨ uAt bs 4 1 ≠ kind then some 3
  else if !headOk bs then some 1
  else if uAt bs 0x14 4 % 16 ≠ world then some 0
  else if (s.func func).worldMask.getLsbD world = false then some 2
  else none

/-! ## Records and thread blocks (R427, R441) -/

/-- The 64-byte fault record. -/
def FaultRec.bytes (r : FaultRec) : List Byte :=
  packBytes 64 [(0, 8, r.pc.toNat), (8, 8, r.addr.toNat), (0x10, 2, r.addrhi.toNat), (0x12, 2, r.cause.toNat + 1024 * b2n r.late + 2048 * b2n r.more),
    (0x14, 4, r.done.toNat), (0x18, 4, r.fx.toNat), (0x1C, 4, r.skid % 32), (0x20, 8, r.token.toNat), (0x28, 8, r.tcount % 2 ^ 48)]

def FaultRec.ofBytes (b : List Byte) : FaultRec :=
  let c := uAt b 0x12 2
  { pc := BitVec.ofNat 64 (uAt b 0 8), addr := BitVec.ofNat 64 (uAt b 8 8), addrhi := BitVec.ofNat 16 (uAt b 0x10 2), cause := BitVec.ofNat 10 c,
    late := fbit c 10, more := fbit c 11, done := BitVec.ofNat 32 (uAt b 0x14 4), fx := BitVec.ofNat 32 (uAt b 0x18 4), skid := uAt b 0x1C 4 % 32,
    token := BitVec.ofNat 64 (uAt b 0x20 8), tcount := uAt b 0x28 8 % 2 ^ 48 }

/-- A reconvergence stack in a block: entry i from the bottom. -/
def stackBytes (off : Nat) (st : List W64) : List (Nat × Nat × Nat) := (List.range st.length).map (fun i => (off + 8 * i, 8, (st.reverse.getD i 0).toNat))
def stackOf (b : List Byte) (off depth : Nat) : List W64 := ((List.range (Nat.min depth 16)).map (fun i => BitVec.ofNat 64 (uAt b (off + 8 * i) 8))).reverse

/-- The participant mask of a convergent park (R145). -/
def Thread.partMask (th : Thread) : W32 :=
  match th.wait with
  | .conv _ m _ _ => m
  | .again m => m
  | _ => 0

/-- The state code a block holds: a switch-parked thread is saved as ready. -/
def TState.saveCode (x : TState) : Nat := if x = .switchParked then 0 else x.code

def Thread.block512 (th : Thread) : List Byte :=
  packBytes 512 ([(0, 8, th.pc.toNat), (8, 8, th.block.toNat),
    (0x10, 4, th.st.saveCode + b2n th.yielded * 8 + th.p.toNat * 16 + th.stack.length % 32 * 2 ^ 11 + th.seq.toNat * 2 ^ 16),
    (0x14, 4, th.fx.toNat), (0x18, 4, Nat.min th.waitCount 8191), (0x1C, 4, th.partMask.toNat), (0x20, 64, ofBytesNat th.shown.bytes)]
    ++ stackBytes 0x60 th.stack
    ++ (match th.trap with
      | none => []
      | some tr => [(0xE0, 8, tr.resume.toNat), (0xE8, 8, tr.block.toNat), (0xF0, 4, tr.stack.length % 32 * 2 ^ 11 + tr.seq.toNat * 2 ^ 16)] ++ stackBytes 0x100 tr.stack))

/-- The state that a code names. -/
def stateOfCode (c : Nat) : TState := if c = 2 then .parked else if c = 3 then .reconverging else if c = 4 then .exited else .ready

/-- The trap state of a restored thread: what the block holds, beside what only the device keeps. -/
def Thread.loadTrap (th : Thread) (b : List Byte) (rcd : FaultRec) : TrapState :=
  let c := uAt b 0xF0 4
  let old := th.trap.getD { resume := 0, saved := BitVec.ofNat 64 (uAt b 0xE0 8), block := 0, stack := [], seq := 0, before := .ready, wait := .none }
  { old with resume := BitVec.ofNat 64 (uAt b 0xE0 8), block := BitVec.ofNat 64 (uAt b 0xE8 8), stack := stackOf b 0x100 (fld c 11 5), seq := BitVec.ofNat 16 (fld c 16 16), rcd := rcd }

/-- A thread as its block gives it; a parked one parks again by performing its instruction once more (R145). -/
def Thread.load (th : Thread) (b : List Byte) (handler : Bool) : Thread :=
  let c := uAt b 0x10 4
  let st := stateOfCode (fld c 0 3)
  let r := FaultRec.ofBytes (b.drop 0x20)
  let entry := handler && th.showsEntry
  { th with st := st, pc := BitVec.ofNat 64 (uAt b 0 8), block := BitVec.ofNat 64 (uAt b 8 8), yielded := fbit c 3, p := BitVec.ofNat 7 (fld c 4 7),
            stack := stackOf b 0x60 (fld c 11 5), seq := BitVec.ofNat 16 (fld c 16 16), fx := BitVec.ofNat 32 (uAt b 0x14 4), waitCount := uAt b 0x18 4 % 8192,
            wait := if st = .parked then .again (BitVec.ofNat 32 (uAt b 0x1C 4)) else .none, out := [], rcd := if entry then th.rcd else r,
            trap := if handler && decide (st ≠ .exited) then some (th.loadTrap b (if entry then r else (th.trap.map (fun t => t.rcd)).getD {})) else none }

/-- The words and live counts of a block, from its header where it can be read. -/
def State.headerOf (s : State) (team : Nat) (block : W64) (old : Nat × Nat × Nat) : Nat × Nat × Nat :=
  match (s.fetch team ((s.team team).codeHi ++ block)).1 with
  | .ok w => (hdrLen w, hdrVlive w, hdrWlive w)
  | .error _ => old

/-- A thread, or its trap state, that its frame puts in another block than it was saved in takes that block's length and live counts from its header. -/
def State.reblockThread (s : State) (team : Nat) (old : W64) (th : Thread) : Thread :=
  match decide (th.block = old) with
  | true => th
  | false => let m := s.headerOf team th.block (th.len, th.vlive, th.wlive); { th with len := m.1, vlive := m.2.1, wlive := m.2.2 }

def State.reblockTrap (s : State) (team : Nat) (old : W64) (tr : TrapState) : TrapState :=
  match decide (tr.block = old) with
  | true => tr
  | false => let m := s.headerOf team tr.block (tr.len, tr.vlive, tr.wlive); { tr with len := m.1, vlive := m.2.1, wlive := m.2.2 }

def State.reblock (s : State) (k : Nat) (old : Thread) : State :=
  let th := s.reblockThread (teamOf k) old.block (s.thread k)
  s.setThread k { th with trap := th.trap.map (s.reblockTrap (teamOf k) ((old.trap.map (fun x => x.block)).getD 0)) }

/-- A restored thread: its block's bytes and its registers. -/
def State.loadThread (s : State) (k : Nat) (b : List Byte) (handler : Bool) (v : Tbl 32) : State :=
  let old := s.thread k
  (s.setThread k { old.load b handler with v := v }).reblock k old

/-! ## What a save writes -/

/-- The live counts of the block a thread stands in: of the header it passed, or of the one it stands before where that can be read (R42). -/
def State.liveOf (s : State) (k : Nat) : Nat × Nat :=
  let th := s.thread k
  let t := s.team (teamOf k)
  if th.st = .exited then (0, 0)
  else if th.pc = th.block then
    match s.walkBoth (ckey t.func t.ctx) (t.codeHi ++ th.block).toNat .fetch with
    | .ok pa key _ _ _ => let w := s.numAt key pa 8; (hdrVlive w, hdrWlive w)
    | _ => (th.vlive, th.wlive)
  else (th.vlive, th.wlive)

/-- The vector registers and the w registers that a warp saves. -/
def State.savedRegs (s : State) (w : Nat) : Nat × Nat :=
  let ls := (warpThreads w).map s.liveOf
  let v := (ls.map Prod.fst).foldl Nat.max 0
  let x := (ls.map Prod.snd).foldl Nat.max 0
  (Nat.min ((v + 7) / 8 * 8) (s.warp w).budget, if x = 63 then 64 else x)

/-- A warp's entry. -/
def State.warpEntry (s : State) (team wid : Nat) : List Byte :=
  let w := s.warp (wkey team wid)
  let n := s.savedRegs (wkey team wid)
  let bind : List (Nat × Nat × Nat) := match (s.team team).binding with
    | some b => if wid = 0 then [(0x108, 8, b.layout.toNat), (0x110, 10, b.imageAddr.toNat), (0x11A, 1, 1), (0x11C, 4, b.bcheck.toNat)] else []
    | none => []
  packBytes 512 ((List.range n.2).map (fun i => (4 * i, 4, (Tbl.get w.w i).toNat)) ++ [(0x100, 1, w.lane), (0x101, 1, Nat.min w.skid 31), (0x102, 2, n.1), (0x104, 1, n.2)] ++ bind)

/-- Row r of a warp's vector registers. -/
def State.vectorRow (s : State) (w r : Nat) : List Byte := ((warpThreads w).map (fun k => leBytes 4 (Tbl.get (s.thread k).v r).toNat)).flatten

/-- The offset of a warp's registers in their section. -/
def vectorOff (r : BitVec 512) (wid : Nat) : Nat := 128 * ((lrBudgets r).take wid).foldl (· + ·) 0

/-- The entries of a ray and of a matrix operation. -/
def rayEntry (r : Ray) : List Byte :=
  packBytes 48 ([(0, 2, r.handle), (2, 2, if r.saved = 2 then 1 else 0), (6, 10, r.area.toNat)] ++ (if r.saved = 2 then [(16, 32, ofBytesNat ((r.result.map (fun x => toBytes x 4)).flatten))] else []))
def mxEntry (o : MxOp) : List Byte := packBytes 256 [(0, 128, o.block.toNat), (0x80, 8, o.word.toNat), (0x88, 2, o.ticket)]

/-- The pattern that lies over a section whose entries the manual gives no layout: what they hold stands in the frame, in a form that is the device's own (R440; log 5). -/
def veiled (sec : Nat) (bs : List Byte) : List Byte := (List.range bs.length).zipWith (fun i b => b ^^^ Config.frameByte sec i) bs

/-- A copy's entry: its request, its progress record and its `cp.el` requests (R295). -/
def copyEntry (id : Nat) (c : Copy) : List Byte :=
  packBytes 1024 ([(0, 64, c.packet.toNat), (64, 8, c.low), (72, 8, c.map.toNat), (80, 8, c.pc.toNat), (88, 8, c.tcount), (96, 2, c.thread % 1024), (98, 1, c.scope), (99, 1, c.width),
      (100, 1, b2n c.isEl + 2 * b2n c.failed + 4 * b2n c.gaugeSent), (101, 1, c.reqs.length), (104, 4, c.done.toNat), (108, 8, id)]
    ++ ((List.range c.reqs.length).map (fun i => let r := c.reqs.getD i default
        [(128 + 24 * i, 10, r.1.toNat), (138 + 24 * i, 10, r.2.1.toNat), (148 + 24 * i, 4, r.2.2.getD 0xFFFFFFFF)])).flatten)

/-- A copy as its entry gives it. -/
def Copy.ofEntry (c : Copy) (b : List Byte) : Copy :=
  let fl := uAt b 100 1
  { c with packet := BitVec.ofNat 512 (uAt b 0 64), low := uAt b 64 8, map := BitVec.ofNat 64 (uAt b 72 8), pc := BitVec.ofNat 64 (uAt b 80 8), tcount := uAt b 88 8,
           thread := c.team * 1024 + uAt b 96 2 % 1024, scope := uAt b 98 1, width := uAt b 99 1, isEl := fbit fl 0, failed := fbit fl 1, gaugeSent := fbit fl 2, done := BitVec.ofNat 32 (uAt b 104 4),
           reqs := (List.range (uAt b 101 1)).map (fun i => let h := uAt b (148 + 24 * i) 4
             (BitVec.ofNat 80 (uAt b (128 + 24 * i) 10), BitVec.ofNat 80 (uAt b (138 + 24 * i) 10), if h = 0xFFFFFFFF then none else some h)) }

def State.raysOf (s : State) (team : Nat) : List Ray := (s.rays.filter (fun p => decide (p.2.team = team))).map Prod.snd
def State.opsOf (s : State) (team : Nat) : List MxOp := (s.mops.filter (fun p => decide (p.2.team = team) && p.2.live)).map Prod.snd
def State.copiesOf (s : State) (team : Nat) : List (Nat × Copy) := s.copies.filter (fun p => decide (p.2.team = team))
/-- The entries of a team's core that are its: as subscriber, and as publisher; a subscription to itself has both (R297). -/
def State.subsOf (s : State) (team : Nat) : Nat :=
  (s.subs.filter (fun p => decide (p.2.subscriber = team))).length + (s.subs.filter (fun p => decide (p.2.publisher = team) && p.2.pubOpen)).length

/-- The header of a save. -/
def State.saveHead (s : State) (team reason : Nat) : FrameHead :=
  let t := s.team team
  let p := s.primary team
  { kind := 1, seqNo := t.seqNo, team := t.index, world := t.world, reason := reason, handler := t.handler, debugged := t.debugged, tcount := t.tcount,
    run := t.run, prim := p.1.toNat, primTid := p.2, slot := t.slot, codeHi := t.codeHi.toNat, lrec := t.lrec,
    counts := [t.warps, 32 * t.warps, (lrBudgets t.lrec).foldl (· + ·) 0, t.spadSize, 16, t.chambers.length, (s.opsOf team).length, (s.raysOf team).length, (s.copiesOf team).length, s.subsOf team] }

/-- The parts of a frame: offset and bytes. Of the subscription entries, which stay with the device, the frame has free bytes (log 5). -/
def State.frameParts (s : State) (team reason : Nat) : List (Nat × List Byte) :=
  let t := s.team team
  let r := t.lrec
  let at_ := fun i => secOff r i
  let ws := List.range t.warps
  [(0, (s.saveHead team reason).bytes)]
  ++ ws.map (fun w => (at_ 0 + 512 * w, s.warpEntry team w))
  ++ (teamThreads team t).map (fun k => (at_ 1 + 512 * (k % 1024), (s.thread k).block512))
  ++ (ws.map (fun w => (List.range (s.savedRegs (wkey team w)).1).map (fun i => (at_ 2 + vectorOff r w + 128 * i, s.vectorRow (wkey team w) i)))).flatten
  ++ [(at_ 3, Tbl.getN t.spad 0 t.spadSize), (at_ 4, Tbl.getN t.pat 0 4096), (at_ 5, (t.chambers.map (fun c => leBytes 4 c)).flatten),
      (at_ 6, ((s.opsOf team).map mxEntry).flatten), (at_ 7, ((s.raysOf team).map rayEntry).flatten),
      (at_ 8, veiled 8 ((s.copiesOf team).map (fun p => copyEntry p.1 p.2)).flatten), (at_ 9, veiled 9 (List.replicate (64 * s.subsOf team) 0))]

/-- Write parts at their places through the function's second stage: the first that faults stops the writing (R493). -/
def State.writeParts (s : State) (func base : Nat) : List (Nat × List Byte) → Option XFault × State
  | [] => (none, s)
  | p :: ps =>
    match s.physWrite func (base + p.1) p.2 with
    | (some f, s) => (some f, s)
    | (none, s) => State.writeParts s func base ps

/-- A saved team's registers, scratchpad and patterns stand in its frame alone. -/
def State.emptyTeam (s : State) (team : Nat) : State :=
  let t := s.team team
  let s := (teamThreads team t).foldl (fun s k => s.updThread k (fun th => { th with v := [], out := [], win := none })) s
  let s := (List.range t.warps).foldl (fun s w => s.updWarp (wkey team w) (fun x => { x with w := [], out := [] })) s
  s.updTeam team (fun t => { t with spad := [], pat := [] })

/-! ## What a restore reads -/

/-- The vector registers of a seat from the rows of its warp. -/
def vectorsOf (rows : List Byte) (seat m : Nat) : Tbl 32 :=
  (List.range m).foldl (fun acc r => Tbl.set acc r (BitVec.ofNat 32 (uAt rows (128 * r + 4 * seat) 4))) []

/-- One warp and its threads. -/
def State.loadWarp (s : State) (team wid : Nat) (handler : Bool) : Except XFault State :=
  let t := s.team team
  match s.readPart t 0 (512 * wid) 512, s.readPart t 1 (16384 * wid) 16384 with
  | .ok e, .ok tb =>
    let m := uAt e 0x102 2
    (match s.readPart t 2 (vectorOff t.lrec wid) (128 * m) with
      | .ok rows =>
        let ws : Tbl 32 := (List.range (uAt e 0x104 1)).foldl (fun acc i => Tbl.set acc i (BitVec.ofNat 32 (uAt e (4 * i) 4))) []
        let s := s.updWarp (wkey team wid) (fun w => { w with w := ws, skid := uAt e 0x101 1, out := [] })
        .ok ((List.range 32).foldl (fun s seat => s.loadThread (tkey team wid seat) (tb.drop (512 * seat)) handler (vectorsOf rows seat m)) s)
      | .error f => .error f)
  | .error f, _ => .error f
  | _, .error f => .error f

/-- All warps. -/
def State.loadWarps (s : State) (team : Nat) (handler : Bool) : List Nat → Except XFault State
  | [] => .ok s
  | w :: ws =>
    match s.loadWarp team w handler with
    | .ok s => State.loadWarps s team handler ws
    | .error f => .error f

/-- The binding of warp 0's entry: reinstated where the image read again still matches its check (R486). -/
def State.rebind (s : State) (team : Nat) (e : List Byte) : State :=
  let t := s.team team
  if uAt e 0x11A 1 % 2 = 0 then s.setTeam team { t with binding := none }
  else
    match decodeAddr (BitVec.ofNat 80 (uAt e 0x110 10)) with
    | .global va =>
      (match s.engRead t.core (ckey t.func t.ctx) va 256 .read with
        | (.ok r, s) =>
          let lay := (e.drop 0x108).take 8
          let ck := crc32 (lay ++ r.1)
          s.updTeam team (fun t => { t with binding := if !r.2 && decide (ck.toNat = uAt e 0x11C 4) then some { layout := BitVec.ofNat 64 (uAt e 0x108 8), image := ofBytes 2048 r.1, imageAddr := BitVec.ofNat 80 (uAt e 0x110 10), bcheck := ck } else none })
        | (.error _, s) => s.updTeam team (fun t => { t with binding := none }))
    | .spad off =>
      let lay := (e.drop 0x108).take 8
      let img := s.spadLoad team off 256
      let ck := crc32 (lay ++ img)
      s.setTeam team { t with binding := if off + 256 ≤ t.spadSize ∧ ck.toNat = uAt e 0x11C 4 then some { layout := BitVec.ofNat 64 (uAt e 0x108 8), image := ofBytes 2048 img, imageAddr := BitVec.ofNat 80 (uAt e 0x110 10), bcheck := ck } else none }
    | _ => s.setTeam team { t with binding := none }

/-- Words of a byte list as a table. -/
def bytesTbl (bs : List Byte) : Tbl 8 := Tbl.setN [] 0 bs

/-- A ray of a saved team as its frame gives it: its area, and of one done or failed its result (R206). -/
def Ray.ofEntry (r : Ray) (b : List Byte) : Ray :=
  let w := fun (i : Nat) => (BitVec.ofNat 32 (uAt b (16 + 4 * i) 4) : W32)
  let x := (w 0).toNat
  if uAt b 2 2 % 2 = 0 then { r with saved := 1, area := BitVec.ofNat 80 (uAt b 6 10) }
  else { r with saved := 2, area := BitVec.ofNat 80 (uAt b 6 10), state := if x % 256 = 3 then 3 else 5, code := BitVec.ofNat 8 (x / 256), found := fbit x 16,
                best := Vector.ofFn (fun i => w (i.val + 1)), nodes := (w 6).toNat, tests := (w 7).toNat }

/-- A matrix operation as its frame gives it: the block copy and what its status word tells (R175). -/
def MxOp.ofEntry (o : MxOp) (b : List Byte) : MxOp :=
  let st := uAt b 0x80 8
  { o with block := BitVec.ofNat 1024 (uAt b 0 128), rows := fld st 0 9, nan := fbit st 55, ovf := fbit st 54, sn := fbit st 53 }

/-- The entry of a section that a test finds. -/
def findEntry (size n : Nat) (sec : List Byte) (is : List Byte → Bool) : Option (List Byte) :=
  ((List.range n).map (fun i => (sec.drop (size * i)).take size)).find? is

/-- The rays, operations and copies of a team take what its frame holds; one that the frame does not list is gone. -/
def State.loadEntries (s : State) (team : Nat) (mx : Nat × List Byte) (ry : Nat × List Byte) (cp : Nat × List Byte) : State :=
  let cs := veiled 8 cp.2
  let mops := s.mops.filterMap (fun p =>
    if p.2.team = team ∧ p.2.live = true then (findEntry 256 mx.1 mx.2 (fun b => decide (uAt b 0x88 2 = p.2.ticket % 2 ^ 16))).map (fun b => (p.1, p.2.ofEntry b)) else some p)
  let rays := s.rays.filterMap (fun p =>
    if p.2.team = team then (findEntry 48 ry.1 ry.2 (fun b => decide (uAt b 0 2 = p.2.handle))).map (fun b => (p.1, p.2.ofEntry b)) else some p)
  let copies := s.copies.filterMap (fun p =>
    if p.2.team = team then (findEntry 1024 cp.1 cs (fun b => decide (uAt b 108 8 = p.1))).map (fun b => (p.1, p.2.ofEntry b)) else some p)
  { s with mops := mops, rays := rays, copies := copies }

/-- Everything that a frame gives back but the binding. -/
def State.loadImage (s : State) (team : Nat) : Except XFault State :=
  let t := s.team team
  match s.physRead t.func t.frame.toNat 256 with
  | .error f => .error f
  | .ok h =>
    let ctl := uAt h 0x14 4
    let count := fun (i : Nat) => fld (uAt h (0x80 + 8 * i) 8) 40 24
    let n := count 5
    match s.loadWarps team (fbit ctl 8) (List.range t.warps), s.readPart t 3 0 t.spadSize, s.readPart t 4 0 4096, s.readPart t 5 0 (4 * n) with
    | .ok s, .ok sp, .ok pt, .ok ch =>
      (match s.readPart t 6 0 (256 * count 6), s.readPart t 7 0 (48 * count 7), s.readPart t 8 0 (1024 * count 8) with
      | .ok mx, .ok ry, .ok cp => .ok ((s.loadEntries team (count 6, mx) (count 7, ry) (count 8, cp)).updTeam team (fun t => { t with handler := fbit ctl 8, debugged := fbit ctl 9, tcount := uAt h 0x18 8 % 2 ^ 48, run := uAt h 0x20 8, slot := uAt h 0x30 2 % 32, codeHi := BitVec.ofNat 16 (uAt h 0x32 2), spad := bytesTbl sp, pat := bytesTbl pt, chambers := (List.range n).map (fun i => uAt ch (4 * i) 4) }))
      | .error f, _, _ => .error f
      | _, .error f, _ => .error f
      | _, _, .error f => .error f)
    | .error f, _, _, _ => .error f
    | _, .error f, _, _ => .error f
    | _, _, .error f, _ => .error f
    | _, _, _, .error f => .error f

/-! ## The chambers of a saved scratchpad (R296, R312) -/

/-- A chamber of the image. -/
def State.imageChamber (s : State) (team off : Nat) : Chamber := Chamber.ofWord (ofBytesNat (s.imageRead team off 16))
def State.putImageChamber (s : State) (team off : Nat) (c : Chamber) : State := s.imageWrite team off (leBytes 16 c.word)

end Sys2Proof.Machine
end

