-- ==== Sys2Proof/Machine/Teams.lean ====
section
/-! DEFINITION. The life of a team: placement and restore by dispatch, pre-emption, the decision after a halt, aborts, saves, the end of a team and of its launch (R92, R226, R243, R285, R296, R297, R311 to R313, R327 to R332, R358, R362 to R370, R390 to R394, R400, R401, R432 to R442, R450, R486, R487, R493). -/

namespace Sys2Proof.Machine

/-! ## Berth records (R362) -/

def brSeq (r : BitVec 256) : Nat := field r 255 192
def brQueue (r : BitVec 256) : Nat := field r 191 180
def brTeam (r : BitVec 256) : Nat := field r 175 144
def brFrame (r : BitVec 256) : W64 := r.extractLsb' 64 64
def brCtx (r : BitVec 256) : Nat := field r 63 56
def brFunc (r : BitVec 256) : Nat := field r 55 49
def brWorld (r : BitVec 256) : Nat := field r 48 45
def brLane (r : BitVec 256) : Nat := field r 44 40
def brRestore (r : BitVec 256) : Bool := bit r 1
def brValid (r : BitVec 256) : Bool := bit r 0

/-- The Reserved fields of a berth record read as zero (R5). -/
def brMask : BitVec 256 := ~~~ (BitVec.ofNat 256 (15 * 2 ^ 176 + (2 ^ 16 - 1) * 2 ^ 128 + 2047 * 4))

/-- The record that the scheduling core writes for a team. -/
def berthRecord (func ctx queue seqNo index lane world : Nat) (frame : W64) (lr : BitVec 512) (restore : Bool) : BitVec 256 :=
  BitVec.ofNat 256 (seqNo % 2 ^ 64 * 2 ^ 192 + queue % 4096 * 2 ^ 180 + index % 2 ^ 32 * 2 ^ 144 + frame.toNat * 2 ^ 64 + ctx % 256 * 2 ^ 56 + func % 128 * 2 ^ 49
    + world % 16 * 2 ^ 45 + lane % 32 * 2 ^ 40 + (lrWarps lr - 1) % 32 * 2 ^ 35 + lrPwarps lr * 2 ^ 30 + field (lrCtl lr) 18 13 * 2 ^ 24 + field (lrCtl lr) 12 7 * 2 ^ 18
    + lrClass lr * 2 ^ 16 + lrPrio lr * 2 ^ 13 + b2n restore * 2 + 1)

def berthKey (core berth : Nat) : Nat := core * 32 + berth
def State.berthAt (s : State) (core berth : Nat) : BitVec 256 := Tbl.get s.berths (berthKey core berth)

/-- The team that stands on a berth. -/
def State.teamAt (s : State) (core berth : Nat) : Option Nat := (s.teams.find? (fun p => p.2.onCore core && decide (p.2.berth = berth))).map Prod.fst

/-- The launch that a queue number and a sequence number name, and a team of it. -/
def State.launchBy (s : State) (queue seqNo : Nat) : Option Nat := (s.launches.find? (fun p => decide (p.2.queue = queue) && decide (p.2.seqNo = seqNo))).map Prod.fst
def State.teamBy (s : State) (launch index : Nat) : Option Nat :=
  (s.teams.find? (fun p => decide (p.2.launch = launch) && decide (p.2.index = index) && decide (p.2.life ≠ .ended))).map Prod.fst

/-! ## Room on a core (R285, R297, R332) -/

/-- The lane of a warp. -/
def laneFor (lane0 w : Nat) : Nat := (lane0 + w) % 32

/-- The vector budget in use on a lane of a core. -/
def State.laneUse (s : State) (core lane : Nat) : Nat :=
  ((s.teams.filter (fun p => p.2.onCore core)).map (fun p =>
    ((List.range p.2.warps).map (fun w => let x := s.warp (wkey p.1 w); if x.lane = lane then x.budget else 0)).foldl (· + ·) 0)).foldl (· + ·) 0

/-- The scratchpad bytes of a core's teams. -/
def State.spadUse (s : State) (core : Nat) : Nat := ((s.teams.filter (fun p => p.2.onCore core)).map (fun p => p.2.spadSize)).foldl (· + ·) 0

/-- Every lane, the scratchpad and the tables have room for a team with so many chambers and entries. -/
def State.fits (s : State) (core berth lane0 : Nat) (r : BitVec 512) (chambers subs pubs : Nat) : Bool :=
  decide (core < 384) && decide (berth < 32) && !brValid (s.berthAt core berth)
  && (List.range 32).all (fun l => decide (s.laneUse core l + (((List.range (lrWarps r)).filter (fun w => decide (laneFor lane0 w = l))).map (lrBudget r)).foldl (· + ·) 0 ≤ 384))
  && decide (s.spadUse core + lrSpad r ≤ 524288)
  && decide (s.directoryUse core + chambers ≤ 256) && decide (s.subscriberUse core + subs ≤ 16) && decide (s.publisherUse core + pubs ≤ 16)

/-- A valid berth of the core holds a team of another world. -/
def State.otherWorld (s : State) (core world : Nat) : Bool :=
  s.teams.any (fun p => p.2.onCore core && decide (p.2.world ≠ world))

/-- The team of a context that last left a core: whose position a clear's publications carry (R321). -/
def State.lastLeft (s : State) (core ctx : Nat) : Pos :=
  let ks := s.teams.filter (fun p => decide (p.2.core = core) && decide (ckey p.2.func p.2.ctx = ctx))
  match ks.foldl (fun (b : Option (Nat × Team)) p => match b with | none => some p | some q => if q.2.leftAt < p.2.leftAt then some p else b) none with
  | some p => s.posTeam p.1
  | none => { ctx := ctx, team := 0, index := 0, core := core, tl := true }

/-- The world clear (R401): every pending byte is published, the L1 and the lock table emptied, the new world latched. -/
def State.worldClear (s : State) (core world : Nat) : State :=
  let s := (s.core core).l1.foldl (fun s p => s.publish core p.1 8 (s.lastLeft core (ckey p.2.func p.2.ctx))) s
  s.updCore core (fun c => { c with l1 := [], locks := [], world := world })

/-! ## Launches and their ends (R370, R432) -/

/-- How a team ended. -/
structure TeamEnd where
  index : Nat
  status : Nat
  cause : BitVec 10 := 0x3C0
  addr : Addr80 := 0
  nfault : Nat := 0
  subst : Bool := false
  crefSeen : Bool := false
  logOver : Bool := false
  restarted : Bool := false
  demoted : Bool := false

/-- The cause of one team stands before that of another: lower class, then lower index (R432). -/
def causeBefore (c : BitVec 10) (i : Nat) (d : BitVec 10) (j : Nat) : Bool :=
  decide (c ≠ 0x3C0) && (decide (d = 0x3C0) || decide (causeClass c < causeClass d) || (decide (causeClass c = causeClass d) && decide (i < j)))

/-- One team of a launch has ended; with the last the launch completes. -/
def State.creditEnd (s : State) (id : Nat) (e : TeamEnd) : State :=
  if (Assoc.find s.launches id).isNone then s else
  let l := s.launch id
  let better := causeBefore e.cause e.index l.cause l.causeAt
  let l := { l with ended := l.ended + 1, nfault := l.nfault + e.nfault, status := if l.status = 2 ∨ e.status = 2 then 2 else Nat.max l.status e.status, cause := if better then e.cause else l.cause, causeAt := if better then e.index else l.causeAt, faddr := if better then e.addr.extractLsb' 0 64 else l.faddr, fhi := if better then e.addr.extractLsb' 64 16 else l.fhi, subst := l.subst || e.subst, crefSeen := l.crefSeen || e.crefSeen, logOver := l.logOver || e.logOver, restarted := l.restarted || e.restarted, demoted := l.demoted || e.demoted }
  let s := s.setLaunch id l
  if l.total ≤ l.ended then s.completeLaunch id else s

/-- The address a record of a thread reports. -/
def FaultRec.address (r : FaultRec) : Addr80 := r.addrhi ++ r.addr

/-- The primary cause of a team with its address: of its threads' records, or of a late cause whose thread had exited; a forced cause stands alone (R277, R432, R442, R493). -/
def State.teamCause (s : State) (team : Nat) : BitVec 10 × Addr80 :=
  let t := s.team team
  let p := s.primary team
  let a := (s.thread (team * 1024 + p.2)).shown.address
  match t.forced with
  | some c => (c, 0)
  | none => if causeBefore t.lateCause 0 p.1 1 && decide (causeClass t.lateCause < causeClass p.1 ∨ p.1 = 0x3C0) then (t.lateCause, t.lateHi ++ t.lateAddr) else if causeClass p.1 = 15 then (p.1, 0) else (p.1, a)

/-- The threads whose records hold a class other than none, and those of the others whose causes came after their exit. -/
def State.faulted (s : State) (team : Nat) : Nat :=
  let rec_ := fun k => decide (causeClass (s.thread k).shown.cause < 15)
  ((teamThreads team (s.team team)).filter rec_).length + ((s.team team).lateThreads.filter (fun k => !rec_ k)).length

def State.endOf (s : State) (team : Nat) : TeamEnd :=
  let t := s.team team
  let c := s.teamCause team
  let sub := t.subst || (teamThreads team t).any (fun k => (s.thread k).substituted)
  { index := t.index, status := t.status, cause := c.1, addr := c.2, nfault := s.faulted team, subst := sub, crefSeen := t.crefSeen, logOver := t.logStall, restarted := t.restarted, demoted := t.demoted }

/-! ## Berth events (R363, R370) -/

/-- A kind-7 record of statuses 2 to 5. -/
def State.berthEvent (s : State) (team status : Nat) : State :=
  let t := s.team team
  s.postEvent t.func (s.queue t.queue).ring { kind := 7, status := status, queue := t.queue, seqNo := t.seqNo, faddr := BitVec.ofNat 64 (t.index % 2 ^ 32 + t.core * 2 ^ 32 + t.berth * 2 ^ 41) }

/-- The kind-7 record of an unhandled team (R438). -/
def State.unhandledEvent (s : State) (team : Nat) : State :=
  let t := s.team team
  let c := s.teamCause team
  s.postEvent t.func (s.queue t.queue).ring { kind := 7, status := 1, queue := t.queue, seqNo := t.seqNo, cause := c.1, nfault := s.faulted team, faddr := c.2.extractLsb' 0 64, fhi := c.2.extractLsb' 64 16 }

/-- Dispatch clears a berth's record and, for a context in host scheduling mode, reports to its writer. -/
def State.freeBerth (s : State) (team status : Nat) : State :=
  let t := s.team team
  let s := { s with berths := Tbl.set s.berths (berthKey t.core t.berth) 0 }
  if (s.ctxOf t).hostSched then s.berthEvent team status else s

/-- The BERTH record of the log (R317, R322). -/
def State.logBerth (s : State) (p : Pos) (event berth cause : Nat) : State :=
  s.logEvent 8 p { payload := event + berth * 8 + cause * 256, match_ := 2 ^ 18 - 1 }

/-- A switch transaction commits once no team of the outgoing context is on a core: its berths are the incoming context's (R369). -/
def State.switchCheck (s : State) : State :=
  match s.mod.switch with
  | none => s
  | some x =>
    if s.teams.any (fun p => decide (p.2.func = x.func) && decide (p.2.ctx = x.out) && p.2.onCore p.2.core) then s
    else
      let s := s.updMod (fun m => { m with switch := none })
      let s := (s.updCtx (ckey x.func x.out) (fun c => { c with switchedOut := true })).updCtx (ckey x.func x.into) (fun c => { c with switchedOut := false })
      s.updFunc x.func (fun f => { f with cmd := { done := f.cmd.done + 1, busy := false, result := 0 }, running := .none })

/-- A frame is free again (R362). -/
def State.freeFrame (s : State) (ctx base : Nat) : State := s.updCtx ctx (fun c => { c with frames := Assoc.del c.frames base })

/-- A team's frame is free again, its registers gone. -/
def State.retireTeam (s : State) (team : Nat) : State :=
  let t := s.team team
  let s := s.freeFrame (ckey t.func t.ctx) t.frame.toNat
  { s with threads := s.threads.filter (fun p => decide (teamOf p.1 ≠ team)), warps := s.warps.filter (fun p => decide (p.1 / 32 ≠ team)), rays := s.rays.filter (fun p => decide (p.2.team ≠ team)) }

/-- A record queue's range not yet marked is marked at its consumer's end (R375). -/
def State.closeTeam (s : State) (team : Nat) : State :=
  let s := s.disarmAll team
  let s := (s.rqMark team).2
  let e := s.endOf team
  let t := s.team team
  let s := (s.setTeam team { t with life := .ended, leftAt := s.clock }).retireTeam team
  s.creditEnd t.launch e

/-! ## Aborts (R438) -/

/-- The locks of a team's threads are released. -/
def State.dropTeamLocks (s : State) (team : Nat) : State :=
  let t := s.team team
  let s := s.updCore t.core (fun c => { c with locks := c.locks.filter (fun p => decide (teamOf p.2 ≠ team)) })
  (teamThreads team t).foldl (fun s k => s.updThread k (fun th => { th with win := none })) s

/-- Matrix operations of an aborted team: one on its engine is to stop at its row boundary, a saved one ends at once. -/
def State.abortOps (s : State) (team : Nat) : State :=
  (s.mops.filter (fun p => decide (p.2.team = team))).foldl (fun s p =>
    match Assoc.find s.mops p.1 with
    | none => s
    | some o =>
      if o.state = 4 then s.mxStop p.1 { o with abort := true }
      else if 1 ≤ o.state ∧ o.state ≤ 3 then s.putOp p.1 { o with abort := true } else s) s

/-- Copies of an aborted team fail: fs in their chambers, of the saved image where the team is off its core. -/
def State.abortCopies (s : State) (team : Nat) (off : Bool) : State :=
  (s.copies.filter (fun p => decide (p.2.team = team))).foldl (fun s p =>
    let s := if off then (p.2.chambers.filter (fun c => (s.team team).armed c)).foldl (fun s c => s.putImageChamber team c { s.imageChamber team c with fs := true }) s else s
    s.copyFail p.1 0 0 false) s

/-- Abort a team, on its core or off it, with a completion status (R438). -/
def State.abortTeam (s : State) (team status : Nat) : State :=
  let t := s.team team
  let off := !t.onCore t.core
  let s := (s.setTeam team { t with status := status, saveAs := none, leaving := false, tokens := [], debugged := false, handler := t.handler, debugCall := 0 }).dropTeamLocks team
  let s := s.abortCopies team off
  let s := s.abortOps team
  let s := { s with rays := s.rays.filter (fun p => decide (p.2.team ≠ team)) }
  let s := s.endSubs team
  let s := s.disarmAll team
  s.updTeam team (fun t => { t with life := if off then .endingOff else .ending, lastExit := (team * 1024, t.tcount) })

/-- An unhandled team whose launch has fact 0 is saved with reason 2; with fact 1 it is aborted (R438). -/
def State.unhandled (s : State) (team : Nat) : State :=
  let t := s.team team
  if lrFact t.lrec then s.abortTeam team 1 else s.setTeam team { t with saveAs := some 2 }

/-! ## After a halt (R433, R434, R450) -/

/-- Every thread goes on from its resume point: warps issue again, the skid counts start anew. -/
def State.goOn (s : State) (team : Nat) : State :=
  let t := s.team team
  let s := (List.range t.warps).foldl (fun s w => s.updWarp (wkey team w) (fun x => { x with halted := false, skid := 0, step := false })) s
  let allExited := (teamThreads team t).all (fun k => decide ((s.thread k).st = .exited))
  s.setTeam team { t with life := if allExited then .ending else .resident, debugCall := 0, debugged := false }

/-- The records that a test picks out are emptied. -/
def State.clearRecords (s : State) (team : Nat) (f : FaultRec → Bool) : State :=
  (teamThreads team (s.team team)).foldl (fun s k => s.updThread k (fun th => if f th.rcd then { th with rcd := {} } else th)) s

def isTranslation (c : BitVec 10) : Bool := decide (causeClass c = 5 ∨ causeClass c = 6)

/-- The classes that the records hold, other than none. -/
def State.classes (s : State) (team : Nat) : List Nat :=
  ((teamThreads team (s.team team)).map (fun k => causeClass (s.thread k).rcd.cause)).filter (fun c => decide (c < 15))

/-- The team goes on, or is saved as an outstanding pre-emption asks. -/
def State.afterDecision (s : State) (team : Nat) : State :=
  let t := s.team team
  if t.leaving then s.setTeam team { t with life := .halting, saveAs := some (if t.debugged then 3 else 0), debugCall := 0 } else s

/-- The debug halt (R450): on its berth, counted, signalled. -/
def State.debugStop (s : State) (team : Nat) : State :=
  let t := s.team team
  let s := s.setTeam team { t with life := .debugHalted, debugged := true, debugCall := 0 }
  match s.mod.attached with
  | none => s
  | some a =>
    (s.updFunc a.1 (fun f => { f with mbEvt := BitVec.ofNat 64 (((f.mbEvt.toNat / 2 ^ 32 + 1) % 2 ^ 32) * 2 ^ 32 + t.index % 2 ^ 32) })).sendMsix a.1 a.2.2

/-- The generic address of a record as the virtual address its translation used: a stack offset is that of its word (R214). -/
def State.recordVa (s : State) (k : Nat) (r : FaultRec) : Nat :=
  let t := s.team (teamOf k)
  match decodeAddr r.address with
  | .stack off => stackVa (s.ctxOf t) t.slot (widOf k) (seatOf k) off
  | _ => r.address.toNat

/-- The instruction of a record is `trv.poll` or `trv.res`, whose translation causes are those of a ray (R205). -/
def State.ofRay (s : State) (t : Team) (r : FaultRec) : Bool :=
  match s.walkBoth (ckey t.func t.ctx) (t.codeHi ++ r.pc).toNat .fetch with
  | .ok pa key _ _ _ => let w := s.numAt key pa 8; decide (fld w 56 7 = 0x6F ∧ (fld w 0 7 = 2 ∨ fld w 0 7 = 3))
  | _ => false

/-- The fault that a record's cause stands for, with the level and the guest-physical address at which its translation failed (R390, R391). -/
def State.recordFault (s : State) (k : Nat) (r : FaultRec) : XFault × Acc × Nat :=
  let t := s.team (teamOf k)
  let va := s.recordVa k r
  let stage := if causeClass r.cause = 5 then 1 else 2
  let kind := r.cause.toNat % 64 / 8
  let a : Acc := if kind = 1 then .write else if kind = 2 then .atomic else if kind = 3 then .fetch else if kind = 4 then .traversal else .read
  let met := (t.walked.find? (fun w => decide (w.stage = stage) && decide (w.va / 65536 = va / 65536))).getD { stage := stage, va := va, level := 4, ipa := 0 }
  let f : XFault := { stage := stage, reason := r.cause.toNat % 8, level := met.level, ipa := met.ipa, walk := decide (kind = 5) }
  let fetched := decide (kind = 3) || (decide (kind = 5) && (decide (r.address = t.codeHi ++ r.pc) || decide (r.address = t.codeHi ++ (r.pc + 8))))
  (f, a, if fetched then 4 else if kind = 4 ∨ (kind = 5 ∧ s.ofRay t r = true) then 3 else 0)

/-- Report one thread's translation cause; its record takes the token (R390, R427). -/
def State.reportThread (s : State) (k : Nat) : State :=
  let th := s.thread k
  if isTranslation th.rcd.cause then
    let x := s.recordFault k th.rcd
    let r := s.raiseToken (s.teamFault (teamOf k) (s.recordVa k th.rcd) x.2.2) x.1 x.2.1 [.team (teamOf k)]
    (r.2.updThread k (fun th => { th with rcd := { th.rcd with token := BitVec.ofNat 64 r.1 } })).updTeam (teamOf k) (fun t => { t with tokens := if t.tokens.contains r.1 then t.tokens else t.tokens ++ [r.1] })
  else s

/-- The translation park (R393). -/
def State.parkTranslation (s : State) (team : Nat) : State :=
  let s := (teamThreads team (s.team team)).foldl (fun s k => s.reportThread k) s
  s.updTeam team (fun t => { t with saveAs := some 1, aborted := false, walked := [] })

/-- The first outcome of R434 that applies. -/
def State.decideHalt (s : State) (team : Nat) : State :=
  let t := s.team team
  let cs := s.classes team
  let sent := fun (c : Nat) => !t.handler && (BitVec.ofNat 15 (lrTrapMask t.lrec)).getLsbD c
  if s.attachedTo t && (cs.contains 13 || decide (t.debugCall ≠ 0)) then (s.debugStop team).afterDecision team
  else if cs = [] then ((s.clearRecords team (fun _ => true)).goOn team).afterDecision team
  else if lrTrapd t.lrec ≠ 0 ∧ t.handler = false ∧ cs.all sent = true then (s.takeTrap team).afterDecision team
  else if cs.any (fun c => decide (c = 5 ∨ c = 6) && !sent c) then s.parkTranslation team
  else s.unhandled team

/-- The halt is complete: no warp issues any more, and no result is outstanding but those of threads that stay parked (R347, R433). -/
def State.halted (s : State) (team : Nat) : Bool :=
  let t := s.team team
  decide (t.life = .halting) && t.saveAs.isNone
  && (List.range t.warps).all (fun w => !s.mayIssue team w && (s.warp (wkey team w)).out.all Pending.atParked)
  && (teamThreads team t).all (fun k => (s.thread k).out.all Pending.atParked)

/-- The stop reason that empty records take: 1 by a fault, 2 for debug, 3 by `halt`; none where only a pre-emption stopped the team. -/
def State.stopReason (s : State) (team : Nat) : Option Nat :=
  let t := s.team team
  if t.debugCall ≠ 0 then some (0x3C0 + t.debugCall % 4) else if s.classes team = [] then none else some 0x3C1

/-- The records as the halt leaves them: stop reasons and skid counts (R433, R469). -/
def State.fillRecords (s : State) (team : Nat) : State :=
  let t := s.team team
  (teamThreads team t).foldl (fun s k =>
    let th := s.thread k
    if th.st = .exited then s
    else
      let s := match s.stopReason team with
        | some c => if th.rcd.cause = 0x3C0 then s.setThread k { th with rcd := { pc := th.pc, cause := BitVec.ofNat 10 c, fx := th.fx, tcount := t.tcount } } else s
        | none => s
      s.updThread k (fun th => { th with rcd := if th.rcd.cause = 0x3C0 then th.rcd else { th.rcd with skid := Nat.min (s.warp (warpOf k)).skid 31 } })) s

/-- What is done under a context's log, done without it: after a divergence nothing more is enforced for a team that halts or ends (R324). -/
def State.unlogged (s : State) (ctx : Nat) (g : State → State) : State :=
  let m := (s.ctx ctx).logMode
  (g (s.updCtx ctx (fun c => { c with logMode := 0 }))).updCtx ctx (fun c => { c with logMode := m })

/-- Perform an event of a team, or leave it waiting on its context's log; after a divergence nothing is enforced (R317, R320, R324). -/
def State.teamEvent (s : State) (team : Nat) (g : State → State) : State :=
  let c := ckey (s.team team).func (s.team team).ctx
  if (s.ctx c).diverged then s.unlogged c g else s.atomically g

/-- TEAM_HALT (R433, R434): an abort that ends subscriptions or delivers their batches waits on the log (R317, R320). -/
def execTeamHalt (team : Nat) (s : State) : Out :=
  .next (if s.halted team then s.teamEvent team (fun s => (s.fillRecords team).decideHalt team) else s)

/-! ## Starting a team (R329 to R332, R358) -/

/-- Grid coordinates of a linear index (R300, R329). -/
def gridOf (r : BitVec 512) (i : Nat) : W32 × W32 × W32 :=
  let gx := (lrD r 0x18).toNat + 1
  let gy := (lrD r 0x1C).toNat + 1
  (BitVec.ofNat 32 (i % gx), BitVec.ofNat 32 (i / gx % gy), BitVec.ofNat 32 (i / gx / gy))

/-- The role of a warp (R36, R330). -/
def roleOf (r : BitVec 512) (w : Nat) : Nat := if lrPwarps r = 0 then 0 else if w < lrPwarps r then 1 else 2

/-- The registers of a team at its start (R31, R331). A team that starts again still owes the launch bytes of those threads whose stores were not performed (R358). -/
def State.freshTeam (s : State) (team lane0 : Nat) (r : BitVec 512) (again : Bool) : State :=
  let s := (List.range (lrWarps r)).foldl (fun s w => s.setWarp (wkey team w) { lane := laneFor lane0 w, role := roleOf r w, budget := lrBudget r w }) s
  (List.range (32 * lrWarps r)).foldl (fun s i => s.setThread (team * 1024 + i) { pc := lrQ r 0, block := lrQ r 0, launchDue := lrHasParam r && (!again || (s.thread (team * 1024 + i)).launchDue) }) s

/-- The launch bytes of a team's threads; where a store faults the whole team halts before any instruction issues (R358). -/
def State.launchStores (s : State) (team : Nat) : State :=
  let t := s.team team
  let s := ((teamThreads team t).filter (fun k => (s.thread k).launchDue)).foldl (fun s k => s.launchStore k) s
  if (s.team team).life = .halting then (List.range t.warps).foldl (fun s w => s.updWarp (wkey team w) (fun x => { x with halted := true })) s else s

/-- A team begins on a berth by the launch record of its launch copy: its start state, launch bytes and boundary (R226, R331, R358, R439). -/
def State.startTeam (s : State) (team launch core berth : Nat) (r : BitVec 256) (lr : BitVec 512) (old : Team) : State :=
  let l := s.launch launch
  let g := gridOf lr (brTeam r)
  let t : Team := { func := l.func, ctx := l.ctx, launch := launch, lrec := lr, queue := l.queue, seqNo := l.seqNo, index := brTeam r, x := g.1, y := g.2.1, z := g.2.2, core := core, berth := berth, slot := berth, world := brWorld r, warps := lrWarps lr, codeHi := lrEntryHi lr, spadSize := lrSpad lr, since := s.clock, run := old.run, frame := brFrame r, rq := l.rq, restarted := old.restarted, crefSeen := old.crefSeen, demoted := old.demoted || l.demoted, logStall := old.logStall, subst := old.subst }
  let s := (s.setTeam team t).freshTeam team (brLane r) lr old.restarted
  let s := (s.logBerth (s.posTeam team) 0 berth 0).launchStores team
  s.boundary team (s.posTeam team) false

/-! ## Placing by dispatch (R363, R442, R493) -/

/-- A placement's frame access failed: it waits on a token (R493). -/
def State.placeFault (s : State) (core berth : Nat) (r : BitVec 256) (f : XFault) : State :=
  (s.raiseToken { func := brFunc r, ctx := brCtx r, va := 0, source := 0, core := core, seq := brSeq r, team := brTeam r, queue := brQueue r } f .read [.placing core berth r]).2

/-- A team that cannot be placed ends with a cause of its own: its registers and its frame go, a consumer's records are done, and it counts as placed (R362, R375, R442, R493). -/
def State.endUnplaced (s : State) (launch index : Nat) (team : Option Nat) (frame : Nat) (c : BitVec 10) : State :=
  match team with
  | some t =>
    let s := s.updTeam t (fun x => { x with forced := some c })
    s.abortTeam t 1
  | none =>
    let l := s.launch launch
    let s := s.freeFrame (ckey l.func l.ctx) frame
    let s := match l.rq with | some r => s.rqRangeDone r | none => s
    (s.updLaunch launch (fun l => { l with placed := l.placed + 1 })).creditEnd launch { index := index, status := 1, cause := c }

/-- The chambers and entries that a team brings. -/
def State.entriesOf (s : State) (team : Option Nat) : Nat × Nat × Nat :=
  match team with
  | none => (0, 0, 0)
  | some t => ((s.team t).chambers.length, (s.subs.filter (fun p => decide (p.2.subscriber = t))).length, (s.subs.filter (fun p => decide (p.2.publisher = t) && p.2.pubOpen)).length)

/-- A saved team may come back: its tokens are all resumed (R394). -/
def Team.canReturn (t : Team) : Bool :=
  match t.life with
  | .saved => !t.flush
  | .parkedFault => t.tokens.isEmpty && !t.aborted
  | _ => false

/-- A team whose save no record of the replay named returns only to the core and berth it left (R327); any other goes where its BERTH record says (R323). -/
def Team.staysPut (t : Team) (core berth : Nat) : Bool := !t.offLog || (decide (t.core = core) && decide (t.berth = berth))

/-- The move of a team between cores: the old core's pending bytes are published, the new core's snapshot ends (R243). -/
def State.moveCore (s : State) (team core : Nat) : State :=
  let t := s.team team
  if t.core = core then s
  else (s.publishCore t.core 6 (s.posTeam team)).endSnapshot core

/-- What the image missed while the restore read it reaches the team now that it is live (R296). -/
def State.deliverHeld (s : State) (team : Nat) : State :=
  let us := (s.team team).heldUps
  let s := s.updTeam team (fun t => { t with heldUps := [] })
  us.foldl (fun s u =>
    let cells := ((List.range 64).filter (fun i => u.mask.getLsbD i)).map (fun i => (u.off + i, byteOf u.data i))
    let s := if cells = [] then s else (s.applyCells team cells).2
    if u.bytes = 0 then s else s.chRaise team u.chamber u.bytes u.path (s.posOf u.thread u.tcount)) s

/-- After a translation park: its records are emptied, and the rest are judged again before any instruction issues (R434, R487). -/
def State.afterPark (s : State) (team : Nat) : State :=
  let s := s.clearRecords team (fun r => isTranslation r.cause)
  if s.classes team = [] then (s.clearRecords team (fun _ => true)).goOn team
  else (s.updTeam team (fun t => { t with life := .halting })).decideHalt team

/-- The restored team stands on its berth (R243, R296, R434, R450). -/
def State.landTeam (s : State) (team core berth lane0 : Nat) (wasFault : Bool) : State :=
  let s := s.moveCore team core
  let t := s.team team
  let s := s.setTeam team { t with core := core, berth := berth, since := s.clock, life := .resident, leaving := false }
  let s := (List.range t.warps).foldl (fun s w => s.updWarp (wkey team w) (fun x => { x with lane := laneFor lane0 w })) s
  let s := if t.offLog then s.updTeam team (fun t => { t with offLog := false }) else s.logBerth (s.posTeam team) 3 berth 0
  let s := s.rebind team ((s.readPart t 0 0 512).toOption.getD [])
  let s := s.deliverHeld team
  if t.debugged then (s.goOn team).updTeam team (fun x => { x with life := .debugHalted, debugged := true })
  else if wasFault then s.afterPark team else s.goOn team

/-- Dispatch takes a valid record for a free berth: refused, waiting, ended by a check, or placed. The answer says whether it was accepted. -/
def State.place (s : State) (core berth : Nat) (r : BitVec 256) : Bool × State :=
  match s.launchBy (brQueue r) (brSeq r) with
  | none => (false, s)
  | some launch =>
    let l := s.launch launch
    let team := s.teamBy launch (brTeam r)
    let e := s.entriesOf team
    let t := s.team (team.getD 0)
    let right := decide (l.func = brFunc r) && decide (l.ctx = brCtx r) && decide (brTeam r < l.total) && !l.done
      && (if brRestore r then team.isSome && t.canReturn && decide (t.frame = brFrame r) && t.staysPut core berth
          else l.eligible && (match team with | some _ => decide (t.life = .saved) && t.flush | none => decide (brTeam r = l.placed)))
    if !right || !s.fits core berth (brLane r) l.lrec e.1 e.2.1 e.2.2 || s.otherWorld core (brWorld r) then (false, s)
    else match s.physRead (brFunc r) (brFrame r).toNat 256 with
      | .error f => (true, s.placeFault core berth r f)
      | .ok h =>
        match s.headCheck (brFunc r) (brWorld r) (b2n (brRestore r)) h with
        | some d => (true, s.endUnplaced launch (brTeam r) team (brFrame r).toNat (BitVec.ofNat 10 (0x2C0 + d)))
        | none =>
          let lr := ofBytes 512 ((h.drop 0x40).take 64)
          if !brRestore r && !s.fits core berth (brLane r) lr e.1 e.2.1 e.2.2 then (false, s) else
          let s := if (s.core core).world = brWorld r then s else s.worldClear core (brWorld r)
          let put := fun (s : State) => { s with berths := Tbl.set s.berths (berthKey core berth) (r &&& brMask) }
          match brRestore r, team with
          | true, some id =>
            (match s.loadImage id with
              | .error f => (true, s.placeFault core berth r f)
              | .ok s => (true, (put s).landTeam id core berth (brLane r) (decide (t.life = .parkedFault))))
          | _, some id => (true, (put s).startTeam id launch core berth r lr t)
          | _, none =>
            let n := s.newId
            (true, (put (n.2.updLaunch launch (fun l => { l with placed := l.placed + 1 }))).startTeam n.1 launch core berth r lr {})

/-! ## Pre-emption (R365, R367) -/

/-- The time a team has run done its placements. -/
def State.ranFor (s : State) (t : Team) : Nat := t.run + (s.clock - t.since)

/-- The estimate of a team's remaining time: none is unbounded. -/
def Team.estimate (t : Team) : Option Nat :=
  let e := lrExpect t.lrec
  if e = 0xFFFFFF then none else if e ≤ t.tcount then some 0 else some ((8 * (e - t.tcount) + t.warps - 1) / t.warps)

/-- Flush-and-restart is excluded (R367). -/
def State.flushBarred (s : State) (team : Nat) : Bool :=
  let t := s.team team
  decide ((s.ctxOf t).logMode ≠ 0) || t.launched
  || s.copies.any (fun p => decide (p.2.team = team) && !p.2.isEl && decide (pkRed p.2.packet ≠ 0))
  || s.subs.any (fun p => decide (p.2.subscriber = team) || (decide (p.2.publisher = team) && p.2.pubOpen))

/-- Flush-and-restart: the team loses its state and will start again from its entry (R367). -/
def State.flushTeam (s : State) (team : Nat) : State :=
  let s := s.dropTeamLocks team
  let t := s.team team
  let s := s.disarmAll team
  let drop := (s.copies.filter (fun p => decide (p.2.team = team))).foldl (fun s p => s.retireOf p.2) s
  let s := { drop with copies := drop.copies.filter (fun p => decide (p.2.team ≠ team)), gadds := drop.gadds.filter (fun p => decide (p.2.team ≠ team) || decide (p.2.path = 4)), rays := drop.rays.filter (fun p => decide (p.2.team ≠ team)) }
  let s := (s.discardOps team).freeBerth team 3
  let s := s.setTeam team { t with life := .saved, flush := true, restarted := true, run := s.ranFor t, leaving := false, leftAt := s.clock, chambers := [], heldUps := [], tcount := 0, binding := none }
  s.emptyTeam team

/-- A team is to be saved: it halts, and goes into its frame once the halt is decided. -/
def State.askSave (s : State) (team : Nat) : State :=
  let t := s.team team
  match t.life with
  | .resident | .draining _ | .ending => s.setTeam team { t with life := .halting, leaving := true, haltAt := s.clock }
  | .halting => s.setTeam team { t with leaving := true }
  | .debugHalted => s.setTeam team { t with life := .halting, leaving := true, debugged := true, saveAs := some 3 }
  | _ => s

/-- Choose how a team leaves its berth (R365). -/
def State.preempt (s : State) (team : Nat) (urgent : Bool) : State :=
  let t := s.team team
  let limit := s.clock + (if urgent then 3008 else 4096)
  match t.life with
  | .resident =>
    (match t.estimate with
      | some n => if n ≤ 4096 then s.setTeam team { t with life := .draining limit } else if lrIdem t.lrec && decide (s.ranFor t < 8192) && !s.flushBarred team then s.flushTeam team else s.askSave team
      | none => if lrIdem t.lrec && decide (s.ranFor t < 8192) && !s.flushBarred team then s.flushTeam team else s.askSave team)
  | .draining u => s.setTeam team { t with life := .draining (Nat.min u limit) }
  | _ => s.askSave team

/-- The scheduling core serves: it is neither down, nor restarting (R461), nor waiting for module reset (R26, R460). -/
def State.serving (s : State) : Bool := s.mod.ready && !s.mod.restarting && decide (s.mod.stopped = 0)

/-- PREEMPTION_REQUEST (R365). -/
def execPreemptionRequest (team : Nat) (urgent : Bool) (s : State) : Out :=
  .next (if s.serving && (s.team team).onCore (s.team team).core && (Assoc.find s.teams team).isSome then s.atomically (fun s => s.preempt team urgent) else s)

/-- DRAIN_TIMEOUT (R365). -/
def execDrainTimeout (team : Nat) (s : State) : Out :=
  .next (match (s.team team).life with
    | .draining u => if u ≤ s.clock then s.askSave team else s
    | _ => s)

/-! ## Berth records (R363) -/

/-- A berth record is written: a placement, or the request to pre-empt the berth's team. -/
def State.dispatch (s : State) (core berth : Nat) (r : BitVec 256) : Bool × State :=
  if brValid r then s.place core berth r
  else match s.teamAt core berth with
    | some t => (true, s.preempt t false)
    | none => (true, s)

/-- BERTH_RECORD_WRITE (R363): a record of a context in host scheduling mode comes by command alone. -/
def execBerthRecordWrite (core berth : Nat) (record : BitVec 256) (s : State) : Out :=
  .next (if !s.serving || (brValid record && (s.ctx (ckey (brFunc record) (brCtx record))).hostSched) then s
    else s.atomically (fun s => (s.dispatch core berth record).2))

/-! ## The scheduling core (R362, R364, R368) -/

/-- The function whose slice runs; none while no slice is enabled. -/
def State.sliceFunc (s : State) : Option Nat := (Assoc.find s.mod.quantum s.mod.sliceIdx).map Prod.fst

/-- The function's urgent share of the window is spent (R364). -/
def State.shareSpent (s : State) (func : Nat) : Bool := decide (func ≠ 0) && decide (211200000 ≤ (s.func func).urgentUsed)

/-- The class a launch is scheduled under now: an urgent one as interactive once the share is spent. -/
def State.classOf (s : State) (func : Nat) (r : BitVec 512) : Nat := if lrClass r = 0 ∧ s.shareSpent func = true then 1 else lrClass r

/-- The launch may have teams placed in the running slice. -/
def State.inSlice (s : State) (func : Nat) (r : BitVec 512) : Bool :=
  decide (s.classOf func r = 0) || (match s.sliceFunc with | some f => decide (f = func) | none => true)

/-- The order of offers: class, priority, time of eligibility (R362). -/
def State.offerKey (s : State) (l : Launch) : Nat := (s.classOf l.func l.lrec * 8 + (7 - lrPrio l.lrec)) * 2 ^ 64 + l.eligAt

/-- The launch has a team to place by the scheduling core. -/
def State.placeable (s : State) (l : Launch) : Bool :=
  l.eligible && !l.done && l.token.isNone && decide (l.placed < l.total) && !(s.ctx (ckey l.func l.ctx)).hostSched && !(s.ctx (ckey l.func l.ctx)).switchedOut && s.inSlice l.func l.lrec && s.serving

/-- Room for a frame: the lowest place in the context's region that overlaps no frame in use. -/
def Ctx.frameRoom (c : Ctx) (n : Nat) : Option Nat :=
  let base := c.frameBase.toNat
  let ends := base :: c.frames.map (fun p => p.1 + p.2)
  let ok := ends.filter (fun a => decide (a + n ≤ base + c.frameUnits * 65536) && c.frames.all (fun p => decide (a + n ≤ p.1) || decide (p.1 + p.2 ≤ a)))
  ok.foldl (fun b a => match b with | none => some a | some x => if a < x then some a else b) none

/-- The launch copy (R439). -/
def Launch.copyBytes (l : Launch) (index : Nat) : List Byte := ({ kind := 0, seqNo := l.seqNo, team := index, world := lrWorld l.lrec, lrec := l.lrec } : FrameHead).bytes

/-- A launch goes first at a berth where no launch before it in the order could use it. -/
def State.goesFirst (s : State) (id : Nat) (l : Launch) (core berth lane : Nat) : Bool :=
  s.launches.all (fun p => decide (p.1 = id) || !s.placeable p.2 || decide (s.offerKey l ≤ s.offerKey p.2)
    || !s.fits core berth lane p.2.lrec 0 0 0 || s.otherWorld core (lrWorld p.2.lrec)
    || ((s.ctx (ckey p.2.func p.2.ctx)).frameRoom (frameUnits p.2.lrec * 4096)).isNone)

/-- The scheduling core places the next team of a launch: it allocates the frame, writes the launch copy, and writes the berth record (R362). -/
def State.offer (s : State) (id core berth lane : Nat) (l : Launch) : State :=
  let ctx := ckey l.func l.ctx
  let n := frameUnits l.lrec * 4096
  match (s.ctx ctx).frameRoom n with
  | none => s
  | some base =>
    let r := berthRecord l.func l.ctx l.queue l.seqNo l.placed lane (lrWorld l.lrec) (BitVec.ofNat 64 base) l.lrec false
    match s.physWrite l.func base (l.copyBytes l.placed) with
    | (some f, s) =>
      let t := s.raiseToken { func := l.func, ctx := l.ctx, va := 0, source := 0, core := core, seq := l.seqNo, team := l.placed, queue := l.queue } f .read [.launch id]
      t.2.updLaunch id (fun l => { l with token := some t.1 })
    | (none, s) =>
      let s := s.updCtx ctx (fun c => { c with frames := Assoc.put c.frames base n })
      let s := s.updLaunch id (fun l => { l with demoted := l.demoted || (decide (lrClass l.lrec = 0) && s.shareSpent l.func) })
      let p := s.place core berth r
      if p.1 then p.2 else p.2.freeFrame ctx base

/-- TEAM_PLACEMENT (R362). -/
def execTeamPlacement (launch core berth lane : Nat) (s : State) : Out :=
  match Assoc.find s.launches launch with
  | none => .next s
  | some l => .next (if s.placeable l && s.fits core berth lane l.lrec 0 0 0 && !s.otherWorld core (lrWorld l.lrec) && s.goesFirst launch l core berth lane then s.atomically (fun s => s.offer launch core berth (lane % 32) l) else s)

/-- A placement or restore of the team waits on a token. -/
def State.placing (s : State) (t : Team) : Bool :=
  s.tokens.any (fun p => p.2.waiters.any (fun w => match w with | .placing _ _ r => decide (brQueue r = t.queue) && decide (brSeq r = t.seqNo) && decide (brTeam r = t.index) | _ => false))

/-- The scheduling core brings a team back: a saved one from its frame, a flushed one from its entry (R362, R367, R394). -/
def State.bringBack (s : State) (team core berth lane : Nat) : State :=
  let t := s.team team
  let l := s.launch t.launch
  let r := berthRecord t.func t.ctx t.queue t.seqNo t.index lane t.world t.frame t.lrec (!t.flush)
  if t.flush then
    match s.physWrite t.func t.frame.toNat (l.copyBytes t.index) with
    | (some f, s) => s.placeFault core berth r f
    | (none, s) => (s.place core berth r).2
  else (s.place core berth r).2

/-- TEAM_RESTORE (R394, R442). -/
def execTeamRestore (team core berth lane : Nat) (s : State) : Out :=
  match Assoc.find s.teams team with
  | none => .next s
  | some t => .next (if s.serving && !(s.ctxOf t).switchedOut && (t.canReturn || (decide (t.life = .saved) && t.flush)) && !(s.ctxOf t).hostSched && s.inSlice t.func t.lrec && !s.placing t then s.teamEvent team (fun s => s.bringBack team core berth (lane % 32)) else s)

/-! ## Saving (R366, R438, R493) -/

/-- Everything of a leaving team has drained: results, copies, operations, rays, batches (R175, R206, R295, R311, R347). -/
def State.drained (s : State) (team : Nat) : Bool :=
  let t := s.team team
  s.copies.all (fun p => decide (p.2.team ≠ team) || !p.2.live)
  && s.mops.all (fun p => decide (p.2.team ≠ team) || decide (p.2.state = 4) || decide (0x10 ≤ p.2.state))
  && s.rays.all (fun p => decide (p.2.team ≠ team) || (decide (p.2.saved ≠ 0) && p.2.saveReq.isEmpty))
  && s.subs.all (fun p => decide (p.2.publisher ≠ team) || p.2.pubEnded || (p.2.open_.isNone && p.2.closed.isEmpty && p.2.seeds.isEmpty))
  && (teamThreads team t).all (fun k => (s.thread k).out.all Pending.atParked && (s.thread k).win.isNone)
  && (List.range t.warps).all (fun w => (s.warp (wkey team w)).out.all Pending.atParked)

/-- The life a team has in its frame. -/
def lifeSaved (reason : Nat) : Life := if reason = 1 then .parkedFault else if reason = 2 then .parkedUnhandled else .saved

/-- The team stands in its frame; its berth is free and reported (R363, R438). A save that no record of a replay names is not enforced (R327). -/
def State.leaveBerth (s : State) (team reason : Nat) : State :=
  let t := s.team team
  let p := s.primary team
  let off := decide ((s.ctxOf t).logMode = 2) && decide (reason ≠ 1) && !s.saveAhead (s.posTeam team)
  let s := if off then s.updTeam team (fun t => { t with offLog := true }) else s.logBerth (s.posTeam team) (if reason = 1 then 1 else 2) t.berth (if reason = 1 then p.1.toNat else 0)
  let s := s.dropTeamLocks team
  let s := s.freeBerth team (if reason = 1 then 4 else 3)
  let s := s.updTeam team (fun t => { t with life := lifeSaved reason, saveAs := none, leaving := false, frameTok := none, leftAt := s.clock, run := s.ranFor t })
  let s := if reason = 2 then s.unhandledEvent team else s
  (s.emptyTeam team).switchCheck

/-- A team whose park was ended by an abort is unhandled once it stands in its frame (R394). -/
def State.writeFrame (s : State) (team reason : Nat) : State :=
  let t := s.team team
  let s := (List.range t.warps).foldl (fun s w => s.updWarp (wkey team w) Warp.landParked) s
  let s0 := s.setTeam team { t with run := s.ranFor t }
  match s0.writeParts t.func t.frame.toNat (s0.frameParts team reason) with
  | (some f, s1) =>
    let r := ({ s1 with teams := s.teams } : State).raiseToken (s.teamFault team 0 0) f .write [.saveFrame team]
    r.2.updTeam team (fun t => { t with frameTok := some r.1 })
  | (none, s1) => ({ s1 with teams := s.teams } : State).leaveBerth team reason

/-- TEAM_SAVE (R366). -/
def execTeamSave (team : Nat) (s : State) : Out :=
  let t := s.team team
  match t.saveAs with
  | none => .next s
  | some reason => .next (if t.onCore t.core && t.frameTok.isNone && s.drained team then s.teamEvent team (fun s => s.writeFrame team reason) else s)

/-! ## SAVED_IMAGE_RAISE (R296, R312) -/

/-- One held update is applied to the image: bytes outside armed slots, fs of the armed slots they touch, the raise with its evaluation. No waiting thread is woken: a wait finds the advance after the restore. -/
def State.applyHeld (s : State) (team : Nat) (u : HeldUpdate) : State :=
  let t := s.team team
  let cells := ((List.range 64).filter (fun i => u.mask.getLsbD i)).map (fun i => (u.off + i, byteOf u.data i))
  let hit := t.chambers.filter (fun a => cells.any (fun c => decide (a ≤ c.1 ∧ c.1 < a + 16)))
  let s := (cells.filter (fun c => !t.touchesArmed c.1 1)).foldl (fun s c => s.imageWrite team c.1 [c.2]) s
  let s := hit.foldl (fun s a => s.putImageChamber team a { s.imageChamber team a with fs := true }) s
  if u.bytes = 0 ∨ t.armed u.chamber = false then s
  else
    let s := if u.path = 4 then s else s.logEvent 5 (s.posOf u.thread u.tcount) { payload := u.chamber + u.bytes * 2 ^ 32 + u.path * 2 ^ 64, match_ := 2 ^ 66 - 1 }
    let c := s.imageChamber team u.chamber
    let r := ({ c with bcnt := (c.bcnt + u.bytes) % 2 ^ 32 } : Chamber).eval
    let s := s.putImageChamber team u.chamber r.1
    if r.2 then (s.updTeam team (fun t => { t with counted := Assoc.put t.counted u.chamber c.gen })).logEvent 6 (s.posTeam team) { payload := u.chamber + r.1.gen * 2 ^ 32, match_ := 2 ^ 32 - 1, value := (2 ^ 30 - 1) * 2 ^ 32 }
    else s

/-- The oldest held update of a saved team reaches its image. -/
def execSavedImageRaise (team : Nat) (s : State) : Out :=
  let t := s.team team
  match t.life, t.heldUps with
  | .saved, u :: rest | .parkedFault, u :: rest | .parkedUnhandled, u :: rest =>
    .next (s.atomically (fun s => (s.applyHeld team u).updTeam team (fun t => { t with heldUps := rest })))
  | _, _ => .next s

/-! ## The end of a team (R176, R226, R266, R313, R370) -/

/-- No engine work of the team is outstanding. -/
def State.engineDone (s : State) (team : Nat) : Bool :=
  s.copies.all (fun p => decide (p.2.team ≠ team)) && s.mops.all (fun p => decide (p.2.team ≠ team)) && s.gadds.all (fun p => decide (p.2.team ≠ team) || decide (p.2.path = 4))

/-- The final boundary of a team that ends off its core: the bytes it left pending on its last core are published, and its digest is recorded; the core's snapshot is no longer its own (R226, R325). -/
def State.boundaryOff (s : State) (team : Nat) (p : Pos) : State := ((s.releaseBatches team).publishCore (s.team team).core 1 p).endPhase team true

/-- The final boundary, the end of its subscriptions, its berth free. -/
def State.finishTeam (s : State) (team : Nat) : State :=
  let t := s.team team
  let on := t.onCore t.core
  let s := { s with rays := s.rays.filter (fun p => decide (p.2.team ≠ team)) }
  let s := s.endSubs team
  let p := s.posOf t.lastExit.1 t.lastExit.2
  let s := if on then s.boundary team p true else s.boundaryOff team p
  let s := s.logBerth (s.posTeam team) 4 t.berth 0
  let s := (s.dropTeamLocks team)
  let s := if on then s.freeBerth team 5 else s
  (s.closeTeam team).switchCheck

/-- A replay cause goes into the account of a team that ends: to its completion record, and to no thread's (R324). -/
def State.noteLate (s : State) (team code : Nat) : State :=
  s.updTeam team (fun t => if t.lateCause = 0x3C0 then { t with lateCause := BitVec.ofNat 10 code } else t)

def State.endTeam (s : State) (team : Nat) : State :=
  let t := s.team team
  let c := ckey t.func t.ctx
  if (s.ctx c).diverged then (s.noteLate team (replayCode 2 3)).unlogged c (fun s => s.finishTeam team)
  else
    let s' := s.finishTeam team
    match s'.missed with
    | none => s'
    | some cn =>
      let x := s'.ctx cn
      let s0 := s.backOut s' cn
      if x.diverged ∧ x.missFor ≠ 9 then s0.noteLate team (replayCode x.divReason x.missFor) else s0

/-- TEAM_END. -/
def execTeamEnd (team : Nat) (s : State) : Out :=
  let t := s.team team
  .next (if (decide (t.life = .ending) || decide (t.life = .endingOff)) && s.engineDone team && (Assoc.find s.teams team).isSome then s.endTeam team else s)

end Sys2Proof.Machine
end

