-- ==== Sys2Proof/Machine/Rings.lean ====
section
/-! DEFINITION. Event rings and fault rings, the retirement of launches with their completion words, the resumption of fault tokens, time slices (R14, R21, R364, R368 to R372, R390 to R394, R493). -/

namespace Sys2Proof.Machine

/-! ## Ring registers (R372, R392) -/

def Ring.en (r : Ring) : Bool := bit r.ctl 0
def Ring.sizeLog (r : Ring) : Nat := field r.base 4 0
def Ring.start (r : Ring) : Nat := field r.base 63 12 * 4096
def Ring.vector (r : Ring) : Nat := field r.ctl 55 48
/-- Unsignalled records that raise an interrupt; 0 acts as 1. -/
def Ring.count (r : Ring) : Nat := Nat.max 1 (field r.ctl 47 32)
/-- The age in µs at which the oldest unsignalled record raises one; 0 means at once. -/
def Ring.age (r : Ring) : Nat := field r.ctl 31 16

/-- The sizes a ring may have. -/
def ringSizeOk (isFault : Bool) (n : Nat) : Bool := if isFault then decide (5 ≤ n ∧ n ≤ 19) else decide (6 ≤ n ∧ n ≤ 20)
/-- The bytes of a record. -/
def ringRec (isFault : Bool) : Nat := if isFault then 64 else 32

def State.ringOf (s : State) (func i : Nat) (isFault : Bool) : Ring := if isFault then (s.func func).fring i else (s.func func).ring i
def State.updAnyRing (s : State) (func i : Nat) (isFault : Bool) (g : Ring → Ring) : State := if isFault then s.updFring func i g else s.updRing func i g

/-- A write of the control register: en stays 0 while the size is outside its limits. -/
def Ring.writeCtl (r : Ring) (isFault : Bool) (v : W64) : Ring :=
  let v := v &&& 0x00FFFFFFFFFF0001#64
  { r with ctl := if bit v 0 && !ringSizeOk isFault r.sizeLog then v &&& ~~~1#64 else v }

/-- A write of the base register: discarded while en is 1. -/
def Ring.writeBase (r : Ring) (v : W64) : Ring := if r.en then r else { r with base := v &&& 0xFFFFFFFFFFFFF01F#64 }

/-- ER_CTL_WRITE, FR_CTL_WRITE (R372, R392). -/
def State.ringCtl (s : State) (func i : Nat) (isFault : Bool) (v : W64) : State := s.updAnyRing func i isFault (fun r => r.writeCtl isFault v)

/-- ER_TAIL_WRITE, FR_TAIL_WRITE. -/
def State.ringTail (s : State) (func i : Nat) (isFault : Bool) (v : W64) : State := s.updAnyRing func i isFault (fun r => { r with tail := v.extractLsb' 0 32 })

def State.ringWrite (s : State) (func ring : Nat) (g : State → State) : State := if s.hostOpen && decide (func ≤ 64) && decide (ring < 64) then g s else s

def execErCtlWrite (func ring : Nat) (value : W64) (s : State) : Out := .next (s.ringWrite func ring (fun s => s.ringCtl func ring false value))
def execErTailWrite (func ring : Nat) (value : W64) (s : State) : Out := .next (s.ringWrite func ring (fun s => s.ringTail func ring false value))
def execFrCtlWrite (func ring : Nat) (value : W64) (s : State) : Out := .next (s.ringWrite func ring (fun s => s.ringCtl func ring true value))
def execFrTailWrite (func ring : Nat) (value : W64) (s : State) : Out := .next (s.ringWrite func ring (fun s => s.ringTail func ring true value))

/-! ## Interrupts (R14, R21, R372) -/

/-- Signal a ring's vector: none of its records is unsignalled any more. -/
def State.signalRing (s : State) (func i : Nat) (isFault : Bool) : State :=
  let v := (s.ringOf func i isFault).vector
  (s.updAnyRing func i isFault (fun r => { r with unsig := 0 })).sendMsix func v

/-- Head moves past a record just written; the ring signals at once, or by count. -/
def State.advanceRing (s : State) (func i : Nat) (isFault : Bool) : State :=
  let s := s.updAnyRing func i isFault (fun r => { r with head := r.head + 1, unsig := r.unsig + 1, oldest := if r.unsig = 0 then s.clock else r.oldest })
  let r := s.ringOf func i isFault
  if r.age = 0 ∨ r.count ≤ r.unsig then s.signalRing func i isFault else s

/-- The oldest unsignalled record has reached its age. -/
def State.ringTimer (s : State) (func i : Nat) (isFault : Bool) : State :=
  let r := s.ringOf func i isFault
  if 0 < r.unsig ∧ r.oldest + r.age * 2200 ≤ s.clock then s.signalRing func i isFault else s

/-- EVENT_RING_TIMER (R372). -/
def execEventRingTimer (func ring : Nat) (s : State) : Out := .next (s.ringTimer func ring false)
/-- FAULT_RING_TIMER (R392). -/
def execFaultRingTimer (func ring : Nat) (s : State) : Out := .next (s.ringTimer func ring true)

/-! ## Retirement (R14, R357, R370, R371) -/

/-- Write a queue's completion word: not performed where it cannot be translated, queued where its line lies across a link that is down. -/
def State.writeCword (s : State) (q : Nat) : State :=
  let x := s.queue q
  match s.translate deviceAgent (ckey x.func x.ctx) x.cword.toNat .write with
  | (.ok pa key _ fr _, s) =>
    if !s.mod.linkUp && isHost pa && !fr.shared then s.updMod (fun m => { m with linkQ := m.linkQ ++ [.cword q x.contig pa key] })
    else (s.devWrite (ckey x.func x.ctx) x.cword.toNat (toBytes (BitVec.ofNat 64 x.contig) 8)).2
  | (_, s) => s

/-- The launch whose completion record this is. -/
def State.recordLaunch (s : State) (r : BitVec 512) : Option Nat :=
  if field r 75 72 = 1 then (s.launches.find? (fun p => decide (p.2.queue = field r 87 76) && decide (p.2.seqNo % 2 ^ 40 = field r 127 88) && p.2.held)).map Prod.fst
  else none

/-- A launch whose record stands in its ring is retired: it writes the completion word where it asks for one. -/
def State.retireLaunch (s : State) (id : Nat) : State :=
  let l := s.launch id
  let s := { s with launches := Assoc.del s.launches id }
  if l.stale then s
  else if lrCword l.lrec || (s.ctx (ckey l.func l.ctx)).hostCompl then s.writeCword l.queue else s

/-- The completion word of this record's queue waits behind the link: the queue retires nothing meanwhile. -/
def State.cwordQueued (s : State) (r : BitVec 512) : Bool :=
  decide (field r 75 72 = 1) && s.mod.linkQ.any (fun m => match m with | .cword q _ _ _ => decide (q = field r 87 76) | _ => false)

/-! ## Posting (R14, R372, R390 to R392) -/

/-- The bytes that stand in the ring: a fault record takes its time as it is written (R391). -/
def ringBytes (isFault : Bool) (r : BitVec 512) (time : Nat) : List Byte :=
  if isFault then toBytes ((r &&& ~~~ (BitVec.ofNat 512 ((2 ^ 64 - 1) * 2 ^ 384))) ||| BitVec.ofNat 512 (time % 2 ^ 64 * 2 ^ 384)) 64 else toBytes r 32

/-- Records of the ring that wait behind the link. -/
def State.queuedRecords (s : State) (func i : Nat) (isFault : Bool) : Nat :=
  (s.mod.linkQ.filter (fun m => match m with | .record f j _ b _ _ => decide (f = func) && decide (j = i) && (b == isFault) | _ => false)).length

def Ring.place (r : Ring) (isFault : Bool) (ahead : Nat) : Nat := r.start + ringRec isFault * ((r.head.toNat + ahead) % 2 ^ r.sizeLog)
def Ring.used (r : Ring) : Nat := (r.head - r.tail).toNat

/-- A ring's write that meets a second-stage fault waits on a token (R372). -/
def State.ringFault (s : State) (func i : Nat) (isFault : Bool) (f : XFault) : State :=
  let t := s.raiseToken { func := func, ctx := 0, va := 0, source := 0 } f .write [.ring func i isFault]
  t.2.updAnyRing func i isFault (fun r => { r with token := some t.1 })

/-- Write a record at its place, advance, signal, and retire its launch. -/
def State.writeRecord (s : State) (func i : Nat) (isFault : Bool) (rec_ : BitVec 512) (pa key : Nat) : State :=
  let s := (s.writeBytes key pa (ringBytes isFault rec_ s.clock)).advanceRing func i isFault
  match isFault, s.recordLaunch rec_ with
  | false, some id => s.retireLaunch id
  | _, _ => s

/-- The oldest held record of a ring that may be posted: the records of a queue whose completion word waits behind the link stay, and hold up no other (R14). -/
def State.nextRecord (s : State) (func i : Nat) (isFault : Bool) : Option (BitVec 512) :=
  (s.ringOf func i isFault).held.find? (fun r => isFault || !s.cwordQueued r)

/-- Take the next record of a ring: written, or queued behind a link that is down; it stays while the ring is full or disabled, or waits on a token. -/
def State.postRecord (s : State) (func i : Nat) (isFault : Bool) : State :=
  let r := s.ringOf func i isFault
  let n := s.queuedRecords func i isFault
  match s.nextRecord func i isFault with
  | none => s
  | some rec_ =>
    if !r.en || r.token.isSome || decide (2 ^ r.sizeLog ≤ r.used + n) then s
    else
      match s.physPlace func (r.place isFault n) with
      | (.error f, s) => s.ringFault func i isFault f
      | (.ok fr, s) =>
        let taken := s.updAnyRing func i isFault (fun r => { r with held := r.held.erase rec_ })
        if !s.mod.linkUp && (isHost fr.pa || decide (0 < n)) then taken.updMod (fun m => { m with linkQ := m.linkQ ++ [.record func i rec_ isFault fr.pa fr.key] })
        else taken.writeRecord func i isFault rec_ fr.pa fr.key

/-- EVENT_RECORD_POST (R370 to R372). -/
def execEventRecordPost (func ring : Nat) (s : State) : Out := .next (s.postRecord func ring false)
/-- FAULT_RECORD_POST (R390 to R392). -/
def execFaultRecordPost (func ring : Nat) (s : State) : Out := .next (s.postRecord func ring true)

/-! ## Resuming tokens (R360, R372, R394, R493) -/

/-- The access and reason of a token's fault as a second-stage code. -/
def Token.code2 (t : Token) : BitVec 10 := BitVec.ofNat 10 (0x180 + 8 * field t.fault 154 152 + t.reason)

/-- A token of a team is aborted: the team is handled as an unhandled fault under its fact (R394, R438). -/
def State.teamUnresolved (s : State) (team : Nat) : State :=
  let s := s.updTeam team (fun t => { t with tokens := [], aborted := true })
  let t := s.team team
  match t.life with
  | .parkedFault =>
    if lrFact t.lrec then s.abortTeam team 1
    else
      let s := (s.setTeam team { t with life := .parkedUnhandled }).unhandledEvent team
      (s.writeParts t.func t.frame.toNat [(0, (s.saveHead team 2).bytes)]).2
  | .halting => if t.saveAs = some 1 then s.unhandled team else s
  | _ => s

/-- A placement that waited is tried again; where dispatch refuses it now, the frame that the scheduling core had given a team not yet begun is free (R362, R363, R493). -/
def State.placeAgain (s : State) (core berth : Nat) (r : BitVec 256) : State :=
  let p := s.place core berth r
  let owned := match s.launchBy (brQueue r) (brSeq r) with
    | some l => (s.teamBy l (brTeam r)).isSome
    | none => false
  if p.1 || owned then p.2 else p.2.freeFrame (ckey (brFunc r) (brCtx r)) (brFrame r).toNat

/-- One waiter of a token goes on, or ends. -/
def State.resumeWaiter (s : State) (id action : Nat) (t : Token) (w : Waiter) : State :=
  match w with
  | .team x =>
    if !(s.team x).tokens.contains id then s
    else if action = 0 then s.updTeam x (fun y => { y with tokens := y.tokens.filter (fun j => decide (j ≠ id)) })
    else s.teamUnresolved x
  | .copy x => s.copyResume x action
  | .mop x => s.mxResume x action
  | .coll x => s.collResume x action
  | .gadd x => s.gaddResume x action
  | .launch x =>
    (match Assoc.find s.launches x with
      | none => s
      | some l =>
        let s := s.setLaunch x { l with token := none }
        if action = 0 then s
        else if l.eligible then s.endUnplaced x l.placed none 1 t.code2
        else s.failLaunch x 0x3C0)
  | .ring f i b => s.updAnyRing f i b (fun r => if action = 0 then { r with token := none } else { r with token := none, ctl := r.ctl &&& ~~~1#64 })
  | .saveFrame x =>
    if (s.team x).frameTok ≠ some id then s
    else
      let s := s.updTeam x (fun y => { y with frameTok := none })
      if action = 0 then s else (s.updTeam x (fun y => { y with forced := some t.code2 })).abortTeam x 1
  | .placing core berth r =>
    if action = 0 then s.placeAgain core berth r
    else match s.launchBy (brQueue r) (brSeq r) with
      | none => s
      | some l => s.endUnplaced l (brTeam r) (s.teamBy l (brTeam r)) (brFrame r).toNat t.code2

/-- Parked rays' records that wait on a token: with action 0 they may be loaded again, with action 1 their next load fails (R394). -/
def State.resumeParks (s : State) (action : Nat) (t : Token) : State :=
  let on := fun (p : Park) => decide (p.stage = t.stage) && decide (p.page = t.page)
  if !(s.ctx (ckey t.func t.ctx)).parks.any on then s
  else s.updCtx (ckey t.func t.ctx) (fun c => { c with parks := if action = 0 then c.parks.filter (fun p => !on p) else c.parks.map (fun p => if on p then { p with refused := true } else p) })

/-- A token is resumed with action 0 or 1: all that waits on it goes on, or ends (R394). -/
def State.resumeToken (s : State) (id action : Nat) : State :=
  match Assoc.find s.tokens id with
  | none => s
  | some t => t.waiters.foldl (fun s w => s.resumeWaiter id action t w) (({ s with tokens := Assoc.del s.tokens id } : State).resumeParks action t)

/-! ## Slices and the urgent window (R364, R368, R369) -/

/-- The functions that have enabled entries in the quantum table. -/
def State.sliceFuncs (s : State) : List Nat := firsts (s.mod.quantum.map (fun p => p.2.1))

/-- When the running slice ends: its length less the core-aclk that its function's urgent teams had used before it; none while fewer than two functions have entries. -/
def State.sliceDue (s : State) : Option Nat :=
  match Assoc.find s.mod.quantum s.mod.sliceIdx with
  | none => none
  | some q => if s.sliceFuncs.length ≤ 1 then none else some (s.mod.sliceAt + (q.2 * 2200 * 384 - (s.func q.1).sliceCut) / 384)

/-- The next enabled entry in cyclic index order. -/
def State.nextSlice (s : State) : Nat :=
  let ks := Assoc.keys s.mod.quantum
  match ks.find? (fun k => decide (s.mod.sliceIdx < k)) with
  | some k => k
  | none => ks.headD 0

/-- A slice begins: what its function's urgent teams have used since the last one shortens it; what they use from now on is a debt to the next (R368). -/
def State.startSlice (s : State) (idx : Nat) : State :=
  let s := s.updMod (fun m => { m with sliceIdx := idx, sliceAt := s.clock })
  match s.sliceFunc with
  | some f => s.updFunc f (fun x => { x with sliceCut := x.sliceDebt, sliceDebt := 0 })
  | none => s

/-- The teams that a slice end pre-empts: those of its function but the urgent ones. -/
def State.sliceTeams (s : State) (func : Nat) : List Nat :=
  (s.teams.filter (fun p => decide (p.2.func = func) && p.2.onCore p.2.core && decide (s.classOf func p.2.lrec ≠ 0))).map Prod.fst

/-- SLICE_END (R368): it waits for an open switch transaction. -/
def State.endSlice (s : State) : State :=
  match s.sliceDue, s.sliceFunc with
  | some due, some f =>
    if !s.serving || decide (s.clock < due) || s.mod.switch.isSome then s
    else
      let out := s.sliceTeams f
      let s := s.startSlice s.nextSlice
      if s.sliceFunc = some f then s else out.foldl (fun s t => s.preempt t false) s
  | _, _ => s

def execSliceEnd (s : State) : Out := .next (s.atomically State.endSlice)

/-- A team that a transaction has asked to leave is again as it was: one that still stands on its berth goes on there, unless it has a cause of its own to decide; a saved or flushed one is brought back to its berth, or waits for a place like any other. -/
def State.unleave (s : State) (team : Nat) (was : Life) : State :=
  let t := s.team team
  match t.life with
  | .draining _ => s.setTeam team { t with life := was }
  | .halting =>
    let s := s.setTeam team { t with leaving := false, frameTok := none, saveAs := if t.saveAs = some 1 ∨ t.saveAs = some 2 then t.saveAs else none }
    if was = .debugHalted then s.updTeam team (fun t => { t with life := was })
    else if was = .halting ∨ s.classes team ≠ [] ∨ t.debugCall ≠ 0 ∨ t.debugged = true then s
    else let s := s.goOn team; s.updTeam team (fun t => { t with life := if t.life = .resident then was else t.life })
  | .saved => s.bringBack team t.core t.berth (s.warp (wkey team 0)).lane
  | _ => s

/-- A transaction rolls back: the outgoing context's teams are left as they were, and the command ends with result 6 (R369, R461). -/
def State.rollSwitch (s : State) : State :=
  match s.mod.switch with
  | none => s
  | some x => (x.asked.foldl (fun s p => s.unleave p.1 p.2) (s.updMod (fun m => { m with switch := none }))).updFunc x.func (fun f => { f with cmd := { done := f.cmd.done + 1, busy := false, result := 6 }, running := .none })

/-- SWITCH_TIMEOUT (R369): a slice end has waited 2,048 aclk for the transaction. -/
def execSwitchTimeout (s : State) : Out :=
  .next (match s.sliceDue with
    | some due => if due + 2048 ≤ s.clock then s.atomically State.rollSwitch else s
    | none => s)

/-- URGENT_WINDOW_END (R364): window k ends with aclk 2,200,000(k + 1) − 1. -/
def execUrgentWindowEnd (s : State) : Out :=
  .next (if s.mod.windowAt < s.clock / 2200000 then
    let s := s.updMod (fun m => { m with windowAt := s.clock / 2200000 })
    { s with funcs := Assoc.mapVals s.funcs (fun _ f => { f with urgentUsed := 0 }) }
  else s)

end Sys2Proof.Machine
end

