-- ==== Sys2Proof/Machine/Sharing.lean ====
section
/-! DEFINITION. The secure core and the hash engines: second-stage tables as lists of leaves, frames and pools, the sweep, merge attempts, destroyed keys, moves with their handover, invalidations, and the service of second-stage faults (R387 to R390, R395 to R399, R406 to R417, R420, R459, R462 to R464). -/

namespace Sys2Proof.Machine

/-! ## Second-stage tables (R378 to R381) -/

/-- A present, well-formed leaf: the page it maps, its level, where its entry stands (word 0 of a split leaf), and the entry. -/
structure Leaf2 where
  gpa : Nat
  level : Nat
  at_ : Nat
  e : Nat
  split : Bool

def splitLeaves (s : State) (table gpa : Nat) : List Leaf2 :=
  (List.range 8192).filterMap (fun i =>
    let l := s.readSplit (table + 32 * i)
    if eV l.w0 && !l.bad then some { gpa := gpa + 65536 * i, level := 4, at_ := table + 32 * i, e := l.w0, split := true } else none)

/-- The leaves below a table in ascending order of their pages. The fuel is the levels left. -/
def State.leavesFrom (s : State) : Nat → Nat → Nat → Nat → List Leaf2
  | 0, _, _, _ => []
  | k + 1, level, table, gpa =>
    (List.range (if level = 1 then 512 else 8192)).flatMap (fun i =>
      let at_ := table + 8 * i
      let e := s.numAt 0 at_ 8
      let g := gpa + i * 2 ^ (68 - 13 * level)
      if !eV e || malformed true level e false then []
      else if !eTbl e then [{ gpa := g, level := level, at_ := at_, e := e, split := false }]
      else if fbit e 6 then splitLeaves s (eAddr e) g
      else s.leavesFrom k (level + 1) (eAddr e) g)

def State.leaves (s : State) (func : Nat) : List Leaf2 :=
  match (s.func func).root2 with
  | none => []
  | some root => s.leavesFrom 4 1 root 0

/-- The leaf of a page. -/
def State.leafAt (s : State) (func gpa : Nat) : Option Leaf2 := (s.leaves func).find? (fun l => decide (l.gpa ≤ gpa) && decide (gpa < l.gpa + (if l.level = 3 then 536870912 else 65536)))

/-! ## Frames (R396, R414 to R417) -/

/-- The die of a frame, of LPDDR-6 or of the weight store. -/
def frameDie (pa : Nat) : Nat := if pa < 2 ^ 52 then paDie pa else (pa - 2 ^ 52) / 2 ^ 32

/-- A frame is to be erased, then to go to the pool (0) or nowhere (1). -/
def State.eraseLater (s : State) (pa dest : Nat) (host : Bool) : State :=
  s.updDie (frameDie pa) (fun d => { d with erasing := Assoc.put d.erasing pa (dest, host) })

/-- Drop every cached line of a frame without write-back, and set the zero flag of its lines (R417). -/
def State.zeroFrame (s : State) (pa : Nat) : State :=
  let f := pa / 65536
  { s with l2 := s.l2.filter (fun p => decide (p.1 / 512 ≠ f)), deep := s.deep.filter (fun p => decide (p.1 / 512 ≠ f)), lines := s.lines.filter (fun p => decide (p.1 / 512 ≠ f)), mem := s.mem.filter (fun c => decide (c.1 / 65536 ≠ f)), cores := Assoc.mapVals s.cores (fun _ c => { c with l1 := c.l1.filter (fun p => decide (p.1 / 512 ≠ f)) }) }

/-- A grant whose units are all zeroed is given: its command completes (R416). -/
def State.grantReady (s : State) (func : Nat) : State :=
  match (s.func func).running with
  | .grant die gf gc base size =>
    if (List.range size).any (fun i => (Assoc.find (s.die die).erasing (wsBase die + (base + i) * 65536)).isSome) then s
    else
      let s := s.updCtx (ckey gf gc) (fun c => { c with grants := Assoc.put c.grants die { base := base, size := size } })
      let s := s.updDie die (fun d => { d with wsHolder := (List.range size).foldl (fun h i => Assoc.put h (base + i) (ckey gf gc + 1)) d.wsHolder })
      s.updFunc func (fun f => { f with cmd := { done := f.cmd.done + 1, busy := false, result := 0 }, running := .none })
  | _ => s

/-- Erase a frame that awaits it, and send it where it goes. -/
def State.erase (s : State) (pa : Nat) : State :=
  let d := frameDie pa
  match Assoc.find (s.die d).erasing pa with
  | none => s
  | some e =>
    let s := s.zeroFrame pa
    let s := s.updDie d (fun x => { x with erasing := Assoc.del x.erasing pa, pool := if e.1 = 0 then x.pool ++ [pa] else x.pool })
    let s := { s with keys := Assoc.mapVals s.keys (fun _ k => { k with frames := k.frames.filter (fun f => decide (f ≠ pa)) }) }
    s.grantReady 0

/-- SWEEP (R417): in hardware erasure mode. -/
def execSweep (frame : Nat) (s : State) : Out :=
  let pa := frame * 65536
  .next (match Assoc.find (s.die (frameDie pa)).erasing pa with
    | some e => if e.2 then s else s.erase pa
    | none => s)

/-- A frame of a die's pool. -/
def State.takeFrame (s : State) (die : Nat) : Option (Nat × State) :=
  match (s.die die).pool with
  | [] => none
  | f :: rest => some (f, s.updDie die (fun d => { d with pool := rest }))

/-- Four frames in a row, aligned to 256 KiB: a split table. -/
def State.takeFour (s : State) (die : Nat) : Option (Nat × State) :=
  let p := (s.die die).pool
  match p.find? (fun f => decide (f % 262144 = 0) && p.contains (f + 65536) && p.contains (f + 131072) && p.contains (f + 196608)) with
  | none => none
  | some f => some (f, s.updDie die (fun d => { d with pool := d.pool.filter (fun x => decide (x < f ∨ f + 262144 ≤ x)) }))

/-- For every core, each of certain L1 lines. -/
def State.eachLine (s : State) (which : Nat × L1Line → Bool) (f : State → Nat → Nat × L1Line → State) : State :=
  (Assoc.keys s.cores).foldl (fun s core => ((s.core core).l1.filter which).foldl (fun s p => f s core p) s) s

/-- The pending bytes of a page's lines are published on every core, as by an eviction that no thread caused: the record carries the count of the team of the line's context that last left the core, with tl 0 (R322, R408; DESIGN CHOICE, log 86). -/
def State.publishFrame (s : State) (pa : Nat) : State :=
  s.eachLine (fun p => decide (p.1 / 512 = pa / 65536)) (fun s core p => s.publish core p.1 2 { s.lastLeft core (ckey p.2.func p.2.ctx) with tl := false })

/-- The barges that copies have sent to a frame and that are not performed are sent again from their addresses, which are then translated anew (R388, R408). -/
def State.recallBarges (s : State) (pa : Nat) : State :=
  { s with copies := s.copies.mapVals (fun _ c => { c with barges := c.barges.filter (fun p => !(decide (p.2.space = 0 ∧ p.2.state = 1) && decide (p.2.pa / 65536 = pa / 65536))) }) }

/-- Hold a page: its pending bytes published, the barges under way to it recalled, its cached translations dropped (R408). -/
def State.holdPage (s : State) (func gpa pa : Nat) : State := ((s.publishFrame pa).recallBarges pa).dropTlb2 func gpa 1

/-- Copy a whole page under a key, poison with it; the answer says whether a line was poisoned. -/
def State.copyPage (s : State) (skey src dkey dst : Nat) : Bool × State :=
  let bs := s.bytesAt skey src 65536
  let bad := (List.range 512).filter (fun i => s.poisoned (src / 128 + i))
  let s := s.writeBytes dkey dst bs
  (!bad.isEmpty, bad.foldl (fun s i => s.poisonLine (dst / 128 + i)) s)

/-! ## Merging (R406 to R408) -/

/-- The function may have pages merged. -/
def State.mayMerge (s : State) (func : Nat) (listed : Bool) : Bool :=
  decide ((s.func func).domain ≠ 0) && (s.ctxs.all (fun p => decide (p.1 / 256 ≠ func) || decide (p.2.logMode = 0))) && ((s.ctx (ckey func 0)).hostMerge == listed)

/-- The page behind a leaf is a candidate (R406). -/
def State.isCandidate (s : State) (func : Nat) (l : Leaf2) (listed : Bool) : Bool :=
  let x := s.readSplit l.at_
  l.split && fbit l.e 8 && !fbit l.e 9 && !fbit l.e 7 && !x.pv && decide (x.sectors = 0) && decide (x.w3 % 2 ^ 32 = 0xFFFFFFFF) && decide (eKey l.e = (s.func func).dkey) && s.mayMerge func listed

/-- The eight directory indices of a bucket (R407). -/
def bucketOf (die x : Nat) : List Nat := (List.range 8).map (fun i => die * 2 ^ 30 + 8 * (x % 2 ^ 21) + i)
def digestBucket (d : List Byte) : List Nat := bucketOf ((d.getD 0 0).toNat % 4) (ofBytesNat ((d.drop 1).take 4))
def frameBucket (pa : Nat) : List Nat := bucketOf (pa / 65536 % 4) (pa / 65536 % 2 ^ 32)

def State.freeEntry (s : State) (bucket : List Nat) : Option Nat := bucket.find? (fun i => (Assoc.find s.hdir i).isNone)

/-- The leaf names a shared frame: cow set, its directory index written, in one step. -/
def State.shareLeaf (s : State) (at_ e frame hidx : Nat) : State :=
  let w0 := eKey e * 2 ^ 52 + frame + (e % 65536 - (if fbit e 7 then 128 else 0)) + 128
  (s.writeNum 0 at_ 8 w0).writeNum 0 (at_ + 24) 8 hidx

/-- One merge attempt: its outcome (R409) and its effect (R408). -/
def State.mergeOne (s : State) (func gpa : Nat) (listed : Bool) : Nat × State :=
  match s.leafAt func gpa with
  | none => (2, s)
  | some l =>
    if l.gpa ≠ gpa ∨ s.isCandidate func l listed = false then (2, s)
    else
      let key := eKey l.e
      let frame := eAddr l.e
      let dom := (s.func func).domain
      let d := sha3_256 (s.bytesAt key frame 65536)
      let dig := ofBytes 256 d
      let b := digestBucket d
      match b.find? (fun i => match Assoc.find s.hdir i with | some e => !e.fork && decide (e.domain = dom) && decide (e.digest = dig) | none => false) with
      | some i =>
        let s := s.holdPage func gpa frame
        (match Assoc.find s.hdir i with
          | none => (3, s)
          | some e =>
            if s.bytesAt key frame 65536 = s.bytesAt key e.frame 65536 then
              let s := { s with hdir := Assoc.put s.hdir i { e with refs := e.refs + 1 } }
              (0, (s.shareLeaf l.at_ l.e e.frame i).eraseLater frame 0 ((s.ctx (ckey func 0)).hostErase))
            else (3, s))
      | none =>
        match s.freeEntry b with
        | none => (4, s)
        | some i =>
          let s := s.holdPage func gpa frame
          let s := { s with hdir := Assoc.put s.hdir i { digest := dig, frame := frame, refs := 1, domain := dom, home := paDie frame } }
          (1, s.shareLeaf l.at_ l.e frame i)

/-- The candidates of a die by function and page. -/
def State.candidates (s : State) (die : Nat) : List Nat :=
  (List.range 65).flatMap (fun f => ((s.leaves f).filter (fun l => decide (paDie (eAddr l.e) = die) && s.isCandidate f l false)).map (fun l => f * 2 ^ 64 + l.gpa))

/-- The next candidate in the engine's order (R406). -/
def State.nextCandidate (s : State) (die : Nat) : Option Nat :=
  let cs := s.candidates die
  match cs.find? (fun c => decide ((s.die die).scan ≤ c)) with
  | some c => some c
  | none => cs.head?

/-- MERGE_ATTEMPT (R406, R408). -/
def execMergeAttempt (func : Nat) (gpa : W64) (s : State) : Out :=
  .next (match s.leafAt func gpa.toNat with
    | none => s
    | some l =>
      let die := paDie (eAddr l.e)
      if s.mod.hashShare ≠ 0 ∧ s.nextCandidate die = some (func * 2 ^ 64 + gpa.toNat) then
        (s.mergeOne func gpa.toNat false).2.updDie die (fun d => { d with scan := func * 2 ^ 64 + gpa.toNat + 1 })
      else s)

/-- SECTOR_COPY (R411): the copy that precedes a write to a shared sector. -/
def execSectorCopy (func : Nat) (gpa : W64) (s : State) : Out :=
  .next (match s.walk2 func gpa.toNat false true false with
    | .ok fr => (match fr.split with
      | some at_ => if fr.shared then (s.sectorCopy func at_ gpa.toNat).2 else s
      | none => s)
    | .error _ => s)

/-! ## Keys (R395 to R399, R462) -/

/-- The frames mapped under a key: whole frames, private frames, and those of level-3 leaves. -/
def State.keyFrames (s : State) (func id : Nat) : List Nat :=
  firsts ((s.leaves func).flatMap (fun l =>
    let own := if eKey l.e = id then (if l.level = 3 then (List.range 8192).map (fun i => eAddr l.e + 65536 * i) else [eAddr l.e]) else []
    let x := s.readSplit l.at_
    own ++ (if l.split && x.pv && decide (x.pkey = id) then [eAddr x.w1] else [])))

/-- Every cached line that carries a key id is dropped, dirty ones without write-back (R399). -/
def State.dropKeyLines (s : State) (id : Nat) : State :=
  { s with l2 := s.l2.filter (fun p => decide (p.2.key ≠ id)), deep := s.deep.filter (fun p => decide (p.2.key ≠ id)), cores := Assoc.mapVals s.cores (fun _ c => { c with l1 := c.l1.filter (fun p => decide (p.2.key ≠ id)) }) }

/-- Destroy a key id (R399). -/
def State.destroyKey (s : State) (id : Nat) : State :=
  let k := s.key id
  let fs := s.keyFrames k.owner id
  let host := (s.ctx (ckey k.owner 0)).hostErase
  let s := fs.foldl (fun s f => s.eraseLater f 0 host) s
  let s := s.setKey id { k with state := 3, cached := 0, frames := fs }
  let s := { s with funcs := Assoc.mapVals s.funcs (fun _ f => if f.privKey = some id then { f with privKey := none } else f) }
  s.dropKeyLines id

/-- KEY_ID_FREE (R399). -/
def execKeyIdFree (id : Nat) (s : State) : Out :=
  .next (if (s.key id).state = 3 ∧ (s.key id).frames = [] then s.updKey id (fun k => { k with state := 0 }) else s)

/-- The entries of a die's key cache. -/
def State.keysCached (s : State) (die : Nat) : List Nat := (s.keys.filter (fun p => p.2.cached.getLsbD die)).map Prod.fst

/-- Load an entry from escrow into a die's key cache of 512 entries; a full cache loses one, which the manual does not name. -/
def State.loadKey (s : State) (id die : Nat) : State :=
  let ks := s.keysCached die
  let bit_ : BitVec 4 := BitVec.ofNat 4 (2 ^ die)
  let s := if ks.length < 512 then s
    else let r := s.pick; r.2.updKey (ks.getD (r.1 % ks.length) 0) (fun k => { k with cached := k.cached &&& ~~~bit_ })
  s.updKey id (fun k => { k with cached := k.cached ||| bit_ })

/-! ## Moves (R420, R463, R464) -/

/-- Copy a table and what it names into frames of a die's pool; a root's entries beyond those used are ignored (R378). The answer is the new table and the frames taken; none where the pool ran empty. -/
def State.copyTable (die : Nat) : Nat → Nat → Nat → State → Option (Nat × List Nat × State)
  | 0, _, _, _ => none
  | k + 1, level, table, s =>
    match s.takeFrame die with
    | none => none
    | some (f, s) =>
      (List.range (if level = 1 then 512 else 8192)).foldl (fun acc i =>
        match acc with
        | none => none
        | some (f, fs, s) =>
          let e := s.numAt 0 (table + 8 * i) 8
          if !eV e || malformed true level e false || !eTbl e then some (f, fs, if e = 0 then s else s.writeNum 0 (f + 8 * i) 8 e)
          else if fbit e 6 then
            (match s.takeFour die with
              | none => none
              | some (g, s) =>
                let s := s.writeBytes 0 g (s.bytesAt 0 (eAddr e) 262144)
                some (f, fs ++ [g, g + 65536, g + 131072, g + 196608], s.writeNum 0 (f + 8 * i) 8 (e - eAddr e + g)))
          else
            (match State.copyTable die k (level + 1) (eAddr e) s with
              | none => none
              | some (g, gs, s) => some (f, fs ++ gs, s.writeNum 0 (f + 8 * i) 8 (e - eAddr e + g)))) (some (f, [f], s))

/-- The live keys of a function. -/
def State.keysOf (s : State) (func : Nat) : List Nat := (s.keys.filter (fun p => decide (p.2.owner = func) && decide (p.2.state = 1 ∨ p.2.state = 2))).map Prod.fst

def State.cmdDone (s : State) (func result : Nat) : State :=
  s.updFunc func (fun f => { f with cmd := { done := f.cmd.done + 1, busy := false, result := BitVec.ofNat 8 result }, running := .none })

/-- A team is aborted without a completion record: what it had under way is gone. -/
def State.removeTeam (s : State) (team : Nat) : State :=
  let s := s.abortTeam team 2
  let s := { s with copies := s.copies.filter (fun p => decide (p.2.team ≠ team)), gadds := s.gadds.filter (fun p => decide (p.2.team ≠ team)), mops := s.mops.filter (fun p => decide (p.2.team ≠ team)) }
  s.finishTeam team

/-- The steps of a virtual function's reset, in order; its contexts end, and with them what they retain (R222). -/
def State.resetFunction (s : State) (func : Nat) : State :=
  let s := { s with launches := s.launches.filter (fun p => decide (p.2.func ≠ func)) }
  let ts := (s.teams.filter (fun p => decide (p.2.func = func) && decide (p.2.life ≠ .ended))).map Prod.fst
  let s := ts.foldl (fun s t => s.removeTeam t) s
  let s := { s with tokens := s.tokens.filter (fun p => decide (p.2.func ≠ func)) }
  let empty := fun (r : Ring) => { r with held := [], tail := r.head, unsig := 0, token := none }
  let s := s.updFunc func (fun f => { f with er := Assoc.mapVals f.er (fun _ r => empty r), fr := Assoc.mapVals f.fr (fun _ r => empty r) })
  let s := s.updMod (fun m => { m with linkQ := m.linkQ.filter (fun x => match x with | .record f _ _ _ _ _ => decide (f ≠ func) | _ => true) })
  let s := (s.keysOf func).foldl (fun s k => s.destroyKey k) s
  let s := ((s.ctxs.filter (fun p => decide (p.1 / 256 = func))).map Prod.fst).foldl (fun s c => (s.updCtx c (fun x => { x with ret := [], parks := [] })).unretain c) s
  s.updFunc func (fun f => { f with m3 := 0, flrDue := false, iwHeld := [] })

/-- A function's reset that waited for its handover acts once that is over (R464). -/
def State.resetDue (s : State) (func : Nat) : State := if (s.func func).flrDue then s.resetFunction func else s

/-- The handover rolls back (R464). -/
def State.rollHandover (s : State) : State :=
  match s.mod.handover with
  | none => s
  | some h =>
    let s := (s.keysOf h.func).foldl (fun s k => s.updKey k (fun x => { x with state := 1, confirmed := false })) s
    let s := h.frames.foldl (fun s f => s.eraseLater f 0 false) s
    ((s.updMod (fun m => { m with handover := none })).cmdDone 0 6).resetDue h.func

/-- Steps 1 and 2 of a move's handover: the tables are copied, the records marked, the source die's entries purged (R463). -/
def State.startMove (s : State) (func dest root : Nat) : State :=
  let src := (s.func func).homeDie
  let ks := s.keysOf func
  match State.copyTable dest 4 1 root s with
  | none => s.cmdDone 0 6
  | some (f, fs, s) =>
    let s := ks.foldl (fun s k => s.updKey k (fun x => { x with state := 2, dest := dest, cached := x.cached &&& ~~~(BitVec.ofNat 4 (2 ^ src)) })) s
    s.updMod (fun m => { m with handover := some { func := func, dest := dest, since := s.clock, newRoot := f, frames := fs, step := 2 } })

/-- Steps 3 and 4: the entries are loaded on the destination die, and the handover confirms in one step; the move's command completes (R420, R463). -/
def State.confirmMove (s : State) (h : Handover) : State :=
  let ks := s.keysOf h.func
  let src := (s.func h.func).homeDie
  let s := ks.foldl (fun s k => s.loadKey k h.dest) s
  let s := ks.foldl (fun s k => s.updKey k (fun x => { x with state := 1, home := h.dest, confirmed := true, moves := (s.func h.func).moves + 1 })) s
  let s := s.updFunc h.func (fun f => { f with root2 := some h.newRoot, homeDie := h.dest, homeFixed := true, moving := true, oldDie := src, lazyNext := 0, moves := f.moves + 1 })
  let s := s.dropTlb2 h.func 0 0
  ((s.updMod (fun m => { m with handover := none })).cmdDone 0 0).resetDue h.func

/-- HANDOVER_TIMEOUT (R464): 44,000 aclk after step 1. -/
def execHandoverTimeout (s : State) : Out :=
  .next (match s.mod.handover with
    | some h => if h.since + 44000 ≤ s.clock then s.rollHandover else s
    | none => s)

/-- A page that the lazy transfer takes: a plain level-4 leaf, or a private frame, on the old die. -/
def State.movable (s : State) (die : Nat) (l : Leaf2) : Option (Nat × Nat) :=
  let x := s.readSplit l.at_
  if l.level ≠ 4 then none
  else if l.split then (if x.pv && decide (paDie (eAddr x.w1) = die) && isLpddr (eAddr x.w1) then some (eAddr x.w1, x.pkey) else none)
  else if paDie (eAddr l.e) = die ∧ isLpddr (eAddr l.e) = true then some (eAddr l.e, eKey l.e) else none

/-- Move one page to the new die: held, copied, its leaf rewritten in one step, its old frame swept (R420). -/
def State.movePage (s : State) (func : Nat) (l : Leaf2) (src key new : Nat) : State :=
  let s := s.holdPage func l.gpa src
  let r := s.copyPage key src key new
  let s := if r.1 then r.2.aer func 3 5 7 (paDie new) new key else r.2
  let s := if l.split then (let w := (s.readSplit l.at_).w1; s.writeNum 0 (l.at_ + 8) 8 (w - src + new)) else s.writeNum 0 l.at_ 8 (l.e - src + new)
  (s.eraseLater src 0 ((s.ctx (ckey func 0)).hostErase)).updFunc func (fun f => { f with lazyNext := l.gpa + 65536 })

/-- The next page of a move is moved, or the move is over. -/
def State.lazyStep (s : State) (func : Nat) : State :=
  let f := s.func func
  if !f.moving || decide (s.mod.hashShare = 0) then s
  else match (s.leaves func).findSome? (fun l => if l.gpa < f.lazyNext then none else (s.movable f.oldDie l).map (fun m => (l, m))) with
    | none => s.setFunc func { f with moving := false }
    | some (l, m) =>
      match s.takeFrame f.homeDie with
      | none => s
      | some (new, s) => s.movePage func l m.1 m.2 new

/-- LAZY_PAGE_TRANSFER (R420, R463): while the function's handover is open, its confirmation; then one page at a time in ascending order. A page whose publications a log holds back is moved later (R320, R323). -/
def execLazyPageTransfer (func : Nat) (s : State) : Out :=
  .next (match s.mod.handover with
    | some h => if h.func ≠ func then s.atomically (fun s => s.lazyStep func) else if s.clock < h.since + 44000 then s.confirmMove h else s
    | none => s.atomically (fun s => s.lazyStep func))

/-! ## The service of second-stage faults (R390, R397, R411, R414, R463) -/

/-- A key id that an access names, the place it names it for, and whether that is sealed. -/
structure KeyUse where
  key : Nat
  pa : Nat
  sealed : Bool

/-- The keys that an access to a guest-physical address needs, those of a sector copy with them, and whether that copy lacks a private key (R396, R411). -/
def State.keyUses (s : State) (func gpa : Nat) (isWrite : Bool) : List KeyUse × Bool :=
  match (s.func func).root2 with
  | none => ([], false)
  | some root =>
    match (s.walk2From none func gpa 4 1 root).2 with
    | .error _ => ([], false)
    | .ok fr =>
      let own : KeyUse := { key := fr.key, pa := fr.pa, sealed := fr.sealed }
      match isWrite && fr.shared, fr.split with
      | true, some at_ =>
        let l := s.readSplit at_
        if l.pv then ([own, { key := l.pkey, pa := eAddr l.w1, sealed := fr.sealed }], false)
        else match (s.func func).privKey with
          | none => ([own], true)
          | some pk => (own :: ((s.die (s.func func).homeDie).pool.take 1).map (fun f => { key := pk, pa := f, sealed := fr.sealed }), false)
      | _, _ => ([own], false)

/-- Hand a token's record to the ring that root2 names, once (R390); without a root2 no ring is named, and the fault stays with the secure core (R387). -/
def State.forwardFault (s : State) (id : Nat) (t : Token) : State :=
  if t.forwarded || (s.func t.func).root2.isNone then s
  else
    let s := { s with tokens := Assoc.put s.tokens id { t with forwarded := true } }
    s.updFring 0 (s.func t.func).root2Ring (fun r => { r with held := r.held ++ [t.fault] })

/-- A sweep is refilling the die's pool. -/
def State.refilling (s : State) (die : Nat) : Bool := (s.die die).erasing.any (fun p => decide (p.2.1 = 0) && !p.2.2)

/-- A handover of the function is open: the secure core holds its key faults until it ends. -/
def State.handing (s : State) (func : Nat) : Bool := match s.mod.handover with | some h => decide (h.func = func) | none => false

/-- The key fault of an access: the entry is loaded from escrow, or the access can never be served. -/
def State.serveKey (s : State) (id : Nat) (t : Token) : State :=
  let gpa := field t.fault 127 64
  let isWrite := field t.fault 154 152 = 1 ∨ field t.fault 154 152 = 2
  let r := s.keyUses t.func gpa isWrite
  let dead := r.1.any (fun u => (decide (u.key = 0) && u.sealed) || (decide (u.key ≠ 0) && decide ((s.key u.key).state = 0 ∨ (s.key u.key).state = 3)))
  let missing := r.1.find? (fun u => decide (u.key ≠ 0) && isLpddr u.pa && !(s.key u.key).cached.getLsbD (paDie u.pa))
  if dead then s.resumeToken id 1
  else match missing with
    | some u => if s.handing t.func then s else (s.loadKey u.key (paDie u.pa)).resumeToken id 0
    | none => if r.2 then s.forwardFault id t else s.resumeToken id 0

/-- SECOND_STAGE_SERVICE (R390, R397, R411, R414). -/
def execSecondStageService (token : Nat) (s : State) : Out :=
  .next (match Assoc.find s.tokens token with
    | none => s
    | some t =>
      if !t.secure then s
      else if t.reason = 5 then s.serveKey token t
      else if t.reason = 4 then
        let home := (s.func t.func).homeDie
        if (s.die home).pool ≠ [] then s.resumeToken token 0
        else if s.refilling home then s else s.forwardFault token t
      else s.forwardFault token t)

/-! ## Invalidations (R387 to R389) -/

/-- A cached line or barge of the function stands for a page of the range: by its virtual address for the first stage, for any page where the range is guest-physical. -/
def inRange (stage func ctx page pages f c va : Nat) : Bool :=
  decide (f = func) && (decide (stage = 2) || (decide (c = ctx) && (decide (pages = 0) || (decide (page ≤ va / 65536) && decide (va / 65536 < page + pages)))))

/-- Barges already issued under an old translation have not all been performed. -/
def State.bargesOut (s : State) (stage func ctx page pages : Nat) : Bool :=
  s.copies.any (fun p => let t := s.team p.2.team; p.2.barges.any (fun b => decide (b.2.state = 1) && decide (b.2.space = 0) && inRange stage func ctx page pages t.func t.ctx (b.2.line * 128)))

/-- INVALIDATION_COMPLETE (R388): stores translated under an old entry are performed with it; these writes are no publications of R317. -/
def execInvalidationComplete (func : Nat) (s : State) : Out :=
  .next (match (s.func func).running with
    | .inval stage f c page pages =>
      if s.bargesOut stage f c page pages then s
      else
        let s := s.eachLine (fun p => inRange stage f c page pages p.2.func p.2.ctx p.2.va.toNat) (fun s core p => s.publishLine core p.1)
        (if stage = 1 then s.dropTlb1 (ckey f c) (page * 65536) pages else s.dropTlb2 f (page * 65536) pages).cmdDone func 0
    | _ => s)

end Sys2Proof.Machine
end

