-- ==== Sys2Proof/Machine/Recovery.lean ====
section
/-! DEFINITION. Errors, resets, the thermal stop, the sideband, the log's re-read, heartbeats and group changes (R12, R14, R22 to R27, R217, R320, R422, R453 to R461, R465 to R468). -/

namespace Sys2Proof.Machine

/-! ## Measurements (R422) -/

/-- The configuration that M2 measures: world masks, reserved ways, domain map, hash and sweep shares. -/
def State.configList (s : State) : List Nat :=
  (List.range 65).flatMap (fun f => [(s.func f).worldMask.toNat, (s.func f).domain]) ++ (List.range 16).map (fun w => (s.waysOf w).toNat)
  ++ [s.mod.hashShare] ++ (List.range 4).map (fun d => (s.die d).share)

/-- M0, M1 and M2. -/
def State.measure (s : State) (i : Nat) : BitVec 512 := if i = 2 then Config.configDigest s.configList else Config.firmwareDigest i

/-- What a heartbeat carries: SHA3-512(M0 ‖ M1 ‖ M2) (R467). -/
def State.beatDigest (s : State) : BitVec 512 := ofBytes 512 (sha3_512 (toBytes (s.measure 0) 64 ++ toBytes (s.measure 1) 64 ++ toBytes (s.measure 2) 64))

/-! ## Stops (R26, R460) -/

/-- Every team halts as for pre-emption by save, and the device waits for module reset. -/
def State.stopModule (s : State) (cause : Nat) : State :=
  let s := (Assoc.keys s.teams).foldl (fun s t => s.askSave t) s
  s.updMod (fun m => { m with stopped := cause })

/-- THERMAL_STOP (R26): with a thermal event to every function's ring 0. -/
def execThermalStop (s : State) : Out :=
  .next (if s.mod.stopped ≠ 0 then s
  else
    let s := (s.stopModule 1).updMod (fun m => { m with thermal := true })
    (List.range 65).foldl (fun s f => s.postEvent f 0 { kind := 6 }) s)

/-- A module error: a fatal report on the physical function, then the stop (R460). -/
def State.moduleError (s : State) : State :=
  (s.updFunc 0 (fun f => { f with aerUnc := true, aerFatal := true })).stopModule 2

/-! ## Errors (R453 to R461) -/

/-- The function that owns a key id; the physical one for key id 0. -/
def State.keyOwner (s : State) (id : Nat) : Nat := if id = 0 then 0 else (s.key id).owner

/-- The key id that a line was last written under. -/
def State.lineKey (s : State) (ln : Nat) : Nat := ((Assoc.find s.lines ln).getD {}).key

/-- The team whose registers, scratchpad or ray an array holds (R453). -/
def State.errorTeam (s : State) (e : ErrorSite) : Option Nat :=
  if e.storage = 0 then some (teamOf e.owner)
  else if e.storage = 1 then some e.owner
  else if e.storage = 7 then (Assoc.find s.rays e.owner).map (fun r => r.team)
  else none

/-- The die of the array that an error strikes: of the team's core, of the L1's core, of the line's home, or of the weight store (R459). -/
def State.errorDie (s : State) (e : ErrorSite) : Nat :=
  match s.errorTeam e with
  | some t => dieOf (s.team t).core
  | none =>
    if e.storage = 2 then dieOf e.owner
    else if e.storage = 3 ∨ e.storage = 4 ∨ e.storage = 5 then paDie (e.line * 128)
    else if e.storage = 6 then (e.line - 2 ^ 45) / 2 ^ 25
    else e.die

/-- CORRECTED_ERROR (R454, R455, R459): the value stands; the event is counted and reported. -/
def State.corrected (s : State) (e : ErrorSite) : State :=
  let held := decide (e.storage = 2 ∨ e.storage = 3 ∨ e.storage = 4 ∨ e.storage = 5)
  let key := if held then s.lineKey e.line else 0
  let func := if held then s.keyOwner key else match s.errorTeam e with | some t => (s.team t).func | none => 0
  s.aer func 0 e.storage 0 (s.errorDie e) (if e.line < 2 ^ 45 then e.line * 128 else 0) key

def execCorrectedError (e : ErrorSite) (s : State) : Out := .next (s.corrected e)

/-- A dirty line found bad as it is written back: written poisoned and charged to the owner of its key; dropped under a destroyed key; a module error under key id 0 (R458, R460). -/
def State.chargeLine (s : State) (e : ErrorSite) (key : Nat) : State :=
  if key = 0 then s.moduleError
  else if (s.key key).state = 3 ∨ (s.key key).state = 0 then s.uncache e.line
  else (s.poisonLine e.line).aer (s.keyOwner key) 1 e.storage 7 (s.errorDie e) (e.line * 128) key

/-- A line of an L2 slice or a deep cache: a clean one is dropped and refetched (R455), a dirty one charged (R458). -/
def State.cacheError (s : State) (e : ErrorSite) (held : Option Bool) : State :=
  match held with
  | none => s
  | some false => (s.uncache e.line).corrected e
  | some true => s.chargeLine e (s.lineKey e.line)

/-- A line of memory: a copy in a cache replaces it; a handover whose new tables it strikes rolls back; under key id 0 it is a module error; else it is poisoned (R455, R456, R460, R464). -/
def State.memoryError (s : State) (e : ErrorSite) : State :=
  if (Assoc.find s.l2 e.line).isSome || (Assoc.find s.deep e.line).isSome || (Assoc.find s.lines e.line).isNone then s.corrected e
  else if (match s.mod.handover with | some h => h.frames.contains (e.line * 128 / 65536 * 65536) | none => false) then (s.poisonLine e.line).rollHandover
  else if s.lineKey e.line = 0 then s.moduleError
  else s.poisonLine e.line

/-- A line of a core's L1: a clean one is dropped, one with pending bytes is poisoned; under key id 0 it is a module error (R455, R456, R460). -/
def State.l1Error (s : State) (e : ErrorSite) : State :=
  match Assoc.find (s.core e.owner).l1 e.line with
  | none => s
  | some l =>
    if l.pend = 0 then (s.l1Drop e.owner e.line).corrected e
    else if l.key = 0 ∧ isLpddr (e.line * 128) = true then s.moduleError
    else s.updCore e.owner (fun c => { c with l1 := Assoc.put c.l1 e.line { l with poison := true } })

/-- An error in the scheduling core's memory: it restarts; open transactions roll back, commands in progress end with result 6 (R461). -/
def State.schedError (s : State) : State :=
  let s := (s.updMod (fun m => { m with restarting := true })).rollSwitch.rollHandover
  (Assoc.keys s.funcs).foldl (fun s f => if (s.func f).cmd.busy then s.cmdDone f 6 else s) s

/-- UNCORRECTABLE_ERROR (R453 to R461). -/
def execUncorrectableError (e : ErrorSite) (s : State) : Out :=
  .next (
    if e.storage = 0 then (if (s.thread e.owner).st = .exited then s else s.updThread e.owner (fun th => { th with poison := if th.poison.contains e.index then th.poison else th.poison ++ [e.index] }))
    else if e.storage = 1 then s.updTeam e.owner (fun t => { t with spadPoison := if t.spadPoison.contains e.index then t.spadPoison else t.spadPoison ++ [e.index] })
    else if e.storage = 2 then s.l1Error e
    else if e.storage = 3 then s.cacheError e ((Assoc.find s.l2 e.line).map (fun l => l.dirty))
    else if e.storage = 4 then s.cacheError e ((Assoc.find s.deep e.line).map (fun l => l.dirty))
    else if e.storage = 5 then (if isLpddr (e.line * 128) then s.memoryError e else s)
    else if e.storage = 6 then (if 2 ^ 45 ≤ e.line then s.poisonLine e.line else s)
    else if e.storage = 7 then
      match Assoc.find s.rays e.owner with
      | some r => if (r.state = 1 ∨ r.state = 2 ∨ r.state = 3) ∧ r.saved = 0 then s.setRay e.owner (r.fail 7) else s
      | none => s
    else if e.storage = 8 ∨ e.storage = 9 then s.moduleError
    else if e.storage = 10 then s.schedError
    else s)

/-- SCHED_CORE_RESTART (R461): the firmware is verified again and runs. -/
def execSchedCoreRestart (s : State) : Out := .next (if s.mod.restarting then s.updMod (fun m => { m with restarting := false }) else s)

/-- MEMORY_SCRUB (R454, R459): corrections are written back; poison found is reported. -/
def execMemoryScrub (line : Nat) (s : State) : Out :=
  let die := if line < 2 ^ 45 then paDie (line * 128) else (line - 2 ^ 45) / 2 ^ 25
  let s := s.updDie die (fun d => { d with scrubbed := line })
  .next (if s.poisoned line then s.aer (s.keyOwner (s.lineKey line)) 2 (if line < 2 ^ 45 then 5 else 6) 7 die (if line < 2 ^ 45 then line * 128 else 0) (s.lineKey line) else s)

/-- WS_BANK_REFRESH (R217): the groups in turn; no value changes. -/
def execWsBankRefresh (die group : Nat) (s : State) : Out :=
  .next (if die < 4 ∧ (s.die die).refresh = group then s.updDie die (fun d => { d with refresh := (group + 1) % 16 }) else s)

/-! ## The log's re-read (R319, R320) -/

/-- LOG_TAIL_REREAD: tail as an acquire at system scope, every 4,096 aclk of a stall; a replay's cursor reads it where it has used up its records. -/
def State.rereadTail (s : State) (c : Nat) : State :=
  let x := s.ctx c
  if ((x.logMode = 1 ∧ x.stalled = true) ∨ (x.logMode = 2 ∧ x.logTail ≤ x.order)) ∧ x.rereadAt + 4096 ≤ s.clock then
    match s.devRead c (x.logBlock.toNat + 0x18) 8 with
    | (.error _, s) => s.updCtx c (fun x => { x with rereadAt := s.clock })
    | (.ok bs, s) =>
      let s := s.updCtx c (fun x => { x with logTail := ofBytesNat bs, rereadAt := s.clock })
      let x := s.ctx c
      if x.stalled && decide (64 ≤ x.logFree) then (s.setCtx c { x with stalled := false }).writeStatus c else s
  else s

/-- With the re-read, what the function's port holds is tried again. -/
def execLogTailReread (func ctx : Nat) (s : State) : Out :=
  let s := s.rereadTail (ckey func ctx)
  .next (if (s.func func).iwHeld = [] then s else s.ingHeld func (s.func func).iwHeld)

/-! ## Groups (R465 to R468) -/

/-- Draw a new nonce for a member (R466). -/
def State.drawNonce (s : State) (group member : Nat) : State :=
  let g := s.group group
  { s with groups := Assoc.put s.groups group { g with nonces := Assoc.put g.nonces member (Config.randomWord s.fresh) }, fresh := s.fresh + 1 }

def bitOf (i : Nat) : BitVec 32 := BitVec.ofNat 32 (2 ^ (i % 32))

/-- A member is changed: an active group is suspended, what has not committed ends (R467, R468). -/
def State.memberChanged (s : State) (group member : Nat) : State :=
  let g := s.group group
  let s := { s with groups := Assoc.put s.groups group { g with changed := g.changed ||| bitOf member, admitted := g.admitted &&& ~~~bitOf member, confirmed := g.confirmed &&& ~~~bitOf member, beats := Assoc.del g.beats member, state := if g.state = 2 then 3 else g.state } }
  (s.drawNonce group member).collChanged group

/-- The bits of every member but this module. -/
def Group.others (g : Group) : BitVec 32 := BitVec.ofNat 32 (2 ^ (g.count + 1) - 1) &&& ~~~bitOf g.index

/-- A group is active when every member is admitted here and every other module has confirmed its own admissions (R466). -/
def State.groupCheck (s : State) (group : Nat) : State :=
  match Assoc.find s.groups group with
  | none => s
  | some g =>
    if (g.state = 1 ∨ g.state = 3) ∧ g.admitted &&& g.others = g.others ∧ g.confirmed &&& g.others = g.others then
      { s with groups := Assoc.put s.groups group { g with state := 2, activeAt := s.clock } }
    else s

/-- ADMISSION_CONFIRMATION (R466). -/
def execAdmissionConfirmation (group member : Nat) (s : State) : Out :=
  .next (match Assoc.find s.groups group with
    | none => s
    | some g => if member ≤ g.count ∧ member ≠ g.index then ({ s with groups := Assoc.put s.groups group { g with confirmed := g.confirmed ||| bitOf member } } : State).groupCheck group else s)

/-- HEARTBEAT_SEND (R467): each active group whose last heartbeat is 2,200,000 aclk old. -/
def execHeartbeatSend (s : State) : Out :=
  .next { s with groups := Assoc.mapVals s.groups (fun _ g => if g.state = 2 ∧ g.sent + 2200000 ≤ s.clock ∧ s.mod.linkUp = true then { g with sent := s.clock, out := some (s.mod.resets, s.beatDigest) } else g) }

/-- HEARTBEAT_RECEIVE (R467). -/
def execHeartbeatReceive (group member resets : Nat) (digest : BitVec 512) (s : State) : Out :=
  .next (match Assoc.find s.groups group with
    | none => s
    | some g =>
      if g.count < member ∨ member = g.index ∨ s.mod.linkUp = false then s
      else
        let keep := fun (s : State) => let g := s.group group; { s with groups := Assoc.put s.groups group { g with beats := Assoc.put g.beats member (resets, digest, s.clock) } }
        match Assoc.find g.beats member with
        | none => keep s
        | some b => if b.1 = resets ∧ b.2.1 = digest then keep s else keep (s.memberChanged group member))

/-- HEARTBEAT_TIMEOUT (R467): no heartbeat for 8,800,000 aclk. -/
def execHeartbeatTimeout (group member : Nat) (s : State) : Out :=
  .next (match Assoc.find s.groups group with
    | none => s
    | some g =>
      let last := match Assoc.find g.beats member with
        | some b => Nat.max b.2.2 g.activeAt
        | none => g.activeAt
      if g.state = 2 ∧ member ≤ g.count ∧ member ≠ g.index ∧ last + 8800000 ≤ s.clock then s.memberChanged group member else s)

/-! ## Module reset and boot (R22, R395, R422) -/

/-- MODULE_RESET: the module as after reset. Memory keeps its bytes, encrypted under keys that are gone; the secure core draws a new module key and verifies both firmware images. -/
def execModuleReset (s : State) : Out :=
  let n := s.mod.resets + 1
  let good := Config.imageGood 0 n && Config.imageGood 1 n
  .next { State.reset with mem := s.mem, lines := s.lines, keys := Assoc.put (Assoc.mapVals s.keys (fun _ k => ({ gen := k.gen + 1 } : Key))) 0 { gen := (s.key 0).gen + 1 }, mod := { resets := n, booted := good, bootFailed := !good, gen := s.mod.gen, width := s.mod.width, protocol := s.mod.protocol }, sched := s.sched, fresh := s.fresh, nextId := s.nextId }

/-- SCHEDULER_RUNNING (R22). -/
def execSchedulerRunning (s : State) : Out := .next (if s.mod.booted ∧ s.mod.stopped = 0 then s.updMod (fun m => { m with ready := true }) else s)

/-! ## Function-level reset (R23) -/

/-- FUNCTION_LEVEL_RESET (R23, R464): of the physical function the whole module's; one that meets a handover of its function waits for it. -/
def execFunctionLevelReset (func : Nat) (s : State) : Out :=
  if func = 0 then execModuleReset s
  else .next (if 64 < func then s
    else if s.handing func then s.updFunc func (fun f => { f with flrDue := true })
    else s.resetFunction func)

/-! ## The host link (R12, R14) -/

/-- HOST_LINK_DOWN (R14). -/
def execHostLinkDown (s : State) : Out := .next (s.updMod (fun m => { m with linkUp := false }))

/-- One queued write or message is delivered. -/
def State.deliver (s : State) (m : LinkMsg) : State :=
  match m with
  | .line key ln mask data => s.putMasked key ln mask data
  | .msix f v => s.sendMsix f v
  | .record f i r b pa key => s.writeRecord f i b r pa key
  | .cword _ n pa key => s.writeNum key pa 8 n

/-- HOST_LINK_UP (R12, R14): a link that trains below x4 stays down; what waited is delivered in issue order. -/
def execHostLinkUp (gen width protocol : Nat) (s : State) : Out :=
  .next (if s.mod.linkUp || decide (width < 4) || !([4, 8, 16].contains width) || !([5, 6, 7].contains gen) || !([1, 2, 3].contains protocol) then s
  else
    let q := s.mod.linkQ
    let s := s.updMod (fun m => { m with linkUp := true, gen := gen, width := width, protocol := protocol, linkQ := [] })
    q.foldl (fun s m => s.deliver m) s)

/-! ## The governor and the sideband (R25 to R27) -/

/-- ISSUE_GOVERNOR: the governor of one die withholds turns from the lowest classes, as many as given; md_status.governed follows (R20, R26). -/
def execIssueGovernor (g : Nat × Nat) (s : State) : Out :=
  .next (if 4 ≤ g.1 then s
  else
    let s := s.updDie g.1 (fun x => { x with withheld := Nat.min g.2 3 })
    s.updMod (fun m => { m with governed := (List.range 4).any (fun d => decide ((s.die d).withheld ≠ 0)) }))

/-- SIDEBAND_SET_POWER (R25, R27). -/
def execSidebandSetPower (watts : Nat) (s : State) : Out := .next (if 700 ≤ watts ∧ watts ≤ 1400 then s.updMod (fun m => { m with power := watts }) else s)

/-- What the sideband reads: 0 to 4 temperatures of the dies and the coolant, 5 power, 6 the boot cause, 7 the stop's cause, from 16 on the counts by die * 8 + event kind (R27, R459, R460). -/
def State.sidebandValue (s : State) (what : Nat) : Nat :=
  if what < 5 then Config.temperature what s.fresh
  else if what = 5 then Config.temperature 5 s.fresh
  else if what = 6 then b2n s.mod.bootFailed
  else if what = 7 then s.mod.stopped
  else (Assoc.find s.mod.errors (what - 16)).getD 0

/-- SIDEBAND_READ (R27). -/
def execSidebandRead (what : Nat) (s : State) : Out := .next { (s.updMod (fun m => { m with sideband := s.sidebandValue what :: m.sideband })) with fresh := s.fresh + 1 }

end Sys2Proof.Machine
end

