-- ==== Sys2Proof/Machine/Commands.lean ====
section
/-! DEFINITION. The commands of the scheduling-core command interface (R17, R25, R215, R221, R315, R319, R357, R361 to R363, R368, R369, R387, R388, R394, R398 to R402, R405, R409, R410, R415, R416, R418 to R420, R422, R423, R463, R465, R466). -/

namespace Sys2Proof.Machine

/-! ## The command buffer (R361) -/

/-- The little-endian number of n bytes at an offset of a buffer. -/
def bufU (w : BitVec 512) (off n : Nat) : Nat := w.toNat / 2 ^ (8 * off) % 2 ^ (8 * n)

/-- Bytes 1 and 3 to 7 are zero. -/
def badHead (w : BitVec 512) : Bool := decide (bufU w 1 1 ≠ 0) || decide (bufU w 3 5 ≠ 0)

/-- What a command's performance answers: its result, or none while it still runs. -/
abbrev CmdEnd := Option Nat × State

/-- A command is taken where the host reaches the device, it is ready and no command of the function runs; the buffer's head and the right to the command are checked first (R22, R361). -/
def runCmd (c : CmdBuf) (pf : Bool) (g : State → CmdEnd) (s : State) : Out :=
  .next (
    if !s.hostOpen || !s.mod.ready || ((s.func c.func).cmd.busy && decide ((s.func c.func).running ≠ .waiting c.w)) || decide (64 < c.func) then s
    else if badHead c.w then s.cmdDone c.func 2
    else if pf && decide (c.func ≠ 0) then s.cmdDone c.func 3
    else match g s with
      | (some r, s) => s.cmdDone c.func r
      | (none, s) => s.updFunc c.func (fun f => { f with cmd := { f.cmd with busy := true } }))

/-- The context that bytes 2 and 3 name. -/
def cmdCtx (c : CmdBuf) : Nat := ckey c.func (bufU c.w 2 1)

/-- A fault of a check, or the effect. -/
def checked (r : Nat) (s : State) (g : State → State) : CmdEnd := if r = 0 then (some 0, g s) else (some r, s)

/-! ## Contexts, logs, queues, berths (R315, R319, R357, R361) -/

/-- CMD_CONTEXT (R361, R400). -/
def execCmdContext (c : CmdBuf) (s : State) : Out :=
  runCmd c false (fun s =>
    let w := bufU c.w 20 1 % 16
    let size := bufU c.w 18 2 * 16
    let frame := bufU c.w 24 8
    checked (if (s.func c.func).worldMask.getLsbD w = false then 3 else if 65536 < size ∨ frame % 65536 ≠ 0 then 5 else 0) s (fun s =>
      s.updCtx (cmdCtx c) (fun x => { x with stackBase := BitVec.ofNat 80 (bufU c.w 8 10), stackSize := size, world := w, mode := BitVec.ofNat 8 (bufU c.w 21 1 % 64), frameBase := BitVec.ofNat 64 frame, frameUnits := bufU c.w 32 4 }))) s

/-- The context has a resident, saved or queued team (R315). -/
def State.hasTeams (s : State) (func ctx : Nat) : Bool :=
  s.teams.any (fun p => decide (p.2.func = func) && decide (p.2.ctx = ctx) && decide (p.2.life ≠ .ended))
  || s.launches.any (fun p => decide (p.2.func = func) && decide (p.2.ctx = ctx) && !p.2.done && decide (p.2.placed < p.2.total))

/-- CMD_LOG_NONE (R315). -/
def execCmdLogNone (c : CmdBuf) (s : State) : Out :=
  runCmd c false (fun s => checked (if s.hasTeams c.func (bufU c.w 2 1) then 4 else 0) s (fun s => s.updCtx (cmdCtx c) (fun x => { x with logMode := 0, stalled := false, diverged := false, miss := false }))) s

/-- The result of a log control block (R319). -/
def logBlockCode (b : Nat) : Nat :=
  if fld b 64 43 ≠ 0 ∨ fld b 264 24 ≠ 0 ∨ fld b 288 32 ≠ 0 ∨ fld b 384 128 ≠ 0 then 2
  else if 20 < fld b 107 5 ∨ fld b 0 16 ≠ 0 then 5
  else 0

/-- Enter record or replay mode with the control block that the command names. -/
def State.enterLog (s : State) (c : CmdBuf) (mode : Nat) : CmdEnd :=
  let block := bufU c.w 8 10
  if block % 64 ≠ 0 then (some 5, s)
  else match s.devRead (cmdCtx c) block 64 with
    | (.error _, s) => (some 5, s)
    | (.ok bs, s) =>
      let b := ofBytesNat bs
      checked (if logBlockCode b ≠ 0 then logBlockCode b else if s.hasTeams c.func (bufU c.w 2 1) then 4 else 0) s (fun s =>
        let s := s.updCtx (cmdCtx c) (fun x => { x with logMode := mode, logBlock := BitVec.ofNat 80 block, order := 0, stalled := false, diverged := false, divReason := 0, dorder := 0, miss := false, logBase := BitVec.ofNat 80 (fld b 0 64 + fld b 112 16 * 2 ^ 64), logN := fld b 107 5 + 10, logTail := fld b 192 64, rereadAt := s.clock })
        (s.devWrite (cmdCtx c) (block + 0x10) (toBytes (0 : W64) 8)).2.writeStatus (cmdCtx c))

/-- CMD_LOG_RECORD, CMD_LOG_REPLAY (R315, R319). -/
def execCmdLogRecord (c : CmdBuf) (s : State) : Out := runCmd c false (fun s => s.enterLog c 1) s
def execCmdLogReplay (c : CmdBuf) (s : State) : Out := runCmd c false (fun s => s.enterLog c 2) s

/-- The slot, ring and hardware queue of a queue command. -/
def State.queueArg (s : State) (c : CmdBuf) : Option Nat := s.hwQueue c.func (bufU c.w 8 2)

/-- CMD_QUEUE_ENABLE (R357, R361): the queue is bound anew, its numbering starts at 1. -/
def execCmdQueueEnable (c : CmdBuf) (s : State) : Out :=
  runCmd c false (fun s =>
    match s.queueArg c with
    | none => (some 5, s)
    | some q =>
      checked (if 63 < bufU c.w 10 1 then 5 else 0) s (fun s =>
        let s := { s with launches := Assoc.mapVals s.launches (fun _ l => if l.queue = q then { l with stale := true } else l) }
        (s.setQueue q { func := c.func, slot := bufU c.w 8 2, ctx := bufU c.w 2 1, ring := bufU c.w 10 1, enabled := true, bound := true, cword := BitVec.ofNat 80 (bufU c.w 16 10) }).rqRetry c.func (bufU c.w 2 1))) s

/-- CMD_QUEUE_DISABLE (R361): later records are refused with code 6. -/
def execCmdQueueDisable (c : CmdBuf) (s : State) : Out :=
  runCmd c false (fun s =>
    match s.queueArg c with
    | none => (some 5, s)
    | some q => (some 0, s.updQueue q (fun x => if x.func = c.func then { x with enabled := false } else x))) s

/-- A command waits, and runs meanwhile: it is performed when its event comes again. -/
def State.tryAgain (s : State) (c : CmdBuf) : CmdEnd := (none, s.updFunc c.func (fun f => { f with running := .waiting c.w }))

/-- What the log holds back waits whole. -/
def State.orRetry (s : State) (c : CmdBuf) (g : State → CmdEnd) : CmdEnd :=
  let r := g s
  match r.2.missed with
  | none => r
  | some cn => (s.backOut r.2 cn).tryAgain c

/-- CMD_BERTH (R361, R363): a refused record gives result 4. -/
def State.berthCmd (s : State) (c : CmdBuf) : CmdEnd :=
  let core := bufU c.w 8 2
  let berth := bufU c.w 10 1
  let r : BitVec 256 := c.w.extractLsb' 256 256
  let mine := match s.teamAt core berth with
    | some t => decide ((s.team t).func = c.func) && decide ((s.team t).ctx = bufU c.w 2 1)
    | none => true
  if !(s.ctx (cmdCtx c)).hostSched then (some 3, s)
  else if 383 < core ∨ 31 < berth then (some 5, s)
  else if brValid r then
    (if brFunc r ≠ c.func ∨ brCtx r ≠ bufU c.w 2 1 then (some 3, s)
      else let p := s.dispatch core berth r; (some (if p.1 then 0 else 4), p.2))
  else if !mine then (some 3, s)
  else (some 0, (s.dispatch core berth r).2)

def execCmdBerth (c : CmdBuf) (s : State) : Out := runCmd c false (fun s => s.orRetry c (fun s => s.berthCmd c)) s

/-! ## Quotas, grants, slices, power, switches -/

/-- CMD_QUOTA (R221, R361). -/
def execCmdQuota (c : CmdBuf) (s : State) : Out :=
  runCmd c false (fun s =>
    let q := (List.range 4).map (fun d => bufU c.w (8 + 2 * d) 2)
    checked (if q.any (fun x => decide (256 < x)) then 5 else 0) s (fun s =>
      s.updCtx (cmdCtx c) (fun x => { x with quota := (List.range 4).foldl (fun a d => Assoc.put a d (q.getD d 0)) x.quota }))) s

/-- CMD_GRANT (R215, R416): units that another context held last are zeroed first; the command ends once they are. -/
def execCmdGrant (c : CmdBuf) (s : State) : Out :=
  runCmd c true (fun s =>
    let die := bufU c.w 8 1
    let f := bufU c.w 9 1
    let x := bufU c.w 10 1
    let base := bufU c.w 12 4
    let size := bufU c.w 16 4
    if 3 < die ∨ 64 < f ∨ 65536 < base + size then (some 5, s)
    else
      let old := (List.range size).filter (fun i => decide ((Assoc.find (s.die die).wsHolder (base + i)).getD 0 ≠ ckey f x + 1))
      let s := old.foldl (fun s i =>
        let h := (Assoc.find (s.die die).wsHolder (base + i)).getD 0
        s.eraseLater (wsBase die + (base + i) * 65536) 1 (decide (h ≠ 0) && (s.ctx ((h - 1) / 256 * 256)).hostErase)) s
      let s := s.updFunc 0 (fun g => { g with running := .grant die f x base size })
      if old = [] then (some 0, (s.updCtx (ckey f x) (fun y => { y with grants := Assoc.put y.grants die { base := base, size := size } })))
      else (none, s)) s

/-- CMD_QUANTUM (R368). -/
def execCmdQuantum (c : CmdBuf) (s : State) : Out :=
  runCmd c true (fun s =>
    let e := bufU c.w 8 1
    let f := bufU c.w 9 1
    let us := bufU c.w 10 2
    checked (if 63 < e ∨ 64 < f then 5 else 0) s (fun s =>
      let none_ := s.mod.quantum.isEmpty
      let s := s.updMod (fun m => { m with quantum := if us = 0 then Assoc.del m.quantum e else Assoc.put m.quantum e (f, us) })
      if none_ && decide (us ≠ 0) then s.startSlice e
      else if (Assoc.find s.mod.quantum s.mod.sliceIdx).isNone then s.startSlice s.nextSlice
      else s)) s

/-- CMD_POWER (R25). -/
def execCmdPower (c : CmdBuf) (s : State) : Out :=
  runCmd c true (fun s => let w := bufU c.w 8 2; checked (if w < 700 ∨ 1400 < w then 5 else 0) s (fun s => s.updMod (fun m => { m with power := w }))) s

/-- CMD_SWITCH (R369): the outgoing context's teams leave their berths; the transaction commits when none is on a core. -/
def execCmdSwitch (c : CmdBuf) (s : State) : Out :=
  runCmd c false (fun s =>
    if s.mod.switch.isSome then (some 4, s)
    else
      let out := bufU c.w 8 1
      let on := s.teams.filter (fun p => decide (p.2.func = c.func) && decide (p.2.ctx = out) && p.2.onCore p.2.core)
      let s := s.updMod (fun m => { m with switch := some { func := c.func, out := out, into := bufU c.w 9 1, since := s.clock, asked := (on.filter (fun p => !p.2.leaving)).map (fun p => (p.1, p.2.life)) } })
      let ts := on.map Prod.fst
      let s := ts.foldl (fun s t => s.askSave t) s
      let s := s.updFunc c.func (fun f => { f with running := .switch })
      let s' := s.switchCheck
      if s'.mod.switch.isNone then (some 0, { s' with funcs := s.funcs }) else (none, s)) s

/-! ## Translation (R387 to R389, R394) -/

/-- An invalidation begins: it ends by INVALIDATION_COMPLETE. -/
def State.startInval (s : State) (issuer stage func ctx page pages : Nat) : CmdEnd :=
  (none, s.updFunc issuer (fun f => { f with running := .inval stage func ctx page pages }))

/-- CMD_ROOT1 (R387). -/
def execCmdRoot1 (c : CmdBuf) (s : State) : Out :=
  runCmd c false (fun s =>
    if bufU c.w 8 2 ≠ 0 ∨ 63 < bufU c.w 16 1 then (some 5, s)
    else
      let s := s.updCtx (cmdCtx c) (fun x => { x with root1 := BitVec.ofNat 64 (bufU c.w 8 8), root1Ring := bufU c.w 16 1, root1En := decide (bufU c.w 17 1 % 2 = 1) })
      s.startInval c.func 1 c.func (cmdCtx c % 256) 0 0) s

/-- CMD_INVAL1 (R387, R388). -/
def execCmdInval1 (c : CmdBuf) (s : State) : Out :=
  runCmd c false (fun s => if bufU c.w 8 2 ≠ 0 then (some 5, s) else s.startInval c.func 1 c.func (cmdCtx c % 256) (bufU c.w 8 10 / 65536) (bufU c.w 20 4)) s

/-- The result of a resume command: 3 for another function's fault, 5 for a token that is not outstanding there. -/
def State.resumeCode (s : State) (c : CmdBuf) : Nat :=
  if c.func ≠ 0 ∧ bufU c.w 17 1 ≠ c.func then 3
  else match Assoc.find s.tokens (bufU c.w 8 8) with
    | none => 5
    | some t => if t.func ≠ bufU c.w 17 1 ∨ (t.secure = true ∧ (c.func ≠ 0 ∨ t.forwarded = false)) then 5 else 0

/-- CMD_RESUME_RETRY, CMD_RESUME_ABORT (R387, R394). -/
def execCmdResumeRetry (c : CmdBuf) (s : State) : Out := runCmd c false (fun s => checked (s.resumeCode c) s (fun s => s.atomically (fun s => s.resumeToken (bufU c.w 8 8) 0))) s
def execCmdResumeAbort (c : CmdBuf) (s : State) : Out := runCmd c false (fun s => checked (s.resumeCode c) s (fun s => s.atomically (fun s => s.resumeToken (bufU c.w 8 8) 1))) s

/-- CMD_ROOT2 (R387, R411). -/
def execCmdRoot2 (c : CmdBuf) (s : State) : Out :=
  runCmd c true (fun s =>
    let f := bufU c.w 8 1
    let root := bufU c.w 16 8
    if 64 < f ∨ root % 65536 ≠ 0 ∨ 63 < bufU c.w 24 1 then (some 5, s)
    else
      let s := s.updFunc f (fun x => { x with root2 := some root, root2Ring := bufU c.w 24 1, homeDie := if x.homeFixed then x.homeDie else paDie root })
      s.startInval c.func 2 f 0 0 0) s

/-- CMD_INVAL2 (R387, R388). -/
def execCmdInval2 (c : CmdBuf) (s : State) : Out :=
  runCmd c true (fun s =>
    let f := bufU c.w 8 1
    if 64 < f ∨ bufU c.w 16 2 ≠ 0 then (some 5, s) else s.startInval c.func 2 f 0 (bufU c.w 16 8 / 65536) (bufU c.w 24 4)) s

/-! ## Keys (R398, R399) -/

/-- The key id and its reserved bytes. -/
def keyArg (w : BitVec 512) : Nat := bufU w 10 2 % 4096
def keyBad (w : BitVec 512) : Nat := if bufU w 10 2 / 4096 ≠ 0 ∨ bufU w 12 52 ≠ 0 then 2 else if 64 < bufU w 9 1 ∨ keyArg w = 0 then 5 else 0

/-- CMD_KEY_CREATE. -/
def execCmdKeyCreate (c : CmdBuf) (s : State) : Out :=
  runCmd c true (fun s =>
    let id := keyArg c.w
    let f := bufU c.w 9 1
    checked (if keyBad c.w ≠ 0 then keyBad c.w else if (s.key id).state ≠ 0 then 4 else 0) s (fun s =>
      s.setKey id { state := 1, owner := f, home := (s.func f).homeDie, moves := (s.func f).moves, gen := (s.key id).gen + 1 })) s

/-- CMD_KEY_DESTROY: one that names a function in the middle of a handover waits for it (R464). -/
def execCmdKeyDestroy (c : CmdBuf) (s : State) : Out :=
  runCmd c true (fun s =>
    let id := keyArg c.w
    if keyBad c.w = 0 ∧ (s.key id).state = 2 then s.tryAgain c
    else checked (if keyBad c.w ≠ 0 then keyBad c.w else if (s.key id).state ≠ 1 then 4 else 0) s (fun s => s.destroyKey id)) s

/-- CMD_KEY_SET_PRIVATE. -/
def execCmdKeySetPrivate (c : CmdBuf) (s : State) : Out :=
  runCmd c true (fun s =>
    let id := keyArg c.w
    let f := bufU c.w 9 1
    checked (if keyBad c.w ≠ 0 then keyBad c.w else if (s.key id).state ≠ 1 ∨ (s.key id).owner ≠ f then 4 else 0) s (fun s => s.updFunc f (fun x => { x with privKey := some id }))) s

/-! ## Domains and merging (R405, R409, R410) -/

/-- CMD_DOMAIN_PLACE: all functions of a domain name the same live key id. -/
def execCmdDomainPlace (c : CmdBuf) (s : State) : Out :=
  runCmd c true (fun s =>
    let f := bufU c.w 9 1
    let d := bufU c.w 10 2 % 4096
    let k := bufU c.w 12 2 % 4096
    let other := s.funcs.any (fun p => decide (p.1 ≠ f) && decide (p.2.domain = d) && decide (p.2.dkey ≠ k))
    checked (if bufU c.w 10 2 / 4096 ≠ 0 ∨ bufU c.w 12 2 / 4096 ≠ 0 ∨ bufU c.w 15 49 ≠ 0 then 2 else if 64 < f then 5 else if d ≠ 0 ∧ ((s.key k).state ≠ 1 ∨ other = true) then 4 else 0) s (fun s =>
      s.updFunc f (fun x => { x with domain := d, dkey := k }))) s

/-- CMD_DOMAIN_HASH_SHARE. -/
def execCmdDomainHashShare (c : CmdBuf) (s : State) : Out :=
  runCmd c true (fun s => checked (if bufU c.w 15 49 ≠ 0 then 2 else if 8 < bufU c.w 14 1 then 5 else 0) s (fun s => s.updMod (fun m => { m with hashShare := bufU c.w 14 1 }))) s

/-- The entries of a merge list, in order: each a merge attempt whose outcome is written into the list. -/
def State.mergeAll (s : State) (list : Nat) : Nat → Nat → State
  | 0, _ => s
  | n + 1, i =>
    match s.physRead 0 (list + 16 * i) 16 with
    | .error _ => State.mergeAll s list n (i + 1)
    | .ok bs =>
      let r := s.mergeOne (ofBytesNat ((bs.drop 8).take 1)) (ofBytesNat (bs.take 8)) true
      State.mergeAll (r.2.physWrite 0 (list + 16 * i + 9) [BitVec.ofNat 8 r.1]).2 list n (i + 1)

/-- CMD_MERGE_LIST (R409). -/
def execCmdMergeList (c : CmdBuf) (s : State) : Out :=
  runCmd c true (fun s =>
    let list := bufU c.w 8 8
    let n := bufU c.w 16 4
    checked (if bufU c.w 20 44 ≠ 0 then 2 else if list % 16 ≠ 0 ∨ n = 0 ∨ 4096 < n then 5 else 0) s (fun s => s.mergeAll list n 0)) s

/-- CMD_UNREF (R410). -/
def execCmdUnref (c : CmdBuf) (s : State) : Out :=
  runCmd c true (fun s =>
    let i := bufU c.w 8 4
    let live := match Assoc.find s.hdir i with
      | some e => decide (e.refs ≠ 0)
      | none => false
    checked (if bufU c.w 12 52 ≠ 0 then 2 else if live then 0 else 4) s (fun s => s.unref i)) s

/-! ## Forks (R418, R419) -/

/-- What the template's second stage may not map. -/
def State.forkRange (s : State) (func : Nat) : Bool :=
  (s.leaves func).any (fun l => (decide (l.level = 3) && fbit l.e 3) || (l.split && (s.readSplit l.at_).pv) || (fbit l.e 9 && isSecure (eAddr l.e)))

/-- A split leaf in one step. -/
def State.writeSplit (s : State) (at_ w0 hidx : Nat) : State :=
  (((s.writeNum 0 at_ 8 w0).writeNum 0 (at_ + 8) 8 0).writeNum 0 (at_ + 16) 8 0).writeNum 0 (at_ + 24) 8 hidx

/-- Word 0 of a shared leaf: the same leaf with cow set and no contiguity hint. -/
def cowWord (e : Nat) : Nat := e - (if fbit e 5 then 32 else 0) + (if fbit e 7 then 0 else 128)

/-- What a fork works with: the destination's die and private key. -/
structure ForkArg where
  die : Nat
  pkey : Nat

/-- One leaf of the template, of a plain table or a split one: the template's new leaf stands at `mine`, the destination's at `his`. None where a pool or a bucket has no room. -/
def State.forkLeaf (s : State) (a : ForkArg) (e hidx mine his : Nat) : Option State :=
  if fbit e 9 then
    match s.takeFrame a.die with
    | none => none
    | some (f, s) =>
      let s := (s.copyPage (eKey e) (eAddr e) a.pkey f).2
      some ((s.writeSplit mine (e - (if fbit e 5 then 32 else 0)) hidx).writeSplit his (a.pkey * 2 ^ 52 + f + (e % 65536 - (if fbit e 5 then 32 else 0))) 0xFFFFFFFF)
  else
    match (if hidx = 0xFFFFFFFF then none else Assoc.find s.hdir hidx) with
    | some x => some ((({ s with hdir := Assoc.put s.hdir hidx { x with refs := x.refs + 1 } }).writeSplit mine (cowWord e) hidx).writeSplit his (cowWord e) hidx)
    | none =>
      match s.freeEntry (frameBucket (eAddr e)) with
      | none => none
      | some i => some ((({ s with hdir := Assoc.put s.hdir i { frame := eAddr e, refs := 2, home := paDie (eAddr e), fork := true } }).writeSplit mine (cowWord e) i).writeSplit his (cowWord e) i)

/-- The 8,192 leaves of one level-4 table, plain or split. -/
def State.forkTable (s : State) (a : ForkArg) (split : Bool) (src mine his : Nat) : Option State :=
  (List.range 8192).foldl (fun acc i =>
    match acc with
    | none => none
    | some s =>
      let e := if split then (s.readSplit (src + 32 * i)).w0 else s.numAt 0 (src + 8 * i) 8
      let bad := if split then (s.readSplit (src + 32 * i)).bad else malformed true 4 e false
      let hidx := if split then (s.readSplit (src + 32 * i)).w3 % 2 ^ 32 else 0xFFFFFFFF
      if !eV e || bad then some s else s.forkLeaf a e hidx (mine + 32 * i) (his + 32 * i)) (some s)

/-- A table above the leaves: the destination's copy, of the entries that its level uses (R378), with split tables in place of level-4 tables in both functions. -/
def State.forkFrom (a : ForkArg) : Nat → Nat → Nat → State → Option (Nat × State)
  | 0, _, _, _ => none
  | k + 1, level, table, s =>
    match s.takeFrame a.die with
    | none => none
    | some (f, s) =>
      (List.range (if level = 1 then 512 else 8192)).foldl (fun acc i =>
        match acc with
        | none => none
        | some (f, s) =>
          let e := s.numAt 0 (table + 8 * i) 8
          if !eV e || malformed true level e false then some (f, s)
          else if !eTbl e then some (f, s.writeNum 0 (f + 8 * i) 8 e)
          else if level = 3 then
            (match (if fbit e 6 then some (eAddr e, s) else s.takeFour a.die) with
              | none => none
              | some (mine, s) =>
                match s.takeFour a.die with
                | none => none
                | some (his, s) =>
                  match s.forkTable a (fbit e 6) (eAddr e) mine his with
                  | none => none
                  | some s => some (f, (s.writeNum 0 (table + 8 * i) 8 (e - eAddr e + mine + (if fbit e 6 then 0 else 64))).writeNum 0 (f + 8 * i) 8 (e - eAddr e + his + (if fbit e 6 then 0 else 64))))
          else
            (match State.forkFrom a k (level + 1) (eAddr e) s with
              | none => none
              | some (g, s) => some (f, s.writeNum 0 (f + 8 * i) 8 (e - eAddr e + g)))) (some (f, s))

/-- The settings of a context that a fork copies. -/
def Ctx.forked (c : Ctx) : Ctx :=
  { stackBase := c.stackBase, stackSize := c.stackSize, world := c.world, mode := c.mode, frameBase := c.frameBase, frameUnits := c.frameUnits, quota := c.quota, root1 := c.root1, root1Ring := c.root1Ring, root1En := c.root1En }

/-- Contexts, rings, queues and the function's own settings. -/
def State.forkSettings (s : State) (tf df : Nat) (a : ForkArg) (root : Nat) : State :=
  let t := s.func tf
  let s := (List.range 256).foldl (fun s i => match Assoc.find s.ctxs (ckey tf i) with | some c => s.setCtx (ckey df i) c.forked | none => s) s
  let s := (List.range 4096).foldl (fun s n =>
    match s.hwQueue tf n, s.hwQueue df n with
    | some q, some r => if (s.queue q).bound then s.setQueue r { func := df, slot := n, ctx := (s.queue q).ctx, ring := (s.queue q).ring, enabled := false, bound := true, cword := (s.queue q).cword } else s
    | _, _ => s) s
  let ring := fun (r : Ring) => ({ base := r.base, ctl := r.ctl, head := r.head, tail := r.tail } : Ring)
  s.updFunc df (fun d => { d with root2 := some root, root2Ring := t.root2Ring, homeDie := a.die, homeFixed := true, privKey := some a.pkey, worldMask := t.worldMask, domain := t.domain, dkey := t.dkey, m3 := t.m3, er := Assoc.mapVals t.er (fun _ r => ring r), fr := Assoc.mapVals t.fr (fun _ r => ring r) })

/-- The template is at rest, the destination's queues are disabled, the private key is the destination's. -/
def State.forkState (s : State) (tf df pkey : Nat) : Bool :=
  s.teams.all (fun p => decide (p.2.func ≠ tf) || decide (p.2.life = .ended)) && s.launches.all (fun p => decide (p.2.func ≠ tf) || p.2.done) && s.tokens.all (fun p => decide (p.2.func ≠ tf))
  && s.queues.all (fun p => decide (p.2.func ≠ df) || !p.2.enabled) && decide ((s.key pkey).state = 1) && decide ((s.key pkey).owner = df)

/-- CMD_FORK (R418, R419). A pool or bucket without room rolls everything back with result 6. -/
def execCmdFork (c : CmdBuf) (s : State) : Out :=
  runCmd c true (fun s =>
    let tf := bufU c.w 8 1
    let df := bufU c.w 9 1
    let a : ForkArg := { die := bufU c.w 10 1, pkey := bufU c.w 12 2 % 4096 }
    if bufU c.w 11 1 ≠ 0 ∨ bufU c.w 12 2 / 4096 ≠ 0 ∨ bufU c.w 14 50 ≠ 0 then (some 2, s)
    else if 64 < tf ∨ df = 0 ∨ 64 < df ∨ 3 < a.die then (some 5, s)
    else if !s.forkState tf df a.pkey then (some 4, s)
    else if s.forkRange tf then (some 5, s)
    else match (s.func tf).root2 with
      | none => (some 4, s)
      | some root =>
        match State.forkFrom a 3 1 root s with
        | none => (some 6, s)
        | some (r, s) => (some 0, (s.forkSettings tf df a r).dropTlb2 tf 0 0)) s

/-! ## Worlds (R400, R402) -/

/-- CMD_WORLD_MASK. -/
def execCmdWorldMask (c : CmdBuf) (s : State) : Out :=
  runCmd c true (fun s =>
    checked (if bufU c.w 14 50 ≠ 0 then 2 else if 64 < bufU c.w 9 1 then 5 else 0) s (fun s => s.updFunc (bufU c.w 9 1) (fun f => { f with worldMask := BitVec.ofNat 16 (bufU c.w 12 2) ||| 1#16 }))) s

/-- The number of ways in a mask. -/
def wayCount (m : BitVec 16) : Nat := ((List.range 16).filter (fun i => m.getLsbD i)).length

/-- CMD_WORLD_WAYS: every line in a way that changes owner is written back and invalidated. -/
def execCmdWorldWays (c : CmdBuf) (s : State) : Out :=
  runCmd c true (fun s =>
    let w := bufU c.w 10 1
    let m := BitVec.ofNat 16 (bufU c.w 12 2)
    let others := s.mod.ways.filter (fun p => decide (p.1 ≠ w))
    let theirs := (Assoc.vals others).foldl (· ||| ·) 0#16
    checked (if bufU c.w 14 50 ≠ 0 then 2 else if w = 0 ∨ 15 < w ∨ m &&& theirs ≠ 0 ∨ 12 < wayCount (m ||| theirs) then 5 else 0) s (fun s =>
      let moved := s.waysOf w ^^^ m
      let s := { s with l2 := s.l2.filter (fun p => !moved.getLsbD p.2.way) }
      s.updMod (fun x => { x with ways := if m = 0 then Assoc.del x.ways w else Assoc.put x.ways w m }))) s

/-! ## Groups (R465 to R467) -/

def groupArg (c : CmdBuf) : Nat := bufU c.w 10 2
/-- Reserved bytes and what every op needs: a group id that is not zero, an index within 0 to 31. -/
def groupBad (c : CmdBuf) : Nat := if bufU c.w 15 1 ≠ 0 ∨ bufU c.w 56 8 ≠ 0 then 2 else if groupArg c = 0 then 5 else 0

/-- On a link other than CXL 3.1 a group cannot form: result 4, state 4 (R13, R465). -/
def State.noFabric (s : State) (g : Nat) : CmdEnd := (some 4, { s with groups := Assoc.put s.groups g { s.group g with state := 4 } })

/-- CMD_GROUP_CREATE. -/
def execCmdGroupCreate (c : CmdBuf) (s : State) : Out :=
  runCmd c true (fun s =>
    let g := groupArg c
    let n := bufU c.w 14 1
    if groupBad c ≠ 0 then (some (groupBad c), s)
    else if n = 0 ∨ 31 < n ∨ n < bufU c.w 9 1 ∨ ((Assoc.find s.groups g).isNone = true ∧ 8 ≤ s.groups.length) then (some 5, s)
    else if s.mod.protocol ≠ 3 then s.noFabric g
    else (some 0, (List.range (n + 1)).foldl (fun s i => s.drawNonce g i) { s with groups := Assoc.put s.groups g { state := 1, index := bufU c.w 9 1, count := n } })) s

/-- A member's report (R423) is accepted (R466). -/
def reportOk (r : List Byte) (nonce : BitVec 256) (khash : BitVec 256) : Bool :=
  let h := ofBytesNat (r.take 8)
  let key := (r.drop 0x140).take 2592
  decide (fld h 48 16 = 0x4816) && decide (fld h 40 8 = 1) && decide (fld h 32 8 = 0) && decide (ofBytes 256 ((r.drop 0x20).take 32) = nonce)
  && Config.mldsaVerify key (r.take 0xB60) ((r.drop 0xB60).take 4627) && decide (ofBytes 256 (sha3_256 key) = khash)

/-- CMD_GROUP_ADMIT (R466). -/
def execCmdGroupAdmit (c : CmdBuf) (s : State) : Out :=
  runCmd c true (fun s =>
    let g := groupArg c
    let i := bufU c.w 9 1
    let gpa := bufU c.w 16 8
    match Assoc.find s.groups g with
    | none => (some (if groupBad c ≠ 0 then groupBad c else 5), s)
    | some x =>
      if groupBad c ≠ 0 ∨ bufU c.w 12 2 / 4096 ≠ 0 then (some (if groupBad c ≠ 0 then groupBad c else 2), s)
      else if x.count < i ∨ gpa % 4096 ≠ 0 then (some 5, s)
      else if s.mod.protocol ≠ 3 then s.noFabric g
      else match s.physRead 0 gpa 7539 with
        | .error _ => (some 5, s)
        | .ok r =>
          if reportOk r ((Assoc.find x.nonces i).getD 0) (BitVec.ofNat 256 (bufU c.w 24 32)) then
            let y : Group := { x with admitted := x.admitted ||| bitOf i, changed := x.changed &&& ~~~bitOf i, pbr := Assoc.put x.pbr i (bufU c.w 12 2), meas := Assoc.put x.meas i (ofBytes 1536 ((r.drop 0x40).take 192)) }
            (some 0, (({ s with groups := Assoc.put s.groups g y } : State).drawNonce g i).groupCheck g)
          else (some 4, s)) s

/-- CMD_GROUP_REMOVE (R467): the member is changed. -/
def execCmdGroupRemove (c : CmdBuf) (s : State) : Out :=
  runCmd c true (fun s =>
    let i := bufU c.w 9 1
    match Assoc.find s.groups (groupArg c) with
    | none => (some (if groupBad c ≠ 0 then groupBad c else 5), s)
    | some x => checked (if groupBad c ≠ 0 then groupBad c else if x.count < i then 5 else 0) s (fun s => s.memberChanged (groupArg c) i)) s

/-- The state block (R465). -/
def Group.block (g : Group) (id : Nat) : List Byte :=
  leBytes 8 (g.state + g.index * 2 ^ 32 + g.count * 2 ^ 40 + id * 2 ^ 48) ++ toBytes g.admitted 4 ++ toBytes g.changed 4
  ++ (List.range 32).flatMap (fun i => toBytes ((Assoc.find g.nonces i).getD 0) 32)

/-- CMD_GROUP_QUERY. -/
def execCmdGroupQuery (c : CmdBuf) (s : State) : Out :=
  runCmd c true (fun s =>
    let gpa := bufU c.w 16 8
    match Assoc.find s.groups (groupArg c) with
    | none => (some (if groupBad c ≠ 0 then groupBad c else 5), s)
    | some x =>
      if groupBad c ≠ 0 ∨ gpa % 4096 ≠ 0 then (some (if groupBad c ≠ 0 then groupBad c else 5), s)
      else match s.physWrite 0 gpa (x.block (groupArg c)) with
        | (some _, s) => (some 5, s)
        | (none, s) => (some 0, s)) s

/-- CMD_GROUP_DISSOLVE: collectives that have not committed end as for a change. -/
def execCmdGroupDissolve (c : CmdBuf) (s : State) : Out :=
  runCmd c true (fun s =>
    checked (if groupBad c ≠ 0 then groupBad c else if (Assoc.find s.groups (groupArg c)).isNone then 5 else 0) s (fun s =>
      ({ s with groups := Assoc.del s.groups (groupArg c) } : State).collChanged (groupArg c))) s

/-! ## Pools (R415) -/

def poolBad (w : BitVec 512) : Bool := decide (bufU w 11 5 ≠ 0) || decide (bufU w 28 36 ≠ 0)
/-- The frames that a pool command names, and whether they lie outside the die or touch secure memory. -/
def poolFrames (w : BitVec 512) : List Nat := (List.range (bufU w 24 4)).map (fun i => bufU w 16 8 + 65536 * i)
def poolRange (w : BitVec 512) : Bool :=
  let pa := bufU w 16 8
  let last := pa + 65536 * bufU w 24 4
  decide (3 < bufU w 9 1) || decide (pa % 65536 ≠ 0) || decide (pa < bufU w 9 1 * 0x2000000000) || decide (bufU w 9 1 * 0x2000000000 + 0x1F80000000 < last)

/-- CMD_POOL_DONATE: the frames are swept and then enter the pool. -/
def execCmdPoolDonate (c : CmdBuf) (s : State) : Out :=
  runCmd c true (fun s => checked (if poolBad c.w then 2 else if poolRange c.w then 5 else 0) s (fun s => (poolFrames c.w).foldl (fun s f => s.eraseLater f 0 false) s)) s

/-- CMD_POOL_SWEEP_SHARE. -/
def execCmdPoolSweepShare (c : CmdBuf) (s : State) : Out :=
  runCmd c true (fun s =>
    let n := bufU c.w 10 1
    checked (if poolBad c.w then 2 else if 3 < bufU c.w 9 1 ∨ 8 < n then 5 else 0) s (fun s => s.updDie (bufU c.w 9 1) (fun d => { d with share := if n = 0 then 2 else n }))) s

/-- CMD_POOL_ZERO_NOW: frames that await host-driven erasure are zeroed. -/
def execCmdPoolZeroNow (c : CmdBuf) (s : State) : Out :=
  runCmd c true (fun s =>
    let waits := fun (f : Nat) => match Assoc.find (s.die (bufU c.w 9 1)).erasing f with
      | some e => e.2
      | none => false
    checked (if poolBad c.w then 2 else if poolRange c.w then 5 else if (poolFrames c.w).all waits then 0 else 4) s (fun s => (poolFrames c.w).foldl (fun s f => s.erase f) s)) s

/-! ## Moves and attestation (R420, R423) -/

/-- CMD_MOVE: its handover begins; the command ends when it confirms or rolls back. -/
def execCmdMove (c : CmdBuf) (s : State) : Out :=
  runCmd c true (fun s =>
    let f := bufU c.w 8 1
    if bufU c.w 10 54 ≠ 0 then (some 2, s)
    else if 64 < f ∨ 3 < bufU c.w 9 1 then (some 5, s)
    else if (s.func f).moving || s.mod.handover.isSome then (some 4, s)
    else match (s.func f).root2 with
      | none => (some 4, s)
      | some root =>
        let s' := s.startMove f (bufU c.w 9 1) root
        if s'.mod.handover.isSome then (none, s'.updFunc 0 (fun x => { x with running := .move })) else (some 6, s)) s

/-- `md_ident` of a function (R19). -/
def identWord (func : Nat) : W64 :=
  BitVec.ofNat 64 (0x4816 * 2 ^ 48 + Config.stepping.toNat * 2 ^ 40 + 4 * 2 ^ 36 + Config.fwSched.toNat * 2 ^ 24 + Config.fwSecure.toNat * 2 ^ 16 + func * 2 ^ 8)

/-- A list of exactly n bytes. -/
def fitBytes (n : Nat) (l : List Byte) : List Byte := (l ++ List.replicate n 0).take n

/-- The signed part of a report (R423). -/
def State.reportBody (s : State) (func : Nat) (nonce : List Byte) : List Byte :=
  leBytes 8 (7539 + func * 2 ^ 32 + 2 ^ 40 + 0x4816 * 2 ^ 48) ++ toBytes (identWord func) 8 ++ leBytes 8 s.clock ++ leBytes 8 s.mod.signed ++ nonce
  ++ toBytes (s.measure 0) 64 ++ toBytes (s.measure 1) 64 ++ toBytes (s.measure 2) 64 ++ toBytes (s.func func).m3 64 ++ fitBytes 2592 Config.identityKey

/-- The whole buffer of a report. -/
def State.report (s : State) (func : Nat) (nonce : List Byte) : List Byte :=
  let b := s.reportBody func nonce
  fitBytes 8192 (b ++ fitBytes 4627 (Config.mldsaSign b))

/-- CMD_REPORT (R423). -/
def execCmdReport (c : CmdBuf) (s : State) : Out :=
  runCmd c false (fun s =>
    let f := bufU c.w 9 1
    let gpa := bufU c.w 16 8
    if c.func ≠ 0 ∧ f ≠ c.func then (some 3, s)
    else if 64 < f ∨ gpa % 4096 ≠ 0 then (some 5, s)
    else
      let s := s.updMod (fun m => { m with signed := m.signed + 1 })
      match s.physWrite c.func gpa (s.report f (leBytes 32 (bufU c.w 32 32))) with
      | (some _, s) => (some 5, s)
      | (none, s) => (some 0, s)) s

/-- CMD_EXTEND (R423): M3 := SHA3-512(M3 ‖ bytes 8 to 63). -/
def execCmdExtend (c : CmdBuf) (s : State) : Out :=
  runCmd c false (fun s => (some 0, s.updFunc c.func (fun f => { f with m3 := ofBytes 512 (sha3_512 (toBytes f.m3 64 ++ leBytes 56 (bufU c.w 8 56))) }))) s

end Sys2Proof.Machine
end

