-- ==== Sys2Proof/Machine/Control.lean ====
section
/-! DEFINITION. The control-flow instructions (R348 to R355). -/

namespace Sys2Proof.Machine

/-- The header a direct branch names: the header of the thread's own block + 8 × disp (R59, R349). -/
def Thread.target (th : Thread) (o : BOp) : W64 := th.block + o.disp.signExtend 64 * 8

/-- Branches: each active thread goes to the header its function gives, or on to the next word. -/
def branchPlan (i : Instr) (g : State → Nat → Option W64) : Plan Unit :=
  { ins := i, check := noCheck, act := fun _ s ks =>
      { s := s, goto_ := ks.filterMap (fun x => (g s x.1).map (fun H => (x.1, H))) } }

/-- Calls: a thread that transfers has its return address written to the link pair (R349). -/
def callPlan (i : Instr) (link : Src) (g : State → Nat → Option W64) : Plan Unit :=
  { ins := i, check := noCheck, act := fun f s ks =>
      let go := ks.filterMap (fun x => (g s x.1).map (fun H => (x.1, H)))
      { actFixed s f (go.map (fun x => { k := x.1, dst := dstPair link (s.thread x.1).nextHeader })) with goto_ := go } }

/-- `nop` has no effect (R355). -/
def execNop (o : ROp) (s : State) : Out := perform (regPlan (.nop o) 1 (fun _ k => { k := k })) s

/-- `bra`: a thread whose condition holds enters the target (R349). -/
def execBra (o : BOp) (s : State) : Out :=
  perform (branchPlan (.bra o) (fun s k => if (s.thread k).holds o.cond then some ((s.thread k).target o) else none)) s

/-- The uniformity cause of `bru` (R351, R426). -/
def codeBru : Nat := 0x6E

/-- `bru`: the condition of the lowest-seated active thread moves all or none; in checked mode a thread that differs stops all (R351). -/
def actBru (o : BOp) (f : Focus) (s : State) (ks : List (Nat × Unit)) : Acted :=
  match ks with
  | [] => { s := s }
  | k :: rest =>
    let c := (s.thread k.1).holds o.cond
    if (s.ctxOf (s.team f.team)).checked && rest.any (fun x => (s.thread x.1).holds o.cond != c) then
      { s := s, faults := ks.map (fun x => (x.1, codeBru, 0)) }
    else if c then { s := s, goto_ := ks.map (fun x => (x.1, (s.thread x.1).target o)) }
    else { s := s }

def execBru (o : BOp) (s : State) : Out := perform { ins := .bru o, check := noCheck, act := actBru o } s

/-- `brx`: each thread enters its own target (R349). -/
def execBrx (o : ROp) (s : State) : Out := perform (branchPlan (.brx o) (fun s k => some (s.rd64 k o.a))) s

/-- `call`: link and transfer where the condition holds (R349). -/
def execCall (o : BOp) (s : State) : Out :=
  perform (callPlan (.call o) o.link (fun s k => if (s.thread k).holds o.cond then some ((s.thread k).target o) else none)) s

/-- `callx`: link and transfer to a per-thread target, read before the link is written (R100, R349). -/
def execCallx (o : ROp) (s : State) : Out := perform (callPlan (.callx o) o.d (fun s k => some (s.rd64 k o.a))) s

/-- `ret` has the effect of `brx` (R349). -/
def execRet (o : ROp) (s : State) : Out := perform (branchPlan (.ret o) (fun s k => some (s.rd64 k o.a))) s

/-- `exit` ends each active thread (R352). -/
def actExit (f : Focus) (s : State) (ks : List (Nat × Unit)) : Acted :=
  { s := ks.foldl (fun s x => s.exitThread x.1) s, stay := ks.map (fun x => x.1),
    after_ := match ks with
      | [] => id
      | k :: _ => fun s' => s'.exitChecks f.team (wkey f.team f.wid) (s.here k.1) }

def execExit (o : ROp) (s : State) : Out := perform { ins := .exit o, check := noCheck, act := actExit } s

/-- `yield` gives each active thread a yield mark; a turn of this model ends after one instruction anyway (R353). -/
def execYield (o : ROp) (s : State) : Out :=
  perform { ins := .yield o, check := noCheck, act := fun _ s ks => { s := ks.foldl (fun s x => s.updThread x.1 (fun th => { th with yielded := true })) s } } s

/-- `cvg` is convergent and writes nothing (R354). -/
def execCvg (o : ROp) (s : State) : Out := perform (convPlan (.cvg o)) s

end Sys2Proof.Machine
end

