-- ==== Sys2Proof/Machine/Mailbox.lean ====
section
/-! DEFINITION. The debug mailbox: attaching, comparators, debug halts, steps, and the state of stopped teams (R447 to R452, R472, R473, R494). -/

namespace Sys2Proof.Machine

/-! ## The mailbox (R451) -/

/-- What a mailbox command answers: its result and response bytes; none while a step runs. -/
abbrev MbEnd := Option (Nat × List Byte) × State

/-- A command ends: its response stands before done advances. Bytes past the response read as zero (DEDUCED, log 43). -/
def State.mbDone (s : State) (func result : Nat) (resp : List Byte) : State :=
  s.updFunc func (fun f => { f with mb := { done := f.mb.done + 1, busy := false, result := BitVec.ofNat 8 result }, stepping := none, mbResp := Tbl.setN [] 0 resp })

/-- A command is taken where the host reaches the device, it is ready and no command of this mailbox runs; a step that runs goes on by its own command. -/
def runMb (c : CmdBuf) (g : State → MbEnd) (s : State) : Out :=
  .next (
    if !s.hostOpen || !s.mod.ready || (s.func c.func).mb.busy || decide (64 < c.func) then s
    else if badHead c.w then s.mbDone c.func 2 []
    else match g s with
      | (some r, s) => s.mbDone c.func r.1 r.2
      | (none, s) => s.updFunc c.func (fun f => { f with mb := { f.mb with busy := true } }))

def mbFail (r : Nat) (s : State) : MbEnd := (some (r, []), s)

/-- The command's context is the attached one. -/
def State.mbMine (s : State) (c : CmdBuf) : Bool :=
  match s.mod.attached with
  | some a => decide (a.1 = c.func) && decide (a.2.1 = bufU c.w 2 1)
  | none => false

/-- The team of the command's context whose index bytes 16 to 19 name. -/
def State.mbTeam (s : State) (c : CmdBuf) (ok : Team → Bool) : Option Nat :=
  (s.teams.find? (fun p => decide (p.2.func = c.func) && decide (p.2.ctx = bufU c.w 2 1) && decide (p.2.index = bufU c.w 16 4) && ok p.2)).map Prod.fst

/-- Debug-halted: on its berth, on its way off it, or in its frame (R450). -/
def Team.isDebug (t : Team) : Bool :=
  match t.life with
  | .debugHalted => true
  | .halting => t.debugged && t.saveAs.isSome
  | .saved => t.debugged
  | _ => false

/-- The teams that read, write, resume and abort act on. -/
def Team.isStopped (t : Team) : Bool := t.isDebug || decide (t.life = .parkedUnhandled)

/-- The team stands in its frame. -/
def Team.inFrame (t : Team) : Bool :=
  match t.life with
  | .saved | .parkedFault | .parkedUnhandled => true
  | _ => false

/-- The reason its frame holds (R439). -/
def Team.frameReason (t : Team) : Nat :=
  match t.life with
  | .parkedFault => 1
  | .parkedUnhandled => 2
  | _ => if t.debugged then 3 else 0

/-! ## The state of a team in its frame -/

/-- A stopped team's state changes: of one in its frame, in the frame. -/
def State.onImage (s : State) (team : Nat) (g : State → State) : Option State :=
  if !(s.team team).inFrame then some (g s)
  else
    match s.loadImage team with
    | .error _ => none
    | .ok s1 =>
      let s2 := g s1
      let t := s2.team team
      let ps := s2.frameParts team t.frameReason
      match s2.writeParts t.func t.frame.toNat (ps.take (ps.length - 2)) with
      | (some _, _) => none
      | (none, s3) => some (s3.emptyTeam team)

/-- What a read of a stopped team sees. -/
def State.image (s : State) (team : Nat) : Option State :=
  if !(s.team team).inFrame then some s
  else
    match s.loadImage team with
    | .error _ => none
    | .ok s => some s

/-! ## attach, detach, point, halt -/

/-- MB_ATTACH: result 6 where another context is attached. -/
def execMbAttach (c : CmdBuf) (s : State) : Out :=
  runMb c (fun s =>
    if s.mod.attached.isSome && !s.mbMine c then mbFail 6 s
    else (some (0, []), (s.updMod (fun m => { m with attached := some (c.func, bufU c.w 2 1, bufU c.w 8 1) })).updFunc c.func (fun f => { f with mbEvt := 0 }))) s

/-- Every record is reset and every thread continues from its resume point, without a breakpoint at its first issue (R449, R452). -/
def State.clearStop (s : State) (team : Nat) : State :=
  (teamThreads team (s.team team)).foldl (fun s k => s.updThread k (fun th => { th with rcd := {}, trap := th.trap.map (fun tr => { tr with rcd := {} }), skipBp := true })) s

/-- A stopped team goes on: on its berth at once; one in its frame waits for its restore; one on its way there becomes a plain pre-emption. -/
def State.resumeTeam (s : State) (team : Nat) : Option State :=
  let t := s.team team
  match t.life with
  | .debugHalted => some ((s.clearStop team).goOn team)
  | .halting => some ((s.clearStop team).updTeam team (fun t => { t with debugged := false, saveAs := some 0 }))
  | _ =>
    match s.onImage team (fun s => (s.clearStop team).updTeam team (fun t => { t with life := .saved, debugged := false })) with
    | none => none
    | some s' => some (if t.life = .parkedUnhandled then s'.berthEvent team 2 else s')

/-- MB_DETACH: the comparators are cleared and every debug-halted team of the attached context resumes; the PF's acts on whichever is attached. Elsewhere it has no effect. `mb_evt`, which counts since attach, reads zero again (DEDUCED, log 43). -/
def execMbDetach (c : CmdBuf) (s : State) : Out :=
  runMb c (fun s =>
    match s.mod.attached with
    | none => (some (0, []), s)
    | some a =>
      if !s.mbMine c && decide (c.func ≠ 0) then (some (0, []), s)
      else
        let s := (s.updMod (fun m => { m with attached := none, bps := [], wps := [] })).updFunc a.1 (fun f => { f with mbEvt := 0 })
        let ts := (s.teams.filter (fun p => decide (p.2.func = a.1) && decide (p.2.ctx = a.2.1) && p.2.isDebug)).map Prod.fst
        (some (0, []), ts.foldl (fun s t => (s.resumeTeam t).getD s) s)) s

/-- MB_POINT_BREAKPOINT (R449, R473). -/
def execMbPointBreakpoint (c : CmdBuf) (s : State) : Out :=
  runMb c (fun s =>
    let i := bufU c.w 9 1
    let en := decide (bufU c.w 10 1 % 2 = 1)
    let a := bufU c.w 16 10
    if !s.mbMine c then mbFail 4 s
    else if bufU c.w 26 6 ≠ 0 then mbFail 2 s
    else if 3 < i ∨ (en = true ∧ a % 8 ≠ 0) then mbFail 5 s
    else (some (0, []), s.updMod (fun m => { m with bps := Assoc.put m.bps i { en := en, addr := BitVec.ofNat 80 a } }))) s

/-- MB_POINT_WATCHPOINT (R449, R452). -/
def execMbPointWatchpoint (c : CmdBuf) (s : State) : Out :=
  runMb c (fun s =>
    let i := bufU c.w 9 1
    let en := decide (bufU c.w 10 1 % 2 = 1)
    let off := bufU c.w 16 4
    let len := bufU c.w 20 4
    let on := bufU c.w 24 1
    if !s.mbMine c then mbFail 4 s
    else if 3 < i ∨ (en = true ∧ (off % 4 ≠ 0 ∨ len % 4 ≠ 0 ∨ len < 4 ∨ 65536 < len)) then mbFail 5 s
    else (some (0, []), s.updMod (fun m => { m with wps := Assoc.put m.wps i { en := en, off := off, len := len, onRead := fbit on 0, onWrite := fbit on 1, team := BitVec.ofNat 32 (bufU c.w 28 4) } }))) s

/-- A team on its berth that the mailbox may halt: it runs, or a halt of it is not yet decided. -/
def Team.canHalt (t : Team) : Bool :=
  match t.life with
  | .resident | .draining _ => true
  | .halting => t.saveAs.isNone
  | _ => false

/-- MB_HALT (R433, R452). -/
def execMbHalt (c : CmdBuf) (s : State) : Out :=
  runMb c (fun s =>
    if !s.mbMine c then mbFail 4 s
    else match s.mbTeam c Team.canHalt with
      | none => mbFail 4 s
      | some id => (some (0, []), s.updTeam id (fun t => { t with debugCall := 2, haltAt := if t.life = .halting then t.haltAt else s.clock, life := .halting }))) s

/-! ## step (R450, R472) -/

/-- Records of classes 13 and 15 are reset; every thread may issue past a breakpoint. -/
def State.stepRecords (s : State) (w : Nat) : State :=
  (warpThreads w).foldl (fun s k => s.updThread k (fun th =>
    let old := fun (r : FaultRec) => if causeClass r.cause = 13 ∨ causeClass r.cause = 15 then {} else r
    { th with rcd := old th.rcd, trap := th.trap.map (fun tr => { tr with rcd := old tr.rcd }), skipBp := true })) s

/-- The threads whose records are empty. -/
def State.emptySeats (s : State) (w : Nat) : W32 :=
  maskOf (((warpThreads w).filter (fun k => decide ((s.thread k).st ≠ .exited) && decide ((s.thread k).rcd.cause = 0x3C0))).map seatOf)

/-- The warps that a step names, in ascending order. -/
def stepWarps (t : Team) (mask : Nat) : List Nat := (List.range t.warps).filter (fun w => fbit mask w)

/-- A step begins: each named warp is given one issue opportunity, and its turn comes next. -/
def State.startStep (s : State) (c : CmdBuf) (id : Nat) : State :=
  let ws := stepWarps (s.team id) (bufU c.w 20 4)
  let s := ws.foldl (fun s w => (s.stepRecords (wkey id w)).updWarp (wkey id w) (fun x => { x with step := true, stepDone := 0 })) s
  let s := s.updFunc c.func (fun f => { f with stepping := some (id, ws.map (fun w => (w, s.emptySeats (wkey id w)))) })
  { s with sched := ws.map (fun w => Activity.turn id w) ++ [.occur (.mbStep c)] ++ s.sched }

/-- A named warp has not had its opportunity. -/
def State.stepOpen (s : State) (id : Nat) (ws : List (Nat × W32)) : Bool :=
  decide ((s.team id).life = .debugHalted) && ws.any (fun p => (s.warp (wkey id p.1)).step)

/-- Every result outstanding to a warp arrives, but for those that a save of a ray still owes. The fuel is the number outstanding. -/
def State.arriveAll (k : Nat) : Nat → State → State
  | 0, s => s
  | n + 1, s =>
    match (s.thread k).out.findIdx? (fun p => decide (p.held = 0)) with
    | none => s
    | some i => State.arriveAll k n (s.arrive k i)
def State.arriveAllW (w : Nat) : Nat → State → State
  | 0, s => s
  | n + 1, s =>
    match (s.warp w).out.findIdx? (fun p => decide (p.held = 0)) with
    | none => s
    | some i => State.arriveAllW w n (s.arriveW w i)
def State.arriveWarp (s : State) (w : Nat) : State :=
  let s := (warpThreads w).foldl (fun s k => State.arriveAll k (s.thread k).out.length s) s
  (State.arriveAllW w (s.warp w).out.length s).settleSwitch w

/-- After the issue: the threads with empty records record 0x3C2. -/
def State.stepStop (s : State) (w : Nat) : State :=
  let t := s.team (w / 32)
  (warpThreads w).foldl (fun s k =>
    let th := s.thread k
    if th.st ≠ .exited ∧ th.rcd.cause = 0x3C0 then s.setThread k { th with rcd := { pc := th.pc, cause := 0x3C2, fx := th.fx, tcount := t.tcount } } else s) s

/-- The masks of one stepped warp: the threads that performed, and those that recorded a cause of a class other than none. -/
def State.stepMasks (s : State) (w : Nat) (can : W32) : List Byte :=
  leBytes 4 (s.warp w).stepDone.toNat ++ leBytes 4 (maskOf ((seats can).filter (fun x => decide (causeClass (s.thread (w * 32 + x)).rcd.cause < 15)))).toNat

/-- A step ends: the results of the stepped instructions have arrived. -/
def State.endStep (s : State) (func id : Nat) (ws : List (Nat × W32)) : State :=
  let s := ws.foldl (fun s p => s.arriveWarp (wkey id p.1)) s
  let masks := (ws.map (fun p => s.stepMasks (wkey id p.1) p.2)).flatten
  (ws.foldl (fun s p => s.stepStop (wkey id p.1)) s).mbDone func 0 masks

/-- MB_STEP: the command, and its end once every named warp has had its opportunity. -/
def execMbStep (c : CmdBuf) (s : State) : Out :=
  match (s.func c.func).stepping with
  | some x => .next (if s.stepOpen x.1 x.2 then s else s.endStep c.func x.1 x.2)
  | none =>
    runMb c (fun s =>
      if !s.mbMine c then mbFail 4 s
      else match s.mbTeam c (fun t => decide (t.life = .debugHalted)) with
        | none => mbFail 4 s
        | some id => (none, s.startStep c id)) s

/-! ## resume, abort, list -/

/-- MB_RESUME. -/
def execMbResume (c : CmdBuf) (s : State) : Out :=
  runMb c (fun s =>
    match s.mbTeam c Team.isStopped with
    | none => mbFail 4 s
    | some id =>
      match s.resumeTeam id with
      | none => mbFail 4 s
      | some s => (some (0, []), s)) s

/-- MB_ABORT (R438). -/
def execMbAbort (c : CmdBuf) (s : State) : Out :=
  runMb c (fun s =>
    match s.mbTeam c Team.isStopped with
    | none => mbFail 4 s
    | some id => (some (0, []), s.abortTeam id 2)) s

/-- MB_LIST: the indices of the context's stopped teams. -/
def execMbList (c : CmdBuf) (s : State) : Out :=
  runMb c (fun s =>
    let ts := s.teams.filter (fun p => decide (p.2.func = c.func) && decide (p.2.ctx = bufU c.w 2 1) && p.2.isStopped)
    (some (0, (ts.take 960).flatMap (fun p => leBytes 4 p.2.index)), s)) s

/-! ## read and write (R494) -/

/-- What a read or write names: what, the warp, bytes 24 to 27 and 28 to 31. -/
def mbWhat (c : CmdBuf) : Nat := bufU c.w 20 1
def mbWarp (c : CmdBuf) : Nat := bufU c.w 21 1
def mbFirst (c : CmdBuf) : Nat := bufU c.w 24 4
def mbLen (c : CmdBuf) : Nat := bufU c.w 28 4

/-- The result of a read's checks on a team. -/
def mbReadCode (c : CmdBuf) (t : Team) (budget : Nat) : Nat :=
  let a := mbFirst c
  let n := mbLen c
  match mbWhat c with
  | 0 => if mbWarp c ≠ 0 ∨ a ≠ 0 ∨ n ≠ 0 then 2 else 0
  | 1 => if 512 ≤ a then 2 else if t.warps ≤ mbWarp c ∨ n = 0 ∨ 30 < n ∨ budget < a + n then 5 else 0
  | 2 | 5 => if a ≠ 0 ∨ n ≠ 0 then 2 else if t.warps ≤ mbWarp c then 5 else 0
  | 3 => if t.warps ≤ mbWarp c ∨ 31 < a ∨ n = 0 ∨ 32 - a < n then 5 else 0
  | 4 => if mbWarp c ≠ 0 then 2 else if a % 4 ≠ 0 ∨ n % 4 ≠ 0 ∨ n < 4 ∨ 3840 < n ∨ t.spadSize < a + n then 5 else 0
  | _ => 5

/-- The seats of a warp whose threads meet a test. -/
def State.seatMask (s : State) (w : Nat) (f : Thread → Bool) : Nat := (maskOf (((warpThreads w).filter (fun k => f (s.thread k))).map seatOf)).toNat

/-- what 0: the masks, the skid, the resume points. -/
def State.mbMasks (s : State) (w : Nat) : List Byte :=
  let m := fun (f : Thread → Bool) => leBytes 4 (s.seatMask w f)
  m (fun th => decide (th.st = .ready ∨ th.st = .switchParked)) ++ m (fun th => decide (th.st = .parked)) ++ m (fun th => decide (th.st = .reconverging)) ++ m (fun th => decide (th.st = .exited))
  ++ m (fun th => decide (causeClass th.shown.cause < 15)) ++ leBytes 4 (Nat.min (s.warp w).skid 31) ++ leBytes 8 0 ++ (warpThreads w).flatMap (fun k => leBytes 8 (s.thread k).pc.toNat)

/-- what 5: the control registers of a warp. -/
def State.mbControl (s : State) (team w : Nat) : List Byte :=
  let t := s.team team
  let reg := fun (k n : Nat) => leBytes 4 (s.csr k n).toNat
  let one := w * 32
  (warpThreads w).flatMap (fun k => reg k 0) ++ reg one 1 ++ leBytes 4 (t.world % 16) ++ reg one 3 ++ reg one 0x10
  ++ (List.range 8).flatMap (fun i => reg one (0x20 + i)) ++ List.replicate 0x50 0
  ++ (warpThreads w).flatMap (fun k => (if t.handler then (List.range 10).flatMap (fun j => reg k (0x100 + j)) else List.replicate 40 0) ++ List.replicate 24 0)

/-- The response of a read. -/
def State.mbBytes (s : State) (c : CmdBuf) (team : Nat) : List Byte :=
  let w := wkey team (mbWarp c)
  match mbWhat c with
  | 0 => s.mbMasks w
  | 1 => (List.range (mbLen c)).flatMap (fun i => s.vectorRow w (mbFirst c + i))
  | 2 => (List.range 64).flatMap (fun i => leBytes 4 (Tbl.get (s.warp w).w i).toNat) ++ (List.range 7).flatMap (fun i => leBytes 4 (s.seatMask w (fun th => th.p.getLsbD i)))
  | 3 => (List.range (mbLen c)).flatMap (fun i => (s.thread (w * 32 + mbFirst c + i)).shown.bytes)
  | 4 => s.spadLoad team (mbFirst c) (mbLen c)
  | _ => s.mbControl team w

/-- MB_READ. -/
def execMbRead (c : CmdBuf) (s : State) : Out :=
  runMb c (fun s =>
    match s.mbTeam c Team.isStopped with
    | none => mbFail 4 s
    | some id =>
      let r := mbReadCode c (s.team id) (s.warp (wkey id (mbWarp c))).budget
      if r ≠ 0 then mbFail r s
      else match s.image id with
        | none => mbFail 4 s
        | some x => (some (0, x.mbBytes c id), s)) s

/-- The result of a write's checks. -/
def mbWriteCode (c : CmdBuf) (t : Team) (budget : Nat) : Nat :=
  let a := mbFirst c
  let n := mbLen c
  match mbWhat c with
  | 1 => if fld a 9 7 ≠ 0 ∨ 2 ^ 21 ≤ a then 2 else if t.warps ≤ mbWarp c ∨ budget ≤ fld a 0 9 ∨ n = 0 ∨ 8 < n ∨ 32 < fld a 16 5 + n then 5 else 0
  | 2 =>
    if fbit a 8 then (if fld a 3 5 ≠ 0 ∨ 512 ≤ a then 2 else if t.warps ≤ mbWarp c ∨ fld a 0 3 = 7 ∨ n ≠ 1 then 5 else 0)
    else if 64 ≤ a then 2 else if t.warps ≤ mbWarp c ∨ n = 0 ∨ 8 < n ∨ 64 < a + n then 5 else 0
  | 4 => if mbWarp c ≠ 0 then 2 else if a % 4 ≠ 0 ∨ n % 4 ≠ 0 ∨ n < 4 ∨ 32 < n ∨ t.spadSize < a + n then 5 else 0
  | _ => 5

/-- Word i of a write's data. -/
def mbData (c : CmdBuf) (i : Nat) : W32 := BitVec.ofNat 32 (bufU c.w (32 + 4 * i) 4)

/-- The write itself. -/
def State.mbPut (s : State) (c : CmdBuf) (team : Nat) : State :=
  let w := wkey team (mbWarp c)
  let a := mbFirst c
  let n := mbLen c
  match mbWhat c with
  | 1 => (List.range n).foldl (fun s i => s.writeReg (w * 32 + fld a 16 5 + i) (false, fld a 0 9) (mbData c i)) s
  | 2 =>
    if fbit a 8 then (warpThreads w).foldl (fun s k => s.updThread k (fun th => th.setPred (Fin.ofNat 8 (fld a 0 3)) ((mbData c 0).getLsbD (seatOf k)))) s
    else (List.range n).foldl (fun s i => s.writeReg (w * 32) (true, a + i) (mbData c i)) s
  | _ => s.spadPut team a (leBytes n (bufU c.w 32 n))

/-- MB_WRITE. -/
def execMbWrite (c : CmdBuf) (s : State) : Out :=
  runMb c (fun s =>
    match s.mbTeam c Team.isStopped with
    | none => mbFail 4 s
    | some id =>
      let r := mbWriteCode c (s.team id) (s.warp (wkey id (mbWarp c))).budget
      if r ≠ 0 then mbFail r s
      else match s.onImage id (fun s => s.mbPut c id) with
        | none => mbFail 4 s
        | some s => (some (0, []), s)) s

end Sys2Proof.Machine
end

