-- ==== Sys2Proof/Machine/Host.lean ====
section
/-! DEFINITION. The host's accesses: the register window with its sizes, the commands a 64-byte write names, BAR2, and CXL.mem (R13, R15 to R20, R280, R357, R361, R372, R392, R451). -/

namespace Sys2Proof.Machine

/-- Replace bytes of a 64-bit register: a 4-byte write leaves the other half. -/
def mergeReg (old : W64) (byte size : Nat) (v : W64) : W64 :=
  if size = 8 then v else if byte = 0 then pair64 (lo32 v) (hi32 old) else pair64 (lo32 old) (lo32 v)

/-- The window-access-error record of BAR0 (R18). -/
def State.windowError (s : State) (func offset : Nat) : State := s.postEvent func 0 { kind := 3, faddr := BitVec.ofNat 64 offset }

/-! ## Register writes (R18) -/

/-- A write to the queue ports that is no whole record (R357). -/
def State.portPartial (s : State) (func offset : Nat) : State :=
  if !s.mod.ready then s
  else match s.hwQueue func (offset / 64) with
    | none => s.rejectRecord func none 1
    | some q => if (s.queue q).bound && decide ((s.queue q).func ≠ func) then s.rejectRecord func none 1 else s.rejectRecord func (some q) 1

/-- A write to a command buffer that is no whole command (R361, R451): result 1, done unchanged. -/
def CmdStat.cut (c : CmdStat) : CmdStat := if c.busy then c else { c with result := 1 }

/-- A write to an event-ring or fault-ring register. -/
def State.ringReg (s : State) (func off size : Nat) (isFault : Bool) (v : W64) : State :=
  let i := off / 32
  let r := s.ringOf func i isFault
  match off % 32 / 8 with
  | 0 => s.updAnyRing func i isFault (fun r => r.writeBase (mergeReg r.base (off % 8) size v))
  | 1 => s.ringCtl func i isFault (mergeReg r.ctl (off % 8) size v)
  | 3 => if off % 8 = 0 then s.ringTail func i isFault v else s
  | _ => s

/-- A write to an ingress slot's register (R280). -/
def State.ingReg (s : State) (func off size : Nat) (v : W64) : State :=
  let i := off / 32
  match off % 32 / 8 with
  | 0 => s.updIngress func i (fun w => w.writeBar (mergeReg w.bar (off % 8) size v))
  | 1 => if off % 8 = 0 then s.updIngress func i (fun w => if w.en then w else { w with size := v.toNat % 65536 }) else s
  | 2 => if off % 8 = 0 then s.updIngress func i (fun w => if w.en then w else { w with queue := v.toNat % 4096 }) else s
  | _ => s

/-- A write of 4 or 8 aligned bytes outside the ports and buffers; read-only and Reserved offsets discard it. -/
def State.plainReg (s : State) (func offset size : Nat) (v : W64) : State :=
  if 0x40000 ≤ offset ∧ offset < 0x40800 then s.ringReg func (offset - 0x40000) size false v
  else if 0x40800 ≤ offset ∧ offset < 0x41000 then s.ringReg func (offset - 0x40800) size true v
  else if 0x51000 ≤ offset ∧ offset < 0x51800 then s.ingReg func (offset - 0x51000) size v
  else s

def sizeOk (offset size : Nat) : Bool := (decide (size = 4) || decide (size = 8)) && decide (offset % size = 0)

/-- A whole aligned 64-byte write to a port or buffer, which has a row of its own. -/
def ownRow (offset size : Nat) : Bool := decide (size = 64) && decide (offset % 64 = 0) && (decide (offset < 0x40000) || decide (offset = 0x50000) || decide (offset = 0x52000))

/-- A write to the register window that has no row of its own. -/
def State.regWrite (s : State) (func offset size : Nat) (v : W64) : State :=
  if ownRow offset size || decide (0x100000 ≤ offset) then s
  else if offset < 0x40000 then s.portPartial func offset
  else if 0x50000 ≤ offset ∧ offset < 0x50040 then (if s.mod.ready then s.updFunc func (fun f => { f with mb := f.mb.cut }) else s)
  else if 0x52000 ≤ offset ∧ offset < 0x52040 then (if s.mod.ready then s.updFunc func (fun f => { f with cmd := f.cmd.cut }) else s)
  else if sizeOk offset size then s.plainReg func offset size v
  else s.windowError func offset

/-- REGISTER_WRITE (R18). -/
def execRegisterWrite (func offset size : Nat) (value : W64) (s : State) : Out :=
  .next (if s.hostOpen && decide (func ≤ 64) then s.regWrite func offset size value else s)

/-! ## Register reads (R18 to R20, R280, R357, R361, R372, R451) -/

def CmdStat.reg (c : CmdStat) : Nat := c.done.toNat * 2 ^ 32 + b2n c.busy * 256 + c.result.toNat

/-- `md_status`. -/
def State.statusReg (s : State) (func : Nat) : Nat :=
  b2n s.mod.ready + s.mod.gen % 16 * 2 ^ 4 + s.mod.width % 32 * 2 ^ 8 + s.mod.protocol % 8 * 2 ^ 13 + b2n s.mod.governed * 2 ^ 16 + (if func = 0 then s.mod.power % 4096 * 2 ^ 20 else 0)

def Ring.reg (r : Ring) (i : Nat) : Nat :=
  match i with
  | 0 => r.base.toNat
  | 1 => r.ctl.toNat
  | 2 => r.head.toNat
  | _ => r.tail.toNat

def Ingress.reg (w : Ingress) (i : Nat) : Nat :=
  match i with
  | 0 => w.bar.toNat
  | 1 => w.size
  | 2 => w.queue
  | _ => w.drops * 2 ^ 32 + w.reason * 16 + b2n w.armed

/-- A 64-bit register of the window by its offset; Reserved ones read as zero. -/
def State.regAt (s : State) (func offset : Nat) : Nat :=
  let f := s.func func
  if 0x40000 ≤ offset ∧ offset < 0x40800 then (s.ringOf func ((offset - 0x40000) / 32) false).reg (offset % 32 / 8)
  else if 0x40800 ≤ offset ∧ offset < 0x41000 then (s.ringOf func ((offset - 0x40800) / 32) true).reg (offset % 32 / 8)
  else if offset = 0x50040 then (if s.mod.ready then f.mb.reg else 0)
  else if offset = 0x50048 then f.mbEvt.toNat
  else if 0x50100 ≤ offset ∧ offset < 0x51000 then ofBytesNat (Tbl.getN f.mbResp (offset - 0x50100) 8)
  else if 0x51000 ≤ offset ∧ offset < 0x51800 then (s.ingress func ((offset - 0x51000) / 32)).reg (offset % 32 / 8)
  else if offset = 0x52040 then (if s.mod.ready then f.cmd.reg else 0)
  else if offset = 0x53000 then (identWord func).toNat
  else if offset = 0x53008 then s.statusReg func
  else 0

/-- The number the next accepted record of a slot receives: 1 where no queue is bound to it. -/
def State.nextNumber (s : State) (func slot : Nat) : Nat :=
  match s.hwQueue func slot with
  | none => 1
  | some q => if (s.queue q).func = func then (s.queue q).nextSeq else 1

/-- What a read answers, as a number; none where the manual gives the bytes no value (a command buffer). -/
def State.regRead (s : State) (func offset size : Nat) : Option Nat :=
  let ones := 2 ^ (8 * size) - 1
  if offset < 0x40000 then some (if size = 8 ∧ offset % 64 = 0 then s.nextNumber func (offset / 64) else ones)
  else if (0x50000 ≤ offset ∧ offset < 0x50040) ∨ (0x52000 ≤ offset ∧ offset < 0x52040) then none
  else if sizeOk offset size then some (s.regAt func (offset / 8 * 8) / 2 ^ (8 * (offset % 8)) % 2 ^ (8 * size))
  else some ones

/-- A host read of the register window: its answer, and the error record of a wrong size (R18). -/
def State.hostRead (s : State) (func offset size : Nat) : State :=
  if !s.mod.linkUp || decide (64 < func) || decide (0x100000 ≤ offset) then s
  else
    let v := (s.regRead func offset size).getD (Config.freeNat (2 * s.fresh))
    let outside := decide (0x40000 ≤ offset) && decide (offset / 64 ≠ 0x50000 / 64) && decide (offset / 64 ≠ 0x52000 / 64)
    let s := { s with fresh := s.fresh + 1 }.updMod (fun m => { m with reads := leBytes size v :: m.reads })
    if outside && !sizeOk offset size then s.windowError func offset else s

/-! ## 64-byte writes -/

/-- The rows that share an opcode, told apart by a byte of the payload. -/
def cmdOp (c : CmdBuf) (rows : List Instr) (byte : Nat) : Option Instr := rows[bufU c.w byte 1]?

/-- The command that a command-buffer write names (R361, R387, R398 to R423, R465). -/
def cmdOf (c : CmdBuf) : Option Instr :=
  match bufU c.w 0 1 with
  | 0x01 => some (.cmdContext c)
  | 0x02 => cmdOp c [.cmdLogNone c, .cmdLogRecord c, .cmdLogReplay c] 18
  | 0x03 => some (if bufU c.w 11 1 % 2 = 1 then .cmdQueueEnable c else .cmdQueueDisable c)
  | 0x04 => some (.cmdBerth c)
  | 0x05 => some (.cmdQuota c)
  | 0x06 => some (.cmdGrant c)
  | 0x07 => some (.cmdQuantum c)
  | 0x08 => some (.cmdPower c)
  | 0x09 => some (.cmdSwitch c)
  | 0x10 => some (.cmdRoot1 c)
  | 0x11 => some (.cmdInval1 c)
  | 0x12 => cmdOp c [.cmdResumeRetry c, .cmdResumeAbort c] 16
  | 0x13 => some (.cmdRoot2 c)
  | 0x14 => some (.cmdInval2 c)
  | 0x15 => cmdOp c [.cmdKeyCreate c, .cmdKeyDestroy c, .cmdKeySetPrivate c] 8
  | 0x16 => cmdOp c [.cmdDomainPlace c, .cmdDomainHashShare c] 8
  | 0x17 => some (.cmdMergeList c)
  | 0x18 => some (.cmdUnref c)
  | 0x19 => some (.cmdFork c)
  | 0x1A => cmdOp c [.cmdWorldMask c, .cmdWorldWays c] 8
  | 0x1B => cmdOp c [.cmdGroupCreate c, .cmdGroupAdmit c, .cmdGroupRemove c, .cmdGroupQuery c, .cmdGroupDissolve c] 8
  | 0x1C => cmdOp c [.cmdPoolDonate c, .cmdPoolSweepShare c, .cmdPoolZeroNow c] 8
  | 0x1D => some (.cmdMove c)
  | 0x1E => some (.cmdReport c)
  | 0x1F => some (.cmdExtend c)
  | _ => none

/-- The mailbox command that a write names (R452). -/
def mbOf (c : CmdBuf) : Option Instr :=
  match bufU c.w 0 1 with
  | 0x01 => some (.mbAttach c)
  | 0x02 => some (.mbDetach c)
  | 0x03 => cmdOp c [.mbPointBreakpoint c, .mbPointWatchpoint c] 8
  | 0x04 => some (.mbHalt c)
  | 0x05 => some (.mbStep c)
  | 0x06 => some (.mbResume c)
  | 0x07 => some (.mbAbort c)
  | 0x08 => some (.mbRead c)
  | 0x09 => some (.mbWrite c)
  | 0x0A => some (.mbList c)
  | _ => none

/-- A 64-byte host write to the register window: the row that performs it; a write with none is performed here. -/
def State.openWrite (s : State) (func offset : Nat) (data : BitVec 512) : Option Instr × State :=
  if !s.hostOpen || decide (64 < func) then (none, s)
  else if !ownRow offset 64 then (none, s.regWrite func offset 64 0)
  else if offset < 0x40000 then (some (.launchRecordWrite func (offset / 64) data), s)
  else
    let c : CmdBuf := { func := func, w := data }
    let st := if offset = 0x52000 then (s.func func).cmd else (s.func func).mb
    if !s.mod.ready || st.busy then (none, s)
    else if offset = 0x52000 then
      match cmdOf c with
      | some i => (some i, s)
      | none => (none, s.cmdDone func 2)
    else
      match mbOf c with
      | some i => (some i, s)
      | none => (none, s.mbDone func 2 [])

/-! ## BAR2 outside the ingress windows (R15) -/

/-- The BAR2 bytes of a function, from 1 GiB to 512 GiB. -/
def bar2Size (func : Nat) : Nat := 2 ^ (30 + Config.bar2Log func % 10)

/-- The access reaches no page that BAR2 does not serve: each piece translates and none is sealed. -/
def State.bar2Serves (s : State) (func offset n : Nat) (write : Bool) : Bool :=
  (piecesOf offset n).all (fun p => match s.walk2 func p.1 (!write) write false with
    | .ok fr => !fr.sealed
    | .error _ => false)

/-- A refused access: at most one record per page and millisecond. -/
def State.bar2Refuse (s : State) (func offset : Nat) : State :=
  let page := offset / 65536
  let due := match Assoc.find (s.func func).waLast page with
    | some t => decide (t + 2200000 ≤ s.clock)
    | none => true
  if due then (s.updFunc func (fun f => { f with waLast := Assoc.put f.waLast page s.clock })).windowError func offset else s

/-- The L2 slices see a host access: with no world. -/
def State.touchHost (s : State) (func gpa n : Nat) (write : Bool) : State :=
  (piecesOf gpa n).foldl (fun s p => match s.walk2 func p.1 (!write) write false with
    | .ok fr => s.l2Access (fr.pa / 128) { ctx := ckey func 0, vline := p.1 / 128, key := fr.key, write := write }
    | .error _ => s) s

/-- The function reaches BAR2, and the link routes the access. -/
def State.bar2Open (s : State) (func offset n : Nat) : Bool := s.hostOpen && decide (func ≤ 64) && decide (offset + n ≤ bar2Size func)

/-- A write is performed whole, or refused whole. -/
def State.bar2Put (s : State) (func offset : Nat) (data : List Byte) : State :=
  if !s.bar2Serves func offset data.length true then s.bar2Refuse func offset
  else
    match s.physWrite func offset data with
    | (some _, _) => s.bar2Refuse func offset
    | (none, s) => s.touchHost func offset data.length true

/-- BAR2_WRITE (R15). -/
def execBar2Write (func offset : Nat) (data : List Byte) (s : State) : Out :=
  .next (if s.bar2Open func offset data.length && (s.windowAt func offset).isNone then s.bar2Put func offset data else s)

/-- An answer to a host read. -/
def State.answer (s : State) (bs : List Byte) : State := s.updMod (fun m => { m with reads := bs :: m.reads })

/-- BAR2_READ (R15): a refused read returns all ones. -/
def execBar2Read (func offset count : Nat) (s : State) : Out :=
  .next (
    if !s.bar2Open func offset count then s
    else if !s.bar2Serves func offset count false then (s.bar2Refuse func offset).answer (List.replicate count 0xFF)
    else
      match s.physRead func offset count with
      | .error _ => (s.bar2Refuse func offset).answer (List.replicate count 0xFF)
      | .ok bs => (s.touchHost func offset count false).answer bs)

/-! ## CXL.mem (R9, R13) -/

/-- Every byte lies in a window of host-managed memory, none in secure memory. -/
def State.hostManaged (s : State) (pa n : Nat) : Bool :=
  (List.range n).all (fun i => s.mod.cxlWindows.any (fun w => decide (w.1 ≤ pa + i ∧ pa + i < w.1 + w.2)) && isLpddr (pa + i) && !isSecure (pa + i))

/-- CXL_MEM_ACCESS: a read or write of host-managed device memory, under key id 0. A PCIe link offers none, and an access that no window holds does not reach the module. -/
def execCxlMemAccess (write : Bool) (pa : Nat) (data : List Byte) (s : State) : Out :=
  .next (if !s.hostOpen || decide (s.mod.protocol < 2) || !s.hostManaged pa data.length then s
    else if write then s.writeBytes 0 pa data
    else s.answer (s.bytesAt 0 pa data.length))

end Sys2Proof.Machine
end

