-- ==== Sys2Proof/Machine/Integer.lean ====
section
/-! DEFINITION. The integer, logic, predicate and address instructions, their immediate and double-word forms (R100 to R119). -/

namespace Sys2Proof.Machine

/-! ## Shapes of operand use -/

/-- One source of the instruction's type. -/
def un (i : Instr) (o : ROp) (g : Nat → Nat) : Plan Unit :=
  regPlan i 1 (fun s k => { k := k, dst := dstTy o.ty o.d (g (s.rdTy k o.ty o.a)) })

/-- Two sources of the instruction's type. -/
def bin (i : Instr) (o : ROp) (g : Nat → Nat → Nat) : Plan Unit :=
  regPlan i 1 (fun s k => { k := k, dst := dstTy o.ty o.d (g (s.rdTy k o.ty o.a) (s.rdTy k o.ty o.b)) })

/-- Three sources of the instruction's type. -/
def tri (i : Instr) (o : ROp) (g : Nat → Nat → Nat → Nat) : Plan Unit :=
  regPlan i 1 (fun s k => { k := k, dst := dstTy o.ty o.d (g (s.rdTy k o.ty o.a) (s.rdTy k o.ty o.b) (s.rdTy k o.ty o.c)) })

/-- A source of the type and a 32-bit amount. -/
def shiftOp (i : Instr) (o : ROp) (g : Nat → Nat → Nat) : Plan Unit :=
  regPlan i 1 (fun s k => { k := k, dst := dstTy o.ty o.d (g (s.rdTy k o.ty o.a) (s.rd k o.b).toNat) })

/-- A source of the type and a 32-bit result. -/
def countOp (i : Instr) (o : ROp) (g : Nat → Nat) : Plan Unit :=
  regPlan i 1 (fun s k => { k := k, dst := dstOne o.d (BitVec.ofNat 32 (g (s.rdTy k o.ty o.a))) })

/-- Three 32-bit sources and a pair result. -/
def wideOp (i : Instr) (o : ROp) (g : Nat → Nat → Nat → Nat × Nat) : Plan Unit :=
  regPlan i 1 (fun s k =>
    let r := g (s.rd k o.a).toNat (s.rd k o.b).toNat (s.rd k o.c).toNat
    { k := k, dst := dstGroup o.d [BitVec.ofNat 32 r.1, BitVec.ofNat 32 r.2] })

/-- A 32-bit source and an immediate (R118). -/
def immOp (i : Instr) (o : IOp) (g : Nat → Nat → Nat) : Plan Unit :=
  regPlan i 1 (fun s k => { k := k, dst := dstOne o.d (BitVec.ofNat 32 (g (s.rd k o.a).toNat o.imm.toNat)) })

/-- A pair source and a 64-bit immediate (R119). -/
def dwordOp (i : Instr) (o : WOp) (g : W64 → W64 → W64) : Plan Unit :=
  regPlan i 2 (fun s k => { k := k, dst := dstPair o.d (g (s.rd64 k o.a) o.imm) })

/-! ## Double-word forms -/

def execMov64 (o : WOp) (s : State) : Out := perform (dwordOp (.mov64 o) o (fun _ m => m)) s
def execAddW (o : WOp) (s : State) : Out := perform (dwordOp (.addW o) o (fun a m => a + m)) s
def execAndW (o : WOp) (s : State) : Out := perform (dwordOp (.andW o) o (fun a m => a &&& m)) s
def execOrW (o : WOp) (s : State) : Out := perform (dwordOp (.orW o) o (fun a m => a ||| m)) s
def execXorW (o : WOp) (s : State) : Out := perform (dwordOp (.xorW o) o (fun a m => a ^^^ m)) s

/-! ## Arithmetic (R106 to R108) -/

def execAdd (o : ROp) (s : State) : Out := perform (bin (.add o) o (aluAdd o.ty)) s
def execSub (o : ROp) (s : State) : Out := perform (bin (.sub o) o (aluSub o.ty)) s
def execNeg (o : ROp) (s : State) : Out := perform (un (.neg o) o (aluNeg o.ty)) s
def execAddc (o : ROp) (s : State) : Out := perform (wideOp (.addc o) o aluAddc) s
def execSubb (o : ROp) (s : State) : Out := perform (wideOp (.subb o) o aluSubb) s
def execAbs (o : ROp) (s : State) : Out := perform (un (.abs o) o (aluAbs o.ty)) s
def execMin (o : ROp) (s : State) : Out := perform (bin (.min o) o (aluMin o.ty)) s
def execMax (o : ROp) (s : State) : Out := perform (bin (.max o) o (aluMax o.ty)) s
def execSad (o : ROp) (s : State) : Out := perform (tri (.sad o) o (aluSad o.ty)) s
def execMul (o : ROp) (s : State) : Out := perform (bin (.mul o) o (aluMul o.ty)) s
def execMulh (o : ROp) (s : State) : Out := perform (bin (.mulh o) o (aluMulh o.ty)) s
def execMad (o : ROp) (s : State) : Out := perform (tri (.mad o) o (aluMad o.ty)) s
def execMadw (o : ROp) (s : State) : Out :=
  perform (regPlan (.madw o) 1 (fun s k => { k := k, dst := dstPair o.d (BitVec.ofNat 64 (aluMadw o.ty (s.rd k o.a).toNat (s.rd k o.b).toNat (s.rd64 k o.c).toNat)) })) s
def execDot4 (o : ROp) (s : State) : Out :=
  perform (regPlan (.dot4 o) 1 (fun s k => { k := k, dst := dstOne o.d (BitVec.ofNat 32 (aluDot4 o.ty (s.rd k o.a).toNat (s.rd k o.b).toNat (s.rd k o.c).toNat)) })) s
def execDiv (o : ROp) (s : State) : Out := perform (bin (.div o) o (aluDiv o.ty)) s
def execRem (o : ROp) (s : State) : Out := perform (bin (.rem o) o (aluRem o.ty)) s

/-! ## Logic and bit fields (R109 to R112) -/

def execAnd (o : ROp) (s : State) : Out := perform (bin (.and o) o (fun a b => a &&& b)) s
def execOr (o : ROp) (s : State) : Out := perform (bin (.or o) o (fun a b => a ||| b)) s
def execXor (o : ROp) (s : State) : Out := perform (bin (.xor o) o (fun a b => a ^^^ b)) s
def execBitf (tab : Byte) (o : ROp) (s : State) : Out :=
  perform (regPlan (.bitf tab o) 1 (fun s k => { k := k, dst := dstOne o.d (aluBitf tab (s.rd k o.a) (s.rd k o.b) (s.rd k o.c)) })) s
def execShl (o : ROp) (s : State) : Out := perform (shiftOp (.shl o) o (aluShl o.ty)) s
def execShr (o : ROp) (s : State) : Out := perform (shiftOp (.shr o) o (aluShr o.ty)) s
def execSar (o : ROp) (s : State) : Out := perform (shiftOp (.sar o) o (aluSar o.ty)) s
def execShf (o : ROp) (s : State) : Out := perform (tri (.shf o) o aluShf) s
def execBfe (o : ROp) (s : State) : Out := perform (tri (.bfe o) o (aluBfe o.ty)) s
def execBfi (o : ROp) (s : State) : Out :=
  perform (regPlan (.bfi o) 1 (fun s k => { k := k, dst := dstOne o.d (aluBfi (s.rd k o.a) (s.rd k o.b) (s.rd k o.c)) })) s
def execPrmt (o : ROp) (s : State) : Out := perform (tri (.prmt o) o aluPrmt) s
def execPopc (o : ROp) (s : State) : Out := perform (countOp (.popc o) o (aluPopc (Ty.width o.ty))) s
def execClz (o : ROp) (s : State) : Out := perform (countOp (.clz o) o (aluClz (Ty.width o.ty))) s
def execCtz (o : ROp) (s : State) : Out := perform (countOp (.ctz o) o (aluCtz (Ty.width o.ty))) s
def execBrev (o : ROp) (s : State) : Out := perform (un (.brev o) o (aluBrev (Ty.width o.ty))) s

/-! ## Predicates, selection, moves, addresses (R113 to R117) -/

/-- `sel` reads the predicate per thread (R115). -/
def execSel (neg : Bool) (p : Fin 8) (o : ROp) (s : State) : Out :=
  perform (regPlan (.sel neg p o) 1 (fun s k =>
    { k := k, dst := dstTy o.ty o.d (if (s.thread k).holds { neg := neg, p := p } then s.rdTy k o.ty o.a else s.rdTy k o.ty o.b) })) s

def execSetp (cmp : ICmp) (o : POp) (s : State) : Out :=
  perform (regPlan (.setp cmp o) 1 (fun s k => { k := k, preds := [(o.pd, aluCmp cmp o.ty (s.rdTy k o.ty o.a) (s.rdTy k o.ty o.b))] })) s

def execPfn (o : PfnOp) (s : State) : Out :=
  perform (regPlan (.pfn o) 1 (fun s k =>
    let th := s.thread k
    { k := k, preds := [(o.pd, aluPfn o.tab (th.pred o.pa) (th.pred o.pb) (th.pred o.pc))] })) s

def execMov (o : ROp) (s : State) : Out := perform (un (.mov o) o (fun a => a)) s

def execLea (o : ROp) (s : State) : Out :=
  perform (regPlan (.lea o) 1 (fun s k => { k := k, dst := dstPair o.d (BitVec.ofNat 64 (aluLea o.ty (s.rd64 k o.a).toNat (s.rd k o.b).toNat (s.rd k o.c).toNat)) })) s

/-! ## Immediate forms (R118) -/

def execAddI (o : IOp) (s : State) : Out := perform (immOp (.addI o) o (aluAdd .n32)) s
def execMulI (o : IOp) (s : State) : Out := perform (immOp (.mulI o) o (aluMul .n32)) s
def execAndI (o : IOp) (s : State) : Out := perform (immOp (.andI o) o (fun a m => a &&& m)) s
def execOrI (o : IOp) (s : State) : Out := perform (immOp (.orI o) o (fun a m => a ||| m)) s
def execXorI (o : IOp) (s : State) : Out := perform (immOp (.xorI o) o (fun a m => a ^^^ m)) s
def execShlI (o : IOp) (s : State) : Out := perform (immOp (.shlI o) o (fun a m => aluShl .n32 a (m % 32))) s
def execShrI (o : IOp) (s : State) : Out := perform (immOp (.shrI o) o (fun a m => aluShr .n32 a (m % 32))) s
def execSarI (o : IOp) (s : State) : Out := perform (immOp (.sarI o) o (fun a m => aluSar .i32 a (m % 32))) s
def execMinI (unsigned : Bool) (o : IOp) (s : State) : Out := perform (immOp (.minI unsigned o) o (aluMin (if unsigned then .n32 else .i32))) s
def execMaxI (unsigned : Bool) (o : IOp) (s : State) : Out := perform (immOp (.maxI unsigned o) o (aluMax (if unsigned then .n32 else .i32))) s
def execMovi (o : IOp) (s : State) : Out := perform (regPlan (.movi o) 1 (fun _ k => { k := k, dst := dstOne o.d o.imm })) s

end Sys2Proof.Machine
end

