-- ==== Sys2Proof/Machine/Dispatch.lean ====
section
/-! DEFINITION. The dispatch: one arm per row of the opcode table. -/

namespace Sys2Proof.Machine

def exec (i : Instr) (s : State) : Host.Outcome State Fault Refusal :=
  match i with
  | .nop o => Sys2Proof.Machine.execNop o s
  | .bra o => Sys2Proof.Machine.execBra o s
  | .bru o => Sys2Proof.Machine.execBru o s
  | .brx o => Sys2Proof.Machine.execBrx o s
  | .call o => Sys2Proof.Machine.execCall o s
  | .callx o => Sys2Proof.Machine.execCallx o s
  | .ret o => Sys2Proof.Machine.execRet o s
  | .exit o => Sys2Proof.Machine.execExit o s
  | .yield o => Sys2Proof.Machine.execYield o s
  | .cvg o => Sys2Proof.Machine.execCvg o s
  | .mov64 o => Sys2Proof.Machine.execMov64 o s
  | .addW o => Sys2Proof.Machine.execAddW o s
  | .andW o => Sys2Proof.Machine.execAndW o s
  | .orW o => Sys2Proof.Machine.execOrW o s
  | .xorW o => Sys2Proof.Machine.execXorW o s
  | .add o => Sys2Proof.Machine.execAdd o s
  | .sub o => Sys2Proof.Machine.execSub o s
  | .neg o => Sys2Proof.Machine.execNeg o s
  | .addc o => Sys2Proof.Machine.execAddc o s
  | .subb o => Sys2Proof.Machine.execSubb o s
  | .abs o => Sys2Proof.Machine.execAbs o s
  | .min o => Sys2Proof.Machine.execMin o s
  | .max o => Sys2Proof.Machine.execMax o s
  | .sad o => Sys2Proof.Machine.execSad o s
  | .mul o => Sys2Proof.Machine.execMul o s
  | .mulh o => Sys2Proof.Machine.execMulh o s
  | .mad o => Sys2Proof.Machine.execMad o s
  | .madw o => Sys2Proof.Machine.execMadw o s
  | .dot4 o => Sys2Proof.Machine.execDot4 o s
  | .div o => Sys2Proof.Machine.execDiv o s
  | .rem o => Sys2Proof.Machine.execRem o s
  | .and o => Sys2Proof.Machine.execAnd o s
  | .or o => Sys2Proof.Machine.execOr o s
  | .xor o => Sys2Proof.Machine.execXor o s
  | .bitf tab o => Sys2Proof.Machine.execBitf tab o s
  | .shl o => Sys2Proof.Machine.execShl o s
  | .shr o => Sys2Proof.Machine.execShr o s
  | .sar o => Sys2Proof.Machine.execSar o s
  | .shf o => Sys2Proof.Machine.execShf o s
  | .bfe o => Sys2Proof.Machine.execBfe o s
  | .bfi o => Sys2Proof.Machine.execBfi o s
  | .prmt o => Sys2Proof.Machine.execPrmt o s
  | .popc o => Sys2Proof.Machine.execPopc o s
  | .clz o => Sys2Proof.Machine.execClz o s
  | .ctz o => Sys2Proof.Machine.execCtz o s
  | .brev o => Sys2Proof.Machine.execBrev o s
  | .sel neg p o => Sys2Proof.Machine.execSel neg p o s
  | .setp cmp o => Sys2Proof.Machine.execSetp cmp o s
  | .pfn o => Sys2Proof.Machine.execPfn o s
  | .mov o => Sys2Proof.Machine.execMov o s
  | .lea o => Sys2Proof.Machine.execLea o s
  | .addI o => Sys2Proof.Machine.execAddI o s
  | .mulI o => Sys2Proof.Machine.execMulI o s
  | .andI o => Sys2Proof.Machine.execAndI o s
  | .orI o => Sys2Proof.Machine.execOrI o s
  | .xorI o => Sys2Proof.Machine.execXorI o s
  | .shlI o => Sys2Proof.Machine.execShlI o s
  | .shrI o => Sys2Proof.Machine.execShrI o s
  | .sarI o => Sys2Proof.Machine.execSarI o s
  | .minI unsigned o => Sys2Proof.Machine.execMinI unsigned o s
  | .maxI unsigned o => Sys2Proof.Machine.execMaxI unsigned o s
  | .movi o => Sys2Proof.Machine.execMovi o s
  | .fadd o => Sys2Proof.Machine.execFadd o s
  | .fmul o => Sys2Proof.Machine.execFmul o s
  | .ffma o => Sys2Proof.Machine.execFfma o s
  | .fmin o => Sys2Proof.Machine.execFmin o s
  | .fmax o => Sys2Proof.Machine.execFmax o s
  | .fsetp cmp o => Sys2Proof.Machine.execFsetp cmp o s
  | .fdiv o => Sys2Proof.Machine.execFdiv o s
  | .frcp o => Sys2Proof.Machine.execFrcp o s
  | .frsq o => Sys2Proof.Machine.execFrsq o s
  | .fsqrt o => Sys2Proof.Machine.execFsqrt o s
  | .fex2 o => Sys2Proof.Machine.execFex2 o s
  | .flg2 o => Sys2Proof.Machine.execFlg2 o s
  | .fsin o => Sys2Proof.Machine.execFsin o s
  | .fcos o => Sys2Proof.Machine.execFcos o s
  | .ftnh o => Sys2Proof.Machine.execFtnh o s
  | .frnd o => Sys2Proof.Machine.execFrnd o s
  | .fdot2 o => Sys2Proof.Machine.execFdot2 o s
  | .fclass o => Sys2Proof.Machine.execFclass o s
  | .cvt sub src o => Sys2Proof.Machine.execCvt sub src o s
  | .pack o => Sys2Proof.Machine.execPack o s
  | .qnt sub xs o => Sys2Proof.Machine.execQnt sub xs o s
  | .dqn xs o => Sys2Proof.Machine.execDqn xs o s
  | .faddI rnd o => Sys2Proof.Machine.execFaddI rnd o s
  | .fmulI rnd o => Sys2Proof.Machine.execFmulI rnd o s
  | .fminI o => Sys2Proof.Machine.execFminI o s
  | .fmaxI o => Sys2Proof.Machine.execFmaxI o s
  | .xch m o => Sys2Proof.Machine.execXch m o s
  | .agr m o => Sys2Proof.Machine.execAgr m o s
  | .bal o => Sys2Proof.Machine.execBal o s
  | .scan op exc o => Sys2Proof.Machine.execScan op exc o s
  | .redw op o => Sys2Proof.Machine.execRedw op o s
  | .matchSeats all o => Sys2Proof.Machine.execMatchSeats all o s
  | .elect o => Sys2Proof.Machine.execElect o s
  | .xbar k o => Sys2Proof.Machine.execXbar k o s
  | .xbarLd k o => Sys2Proof.Machine.execXbarLd k o s
  | .ld o => Sys2Proof.Machine.execLd o s
  | .st o => Sys2Proof.Machine.execSt o s
  | .ldl o => Sys2Proof.Machine.execLdl o s
  | .stl o => Sys2Proof.Machine.execStl o s
  | .ldlTile o => Sys2Proof.Machine.execLdlTile o s
  | .atom op o => Sys2Proof.Machine.execAtom op o s
  | .atomx o => Sys2Proof.Machine.execAtomx o s
  | .atl op o => Sys2Proof.Machine.execAtl op o s
  | .ldlk o => Sys2Proof.Machine.execLdlk o s
  | .stul o => Sys2Proof.Machine.execStul o s
  | .prf o => Sys2Proof.Machine.execPrf o s
  | .clWb o => Sys2Proof.Machine.execClWb o s
  | .clInv o => Sys2Proof.Machine.execClInv o s
  | .fence o => Sys2Proof.Machine.execFence o s
  | .fenceX o => Sys2Proof.Machine.execFenceX o s
  | .phase h => Sys2Proof.Machine.execPhase h s
  | .retSet k o => Sys2Proof.Machine.execRetSet k o s
  | .retClr k h => Sys2Proof.Machine.execRetClr k h s
  | .chbInit o => Sys2Proof.Machine.execChbInit o s
  | .chbExpect o => Sys2Proof.Machine.execChbExpect o s
  | .chbArrive o => Sys2Proof.Machine.execChbArrive o s
  | .chbWait o => Sys2Proof.Machine.execChbWait o s
  | .chbTest o => Sys2Proof.Machine.execChbTest o s
  | .chbRetire o => Sys2Proof.Machine.execChbRetire o s
  | .gAdd o => Sys2Proof.Machine.execGAdd o s
  | .gWait o => Sys2Proof.Machine.execGWait o s
  | .gRead o => Sys2Proof.Machine.execGRead o s
  | .cpEl wlog o => Sys2Proof.Machine.execCpEl wlog o s
  | .cpBlk o => Sys2Proof.Machine.execCpBlk o s
  | .cpIng o => Sys2Proof.Machine.execCpIng o s
  | .mxIssue o => Sys2Proof.Machine.execMxIssue o s
  | .mxStat o => Sys2Proof.Machine.execMxStat o s
  | .mxAbort o => Sys2Proof.Machine.execMxAbort o s
  | .trvBind o => Sys2Proof.Machine.execTrvBind o s
  | .trvCast o => Sys2Proof.Machine.execTrvCast o s
  | .trvPoll o => Sys2Proof.Machine.execTrvPoll o s
  | .trvRes o => Sys2Proof.Machine.execTrvRes o s
  | .trvCont o => Sys2Proof.Machine.execTrvCont o s
  | .trvSave o => Sys2Proof.Machine.execTrvSave o s
  | .trvLoad o => Sys2Proof.Machine.execTrvLoad o s
  | .subOpen o => Sys2Proof.Machine.execSubOpen o s
  | .subClose o => Sys2Proof.Machine.execSubClose o s
  | .subFlush o => Sys2Proof.Machine.execSubFlush o s
  | .subStat o => Sys2Proof.Machine.execSubStat o s
  | .logMark o => Sys2Proof.Machine.execLogMark o s
  | .lnch o => Sys2Proof.Machine.execLnch o s
  | .rqPut o => Sys2Proof.Machine.execRqPut o s
  | .rqGet o => Sys2Proof.Machine.execRqGet o s
  | .rqDone o => Sys2Proof.Machine.execRqDone o s
  | .csrRd o => Sys2Proof.Machine.execCsrRd o s
  | .csrWr o => Sys2Proof.Machine.execCsrWr o s
  | .trap o => Sys2Proof.Machine.execTrap o s
  | .tret o => Sys2Proof.Machine.execTret o s
  | .brk o => Sys2Proof.Machine.execBrk o s
  | .halt o => Sys2Proof.Machine.execHalt o s
  | .uopNop => Sys2Proof.Machine.execUopNop s
  | .uopFetch => Sys2Proof.Machine.execUopFetch s
  | .uopBox => Sys2Proof.Machine.execUopBox s
  | .uopSort desc => Sys2Proof.Machine.execUopSort desc s
  | .uopPushh => Sys2Proof.Machine.execUopPushh s
  | .uopPushn => Sys2Proof.Machine.execUopPushn s
  | .uopTake => Sys2Proof.Machine.execUopTake s
  | .uopPop target => Sys2Proof.Machine.execUopPop target s
  | .uopTri => Sys2Proof.Machine.execUopTri s
  | .uopJmp target => Sys2Proof.Machine.execUopJmp target s
  | .uopJif cond target => Sys2Proof.Machine.execUopJif cond target s
  | .uopSetc imm => Sys2Proof.Machine.execUopSetc imm s
  | .uopDecc => Sys2Proof.Machine.execUopDecc s
  | .uopEnd imm => Sys2Proof.Machine.execUopEnd imm s
  | .raySave ray => Sys2Proof.Machine.execRaySave ray s
  | .rayReentry ray => Sys2Proof.Machine.execRayReentry ray s
  | .convergentPerform warp pc => Sys2Proof.Machine.execConvergentPerform warp pc s
  | .reconvergenceTimeout warp header => Sys2Proof.Machine.execReconvergenceTimeout warp header s
  | .resultArrival thread => Sys2Proof.Machine.execResultArrival thread s
  | .chbWaitLeave thread => Sys2Proof.Machine.execChbWaitLeave thread s
  | .gWaitLeave thread => Sys2Proof.Machine.execGWaitLeave thread s
  | .trvResLeave thread => Sys2Proof.Machine.execTrvResLeave thread s
  | .lockRetry warp => Sys2Proof.Machine.execLockRetry warp s
  | .mxRowStep cluster => Sys2Proof.Machine.execMxRowStep cluster s
  | .mxSave op => Sys2Proof.Machine.execMxSave op s
  | .mxReentry op => Sys2Proof.Machine.execMxReentry op s
  | .collectiveCommit coll => Sys2Proof.Machine.execCollectiveCommit coll s
  | .engineGaugeAdd add => Sys2Proof.Machine.execEngineGaugeAdd add s
  | .bargeIssue copy => Sys2Proof.Machine.execBargeIssue copy s
  | .bargePerform copy seq => Sys2Proof.Machine.execBargePerform copy seq s
  | .bargeAck copy seq => Sys2Proof.Machine.execBargeAck copy seq s
  | .bargeResend copy seq => Sys2Proof.Machine.execBargeResend copy seq s
  | .tagRetire copy => Sys2Proof.Machine.execTagRetire copy s
  | .copySave copy => Sys2Proof.Machine.execCopySave copy s
  | .savedImageRaise team => Sys2Proof.Machine.execSavedImageRaise team s
  | .ingressWrite func offset data => Sys2Proof.Machine.execIngressWrite func offset data s
  | .iwBarWrite func slot value => Sys2Proof.Machine.execIwBarWrite func slot value s
  | .batchIdleClose sub => Sys2Proof.Machine.execBatchIdleClose sub s
  | .batchApply sub => Sys2Proof.Machine.execBatchApply sub s
  | .publisherFlush team => Sys2Proof.Machine.execPublisherFlush team s
  | .launchRecordWrite func slot record => Sys2Proof.Machine.execLaunchRecordWrite func slot record s
  | .launchEligible launch => Sys2Proof.Machine.execLaunchEligible launch s
  | .teamPlacement launch core berth lane => Sys2Proof.Machine.execTeamPlacement launch core berth lane s
  | .berthRecordWrite core berth record => Sys2Proof.Machine.execBerthRecordWrite core berth record s
  | .preemptionRequest team urgent => Sys2Proof.Machine.execPreemptionRequest team urgent s
  | .drainTimeout team => Sys2Proof.Machine.execDrainTimeout team s
  | .teamSave team => Sys2Proof.Machine.execTeamSave team s
  | .teamRestore team core berth lane => Sys2Proof.Machine.execTeamRestore team core berth lane s
  | .teamEnd team => Sys2Proof.Machine.execTeamEnd team s
  | .eventRecordPost func ring => Sys2Proof.Machine.execEventRecordPost func ring s
  | .eventRingTimer func ring => Sys2Proof.Machine.execEventRingTimer func ring s
  | .erCtlWrite func ring value => Sys2Proof.Machine.execErCtlWrite func ring value s
  | .erTailWrite func ring value => Sys2Proof.Machine.execErTailWrite func ring value s
  | .faultRecordPost func ring => Sys2Proof.Machine.execFaultRecordPost func ring s
  | .frCtlWrite func ring value => Sys2Proof.Machine.execFrCtlWrite func ring value s
  | .frTailWrite func ring value => Sys2Proof.Machine.execFrTailWrite func ring value s
  | .sliceEnd => Sys2Proof.Machine.execSliceEnd s
  | .urgentWindowEnd => Sys2Proof.Machine.execUrgentWindowEnd s
  | .switchTimeout => Sys2Proof.Machine.execSwitchTimeout s
  | .rqFlushTimeout rq => Sys2Proof.Machine.execRqFlushTimeout rq s
  | .teamHalt team => Sys2Proof.Machine.execTeamHalt team s
  | .secondStageService token => Sys2Proof.Machine.execSecondStageService token s
  | .sectorCopy func gpa => Sys2Proof.Machine.execSectorCopy func gpa s
  | .mergeAttempt func gpa => Sys2Proof.Machine.execMergeAttempt func gpa s
  | .sweep frame => Sys2Proof.Machine.execSweep frame s
  | .keyIdFree id => Sys2Proof.Machine.execKeyIdFree id s
  | .lazyPageTransfer func => Sys2Proof.Machine.execLazyPageTransfer func s
  | .invalidationComplete func => Sys2Proof.Machine.execInvalidationComplete func s
  | .wsBankRefresh die group => Sys2Proof.Machine.execWsBankRefresh die group s
  | .memoryScrub line => Sys2Proof.Machine.execMemoryScrub line s
  | .uncorrectableError e => Sys2Proof.Machine.execUncorrectableError e s
  | .schedCoreRestart => Sys2Proof.Machine.execSchedCoreRestart s
  | .logTailReread func ctx => Sys2Proof.Machine.execLogTailReread func ctx s
  | .heartbeatSend => Sys2Proof.Machine.execHeartbeatSend s
  | .heartbeatReceive group member resets digest => Sys2Proof.Machine.execHeartbeatReceive group member resets digest s
  | .heartbeatTimeout group member => Sys2Proof.Machine.execHeartbeatTimeout group member s
  | .moduleReset => Sys2Proof.Machine.execModuleReset s
  | .schedulerRunning => Sys2Proof.Machine.execSchedulerRunning s
  | .functionLevelReset func => Sys2Proof.Machine.execFunctionLevelReset func s
  | .hostLinkDown => Sys2Proof.Machine.execHostLinkDown s
  | .hostLinkUp gen width protocol => Sys2Proof.Machine.execHostLinkUp gen width protocol s
  | .thermalStop => Sys2Proof.Machine.execThermalStop s
  | .sidebandSetPower watts => Sys2Proof.Machine.execSidebandSetPower watts s
  | .sidebandRead what => Sys2Proof.Machine.execSidebandRead what s
  | .bar2Write func offset data => Sys2Proof.Machine.execBar2Write func offset data s
  | .bar2Read func offset count => Sys2Proof.Machine.execBar2Read func offset count s
  | .registerWrite func offset size value => Sys2Proof.Machine.execRegisterWrite func offset size value s
  | .cmdContext c => Sys2Proof.Machine.execCmdContext c s
  | .cmdLogNone c => Sys2Proof.Machine.execCmdLogNone c s
  | .cmdLogRecord c => Sys2Proof.Machine.execCmdLogRecord c s
  | .cmdLogReplay c => Sys2Proof.Machine.execCmdLogReplay c s
  | .cmdQueueEnable c => Sys2Proof.Machine.execCmdQueueEnable c s
  | .cmdQueueDisable c => Sys2Proof.Machine.execCmdQueueDisable c s
  | .cmdBerth c => Sys2Proof.Machine.execCmdBerth c s
  | .cmdQuota c => Sys2Proof.Machine.execCmdQuota c s
  | .cmdGrant c => Sys2Proof.Machine.execCmdGrant c s
  | .cmdQuantum c => Sys2Proof.Machine.execCmdQuantum c s
  | .cmdPower c => Sys2Proof.Machine.execCmdPower c s
  | .cmdSwitch c => Sys2Proof.Machine.execCmdSwitch c s
  | .cmdRoot1 c => Sys2Proof.Machine.execCmdRoot1 c s
  | .cmdInval1 c => Sys2Proof.Machine.execCmdInval1 c s
  | .cmdResumeRetry c => Sys2Proof.Machine.execCmdResumeRetry c s
  | .cmdResumeAbort c => Sys2Proof.Machine.execCmdResumeAbort c s
  | .cmdRoot2 c => Sys2Proof.Machine.execCmdRoot2 c s
  | .cmdInval2 c => Sys2Proof.Machine.execCmdInval2 c s
  | .cmdKeyCreate c => Sys2Proof.Machine.execCmdKeyCreate c s
  | .cmdKeyDestroy c => Sys2Proof.Machine.execCmdKeyDestroy c s
  | .cmdKeySetPrivate c => Sys2Proof.Machine.execCmdKeySetPrivate c s
  | .cmdDomainPlace c => Sys2Proof.Machine.execCmdDomainPlace c s
  | .cmdDomainHashShare c => Sys2Proof.Machine.execCmdDomainHashShare c s
  | .cmdMergeList c => Sys2Proof.Machine.execCmdMergeList c s
  | .cmdUnref c => Sys2Proof.Machine.execCmdUnref c s
  | .cmdFork c => Sys2Proof.Machine.execCmdFork c s
  | .cmdWorldMask c => Sys2Proof.Machine.execCmdWorldMask c s
  | .cmdWorldWays c => Sys2Proof.Machine.execCmdWorldWays c s
  | .cmdGroupCreate c => Sys2Proof.Machine.execCmdGroupCreate c s
  | .cmdGroupAdmit c => Sys2Proof.Machine.execCmdGroupAdmit c s
  | .cmdGroupRemove c => Sys2Proof.Machine.execCmdGroupRemove c s
  | .cmdGroupQuery c => Sys2Proof.Machine.execCmdGroupQuery c s
  | .cmdGroupDissolve c => Sys2Proof.Machine.execCmdGroupDissolve c s
  | .cmdPoolDonate c => Sys2Proof.Machine.execCmdPoolDonate c s
  | .cmdPoolSweepShare c => Sys2Proof.Machine.execCmdPoolSweepShare c s
  | .cmdPoolZeroNow c => Sys2Proof.Machine.execCmdPoolZeroNow c s
  | .cmdMove c => Sys2Proof.Machine.execCmdMove c s
  | .cmdReport c => Sys2Proof.Machine.execCmdReport c s
  | .cmdExtend c => Sys2Proof.Machine.execCmdExtend c s
  | .mbAttach c => Sys2Proof.Machine.execMbAttach c s
  | .mbDetach c => Sys2Proof.Machine.execMbDetach c s
  | .mbPointBreakpoint c => Sys2Proof.Machine.execMbPointBreakpoint c s
  | .mbPointWatchpoint c => Sys2Proof.Machine.execMbPointWatchpoint c s
  | .mbHalt c => Sys2Proof.Machine.execMbHalt c s
  | .mbStep c => Sys2Proof.Machine.execMbStep c s
  | .mbResume c => Sys2Proof.Machine.execMbResume c s
  | .mbAbort c => Sys2Proof.Machine.execMbAbort c s
  | .mbRead c => Sys2Proof.Machine.execMbRead c s
  | .mbWrite c => Sys2Proof.Machine.execMbWrite c s
  | .mbList c => Sys2Proof.Machine.execMbList c s
  | .faultRingTimer func ring => Sys2Proof.Machine.execFaultRingTimer func ring s
  | .issueGovernor g => Sys2Proof.Machine.execIssueGovernor g s
  | .cxlMemAccess write pa data => Sys2Proof.Machine.execCxlMemAccess write pa data s
  | .correctedError e => Sys2Proof.Machine.execCorrectedError e s
  | .handoverTimeout => Sys2Proof.Machine.execHandoverTimeout s
  | .admissionConfirmation group member => Sys2Proof.Machine.execAdmissionConfirmation group member s

end Sys2Proof.Machine
end

