-- ==== Sys2Proof/Machine/Place.lean ====
section
/-! DEFINITION. The passing of time between moves, and placing one given instruction so that the very next step runs it. -/

namespace Sys2Proof.Machine

/-! ## Time (R364, R368) -/

/-- Resident urgent teams are charged to their functions, and marked once their share is spent. -/
def State.chargeUrgent (s : State) (dt : Nat) : State :=
  let us := (s.teams.filter (fun p => p.2.onCore p.2.core && decide (lrClass p.2.lrec = 0))).map (fun p => p.2.func)
  if us = [] then s
  else
    let s := us.foldl (fun s f => s.updFunc f (fun x => { x with urgentUsed := x.urgentUsed + dt, sliceDebt := x.sliceDebt + dt })) s
    { s with teams := Assoc.mapVals s.teams (fun _ t => if t.onCore t.core ∧ lrClass t.lrec = 0 ∧ s.shareSpent t.func = true then { t with demoted := true } else t) }

/-- A module error that a write-back met in the step halts every team (R460). -/
def State.stopIfDue (s : State) : State :=
  if s.mod.stopDue then ((Assoc.keys s.teams).foldl (fun s t => s.askSave t) s).updMod (fun m => { m with stopDue := false }) else s

/-- Time passes by an amount that the manual leaves open (log 2). -/
def State.tick (s : State) : State :=
  let s := s.stopIfDue
  let dt := 1 + Config.freeNat (2 * s.fresh + 1)
  { s.chargeUrgent dt with clock := s.clock + dt, fresh := s.fresh + 1 }

/-! ## Placing an instruction -/

/-- A team of one warp whose thread 0 alone runs. -/
def placeRec : BitVec 512 := BitVec.ofNat 512 ((2 ^ 38 + 47 * 2 ^ 13) * 2 ^ (8 * 0x38))
def placeTeam : Team := { lrec := placeRec, warps := 1 }
def placeHeader : Nat :=
  let h := 0xB * 2 ^ 60 + 2 * 2 ^ 48
  h + hdrCheck h

def State.placeThreads (s : State) : State :=
  let s := s.setWarp 0 { budget := 384 }
  let s := (List.range 31).foldl (fun s i => s.setThread (i + 1) { st := .exited }) s
  s.setThread 0 { pc := 0x100008, block := 0x100000, len := 2, skipBp := true }

/-- Bytes at an address that nothing was written at under a key. -/
def State.placeBytes (s : State) (pa : Nat) (bs : List Byte) : State :=
  { s with mem := Tbl.setN s.mem pa bs, lines := Assoc.del s.lines (pa / 128) }

def State.placeNum (s : State) (pa v : Nat) : State := s.placeBytes pa (toBytes (BitVec.ofNat 64 v) 8)

/-- Tables of both stages that map the first 512 MiB one to one, for reading, writing and fetching. -/
def State.placeTables (s : State) : State :=
  let s := ((s.placeNum 0x10000 0x20003).placeNum 0x20000 0x30003).placeNum 0x30000 29
  let s := (((s.placeNum 0x40000 0x50003).placeNum 0x50000 0x60003).placeNum 0x60000 0x70003).placeNum 0x70000 29
  let s := s.dropTlb2 0 0 0
  (s.updFunc 0 (fun f => { f with root2 := some 0x10000 })).setCtx 0 { root1 := 0x40000, root1En := true }

/-- Core 0 offers its next opportunity to berth 0. -/
def State.placeTurn (s : State) : State :=
  (s.setCore 0 {}).updDie 0 (fun d => { d with withheld := 0 })

/-- A 64-bit word, or a double word, at the address where thread 0 stands. -/
def State.placeWord (s : State) (w : Nat) : State :=
  let s := (s.placeTables.placeNum 0x100000 placeHeader).placeBytes 0x100008 (toBytes (BitVec.ofNat 128 w) 16)
  let s := (s.setTeam 0 placeTeam).placeThreads.placeTurn
  { s with sched := [.turn 0 0] }

/-- A microword at word 0 of the binding, and a ray that starts there. -/
def State.placeMicro (s : State) (w : Nat) : State :=
  let s := (s.setTeam 0 { placeTeam with binding := some { layout := 0, image := BitVec.ofNat 2048 (w % 2 ^ 32), imageAddr := 0, bcheck := 0 } }).placeThreads.placeTurn
  { s with rays := Assoc.put s.rays 0 { team := 0, handle := 0, state := 1 }, sched := [.uop 0] }

end Sys2Proof.Machine
end

