-- ==== Sys2Proof/Machine/Step.lean ====
section
/-! DEFINITION. One step of the machine: the agent that moves next makes its move, and time passes; and the state in which a given word is the next to run. -/

namespace Sys2Proof.Machine

/-- The outcome of a move, its next state passed on. -/
def andThen (o : Out) (g : State → State) : Out :=
  match o with
  | .next s => .next (g s)
  | .fault f => .fault f
  | .refused r => .refused r

/-- One move of one agent. -/
def act (a : Activity) (s : State) : Out :=
  match a with
  | .turn team wid =>
    match s.openTurn team wid with
    | (some i, s') => andThen (exec i s') (fun r => State.closeTurn s r team wid)
    | (none, s') => .next s'
  | .uop ray =>
    match s.openUop ray with
    | (some i, s') => andThen (exec i s') (fun r => r.closeUop ray)
    | (none, s') => .next s'
  | .occur i => exec i s
  | .write64 func offset data =>
    match s.openWrite func offset data with
    | (some i, s') => exec i s'
    | (none, s') => .next s'
  | .read func offset size => .next (s.hostRead func offset size)

/-- One step: the activity that `sched` names first, or where it names none one that nothing fixes (log 1); then time passes. -/
def step (s : State) : Host.Outcome State Fault Refusal :=
  match s.sched with
  | [] => andThen (act (Config.nextActivity s.fresh) { s with fresh := s.fresh + 1 }) State.tick
  | a :: rest => andThen (act a { s with sched := rest }) State.tick

/-- The state in which the instruction whose bits are `w` is the next to run: a microword stands at word 0 of team 0's binding and its ray is taken up; a longer one stands after a header that thread 0 of team 0 has passed, in memory that function 0 and its context 0 map one to one (log 30). -/
def State.withFetchWord (s : State) (nbits w : Nat) : State := if nbits ≤ 32 then s.placeMicro w else s.placeWord w

end Sys2Proof.Machine
end

