-- ==== Sys2Proof/Safety.lean ====
section
/-! DEFINITION. What a safe run of the machine is, in the terms the statements use: it goes on, and its state keeps the forms that hardware of this kind holds. -/

namespace Sys2Proof.Machine

/-- A move ended in a next state. -/
def goesOn (o : Out) : Bool :=
  match o with
  | .next _ => true
  | _ => false

/-- The next state of a move, or the state before it where the machine stopped. -/
def after (o : Out) (s : State) : State :=
  match o with
  | .next t => t
  | _ => s

/-- Memory is in its canonical form. -/
def State.memOk (s : State) : Bool := Memory.wf s.mem

/-- k steps reach a state with no stop on the way. -/
def reaches : Nat → State → State → Prop
  | 0, s, t => s = t
  | k + 1, s, t => ∃ u, step s = .next u ∧ reaches k u t

/-- A run of k steps is safe: it does not stop, and every state on the way has memory in canonical form. -/
def safeFor : Nat → State → Prop
  | 0, s => s.memOk = true
  | k + 1, s => s.memOk = true ∧ ∃ u, step s = .next u ∧ safeFor k u

/-! ## What the statements about instructions say -/

/-- A register as thread k sees it: its own vector register, or the w register of its warp. -/
def State.regOf (s : State) (k : Nat) (r : Reg) : W32 :=
  if r.1 then Tbl.get (s.warp (warpOf k)).w r.2 else Tbl.get (s.thread k).v r.2

/-- The threads of an issue group whose guard is true (R44): those that perform the instruction. -/
def State.active (s : State) (f : Focus) (i : Instr) : List Nat :=
  f.threads.filter (fun k => (s.thread k).holds (wordHdr i).g)

/-- An issue group that nothing but its instruction concerns: no log, no debugger, no result outstanding, no lock window, no poisoned register (R255, R315, R343, R449, R456). -/
structure Calm (s : State) (f : Focus) : Prop where
  focus : s.focus = some f
  some : f.threads ≠ []
  wid : f.wid < 32
  unlogged : (s.ctxOf (s.team f.team)).logMode = 0
  settled : s.missed = none
  noHits : s.hits = []
  noDebug : s.attachedTo (s.team f.team) = false
  once : f.again = false
  noOutW : (s.warp (wkey f.team f.wid)).out = []
  noOut : ∀ k ∈ f.threads, (s.thread k).out = []
  noWin : ∀ k ∈ f.threads, (s.thread k).win = none
  noPoison : ∀ k ∈ f.threads, (s.thread k).poison = []

/-- What one thread writes: registers, predicates, flags of `cr.fx`. -/
structure Eff where
  regs : List (Reg × W32) := []
  preds : List (Fin 8 × Bool) := []
  fx : W32 := 0

/-- A predicate after the writes of a list; p7 stands (R31). -/
def predAfter (old : Bool) (q : Fin 8) (ps : List (Fin 8 × Bool)) : Bool :=
  ps.foldl (fun b p => if p.1 = q ∧ q ≠ 7 then p.2 else b) old

/-- The active threads agree on every w register that they write (R30). -/
def State.Uniform (s : State) (f : Focus) (i : Instr) (e : Nat → Eff) : Prop :=
  ∀ j ∈ s.active f i, ∀ k ∈ s.active f i, (e j).regs.filter (fun p => p.1.1) = (e k).regs.filter (fun p => p.1.1)

/-- The active threads have written what `e` says, and every other register, predicate and flag stands. -/
structure Wrote (s t : State) (f : Focus) (i : Instr) (e : Nat → Eff) : Prop where
  regs : ∀ k ∈ s.active f i, ∀ p ∈ (e k).regs, t.regOf k p.1 = p.2
  others : ∀ k r, (∀ j ∈ s.active f i, (if r.1 then warpOf j = warpOf k else j = k) → ∀ p ∈ (e j).regs, p.1 ≠ r) → t.regOf k r = s.regOf k r
  preds : ∀ k q, (t.thread k).pred q = if k ∈ s.active f i then predAfter ((s.thread k).pred q) q (e k).preds else (s.thread k).pred q
  flags : ∀ k, (t.thread k).fx = if k ∈ s.active f i then (s.thread k).fx ||| (e k).fx else (s.thread k).fx

/-- Every byte of memory, of every scratchpad and of every L1 reads as before. -/
structure SameBytes (s t : State) : Prop where
  mem : ∀ key pa, t.byteAt key pa = s.byteAt key pa
  spad : ∀ u off, Tbl.get (t.team u).spad off = Tbl.get (s.team u).spad off
  l1 : ∀ c, (t.core c).l1 = (s.core c).l1

/-- The special registers of every team, the saved registers of every handler, the results outstanding and the units of the module stand. -/
structure SameUnits (s t : State) : Prop where
  xh : ∀ u, (t.team u).xh = (s.team u).xh
  handler : ∀ u, (t.team u).handler = (s.team u).handler
  trap : ∀ k, (t.thread k).trap = (s.thread k).trap
  out : ∀ k, (t.thread k).out = (s.thread k).out
  wout : ∀ w, (t.warp w).out = (s.warp w).out
  ctxs : t.ctxs = s.ctxs
  units : t.copies = s.copies ∧ t.gadds = s.gadds ∧ t.mops = s.mops ∧ t.rays = s.rays ∧ t.subs = s.subs ∧ t.rqs = s.rqs ∧ t.launches = s.launches ∧ t.tokens = s.tokens
  mod : t.mod = s.mod

/-- The next word of the thread's block follows its instruction (R349): it is not the last. -/
def State.inside (s : State) (k words : Nat) : Prop := (s.thread k).after words ≠ (s.thread k).nextHeader ∧ (s.thread k).after words ≠ (s.thread k).block

/-- Every ready thread of the group that is not at the end of its block stands at the next word, with its record as it was; the team has counted one instruction (R316, R349). -/
structure MovedOn (s t : State) (f : Focus) (words : Nat) : Prop where
  pc : ∀ k ∈ f.threads, (s.thread k).st = .ready → s.inside k words → (t.thread k).st = .ready ∧ (t.thread k).pc = (s.thread k).pc + BitVec.ofNat 64 (8 * words) ∧ (t.thread k).block = (s.thread k).block
  rcd : ∀ k ∈ f.threads, (s.thread k).st = .ready → s.inside k words → (t.thread k).rcd = (s.thread k).rcd
  count : (t.team f.team).tcount = (s.team f.team).tcount + 1

/-- A source of the instruction's type, read in the type's signedness (R106). -/
def State.val (s : State) (k : Nat) (t : Ty) (x : Src) : Int := Ty.val t (s.rdTy k t x)

/-- A value of a type as it is written to a destination (R76, R100). -/
def effTy (t : Ty) (d : Src) (x : Nat) : Eff := { regs := dstTy t d x }

/-- A 32-bit value, a 64-bit value, and one predicate as effects. -/
def eff32 (d : Src) (x : W32) : Eff := { regs := dstOne d x }
def eff64 (d : Src) (x : W64) : Eff := { regs := dstPair d x }
def effPred (p : Fin 8) (b : Bool) : Eff := { preds := [(p, b)] }

/-- The instruction completes in every active thread with the effect `e` on registers, and changes nothing else but where threads stand. -/
def Completes (i : Instr) (s : State) (f : Focus) (words : Nat) (e : Nat → Eff) : Prop :=
  ∃ t, exec i s = .next t ∧ Wrote s t f i e ∧ SameBytes s t ∧ SameUnits s t ∧ MovedOn s t f words

/-- The same for a group whose active threads agree on the w registers that they write, which is what a group must do in checked mode (R30). -/
def CompletesWith (i : Instr) (s : State) (f : Focus) (words : Nat) (e : Nat → Eff) : Prop :=
  s.Uniform f i e → Completes i s f words e

/-- Every active thread has a result outstanding that will write what `e` says: its own registers and flags to the thread, w registers with the lowest-seated thread's value to the warp (R101, R121, R343). No register is written yet. -/
structure Issued (s t : State) (f : Focus) (i : Instr) (e : Nat → Eff) : Prop where
  out : ∀ k ∈ s.active f i, ∃ p, (t.thread k).out = [p] ∧ p.dst = (e k).regs.filter (fun q => !q.1.1) ∧ p.fx = (e k).fx ∧ p.late = none ∧ p.held = 0
  wout : ∀ k ∈ s.active f i, (e k).regs.filter (fun q => q.1.1) ≠ [] →
    ∃ p, (t.warp (warpOf k)).out = [p] ∧ p.dst = (e k).regs.filter (fun q => q.1.1) ∧ p.differ = false ∧ p.late = none ∧ p.held = 0
  others : ∀ k, k ∉ s.active f i → (t.thread k).out = (s.thread k).out
  regs : ∀ k r, t.regOf k r = s.regOf k r
  preds : ∀ k q, (t.thread k).pred q = (s.thread k).pred q
  flags : ∀ k, (t.thread k).fx = (s.thread k).fx

/-- Every ready thread of the group that is not at the end of its block has gone on to the next word; the team has counted one instruction. -/
structure WentOn (s t : State) (f : Focus) (words : Nat) : Prop where
  pc : ∀ k ∈ f.threads, (s.thread k).st = .ready → s.inside k words → (t.thread k).pc = (s.thread k).pc + BitVec.ofNat 64 (8 * words)
  count : (t.team f.team).tcount = (s.team f.team).tcount + 1

/-- A variable-latency instruction completes its issue in every active thread: its results are outstanding, and no byte and no register has changed. -/
def IssuesWith (i : Instr) (s : State) (f : Focus) (e : Nat → Eff) : Prop :=
  s.Uniform f i e → ∃ t, exec i s = .next t ∧ Issued s t f i e ∧ SameBytes s t ∧ t.ctxs = s.ctxs ∧ t.mod = s.mod ∧ WentOn s t f 1

/-- Of the threads that parked with a thread at one instruction, none has left it yet (R30). -/
def State.FirstToLeave (s : State) (k : Nat) : Prop := ∀ j ∈ (s.warp (warpOf k)).joins, j.seats.getLsbD (seatOf k) = true → j.low = 32

/-! ## Transfers and convergence -/

/-- A thread that goes to a header stands at it, or has passed it and stands at its first word (R340, R349). -/
structure State.StandsAt (s : State) (k : Nat) (H : W64) : Prop where
  block : (s.thread k).block = H
  place : (s.thread k).pc = H ∨ ((s.thread k).pc = H + 8 ∧ (s.thread k).st = .ready)

/-- Every active thread that has a target goes to it, every other thread goes on to the next word; the active threads write what `e` says and nothing else changes (R349). -/
def GoesTo (i : Instr) (s : State) (f : Focus) (target : Nat → Option W64) (e : Nat → Eff) : Prop :=
  s.Uniform f i e → ∃ t, exec i s = .next t ∧ Wrote s t f i e ∧ SameBytes s t ∧ SameUnits s t ∧
    (∀ k ∈ s.active f i, (s.thread k).st = .ready → ∀ H, target k = some H → t.StandsAt k H) ∧
    (∀ k ∈ f.threads, (s.thread k).st = .ready → (k ∈ s.active f i → target k = none) → s.inside k 1 →
      (t.thread k).st = .ready ∧ (t.thread k).pc = (s.thread k).pc + 8 ∧ (t.thread k).block = (s.thread k).block) ∧
    (t.team f.team).tcount = (s.team f.team).tcount + 1

/-- The whole mask arrives together: each thread of the group is ready at one address, in one region, with the group as its mask, no other thread of the warp waits there or is about to be released, and no log orders the warps of the core (R141, R142, R316). -/
structure Gathers (s : State) (f : Focus) (i : Instr) : Prop where
  calm : Calm s f
  runs : s.warpRuns (wkey f.team f.wid) = true
  unordered : s.ordered (s.team f.team).core = false
  ready : ∀ k ∈ f.threads, (s.thread k).st = .ready ∧ (s.thread k).pc = f.pc
  mask : ∀ k ∈ f.threads, s.rd k (convMask i) = f.group
  region : ∀ j ∈ f.threads, ∀ k ∈ f.threads, (s.thread j).seq = (s.thread k).seq
  alone : s.parkedAt (wkey f.team f.wid) f.pc = []
  noRelease : s.releasable (wkey f.team f.wid) = none
  noSwitch : ∀ k ∈ warpThreads (wkey f.team f.wid), (s.thread k).st ≠ .switchParked

/-- The group parks at its convergent instruction, and the performance that follows gives what `P` says (R142). -/
def Converges (i : Instr) (s : State) (f : Focus) (P : State → Prop) : Prop :=
  ∃ t u, exec i s = .next t ∧ (∀ k ∈ f.threads, (t.thread k).st = .parked) ∧ exec (.convergentPerform (wkey f.team f.wid) f.pc) t = .next u ∧ P u

/-- A convergent instruction writes what `e` says to its active threads, and all of its threads go on. -/
def ConvergesWith (i : Instr) (s : State) (f : Focus) (e : Nat → Eff) : Prop :=
  s.Uniform f i e → Converges i s f (fun u => Wrote s u f i e ∧ SameBytes s u ∧ SameUnits s u ∧ MovedOn s u f 1)

/-- A wait of one thread alone: for a lock, a gauge, a ray, its subscriptions, or to perform again; not for other threads of its warp or team, nor for a chamber's phase (R254, R261, R291). -/
def Wait.single (w : Wait) : Bool :=
  match w with
  | .lock _ _ _ _ | .gauge _ _ _ _ | .ray _ _ _ | .flush _ _ _ _ | .close _ _ _ | .again _ => true
  | _ => false

/-! ## One thread alone -/

/-- Registers, predicates and flags of every thread stand. -/
structure SameRegs (s t : State) : Prop where
  regs : ∀ k r, t.regOf k r = s.regOf k r
  preds : ∀ k q, (t.thread k).pred q = (s.thread k).pred q
  flags : ∀ k, (t.thread k).fx = (s.thread k).fx

/-- A calm group of one ready thread whose guard is true. -/
structure Lone (s : State) (f : Focus) (i : Instr) (k : Nat) : Prop where
  calm : Calm s f
  one : f.threads = [k]
  ready : (s.thread k).st = .ready
  guard : (s.thread k).holds (wordHdr i).g = true

/-- Nothing is logged anywhere, and no scratchpad is published (R297, R315). -/
structure Quiet (s : State) : Prop where
  unlogged : ∀ c, (s.ctx c).logMode = 0
  noSubs : s.subs = []

/-- The host link carries what is sent, and nothing waits for it (R14). -/
structure LinkOpen (s : State) : Prop where
  up : s.mod.linkUp = true
  noQueue : s.mod.linkQ = []

/-- A thread of the group has recorded a cause, and stands at its instruction (R427 to R431). -/
structure Raised (s t : State) (f : Focus) (k code : Nat) : Prop where
  cause : (s.thread k).st ≠ .exited → (s.thread k).rcd.cause = 0x3C0 → (t.thread k).rcd.cause.toNat = code ∧ (t.thread k).rcd.pc = f.pc
  pc : (t.thread k).pc = (s.thread k).pc

/-! ## Memory as a core sees it -/

/-- The byte that a plain load of a core returns: the one its L1 holds, else the one at the home agent (R229). -/
def State.seen (s : State) (core key pa : Nat) : Byte :=
  match Assoc.find (s.core core).l1 (pa / 128) with
  | some l => if l.have_.getLsbD (pa % 128) then byteOf l.data (pa % 128) else s.byteAt key pa
  | none => s.byteAt key pa

/-- A line stands in a core's L1, or its set has room for it: no eviction is due (R218, R220). -/
def State.hasRoom (s : State) (core ln : Nat) : Prop :=
  (Assoc.find (s.core core).l1 ln).isSome = true ∨ ((s.core core).l1.filter (fun q => decide (l1Set q.1 = l1Set ln))).length < 16

/-- The bytes of an access lie in one line. -/
def Piece.inLine (p : Piece) (n : Nat) : Prop := p.n = n ∧ p.pa % 128 + n ≤ 128

/-- A thread's access of n bytes passes its checks, translates to one piece and leads to the state `u` (R247). -/
def State.reaches1 (s : State) (f : Focus) (k : Nat) (addr : Addr80) (n : Nat) (a : Acc) (p : Piece) (u : State) : Prop :=
  addr.toNat % n = 0 ∧ (s.startIssue f.threads).resolve k addr n a = (.ok (.mem [p]), u) ∧ p.inLine n

/-- Where in the scratchpad an access of n bytes may go: aligned, within the team's size, clear of armed chambers (R210, R247, R288). -/
def Team.fits (t : Team) (off n : Nat) : Prop :=
  off % n = 0 ∧ off + n ≤ t.spadSize ∧ ∀ c ∈ t.chambers, off + n ≤ c ∨ c + 16 ≤ off

/-- No poisoned word is touched (R457). -/
def Team.clean (t : Team) (off n : Nat) : Prop := ∀ w ∈ t.spadPoison, 4 * w + 4 ≤ off ∨ off + n ≤ 4 * w

/-- A generic pointer names the scratchpad window at an offset (R209). -/
def State.inWindow (s : State) (k : Nat) (o : MOp) (off : Nat) : Prop :=
  off < 2 ^ 32 ∧ (s.team (teamOf k)).xh[o.xsel] = 0xFFFF#16 ∧ s.rd64 k o.a + o.off.signExtend 64 = (1#32 ++ BitVec.ofNat 32 off)

/-- The scratchpad offset of a scratchpad-only access (R211). -/
def State.offset (s : State) (k : Nat) (o : MOp) : Nat := (s.rd k o.a + o.off.signExtend 32).toNat

/-- The data source of a store or of an atomic, as a 64-bit word of which the low bytes count (R248). -/
def State.word64 (s : State) (k : Nat) (t : Ty) (x : Src) : W64 := if Ty.wide t then s.rd64 k x else (s.rd k x).setWidth 64

/-- The value an atomic leaves (R251). -/
def atomLeaves (op : AtomOp) (t : Ty) (old b : Nat) : Nat :=
  match op, t with
  | .add, .f32 => (Fmt.f32.add .rn false old b).1
  | .min, .f32 => (Fmt.f32.minmax false false old b).1
  | .max, .f32 => (Fmt.f32.minmax true false old b).1
  | .add, _ => (old + b) % 2 ^ Ty.width t
  | .min, _ => if Ty.val t old ≤ Ty.val t b then old else b
  | .max, _ => if Ty.val t old ≥ Ty.val t b then old else b
  | .and, _ => old &&& b
  | .or, _ => old ||| b
  | .xor, _ => old ^^^ b
  | .exch, _ => b
  | .inc, _ => if old ≥ b then 0 else old + 1
  | .dec, _ => if old = 0 ∨ old > b then b else old - 1

/-! ## Engines -/

/-- A thread's block of n bytes passes its checks where it stands, in the scratchpad or in memory, and reads as `bs`, which leaves the state `v` (R209, R244, R490). -/
def State.ReadsBlock (s : State) (f : Focus) (k : Nat) (addr : Addr80) (n : Nat) (bs : List Byte) (v : State) : Prop :=
  ∃ x u, (s.startIssue f.threads).blockCheck k addr n = (.ok x, u) ∧ u.readBlock k x n = (.ok bs, v)

/-- The block lies in the scratchpad or in global memory, which is where an engine's blocks may be (R167, R265, R300, R426). -/
def blockPlace (addr : Addr80) : Bool :=
  match decodeAddr addr with
  | .stack _ | .weights _ => false
  | _ => true

/-- No thread, warp or team has changed. -/
def SameTeams (s t : State) : Prop := t.threads = s.threads ∧ t.warps = s.warps ∧ t.teams = s.teams

/-! ## Commands -/

/-- A command is taken: the host reaches the device, which is ready, and no command of the function runs; the buffer's head is as it must be (R22, R361). -/
structure CmdTaken (s : State) (c : CmdBuf) : Prop where
  open_ : s.hostOpen = true
  ready : s.mod.ready = true
  idle : (s.func c.func).cmd.busy = false
  func : c.func ≤ 64
  head : bufU c.w 1 1 = 0 ∧ bufU c.w 3 5 = 0

/-- A command of a function has ended with a result, and is counted (R361). -/
def State.ended (s : State) (func r : Nat) : State :=
  s.setFunc func { s.func func with cmd := { done := (s.func func).cmd.done + 1, busy := false, result := BitVec.ofNat 8 r }, running := .none }

/-- A command of a function runs, as told (R361). -/
def State.runs (s : State) (func : Nat) (r : Running) : Prop := (s.func func).cmd.busy = true ∧ (s.func func).running = r

/-- The same of a mailbox command (R451). -/
structure MbTaken (s : State) (c : CmdBuf) : Prop where
  open_ : s.hostOpen = true
  ready : s.mod.ready = true
  idle : (s.func c.func).mb.busy = false
  func : c.func ≤ 64
  head : bufU c.w 1 1 = 0 ∧ bufU c.w 3 5 = 0
  noStep : (s.func c.func).stepping = none

/-- A mailbox command has ended with a result and a response. -/
def State.answered (s : State) (func r : Nat) (resp : List Byte) : State :=
  s.setFunc func { s.func func with mb := { done := (s.func func).mb.done + 1, busy := false, result := BitVec.ofNat 8 r }, stepping := none, mbResp := Tbl.setN [] 0 resp }

end Sys2Proof.Machine
end

