-- ==== Sys2Proof/Certificates/Slice0/Obligations.lean ====
section
/-! DEFINITION. The statements for the provers. Each is about every state that meets its hypotheses; its docstring names the rules of spec/ that it formalises. -/

open Sys2Proof Sys2Proof.Machine

/-! ## Registers, numbers -/

/-- R106: what the arithmetic instructions of majors 0x10 and 0x11 write, in every active thread, and that nothing else changes. R108: division toward zero, the remainder with the sign of A, and the fixed results. -/
def Obligations.IntegerArithmetic : Prop :=
  (
    ∀ (s : State) (f : Focus) (o : ROp), Calm s f →
      let n := Ty.width o.ty
      let A := fun k => s.val k o.ty o.a
      let B := fun k => s.val k o.ty o.b
      let C := fun k => s.val k o.ty o.c
      let u := fun k (x : Src) => ((s.rd k x).toNat : Int)
      let byte := fun (x : W32) (i : Nat) => Ty.val o.ty (byteOf x i).toNat
      CompletesWith (.add o) s f 1 (fun k => effTy o.ty o.d ((A k + B k) % 2 ^ n).toNat) ∧
      CompletesWith (.sub o) s f 1 (fun k => effTy o.ty o.d ((A k - B k) % 2 ^ n).toNat) ∧
      CompletesWith (.neg o) s f 1 (fun k => effTy o.ty o.d ((- A k) % 2 ^ n).toNat) ∧
      CompletesWith (.abs o) s f 1 (fun k => effTy o.ty o.d (if A k = -2 ^ (n - 1) then 2 ^ (n - 1) - 1 else (A k).natAbs)) ∧
      CompletesWith (.min o) s f 1 (fun k => effTy o.ty o.d (if A k ≤ B k then s.rdTy k o.ty o.a else s.rdTy k o.ty o.b)) ∧
      CompletesWith (.max o) s f 1 (fun k => effTy o.ty o.d (if A k ≥ B k then s.rdTy k o.ty o.a else s.rdTy k o.ty o.b)) ∧
      CompletesWith (.sad o) s f 1 (fun k => effTy o.ty o.d ((s.rdTy k o.ty o.c + (A k - B k).natAbs) % 2 ^ 32)) ∧
      CompletesWith (.mul o) s f 1 (fun k => effTy o.ty o.d ((A k * B k) % 2 ^ n).toNat) ∧
      CompletesWith (.mulh o) s f 1 (fun k => effTy o.ty o.d ((A k * B k / 2 ^ n) % 2 ^ n).toNat) ∧
      CompletesWith (.mad o) s f 1 (fun k => effTy o.ty o.d ((A k * B k + C k) % 2 ^ n).toNat) ∧
      CompletesWith (.madw o) s f 1 (fun k => eff64 o.d (BitVec.ofInt 64 (Ty.val o.ty (s.rd k o.a).toNat * Ty.val o.ty (s.rd k o.b).toNat + ((s.rd64 k o.c).toNat : Int)))) ∧
      CompletesWith (.dot4 o) s f 1 (fun k => eff32 o.d (BitVec.ofInt 32 (u k o.c + byte (s.rd k o.a) 0 * byte (s.rd k o.b) 0 + byte (s.rd k o.a) 1 * byte (s.rd k o.b) 1
        + byte (s.rd k o.a) 2 * byte (s.rd k o.b) 2 + byte (s.rd k o.a) 3 * byte (s.rd k o.b) 3))) ∧
      CompletesWith (.addc o) s f 1 (fun k => { regs := dstGroup o.d [BitVec.ofInt 32 (u k o.a + u k o.b + u k o.c % 2), BitVec.ofInt 32 ((u k o.a + u k o.b + u k o.c % 2) / 2 ^ 32)] }) ∧
      CompletesWith (.subb o) s f 1 (fun k => { regs := dstGroup o.d [BitVec.ofInt 32 (u k o.a - u k o.b - u k o.c % 2), if u k o.a - u k o.b - u k o.c % 2 < 0 then 1 else 0] })
  ) ∧
  (
    ∀ (s : State) (f : Focus) (o : ROp), Calm s f →
      let n := Ty.width o.ty
      let A := fun k => s.val k o.ty o.a
      let B := fun k => s.val k o.ty o.b
      CompletesWith (.div o) s f 1 (fun k => effTy o.ty o.d
        (if B k = 0 then (if Ty.signed o.ty = false then 2 ^ n - 1 else if 0 ≤ A k then 2 ^ (n - 1) - 1 else 2 ^ (n - 1))
         else if Ty.signed o.ty = true ∧ A k = -2 ^ (n - 1) ∧ B k = -1 then 2 ^ (n - 1) - 1
         else ((A k).tdiv (B k) % 2 ^ n).toNat)) ∧
      CompletesWith (.rem o) s f 1 (fun k => effTy o.ty o.d (if B k = 0 then s.rdTy k o.ty o.a else ((A k).tmod (B k) % 2 ^ n).toNat))
  )

/-- R109, R110: bitwise functions bit by bit, and shifts by any amount. R111, R112: bit-field extract and insert, byte permute, counts and bit reversal. -/
def Obligations.LogicAndBits : Prop :=
  (
    ∀ (s : State) (f : Focus) (o : ROp) (tab : Byte), Calm s f →
      let n := Ty.width o.ty
      let a := fun k => s.rdTy k o.ty o.a
      let b := fun k => s.rdTy k o.ty o.b
      let S := fun k => (s.rd k o.b).toNat
      CompletesWith (.and o) s f 1 (fun k => effTy o.ty o.d (a k &&& b k)) ∧
      CompletesWith (.or o) s f 1 (fun k => effTy o.ty o.d (a k ||| b k)) ∧
      CompletesWith (.xor o) s f 1 (fun k => effTy o.ty o.d (a k ^^^ b k)) ∧
      CompletesWith (.bitf tab o) s f 1 (fun k => eff32 o.d (BitVec.ofNat 32 ((List.range 32).map (fun i =>
        if tab.getLsbD (((s.rd k o.a).getLsbD i).toNat + 2 * ((s.rd k o.b).getLsbD i).toNat + 4 * ((s.rd k o.c).getLsbD i).toNat) then 2 ^ i else 0)).sum)) ∧
      CompletesWith (.shl o) s f 1 (fun k => effTy o.ty o.d (if S k < n then a k * 2 ^ S k % 2 ^ n else 0)) ∧
      CompletesWith (.shr o) s f 1 (fun k => effTy o.ty o.d (if S k < n then a k / 2 ^ S k else 0)) ∧
      CompletesWith (.sar o) s f 1 (fun k => effTy o.ty o.d (if S k < n then (signedNat n (a k) / 2 ^ S k % 2 ^ n).toNat else if signedNat n (a k) < 0 then 2 ^ n - 1 else 0)) ∧
      CompletesWith (.shf o) s f 1 (fun k => effTy o.ty o.d ((b k * 2 ^ 32 + a k) / 2 ^ min (s.rdTy k o.ty o.c) 32 % 2 ^ 32))
  ) ∧
  (
    ∀ (s : State) (f : Focus) (o : ROp), Calm s f →
      let n := Ty.width o.ty
      let a := fun k => s.rdTy k o.ty o.a
      let P := fun k => min (s.rdTy k o.ty o.b) 32
      let L := fun k => min (s.rdTy k o.ty o.c) 32
      let A := fun k => s.rd k o.a
      let B := fun k => s.rd k o.b
      let C := fun k => (s.rd k o.c).toNat
      let p := fun k => min (C k % 256) 32
      let l := fun k => min (C k / 256 % 256) 32
      let m := fun k => BitVec.ofNat 32 ((2 ^ l k - 1) * 2 ^ p k)
      let y := fun k i => let sl := C k / 2 ^ (4 * i) % 16
        let b := byteOf (B k ++ A k) (sl % 8)
        if 8 ≤ sl then (if b.msb then 0xFF else 0x00) else b
      CompletesWith (.bfe o) s f 1 (fun k => effTy o.ty o.d
        (if Ty.signed o.ty then (if L k = 0 then 0 else (signedNat (L k) ((signedNat 32 (a k) / 2 ^ P k % 2 ^ 32).toNat) % 2 ^ 32).toNat) else a k / 2 ^ P k % 2 ^ L k)) ∧
      CompletesWith (.bfi o) s f 1 (fun k => eff32 o.d ((B k &&& ~~~ m k) ||| ((A k <<< p k) &&& m k))) ∧
      (o.ty = .b32 → CompletesWith (.prmt o) s f 1 (fun k => effTy o.ty o.d ((y k 3 ++ y k 2 ++ y k 1 ++ y k 0 : BitVec 32).toNat))) ∧
      CompletesWith (.popc o) s f 1 (fun k => eff32 o.d (BitVec.ofNat 32 ((List.range n).countP (fun i => (a k).testBit i)))) ∧
      CompletesWith (.clz o) s f 1 (fun k => eff32 o.d (BitVec.ofNat 32 (if a k = 0 then n else n - 1 - Nat.log2 (a k)))) ∧
      CompletesWith (.ctz o) s f 1 (fun k => eff32 o.d (BitVec.ofNat 32 (((List.range n).findIdx? (fun i => (a k).testBit i)).getD n))) ∧
      CompletesWith (.brev o) s f 1 (fun k => effTy o.ty o.d ((List.range n).map (fun i => if (a k).testBit i then 2 ^ (n - 1 - i) else 0)).sum)
  )

/-- R113 to R117, R355: comparisons, predicate functions, selection, moves, pointers; `nop` changes nothing. R116, R118, R119: the immediate forms on 32 bits and the double-word forms on pairs. -/
def Obligations.PredicatesAndImmediates : Prop :=
  (
    ∀ (s : State) (f : Focus), Calm s f →
      (∀ (cmp : ICmp) (o : POp), CompletesWith (.setp cmp o) s f 1 (fun k =>
        let A := s.val k o.ty o.a
        let B := s.val k o.ty o.b
        effPred o.pd (match cmp with | .eq => A = B | .ne => A ≠ B | .lt => A < B | .le => A ≤ B | .gt => A > B | .ge => A ≥ B))) ∧
      (∀ (o : PfnOp), CompletesWith (.pfn o) s f 1 (fun k => effPred o.pd
        (o.tab.getLsbD (((s.thread k).pred o.pa).toNat + 2 * ((s.thread k).pred o.pb).toNat + 4 * ((s.thread k).pred o.pc).toNat)))) ∧
      (∀ (neg : Bool) (q : Fin 8) (o : ROp), CompletesWith (.sel neg q o) s f 1 (fun k =>
        effTy o.ty o.d (if (s.thread k).pred q = !neg then s.rdTy k o.ty o.a else s.rdTy k o.ty o.b))) ∧
      (∀ (o : ROp), CompletesWith (.mov o) s f 1 (fun k => effTy o.ty o.d (s.rdTy k o.ty o.a))) ∧
      (∀ (o : ROp), CompletesWith (.lea o) s f 1 (fun k =>
        let index := BitVec.ofInt 64 (Ty.val o.ty (s.rd k o.b).toNat)
        eff64 o.d (s.rd64 k o.a + index <<< (s.rd k o.c).toNat))) ∧
      (∀ (o : ROp), CompletesWith (.nop o) s f 1 (fun _ => {}))
  ) ∧
  (
    ∀ (s : State) (f : Focus), Calm s f →
      (∀ (o : IOp),
        let A := fun k => s.rd k o.a
        let S := o.imm.toNat % 32
        CompletesWith (.addI o) s f 1 (fun k => eff32 o.d (A k + o.imm)) ∧
        CompletesWith (.mulI o) s f 1 (fun k => eff32 o.d (A k * o.imm)) ∧
        CompletesWith (.andI o) s f 1 (fun k => eff32 o.d (A k &&& o.imm)) ∧
        CompletesWith (.orI o) s f 1 (fun k => eff32 o.d (A k ||| o.imm)) ∧
        CompletesWith (.xorI o) s f 1 (fun k => eff32 o.d (A k ^^^ o.imm)) ∧
        CompletesWith (.shlI o) s f 1 (fun k => eff32 o.d (A k <<< S)) ∧
        CompletesWith (.shrI o) s f 1 (fun k => eff32 o.d (A k >>> S)) ∧
        CompletesWith (.sarI o) s f 1 (fun k => eff32 o.d ((A k).sshiftRight S)) ∧
        CompletesWith (.minI false o) s f 1 (fun k => eff32 o.d (if (A k).toInt ≤ o.imm.toInt then A k else o.imm)) ∧
        CompletesWith (.minI true o) s f 1 (fun k => eff32 o.d (if (A k).toNat ≤ o.imm.toNat then A k else o.imm)) ∧
        CompletesWith (.maxI false o) s f 1 (fun k => eff32 o.d (if (A k).toInt ≥ o.imm.toInt then A k else o.imm)) ∧
        CompletesWith (.maxI true o) s f 1 (fun k => eff32 o.d (if (A k).toNat ≥ o.imm.toNat then A k else o.imm)) ∧
        CompletesWith (.movi o) s f 1 (fun _ => eff32 o.d o.imm)) ∧
      (∀ (o : WOp),
        let A := fun k => s.rd64 k o.a
        CompletesWith (.mov64 o) s f 2 (fun _ => eff64 o.d o.imm) ∧
        CompletesWith (.addW o) s f 2 (fun k => eff64 o.d (A k + o.imm)) ∧
        CompletesWith (.andW o) s f 2 (fun k => eff64 o.d (A k &&& o.imm)) ∧
        CompletesWith (.orW o) s f 2 (fun k => eff64 o.d (A k ||| o.imm)) ∧
        CompletesWith (.xorW o) s f 2 (fun k => eff64 o.d (A k ^^^ o.imm)))
  )

/-- R79, R126 to R130: per element the exact result rounded once, with its flags; `fmin`, `fmax`, `frnd` and `fclass` per element; the immediate forms are those of FP32 with ftz off (R134). R136, R137, R140: conversions by the table's three kinds of destination, packing, and dequantisation of one element. Readings and choices of the model that it rests on: log 18, 19. -/
def Obligations.FloatInstructions : Prop :=
  (
    ∀ (s : State) (f : Focus), Calm s f →
      (∀ (o : ROp),
        let F := Ty.flt o.ty
        let A := fun k => s.rd k o.a
        let B := fun k => s.rd k o.b
        let C := fun k => s.rd k o.c
        let rd := F.read o.ftz
        let res := fun (d : Src) (r : W32 × W32) => ({ regs := dstOne d r.1, fx := r.2 } : Eff)
        CompletesWith (.fadd o) s f 1 (fun k => res o.d (lanes2 o.ty (fun x y => F.finish o.rnd o.ftz (sumVals o.rnd [rd x, rd y])) (A k) (B k))) ∧
        CompletesWith (.fmul o) s f 1 (fun k => res o.d (lanes2 o.ty (fun x y => F.finish o.rnd o.ftz (mulVals (rd x) (rd y))) (A k) (B k))) ∧
        CompletesWith (.ffma o) s f 1 (fun k => res o.d (lanes3 o.ty (fun x y z =>
          F.finish o.rnd o.ftz ((sumVals o.rnd [(mulVals (rd x) (rd y)).1, rd z]).1, (sumVals o.rnd [(mulVals (rd x) (rd y)).1, rd z]).2 ||| (mulVals (rd x) (rd y)).2)) (A k) (B k) (C k))) ∧
        CompletesWith (.fmin o) s f 1 (fun k => res o.d (lanes2 o.ty (F.minmax false o.ftz) (A k) (B k))) ∧
        CompletesWith (.fmax o) s f 1 (fun k => res o.d (lanes2 o.ty (F.minmax true o.ftz) (A k) (B k))) ∧
        CompletesWith (.frnd o) s f 1 (fun k => res o.d (lanes1 o.ty (F.integral o.rnd o.ftz) (A k))) ∧
        CompletesWith (.fclass o) s f 1 (fun k => res o.d (lanes1 o.ty (fun x => (F.cls x, 0)) (A k))) ∧
        CompletesWith (.fdot2 o) s f 1 (fun k => { regs := dstOne o.d (BitVec.ofNat 32 (dot2 F o.rnd o.ftz (A k).toNat (B k).toNat (C k).toNat).1),
                                                    fx := (dot2 F o.rnd o.ftz (A k).toNat (B k).toNat (C k).toNat).2 })) ∧
      (∀ (cmp : FCmp) (o : POp), CompletesWith (.fsetp cmp o) s f 1 (fun k =>
        let r := fcmp cmp (Fmt.f32.read o.ftz (s.rd k o.a).toNat) (Fmt.f32.read o.ftz (s.rd k o.b).toNat)
        { preds := [(o.pd, r.1)], fx := r.2 })) ∧
      (∀ (rnd : Rnd) (o : IOp),
        let res := fun (d : Src) (r : Rounded) => ({ regs := dstOne d (BitVec.ofNat 32 r.1), fx := r.2 } : Eff)
        let A := fun k => (s.rd k o.a).toNat
        CompletesWith (.faddI rnd o) s f 1 (fun k => res o.d (Fmt.f32.add rnd false (A k) o.imm.toNat)) ∧
        CompletesWith (.fmulI rnd o) s f 1 (fun k => res o.d (Fmt.f32.mul rnd false (A k) o.imm.toNat)) ∧
        CompletesWith (.fminI o) s f 1 (fun k => res o.d (Fmt.f32.minmax false false (A k) o.imm.toNat)) ∧
        CompletesWith (.fmaxI o) s f 1 (fun k => res o.d (Fmt.f32.minmax true false (A k) o.imm.toNat)))
  ) ∧
  (
    ∀ (s : State) (f : Focus), Calm s f →
      (∀ (sub : Fin 4) (src : Ty) (o : ROp), CompletesWith (.cvt sub src o) s f 1 (fun k =>
        match Ty.fmt o.ty, Ty.fmt src with
        | some .f32, none => let r := Fmt.f32.round o.rnd o.ftz (ofInt (s.val k src o.a)); { regs := dstOne o.d (BitVec.ofNat 32 r.1), fx := r.2 }
        | some .f32, some g =>
          let r := Fmt.f32.narrow o.rnd o.ftz 0 (g.read o.ftz (laneOf g.width (s.rd k o.a).toNat ((s.rd k o.c).toNat % (32 / g.width))))
          { regs := dstOne o.d (BitVec.ofNat 32 r.1), fx := r.2 }
        | none, _ => let r := toIntTy o.ty o.rnd (Fmt.f32.read o.ftz (s.rd k o.a).toNat); { regs := dstTy o.ty o.d r.1, fx := r.2 }
        | some g, _ =>
          let r := cvtGroupVals g ((Ty.fmt src).getD .f32) o.rnd o.ftz sub.val (s.rdGroup k o.a (cvtGroup o.ty src))
          { regs := dstOne o.d (BitVec.ofNat 32 r.1), fx := r.2 })) ∧
      (∀ (o : ROp), CompletesWith (.pack o) s f 1 (fun k => eff32 o.d ((s.rd k o.b).extractLsb' 0 16 ++ (s.rd k o.a).extractLsb' 0 16))) ∧
      (∀ (xs : Bool) (o : ROp), CompletesWith (.dqn xs o) s f 1 (fun k =>
        let F := (Ty.fmt o.ty).getD .e4m3
        let r := Fmt.f32.finish o.rnd o.ftz (scaled F xs (laneOf F.width (s.rd k o.a).toNat ((s.rd k o.c).toNat % (32 / F.width))) (s.rd k o.b).toNat)
        { regs := dstOne o.d (BitVec.ofNat 32 r.1), fx := r.2 }))
  )

/-- R121, R132, R138: division, the special functions and quantisation leave their results outstanding. R343: an outstanding result that arrives is written to its registers with its flags, and nothing else of any thread changes its registers. Readings and choices of the model that it rests on: log 7, 15, 19. -/
def Obligations.VariableLatency : Prop :=
  (
    ∀ (s : State) (f : Focus), Calm s f →
      (∀ (o : ROp),
        let F := Ty.flt o.ty
        let A := fun k => s.rd k o.a
        let res := fun (d : Src) (r : W32 × W32) => ({ regs := dstOne d r.1, fx := r.2 } : Eff)
        let fn := fun (n : Nat) k => res o.d (lanes1 o.ty (special F n o.rnd o.ftz) (A k))
        IssuesWith (.fdiv o) s f (fun k => res o.d (lanes2 o.ty (fun x y => F.finish o.rnd o.ftz (divVals (F.read o.ftz x) (F.read o.ftz y))) (A k) (s.rd k o.b))) ∧
        IssuesWith (.frcp o) s f (fn 0) ∧ IssuesWith (.frsq o) s f (fn 1) ∧ IssuesWith (.fsqrt o) s f (fn 2) ∧ IssuesWith (.fex2 o) s f (fn 3) ∧
        IssuesWith (.flg2 o) s f (fn 4) ∧ IssuesWith (.fsin o) s f (fn 5) ∧ IssuesWith (.fcos o) s f (fn 6) ∧ IssuesWith (.ftnh o) s f (fn 7)) ∧
      (∀ (sub : Fin 4) (xs : Bool) (o : ROp), IssuesWith (.qnt sub xs o) s f (fun k =>
        let F := (Ty.fmt o.ty).getD .e4m3
        let r := quantise F xs o.rnd o.ftz sub.val (s.rdGroup k o.a (if xs then 16 else 32))
        { regs := dstGroup o.d (packWords F.width (32 / F.width) 16 r.1) ++ dstOne o.b (BitVec.ofNat 32 r.2.1), fx := r.2.2 }))
  ) ∧
  (
    ∀ (s : State) (k : Nat) (p : Pending), p.late = none → p.held = 0 → p.differ = false → (p.dst.map Prod.fst).Nodup →
      ((s.thread k).out = [p] → (s.warp (warpOf k)).out = [] → (∀ q ∈ p.dst, q.1.1 = false) →
        ∃ t, exec (.resultArrival k) s = .next t ∧ (∀ q ∈ p.dst, t.regOf k q.1 = q.2) ∧ (t.thread k).fx = (s.thread k).fx ||| p.fx ∧ (t.thread k).out = [] ∧
          (∀ j r, (j ≠ k ∨ r.1 = true ∨ ∀ q ∈ p.dst, q.1 ≠ r) → t.regOf j r = s.regOf j r) ∧ SameBytes s t) ∧
      ((s.thread k).out = [] → (s.warp (warpOf k)).out = [p] → (∀ q ∈ p.dst, q.1.1 = true) →
        ∃ t, exec (.resultArrival k) s = .next t ∧ (∀ q ∈ p.dst, t.regOf k q.1 = q.2) ∧ (t.warp (warpOf k)).out = [] ∧
          (∀ j r, (warpOf j ≠ warpOf k ∨ r.1 = false ∨ ∀ q ∈ p.dst, q.1 ≠ r) → t.regOf j r = s.regOf j r) ∧ SameBytes s t)
  )

/-! ## Control flow and cross-thread -/

/-- R349, R351: a taken branch, call or return goes to its header and a call writes the address of the next header to its link; every other thread goes on. `bru` follows the lowest-seated active thread, which in checked mode all must agree with. -/
def Obligations.BranchesAndCalls : Prop :=
  ∀ (s : State) (f : Focus), Calm s f →
    let next := fun k => (s.thread k).block + BitVec.ofNat 64 (8 * ((s.thread k).len + 1))
    (∀ (o : BOp),
      let disp := fun k => (s.thread k).block + o.disp.signExtend 64 * 8
      let cond := fun k => (s.thread k).pred o.cond.p != o.cond.neg
      GoesTo (.bra o) s f (fun k => if cond k then some (disp k) else none) (fun _ => {}) ∧
      GoesTo (.call o) s f (fun k => if cond k then some (disp k) else none) (fun k => if cond k then eff64 o.link (next k) else {}) ∧
      (∀ c, (∀ j, (s.active f (.bru o)).head? = some j → cond j = c) →
        ((s.ctxOf (s.team f.team)).checked = false ∨ ∀ k ∈ s.active f (.bru o), cond k = c) →
        GoesTo (.bru o) s f (fun k => if c then some (disp k) else none) (fun _ => {}))) ∧
    (∀ (o : ROp),
      GoesTo (.brx o) s f (fun k => some (s.rd64 k o.a)) (fun _ => {}) ∧
      GoesTo (.ret o) s f (fun k => some (s.rd64 k o.a)) (fun _ => {}) ∧
      GoesTo (.callx o) s f (fun k => some (s.rd64 k o.a)) (fun k => eff64 o.d (next k)))

/-- R41, R340: what entering a header does: a thread whose stack holds it waits there for reconvergence; any other passes a well-formed header to its first word, or stands at a bad one with cause 0x28. R340, R341: a timeout of 4,096 opportunities releases a header of a warp whose turn it is: every thread that waits there is ready again, at it or past it. -/
def Obligations.HeadersAndReconvergence : Prop :=
  (
    ∀ (s : State) (k : Nat) (H : W64),
      let th := s.thread k
      let t := s.enter k H
      (H ∈ th.stack → (t.thread k).st = .reconverging ∧ (t.thread k).pc = H ∧ (t.thread k).stack.head? = some H ∧ (t.thread k).stack <:+ th.stack) ∧
      (H ∉ th.stack → H.toNat % 8 ≠ 0 → (th.st ≠ .exited ∧ th.rcd.cause = 0x3C0) → (t.thread k).rcd.cause = 0x28 ∧ (t.thread k).pc = H) ∧
      (∀ w, H ∉ th.stack → H.toNat % 8 = 0 → (s.fetch (teamOf k) ((s.team (teamOf k)).codeHi ++ H)).1 = .ok w →
        let good := w / 2 ^ 60 % 16 = 0xB ∧ w % 256 = (List.range 7).foldl (fun x i => x ^^^ w / 256 ^ (i + 1) % 256) 0 ∧ w / 2 ^ 48 % 4096 ≠ 0 ∧
          w / 2 ^ 39 % 512 ≤ 384 ∧ w / 2 ^ 39 % 512 ≤ (s.warp (warpOf k)).budget
        let target := H + (BitVec.ofNat 20 (w / 2 ^ 12 % 2 ^ 20)).signExtend 64 * 8
        (good → (t.thread k).st = .ready ∧ (t.thread k).block = H ∧ (t.thread k).pc = H + 8 ∧ (t.thread k).len = w / 2 ^ 48 % 4096 ∧ (t.thread k).rcd = th.rcd ∧
          (t.thread k).seq = th.seq + (if w / 2 ^ 32 % 2 = 1 then 1 else 0) ∧
          (t.thread k).stack = (if w / 2 ^ 12 % 2 ^ 20 = 0 ∨ th.stack.head? = some target then th.stack else target :: th.stack.take 15)) ∧
        (¬ good → th.st ≠ .exited → th.rcd.cause = 0x3C0 → (t.thread k).rcd.cause = 0x28 ∧ (t.thread k).rcd.pc = H ∧ (t.thread k).pc = H ∧ (t.thread k).block = H))
  ) ∧
  (
    ∀ (s : State) (w : Nat) (H : W64), s.warpRuns w = true → s.inOrder w = true →
      (∃ k ∈ warpThreads w, (s.thread k).st = .reconverging ∧ (s.thread k).pc = H ∧ (s.thread k).arrived + 4096 ≤ (s.warp w).opp) →
      ∃ t, exec (.reconvergenceTimeout w H) s = .next t ∧ SameRegs s t ∧ SameBytes s t ∧
        ∀ k ∈ warpThreads w, (s.thread k).st = .reconverging → (s.thread k).pc = H → (t.thread k).st = .ready ∧ t.StandsAt k H
  )

/-- R352: `exit` ends every active thread and discards its results; when none of the team is left the team is ending. R353: `yield` gives every active thread a yield mark, which its next issue ends; nothing else changes. -/
def Obligations.ExitAndYield : Prop :=
  (
    ∀ (s : State) (f : Focus) (o : ROp), Calm s f → Quiet s →
      ∃ t, exec (.exit o) s = .next t ∧ SameRegs s t ∧
        (∀ k ∈ s.active f (.exit o), (t.thread k).st = .exited ∧ (t.thread k).out = []) ∧
        ((∀ k ∈ teamThreads f.team (s.team f.team), (s.thread k).st = .exited ∨ k ∈ s.active f (.exit o)) → f.threads = s.active f (.exit o) → (∀ k ∈ f.threads, (s.thread k).st = .ready) →
          f.wid < (s.team f.team).warps → (s.team f.team).life = .resident → (t.team f.team).life = .ending)
  ) ∧
  (
    ∀ (s : State) (f : Focus) (o : ROp), Calm s f →
      ∃ t, exec (.yield o) s = .next t ∧ Wrote s t f (.yield o) (fun _ => {}) ∧ SameBytes s t ∧ SameUnits s t ∧ MovedOn s t f 1 ∧
        ∀ k ∈ f.threads, (t.thread k).yielded = decide (k ∈ s.active f (.yield o))
  )

/-- R149 to R152, R354: what a convergent instruction writes once every named thread has arrived, and that `cvg` writes nothing. R98, R152: scans and reductions fold the named seats in ascending order, in the instruction's type; an exclusive scan of no seat gives the identity. -/
def Obligations.CrossThread : Prop :=
  (
    ∀ (s : State) (f : Focus) (i : Instr), Gathers s f i →
      let at_ := fun j => tkey f.team f.wid j
      let M := f.group
      let named := (List.range 32).filter (fun j => M.getLsbD j)
      (∀ o, i = .cvg o → ConvergesWith i s f (fun _ => {})) ∧
      (∀ m o, i = .xch m o → ConvergesWith i s f (fun k =>
        let seat := seatOf k
        let b := s.rd k o.b
        let j : Int := match m with
          | .abs => b.toNat % 32
          | .rot => (seat + b.toNat) % 32
          | .sh => seat + b.toInt
          | .mir => (BitVec.ofNat 32 seat ^^^ b).toNat
        let from_ := if 0 ≤ j ∧ j ≤ 31 ∧ M.getLsbD j.toNat = true then j.toNat else seat
        effTy o.ty o.d (s.rdTy (at_ from_) o.ty o.a))) ∧
      (∀ m o, i = .agr m o → ConvergesWith i s f (fun _ =>
        let v := fun j => s.rd (at_ j) o.a
        let holds : Bool := match m with
          | .every => decide (∀ j ∈ named, v j ≠ 0)
          | .some => decide (∃ j ∈ named, v j ≠ 0)
          | .none => decide (∀ j ∈ named, v j = 0)
          | .same => decide (∀ j ∈ named, ∀ l ∈ named, v j = v l)
        eff32 o.d (if holds then 1 else 0))) ∧
      (∀ o, i = .bal o → ConvergesWith i s f (fun _ => eff32 o.d (BitVec.ofNat 32 (named.map (fun j => if s.rd (at_ j) o.a ≠ 0 then 2 ^ j else 0)).sum))) ∧
      (∀ all o, i = .matchSeats all o → ConvergesWith i s f (fun k =>
        let same := fun j => s.rdTy (at_ j) o.ty o.a = s.rdTy k o.ty o.a
        eff32 o.d (if all then (if ∀ j ∈ named, same j then M else 0) else BitVec.ofNat 32 (named.map (fun j => if same j then 2 ^ j else 0)).sum))) ∧
      (∀ o, i = .elect o → ConvergesWith i s f (fun k => eff32 o.d (if (s.active f i).head? = some k then 1 else 0)))
  ) ∧
  (
    ∀ (s : State) (f : Focus) (i : Instr), Gathers s f i →
      let v := fun (o : ROp) j => (s.rd (tkey f.team f.wid j) o.a).toNat
      let named := (List.range 32).filter (fun j => f.group.getLsbD j)
      let step := fun (o : ROp) (n : Nat) (x y : Nat) =>
        if o.ty = .f32 then (match n with | 0 => Fmt.f32.add o.rnd o.ftz x y | 1 => Fmt.f32.minmax false o.ftz x y | _ => Fmt.f32.minmax true o.ftz x y)
        else (match n with | 0 => ((x + y) % 2 ^ 32, 0) | 1 => (if Ty.val o.ty x ≤ Ty.val o.ty y then x else y, 0) | _ => (if Ty.val o.ty x ≥ Ty.val o.ty y then x else y, 0))
      let fold := fun (o : ROp) (g : Nat → Nat → Rounded) (ident : Nat) (xs : List Nat) => match xs with
        | [] => ((ident, 0) : Rounded)
        | x :: rest => rest.foldl (fun a y => ((g a.1 y).1, a.2 ||| (g a.1 y).2)) (if o.ty = .f32 then Fmt.f32.flushed o.ftz x else x, 0)
      let res := fun (o : ROp) (r : Rounded) => ({ regs := dstOne o.d (BitVec.ofNat 32 r.1), fx := r.2 } : Eff)
      (∀ op exc o, i = .scan op exc o → o.ty ∈ [Ty.i32, Ty.n32, Ty.f32] → ConvergesWith i s f (fun k =>
        let n := match op with | .add => 0 | .min => 1 | .max => 2
        let ident := match op, o.ty with
          | .add, _ => 0
          | .min, .f32 => 0x7F800000 | .min, .i32 => 0x7FFFFFFF | .min, _ => 0xFFFFFFFF
          | .max, .f32 => 0xFF800000 | .max, .i32 => 0x80000000 | .max, _ => 0
        res o (fold o (step o n) ident ((named.filter (fun j => if exc then j < seatOf k else j ≤ seatOf k)).map (v o))))) ∧
      (∀ op o, i = .redw op o → o.ty ∈ [Ty.i32, Ty.n32, Ty.f32, Ty.b32] → ConvergesWith i s f (fun _ =>
        let g : Nat → Nat → Rounded := match op with
          | .add => step o 0 | .min => step o 1 | .max => step o 2
          | .and => fun x y => (x &&& y, 0) | .or => fun x y => (x ||| y, 0) | .xor => fun x y => (x ^^^ y, 0)
        res o (fold o g 0 (named.map (v o)))))
  )

/-- R153 to R156: `xbar` leaves outstanding, for each element of its width, the register that the thread's pattern row names, or 0; `xbar.ld` writes the pattern rows of its active threads. -/
def Obligations.Crossbar : Prop :=
  ∀ (s : State) (f : Focus) (i : Instr), Gathers s f i →
    (∀ kk o g, i = .xbar kk o → o.b = .inl g → s.Uniform f i (fun k => { regs := dstGroup o.d ((List.range g.val).map (fun n =>
        let e := (Tbl.get (s.team f.team).pat (kk.val * 256 + seatOf k * 8 + n)).toNat
        if e / 32 < g.val ∧ f.group.getLsbD (e % 32) = true then s.rdAt (tkey f.team f.wid (e % 32)) o.a (e / 32) else 0)) }) →
      Converges i s f (fun u => Issued s u f i (fun k => { regs := dstGroup o.d ((List.range g.val).map (fun n =>
          let e := (Tbl.get (s.team f.team).pat (kk.val * 256 + seatOf k * 8 + n)).toNat
          if e / 32 < g.val ∧ f.group.getLsbD (e % 32) = true then s.rdAt (tkey f.team f.wid (e % 32)) o.a (e / 32) else 0)) }) ∧
        SameBytes s u ∧ WentOn s u f 1)) ∧
    (∀ kk o, i = .xbarLd kk o → Converges i s f (fun u => SameRegs s u ∧ SameBytes s u ∧ SameUnits s u ∧ MovedOn s u f 1 ∧
      (∀ k ∈ s.active f i, ∀ n < 8, Tbl.get (u.team f.team).pat (kk.val * 256 + seatOf k * 8 + n) = byteOf (s.rd64 k o.a) n) ∧
      (∀ a, (∀ k ∈ s.active f i, a < kk.val * 256 + seatOf k * 8 ∨ kk.val * 256 + seatOf k * 8 + 8 ≤ a) → Tbl.get (u.team f.team).pat a = Tbl.get (s.team f.team).pat a)))

/-! ## System instructions and exceptions -/

/-- R36 to R39, R436, R444: what `csr.rd` gives for every control register that a program may read, the handler's in handler mode. R38, R91, R436, R444: what `csr.wr` writes: an xh register takes the lowest-seated active thread's low half, `cr.fx` each thread's low byte, and in handler mode the cause and the halves of the resume point. R436, R444: a write of `cr.tcause` sets the cause of the writing thread's record and clears late and more. Readings and choices of the model that it rests on: log 51. -/
def Obligations.ControlRegisters : Prop :=
  (
    ∀ (s : State) (f : Focus), Calm s f →
      let tm := s.team f.team
      let gives := fun (n : Nat) (v : Nat → W32) => ∀ o : IOp, o.imm = BitVec.ofNat 32 n → CompletesWith (.csrRd o) s f 1 (fun k => eff32 o.d (v k))
      let r := fun k => (s.thread k).shown
      gives 0x000 (fun k => (s.thread k).fx) ∧
      gives 0x001 (fun _ => if (s.ctx (ckey tm.func tm.ctx)).mode.getLsbD 0 then 1 else 0) ∧
      gives 0x002 (fun _ => BitVec.ofNat 32 ((s.core tm.core).world % 16)) ∧
      gives 0x003 (fun _ => BitVec.ofNat 32 tm.func) ∧
      gives 0x010 (fun _ => BitVec.ofNat 32 tm.cref) ∧
      (∀ j : Fin 8, gives (0x020 + j.val) (fun _ => tm.xh[j].setWidth 32)) ∧
      (tm.handler = true →
        gives 0x100 (fun k => BitVec.ofNat 32 ((r k).cause.toNat + (if (r k).late then 2 ^ 10 else 0) + (if (r k).more then 2 ^ 11 else 0))) ∧
        gives 0x103 (fun k => (r k).addr.extractLsb' 0 32) ∧ gives 0x104 (fun k => (r k).addr.extractLsb' 32 32) ∧ gives 0x105 (fun k => (r k).addrhi.setWidth 32) ∧
        gives 0x106 (fun k => (r k).done) ∧ gives 0x107 (fun k => BitVec.ofNat 32 ((r k).skid % 32)) ∧
        gives 0x108 (fun _ => BitVec.ofNat 32 (tm.prim.toNat + tm.primTid % 1024 * 2 ^ 16)) ∧
        (∀ tr : Nat → TrapState, (∀ k ∈ f.threads, (s.thread k).trap = some (tr k)) →
          gives 0x101 (fun k => (tr k).resume.extractLsb' 0 32) ∧ gives 0x102 (fun k => (tr k).resume.extractLsb' 32 32) ∧
          gives 0x109 (fun k => match (tr k).before with | .ready => 0 | .switchParked => 1 | .parked => 2 | .reconverging => 3 | .exited => 4)))
  ) ∧
  (
    ∀ (s : State) (f : Focus) (o : IOp), Calm s f →
      let act := s.active f (.csrWr o)
      let goes := fun (P : State → Prop) => ∃ t, exec (.csrWr o) s = .next t ∧ (∀ k r, t.regOf k r = s.regOf k r) ∧ (∀ k q, (t.thread k).pred q = (s.thread k).pred q) ∧ SameBytes s t ∧ t.ctxs = s.ctxs ∧ MovedOn s t f 1 ∧ P t
      (∀ (j : Fin 8) k, o.imm = BitVec.ofNat 32 (0x020 + j.val) → act.head? = some k → goes (fun t =>
        (t.team f.team).xh[j] = (s.rd k o.a).extractLsb' 0 16 ∧ (∀ i : Fin 8, i ≠ j → (t.team f.team).xh[i] = (s.team f.team).xh[i]) ∧ ∀ k, (t.thread k).fx = (s.thread k).fx)) ∧
      (o.imm = 0 → goes (fun t => ∀ k, (t.thread k).fx = if k ∈ act then s.rd k o.a &&& 0xFF else (s.thread k).fx)) ∧
      ((s.team f.team).handler = true → ∀ tr : Nat → TrapState, (∀ k ∈ act, (s.thread k).trap = some (tr k)) →
        (o.imm = 0x101 → goes (fun t => (∀ k, (t.thread k).fx = (s.thread k).fx) ∧ ∀ k ∈ act, (t.thread k).trap = some { tr k with resume := (tr k).resume.extractLsb' 32 32 ++ s.rd k o.a })) ∧
        (o.imm = 0x102 → goes (fun t => (∀ k, (t.thread k).fx = (s.thread k).fx) ∧ ∀ k ∈ act, (t.thread k).trap = some { tr k with resume := s.rd k o.a ++ (tr k).resume.extractLsb' 0 32 })))
  ) ∧
  (
    ∀ (s : State) (f : Focus) (o : IOp), Calm s f → o.imm = 0x100 → (s.team f.team).handler = true →
      ∃ t, exec (.csrWr o) s = .next t ∧ SameRegs s t ∧ SameBytes s t ∧ (t.team f.team).tcount = (s.team f.team).tcount + 1 ∧
        ∀ k ∈ s.active f (.csrWr o), (s.thread k).st = .ready → s.inside k 1 →
          let old := s.thread k
          (old.rcd.cause ≠ 0x3C0 → (t.thread k).rcd = { old.rcd with cause := (s.rd k o.a).extractLsb' 0 10, late := false, more := false }) ∧
          (∀ tr, old.rcd.cause = 0x3C0 → old.trap = some tr → (t.thread k).trap = some { tr with rcd := { tr.rcd with cause := (s.rd k o.a).extractLsb' 0 10, late := false, more := false } })
  )

/-- R444, R446: the causes of control registers a program may not reach and of `tret` outside the handler: every active thread records the cause and stands at its instruction. -/
def Obligations.PrivilegeCauses : Prop :=
  ∀ (s : State) (f : Focus), Calm s f →
    let raises := fun (i : Instr) (code : Nat) => ∃ t, exec i s = .next t ∧ SameRegs s t ∧ SameBytes s t ∧ ∀ k ∈ s.active f i, Raised s t f k code
    (∀ (o : IOp),
      let n := o.imm.toNat % 4096
      (0x100 ≤ n → n < 0x200 → (s.team f.team).handler = false → raises (.csrRd o) 0x104 ∧ raises (.csrWr o) 0x10C) ∧
      (0x200 ≤ n → n < 0x300 → raises (.csrRd o) 0x105 ∧ raises (.csrWr o) 0x10D) ∧
      (n ∈ [0x001, 0x002, 0x003, 0x010] → raises (.csrWr o) 0x10B) ∧
      (0x103 ≤ n → n < 0x10A → (s.team f.team).handler = true → raises (.csrWr o) 0x10B)) ∧
    (∀ o : ROp, (s.team f.team).handler = false → raises (.tret o) 0x104)

/-- R427 to R433, R445, R447: `trap n` and `brk` record their cause with the instruction's address and its done mask, the team halts, and the threads have gone on. R328, R447: `halt` with no debugger attached, and `log.mark` of a context that keeps no log, have no effect; with a debugger attached `halt` stops its warp and calls the team's halt. -/
def Obligations.TrapsAndHalts : Prop :=
  (
    ∀ (s : State) (f : Focus), Calm s f →
      let records := fun (i : Instr) (code : Nat) => s.active f i ≠ [] → (∀ k ∈ f.threads, (s.thread k).st = .ready) →
        ∃ t, exec i s = .next t ∧ SameRegs s t ∧ SameBytes s t ∧
          ((s.team f.team).life = .resident → (t.team f.team).life = .halting) ∧ (t.warp (wkey f.team f.wid)).halted = true ∧
          ∀ k ∈ s.active f i, s.inside k 1 → (s.thread k).rcd.cause = 0x3C0 →
            (t.thread k).pc = (s.thread k).pc + 8 ∧
            (t.thread k).rcd = { pc := f.pc, addr := 0, addrhi := 0, cause := BitVec.ofNat 10 code, late := false, more := (s.thread k).rcd.more,
                                 done := BitVec.ofNat 32 ((s.active f i).map (fun j => 2 ^ seatOf j)).sum, fx := (s.thread k).fx, skid := (s.thread k).rcd.skid,
                                 token := 0, tcount := (s.team f.team).tcount }
      (∀ o : IOp, records (.trap o) (0x380 + o.imm.toNat % 64)) ∧ (∀ o : ROp, records (.brk o) 0x358)
  ) ∧
  (
    ∀ (s : State) (f : Focus) (o : ROp),
      (Calm s f → CompletesWith (.halt o) s f 1 (fun _ => {}) ∧ CompletesWith (.logMark o) s f 1 (fun _ => {})) ∧
      (Calm (s.updMod (fun m => { m with attached := none })) f → s.attachedTo (s.team f.team) = true → s.mod.bps = [] → s.active f (.halt o) ≠ [] → (s.team f.team).life = .resident →
        ∃ t, exec (.halt o) s = .next t ∧ SameRegs s t ∧ SameBytes s t ∧ (t.team f.team).life = .halting ∧ (t.team f.team).debugCall = 3 ∧ (t.warp (wkey f.team f.wid)).halted = true ∧
          ∀ k ∈ f.threads, (s.thread k).st = .ready → s.inside k 1 → (t.thread k).pc = (s.thread k).pc + 8)
  )

/-- R435: taking the exception: every thread that has not exited saves its resume point, block, stack and region number, and goes to the handler's header; registers, predicates and flags stand. Readings and choices of the model that it rests on: log 52. -/
def Obligations.TrapEntry : Prop :=
  ∀ (s : State) (team : Nat),
    let tm := s.team team
    let t := s.takeTrap team
    let H := tm.lrec.extractLsb' 0 64 + (tm.lrec.extractLsb' (8 * 0x24) 32).signExtend 64 * 8
    (t.team team).handler = true ∧
    (∀ k ∈ teamThreads team tm, (t.team team).prim.toNat / 64 ≤ (s.thread k).shown.cause.toNat / 64) ∧
    SameRegs s t ∧ SameBytes s t ∧
    (∀ k ∈ teamThreads team tm, (s.thread k).st ≠ .exited → t.StandsAt k H ∧ ∃ tr, (t.thread k).trap = some tr ∧
      tr.resume = (s.thread k).pc ∧ tr.saved = (s.thread k).pc ∧ tr.block = (s.thread k).block ∧ tr.stack = (s.thread k).stack ∧ tr.seq = (s.thread k).seq ∧
      tr.rcd = (s.thread k).rcd ∧ tr.wait = (s.thread k).wait ∧ tr.before = (if (s.thread k).st = .switchParked then .ready else (s.thread k).st)) ∧
    (∀ k ∈ teamThreads team tm, (s.thread k).st = .exited → t.thread k = s.thread k)

/-- R446: the last thread's `tret` takes the team out of handler mode; a thread whose resume point names a word of its saved block stands there with its stack and region number, and one that was parked alone (not for other threads of its warp or team), its resume point unchanged, waits again. Before the last, threads park. Readings and choices of the model that it rests on: log 52. -/
def Obligations.TrapReturn : Prop :=
  ∀ (s : State) (f : Focus) (o : ROp) (tr : Nat → TrapState), Calm s f → (s.team f.team).handler = true → f.wid < (s.team f.team).warps →
    (∀ k ∈ f.threads, k ∈ s.active f (.tret o) ∧ (s.thread k).st = .ready ∧ (s.thread k).launchDue = false ∧ (s.thread k).trap = some (tr k)) →
    let rest := (teamThreads f.team (s.team f.team)).filter (fun k => decide ((s.thread k).st ≠ .exited) && !f.threads.contains k)
    ∃ t, exec (.tret o) s = .next t ∧ SameRegs s t ∧ (rest ≠ [] ∨ (∃ k ∈ f.threads, ∀ sw, (tr k).wait ≠ .phase sw) → SameBytes s t) ∧
      (rest = [] → (t.team f.team).handler = false ∧ (t.team f.team).prim = 0x3C0 ∧ ∀ k ∈ f.threads, (t.thread k).trap = none ∧
        ((tr k).before ≠ .parked ∨ (tr k).resume ≠ (tr k).saved →
          (∃ n, 0 < n ∧ n ≤ (tr k).len ∧ (tr k).len < 2 ^ 12 ∧ (tr k).resume = (tr k).block + BitVec.ofNat 64 (8 * n)) →
          (t.thread k).st = .ready ∧ (t.thread k).pc = (tr k).resume ∧ (t.thread k).block = (tr k).block ∧ (t.thread k).stack = (tr k).stack ∧ (t.thread k).seq = (tr k).seq ∧ (t.thread k).rcd = {}) ∧
        ((tr k).before = .parked → (tr k).resume = (tr k).saved → (∀ j ∈ f.threads, (tr j).before = .parked → (tr j).wait.single = true) →
          (t.thread k).st = .parked ∧ (t.thread k).wait = (tr k).wait ∧ (t.thread k).pc = (tr k).resume ∧ (t.thread k).stack = (tr k).stack ∧ (t.thread k).seq = (tr k).seq)) ∧
      (∀ j ∈ rest, (s.thread j).wait ≠ .tret → (t.team f.team).handler = true ∧ ∀ k ∈ f.threads, (t.thread k).st = .parked ∧ (t.thread k).pc = (s.thread k).pc)

/-! ## Memory instructions -/

/-- R209 to R211, R244, R248, R250: loads from the scratchpad, by offset, through the window of a generic pointer, or as a tile: the little-endian bytes at the offset are outstanding, extended by the type. R209, R211, R248: stores to the scratchpad, by offset or through the window: each thread's bytes stand at its offset, those of the highest seat where two threads name one offset; every other byte stands. -/
def Obligations.ScratchpadAccesses : Prop :=
  (
    ∀ (s : State) (f : Focus) (o : MOp), Calm s f → (o.ord = .plain ∨ Scope.code o.scope ≤ 3) →
      let tm := s.team f.team
      let bytes := fun off n => ofBytesNat ((List.range n).map (fun j => Tbl.get tm.spad (off + j)))
      let ok := fun (i : Instr) (off : Nat → Nat) n => ∀ k ∈ s.active f i, tm.fits (off k) n ∧ tm.clean (off k) n
      let n := memBytes o.ty
      let tile := fun k => (s.offset k o / 4 + (if o.dir then 32 else 1) * seatOf k) * 4
      (ok (.ldl o) (fun k => s.offset k o) n → IssuesWith (.ldl o) s f (fun k => effTy o.ty o.d (bytes (s.offset k o) n))) ∧
      (∀ off : Nat → Nat, (∀ k ∈ s.active f (.ld o), s.inWindow k o (off k)) → ok (.ld o) off n → IssuesWith (.ld o) s f (fun k => effTy o.ty o.d (bytes (off k) n))) ∧
      (ok (.ldlTile o) tile 4 → IssuesWith (.ldlTile o) s f (fun k => effTy o.ty o.d (bytes (tile k) 4)))
  ) ∧
  (
    ∀ (s : State) (f : Focus) (o : MOp) (i : Instr) (off : Nat → Nat), Calm s f → s.subs = [] → (o.ord = .plain ∨ Scope.code o.scope ≤ 3) →
      (i = .stl o ∧ (∀ k ∈ s.active f i, off k = s.offset k o)) ∨ (i = .st o ∧ ∀ k ∈ s.active f i, s.inWindow k o (off k)) →
      (∀ k ∈ s.active f i, (s.team f.team).fits (off k) (memBytes o.ty)) →
      let n := memBytes o.ty
      ∃ t, exec i s = .next t ∧ SameRegs s t ∧ MovedOn s t f 1 ∧ (∀ key pa, t.byteAt key pa = s.byteAt key pa) ∧ (∀ c, (t.core c).l1 = (s.core c).l1) ∧
        (∀ k ∈ s.active f i, ∀ j < n, (∀ k' ∈ s.active f i, k < k' → off k' ≠ off k) → Tbl.get (t.team f.team).spad (off k + j) = byteOf (s.word64 k o.ty o.d) j) ∧
        (∀ a, (∀ k ∈ s.active f i, a < off k ∨ off k + n ≤ a) → Tbl.get (t.team f.team).spad a = Tbl.get (s.team f.team).spad a) ∧
        (∀ u, u ≠ f.team → (t.team u).spad = (s.team u).spad)
  )

/-- R251 to R254: an atomic in the scratchpad whose locks are free: the old value is outstanding and the new one stands in its place. Readings and choices of the model that it rests on: log 22. -/
def Obligations.ScratchpadAtomics : Prop :=
  ∀ (s : State) (f : Focus) (o : MOp) (i : Instr) (k off : Nat), Lone s f i k → s.subs = [] → (o.ord = .plain ∨ Scope.code o.scope ≤ 3) →
    let tm := s.team f.team
    let n := memBytes o.ty
    let old := ofBytesNat ((List.range n).map (fun j => Tbl.get tm.spad (off + j)))
    tm.fits off n → tm.clean off n → (∀ l ∈ lockNums off n, ∀ h, Assoc.find (s.core tm.core).locks l = some h → h = k) →
    ∀ new : Nat,
    (∃ op, (i = .atl op o ∧ off = s.offset k o ∨ i = .atom op o ∧ s.inWindow k o off) ∧ new = atomLeaves op o.ty old (s.word64 k o.ty o.b).toNat) ∨
      (i = .atomx o ∧ s.inWindow k o off ∧
        new = (if Ty.wide o.ty then (if old = (pair64 (s.rdAt k o.b 0) (s.rdAt k o.b 1)).toNat then (pair64 (s.rdAt k o.b 2) (s.rdAt k o.b 3)).toNat else old)
               else (if old = (s.rdAt k o.b 0).toNat then (s.rdAt k o.b 1).toNat else old))) →
    ∃ t, exec i s = .next t ∧ Issued s t f i (fun _ => effTy o.ty o.d old) ∧ WentOn s t f 1 ∧
      (∀ j < n, Tbl.get (t.team f.team).spad (off + j) = byteOf (BitVec.ofNat 64 new) j) ∧
      (∀ a, a < off ∨ off + n ≤ a → Tbl.get (t.team f.team).spad a = Tbl.get tm.spad a) ∧
      (∀ key pa, t.byteAt key pa = s.byteAt key pa) ∧ (∀ c, (t.core c).l1 = (s.core c).l1)

/-- R254: an instruction whose lock another thread holds parks, with its offset and operands, its result outstanding; at its warp's next opportunity, its locks free, LOCK_RETRY performs it: an atomic leaves its new value, `ldlk` opens its window, the old value arrives at the thread's result, and the thread goes on. R255: `ldlk` takes its locks, loads and opens the window; `stul` in that window writes, releases every lock of the thread and closes it. Readings and choices of the model that it rests on: log 24. -/
def Obligations.LocksAndWindows : Prop :=
  (
    ∀ (s : State) (k off : Nat) (i : Instr) (o : MOp) (b c : W64) (q : Pending) (v : Nat),
      let w := warpOf k
      let tm := s.team (teamOf k)
      let n := memBytes o.ty
      let old := ofBytesNat ((List.range n).map (fun j => Tbl.get tm.spad (off + j)))
      s.missed = none → s.subs = [] → (s.ctxOf tm).logMode = 0 → s.attachedTo tm = false → (s.mayIssue (teamOf k) (widOf k) = true ∧ s.isNext (teamOf k) (widOf k) = true) →
      (s.thread k).st = .parked → (s.thread k).wait = .lock i off b c → (s.thread k).out = [q] →
      (q.parks = true ∧ q.held = 1 ∧ q.dst = (dstTy o.ty o.d v).filter (fun x => !x.1.1)) →
      (∀ j ∈ warpThreads w, j ≠ k → ∀ i off b c, (s.thread j).wait ≠ .lock i off b c) →
      (∀ l ∈ lockNums off n, ∀ h, Assoc.find (s.core tm.core).locks l = some h → h = k) → (o.ord = .plain ∨ Scope.code o.scope ≤ 3) →
      ∀ new : Nat,
      (∃ op, (i = .atl op o ∨ i = .atom op o) ∧ new = atomLeaves op o.ty old b.toNat) ∨ (i = .atomx o ∧ new = (if old = b.toNat then c.toNat else old)) ∨ (i = .ldlk o ∧ new = old) →
      ∃ t, exec (.lockRetry w) s = .next t ∧ (∀ j < n, Tbl.get (t.team (teamOf k)).spad (off + j) = byteOf (BitVec.ofNat 64 new) j) ∧
        (∀ a, a < off ∨ off + n ≤ a → Tbl.get (t.team (teamOf k)).spad a = Tbl.get tm.spad a) ∧
        (t.thread k).out = [{ q with dst := (dstTy o.ty o.d old).filter (fun x => !x.1.1), held := 0, has := true }] ∧
        (∀ p, (s.warp w).out = [p] → p.tcount = q.tcount → p.held = 1 → p.has = false → p.dst = (dstTy o.ty o.d v).filter (fun x => x.1.1) →
          ∃ p', (t.warp w).out = [p'] ∧ p'.dst = (dstTy o.ty o.d old).filter (fun x => x.1.1) ∧ p'.held = 0) ∧
        (t.thread k).st ≠ .parked ∧ (s.inside k 1 → (t.thread k).pc = (s.thread k).pc + 8) ∧ SameRegs s t ∧
        (i = .ldlk o → s.inside k 1 → (t.thread k).win = some { off := off, width := n, count := 0 } ∧ ∀ l ∈ lockNums off n, Assoc.find (t.core tm.core).locks l = some k)
  ) ∧
  (
    ∀ (s : State) (f : Focus) (o : MOp) (k : Nat), o.ord = .plain →
      let tm := s.team f.team
      let n := memBytes o.ty
      let off := s.offset k o
      let old := ofBytesNat ((List.range n).map (fun j => Tbl.get tm.spad (off + j)))
      (Lone s f (.ldlk o) k → tm.fits off n → tm.clean off n → (∀ l ∈ lockNums off n, ∀ h, Assoc.find (s.core tm.core).locks l = some h → h = k) →
        ∃ t, exec (.ldlk o) s = .next t ∧ Issued s t f (.ldlk o) (fun _ => effTy o.ty o.d old) ∧ SameBytes s t ∧ WentOn s t f 1 ∧
          (s.inside k 1 → (t.thread k).win = some { off := off, width := n, count := 0 } ∧ ∀ l ∈ lockNums off n, Assoc.find (t.core tm.core).locks l = some k)) ∧
      (∀ c, Lone (s.updThread k (fun th => { th with win := none })) f (.stul o) k → (s.thread k).win = some { off := off, width := n, count := c } → s.subs = [] → tm.fits off n →
        ∃ t, exec (.stul o) s = .next t ∧ SameRegs s t ∧ (t.thread k).win = none ∧ (∀ l, Assoc.find (t.core tm.core).locks l ≠ some k) ∧
          (∀ j < n, Tbl.get (t.team f.team).spad (off + j) = byteOf (s.word64 k o.ty o.d) j) ∧
          (∀ a, a < off ∨ off + n ≤ a → Tbl.get (t.team f.team).spad a = Tbl.get tm.spad a) ∧ (∀ key pa, t.byteAt key pa = s.byteAt key pa) ∧ WentOn s t f 1)
  )

/-- R227, R229 to R232, R248: a thread's load and store in memory: a plain load returns what the core sees; an acquire at cluster scope or wider reads the home agent and ends the snapshot; a plain store is seen by the core and pends; a release there stands at the home agent, with every pending byte of the core. -/
def Obligations.MemoryLoadsAndStores : Prop :=
  ∀ (s u : State) (f : Focus) (o : MOp) (k : Nat) (p : Piece),
    let n := memBytes o.ty
    let core := (s.team f.team).core
    let wide := 4 ≤ Scope.code o.scope
    let number := fun (b : Nat → Byte) => ofBytesNat ((List.range n).map (fun j => b (p.pa + j)))
    (Lone s f (.ld o) k → s.reaches1 f k (s.gaddr k o) n .read p u → s.poisoned (p.pa / 128) = false →
      (o.ord = .plain → s.hasRoom core (p.pa / 128) → (∀ l, Assoc.find (s.core core).l1 (p.pa / 128) = some l → l.poison = false) →
        ∃ t, exec (.ld o) s = .next t ∧ Issued s t f (.ld o) (fun _ => effTy o.ty o.d (number (s.seen core p.key))) ∧ WentOn s t f 1 ∧ ∀ key pa, t.byteAt key pa = s.byteAt key pa) ∧
      (o.ord = .acq → wide → p.pa < 2 ^ 52 → Assoc.find (s.core core).l1 (p.pa / 128) = none →
        ∃ t, exec (.ld o) s = .next t ∧ Issued s t f (.ld o) (fun _ => effTy o.ty o.d (number (s.byteAt p.key))) ∧ WentOn s t f 1 ∧ (∀ key pa, t.byteAt key pa = s.byteAt key pa) ∧
          ∀ ln l, Assoc.find (t.core core).l1 ln = some l → l.pend ≠ 0 ∨ 2 ^ 45 ≤ ln)) ∧
    (Lone s f (.st o) k → s.reaches1 f k (s.gaddr k o) n .write p u →
      (o.ord = .plain → s.hasRoom core (p.pa / 128) →
        ∃ t, exec (.st o) s = .next t ∧ SameRegs s t ∧ MovedOn s t f 1 ∧ (∀ j < n, t.seen core p.key (p.pa + j) = byteOf (s.word64 k o.ty o.d) j) ∧
          (∀ j < n, ∃ l, Assoc.find (t.core core).l1 (p.pa / 128) = some l ∧ l.pend.getLsbD (p.pa % 128 + j) = true) ∧
          (∀ key pa, pa < p.pa ∨ p.pa + n ≤ pa → t.seen core key pa = u.seen core key pa) ∧ (∀ key pa, t.byteAt key pa = u.byteAt key pa) ∧
          (∀ c, c ≠ core → (t.core c).l1 = (s.core c).l1)) ∧
      (o.ord = .rel → wide → Quiet s → LinkOpen s → Assoc.find (s.core core).l1 (p.pa / 128) = none →
        ∃ t, exec (.st o) s = .next t ∧ SameRegs s t ∧ MovedOn s t f 1 ∧ (∀ j < n, t.byteAt p.key (p.pa + j) = byteOf (s.word64 k o.ty o.d) j) ∧
          ∀ ln l, Assoc.find (t.core core).l1 ln = some l → l.pend = 0))

/-- R242, R251 to R253: an atomic in memory is one step at its home agent: the old value is outstanding, the new one stands there, and of a plain atomic no other byte differs, as its own key reads the line and as any key reads every other line. -/
def Obligations.MemoryAtomics : Prop :=
  ∀ (s u : State) (f : Focus) (o : MOp) (i : Instr) (k : Nat) (p : Piece), Lone s f i k → Quiet s → LinkOpen s →
    let n := memBytes o.ty
    let core := (s.team f.team).core
    let old := ofBytesNat ((List.range n).map (fun j => u.byteAt p.key (p.pa + j)))
    s.reaches1 f k (s.gaddr k o) n .atomic p u → u.poisoned (p.pa / 128) = false → p.pa < 2 ^ 52 → Assoc.find (s.core core).l1 (p.pa / 128) = none →
    ∀ new : Nat,
    (∃ op, i = .atom op o ∧ new = atomLeaves op o.ty old (s.word64 k o.ty o.b).toNat) ∨
      (i = .atomx o ∧ new = (if Ty.wide o.ty then (if old = (pair64 (s.rdAt k o.b 0) (s.rdAt k o.b 1)).toNat then (pair64 (s.rdAt k o.b 2) (s.rdAt k o.b 3)).toNat else old)
               else (if old = (s.rdAt k o.b 0).toNat then (s.rdAt k o.b 1).toNat else old))) →
    ∃ t, exec i s = .next t ∧ Issued s t f i (fun _ => effTy o.ty o.d old) ∧ WentOn s t f 1 ∧
      (∀ j < n, t.byteAt p.key (p.pa + j) = byteOf (BitVec.ofNat 64 new) j) ∧
      (o.ord = .plain → ∀ key pa, (pa / 128 ≠ p.pa / 128 ∨ key = p.key) → (pa < p.pa ∨ p.pa + n ≤ pa) → t.byteAt key pa = u.byteAt key pa)

/-- R257, R258: `prf` brings the line into the L1 and changes no value; `cl.wb` at cluster scope or wider publishes the line's pending bytes; `cl.inv` does and drops the line; `cl.wb` at core scope does nothing. -/
def Obligations.PrefetchAndCacheLines : Prop :=
  ∀ (s u : State) (f : Focus) (o : MOp) (k : Nat) (p : Piece), p.pa < 2 ^ 52 →
    let core := (s.team f.team).core
    let ln := p.pa / 128
    (Lone s f (.prf o) k → s.reaches1 f k (s.gaddr k o) 1 .read p u → s.hasRoom core ln →
      ∃ t, exec (.prf o) s = .next t ∧ SameRegs s t ∧ MovedOn s t f 1 ∧ (∀ key pa, t.byteAt key pa = s.byteAt key pa) ∧
        (∃ l, Assoc.find (t.core core).l1 ln = some l ∧ l.have_ = BitVec.allOnes 128) ∧ ∀ pa, pa / 128 = ln → t.seen core p.key pa = s.seen core p.key pa) ∧
    (∀ l, Quiet s → LinkOpen s → Assoc.find (s.core core).l1 ln = some l → l.poison = false →
      (Lone s f (.clWb o) k → s.reaches1 f k (s.gaddr k o) 1 .walk p u →
        ∃ t, exec (.clWb o) s = .next t ∧ SameRegs s t ∧ MovedOn s t f 1 ∧
          (4 ≤ Scope.code o.scope → Assoc.find (t.core core).l1 ln = some { l with pend := 0 } ∧ ∀ j < 128, l.pend.getLsbD j = true → t.byteAt l.key (ln * 128 + j) = byteOf l.data j) ∧
          (Scope.code o.scope ≤ 3 → SameBytes s t)) ∧
      (Lone s f (.clInv o) k → s.reaches1 f k (s.gaddr k o) 1 .walk p u →
        ∃ t, exec (.clInv o) s = .next t ∧ SameRegs s t ∧ MovedOn s t f 1 ∧ Assoc.find (t.core core).l1 ln = none ∧
          ∀ j < 128, l.pend.getLsbD j = true → t.byteAt l.key (ln * 128 + j) = byteOf l.data j))

/-- R230, R239, R259, R260: a fence that releases at cluster scope or wider leaves no byte of its core pending; one that acquires there leaves no clean line but the weight store's; a narrower one changes no line; `fence.x` does as its masks say. R226, R261: a thread that performs `phase` parks; with the last one the boundary takes place: the core's L1 is published and empty, the refresh count is 0, and all leave at the next instruction, where a switch marker holds none whose results have arrived (R344). R221, R222, R262: `ret.set` gives range K of the context the lines of the lowest-seated active thread's range, none for length 0, and raises 0x0C3 for a window address; `ret.clr` clears it. Readings and choices of the model that it rests on: log 21. -/
def Obligations.FencesPhasesAndRetention : Prop :=
  (
    ∀ (s : State) (f : Focus) (i : Instr), Calm s f → Quiet s → s.active f i ≠ [] →
      let core := (s.team f.team).core
      let goes := fun (P : State → Prop) => ∃ t, exec i s = .next t ∧ SameRegs s t ∧ MovedOn s t f 1 ∧ P t
      let published := fun (t : State) => ∀ ln l, Assoc.find (t.core core).l1 ln = some l → l.pend = 0
      let dropped := fun (t : State) => ∀ ln l, Assoc.find (t.core core).l1 ln = some l → l.pend ≠ 0 ∨ 2 ^ 45 ≤ ln
      (∀ o : FenceOp, i = .fence o →
        (4 ≤ Scope.code o.scope → goes (fun t => ((o.ord = .rel ∨ o.ord = .acqrel) → published t) ∧ ((o.ord = .acq ∨ o.ord = .acqrel) → dropped t))) ∧
        (Scope.code o.scope ≤ 3 → goes (fun t => SameBytes s t))) ∧
      (∀ o : FenceXOp, i = .fenceX o →
        let engine := fun (m : BitVec 7) => (m.toNat / 2 ≠ 0 : Prop)
        goes (fun t => (o.ps.getLsbD 0 = true → (4 ≤ Scope.code o.scope ∨ engine o.pd) → published t) ∧
          (o.pd.getLsbD 0 = true → (4 ≤ Scope.code o.scope ∨ engine o.ps) → dropped t) ∧
          (o.ps.getLsbD 0 = false → o.pd.getLsbD 0 = false → SameBytes s t)))
  ) ∧
  (
    ∀ (s : State) (f : Focus) (h : Hdr), Calm s f → Quiet s → f.wid < (s.team f.team).warps → (∀ k ∈ f.threads, k ∈ s.active f (.phase h) ∧ (s.thread k).st = .ready) →
      let rest := (teamThreads f.team (s.team f.team)).filter (fun k => decide ((s.thread k).st ≠ .exited) && !f.threads.contains k)
      ∃ t, exec (.phase h) s = .next t ∧ SameRegs s t ∧ (t.team f.team).tcount = (s.team f.team).tcount + 1 ∧
        ((∀ j ∈ rest, (s.thread j).st = .parked ∧ ((s.thread j).wait = .phase false ∨ ((s.thread j).wait = .phase true ∧ (s.thread j).out = [] ∧ (s.warp (warpOf j)).out = []))) →
          (t.team f.team).cref = 0 ∧ (t.team f.team).phaseNo = (s.team f.team).phaseNo + 1 ∧ (∀ ln, Assoc.find (t.core (s.team f.team).core).l1 ln = none) ∧
          ∀ k ∈ f.threads ++ rest, s.inside k 1 → (t.thread k).st = .ready ∧ (t.thread k).pc = (s.thread k).pc + 8) ∧
        ((∃ j ∈ rest, ∀ sw, (s.thread j).wait ≠ .phase sw) → ∀ k ∈ f.threads, (t.thread k).st = .parked ∧ (t.thread k).pc = (s.thread k).pc)
  ) ∧
  (
    ∀ (s : State) (f : Focus) (r : Fin 4), Calm s f →
      let c := ckey (s.team f.team).func (s.team f.team).ctx
      (∀ (o : RetOp) k, (s.active f (.retSet r o)).head? = some k →
        let a : Addr80 := (s.team f.team).xh[o.j] ++ s.rd64 k o.a
        let L := (s.rd k o.b).toNat
        ((s.team f.team).xh[o.j] ≠ 0xFFFF#16 → ∃ t, exec (.retSet r o) s = .next t ∧ SameRegs s t ∧ SameBytes s t ∧ MovedOn s t f 1 ∧
          Assoc.find (t.ctx c).ret r.val = (if L = 0 then none else some (a.toNat / 128, (a.toNat + L - 1) / 128)) ∧ ∀ q, q ≠ r.val → Assoc.find (t.ctx c).ret q = Assoc.find (s.ctx c).ret q) ∧
        ((s.team f.team).xh[o.j] = 0xFFFF#16 → ∃ t, exec (.retSet r o) s = .next t ∧ SameRegs s t ∧ SameBytes s t ∧ (t.ctx c).ret = (s.ctx c).ret ∧
          ∀ k ∈ s.active f (.retSet r o), Raised s t f k 0x0C3)) ∧
      (∀ h : Hdr, s.active f (.retClr r h) ≠ [] → ∃ t, exec (.retClr r h) s = .next t ∧ SameRegs s t ∧ SameBytes s t ∧ MovedOn s t f 1 ∧
        Assoc.find (t.ctx c).ret r.val = none ∧ ∀ q, q ≠ r.val → Assoc.find (t.ctx c).ret q = Assoc.find (s.ctx c).ret q)
  )

/-! ## Chambers, gauges, copies -/

/-- R285 to R290: what `chb.init`, `chb.expect`, `chb.arrive` and `chb.retire` leave in a slot: an update is evaluated at once, and the generation advances when arrivals and bytes both reach their targets. -/
def Obligations.ChamberUpdates : Prop :=
  ∀ (s : State) (f : Focus) (o : ROp) (i : Instr) (k : Nat), Lone s f i k → s.subs = [] →
    let off := (s.rd k o.a).toNat
    let x := (s.rd k o.b).toNat
    let tm := s.team f.team
    let c := tm.chamber off
    let evaluated := fun (c : Chamber) =>
      if c.arr = c.atgt ∧ c.bcnt = c.btgt then { c with gen := (c.gen + 1) % 2 ^ 30, arr := 0, bcnt := 0, btgt := 0 }
      else if c.arr = c.atgt ∧ c.bcnt > c.btgt then { c with fs := true } else c
    let goes := fun (P : State → Prop) => ∃ t, exec i s = .next t ∧ SameRegs s t ∧ MovedOn s t f 1 ∧ (∀ key pa, t.byteAt key pa = s.byteAt key pa) ∧ (∀ c, (t.core c).l1 = (s.core c).l1) ∧
      (∀ a, a < off ∨ off + 16 ≤ a → Tbl.get (t.team f.team).spad a = Tbl.get tm.spad a) ∧ P t
    off % 16 = 0 → off + 16 ≤ tm.spadSize →
    (i = .chbInit o → x ≤ 65535 → off ∉ tm.chambers → s.directoryUse tm.core < 256 → goes (fun t =>
      off ∈ (t.team f.team).chambers ∧ (t.team f.team).chamber off = { gen := 0, fs := false, armed := true, arr := 0, atgt := x, bcnt := 0, btgt := 0 })) ∧
    (i = .chbExpect o → off ∈ tm.chambers → c.btgt + x < 2 ^ 32 → goes (fun t => (t.team f.team).chamber off = evaluated { c with btgt := c.btgt + x })) ∧
    (i = .chbArrive o → off ∈ tm.chambers → c.btgt + x < 2 ^ 32 → goes (fun t =>
      (t.team f.team).chamber off = evaluated (if c.arr < c.atgt then { c with btgt := c.btgt + x, arr := c.arr + 1 } else { c with btgt := c.btgt + x, fs := true }))) ∧
    (i = .chbRetire o → off ∈ tm.chambers → goes (fun t => off ∉ (t.team f.team).chambers ∧ ∀ j < 16, Tbl.get (t.team f.team).spad (off + j) = 0))

/-- R289 to R291: `chb.wait` gives the state word once the generation has passed, and parks before; `chb.test` leaves it outstanding; CHB_WAIT_LEAVE gives it to a parked thread. R292: the causes of chamber instructions: alignment, bounds, not armed, armed already, directory full, count out of range; the slot stands. Readings and choices of the model that it rests on: log 44. -/
def Obligations.ChamberWaits : Prop :=
  (
    ∀ (s : State) (f : Focus) (o : ROp) (i : Instr) (k : Nat),
      let off := (s.rd k o.a).toNat
      let word := fun (c : Chamber) => BitVec.ofNat 32 (c.gen * 4 + (if c.fs then 2 else 0) + (if c.armed then 1 else 0))
      (Lone s f i k →
        let tm := s.team f.team
        let c := tm.chamber off
        let g := (s.rd k o.b).toNat / 4
        off % 16 = 0 → off + 16 ≤ tm.spadSize → off ∈ tm.chambers →
        (i = .chbWait o → c.gen ≠ g → ∃ t, exec i s = .next t ∧ Wrote s t f i (fun _ => eff32 o.d (word c)) ∧ MovedOn s t f 1 ∧ (∀ key pa, t.byteAt key pa = s.byteAt key pa)) ∧
        (i = .chbWait o → c.gen = g → c.fs = false → ∃ t, exec i s = .next t ∧ SameRegs s t ∧ SameBytes s t ∧ (t.thread k).st = .parked ∧ (t.thread k).wait = .chamber off g i ∧ (t.thread k).pc = (s.thread k).pc) ∧
        (i = .chbTest o → ∃ t, exec i s = .next t ∧ Issued s t f i (fun _ => eff32 o.d (word c)) ∧ WentOn s t f 1 ∧ (∀ key pa, t.byteAt key pa = s.byteAt key pa))) ∧
      (∀ off g,
        let tm := s.team (teamOf k)
        let c := tm.chamber off
        s.warpRuns (warpOf k) = true → s.inOrder (warpOf k) = true → s.FirstToLeave k → (s.thread k).st = .parked → (s.thread k).wait = .chamber off g (.chbWait o) → (s.thread k).out = [] → (s.warp (warpOf k)).out = [] →
        off ∈ tm.chambers → c.gen ≠ g →
        ∃ t, exec (.chbWaitLeave k) s = .next t ∧ (∀ p ∈ dstOne o.d (word c), t.regOf k p.1 = p.2) ∧
          (∀ j r, (∀ p ∈ dstOne o.d (word c), p.1 = r → if r.1 then warpOf j ≠ warpOf k else j ≠ k) → t.regOf j r = s.regOf j r) ∧
          (t.thread k).st ≠ .parked ∧ (s.inside k 1 → (t.thread k).pc = (s.thread k).pc + 8) ∧ ∀ key pa, t.byteAt key pa = s.byteAt key pa)
  ) ∧
  (
    ∀ (s : State) (f : Focus) (o : ROp) (i : Instr) (k : Nat), Lone s f i k → s.subs = [] →
      let off := (s.rd k o.a).toNat
      let x := (s.rd k o.b).toNat
      let tm := s.team f.team
      let raises := fun (code : Nat) => ∃ t, exec i s = .next t ∧ SameRegs s t ∧ (t.team f.team).spad = tm.spad ∧ Raised s t f k code
      let any := i ∈ [.chbInit o, .chbExpect o, .chbArrive o, .chbWait o, .chbTest o, .chbRetire o]
      (any → off % 16 ≠ 0 → raises 0x0B4) ∧
      (any → off % 16 = 0 → tm.spadSize < off + 16 → raises 0x0F0) ∧
      (off % 16 = 0 → off + 16 ≤ tm.spadSize →
        (any → i ≠ .chbInit o → off ∉ tm.chambers → raises 0x211) ∧
        (i = .chbInit o → 65535 < x → raises 0x214) ∧
        (i = .chbInit o → x ≤ 65535 → off ∈ tm.chambers → raises 0x212) ∧
        (i = .chbInit o → x ≤ 65535 → off ∉ tm.chambers → 256 ≤ s.directoryUse tm.core → raises 0x213) ∧
        (i = .chbExpect o ∨ i = .chbArrive o → off ∈ tm.chambers → 2 ^ 32 ≤ (tm.chamber off).btgt + x → raises 0x214) ∧
        (i = .chbWait o → off ∈ tm.chambers → (tm.chamber off).gen = (s.rd k o.b).toNat / 4 → (tm.chamber off).fs = true → raises 0x215))
  )

/-- R232, R242, R293, R294: `g.add` adds at the home agent modulo 2^64; `g.read` leaves the value outstanding; `g.wait` gives it once it reaches its target and parks before; G_WAIT_LEAVE reads again. Readings and choices of the model that it rests on: log 22, 25, 27. -/
def Obligations.Gauges : Prop :=
  ∀ (s u : State) (f : Focus) (o : MOp) (i : Instr) (k : Nat) (p : Piece), LinkOpen s → Quiet s → p.pa < 2 ^ 52 →
    let core := (s.team f.team).core
    let number := fun (b : Nat → Byte) => ofBytesNat ((List.range 8).map (fun j => b (p.pa + j)))
    let B := s.rd64 k o.b
    let wide := 4 ≤ Scope.code o.scope
    (s.gaddr k o).extractLsb' 64 16 ≠ 0xFFFF#16 → s.poisoned (p.pa / 128) = false → u.poisoned (p.pa / 128) = false → Assoc.find (s.core core).l1 (p.pa / 128) = none → s.hasRoom core (p.pa / 128) →
    (Lone s f i k → i = .gAdd o → s.reaches1 f k (s.gaddr k o) 8 .atomic p u →
      ∃ t, exec i s = .next t ∧ SameRegs s t ∧ MovedOn s t f 1 ∧ ∀ j < 8, t.byteAt p.key (p.pa + j) = byteOf (BitVec.ofNat 64 (number (u.byteAt p.key) + B.toNat)) j) ∧
    (Lone s f i k → s.reaches1 f k (s.gaddr k o) 8 .read p u →
      let v := number (s.byteAt p.key)
      (i = .gRead o → ∃ t, exec i s = .next t ∧ Issued s t f i (fun _ => eff64 o.d (BitVec.ofNat 64 v)) ∧ WentOn s t f 1 ∧ ∀ key pa, t.byteAt key pa = s.byteAt key pa) ∧
      (i = .gWait o → B.toNat ≤ v → ∃ t, exec i s = .next t ∧ Wrote s t f i (fun _ => eff64 o.d (BitVec.ofNat 64 v)) ∧ MovedOn s t f 1 ∧ ∀ key pa, t.byteAt key pa = s.byteAt key pa) ∧
      (i = .gWait o → v < B.toNat → ∃ t, exec i s = .next t ∧ SameRegs s t ∧ (∀ key pa, t.byteAt key pa = s.byteAt key pa) ∧ (t.thread k).st = .parked ∧ (t.thread k).pc = (s.thread k).pc ∧
        (t.thread k).wait = .gauge i (s.gaddr k o) B (s.team f.team).tcount)) ∧
    (∀ addr target tc, addr.toNat % 8 = 0 → addr.extractLsb' 64 16 ≠ 0xFFFF#16 → s.resolve k addr 8 .read = (.ok (.mem [p]), u) → p.inLine 8 → wide → teamOf k = f.team →
      s.missed = none → s.warpRuns (warpOf k) = true → s.FirstToLeave k → (s.thread k).st = .parked → (s.thread k).wait = .gauge (.gWait o) addr target tc → (s.thread k).out = [] → (s.warp (warpOf k)).out = [] →
      target.toNat ≤ number (s.byteAt p.key) →
      ∃ t, exec (.gWaitLeave k) s = .next t ∧ (∀ q ∈ dstPair o.d (BitVec.ofNat 64 (number (s.byteAt p.key))), t.regOf k q.1 = q.2) ∧ (t.thread k).st ≠ .parked ∧
        (s.inside k 1 → (t.thread k).pc = (s.thread k).pc + 8) ∧ ∀ key pa, t.byteAt key pa = s.byteAt key pa)

/-- R263, R267, R268, R491: `cp.el` makes one copy of the requests of its active threads, under a free id of its core; nothing is copied yet. Readings and choices of the model that it rests on: log 37, 45, 49. -/
def Obligations.CopyOfElements : Prop :=
  ∀ (s : State) (f : Focus) (wlog : Fin 3) (o : XOp) (chamber : Nat → Option Nat) (k0 : Nat), Calm s f →
    let i := Instr.cpEl wlog o
    let tm := s.team f.team
    let w := 2 ^ (wlog.val + 2)
    let S := fun k => (s.team f.team).xh[o.xa] ++ s.rd64 k o.a
    let D := fun k => (s.team f.team).xh[o.xb] ++ s.rd64 k o.b
    (s.active f i).head? = some k0 → s.freeCopies f.team ≠ 0 → tm.xh[o.xa] ≠ 0xFFFF#16 → tm.xh[o.xb] ≠ 0xFFFF#16 →
    (∀ k ∈ s.active f i, (S k).toNat % w = 0 ∧ (D k).toNat % w = 0 ∧
      (match chamber k with | none => s.rd k o.c = 0xFFFFFFFF | some h => s.rd k o.c = BitVec.ofNat 32 h ∧ h < 2 ^ 32 - 1 ∧ h % 16 = 0 ∧ h ∈ tm.chambers)) →
    ∃ t, exec i s = .next t ∧ SameRegs s t ∧ SameBytes s t ∧ MovedOn s t f 1 ∧ (∀ n, n ≠ s.nextId → Assoc.find t.copies n = Assoc.find s.copies n) ∧
      ∃ id, id < 256 ∧ id ∉ s.copyIds tm.core ∧ Assoc.find t.copies s.nextId = some
        { team := f.team, thread := k0, pc := f.pc, tcount := tm.tcount, core := tm.core, id := id, live := true, scope := Scope.code o.scope, packet := 0, isEl := true, width := w, reqs := (s.active f i).map (fun k => (S k, D k, chamber k)), done := BitVec.ofNat 32 ((s.active f i).map (fun j => 2 ^ seatOf j)).sum }

/-- R270 to R273, R281, R491: `cp.blk` reads its packet, from the scratchpad or from memory: a bad one gives its code and no copy, a good one a copy under a free id; `cp.ing` arms the window that its descriptor names, or disarms it. Readings and choices of the model that it rests on: log 49. -/
def Obligations.CopyAndIngressCommands : Prop :=
  ∀ (s v : State) (f : Focus) (o : XOp) (k : Nat) (bs : List Byte), Quiet s →
    let tm := s.team f.team
    let addr := s.xaddr k o.xa o.a
    (Lone s f (.cpBlk o) k → s.ReadsBlock f k addr 64 bs v → blockPlace addr = true → s.freeCopies f.team ≠ 0 → (∀ n, s.nextId ≤ n → Assoc.find s.copies n = none) →
      let packet := ofBytes 512 bs
      let c : Copy := { team := f.team, thread := k, pc := f.pc, tcount := tm.tcount, core := tm.core, id := 0, live := true, scope := Scope.code o.scope, packet := packet, isEl := false, width := 0, reqs := [] }
      let bad := s.packetCode c
      (bad ≠ 0 → ∃ t, exec (.cpBlk o) s = .next t ∧ Issued s t f (.cpBlk o) (fun _ => eff32 o.d (BitVec.ofNat 32 (bad * 2 ^ 24))) ∧ SameBytes v t ∧ WentOn s t f 1 ∧ ∀ n, Assoc.find t.copies n = Assoc.find s.copies n) ∧
      (bad = 0 → ∃ t id, exec (.cpBlk o) s = .next t ∧ id < 256 ∧ id ∉ s.copyIds tm.core ∧
        Issued s t f (.cpBlk o) (fun _ => eff32 o.d (BitVec.ofNat 32 id)) ∧ SameBytes v t ∧ WentOn s t f 1 ∧
        Assoc.find t.copies s.nextId = some { c with id := id, done := BitVec.ofNat 32 (2 ^ seatOf k) } ∧ ∀ n, n ≠ s.nextId → Assoc.find t.copies n = Assoc.find s.copies n)) ∧
    (Lone s f (.cpIng o) k → addr.toNat % 32 ≠ 0 → ∃ t, exec (.cpIng o) s = .next t ∧ Issued s t f (.cpIng o) (fun _ => eff32 o.d 0x01000000) ∧ SameBytes s t ∧ WentOn s t f 1 ∧ t.funcs = s.funcs) ∧
    (Lone s f (.cpIng o) k → s.ReadsBlock f k addr 32 bs v → blockPlace addr = true →
      let d := IngDesc.ofBytes bs
      let bad := s.ingCode f.team d
      ∃ t, exec (.cpIng o) s = .next t ∧ Issued s t f (.cpIng o) (fun _ => eff32 o.d (BitVec.ofNat 32 (bad * 2 ^ 24 + d.slot))) ∧ SameBytes v t ∧ WentOn s t f 1 ∧
        (bad ≠ 0 → t.funcs = s.funcs) ∧
        (bad = 0 → d.kind = 2 → t.ingress tm.func d.slot = { s.ingress tm.func d.slot with armed := false }) ∧
        (bad = 0 → d.kind ≠ 2 → t.ingress tm.func d.slot = { s.ingress tm.func d.slot with armed := true, team := f.team, thread := k, pc := f.pc, armCount := tm.tcount, base := d.base, gptr := d.gptr, kind := d.kind, perWrite := d.perWrite, chamber := d.chamber, scope := d.scope }))

/-- R264, R276 to R279, R295: the engine issues a copy's next barge, performs it once under its tag, acknowledges it in the progress record, sends it again where the acknowledgement was lost, translates it anew where its key is gone (R399), retires the tag of a finished copy, and lays a leaving team's copy in its frame. R242, R278, R492: an engine's gauge add adds its amount at the home agent once; under a tag that the window holds it adds nothing. Readings and choices of the model that it rests on: log 5, 37, 46. -/
def Obligations.CopyEngine : Prop :=
  (
    ∀ (s : State) (n : Nat) (c : Copy), Assoc.find s.copies n = some c →
      let put := fun (s : State) (c : Copy) => ({ s with copies := Assoc.put s.copies n c } : State)
      (∀ seq b u, (s.team c.team).engines = true → c.live = true → c.failed = false → c.suspended = none → s.inFlight c.core < 4096 → c.next = some seq →
        s.makeBarge c (c.lines.getD seq 0) = (.ok b, u) →
        c.low ≤ seq ∧ seq < c.low + 64 ∧ Assoc.find c.barges seq = none ∧ exec (.bargeIssue n) s = .next { u with copies := Assoc.put u.copies n { c with barges := Assoc.put c.barges seq b } }) ∧
      (∀ seq b, Assoc.find c.barges seq = some b →
        let key := (c.core * 256 + c.id) * 2 ^ 32 + seq
        let ln := b.pa / 128
        let put2 := fun (st : Nat) => { c with barges := Assoc.put c.barges seq { b with state := st } }
        (b.state = 1 → b.space = 0 → (Assoc.find s.mod.dedup key).isSome = true → exec (.bargePerform n seq) s = .next (put s (put2 2))) ∧
        (b.state = 1 → b.space = 0 → Assoc.find s.mod.dedup key = none → (8192 ≤ s.tagsAt (homeSlice ln) ∨ s.checkPa b.pa b.key 0 4 false ≠ .ok ()) → exec (.bargePerform n seq) s = .next (put s { c with barges := Assoc.del c.barges seq })) ∧
        (b.state = 1 → b.space = 0 → b.pa < 2 ^ 52 → LinkOpen s → s.checkPa b.pa b.key 0 4 false = .ok () → Assoc.find s.mod.dedup key = none → s.tagsAt (homeSlice ln) < 8192 →
          ∃ t, exec (.bargePerform n seq) s = .next t ∧ t.threads = s.threads ∧ t.cores = s.cores ∧ Assoc.find t.copies n = some (put2 2) ∧ Assoc.find t.mod.dedup key = some (homeSlice ln) ∧
            (∀ j < 128, t.byteAt b.key (ln * 128 + j) = if (c.maskOf b).getLsbD j then byteOf (c.merge b (s.lineAt b.key ln)).1 j else s.byteAt b.key (ln * 128 + j)) ∧
            ∀ k pa, pa / 128 ≠ ln → t.byteAt k pa = s.byteAt k pa) ∧
        (b.state = 2 → Quiet s → s.missed = none → c.low ≤ seq → seq < c.low + 64 → ∃ t c', exec (.bargeAck n seq) s = .next t ∧ (∀ k r, t.regOf k r = s.regOf k r) ∧ (∀ k pa, t.byteAt k pa = s.byteAt k pa) ∧
          Assoc.find t.copies n = some c' ∧ Assoc.find c'.barges seq = none ∧ c.low ≤ c'.low ∧ (seq < c'.low ∨ c'.map.getLsbD (seq - c'.low) = true)) ∧
        (b.state = 2 → b.space = 0 → exec (.bargeResend n seq) s = .next (put s (put2 1)))) ∧
      (s.copyDone n c = true → exec (.tagRetire n) s = .next { s with copies := Assoc.del s.copies n, mod := if c.live then { s.mod with dedup := s.mod.dedup.filter (fun p => decide (p.1 / 2 ^ 32 ≠ c.core * 256 + c.id)) } else s.mod }) ∧
      (c.live = true → (s.team c.team).engines = false → c.barges = [] → ∃ t, exec (.copySave n) s = .next t ∧ SameTeams s t ∧ t.mem = s.mem ∧
        (∀ p ∈ t.mod.dedup, p.1 / 2 ^ 32 ≠ c.core * 256 + c.id) ∧
        (if s.copyDone n c then Assoc.find t.copies n = none else ∃ c', Assoc.find t.copies n = some c' ∧ c'.live = false ∧ c'.suspended = none ∧ c'.low = c.low ∧ c'.map = c.map ∧ c'.packet = c.packet ∧ c'.reqs = c.reqs))
  ) ∧
  (
    ∀ (s u : State) (n : Nat) (g : GAdd) (pa key : Nat) (sealed : Bool) (fr : Frame2) (gpa : Nat), Assoc.find s.gadds n = some g → g.token = none → g.raise = none → s.gaddFirst n g = true → Quiet s → s.missed = none → LinkOpen s →
      s.translateW deviceAgent (ckey g.func g.ctx) g.addr.toNat .atomic = (.ok pa key sealed fr gpa, u) → pa % 128 + 8 ≤ 128 → pa < 2 ^ 52 →
      let old := ofBytesNat ((List.range 8).map (fun j => u.byteAt key (pa + j)))
      ∃ t, exec (.engineGaugeAdd n) s = .next t ∧ t.threads = s.threads ∧
        (g.tag = none → Assoc.find t.gadds n = none ∧ ∀ j < 8, t.byteAt key (pa + j) = byteOf (BitVec.ofNat 64 (old + g.amount)) j) ∧
        (∀ core id, g.tag = some (core, id) → (Assoc.find s.mod.dedup ((core * 256 + id) * 2 ^ 32 + 0xFFFFFFFF)).isSome = true → Assoc.find t.gadds n = none ∧ ∀ k pa, t.byteAt k pa = u.byteAt k pa)
  )

/-- R280 to R283: a write of a window's BAR register enables, disables or keeps it; a host write into an armed window lands at the window's base and signals, one into a disarmed window is dropped and counted. -/
def Obligations.IngressWindows : Prop :=
  ∀ (s : State) (func slot : Nat), s.hostOpen = true → slot < 64 →
    let w := s.ingress func slot
    let start := (w.bar.extractLsb' 16 48).toNat * 65536
    (∀ v : W64, ∃ t, exec (.iwBarWrite func slot v) s = .next t ∧ SameTeams s t ∧ t.mem = s.mem ∧ (∀ i, i ≠ slot → t.ingress func i = s.ingress func i) ∧ t.ingress func slot =
      (if w.bar.getLsbD 0 then (if v.getLsbD 0 then w else { w with bar := w.bar &&& ~~~1#64, armed := false })
       else if v.getLsbD 0 then { w with bar := v &&& 0xFFFFFFFFFFFF0001#64, drops := 0, reason := 0, dropPosted := false }
       else { w with bar := v &&& 0xFFFFFFFFFFFF0001#64 })) ∧
    (∀ offset (data : List Byte), (∀ i < slot, (s.ingress func i).bar.getLsbD 0 = false) → w.bar.getLsbD 0 = true → start ≤ offset → offset < start + (w.size + 1) * 65536 → s.missed = none → Quiet s → (s.func func).iwHeld = [] →
      (w.armed = false → ∃ t, exec (.ingressWrite func offset data) s = .next t ∧ SameTeams s t ∧ t.mem = s.mem ∧ (t.ingress func slot).drops = min (w.drops + 1) 0xFFFFFFFF ∧
        (t.ingress func slot).reason = 4 ∧ (t.ingress func slot).dropPosted = true) ∧
      (∀ pa key sealed fr gpa u, w.armed = true → w.kind = 0 → data ≠ [] → offset + data.length ≤ start + (w.size + 1) * 65536 →
        let va := w.base.toNat + (offset - start)
        va % 128 + data.length ≤ 128 → pa % 128 = va % 128 → pa < 2 ^ 52 → LinkOpen s → s.translateW deviceAgent (ckey func (s.team w.team).ctx) va .write = (.ok pa key sealed fr gpa, u) →
        ∃ t, exec (.ingressWrite func offset data) s = .next t ∧ t.threads = s.threads ∧ (∀ j b, data[j]? = some b → t.byteAt key (pa + j) = b) ∧
          (∀ q, q / 128 ≠ pa / 128 → ∀ k, t.byteAt k q = u.byteAt k q) ∧
          ∃ g, Assoc.find t.gadds u.nextId = some g ∧ g.addr = w.gptr ∧ g.amount = (if w.perWrite then 1 else data.length) ∧ g.path = 4))

/-! ## Matrix engine, traversal -/

/-- R158, R161, R167 to R170, R175, R178: `mx.issue` reads its block, refuses it with the code of its first failed check, or queues an operation with the team's next ticket and its status in the block; `mx.stat` gives the status word of the team's live operation at an address; `mx.abort` asks a live one to stop. Readings and choices of the model that it rests on: log 47. -/
def Obligations.MatrixCommands : Prop :=
  ∀ (s v : State) (f : Focus) (o : XOp) (k : Nat) (bs : List Byte),
    let tm := s.team f.team
    let addr := s.xaddr k o.xa o.a
    let block := ofBytes 1024 bs
    let code := s.mxCode f.team addr block
    let mine := s.mops.find? (fun p => decide (p.2.team = f.team) && decide (p.2.blockAddr = addr) && p.2.live)
    (Lone s f (.mxIssue o) k → Quiet s → s.ReadsBlock f k addr 128 bs v → blockPlace addr = true → s.freeEntries f.team ≠ 0 → (∀ n, s.nextId ≤ n → Assoc.find s.mops n = none) →
      (code ≠ 0 → ∃ t, exec (.mxIssue o) s = .next t ∧ Issued s t f (.mxIssue o) (fun _ => eff32 o.d (BitVec.ofNat 32 (code * 2 ^ 24))) ∧ SameBytes v t ∧ WentOn s t f 1 ∧ ∀ n, Assoc.find t.mops n = Assoc.find s.mops n) ∧
      (∀ sa, code = 0 → tm.onCore tm.core = true → decodeAddr (addTo addr 0x78) = .spad sa → mbDrain block = 0 →
        let op : MxOp := { team := f.team, thread := k, pc := f.pc, tcount := tm.tcount, cluster := clusterOf tm.core, core := tm.core, blockAddr := addr, block := block, scope := Scope.code o.scope, ticket := tm.ticket, order := s.nextId, state := 1, done := BitVec.ofNat 32 (2 ^ seatOf k) }
        let status : W64 := BitVec.ofNat 64 (2 ^ 56 + tm.ticket % 2 ^ 16 * 2 ^ 32)
        ∃ t, exec (.mxIssue o) s = .next t ∧ Issued s t f (.mxIssue o) (fun _ => eff32 o.d (BitVec.ofNat 32 tm.ticket)) ∧ WentOn s t f 1 ∧ (t.team f.team).ticket = (tm.ticket + 1) % 2 ^ 16 ∧
          Assoc.find t.mops s.nextId = some op ∧ (∀ n, n ≠ s.nextId → Assoc.find t.mops n = Assoc.find s.mops n) ∧ (∀ key pa, t.byteAt key pa = v.byteAt key pa) ∧
          (∀ j < 8, Tbl.get (t.team f.team).spad (sa + j) = byteOf status j) ∧ ∀ a, a < sa ∨ sa + 8 ≤ a → Tbl.get (t.team f.team).spad a = Tbl.get tm.spad a)) ∧
    (Lone s f (.mxStat o) k → ∃ t, exec (.mxStat o) s = .next t ∧ Issued s t f (.mxStat o) (fun _ => eff64 o.d (match mine with | some p => p.2.word | none => 0)) ∧ SameBytes s t ∧ WentOn s t f 1 ∧ t.mops = s.mops) ∧
    (Lone s f (.mxAbort o) k →
      (∀ n op, mine = some (n, op) → ∃ t, exec (.mxAbort o) s = .next t ∧ Issued s t f (.mxAbort o) (fun _ => eff64 o.d op.word) ∧ SameBytes s t ∧ WentOn s t f 1 ∧
        Assoc.find t.mops n = some { op with abort := true } ∧ ∀ m, m ≠ n → Assoc.find t.mops m = Assoc.find s.mops m) ∧
      (mine = none → ∃ t, exec (.mxAbort o) s = .next t ∧ Issued s t f (.mxAbort o) (fun _ => eff64 o.d 0) ∧ SameBytes s t ∧ WentOn s t f 1 ∧ t.mops = s.mops))

/-- R96, R159, R166, R171, R173, R175, R178: the arbiter's operation computes its next rows, at most sixteen, drains them and shows its progress; an integer element is the exact sum modulo 2^32; an operation is saved or aborted at its row boundary and re-enters in acceptance order. R97, R177, R468: a collective commits once every slot is complete and its group active: each element is the sum of the members' contributions in ascending member order, written over slot 0, and the collective is gone; before that nothing happens to it where every member is one of this module's. Readings and choices of the model that it rests on: log 18, 48, 50. -/
def Obligations.MatrixEngine : Prop :=
  (
    ∀ (s : State) (id : Nat) (o : MxOp) (sa : Nat), Assoc.find s.mops id = some o → decodeAddr (addTo o.blockAddr 0x78) = .spad sa → o.coll = none → mbInc o.block = 0 → s.missed = none → (s.team o.team).onCore (s.team o.team).core = true →
      let owed := if 16 ≤ o.redo then o.redo else 0
      let shown := fun (t : State) (st rows : Nat) (nan ovf sn : Bool) => ∀ j < 8, Tbl.get (t.team o.team).spad (sa + j) =
        byteOf (BitVec.ofNat 64 (st * 2 ^ 56 + b2n nan * 2 ^ 55 + b2n ovf * 2 ^ 54 + b2n sn * 2 ^ 53 + o.ticket % 2 ^ 16 * 2 ^ 32 + rows % 512) : W64) j
      (∀ cluster x u (da : Nat → Nat), s.mxPick cluster = some (id, o) → o.redo < 16 → mbChen o.block = false →
        let n := Nat.min 16 (mbM o.block - o.rows)
        let r := mxCompute o.block x n
        let len := mbE o.block * mbN o.block
        s.mxGather o o.rows n = (.ok x, u) → (∀ i < n, decodeAddr (o.rowAddr (o.rows + i)) = .spad (da i) ∧ (da i + len ≤ sa ∨ sa + 8 ≤ da i) ∧ ∀ j < i, da i + len ≤ da j ∨ da j + len ≤ da i) →
        ∃ t, exec (.mxRowStep cluster) s = .next t ∧ SameRegs s t ∧ t.mem = u.mem ∧
          (∀ i < n, ∀ j b, ((r.rows.getD i [])[j]?) = some b → Tbl.get (t.team o.team).spad (da i + j) = b) ∧
          (mbM o.block ≤ o.rows + n → Assoc.find t.mops id = none ∧ shown t 0x10 (o.rows + n) (o.nan || r.nan) (o.ovf || r.ovf) (o.sn || r.sn)) ∧
          (o.rows + n < mbM o.block → Assoc.find t.mops id = some { o with rows := o.rows + n, state := 2, nan := o.nan || r.nan, ovf := o.ovf || r.ovf, sn := o.sn || r.sn, redo := 0 } ∧
            shown t 2 (o.rows + n) (o.nan || r.nan) (o.ovf || r.ovf) (o.sn || r.sn))) ∧
      (∀ (x : MxIn) (i j : Nat), mxIsInt (mbAt o.block) = true →
        let v := fun (code y : Nat) => if code = 1 then (BitVec.ofNat 8 y).toInt else (y : Int)
        let c := ofBytesNat (((x.c.getD i []).drop (4 * j)).take 4)
        (mxElement o.block x i j).1 = (((c : Int) + (((x.a.getD i []).zip (x.b.getD j [])).map (fun (p : Nat × Nat) => v (mbAt o.block) p.1 * v (mbBt o.block) p.2)).sum) % 2 ^ 32).toNat) ∧
      (o.abort = true → o.live = true → o.redo < 16 → ∃ t, exec (.mxSave id) s = .next t ∧ Assoc.find t.mops id = none ∧ shown t 0x11 o.rows o.nan o.ovf o.sn ∧ t.mem = s.mem ∧ SameRegs s t) ∧
      (o.abort = false → 1 ≤ o.state → o.state ≤ 3 → (s.team o.team).engines = false →
        ∃ t, exec (.mxSave id) s = .next t ∧ Assoc.find t.mops id = some { o with state := 4, token := none, due := false, redo := owed } ∧ shown t 4 o.rows o.nan o.ovf o.sn ∧ t.mem = s.mem ∧ SameRegs s t) ∧
      (o.state = 4 → (s.team o.team).engines = true → (∀ n (p : MxOp), (n, p) ∈ s.mops → p.team = o.team → p.state = 4 → id ≤ n) → s.entriesUsed (s.team o.team).core < 8 →
        let core := (s.team o.team).core
        ∃ t, exec (.mxReentry id) s = .next t ∧ Assoc.find t.mops id = some { o with state := 1, core := core, cluster := clusterOf core, order := s.nextId, redo := owed } ∧ shown t 1 o.rows o.nan o.ovf o.sn ∧ t.mem = s.mem ∧ SameRegs s t)
  ) ∧
  (
    ∀ (s : State) (id : Nat) (c : Coll), Assoc.find s.colls id = some c →
      let open_ := (s.group c.group).state = 2 ∧ c.failed = false ∧ c.token = none
      let core := s.collCore id
      let ctx := ckey c.func c.ctx
      (¬ open_ → exec (.collectiveCommit id) s = .next s) ∧
      (open_ → c.complete.length ≠ c.count + 1 → (∀ m ≤ c.count, m ∈ c.members) → ∃ t, exec (.collectiveCommit id) s = .next t ∧ t.colls = s.colls ∧ t.mops = s.mops ∧ t.mem = s.mem ∧ SameTeams s t) ∧
      (∀ slots u ds w, open_ → c.complete.length = c.count + 1 → s.readSlots core c (List.range (c.count + 1)) = (.ok (slots, false), u) →
        let element := fun (i : Nat) =>
          let xs := slots.map (fun b => ofBytesNat ((b.drop (4 * i)).take 4))
          xs.tail.foldl (fun acc y => if c.dtype = 3 then (acc + y) % 2 ^ 32 else (Fmt.f32.add .rn false acc y).1) (xs.headD 0)
        u.globalPlaces ctx c.base.toNat (((List.range (c.m * c.n)).map (fun i => toBytes (BitVec.ofNat 32 (element i)) 4)).flatten) = (.ok ds, w) →
        (∀ n ∈ s.collMembers id, ∀ p, Assoc.find s.mops n = some p → mbInc p.block = 0 ∧ (s.team p.team).onCore (s.team p.team).core = true ∧ ∃ sa, decodeAddr p.statusAt = .spad sa) →
        ∃ t, exec (.collectiveCommit id) s = .next t ∧ t.mem = (ds.foldl (fun s d => s.drainOne core ctx 0 false d) w).mem ∧ SameRegs s t ∧ Assoc.find t.colls id = none ∧ ∀ n, n ≠ id → Assoc.find t.colls n = Assoc.find s.colls n)
  )

/-- R182, R197, R198, R203: `trv.bind` reads and checks a layout and a microcode image and binds them; `trv.cast` makes a running ray of the thread's group under the lowest free handle; `trv.load` makes one of a record; each gives the code of its first failed check and does nothing else. Readings and choices of the model that it rests on: log 34. -/
def Obligations.RayMakers : Prop :=
  ∀ (s v : State) (f : Focus) (o : XOp) (k : Nat), Quiet s →
    let tm := s.team f.team
    let gives := fun (i : Instr) (x : W32) (P : State → Prop) => ∃ t, exec i s = .next t ∧ Issued s t f i (fun _ => eff32 o.d x) ∧ WentOn s t f 1 ∧ P t
    let code := fun (c : Nat) => BitVec.ofNat 32 (c * 2 ^ 24)
    let free := (∃ h < 512, s.rayBy f.team h = none) ∧ s.freeRays f.team ≠ 0
    (Lone s f (.trvBind o) k →
      let la := s.xaddr k o.xa o.a
      let ia := s.xaddr k o.xb o.b
      let same := fun (v t : State) => SameBytes v t ∧ (t.team f.team).binding = tm.binding
      (la.toNat % 8 ≠ 0 ∨ ia.toNat % 256 ≠ 0 → gives (.trvBind o) (code 1) (same s)) ∧
      (∀ x y u1 u2 v1 lb ib, blockPlace la = true → blockPlace ia = true → (s.startIssue f.threads).blockCheck k la 8 = (.ok x, u1) → u1.blockCheck k ia 256 = (.ok y, u2) →
        u2.readBlock k x 8 = (.ok lb, v1) → v1.readBlock k y 256 = (.ok ib, v) →
        let bad := fun (n : Nat) => decide (0xE0000000#32 ≤ ofBytes 32 ((ib.drop (4 * n)).take 4)) || (ofBytes 32 ((ib.drop (4 * n)).take 4) &&& 0x0800FFC0#32 != 0)
        (layOk (ofBytes 64 lb) = false → gives (.trvBind o) (code 2) (same v)) ∧
        (∀ n, layOk (ofBytes 64 lb) = true → n < 64 → bad n = true → (∀ m < n, bad m = false) → gives (.trvBind o) (code 3 + BitVec.ofNat 32 n) (same v)) ∧
        (layOk (ofBytes 64 lb) = true → (∀ n < 64, bad n = false) →
          ((∃ p ∈ s.rays, p.2.team = f.team) → gives (.trvBind o) (code 4) (same v)) ∧
          ((∀ p ∈ s.rays, p.2.team ≠ f.team) → gives (.trvBind o) 0 (fun t => SameBytes v t ∧ (t.team f.team).binding = some { layout := ofBytes 64 lb, image := ofBytes 2048 ib, imageAddr := ia, bcheck := crc32 (lb ++ ib) }))))) ∧
    (Lone s f (.trvCast o) k → free →
      let g := s.rdGroup k o.a 16
      let h := s.newHandle f.team
      let r := castRay f.team h g (s.rd k o.b)
      let c := castCode tm.binding g (s.rd k o.b) r
      (c ≠ 0 → gives (.trvCast o) (code c) (fun t => SameBytes s t ∧ t.rays = s.rays)) ∧
      (c = 0 → h < 512 ∧ s.rayBy f.team h = none ∧ (∀ j < h, s.rayBy f.team j ≠ none) ∧
        gives (.trvCast o) (BitVec.ofNat 32 h) (fun t => SameBytes s t ∧ Assoc.find t.rays s.nextId = some r ∧ ∀ n, n ≠ s.nextId → Assoc.find t.rays n = Assoc.find s.rays n))) ∧
    (Lone s f (.trvLoad o) k → free →
      let area := s.xaddr k o.xa o.a
      (tm.binding = none → gives (.trvLoad o) (code 1) (fun t => SameBytes s t ∧ t.rays = s.rays)) ∧
      (∀ b, tm.binding = some b →
        let fits := area.toNat % 128 = 0 ∧ globalRange area (128 + 4 * layLimit b.layout) = true
        (¬ fits → gives (.trvLoad o) (code 4) (fun t => SameBytes s t ∧ t.rays = s.rays)) ∧
        (∀ bs, fits → s.ReadsBlock f k area 128 bs v → (∀ p ∈ (v.ctx (ckey tm.func tm.ctx)).parks, p.area ≠ area) →
          let r := rayOfRecord bs f.team (s.newHandle f.team) area (layLimit b.layout)
          (recWord bs 0x74 ≠ b.bcheck → gives (.trvLoad o) (code 2) (fun t => SameBytes v t ∧ t.rays = s.rays)) ∧
          (recWord bs 0x74 = b.bcheck → r.1 = false → gives (.trvLoad o) (code 3) (fun t => SameBytes v t ∧ t.rays = s.rays)) ∧
          (recWord bs 0x74 = b.bcheck → r.1 = true → bit (recWord bs 0x48) 19 = false → gives (.trvLoad o) (BitVec.ofNat 32 (s.newHandle f.team)) (fun t => ∃ n, Assoc.find t.rays n = some r.2)))))

/-- R189, R199 to R202: `trv.poll` gives a snapshot; `trv.res` gives the result of a ray that does not run, frees a finished one, waits for a running one and raises the fault of a parked one; `trv.cont` applies the decision to a candidate; `trv.save` asks for a save. Readings and choices of the model that it rests on: log 33, 41. -/
def Obligations.RayResults : Prop :=
  ∀ (s : State) (f : Focus) (o : XOp) (k id : Nat) (r : Ray),
    let h := (s.rd k o.a).toNat % 512
    let tc := (s.team f.team).tcount
    let same := fun (t : State) => ∀ key pa, t.byteAt key pa = s.byteAt key pa
    let group := fun (r : Ray) =>
      [BitVec.ofNat 32 (r.state + (if r.state = 3 ∨ r.state = 5 then r.code.toNat else 0) * 2 ^ 8 + (if r.found then 2 ^ 16 else 0))]
        ++ (if r.state = 2 then r.cand.toList else if r.found then r.best.toList else [0, 0, 0, 0, 0]) ++ [BitVec.ofNat 32 r.nodes, BitVec.ofNat 32 r.tests]
    let zero : List W32 := [0, 0, 0, 0, 0, 0, 0, 0]
    let eff := fun (ws : List W32) => ({ regs := dstGroup o.d ws } : Eff)
    (s.rayBy f.team h = none →
      (Lone s f (.trvPoll o) k → ∃ t, exec (.trvPoll o) s = .next t ∧ Issued s t f (.trvPoll o) (fun _ => eff zero) ∧ WentOn s t f 1 ∧ SameBytes s t ∧ t.rays = s.rays) ∧
      (Lone s f (.trvRes o) k → ∃ t, exec (.trvRes o) s = .next t ∧ Wrote s t f (.trvRes o) (fun _ => eff zero) ∧ MovedOn s t f 1 ∧ SameBytes s t ∧ t.rays = s.rays) ∧
      (Lone s f (.trvCont o) k → ∃ t, exec (.trvCont o) s = .next t ∧ SameRegs s t ∧ MovedOn s t f 1 ∧ SameBytes s t ∧ t.rays = s.rays) ∧
      (Lone s f (.trvSave o) k → ∃ t, exec (.trvSave o) s = .next t ∧ (∀ k r, t.regOf k r = s.regOf k r) ∧ (∃ p, (t.thread k).out = [p] ∧ p.held = 0 ∧ p.dst = (dstOne o.d 0x01000000).filter (fun q => !q.1.1)) ∧ WentOn s t f 1 ∧ SameBytes s t ∧ t.rays = s.rays)) ∧
    (s.rayBy f.team h = some id → Assoc.find s.rays id = some r → r.saved = 0 →
      (Lone s f (.trvPoll o) k → ∃ t, exec (.trvPoll o) s = .next t ∧ Issued s t f (.trvPoll o) (fun _ => eff (group r)) ∧ WentOn s t f 1 ∧ same t ∧ t.rays = s.rays) ∧
      (Lone s f (.trvRes o) k →
        (r.state = 1 → ∃ t, exec (.trvRes o) s = .next t ∧ SameRegs s t ∧ SameBytes s t ∧ (t.thread k).st = .parked ∧ (t.thread k).wait = .ray h (.trvRes o) tc ∧ (t.thread k).pc = (s.thread k).pc) ∧
        (r.state = 2 ∨ r.state = 3 ∨ r.state = 5 → ∃ t, exec (.trvRes o) s = .next t ∧ Wrote s t f (.trvRes o) (fun _ => eff (group r)) ∧ MovedOn s t f 1 ∧ same t ∧ Assoc.find t.rays id = if r.state = 2 then some r else none) ∧
        (r.state = 4 → ∃ t, exec (.trvRes o) s = .next t ∧ SameRegs s t ∧ same t ∧ Raised s t f k (r.faultCode % 1024))) ∧
      (Lone s f (.trvCont o) k →
        let d := (s.rd k o.b).toNat % 4
        let taken := if d = 1 ∨ d = 2 then r.offer r.cand else r
        let after := if taken.state = 3 then taken else if 2 ≤ d then { taken with state := 3, code := 0 } else taken.resumeTri
        ∃ t, exec (.trvCont o) s = .next t ∧ SameRegs s t ∧ MovedOn s t f 1 ∧ SameBytes s t ∧ Assoc.find t.rays id = some (if r.state = 2 ∧ r.decision = none then after else r)) ∧
      (Lone s f (.trvSave o) k →
        let now := r.state = 3 ∨ r.state = 5
        let x : W32 := 0x02000000 + BitVec.ofNat 32 r.state
        ∃ t p, exec (.trvSave o) s = .next t ∧ (∀ k r, t.regOf k r = s.regOf k r) ∧ WentOn s t f 1 ∧ SameBytes s t ∧ (t.thread k).out = [p] ∧ p.tcount = tc ∧
          (now → p.held = 0 ∧ p.dst = (dstOne o.d x).filter (fun q => !q.1.1) ∧ t.rays = s.rays) ∧
          (¬ now → p.held = 1 ∧ p.dst.map (fun q => q.1) = ((dstOne o.d 0).filter (fun q => !q.1.1)).map (fun q => q.1) ∧ Assoc.find t.rays id = some { r with saveReq := r.saveReq ++ [(k, tc)] })))

/-- R199, R202, R206: a thread that waits on a ray leaves with the result once the ray does not run; a ray asked for its save answers the first that asked at its boundary; rays of a leaving team go into its frame and come back under their handles. Readings and choices of the model that it rests on: log 5, 33. -/
def Obligations.RayEvents : Prop :=
  ∀ (s : State) (id : Nat) (r : Ray), Assoc.find s.rays id = some r → s.missed = none → Quiet s →
    let tm := s.team r.team
    (∀ k (o : XOp) h tc, s.warpRuns (warpOf k) = true → (s.thread k).st = .parked → (s.thread k).wait = .ray h (.trvRes o) tc → (s.thread k).out = [] → (s.warp (warpOf k)).out = [] → s.FirstToLeave k → s.rayBy (teamOf k) h = some id → r.saved = 0 →
      (r.state = 1 → exec (.trvResLeave k) s = .next s) ∧
      (r.state = 2 ∨ r.state = 3 ∨ r.state = 5 → ∃ t, exec (.trvResLeave k) s = .next t ∧ (∀ p ∈ dstGroup o.d r.result, t.regOf k p.1 = p.2) ∧ (t.thread k).st ≠ .parked ∧
        (s.inside k 1 → (t.thread k).pc = (s.thread k).pc + 8) ∧ (∀ key pa, t.byteAt key pa = s.byteAt key pa) ∧ Assoc.find t.rays id = if r.state = 2 then some r else none)) ∧
    (∀ k tc p rest, r.saveReq = (k, tc) :: rest → (∀ q ∈ rest, q.1 ≠ k) → r.saved = 0 → (s.thread k).out = [p] → p.tcount = tc → p.held ≠ 0 →
      let answered := fun (t : State) (x : W32) => (t.thread k).out = [{ p with dst := p.dst.map (fun d => (d.1, x)), held := p.held - 1, has := true }] ∧ ∀ j q, t.regOf j q = s.regOf j q
      (r.state = 4 → ∃ t, exec (.raySave id) s = .next t ∧ answered t 4 ∧ Assoc.find t.rays id = none ∧ t.mem = s.mem) ∧
      (r.state = 3 ∨ r.state = 5 → ∃ t, exec (.raySave id) s = .next t ∧ answered t (0x02000000 + BitVec.ofNat 32 r.state) ∧ Assoc.find t.rays id = some { r with saveReq := [] } ∧ t.mem = s.mem) ∧
      (∀ r' u, r.state = 1 ∨ r.state = 2 → s.writeRay r r.state = (true, r', u) → ∃ t, exec (.raySave id) s = .next t ∧ answered t (BitVec.ofNat 32 r.state) ∧ Assoc.find t.rays id = none ∧ t.mem = u.mem) ∧
      (∀ r' u, r.state = 1 ∨ r.state = 2 → s.writeRay r r.state = (false, r', u) → ∃ t, exec (.raySave id) s = .next t ∧ answered t 0x03000005 ∧
        Assoc.find t.rays id = some { r' with state := 5, code := 6, saveReq := [] } ∧ t.mem = u.mem)) ∧
    (r.saveReq = [] → r.saved = 0 → tm.saveAs.isSome = true →
      (r.state = 3 ∨ r.state = 5 → exec (.raySave id) s = .next { s with rays := Assoc.put s.rays id { r with saved := 2 } }) ∧
      (r.state = 4 → exec (.raySave id) s = .next { s with rays := Assoc.put s.rays id { r with saved := 1 } }) ∧
      (∀ r' u, r.state = 1 ∨ r.state = 2 → s.writeRay r r.state = (true, r', u) → exec (.raySave id) s = .next { u with rays := Assoc.put u.rays id { r' with saved := 1 } })) ∧
    (tm.onCore tm.core = true → tm.saveAs = none → (∀ n (p : Ray), (n, p) ∈ s.rays → p.team = r.team → p.saved ≠ 0 → r.handle ≤ p.handle) → s.raysIn tm.core < 512 →
      (r.saved = 2 → exec (.rayReentry id) s = .next { s with rays := Assoc.put s.rays id { r with saved := 0 } }) ∧
      (r.saved = 1 → tm.binding = none → exec (.rayReentry id) s = .next { s with rays := Assoc.put s.rays id { r with state := 5, code := 1, saved := 0 } }) ∧
      (∀ b bs u, r.saved = 1 → tm.binding = some b → r.decision = none → r.area.toNat % 128 = 0 → globalRange r.area (128 + 4 * layLimit b.layout) = true →
        (∀ p ∈ (u.ctx (ckey tm.func tm.ctx)).parks, p.area ≠ r.area) → s.engRead tm.core (ckey tm.func tm.ctx) r.area.toNat 128 .read = (.ok (bs, false), u) →
        let y := rayOfRecord bs r.team r.handle r.area (layLimit b.layout)
        y.1 = true → bit (recWord bs 0x48) 19 = false → exec (.rayReentry id) s = .next { u with rays := Assoc.put u.rays id { y.2 with saved := 0, saveReq := r.saveReq } }))

/-- R181 to R185, R190 to R194: the micro-operations that read no memory. Each counts, goes to the next microword or to its target, and fails the ray past word 63. R181, R186 to R189, R192 to R194, R205: the micro-operations that read memory: `fetch` buffers the node at N, `tri` tests the record at a leaf, `pop` refills an empty resident stack; a failed read fails the ray with its reason, and one whose page may be supplied parks it with its record written. Readings and choices of the model that it rests on: log 35, 40. -/
def Obligations.RaySteps : Prop :=
  (
    ∀ (s : State) (id : Nat) (r : Ray), s.uray = some id → Assoc.find s.rays id = some r → r.state = 1 →
      let w := r.bound s
      let put := fun (q : Ray) => ({ s with rays := Assoc.put s.rays id q } : State)
      let at_ := fun (q : Ray) (upc : Nat) => put (if 63 < upc ∧ q.state = 1 then { q with steps := q.steps + 1, upc := upc, state := 5, code := 1 } else { q with steps := q.steps + 1, upc := upc })
      let on := fun (q : Ray) => at_ q (r.upc + 1)
      let fails := fun (code : Byte) => put { r with state := 5, code := code }
      let cond := fun (c : JifCond) => match c with
        | .leaf => bit r.n 31 | .inner => !bit r.n 31 | .hit => decide (r.hits ≠ 0) | .nohit => decide (r.hits = 0)
        | .cz => decide (r.c = 0) | .cnz => decide (r.c ≠ 0) | .found => r.found | .empty => r.stack.isEmpty && decide (r.spilled = 0)
      exec .uopNop s = .next (on r) ∧
      (∀ t : Fin 64, exec (.uopJmp t) s = .next (at_ r t.val)) ∧
      (∀ (c : JifCond) (t : Fin 64), exec (.uopJif c t) s = .next (at_ r (if cond c then t.val else r.upc + 1))) ∧
      (∀ x : Byte, exec (.uopSetc x) s = .next (on { r with c := x })) ∧
      exec .uopDecc s = .next (on { r with c := BitVec.ofNat 8 (r.c.toNat + 255) }) ∧
      (∀ x : Byte, exec (.uopEnd x) s = .next (on { r with state := 3, code := x })) ∧
      (r.stack.length + r.spilled < layLimit w → r.stack.length < 64 → exec .uopPushn s = .next (on { r with stack := r.n :: r.stack })) ∧
      (layLimit w ≤ r.stack.length + r.spilled → exec .uopPushn s = .next (fails 3)) ∧
      (∀ t : Fin 64, r.stack = [] → r.spilled = 0 → exec (.uopPop t) s = .next (at_ r t.val)) ∧
      (∀ (t : Fin 64) e rest, r.stack = e :: rest → exec (.uopPop t) s = .next (on { r with n := e, stack := rest })) ∧
      (r.buf = none → exec .uopBox s = .next (fails 1)) ∧
      (∀ node, r.buf = some node → ∃ (h : Byte) (keys : Vector W32 8), exec .uopBox s = .next (on { r with hits := h, tnear := keys }) ∧
        ∀ i < 8, h.getLsbD i = (!kidEmpty w node i && (match r.boxRange w node i with | some x => x.1.atMost x.2 | none => false))) ∧
      (∀ desc, let key := fun (i : Nat) => f32v (r.tnear.toList.getD i 0)
        let before := fun (i j : Nat) => if desc then (key j).less (key i) else (key i).less (key j)
        (∀ i < 8, (key i).isNan = false) → ∃ l : List Nat, l.Perm ((List.range (layKids w)).filter (fun i => r.hits.getLsbD i)) ∧ l.Pairwise (fun i j => before j i = false ∧ (before i j = false → i < j)) ∧
          exec (.uopSort desc) s = .next (on { r with sorted := true, order := packOrder (l ++ (List.range (layKids w)).filter (fun i => !r.hits.getLsbD i)) })) ∧
      (∀ node i rest, r.buf = some node → r.hitKids w node = i :: rest →
        (∀ e, kidEntry w node (entOff r.b) i = some e → exec .uopTake s = .next (on { r with n := e, hits := r.hits &&& ~~~(1#8 <<< i) })) ∧
        (kidEntry w node (entOff r.b) i = none → exec .uopTake s = .next (fails 4))) ∧
      (r.buf = none ∨ (∃ node, r.buf = some node ∧ r.hitKids w node = []) → exec .uopTake s = .next (on r) ∧ exec .uopPushh s = .next (on { r with hits := 0 })) ∧
      (∀ node es, r.buf = some node → (r.hitKids w node).map (kidEntry w node (entOff r.b)) = es.map some → r.stack.length + es.length ≤ 64 → r.stack.length + r.spilled + es.length ≤ layLimit w →
        exec .uopPushh s = .next (on { r with hits := 0, stack := es ++ r.stack })) ∧
      (bit r.n 31 = true → exec .uopFetch s = .next (fails 1)) ∧ (bit r.n 31 = false → exec .uopTri s = .next (fails 1))
  ) ∧
  (
    ∀ (s u : State) (id : Nat) (r : Ray), s.uray = some id → Assoc.find s.rays id = some r → r.state = 1 →
      let w := r.bound s
      let tm := s.team r.team
      let put := fun (q : Ray) => ({ u with rays := Assoc.put u.rays id q } : State)
      let at_ := fun (q : Ray) (upc : Nat) => put (if 63 < upc ∧ q.state = 1 then { q with steps := q.steps + 1, upc := upc, state := 5, code := 1 } else { q with steps := q.steps + 1, upc := upc })
      let on := fun (q : Ray) => at_ q (r.upc + 1)
      let fails := fun (code : Nat) => put { r with state := 5, code := BitVec.ofNat 8 code }
      let nodeAt := r.base + BitVec.ofNat 80 (16 * field r.n 27 0)
      (∀ bs, bit r.n 31 = false → s.readNode r nodeAt (layBytes w) = (.ok bs, u) → ∃ order : BitVec 24, exec .uopFetch s =
        .next (on { r with hits := 0, sorted := false, order := order, b := r.n, buf := some (ofBytes 2048 bs), nodes := r.nodes + 1 })) ∧
      (∀ c, bit r.n 31 = false → s.readNode r nodeAt (layBytes w) = (.fail c, u) → exec .uopFetch s = .next (fails c)) ∧
      (∀ f q v, bit r.n 31 = false → s.readNode r nodeAt (layBytes w) = (.park f, u) → u.writeRay { r with buf := none, hits := 0, sorted := false, order := 0 } 4 = (true, q, v) →
        exec .uopFetch s = .next { v with rays := Assoc.put v.rays id { q with state := 4, faultAddr := nodeAt, faultCode := f.code .traversal, faultLevel := f.level, faultIpa := f.ipa } }) ∧
      (bit r.n 31 = true → r.tprog = field r.n 30 28 →
        let recAt := nodeAt + BitVec.ofNat 80 (64 * r.tprog)
        (∀ c, s.readNode r recAt 64 = (.fail c, u) → exec .uopTri s = .next (fails c)) ∧
        (∀ bs, s.readNode r recAt 64 = (.ok bs, u) →
          let m := (List.range 16).map (fun i => (ofBytes 32 ((bs.drop (4 * i)).take 4) : W32))
          let flags := m.getD 14 0
          (flags.setWidth 8 &&& r.mask = 0 → exec .uopTri s = .next (on { r with tprog := 0 })) ∧
          (flags.setWidth 8 &&& r.mask ≠ 0 → r.hitTri m = none → exec .uopTri s = .next (on { r with tprog := 0, tests := r.tests + 1 })) ∧
          (∀ t a b, flags.setWidth 8 &&& r.mask ≠ 0 → r.hitTri m = some (t, a, b) →
            let c : Vector W32 5 := #v[t, a, b, m.getD 12 0, m.getD 13 0]
            let q := ({ r with tests := r.tests + 1 } : Ray).offer c
            (bit flags 8 = false → r.flags % 2 = 0 → exec .uopTri s = .next (put { r with tests := r.tests + 1, cand := c, state := 2 })) ∧
            (bit flags 8 = true ∨ r.flags % 2 = 1 → exec .uopTri s = .next (on (if q.state = 3 then q else { q with tprog := 0 })))))) ∧
      (∀ (t : Fin 64) bs, r.stack = [] → r.spilled ≠ 0 →
        let m := min 16 r.spilled
        let from_ := r.area + BitVec.ofNat 80 (128 + 4 * (r.spilled - m))
        globalRange from_ (4 * m) = true → s.engRead tm.core (ckey tm.func tm.ctx) from_.toNat (4 * m) .read = (.ok (bs, false), u) →
        let word := fun (i : Nat) => (ofBytes 32 ((bs.drop (4 * i)).take 4) : W32)
        exec (.uopPop t) s = .next (on { r with n := word (m - 1), stack := ((List.range (m - 1)).map word).reverse, spilled := r.spilled - m }))
  )

/-! ## Subscriptions, launches, record queues -/

/-- R300, R301, R308 to R310: `sub.open` reads its descriptor and installs the subscription under the lowest free handle, or gives the code of its first failed check; `sub.stat` gives state, held batches and bytes applied; `sub.close` of no subscription gives code 1, of an open one takes the publisher entry away, with what its region and its open batch hold at that moment closed, and parks; `sub.flush` closes the team's open batches and parks until they have been applied. Readings and choices of the model that it rests on: log 32. -/
def Obligations.SubscriptionInstructions : Prop :=
  ∀ (s v : State) (f : Focus) (o : XOp) (k : Nat), (∀ c, (s.ctx c).logMode = 0) →
    let tm := s.team f.team
    let h := (s.rd k o.a).toNat % 16
    let mine := s.subByHandle f.team h
    let same := fun (t : State) => ∀ key pa, t.byteAt key pa = s.byteAt key pa
    (∀ bs, Lone s f (.subOpen o) k → s.ReadsBlock f k (s.xaddr k o.xa o.a) 32 bs v → blockPlace (s.xaddr k o.xa o.a) = true →
      let d := SubDesc.ofBytes bs
      let c := s.subCheck f.team d
      let x : Sub := { subscriber := f.team, publisher := c.2.1, handle := c.2.2, local_ := d.local_, remote := d.remote, size := d.size, chen := d.chen, chamber := d.chamber, seeds := if d.seed then List.range (d.size / 64) else [] }
      (c.1 ≠ 0 → ∃ t, exec (.subOpen o) s = .next t ∧ Issued s t f (.subOpen o) (fun _ => eff32 o.d (BitVec.ofNat 32 (c.1 * 2 ^ 24))) ∧ SameBytes v t ∧ WentOn s t f 1 ∧ t.subs = v.subs) ∧
      (c.1 = 0 → c.2.2 < 16 ∧ s.subByHandle f.team c.2.2 = none ∧ (∀ j < c.2.2, s.subByHandle f.team j ≠ none) ∧
        ∃ t, exec (.subOpen o) s = .next t ∧ Issued s t f (.subOpen o) (fun _ => eff32 o.d (BitVec.ofNat 32 c.2.2)) ∧ SameBytes v t ∧ WentOn s t f 1 ∧
          Assoc.find t.subs v.nextId = some x ∧ ∀ n, n ≠ v.nextId → Assoc.find t.subs n = Assoc.find v.subs n)) ∧
    (Lone s f (.subStat o) k →
      (mine = none → ∃ t, exec (.subStat o) s = .next t ∧ Issued s t f (.subStat o) (fun _ => { regs := dstGroup o.d [0, 0] }) ∧ SameBytes s t ∧ WentOn s t f 1 ∧ t.subs = s.subs) ∧
      (∀ n x, mine = some n → Assoc.find s.subs n = some x →
        let state := if x.pubEnded then 3 else if x.seeds ≠ [] ∨ (∃ b ∈ x.closed, b.seed = true) then 2 else 1
        ∃ t, exec (.subStat o) s = .next t ∧ Issued s t f (.subStat o) (fun _ => { regs := dstGroup o.d [BitVec.ofNat 32 (state * 2 ^ 24 + min x.closed.length 8), x.applied] }) ∧ SameBytes s t ∧ WentOn s t f 1 ∧ t.subs = s.subs)) ∧
    (Lone s f (.subClose o) k →
      (mine = none → ∃ t, exec (.subClose o) s = .next t ∧ Issued s t f (.subClose o) (fun _ => eff32 o.d 0x01000000) ∧ SameBytes s t ∧ WentOn s t f 1 ∧ t.subs = s.subs) ∧
      (∀ n x, mine = some n → Assoc.find s.subs n = some x → x.pubOpen = true →
        ∃ t y, exec (.subClose o) s = .next t ∧ SameRegs s t ∧ SameBytes s t ∧ (t.thread k).st = .parked ∧ (t.thread k).wait = .close n (.subClose o) tm.tcount ∧ (t.thread k).pc = (s.thread k).pc ∧
          Assoc.find t.subs n = some y ∧ y.pubOpen = false ∧ y.closing = true ∧ y.open_ = none ∧ y.seeds = [] ∧ y.closed.length = x.closed.length + (if x.open_.isSome then 1 else 0) + x.seeds.length)) ∧
    (Lone s f (.subFlush o) k → (∀ n (x : Sub), (n, x) ∈ s.subs → x.publisher = f.team → x.closed.length < 8) → Assoc.rising s.subs = true →
      ∃ t bs, exec (.subFlush o) s = .next t ∧ SameRegs s t ∧ same t ∧ (t.thread k).st = .parked ∧ (t.thread k).pc = (s.thread k).pc ∧
        (t.thread k).wait = .flush bs ((s.subs.filter (fun p => decide (p.2.publisher = f.team) && p.2.pubOpen)).length) (.subFlush o) tm.tcount ∧
        ∀ n x, Assoc.find s.subs n = some x → x.publisher = f.team → x.pubOpen = true → ∃ y, Assoc.find t.subs n = some y ∧ y.open_ = none ∧ y.closed.length = x.closed.length + (if x.open_.isSome then 1 else 0) ∧ (n, y.made) ∈ bs)

/-- R302, R304, R305, R307, R311: an idle batch closes; the oldest closed batch of a subscription lands in the subscriber's scratchpad, where no slot is armed, and is counted; a publisher that does not leave flushes nothing, one that leaves delivers what it holds. -/
def Obligations.SubscriptionBatches : Prop :=
  ∀ (s : State) (n : Nat) (x : Sub), Assoc.find s.subs n = some x → s.missed = none → (∀ c, (s.ctx c).logMode = 0) →
    (∀ b, x.open_ = some b → x.closed.length < 8 → x.idleSince + 64 ≤ s.clock →
      exec (.batchIdleClose n) s = .next { s with subs := Assoc.put s.subs n { x with open_ := none, closed := x.closed ++ [{ b with epoch := (s.team x.publisher).epoch, at_ := (s.team x.publisher).tcount }], made := x.made + 1 } }) ∧
    ((x.open_ = none ∨ s.clock < x.idleSince + 64 ∨ 8 ≤ x.closed.length) → exec (.batchIdleClose n) s = .next s) ∧
    (∀ b rest, x.closed = b :: rest → s.batchDue n = true → (s.team x.subscriber).live = true → (s.team x.subscriber).chambers = [] →
      let count := ((List.range 64).filter (fun i => b.mask.getLsbD i)).length
      ∃ t, exec (.batchApply n) s = .next t ∧ SameRegs s t ∧ t.mem = s.mem ∧
        Assoc.find t.subs n = some { x with closed := rest, applied := x.applied + BitVec.ofNat 32 count } ∧
        (∀ i < 64, b.mask.getLsbD i = true → Tbl.get (t.team x.subscriber).spad (x.local_ + 64 * b.block + i) = byteOf b.data i) ∧
        ∀ a, (∀ i < 64, b.mask.getLsbD i = true → a ≠ x.local_ + 64 * b.block + i) → Tbl.get (t.team x.subscriber).spad a = Tbl.get (s.team x.subscriber).spad a) ∧
    (∀ b rest, x.closed = b :: rest → s.batchDue n = true → (s.team x.subscriber).life = .ended → ∃ t, exec (.batchApply n) s = .next t ∧ t.teams = s.teams ∧ t.mem = s.mem ∧
      ∃ y, Assoc.find t.subs n = some y ∧ y.closed = rest) ∧
    (∀ u, (s.team u).saveAs = none → exec (.publisherFlush u) s = .next s) ∧
    (∀ u, (s.team u).saveAs.isSome = true → s.subs = [(n, x)] → x.publisher = u → x.open_ = none → x.seeds = [] → x.closed = [] → exec (.publisherFlush u) s = .next s) ∧
    (∀ u b, (s.team u).saveAs.isSome = true → s.subs = [(n, x)] → x.publisher = u → x.open_ = none → x.seeds = [] → x.closed = [b] → (s.team x.subscriber).live = true → (s.team x.subscriber).chambers = [] →
      ∃ t y, exec (.publisherFlush u) s = .next t ∧ Assoc.find t.subs n = some y ∧ y.closed = [] ∧ ∀ i < 64, b.mask.getLsbD i = true → Tbl.get (t.team x.subscriber).spad (x.local_ + 64 * b.block + i) = byteOf b.data i)

/-- R357, R359, R360, R370: a record written to a queue-port slot is queued under the queue's next number, or rejected to the queue's ring, or to ring 0 where the slot is no queue of the function; a launch is eligible once the earlier ones of its queue are placed and its gauge has reached its target; a gauge that may not be read ends the launch with status 3. R373: `lnch` reads its record, releases the thread's accesses and queues the launch on the team's queue, or gives the code that refuses it. Readings and choices of the model that it rests on: log 25. -/
def Obligations.Launches : Prop :=
  (
    ∀ (s : State),
      (∀ func slot r q, s.hostOpen = true → s.mod.ready = true → s.hwQueue func slot = some q →
        let x := s.queue q
        let refused := fun (world : Bool) => if lrReserved r then 2 else if lrShape r then 3 else if lrMisaligned r then 4 else if x.bound = true ∧ world = false then 5 else if x.bound = false ∨ x.enabled = false then 6
          else if 256 ≤ (s.launches.filter (fun p => decide (p.2.queue = q) && !p.2.done)).length then 7 else if lrParam r ≠ 0 ∧ (s.ctx (ckey x.func x.ctx)).stackSize < 16 then 8 else 0
        let c := refused (decide (lrWorld r = 0) || decide (lrWorld r = (s.ctx (ckey x.func x.ctx)).world))
        let noQueue := if lrReserved r then 2 else if lrShape r then 3 else if lrMisaligned r then 4 else 6
        (x.bound = false → c ≠ 0 ∧ exec (.launchRecordWrite func slot r) s = .next (s.postEvent func 0 { kind := 2, status := c, queue := q })) ∧
        (x.bound = true → x.func ≠ func → exec (.launchRecordWrite func slot r) s = .next (s.postEvent func 0 { kind := 2, status := noQueue })) ∧
        (x.bound = true → x.func = func → c ≠ 0 → exec (.launchRecordWrite func slot r) s = .next (s.postEvent x.func x.ring { kind := 2, status := c, queue := q })) ∧
        (x.bound = true → x.func = func → c = 0 → ∃ t, exec (.launchRecordWrite func slot r) s = .next t ∧ (t.queue q).nextSeq = x.nextSeq + 1 ∧ SameTeams s t ∧ t.mem = s.mem ∧
          Assoc.find t.launches s.nextId = some { queue := q, func := x.func, ctx := x.ctx, seqNo := x.nextSeq, lrec := r, total := lrTeams r, rq := none } ∧ ∀ n, n ≠ s.nextId → Assoc.find t.launches n = Assoc.find s.launches n)) ∧
      (∀ func slot r, s.hostOpen = true → s.mod.ready = true → s.hwQueue func slot = none → exec (.launchRecordWrite func slot r) s = .next (s.postEvent func 0 { kind := 2, status := if lrReserved r then 2 else if lrShape r then 3 else if lrMisaligned r then 4 else 6 })) ∧
      (∀ func slot r, s.hostOpen = false ∨ s.mod.ready = false → exec (.launchRecordWrite func slot r) s = .next s) ∧
      (∀ id l, Assoc.find s.launches id = some l → l.done = false → l.eligible = false → l.token = none → s.mod.ready = true →
        let eligible := fun (u : State) => ({ u with launches := Assoc.put u.launches id { l with eligible := true, eligAt := u.clock } } : State)
        let waits := exec (.launchEligible id) s = .next s
        ((∃ p ∈ s.launches, p.2.queue = l.queue ∧ p.2.seqNo < l.seqNo ∧ p.2.done = false ∧ p.2.placed < p.2.total) → waits) ∧
        ((∀ p ∈ s.launches, p.2.queue = l.queue → p.2.seqNo < l.seqNo → p.2.done = false → p.2.total ≤ p.2.placed) →
          (lrDepen l.lrec = false → exec (.launchEligible id) s = .next (eligible s)) ∧
          (∀ va pa key sealed fr gpa u, lrDepen l.lrec = true → decodeAddr (lrDep l.lrec) = .global va → s.translate deviceAgent (ckey l.func l.ctx) va .read = (.ok pa key sealed fr gpa, u) →
            let v := ofBytesNat ((List.range 8).map (fun j => u.byteAt key (pa + j)))
            exec (.launchEligible id) s = .next (if lrTarget l.lrec ≤ v then eligible u else u)) ∧
          (∀ va u, id < s.nextId → lrDepen l.lrec = true → decodeAddr (lrDep l.lrec) = .global va → s.translate deviceAgent (ckey l.func l.ctx) va .read = (.denied, u) →
            ∃ t m, exec (.launchEligible id) s = .next t ∧ Assoc.find t.launches id = some m ∧ m.status = 3 ∧ m.done = true ∧ m.placed = l.total)))
  ) ∧
  (
    ∀ (s v : State) (f : Focus) (o : XOp) (k : Nat) (bs : List Byte), Lone s f (.lnch o) k → Quiet s → s.ReadsBlock f k (s.xaddr k o.xa o.a) 64 bs v →
      let tm := s.team f.team
      let r := ofBytes 512 bs
      let x := s.queue tm.queue
      let w := (s.ctx (ckey x.func x.ctx)).world
      let c := if lrReserved r then 2 else if lrShape r then 3 else if lrMisaligned r then 4 else if x.bound = true ∧ ¬ (lrWorld r = tm.world ∧ (tm.world = 0 ∨ tm.world = w)) then 5 else if x.bound = false ∨ x.enabled = false then 6
        else if 256 ≤ (s.launches.filter (fun p => decide (p.2.queue = tm.queue) && !p.2.done)).length then 7 else if lrParam r ≠ 0 ∧ (s.ctx (ckey x.func x.ctx)).stackSize < 16 then 8 else 0
      (c ≠ 0 → ∃ t, exec (.lnch o) s = .next t ∧ Issued s t f (.lnch o) (fun _ => eff32 o.d (BitVec.ofNat 32 (c * 2 ^ 24))) ∧ WentOn s t f 1 ∧ t.launches = s.launches ∧ (t.team f.team).launched = true) ∧
      (c = 0 → ∃ t n, exec (.lnch o) s = .next t ∧ Issued s t f (.lnch o) (fun _ => eff32 o.d (BitVec.ofNat 32 (x.nextSeq % 2 ^ 24))) ∧ WentOn s t f 1 ∧ (t.queue tm.queue).nextSeq = x.nextSeq + 1 ∧ (t.team f.team).launched = true ∧
        Assoc.find t.launches n = some { queue := tm.queue, func := x.func, ctx := x.ctx, seqNo := x.nextSeq, lrec := r, total := lrTeams r, rq := none })
  )

/-- R374, R375: `rq.put` gives code 4 for a malformed descriptor and 1 for a full ring, and otherwise the number of the record that it puts; `rq.get` gives code 2 to a team that is no consumer of the queue, 1 past the team's range, and otherwise the next record; `rq.done` marks the team's range once; a flush time forms a consumer only where records wait. Readings and choices of the model that it rests on: log 25, 26. -/
def Obligations.RecordQueues : Prop :=
  ∀ (s u : State) (f : Focus) (o : XOp) (k : Nat) (p : Piece), Quiet s →
    let tm := s.team f.team
    let addr := s.xaddr k o.xa o.a
    let d := RqDesc.ofBytes ((List.range 64).map (fun j => u.byteAt p.key (p.pa + j)))
    let reached := fun (a : Acc) => addr.toNat % 64 = 0 ∧ globalRange addr 1 = true ∧ (s.startIssue f.threads).resolve k addr 64 a = (.ok (.mem [p]), u) ∧ p.n = 64
    let gives := fun (i : Instr) (x : W32) (P : State → Prop) => ∃ t, exec i s = .next t ∧ Issued s t f i (fun _ => eff32 o.d x) ∧ WentOn s t f 1 ∧ P t
    let group := fun (i : Instr) (xs : List W32) (P : State → Prop) => ∃ t, exec i s = .next t ∧ Issued s t f i (fun _ => { regs := dstGroup o.d xs }) ∧ WentOn s t f 1 ∧ P t
    let mine := ∃ n q lo count, tm.rq = some (n, lo, count) ∧ Assoc.find s.rqs n = some q ∧ q.addr = addr ∧ q.func = tm.func ∧ q.ctx = tm.ctx
    let fitsD := fun (g : Src) => (Use.grp (2 ^ min d.rsz 4)).ok (s.warp (warpOf k)).budget g
    let code := fun (c : Nat) => BitVec.ofNat 32 (c * 2 ^ 24)
    (Lone s f (.rqPut o) k → reached .atomic →
      (fitsD o.b = false → gives (.rqPut o) (code 3) (fun t => SameBytes s t)) ∧
      (fitsD o.b = true → d.malformed = true → gives (.rqPut o) (code 4) (fun t => SameBytes s t)) ∧
      (fitsD o.b = true → d.malformed = false → 2 ^ d.capLog ≤ d.put - d.done → gives (.rqPut o) (code 1) (fun t => SameBytes s t)) ∧
      (∀ q v, fitsD o.b = true → d.malformed = false → d.put - d.done < 2 ^ d.capLog → u.resolve k (d.slot d.put) (4 * d.words) .write = (.ok (.mem [q]), v) →
        gives (.rqPut o) (BitVec.ofNat 32 (d.put % 2 ^ 24)) (fun t => (t.team f.team).launched = true))) ∧
    (Lone s f (.rqGet o) k → reached .read →
      (¬ mine → group (.rqGet o) [code 2] (fun t => SameBytes s t)) ∧
      (mine → fitsD o.d = false → group (.rqGet o) [code 3] (fun t => SameBytes s t)) ∧
      (mine → fitsD o.d = true → d.malformed = true → group (.rqGet o) [code 4] (fun t => SameBytes s t)) ∧
      (∀ n lo count, mine → fitsD o.d = true → d.malformed = false → tm.rq = some (n, lo, count) → count ≤ tm.rqNext → group (.rqGet o) [code 1] (fun t => SameBytes s t)) ∧
      (∀ n lo count q v, mine → fitsD o.d = true → d.malformed = false → tm.rq = some (n, lo, count) → tm.rqNext < count →
        u.resolve k (d.slot (lo + tm.rqNext)) (4 * d.words) .read = (.ok (.mem [q]), v) → q.n = 4 * d.words → (Assoc.find (s.core tm.core).l1 (q.pa / 128)) = none →
        let bytes := (List.range (4 * d.words)).map (fun j => v.byteAt q.key (q.pa + j))
        group (.rqGet o) (BitVec.ofNat 32 (tm.rqNext % 2 ^ 16) :: (List.range (d.words - 1)).map (fun i => ofBytes 32 ((bytes.drop (4 * (i + 1))).take 4)))
          (fun t => (t.team f.team).rqNext = tm.rqNext + 1 ∧ ∀ key pa, t.byteAt key pa = v.byteAt key pa))) ∧
    (Lone s f (.rqDone o) k → reached .atomic →
      (¬ mine → gives (.rqDone o) (code 2) (fun t => SameBytes s t)) ∧
      (mine → d.malformed = true → gives (.rqDone o) (code 4) (fun t => SameBytes s t)) ∧
      (mine → d.malformed = false → tm.rqDone = true → gives (.rqDone o) 0 (fun t => SameBytes s t)) ∧
      (∀ n lo count, mine → d.malformed = false → tm.rqDone = false → tm.rq = some (n, lo, count) → gives (.rqDone o) (BitVec.ofNat 32 (count % 2 ^ 16)) (fun t => (t.team f.team).rqDone = true))) ∧
    (∀ id q bs v, Assoc.find s.rqs id = some q → s.devRead (ckey q.func q.ctx) q.addr.toNat 64 = (.ok bs, v) →
      let d := RqDesc.ofBytes bs
      (d.malformed = true ∨ d.flush = 0 ∨ d.ready ≤ d.taken ∨ s.clock < q.lastPut + d.flush * 1024 → exec (.rqFlushTimeout id) s = .next v) ∧
      (d.malformed = false → d.flush ≠ 0 → d.taken < d.ready → q.lastPut + d.flush * 1024 ≤ s.clock → exec (.rqFlushTimeout id) s = .next (v.formConsumer id (min d.batch (d.ready - d.taken)) d)))

/-! ## Teams and the scheduler -/

/-- R329 to R332, R358, R362, R363, R366, R367: the scheduling core places the next team of the launch that goes first: its frame is allocated, its record stands at the berth, and its threads stand ready at the entry with registers zero; a record of no launch is refused; a restored team stands on its new berth. Readings and choices of the model that it rests on: log 8, 56. -/
def Obligations.TeamStarts : Prop :=
  ∀ (s u : State) (core berth lane : Nat), Quiet s → s.missed = none →
    (∀ id l base h, Assoc.find s.launches id = some l → l.queue < 4096 → l.seqNo < 2 ^ 64 → l.placed < 2 ^ 32 → l.ctx < 256 → l.func < 128 → base < 2 ^ 64 → l.token = none →
      let n := frameUnits l.lrec * 4096
      let ctx := ckey l.func l.ctx
      let r := berthRecord l.func l.ctx l.queue l.seqNo l.placed (lane % 32) (lrWorld l.lrec) (BitVec.ofNat 64 base) l.lrec false
      (s.placeable l = false ∨ s.fits core berth lane l.lrec 0 0 0 = false ∨ s.otherWorld core (lrWorld l.lrec) = true ∨ s.goesFirst id l core berth lane = false → exec (.teamPlacement id core berth lane) s = .next s) ∧
      (s.placeable l = true → s.fits core berth lane l.lrec 0 0 0 = true → s.otherWorld core (lrWorld l.lrec) = false → s.goesFirst id l core berth lane = true →
        (s.ctx ctx).frameRoom n = some base → s.physWrite l.func base (l.copyBytes l.placed) = (none, u) → s.launchBy l.queue l.seqNo = some id → s.teamBy id l.placed = none →
        u.physRead l.func base 256 = .ok h → u.headCheck l.func (lrWorld l.lrec) 0 h = none → ofBytes 512 ((h.drop 64).take 64) = l.lrec → (s.core core).world = lrWorld l.lrec → lrHasParam l.lrec = false →
        ∃ t x, exec (.teamPlacement id core berth lane) s = .next t ∧ (t.launch id).placed = l.placed + 1 ∧ t.berthAt core berth = r ∧ Assoc.find (t.ctx ctx).frames base = some n ∧ t.teamBy id l.placed = some x ∧
          (t.team x).core = core ∧ (t.team x).berth = berth ∧ (t.team x).life = .resident ∧ (t.team x).lrec = l.lrec ∧ (t.team x).spadSize = lrSpad l.lrec ∧ (t.team x).tcount = 0 ∧ (t.team x).world = lrWorld l.lrec ∧
          ∀ i < 32 * lrWarps l.lrec, (t.thread (x * 1024 + i)).st = .ready ∧ (t.thread (x * 1024 + i)).pc = l.lrec.extractLsb' 0 64 ∧ ∀ reg, t.regOf (x * 1024 + i) reg = 0)) ∧
    (∀ r : BitVec 256, s.serving = false → exec (.berthRecordWrite core berth r) s = .next s) ∧
    (∀ r : BitVec 256, s.serving = true → r.getLsbD 0 = true → (s.ctx (ckey (brFunc r) (brCtx r))).hostSched = true ∨ s.launchBy (brQueue r) (brSeq r) = none → exec (.berthRecordWrite core berth r) s = .next s) ∧
    (∀ r : BitVec 256, s.serving = true → r.getLsbD 0 = false → s.teamAt core berth = none → exec (.berthRecordWrite core berth r) s = .next s) ∧
    (∀ (r : BitVec 256) x, s.serving = true → r.getLsbD 0 = false → s.teamAt core berth = some x → (s.team x).life = .halting →
      exec (.berthRecordWrite core berth r) s = .next (s.setTeam x { s.team x with leaving := true })) ∧
    (∀ x tm h v, Assoc.find s.teams x = some tm → tm.life = .saved → tm.flush = false → tm.heldUps = [] → tm.debugged = false → tm.offLog = false → s.serving = true → (s.ctxOf tm).switchedOut = false → (s.ctxOf tm).hostSched = false →
      s.inSlice tm.func tm.lrec = true → s.placing tm = false →
      let l := s.launch tm.launch
      let r := berthRecord tm.func tm.ctx tm.queue tm.seqNo tm.index (lane % 32) tm.world tm.frame tm.lrec true
      let e := s.entriesOf (some x)
      tm.queue < 4096 → tm.seqNo < 2 ^ 64 → tm.index < l.total → l.total ≤ 2 ^ 32 → tm.ctx < 256 → tm.func < 128 → tm.world < 16 → l.func = tm.func → l.ctx = tm.ctx → l.done = false → s.launchBy tm.queue tm.seqNo = some tm.launch → s.teamBy tm.launch tm.index = some x →
      s.fits core berth (lane % 32) l.lrec e.1 e.2.1 e.2.2 = true → s.otherWorld core tm.world = false → s.physRead tm.func tm.frame.toNat 256 = .ok h → s.headCheck tm.func tm.world 1 h = none → (s.core core).world = tm.world →
      s.loadImage x = .ok v → (v.team x).debugged = false → (v.team x).heldUps = [] →
      ∃ t, exec (.teamRestore x core berth lane) s = .next t ∧ (t.team x).core = core ∧ (t.team x).berth = berth ∧ t.berthAt core berth = r ∧ ((t.team x).life = .resident ∨ (t.team x).life = .ending) ∧ (t.team x).leaving = false) ∧
    (∀ x tm, Assoc.find s.teams x = some tm → s.serving = false ∨ tm.life = .resident ∨ (tm.life = .parkedFault ∧ tm.tokens ≠ []) → exec (.teamRestore x core berth lane) s = .next s)

/-- R365 to R367: a pre-emption lets a team that will soon end drain until its limit, restarts one that may be run again, and halts any other; a limit that passes halts it. Readings and choices of the model that it rests on: log 57. -/
def Obligations.TeamPreemption : Prop :=
  ∀ (s : State) (x : Nat) (tm : Team) (urgent : Bool), Assoc.find s.teams x = some tm → s.missed = none → Quiet s →
    let limit := s.clock + (if urgent then 3008 else 4096)
    let short := ∃ n, tm.estimate = some n ∧ n ≤ 4096
    let again := lrIdem tm.lrec = true ∧ tm.run + (s.clock - tm.since) < 8192 ∧ s.flushBarred x = false
    let set := fun (y : Team) => Host.Outcome.next (s.setTeam x y)
    let halts := { tm with life := .halting, leaving := true, haltAt := s.clock }
    (s.serving = false ∨ tm.onCore tm.core = false → exec (.preemptionRequest x urgent) s = .next s) ∧
    (s.serving = true → tm.onCore tm.core = true →
      (tm.life = .resident → short → exec (.preemptionRequest x urgent) s = set { tm with life := .draining limit }) ∧
      (tm.life = .resident → ¬ short → ¬ again → exec (.preemptionRequest x urgent) s = set halts) ∧
      (tm.life = .resident → ¬ short → again → ∃ t, exec (.preemptionRequest x urgent) s = .next t ∧ (t.team x).life = .saved ∧ (t.team x).flush = true ∧ (t.team x).restarted = true ∧ (t.team x).tcount = 0 ∧
        t.berthAt tm.core tm.berth = 0 ∧ (∀ p ∈ t.copies, p.2.team ≠ x) ∧ (∀ p ∈ t.mops, p.2.team ≠ x) ∧ (∀ p ∈ t.rays, p.2.team ≠ x) ∧ t.mem = s.mem) ∧
      (∀ d, tm.life = .draining d → exec (.preemptionRequest x urgent) s = set { tm with life := .draining (min d limit) }) ∧
      (tm.life = .halting → exec (.preemptionRequest x urgent) s = set { tm with leaving := true }) ∧
      (tm.life = .ending → exec (.preemptionRequest x urgent) s = set halts) ∧
      (tm.life = .debugHalted → exec (.preemptionRequest x urgent) s = set { tm with life := .halting, leaving := true, debugged := true, saveAs := some 3 })) ∧
    (∀ d, tm.life = .draining d → d ≤ s.clock → exec (.drainTimeout x) s = set halts) ∧
    (∀ d, tm.life = .draining d → s.clock < d → exec (.drainTimeout x) s = .next s) ∧
    ((∀ d, tm.life ≠ .draining d) → exec (.drainTimeout x) s = .next s)

/-- R347, R433, R434, R438, R439: a halted team with no cause goes on, or is saved where a pre-emption asked for it; one with an unhandled cause is saved with reason 2 under fact 0 and aborted under fact 1; a drained team goes into its frame and leaves its berth. R296, R313, R370: a held update reaches a saved team's image, oldest first; a team that ends when no engine works for it any more gives its berth back, and its launch counts it, completing with the last. Readings and choices of the model that it rests on: log 42, 54, 77. -/
def Obligations.TeamHaltsSavesAndEnds : Prop :=
  (
    ∀ (s : State) (x : Nat), Quiet s → s.missed = none →
      let tm := s.team x
      let ks := teamThreads x tm
      (s.halted x = false → exec (.teamHalt x) s = .next s) ∧
      (s.halted x = true → s.attachedTo tm = false →
        (tm.debugCall = 0 → (∀ k ∈ ks, (s.thread k).rcd.cause = 0x3C0) → ∃ t, exec (.teamHalt x) s = .next t ∧ SameRegs s t ∧ SameBytes s t ∧ (∀ k ∈ ks, (t.thread k).rcd = {}) ∧
          (if tm.leaving then (t.team x).life = .halting ∧ (t.team x).saveAs = some 0
           else (t.team x).life = (if ks.all (fun k => decide ((s.thread k).st = .exited)) then .ending else .resident) ∧ ∀ w < tm.warps, (t.warp (wkey x w)).halted = false)) ∧
        (∀ k ∈ ks, (s.thread k).rcd.cause.toNat / 64 < 15 → (s.thread k).st ≠ .exited →
          (∀ j ∈ ks, (s.thread j).rcd.cause = 0x3C0 ∨ (s.thread j).rcd.cause.toNat / 64 ∉ [5, 6]) → lrTrapd tm.lrec = 0 ∨ tm.handler = true →
          (lrFact tm.lrec = false → ∃ t, exec (.teamHalt x) s = .next t ∧ SameRegs s t ∧ SameBytes s t ∧ (t.team x).life = .halting ∧ (t.team x).saveAs = some 2) ∧
          (lrFact tm.lrec = true → ∃ t, exec (.teamHalt x) s = .next t ∧ SameRegs s t ∧ (t.team x).status = 1 ∧ ((t.team x).life = .ending ∨ (t.team x).life = .endingOff)))) ∧
      (tm.saveAs = none ∨ tm.onCore tm.core = false ∨ s.drained x = false ∨ tm.frameTok.isSome = true → exec (.teamSave x) s = .next s) ∧
      (∀ reason v, tm.saveAs = some reason → tm.onCore tm.core = true → s.drained x = true → tm.frameTok = none →
        let s0 := ((List.range tm.warps).foldl (fun u w => u.updWarp (wkey x w) Warp.landParked) s).setTeam x { tm with run := s.ranFor tm }
        s0.writeParts tm.func tm.frame.toNat (s0.frameParts x reason) = (none, v) →
        ∃ t, exec (.teamSave x) s = .next t ∧ (t.team x).life = (if reason = 1 then .parkedFault else if reason = 2 then .parkedUnhandled else .saved) ∧ (t.team x).saveAs = none ∧ (t.team x).leaving = false ∧ t.berthAt tm.core tm.berth = 0 ∧ t.mem = v.mem)
  ) ∧
  (
    ∀ (s : State) (x : Nat), Quiet s → s.missed = none →
      let tm := s.team x
      (∀ u rest, tm.life = .saved ∨ tm.life = .parkedFault ∨ tm.life = .parkedUnhandled → tm.heldUps = u :: rest → tm.chambers = [] →
        let cells := ((List.range 64).filter (fun i => u.mask.getLsbD i)).map (fun i => (u.off + i, byteOf u.data i))
        ∃ t, exec (.savedImageRaise x) s = .next t ∧ (t.team x).heldUps = rest ∧ t.mem = (cells.foldl (fun s c => s.imageWrite x c.1 [c.2]) s).mem ∧ SameRegs s t) ∧
      (tm.heldUps = [] ∨ tm.life = .resident → exec (.savedImageRaise x) s = .next s) ∧
      ((tm.life ≠ .ending ∧ tm.life ≠ .endingOff) ∨ s.engineDone x = false → exec (.teamEnd x) s = .next s) ∧
      (∀ l, Assoc.find s.teams x = some tm → tm.life = .ending ∨ tm.life = .endingOff → s.engineDone x = true → Assoc.find s.launches tm.launch = some l → tm.launch < s.nextId → l.done = false → tm.rq = none → s.mod.switch = none → (∀ c, (s.ctx c).diverged = false) →
        ∃ t m, exec (.teamEnd x) s = .next t ∧ (t.team x).life = .ended ∧ Assoc.find t.launches tm.launch = some m ∧ m.ended = l.ended + 1 ∧ m.done = decide (l.total ≤ l.ended + 1) ∧
          (l.stale = false → l.total ≤ l.ended + 1 → l.seqNo = (s.queue l.queue).contig + 1 → (s.queue l.queue).done = [] → (t.queue l.queue).contig = l.seqNo) ∧
          (∀ k, teamOf k = x → Assoc.find t.threads k = none) ∧ (tm.onCore tm.core = true → t.berthAt tm.core tm.berth = 0) ∧ (∀ p ∈ t.rays, p.2.team ≠ x))
  )

/-- R364, R368, R369: a slice ends where it is due and no switch is open: the next enabled entry begins, shortened by the urgent use since its function's last one, and the ended function's teams are pre-empted; a switch that waits too long rolls back, with its teams as they were; a new window starts with no urgent use. Readings and choices of the model that it rests on: log 57. -/
def Obligations.Slices : Prop :=
  ∀ (s : State), s.missed = none → (∀ c, (s.ctx c).logMode = 0) →
    (s.sliceDue = none → exec .sliceEnd s = .next s ∧ exec .switchTimeout s = .next s) ∧
    (∀ due f, s.sliceDue = some due → s.sliceFunc = some f →
      (s.clock < due ∨ s.serving = false ∨ s.mod.switch.isSome = true → exec .sliceEnd s = .next s) ∧
      (due ≤ s.clock → s.serving = true → s.mod.switch = none →
        ∃ t, exec .sliceEnd s = .next t ∧ t.mod.sliceAt = s.clock ∧ t.mod.sliceIdx = s.nextSlice ∧ t.mem = s.mem ∧
          (s.nextSlice ∈ Assoc.keys s.mod.quantum ∧ ((∃ k ∈ Assoc.keys s.mod.quantum, s.mod.sliceIdx < k) → s.mod.sliceIdx < s.nextSlice)) ∧
          (∀ q, Assoc.find s.mod.quantum s.nextSlice = some q → (t.func q.1).sliceCut = (s.func q.1).sliceDebt ∧ (t.func q.1).sliceDebt = 0 ∧
            (q.1 = f ∨ s.sliceTeams f = [] → t.teams = s.teams) ∧ (q.1 ≠ f → ∀ x ∈ s.sliceTeams f, (s.team x).life = .resident → (t.team x).life ≠ .resident))) ∧
      (s.clock < due + 2048 → exec .switchTimeout s = .next s) ∧
      (∀ x, due + 2048 ≤ s.clock → s.mod.switch = some x →
        let rolls := fun (P : State → Prop) => ∃ t, exec .switchTimeout s = .next t ∧ t.mod.switch = none ∧ (t.func x.func).cmd = { done := (s.func x.func).cmd.done + 1, busy := false, result := 6 } ∧ t.mem = s.mem ∧ P t
        (x.asked = [] → rolls (fun t => t.teams = s.teams)) ∧
        (∀ u was, x.asked = [(u, was)] →
          (∀ d, (s.team u).life = .draining d → rolls (fun t => t.team u = { s.team u with life := was } ∧ ∀ v, v ≠ u → t.team v = s.team v)) ∧
          ((s.team u).life = .halting → was = .resident → (s.team u).saveAs ≠ some 1 → (s.team u).saveAs ≠ some 2 → s.classes u = [] → (s.team u).debugCall = 0 → (s.team u).debugged = false → (∃ k ∈ teamThreads u (s.team u), (s.thread k).st ≠ .exited) →
            rolls (fun t => (t.team u).life = .resident ∧ (t.team u).leaving = false ∧ (t.team u).saveAs = none ∧ ∀ w < (s.team u).warps, (t.warp (wkey u w)).halted = false))))) ∧
    (s.mod.windowAt < s.clock / 2200000 → ∃ t, exec .urgentWindowEnd s = .next t ∧ t.mod.windowAt = s.clock / 2200000 ∧ (∀ f, (t.func f).urgentUsed = 0) ∧ t.teams = s.teams ∧ t.mem = s.mem) ∧
    (s.clock / 2200000 ≤ s.mod.windowAt → exec .urgentWindowEnd s = .next s)

/-! ## Host interface -/

/-- R372, R392: the control register of a ring keeps its defined bits, and its en only where the ring's size is one it may have; the tail register takes the low word; the timer signals the oldest unsignalled record at its age. Another host write, or one while the host may not write, does nothing. R14, R357, R370 to R372, R390 to R392: the oldest held record of an enabled ring with room is written at head and the head moves on, a fault record with its time; a completion record retires its launch; a ring that is empty, disabled or full posts nothing. Readings and choices of the model that it rests on: log 58, 61. -/
def Obligations.Rings : Prop :=
  (
    ∀ (s : State) (func ring : Nat) (v : W64),
      let keep := v &&& 0x00FFFFFFFFFF0001#64
      let ctl := fun (r : Ring) (lo hi : Nat) => if v.getLsbD 0 = true ∧ ¬ (lo ≤ r.base.toNat % 32 ∧ r.base.toNat % 32 ≤ hi) then keep &&& ~~~1#64 else keep
      let e := (s.func func).ring ring
      let g := (s.func func).fring ring
      let signals := fun (r : Ring) => 0 < r.unsig ∧ r.oldest + (r.ctl.extractLsb' 16 16).toNat * 2200 ≤ s.clock
      let vectors := if func = 0 then 128 else 32
      let sent := fun (u : State) (r : Ring) =>
        let n := (r.ctl.extractLsb' 48 8).toNat
        if vectors ≤ n then u else u.updMod (fun m => if s.mod.linkUp then { m with msix := (func, n) :: m.msix } else { m with linkQ := m.linkQ ++ [.msix func n] })
      (s.hostOpen = true → func ≤ 64 → ring < 64 →
        exec (.erCtlWrite func ring v) s = .next (s.updRing func ring (fun r => { r with ctl := ctl e 6 20 })) ∧
        exec (.frCtlWrite func ring v) s = .next (s.updFring func ring (fun r => { r with ctl := ctl g 5 19 })) ∧
        exec (.erTailWrite func ring v) s = .next (s.updRing func ring (fun r => { r with tail := v.setWidth 32 })) ∧
        exec (.frTailWrite func ring v) s = .next (s.updFring func ring (fun r => { r with tail := v.setWidth 32 }))) ∧
      (s.hostOpen = false ∨ 64 < func ∨ 64 ≤ ring → ∀ i ∈ [Instr.erCtlWrite func ring v, .frCtlWrite func ring v, .erTailWrite func ring v, .frTailWrite func ring v], exec i s = .next s) ∧
      (signals e → exec (.eventRingTimer func ring) s = .next (sent (s.updRing func ring (fun r => { r with unsig := 0 })) e)) ∧
      (signals g → exec (.faultRingTimer func ring) s = .next (sent (s.updFring func ring (fun r => { r with unsig := 0 })) g)) ∧
      (¬ signals e → exec (.eventRingTimer func ring) s = .next s) ∧ (¬ signals g → exec (.faultRingTimer func ring) s = .next s)
  ) ∧
  (
    ∀ (s u : State) (func ring : Nat) (rec_ : BitVec 512) (rest : List (BitVec 512)) (fr : Frame2), s.mod.linkQ = [] → s.mod.linkUp = true →
      let start := fun (r : Ring) => (r.base.extractLsb' 12 52).toNat * 4096
      let size := fun (r : Ring) => 2 ^ (r.base.toNat % 32)
      let stays := fun (r : Ring) => r.held = [] ∨ r.ctl.getLsbD 0 = false ∨ r.token.isSome = true ∨ size r ≤ (r.head - r.tail).toNat
      let posted := fun (r r' : Ring) =>
        let n := r.unsig + 1
        let now := (r.ctl.extractLsb' 16 16).toNat = 0 ∨ max 1 (r.ctl.extractLsb' 32 16).toNat ≤ n
        r' = { r with held := rest, head := r.head + 1, unsig := if now then 0 else n, oldest := if r.unsig = 0 then s.clock else r.oldest }
      let e := (s.func func).ring ring
      let g := (s.func func).fring ring
      (stays e → exec (.eventRecordPost func ring) s = .next s) ∧
      (stays g → exec (.faultRecordPost func ring) s = .next s) ∧
      (let at_ := start e + 32 * (e.head.toNat % size e)
       ¬ stays e → e.held = rec_ :: rest → s.walk2 func at_ false true false = .ok fr → fr.shared = false →
        let taken := s.updRing func ring (fun r => { r with held := rest })
        taken.physWrite func at_ (toBytes rec_ 32) = (none, u) →
        ∃ t, exec (.eventRecordPost func ring) s = .next t ∧ posted e ((t.func func).ring ring) ∧ t.teams = s.teams ∧
          (rec_.extractLsb' 72 4 ≠ 1#4 → t.mem = u.mem ∧ t.launches = s.launches) ∧
          (∀ id l, rec_.extractLsb' 72 4 = 1#4 → s.recordLaunch rec_ = some id → Assoc.find s.launches id = some l → l.stale = false → lrCword l.lrec = false → (s.ctx (ckey l.func l.ctx)).hostCompl = false →
            t.mem = u.mem ∧ Assoc.find t.launches id = none)) ∧
      (let at_ := start g + 64 * (g.head.toNat % size g)
       ¬ stays g → g.held = rec_ :: rest → s.walk2 func at_ false true false = .ok fr → fr.shared = false →
        let taken := s.updFring func ring (fun r => { r with held := rest })
        let timed := (rec_ &&& ~~~((0xFFFFFFFFFFFFFFFF#512) <<< 384)) ||| (BitVec.ofNat 512 (s.clock % 2 ^ 64) <<< 384)
        taken.physWrite func at_ (toBytes timed 64) = (none, u) →
        ∃ t, exec (.faultRecordPost func ring) s = .next t ∧ posted g ((t.func func).fring ring) ∧ t.teams = s.teams ∧ t.mem = u.mem ∧ t.launches = s.launches)
  )

/-- R387 to R390, R396 to R399, R414, R417: SWEEP erases a frame and hands it where it goes; a destroyed key id is free once no frame awaits the sweep; an invalidation completes once its old barges have been performed; a key fault loads its entry from escrow, resumes, or ends the access; an empty pool's fault is handed on. Readings and choices of the model that it rests on: log 36, 62, 68. -/
def Obligations.SecureCore : Prop :=
  ∀ (s : State),
    (∀ frame, let pa := frame * 65536
      let d := frameDie pa
      (Assoc.find (s.die d).erasing pa = none → exec (.sweep frame) s = .next s) ∧
      (∀ dest, Assoc.find (s.die d).erasing pa = some (dest, true) → exec (.sweep frame) s = .next s) ∧
      (∀ dest, Assoc.find (s.die d).erasing pa = some (dest, false) → (s.func 0).running = .none → s.mod.linkQ = [] → ∃ t, exec (.sweep frame) s = .next t ∧
        (∀ k q, q / 65536 = frame → t.byteAt k q = 0) ∧ (∀ c ∈ t.mem, c.1 / 65536 ≠ frame) ∧ (∀ c ∈ s.mem, c.1 / 65536 ≠ frame → c ∈ t.mem) ∧
        Assoc.find (t.die d).erasing pa = none ∧ (t.die d).pool = (s.die d).pool ++ (if dest = 0 then [pa] else []) ∧ (∀ n, pa ∉ (t.key n).frames) ∧ t.threads = s.threads ∧ t.teams = s.teams)) ∧
    (∀ id, exec (.keyIdFree id) s = .next (if (s.key id).state = 3 ∧ (s.key id).frames = [] then s.setKey id { s.key id with state := 0 } else s)) ∧
    (∀ func, (∀ a b c d e, (s.func func).running ≠ .inval a b c d e) → exec (.invalidationComplete func) s = .next s) ∧
    (∀ func stage f c page pages, (s.func func).running = .inval stage f c page pages →
      (s.bargesOut stage f c page pages = true → exec (.invalidationComplete func) s = .next s) ∧
      (s.bargesOut stage f c page pages = false → (∀ n, (s.core n).l1 = []) → ∃ t, exec (.invalidationComplete func) s = .next t ∧ (t.func func).running = .none ∧ (t.func func).cmd = { done := (s.func func).cmd.done + 1, busy := false, result := 0 } ∧
        t.mem = s.mem ∧ ∀ e ∈ t.tlb, e ∈ s.tlb ∧ (pages = 0 ∨ (e.level = 4 ∧ page ≤ e.region ∧ e.region < page + pages) →
          (stage = 1 → e.stage = 1 → e.owner ≠ ckey f c) ∧ (stage = 2 → e.stage = 2 → e.owner ≠ f)))) ∧
    (∀ id t, Assoc.find s.tokens id = some t →
      let home := (s.func t.func).homeDie
      let gpa := (t.fault.extractLsb' 64 64).toNat
      (t.secure = false → exec (.secondStageService id) s = .next s) ∧
      (t.secure = true → t.reason = 4 → (s.die home).pool ≠ [] → exec (.secondStageService id) s = .next (s.resumeToken id 0)) ∧
      (t.secure = true → t.reason = 4 → (s.die home).pool = [] → s.refilling home = true → exec (.secondStageService id) s = .next s) ∧
      (t.secure = true → t.forwarded = true → t.reason ≠ 5 → t.reason ≠ 4 → exec (.secondStageService id) s = .next s) ∧
      (t.secure = true → t.forwarded = false → t.reason ≠ 5 → t.reason ≠ 4 → (s.func t.func).root2 = none → exec (.secondStageService id) s = .next s) ∧
      (t.secure = true → t.forwarded = false → t.reason ≠ 5 → t.reason ≠ 4 → (s.func t.func).root2.isSome = true → ∃ u, exec (.secondStageService id) s = .next u ∧ Assoc.find u.tokens id = some { t with forwarded := true } ∧
        ((u.func 0).fring (s.func t.func).root2Ring).held = ((s.func 0).fring (s.func t.func).root2Ring).held ++ [t.fault]) ∧
      (∀ root fr, t.secure = true → t.reason = 5 → (s.func t.func).root2 = some root → (s.walk2From none t.func gpa 4 1 root).2 = .ok fr → fr.shared = false →
        let gone := (s.key fr.key).state = 0 ∨ (s.key fr.key).state = 3
        ((fr.key = 0 ∧ fr.sealed = true) ∨ (fr.key ≠ 0 ∧ gone) → exec (.secondStageService id) s = .next (s.resumeToken id 1)) ∧
        (fr.key ≠ 0 → ¬ gone → isLpddr fr.pa = true → (s.key fr.key).cached.getLsbD (paDie fr.pa) = false →
          (s.handing t.func = true → exec (.secondStageService id) s = .next s) ∧
          (s.handing t.func = false → (s.keysCached (paDie fr.pa)).length < 512 →
            exec (.secondStageService id) s = .next ((s.setKey fr.key { s.key fr.key with cached := (s.key fr.key).cached ||| BitVec.ofNat 4 (2 ^ paDie fr.pa) }).resumeToken id 0)))))

/-- R406 to R412, R420, R463, R464: a merge attempt takes the engine's next candidate and nothing else: it shares the frame of an equal page, enters a page of a new digest in the directory, or changes nothing; a write to a shared sector is preceded by its copy to the private frame; a handover confirms while it is open, rolls back after its time, and a reset of its function that waited acts at its end; the pages of a moved function follow one by one, and a finished transfer ends the move. Readings and choices of the model that it rests on: log 63, 98, 99. -/
def Obligations.SharingAndMoves : Prop :=
  ∀ (s : State), s.missed = none →
    (∀ func (gpa : W64), s.mod.hashShare = 0 ∨ s.leafAt func gpa.toNat = none → exec (.mergeAttempt func gpa) s = .next s) ∧
    (∀ func (gpa : W64) l, s.leafAt func gpa.toNat = some l → s.mod.hashShare ≠ 0 →
      let die := paDie (eAddr l.e)
      (s.nextCandidate die ≠ some (func * 2 ^ 64 + gpa.toNat) → exec (.mergeAttempt func gpa) s = .next s) ∧
      ((∀ c, (s.ctx c).logMode = 0) → s.nextCandidate die = some (func * 2 ^ 64 + gpa.toNat) →
        let attempt := fun (P : State → Prop) => ∃ t, exec (.mergeAttempt func gpa) s = .next t ∧ t.threads = s.threads ∧ (t.die die).scan = func * 2 ^ 64 + gpa.toNat + 1 ∧ P t
        let frame := eAddr l.e
        let bytes := s.bytesAt (eKey l.e) frame 65536
        let digest := sha3_256 bytes
        let same := fun (i : Nat) => ∃ e, Assoc.find s.hdir i = some e ∧ e.fork = false ∧ e.domain = (s.func func).domain ∧ e.digest = ofBytes 256 digest
        let shares := fun (t : State) (at_ i : Nat) => t.numAt 0 l.at_ 8 = (eKey l.e * 2 ^ 52 + at_ + (l.e % 65536 + 128)) % 2 ^ 64 ∧ t.numAt 0 (l.at_ + 24) 8 = i % 2 ^ 64
        attempt (fun _ => True) ∧
        (l.gpa = gpa.toNat → s.isCandidate func l false = true → (∀ n, (s.core n).l1 = []) → isLpddr l.at_ = true → l.at_ % 32 = 0 →
          (∀ i e, i ∈ digestBucket digest → same i → (∀ j ∈ digestBucket digest, same j → j = i) → Assoc.find s.hdir i = some e →
            (bytes = s.bytesAt (eKey l.e) e.frame 65536 → attempt (fun t => Assoc.find t.hdir i = some { e with refs := e.refs + 1 } ∧ shares t e.frame i ∧ (Assoc.find (t.die (frameDie frame)).erasing frame).isSome = true)) ∧
            (bytes ≠ s.bytesAt (eKey l.e) e.frame 65536 → attempt (fun t => t.hdir = s.hdir ∧ t.mem = s.mem))) ∧
          ((∀ i ∈ digestBucket digest, ¬ same i) →
            (s.freeEntry (digestBucket digest) = none → attempt (fun t => t.hdir = s.hdir ∧ t.mem = s.mem)) ∧
            (∀ i, s.freeEntry (digestBucket digest) = some i → attempt (fun t => shares t frame i ∧
              Assoc.find t.hdir i = some { digest := ofBytes 256 digest, frame := frame, refs := 1, domain := (s.func func).domain, home := paDie frame })))))) ∧
    (∀ func (gpa : W64) fr, s.walk2 func gpa.toNat false true false = .ok fr →
      let reachable := fun (l : SplitLeaf) => s.checkPa (eAddr l.w1 + gpa.toNat % 65536) l.pkey gpa.toNat 4 (fbit l.w0 9) = .ok ()
      let sec := gpa.toNat % 65536 / 1024
      let copies := fun (u : State) (at_ : Nat) (l : SplitLeaf) => ∃ t, exec (.sectorCopy func gpa) s = .next t ∧ t = u.sectorDone at_ l sec ∧ t.threads = s.threads ∧
        (isLpddr at_ = true → at_ % 32 = 0 → isLpddr (eAddr l.w1) = true → at_ / 65536 ≠ eAddr l.w1 / 65536 → l.sectors + 2 ^ sec ≠ 2 ^ 64 - 1 →
          (∀ i < 1024, t.byteAt l.pkey (eAddr l.w1 + 1024 * sec + i) = s.byteAt (eKey l.w0) (eAddr l.w0 + 1024 * sec + i)) ∧ t.numAt 0 (at_ + 16) 8 = l.sectors + 2 ^ sec)
      (fr.split = none ∨ fr.shared = false → exec (.sectorCopy func gpa) s = .next s) ∧
      (∀ at_, fr.split = some at_ → fr.shared = true → (s.func func).privKey = none → (s.readSplit at_).pv = false → exec (.sectorCopy func gpa) s = .next s) ∧
      (∀ at_ pk, fr.split = some at_ → fr.shared = true → (s.func func).privKey = some pk → (s.readSplit at_).pv = false → (s.die (s.func func).homeDie).pool = [] → exec (.sectorCopy func gpa) s = .next s) ∧
      (∀ at_, fr.split = some at_ → fr.shared = true → fbit (s.readSplit at_).sectors sec = false → fbit (s.readSplit at_).w0 7 = true → (s.readSplit at_).pv = true →
        (reachable (s.readSplit at_) → copies s at_ (s.readSplit at_)) ∧
        (¬ reachable (s.readSplit at_) → exec (.sectorCopy func gpa) s = .next s)) ∧
      (∀ at_ pk f rest, fr.split = some at_ → fr.shared = true → fbit (s.readSplit at_).sectors sec = false → fbit (s.readSplit at_).w0 7 = true → (s.readSplit at_).pv = false →
        (s.func func).privKey = some pk → (s.die (s.func func).homeDie).pool = f :: rest → reachable { s.readSplit at_ with w1 := pk * 2 ^ 52 + f + 1 } →
        copies (s.updDie (s.func func).homeDie (fun d => { d with pool := rest })) at_ { s.readSplit at_ with w1 := pk * 2 ^ 52 + f + 1 })) ∧
    (s.mod.handover = none → exec .handoverTimeout s = .next s) ∧
    (∀ h, s.mod.handover = some h →
      (s.clock < h.since + 44000 → exec .handoverTimeout s = .next s) ∧
      (s.clock < h.since + 44000 → (s.func h.func).flrDue = false →
        ∃ t, exec (.lazyPageTransfer h.func) s = .next t ∧ t.mod.handover = none ∧ (t.func h.func).root2 = some h.newRoot ∧ (t.func h.func).homeDie = h.dest ∧ (t.func h.func).oldDie = (s.func h.func).homeDie ∧ (t.func h.func).moving = true ∧ t.mem = s.mem ∧
          ∀ k, (s.key k).owner = h.func → (s.key k).state = 1 ∨ (s.key k).state = 2 → (∃ x, (k, x) ∈ s.keys) → Assoc.rising s.keys = true → (t.key k).state = 1 ∧ (t.key k).home = h.dest) ∧
      (h.since + 44000 ≤ s.clock → (s.func h.func).flrDue = false → ∃ t, exec .handoverTimeout s = .next t ∧ t.mod.handover = none ∧ (t.func 0).cmd = { done := (s.func 0).cmd.done + 1, busy := false, result := 6 } ∧ t.mem = s.mem ∧ (t.func h.func).root2 = (s.func h.func).root2) ∧
      ((s.func h.func).flrDue = true →
        (s.clock < h.since + 44000 → ∃ u : State, exec (.lazyPageTransfer h.func) s = .next (u.resetFunction h.func) ∧ u.mod.handover = none ∧ (u.func h.func).root2 = some h.newRoot ∧ (u.func h.func).homeDie = h.dest ∧ (u.func h.func).moving = true ∧ u.mem = s.mem) ∧
        (h.since + 44000 ≤ s.clock → ∃ u : State, exec .handoverTimeout s = .next (u.resetFunction h.func) ∧ u.mod.handover = none ∧ (u.func 0).cmd = { done := (s.func 0).cmd.done + 1, busy := false, result := 6 } ∧ u.mem = s.mem ∧ (u.func h.func).root2 = (s.func h.func).root2))) ∧
    (∀ func, (∀ h, s.mod.handover = some h → h.func ≠ func) → (s.func func).moving = false → exec (.lazyPageTransfer func) s = .next s) ∧
    (∀ func, (∀ h, s.mod.handover = some h → h.func ≠ func) → (s.func func).moving = true → s.mod.hashShare ≠ 0 → (∀ l ∈ s.leaves func, l.gpa < (s.func func).lazyNext ∨ s.movable (s.func func).oldDie l = none) →
      exec (.lazyPageTransfer func) s = .next (s.setFunc func { s.func func with moving := false })) ∧
    (∀ func l src key f, (∀ h, s.mod.handover = some h → h.func ≠ func) → (s.func func).moving = true → s.mod.hashShare ≠ 0 → (s.leaves func).findSome? (fun l => if l.gpa < (s.func func).lazyNext then none else (s.movable (s.func func).oldDie l).map (fun m => (l, m))) = some (l, src, key) →
      (s.die (s.func func).homeDie).pool.head? = some f → (∀ c, (s.ctx c).logMode = 0) → ∃ t, exec (.lazyPageTransfer func) s = .next t ∧ t.threads = s.threads ∧ (t.func func).lazyNext = l.gpa + 65536 ∧ (t.func func).moving = true ∧
        (Assoc.find (t.die (frameDie src)).erasing src).isSome = true ∧
        (isLpddr l.at_ = true → l.at_ % 32 = 0 → (∀ n, (s.core n).l1 = []) →
          t.numAt 0 (if l.split then l.at_ + 8 else l.at_) 8 = ((if l.split then (s.readSplit l.at_).w1 else l.e) - src + f) % 2 ^ 64 ∧
          (isLpddr f = true → f % 65536 = 0 → src % 65536 = 0 → l.at_ / 65536 ≠ f / 65536 → ∀ i < 65536, t.byteAt key (f + i) = s.byteAt key (src + i))))

/-- R26, R217, R453 to R461: a scrub reports poison and changes no byte; a bank refresh takes the groups in turn; an uncorrectable error poisons its register or scratchpad word, drops a clean cached line, poisons an L1 line with pending bytes, fails a ray, stops the module or restarts the scheduling core; a thermal stop halts every team and waits for module reset. R319, R320, R465 to R467: a stalled log re-reads its tail and goes on with room for a record; an admission confirmed by every other member makes a group active; heartbeats go out on time, one that differs or fails to come suspends its group. Readings and choices of the model that it rests on: log 2, 65, 97. -/
def Obligations.ErrorsLogsAndGroups : Prop :=
  (
    ∀ (s : State) (e : ErrorSite),
      (∀ die group, exec (.wsBankRefresh die group) s = .next (if die < 4 ∧ (s.die die).refresh = group then s.setDie die { s.die die with refresh := (group + 1) % 16 } else s)) ∧
      (∀ line, ∃ t, exec (.memoryScrub line) s = .next t ∧ t.mem = s.mem ∧ t.lines = s.lines ∧ t.threads = s.threads ∧ t.teams = s.teams ∧
        (t.die (if line < 2 ^ 45 then paDie (line * 128) else (line - 2 ^ 45) / 2 ^ 25)).scrubbed = line ∧ (s.poisoned line = false → t.funcs = s.funcs ∧ t.mod = s.mod)) ∧
      (∃ t, exec (.correctedError e) s = .next t ∧ t.mem = s.mem ∧ t.lines = s.lines ∧ t.threads = s.threads ∧ t.teams = s.teams ∧ t.cores = s.cores) ∧
      (e.storage = 0 → (s.thread e.owner).st ≠ .exited → e.index ∉ (s.thread e.owner).poison → exec (.uncorrectableError e) s = .next (s.updThread e.owner (fun th => { th with poison := th.poison ++ [e.index] }))) ∧
      (e.storage = 1 → e.index ∉ (s.team e.owner).spadPoison → exec (.uncorrectableError e) s = .next (s.updTeam e.owner (fun t => { t with spadPoison := t.spadPoison ++ [e.index] }))) ∧
      (∀ l, e.storage = 2 → Assoc.find (s.core e.owner).l1 e.line = some l →
        (l.pend = 0 → ∃ t, exec (.uncorrectableError e) s = .next t ∧ Assoc.find (t.core e.owner).l1 e.line = none ∧ t.mem = s.mem) ∧
        (l.pend ≠ 0 → l.key = 0 ∧ isLpddr (e.line * 128) = true → ∃ t, exec (.uncorrectableError e) s = .next t ∧ t.mod.stopped = 2 ∧ (t.func 0).aerFatal = true ∧ t.mem = s.mem) ∧
        (l.pend ≠ 0 → ¬ (l.key = 0 ∧ isLpddr (e.line * 128) = true) → ∃ t, exec (.uncorrectableError e) s = .next t ∧ Assoc.find (t.core e.owner).l1 e.line = some { l with poison := true } ∧ t.mem = s.mem)) ∧
      (∀ r, e.storage = 7 → Assoc.find s.rays e.owner = some r → r.state = 1 ∨ r.state = 2 ∨ r.state = 3 → r.saved = 0 → exec (.uncorrectableError e) s = .next { s with rays := Assoc.put s.rays e.owner { r with state := 5, code := 7 } }) ∧
      (e.storage = 8 ∨ e.storage = 9 → ∃ t, exec (.uncorrectableError e) s = .next t ∧ t.mod.stopped = 2 ∧ (t.func 0).aerFatal = true ∧ t.mem = s.mem ∧ t.threads = s.threads ∧ ∀ x tm, Assoc.find s.teams x = some tm → tm.life = .resident → (t.team x).life = .halting) ∧
      (e.storage = 10 → (∀ x, s.mod.switch = some x → x.asked = []) → (∀ h, s.mod.handover = some h → (s.func h.func).flrDue = false) → ∃ t, exec (.uncorrectableError e) s = .next t ∧ t.mod.restarting = true ∧ t.mod.switch = none ∧ t.mod.handover = none ∧ t.mem = s.mem ∧ t.threads = s.threads ∧ t.teams = s.teams) ∧
      (exec .schedCoreRestart s = .next (s.updMod (fun m => { m with restarting := false }))) ∧
      (s.mod.stopped ≠ 0 → exec .thermalStop s = .next s) ∧
      (s.mod.stopped = 0 → ∃ t, exec .thermalStop s = .next t ∧ t.mod.stopped = 1 ∧ t.mod.thermal = true ∧ t.mem = s.mem ∧ t.threads = s.threads ∧ ∀ x tm, Assoc.find s.teams x = some tm → tm.life = .resident → (t.team x).life = .halting)
  ) ∧
  (
    ∀ (s : State),
      (∀ func ctx, (s.func func).iwHeld = [] → let c := ckey func ctx
        let x := s.ctx c
        (x.logMode = 0 → exec (.logTailReread func ctx) s = .next s) ∧
        (x.logMode = 1 → x.stalled = false ∨ s.clock < x.rereadAt + 4096 → exec (.logTailReread func ctx) s = .next s) ∧
        (x.logMode = 2 → x.order < x.logTail ∨ s.clock < x.rereadAt + 4096 → exec (.logTailReread func ctx) s = .next s) ∧
        (∀ bs u, x.logMode = 2 → x.stalled = false → x.logTail ≤ x.order → x.rereadAt + 4096 ≤ s.clock → s.devRead c (x.logBlock.toNat + 0x18) 8 = (.ok bs, u) →
          ∃ t, exec (.logTailReread func ctx) s = .next t ∧ (t.ctx c).logTail = ofBytesNat bs ∧ (t.ctx c).rereadAt = s.clock) ∧
        (∀ bs u, x.logMode = 1 → x.stalled = true → x.rereadAt + 4096 ≤ s.clock → s.devRead c (x.logBlock.toNat + 0x18) 8 = (.ok bs, u) →
          ∃ t, exec (.logTailReread func ctx) s = .next t ∧ (t.ctx c).logTail = ofBytesNat bs ∧ (t.ctx c).rereadAt = s.clock ∧ (t.ctx c).stalled = !decide (64 ≤ ({ x with logTail := ofBytesNat bs, rereadAt := s.clock } : Ctx).logFree))) ∧
      (∀ group member g, Assoc.find s.groups group = some g →
        let bit_ : BitVec 32 := BitVec.ofNat 32 (2 ^ (member % 32))
        let others : BitVec 32 := BitVec.ofNat 32 (2 ^ (g.count + 1) - 1) &&& ~~~BitVec.ofNat 32 (2 ^ (g.index % 32))
        let g1 := { g with confirmed := g.confirmed ||| bit_ }
        (member ≤ g.count → member ≠ g.index → exec (.admissionConfirmation group member) s = .next { s with groups := Assoc.put s.groups group (if (g.state = 1 ∨ g.state = 3) ∧ g.admitted &&& others = others ∧ g1.confirmed &&& others = others then { g1 with state := 2, activeAt := s.clock } else g1) }) ∧
        (g.count < member ∨ member = g.index → exec (.admissionConfirmation group member) s = .next s ∧ ∀ resets digest, exec (.heartbeatReceive group member resets digest) s = .next s) ∧
        (∀ resets digest, member ≤ g.count → member ≠ g.index → s.mod.linkUp = true →
          let kept := exec (.heartbeatReceive group member resets digest) s = .next { s with groups := Assoc.put s.groups group { g with beats := Assoc.put g.beats member (resets, digest, s.clock) } }
          (Assoc.find g.beats member = none → kept) ∧
          (∀ at_, Assoc.find g.beats member = some (resets, digest, at_) → kept) ∧
          (∀ b, Assoc.find g.beats member = some b → (b.1 ≠ resets ∨ b.2.1 ≠ digest) → s.colls = [] → ∃ t g', exec (.heartbeatReceive group member resets digest) s = .next t ∧ Assoc.find t.groups group = some g' ∧
            g'.state = (if g.state = 2 then 3 else g.state) ∧ g'.changed = g.changed ||| bit_ ∧ g'.admitted = g.admitted &&& ~~~bit_ ∧ Assoc.find g'.beats member = some (resets, digest, s.clock))) ∧
        (let last := match Assoc.find g.beats member with | some b => max b.2.2 g.activeAt | none => g.activeAt
         (g.state ≠ 2 ∨ g.count < member ∨ member = g.index ∨ s.clock < last + 8800000 → exec (.heartbeatTimeout group member) s = .next s) ∧
         (g.state = 2 → member ≤ g.count → member ≠ g.index → last + 8800000 ≤ s.clock → s.colls = [] → ∃ t g', exec (.heartbeatTimeout group member) s = .next t ∧ Assoc.find t.groups group = some g' ∧ g'.state = 3 ∧ g'.changed = g.changed ||| bit_))) ∧
      (∃ t, exec .heartbeatSend s = .next t ∧ t.mem = s.mem ∧ SameTeams s t ∧ ∀ n g, Assoc.find s.groups n = some g →
        Assoc.find t.groups n = some (if g.state = 2 ∧ g.sent + 2200000 ≤ s.clock ∧ s.mod.linkUp = true then { g with sent := s.clock, out := some (s.mod.resets, s.beatDigest) } else g))
  )

/-- R12, R14, R22 to R27: module reset is reset with memory's bytes and every key gone; the scheduler runs once the module has booted; a function's reset ends its launches and teams; the link queues while it is down and delivers when it trains; power and governor settings take their place; the sideband answers. Readings and choices of the model that it rests on: log 9, 64, 66, 67. -/
def Obligations.ResetsAndLinks : Prop :=
  ∀ (s : State),
    (∃ t, exec .moduleReset s = .next t ∧ exec (.functionLevelReset 0) s = .next t ∧ t.mem = s.mem ∧ t.teams = [] ∧ t.threads = [] ∧ t.launches = [] ∧ t.funcs = State.reset.funcs ∧ t.ctxs = State.reset.ctxs ∧ t.cores = State.reset.cores ∧ t.mod.ready = State.reset.mod.ready ∧
      t.mod.resets = s.mod.resets + 1 ∧ t.mod.bootFailed = !t.mod.booted ∧ (∀ k, (t.key k).state = 0 ∧ (t.key k).cached = 0) ∧ ∀ k x, Assoc.find s.keys k = some x → (t.key k).gen = x.gen + 1) ∧
    (exec .schedulerRunning s = .next (if s.mod.booted = true ∧ s.mod.stopped = 0 then s.updMod (fun m => { m with ready := true }) else s)) ∧
    (∀ func, 64 < func → exec (.functionLevelReset func) s = .next s) ∧
    (∀ func, 0 < func → func ≤ 64 → s.handing func = true → exec (.functionLevelReset func) s = .next (s.updFunc func (fun f => { f with flrDue := true }))) ∧
    (∀ func, 0 < func → func ≤ 64 → s.handing func = false → Quiet s → s.missed = none → ∃ t, exec (.functionLevelReset func) s = .next t ∧ (∀ p ∈ t.launches, p.2.func ≠ func) ∧ (∀ p ∈ t.tokens, p.2.func ≠ func) ∧
      ((∀ p ∈ s.teams, p.2.func ≠ func ∨ p.2.life = .ended) → (∀ p ∈ s.keys, p.2.owner ≠ func) → t.mem = s.mem ∧ t.teams = s.teams ∧ t.threads = s.threads) ∧
      ∀ i r, Assoc.find (s.func func).er i = some r → ∃ q, Assoc.find (t.func func).er i = some q ∧ q.held = [] ∧ q.tail = q.head) ∧
    (exec .hostLinkDown s = .next (s.updMod (fun m => { m with linkUp := false }))) ∧
    (∀ gen width protocol, (s.mod.linkUp = true ∨ width ∉ [4, 8, 16] ∨ gen ∉ [5, 6, 7] ∨ protocol ∉ [1, 2, 3]) → exec (.hostLinkUp gen width protocol) s = .next s) ∧
    (∀ gen width protocol, s.mod.linkUp = false → width ∈ [4, 8, 16] → gen ∈ [5, 6, 7] → protocol ∈ [1, 2, 3] → (∀ m ∈ s.mod.linkQ, ∃ f v, m = .msix f v ∧ v < (if f = 0 then 128 else 32)) →
      ∃ t, exec (.hostLinkUp gen width protocol) s = .next t ∧ t.mod.linkUp = true ∧ t.mod.gen = gen ∧ t.mod.width = width ∧ t.mod.protocol = protocol ∧ t.mod.linkQ = [] ∧ t.mem = s.mem ∧
        t.mod.msix.length = s.mod.msix.length + s.mod.linkQ.length ∧ ∀ f v, s.mod.linkQ = [.msix f v] → t.mod.msix = (f, v) :: s.mod.msix) ∧
    (∀ die classes, (4 ≤ die → exec (.issueGovernor (die, classes)) s = .next s) ∧
      (die < 4 → ∃ t, exec (.issueGovernor (die, classes)) s = .next t ∧ (t.die die).withheld = min classes 3 ∧ (∀ d, d ≠ die → t.die d = s.die d) ∧ (t.mod.governed = true ↔ ∃ d < 4, (t.die d).withheld ≠ 0) ∧ t.mem = s.mem ∧ SameTeams s t)) ∧
    (∀ w, exec (.sidebandSetPower w) s = .next (if 700 ≤ w ∧ w ≤ 1400 then s.updMod (fun m => { m with power := w }) else s)) ∧
    (∀ what, ∃ t x, exec (.sidebandRead what) s = .next t ∧ t.mod.sideband = x :: s.mod.sideband ∧ t.mem = s.mem ∧ SameTeams s t ∧ (what = 6 → x = if s.mod.bootFailed then 1 else 0) ∧ (what = 7 → x = s.mod.stopped))

/-- R9, R13, R15, R18: register writes go to their registers, discard at reserved offsets and record a wrong size; a BAR2 access is performed whole or refused, a refused read returning all ones; CXL.mem reaches the windows of general memory that the physical function configured, alone. Readings and choices of the model that it rests on: log 66, 67, 71. -/
def Obligations.HostAccesses : Prop :=
  ∀ (s u : State) (func offset : Nat),
    (∀ size v, s.hostOpen = false ∨ 64 < func ∨ 0x100000 ≤ offset → exec (.registerWrite func offset size v) s = .next s) ∧
    (s.hostOpen = true → func ≤ 64 →
      (∀ size v, 0x40000 ≤ offset → offset < 0x100000 → offset / 64 ≠ 0x50000 / 64 → offset / 64 ≠ 0x52000 / 64 → (size ≠ 4 ∧ size ≠ 8) ∨ offset % size ≠ 0 → exec (.registerWrite func offset size v) s = .next (s.postEvent func 0 { kind := 3, faddr := BitVec.ofNat 64 offset })) ∧
      (∀ v ring, ring < 64 → exec (.registerWrite func (0x40000 + 32 * ring) 8 v) s = .next (s.updRing func ring (fun r => if r.ctl.getLsbD 0 then r else { r with base := v &&& 0xFFFFFFFFFFFFF01F#64 }))) ∧
      (∀ v ring, ring < 64 → exec (.registerWrite func (0x40018 + 32 * ring) 8 v) s = .next (s.updRing func ring (fun r => { r with tail := v.setWidth 32 }))) ∧
      (∀ v ring, ring < 64 → exec (.registerWrite func (0x40810 + 32 * ring) 8 v) s = .next s) ∧
      (∀ v, 0x53000 ≤ offset → offset < 0x100000 → offset % 8 = 0 → exec (.registerWrite func offset 8 v) s = .next s)) ∧
    (∀ data : List Byte, s.bar2Open func offset data.length = false ∨ (s.windowAt func offset).isSome = true → exec (.bar2Write func offset data) s = .next s) ∧
    (∀ data : List Byte, s.bar2Open func offset data.length = true → s.windowAt func offset = none →
      (s.bar2Serves func offset data.length true = false → ∃ t, exec (.bar2Write func offset data) s = .next t ∧ t.mem = s.mem ∧ SameTeams s t) ∧
      (s.bar2Serves func offset data.length true = true → s.physWrite func offset data = (none, u) → ∃ t, exec (.bar2Write func offset data) s = .next t ∧ t.mem = u.mem ∧ t.threads = s.threads)) ∧
    (∀ count, s.bar2Open func offset count = false → exec (.bar2Read func offset count) s = .next s) ∧
    (∀ count, s.bar2Open func offset count = true →
      (s.bar2Serves func offset count false = false → ∃ t, exec (.bar2Read func offset count) s = .next t ∧ t.mod.reads = List.replicate count 0xFF :: s.mod.reads ∧ t.mem = s.mem ∧ SameTeams s t) ∧
      (∀ bs, s.bar2Serves func offset count false = true → s.physRead func offset count = .ok bs → ∃ t, exec (.bar2Read func offset count) s = .next t ∧ t.mod.reads = bs :: s.mod.reads ∧ t.mem = s.mem ∧ SameTeams s t)) ∧
    (∀ write pa (data : List Byte), s.hostOpen = false ∨ s.mod.protocol < 2 → exec (.cxlMemAccess write pa data) s = .next s) ∧
    (∀ write pa (data : List Byte), s.hostOpen = true → 2 ≤ s.mod.protocol →
      let managed := fun (a : Nat) => (∃ w ∈ s.mod.cxlWindows, w.1 ≤ a ∧ a < w.1 + w.2) ∧ a < 0x8000000000 ∧ isSecure a = false
      ((∃ i < data.length, ¬ managed (pa + i)) → exec (.cxlMemAccess write pa data) s = .next s) ∧
      ((∀ i < data.length, managed (pa + i)) →
        exec (.cxlMemAccess false pa data) s = .next (s.updMod (fun m => { m with reads := (List.range data.length).map (fun i => s.byteAt 0 (pa + i)) :: m.reads })) ∧
        ∃ t, exec (.cxlMemAccess true pa data) s = .next t ∧ SameTeams s t ∧ (∀ i b, data[i]? = some b → t.byteAt 0 (pa + i) = b) ∧ ∀ k q, q < 2 ^ 52 → (q / 128 < pa / 128 ∨ (pa + data.length) / 128 < q / 128) → t.byteAt k q = s.byteAt k q))

/-! ## Commands -/

/-- R22, R361: a command written while the device cannot take one does nothing; one with nonzero reserved head bytes ends with result 2; one for the physical function alone, written by a virtual one, with result 3. R315, R319, R357, R361, R363, R387, R394, R400, R423: what the commands of every function do: contexts, logs, queues, berths, quotas, first-stage roots and invalidations, resumed faults, reports and extensions. Readings and choices of the model that it rests on: log 59, 60, 61. -/
def Obligations.FunctionCommands : Prop :=
  (
    ∀ (s : State) (c : CmdBuf) (i : Instr),
      let own := [Instr.cmdContext c, .cmdLogNone c, .cmdLogRecord c, .cmdLogReplay c, .cmdQueueEnable c, .cmdQueueDisable c, .cmdBerth c, .cmdQuota c, .cmdSwitch c, .cmdRoot1 c, .cmdInval1 c, .cmdResumeRetry c, .cmdResumeAbort c, .cmdReport c, .cmdExtend c]
      let pf := [Instr.cmdGrant c, .cmdQuantum c, .cmdPower c, .cmdRoot2 c, .cmdInval2 c, .cmdKeyCreate c, .cmdKeyDestroy c, .cmdKeySetPrivate c, .cmdDomainPlace c, .cmdDomainHashShare c, .cmdMergeList c, .cmdUnref c, .cmdFork c, .cmdWorldMask c, .cmdWorldWays c,
        .cmdGroupCreate c, .cmdGroupAdmit c, .cmdGroupRemove c, .cmdGroupQuery c, .cmdGroupDissolve c, .cmdPoolDonate c, .cmdPoolSweepShare c, .cmdPoolZeroNow c, .cmdMove c]
      i ∈ own ++ pf →
      (s.hostOpen = false ∨ s.mod.ready = false ∨ 64 < c.func → exec i s = .next s) ∧
      ((s.func c.func).cmd.busy = true → (s.func c.func).running ≠ .waiting c.w → exec i s = .next s) ∧
      (s.hostOpen = true → s.mod.ready = true → (s.func c.func).cmd.busy = false → c.func ≤ 64 → bufU c.w 1 1 ≠ 0 ∨ bufU c.w 3 5 ≠ 0 → exec i s = .next (s.ended c.func 2)) ∧
      (CmdTaken s c → i ∈ pf → c.func ≠ 0 → exec i s = .next (s.ended c.func 3))
  ) ∧
  (
    ∀ (s v : State) (c : CmdBuf), CmdTaken s c →
      let u := fun (off n : Nat) => bufU c.w off n
      let k := ckey c.func (u 2 1)
      let x := s.ctx k
      let ends := fun (i : Instr) (t : State) (r : Nat) => exec i s = .next (t.ended c.func r)
      let fails := fun (i : Instr) (r : Nat) => ends i s r
      (let world := u 20 1 % 16
       ((s.func c.func).worldMask.getLsbD world = false → fails (.cmdContext c) 3) ∧
       ((s.func c.func).worldMask.getLsbD world = true → 65536 < u 18 2 * 16 ∨ u 24 8 % 65536 ≠ 0 → fails (.cmdContext c) 5) ∧
       ((s.func c.func).worldMask.getLsbD world = true → u 18 2 * 16 ≤ 65536 → u 24 8 % 65536 = 0 → ends (.cmdContext c)
         (s.setCtx k { x with stackBase := BitVec.ofNat 80 (u 8 10), stackSize := u 18 2 * 16, world := world, mode := BitVec.ofNat 8 (u 21 1 % 64), frameBase := BitVec.ofNat 64 (u 24 8), frameUnits := u 32 4 }) 0)) ∧
      (s.hasTeams c.func (u 2 1) = true → fails (.cmdLogNone c) 4) ∧
      (s.hasTeams c.func (u 2 1) = false → ends (.cmdLogNone c) (s.setCtx k { x with logMode := 0, stalled := false, diverged := false, miss := false }) 0) ∧
      (∀ i m, (i = .cmdLogRecord c ∧ m = 1) ∨ (i = .cmdLogReplay c ∧ m = 2) →
        (u 8 10 % 64 ≠ 0 → fails i 5) ∧
        (∀ bs, u 8 10 % 64 = 0 → s.devRead k (u 8 10) 64 = (.ok bs, v) →
          let b := ofBytesNat bs
          let code := if fld b 64 43 ≠ 0 ∨ fld b 264 24 ≠ 0 ∨ fld b 288 32 ≠ 0 ∨ fld b 384 128 ≠ 0 then 2 else if 20 < fld b 107 5 ∨ fld b 0 16 ≠ 0 then 5 else if s.hasTeams c.func (u 2 1) then 4 else 0
          (code ≠ 0 → ends i v code) ∧
          (code = 0 → ∃ t, exec i s = .next t ∧ (t.func c.func).cmd = { done := (s.func c.func).cmd.done + 1, busy := false, result := 0 } ∧ (t.ctx k).logMode = m ∧ (t.ctx k).logBlock = BitVec.ofNat 80 (u 8 10) ∧ (t.ctx k).order = 0 ∧
            (t.ctx k).logN = fld b 107 5 + 10 ∧ (t.ctx k).logTail = fld b 192 64 ∧ (t.ctx k).stalled = false ∧ (t.ctx k).diverged = false))) ∧
      (s.hwQueue c.func (u 8 2) = none → fails (.cmdQueueEnable c) 5 ∧ fails (.cmdQueueDisable c) 5) ∧
      (∀ q, s.hwQueue c.func (u 8 2) = some q →
        (63 < u 10 1 → fails (.cmdQueueEnable c) 5) ∧
        (u 10 1 ≤ 63 → (∀ p ∈ s.rqs, p.2.func ≠ c.func ∨ p.2.ctx ≠ u 2 1) → ∃ t, exec (.cmdQueueEnable c) s = .next t ∧ (t.func c.func).cmd.result = 0 ∧ (t.func c.func).cmd.done = (s.func c.func).cmd.done + 1 ∧ SameTeams s t ∧ t.mem = s.mem ∧
          t.queue q = { func := c.func, slot := u 8 2, ctx := u 2 1, ring := u 10 1, enabled := true, bound := true, cword := BitVec.ofNat 80 (u 16 10) } ∧ (t.queue q).nextSeq = 1) ∧
        ((s.queue q).func = c.func → ends (.cmdQueueDisable c) (s.setQueue q { s.queue q with enabled := false }) 0) ∧
        ((s.queue q).func ≠ c.func → ∃ t, exec (.cmdQueueDisable c) s = .next t ∧ t.queue q = s.queue q ∧ (t.func c.func).cmd.result = 0)) ∧
      (s.missed = none →
        let core := u 8 2
        let berth := u 10 1
        let r : BitVec 256 := c.w.extractLsb' 256 256
        (x.hostSched = false → fails (.cmdBerth c) 3) ∧
        (x.hostSched = true → 383 < core ∨ 31 < berth → fails (.cmdBerth c) 5) ∧
        (x.hostSched = true → core ≤ 383 → berth ≤ 31 →
          (r.getLsbD 0 = true → brFunc r ≠ c.func ∨ brCtx r ≠ u 2 1 → fails (.cmdBerth c) 3) ∧
          (∀ ok, r.getLsbD 0 = true → brFunc r = c.func → brCtx r = u 2 1 → s.place core berth r = (ok, v) → v.missed = none → ends (.cmdBerth c) v (if ok then 0 else 4)) ∧
          (r.getLsbD 0 = false → s.teamAt core berth = none → fails (.cmdBerth c) 0) ∧
          (∀ n, r.getLsbD 0 = false → s.teamAt core berth = some n → (s.team n).func ≠ c.func ∨ (s.team n).ctx ≠ u 2 1 → fails (.cmdBerth c) 3) ∧
          (∀ n, r.getLsbD 0 = false → s.teamAt core berth = some n → (s.team n).func = c.func → (s.team n).ctx = u 2 1 → (s.team n).life = .halting → ends (.cmdBerth c) (s.setTeam n { s.team n with leaving := true }) 0))) ∧
      ((∃ d < 4, 256 < u (8 + 2 * d) 2) → fails (.cmdQuota c) 5) ∧
      ((∀ d < 4, u (8 + 2 * d) 2 ≤ 256) → ∃ t, exec (.cmdQuota c) s = .next t ∧ (t.func c.func).cmd.result = 0 ∧ (∀ d < 4, Assoc.find (t.ctx k).quota d = some (u (8 + 2 * d) 2)) ∧ SameTeams s t) ∧
      (u 8 2 ≠ 0 ∨ 63 < u 16 1 → fails (.cmdRoot1 c) 5) ∧
      (u 8 2 = 0 → u 16 1 ≤ 63 → ∃ t, exec (.cmdRoot1 c) s = .next t ∧ t.runs c.func (.inval 1 c.func (u 2 1) 0 0) ∧ t.ctx k = { x with root1 := BitVec.ofNat 64 (u 8 8), root1Ring := u 16 1, root1En := decide (u 17 1 % 2 = 1) } ∧ SameTeams s t) ∧
      (u 8 2 ≠ 0 → fails (.cmdInval1 c) 5) ∧
      (u 8 2 = 0 → ∃ t, exec (.cmdInval1 c) s = .next t ∧ t.runs c.func (.inval 1 c.func (u 2 1) (u 8 10 / 65536) (u 20 4)) ∧ SameTeams s t ∧ t.mem = s.mem) ∧
      (∀ i a, (i = .cmdResumeRetry c ∧ a = 0) ∨ (i = .cmdResumeAbort c ∧ a = 1) →
        (c.func ≠ 0 → u 17 1 ≠ c.func → fails i 3) ∧
        (c.func = 0 ∨ u 17 1 = c.func → Assoc.find s.tokens (u 8 8) = none → fails i 5) ∧
        (∀ t, c.func = 0 ∨ u 17 1 = c.func → Assoc.find s.tokens (u 8 8) = some t → t.func ≠ u 17 1 ∨ (t.secure = true ∧ (c.func ≠ 0 ∨ t.forwarded = false)) → fails i 5) ∧
        (∀ t, c.func = 0 ∨ u 17 1 = c.func → Assoc.find s.tokens (u 8 8) = some t → t.func = u 17 1 → (t.secure = true → c.func = 0 ∧ t.forwarded = true) → s.resumeToken (u 8 8) a = v → v.missed = none → ends i v 0)) ∧
      (c.func ≠ 0 → u 9 1 ≠ c.func → fails (.cmdReport c) 3) ∧
      (c.func = 0 ∨ u 9 1 = c.func → 64 < u 9 1 ∨ u 16 8 % 4096 ≠ 0 → fails (.cmdReport c) 5) ∧
      (let s1 := s.updMod (fun m => { m with signed := m.signed + 1 })
       c.func = 0 ∨ u 9 1 = c.func → u 9 1 ≤ 64 → u 16 8 % 4096 = 0 → s1.physWrite c.func (u 16 8) (s1.report (u 9 1) (leBytes 32 (u 32 32))) = (none, v) → ends (.cmdReport c) v 0) ∧
      ends (.cmdExtend c) (s.setFunc c.func { s.func c.func with m3 := ofBytes 512 (sha3_512 (toBytes (s.func c.func).m3 64 ++ leBytes 56 (u 8 56))) }) 0
  )

/-- R25, R215, R221, R368, R369, R387, R398 to R410, R415, R416: the commands of the physical function for grants, slices, power, second-stage roots and invalidations, keys, domains, merging, worlds and pools, and the switch of any function's contexts. Readings and choices of the model that it rests on: log 59, 60, 72. -/
def Obligations.ModuleCommands : Prop :=
  ∀ (s : State) (c : CmdBuf), CmdTaken s c →
    let u := fun (off n : Nat) => bufU c.w off n
    let ends := fun (i : Instr) (t : State) (r : Nat) => exec i s = .next (t.ended c.func r)
    let fails := fun (i : Instr) (r : Nat) => ends i s r
    (let out := ckey c.func (u 8 1)
     let into := ckey c.func (u 9 1)
     let mine := fun (t : Team) => t.func = c.func ∧ t.ctx = u 8 1 ∧ t.onCore t.core = true
     (s.mod.switch.isSome = true → fails (.cmdSwitch c) 4) ∧
     (s.mod.switch = none → (∀ n (t : Team), (n, t) ∈ s.teams → ¬ mine t) → out ≠ into → ∃ t, exec (.cmdSwitch c) s = .next t ∧ (t.func c.func).cmd = { done := (s.func c.func).cmd.done + 1, busy := false, result := 0 } ∧ t.mod.switch = none ∧
       (t.ctx out).switchedOut = true ∧ (t.ctx into).switchedOut = false ∧ SameTeams s t) ∧
     (∀ n tm, s.mod.switch = none → Assoc.find s.teams n = some tm → mine tm → tm.life = .resident → ∃ t a, exec (.cmdSwitch c) s = .next t ∧ t.runs c.func .switch ∧ t.mod.switch = some { func := c.func, out := u 8 1, into := u 9 1, since := s.clock, asked := a } ∧ (tm.leaving = false → (n, .resident) ∈ a) ∧ (t.team n).life = .halting)) ∧
    (c.func = 0 →
      (let die := u 8 1
       let x := ckey (u 9 1) (u 10 1)
       let base := u 12 4
       let size := u 16 4
       let foreign := fun (i : Nat) => (Assoc.find (s.die die).wsHolder (base + i)).getD 0 ≠ x + 1
       (3 < die ∨ 64 < u 9 1 ∨ 65536 < base + size → fails (.cmdGrant c) 5) ∧
       (die ≤ 3 → u 9 1 ≤ 64 → base + size ≤ 65536 →
         ((∀ i < size, ¬ foreign i) → ∃ t, exec (.cmdGrant c) s = .next t ∧ (t.func 0).cmd.result = 0 ∧ (t.func 0).running = .none ∧ Assoc.find (t.ctx x).grants die = some { base := base, size := size } ∧ SameTeams s t) ∧
         ((∃ i < size, foreign i) → ∃ t, exec (.cmdGrant c) s = .next t ∧ t.runs 0 (.grant die (u 9 1) (u 10 1) base size) ∧ (∀ i < size, foreign i → (Assoc.find (t.die die).erasing (wsBase die + (base + i) * 65536)).isSome = true) ∧ SameTeams s t))) ∧
      (63 < u 8 1 ∨ 64 < u 9 1 → fails (.cmdQuantum c) 5) ∧
      (u 8 1 ≤ 63 → u 9 1 ≤ 64 → ∃ t, exec (.cmdQuantum c) s = .next t ∧ (t.func 0).cmd.result = 0 ∧ t.mod.quantum = (if u 10 2 = 0 then Assoc.del s.mod.quantum (u 8 1) else Assoc.put s.mod.quantum (u 8 1) (u 9 1, u 10 2)) ∧ SameTeams s t) ∧
      (u 8 2 < 700 ∨ 1400 < u 8 2 → fails (.cmdPower c) 5) ∧
      (700 ≤ u 8 2 → u 8 2 ≤ 1400 → ends (.cmdPower c) (s.updMod (fun m => { m with power := u 8 2 })) 0) ∧
      (64 < u 8 1 ∨ u 16 8 % 65536 ≠ 0 ∨ 63 < u 24 1 → fails (.cmdRoot2 c) 5) ∧
      (u 8 1 ≤ 64 → u 16 8 % 65536 = 0 → u 24 1 ≤ 63 → ∃ t, exec (.cmdRoot2 c) s = .next t ∧ t.runs 0 (.inval 2 (u 8 1) 0 0 0) ∧ (t.func (u 8 1)).root2 = some (u 16 8) ∧ (t.func (u 8 1)).root2Ring = u 24 1 ∧
        (t.func (u 8 1)).homeDie = (if (s.func (u 8 1)).homeFixed then (s.func (u 8 1)).homeDie else paDie (u 16 8)) ∧ SameTeams s t) ∧
      (64 < u 8 1 ∨ u 16 2 ≠ 0 → fails (.cmdInval2 c) 5) ∧
      (u 8 1 ≤ 64 → u 16 2 = 0 → ∃ t, exec (.cmdInval2 c) s = .next t ∧ t.runs 0 (.inval 2 (u 8 1) 0 (u 16 8 / 65536) (u 24 4)) ∧ SameTeams s t ∧ t.mem = s.mem) ∧
      (let id := u 10 2 % 4096
       let key := s.key id
       let bad := if u 10 2 / 4096 ≠ 0 ∨ u 12 52 ≠ 0 then 2 else if 64 < u 9 1 ∨ id = 0 then 5 else 0
       (bad ≠ 0 → fails (.cmdKeyCreate c) bad ∧ fails (.cmdKeyDestroy c) bad ∧ fails (.cmdKeySetPrivate c) bad) ∧
       (bad = 0 → (key.state ≠ 0 → fails (.cmdKeyCreate c) 4) ∧ (key.state = 0 ∨ key.state = 3 → fails (.cmdKeyDestroy c) 4) ∧ (key.state ≠ 1 ∨ key.owner ≠ u 9 1 → fails (.cmdKeySetPrivate c) 4) ∧
         (key.state = 0 → ∃ t, exec (.cmdKeyCreate c) s = .next t ∧ (t.func 0).cmd.result = 0 ∧ (t.key id).state = 1 ∧ (t.key id).owner = u 9 1 ∧ (t.key id).home = (s.func (u 9 1)).homeDie ∧ (t.key id).gen = key.gen + 1 ∧ (t.key id).cached = 0 ∧ SameTeams s t) ∧
         (key.state = 1 → ends (.cmdKeyDestroy c) (s.destroyKey id) 0 ∧ ((s.destroyKey id).key id).state = 3 ∧ ((s.destroyKey id).key id).cached = 0 ∧ ∀ p ∈ (s.destroyKey id).l2, p.2.key ≠ id) ∧
         (key.state = 2 → ∃ t, exec (.cmdKeyDestroy c) s = .next t ∧ t.runs 0 (.waiting c.w) ∧ t.key id = key) ∧
         (key.state = 1 → key.owner = u 9 1 → ∃ t, exec (.cmdKeySetPrivate c) s = .next t ∧ (t.func 0).cmd.result = 0 ∧ (t.func (u 9 1)).privKey = some id ∧ SameTeams s t))) ∧
      (let d := u 10 2 % 4096
       let kk := u 12 2 % 4096
       let bad := if u 10 2 / 4096 ≠ 0 ∨ u 12 2 / 4096 ≠ 0 ∨ u 15 49 ≠ 0 then 2 else if 64 < u 9 1 then 5 else if d ≠ 0 ∧ ((s.key kk).state ≠ 1 ∨ ∃ p ∈ s.funcs, p.1 ≠ u 9 1 ∧ p.2.domain = d ∧ p.2.dkey ≠ kk) then 4 else 0
       (bad ≠ 0 → fails (.cmdDomainPlace c) bad) ∧
       (bad = 0 → ∃ t, exec (.cmdDomainPlace c) s = .next t ∧ (t.func 0).cmd.result = 0 ∧ (t.func (u 9 1)).domain = d ∧ (t.func (u 9 1)).dkey = kk ∧ SameTeams s t)) ∧
      (u 15 49 ≠ 0 → fails (.cmdDomainHashShare c) 2) ∧ (u 15 49 = 0 → 8 < u 14 1 → fails (.cmdDomainHashShare c) 5) ∧
      (u 15 49 = 0 → u 14 1 ≤ 8 → ends (.cmdDomainHashShare c) (s.updMod (fun m => { m with hashShare := u 14 1 })) 0) ∧
      (u 20 44 ≠ 0 → fails (.cmdMergeList c) 2) ∧ (u 20 44 = 0 → u 8 8 % 16 ≠ 0 ∨ u 16 4 = 0 ∨ 4096 < u 16 4 → fails (.cmdMergeList c) 5) ∧
      (u 20 44 = 0 → u 8 8 % 16 = 0 → 0 < u 16 4 → u 16 4 ≤ 4096 → ends (.cmdMergeList c) (s.mergeAll (u 8 8) (u 16 4) 0) 0) ∧
      (u 12 52 ≠ 0 → fails (.cmdUnref c) 2) ∧ (u 12 52 = 0 → Assoc.find s.hdir (u 8 4) = none → fails (.cmdUnref c) 4) ∧
      (∀ e, u 12 52 = 0 → Assoc.find s.hdir (u 8 4) = some e → (e.refs = 0 → fails (.cmdUnref c) 4) ∧ (2 ≤ e.refs → ends (.cmdUnref c) { s with hdir := Assoc.put s.hdir (u 8 4) { e with refs := e.refs - 1 } } 0) ∧
        (e.refs = 1 → ∃ t, exec (.cmdUnref c) s = .next t ∧ Assoc.find t.hdir (u 8 4) = none ∧ (t.func 0).cmd.result = 0 ∧ (Assoc.find (t.die (paDie e.frame)).erasing e.frame).isSome = true)) ∧
      (u 14 50 ≠ 0 → fails (.cmdWorldMask c) 2 ∧ fails (.cmdWorldWays c) 2) ∧ (u 14 50 = 0 → 64 < u 9 1 → fails (.cmdWorldMask c) 5) ∧
      (u 14 50 = 0 → u 9 1 ≤ 64 → ∃ t, exec (.cmdWorldMask c) s = .next t ∧ (t.func 0).cmd.result = 0 ∧ (t.func (u 9 1)).worldMask = (BitVec.ofNat 16 (u 12 2) ||| 1) ∧ SameTeams s t) ∧
      (let w := u 10 1
       let m : BitVec 16 := BitVec.ofNat 16 (u 12 2)
       let theirs := (Assoc.vals (s.mod.ways.filter (fun p => decide (p.1 ≠ w)))).foldl (· ||| ·) 0#16
       let bad := w = 0 ∨ 15 < w ∨ m &&& theirs ≠ 0 ∨ 12 < ((List.range 16).filter (fun i => (m ||| theirs).getLsbD i)).length
       u 14 50 = 0 → (bad → fails (.cmdWorldWays c) 5) ∧
         (¬ bad → ∃ t, exec (.cmdWorldWays c) s = .next t ∧ (t.func 0).cmd.result = 0 ∧ t.mod.ways = (if m = 0 then Assoc.del s.mod.ways w else Assoc.put s.mod.ways w m) ∧ SameTeams s t ∧ t.mem = s.mem ∧
           ∀ p, p ∈ t.l2 ↔ p ∈ s.l2 ∧ (s.waysOf w ^^^ m).getLsbD p.2.way = false)) ∧
      (let die := u 9 1
       let frames := (List.range (u 24 4)).map (fun i => u 16 8 + 65536 * i)
       let bad := u 11 5 ≠ 0 ∨ u 28 36 ≠ 0
       let outside := 3 < die ∨ u 16 8 % 65536 ≠ 0 ∨ u 16 8 < die * 0x2000000000 ∨ die * 0x2000000000 + 0x1F80000000 < u 16 8 + 65536 * u 24 4
       (bad → fails (.cmdPoolDonate c) 2 ∧ fails (.cmdPoolSweepShare c) 2 ∧ fails (.cmdPoolZeroNow c) 2) ∧
       (¬ bad →
         (outside → fails (.cmdPoolDonate c) 5 ∧ fails (.cmdPoolZeroNow c) 5) ∧
         (¬ outside → ∃ t, exec (.cmdPoolDonate c) s = .next t ∧ (t.func 0).cmd.result = 0 ∧ (∀ f ∈ frames, Assoc.find (t.die die).erasing f = some (0, false)) ∧ SameTeams s t ∧ t.mem = s.mem) ∧
         (3 < die ∨ 8 < u 10 1 → fails (.cmdPoolSweepShare c) 5) ∧
         (die ≤ 3 → u 10 1 ≤ 8 → ends (.cmdPoolSweepShare c) (s.setDie die { s.die die with share := if u 10 1 = 0 then 2 else u 10 1 }) 0) ∧
         (¬ outside → (∃ f ∈ frames, ∀ e, Assoc.find (s.die die).erasing f ≠ some (e, true)) → fails (.cmdPoolZeroNow c) 4) ∧
         (¬ outside → (∀ f ∈ frames, ∃ e, Assoc.find (s.die die).erasing f = some (e, true)) → (s.func 0).running = .none → ∃ t, exec (.cmdPoolZeroNow c) s = .next t ∧ (t.func 0).cmd.result = 0 ∧
           (∀ f ∈ frames, Assoc.find (t.die die).erasing f = none ∧ ∀ q, q / 65536 = f / 65536 → ∀ key, t.byteAt key q = 0) ∧ SameTeams s t))))

/-- R13, R418 to R420, R463 to R468: a fork copies the template's second stage and settings, or rolls back for want of room; a move opens a handover, or ends with its result; groups form on a CXL 3.1 link alone, are admitted to by reports that hold, changed, queried and dissolved. Readings and choices of the model that it rests on: log 6, 59, 60. -/
def Obligations.ForksMovesAndGroups : Prop :=
  ∀ (s v : State) (c : CmdBuf), CmdTaken s c → c.func = 0 →
    let u := fun (off n : Nat) => bufU c.w off n
    let ends := fun (i : Instr) (t : State) (r : Nat) => exec i s = .next (t.ended 0 r)
    let fails := fun (i : Instr) (r : Nat) => ends i s r
    (let tf := u 8 1
     let df := u 9 1
     let a : ForkArg := { die := u 10 1, pkey := u 12 2 % 4096 }
     let bad := u 11 1 ≠ 0 ∨ u 12 2 / 4096 ≠ 0 ∨ u 14 50 ≠ 0
     let range := 64 < tf ∨ df = 0 ∨ 64 < df ∨ 3 < u 10 1
     (bad → fails (.cmdFork c) 2) ∧ (¬ bad → range → fails (.cmdFork c) 5) ∧ (¬ bad → ¬ range → s.forkState tf df a.pkey = false → fails (.cmdFork c) 4) ∧
     (¬ bad → ¬ range → s.forkState tf df a.pkey = true →
       (s.forkRange tf = true → fails (.cmdFork c) 5) ∧
       (s.forkRange tf = false → (s.func tf).root2 = none → fails (.cmdFork c) 4) ∧
       (∀ root, s.forkRange tf = false → (s.func tf).root2 = some root → State.forkFrom a 3 1 root s = none → fails (.cmdFork c) 6) ∧
       (∀ root r, s.forkRange tf = false → (s.func tf).root2 = some root → State.forkFrom a 3 1 root s = some (r, v) → ends (.cmdFork c) ((v.forkSettings tf df a r).dropTlb2 tf 0 0) 0 ∧
         ((v.forkSettings tf df a r).func df).root2 = some r ∧ ((v.forkSettings tf df a r).func df).privKey = some a.pkey ∧ ((v.forkSettings tf df a r).func df).homeDie = u 10 1))) ∧
    (let f := u 8 1
     let range := 64 < f ∨ 3 < u 9 1
     (u 10 54 ≠ 0 → fails (.cmdMove c) 2) ∧ (u 10 54 = 0 → range → fails (.cmdMove c) 5) ∧
     (u 10 54 = 0 → ¬ range → (s.func f).moving = true ∨ s.mod.handover.isSome = true ∨ (s.func f).root2 = none → fails (.cmdMove c) 4) ∧
     (∀ root, u 10 54 = 0 → ¬ range → (s.func f).moving = false → s.mod.handover = none → (s.func f).root2 = some root →
       (State.copyTable (u 9 1) 4 1 root s = none → fails (.cmdMove c) 6) ∧
       (∀ new frames, State.copyTable (u 9 1) 4 1 root s = some (new, frames, v) → ∃ t, exec (.cmdMove c) s = .next t ∧ t.runs 0 .move ∧ t.mem = v.mem ∧ t.mod.handover = some { func := f, dest := u 9 1, since := v.clock, newRoot := new, frames := frames, step := 2 }))) ∧
    (let g := u 10 2
     let i := u 9 1
     let n := u 14 1
     let bad := if u 15 1 ≠ 0 ∨ u 56 8 ≠ 0 then 2 else if g = 0 then 5 else 0
     let closed := fun (i : Instr) => exec i s = .next (({ s with groups := Assoc.put s.groups g { s.group g with state := 4 } } : State).ended 0 4)
     (bad ≠ 0 → fails (.cmdGroupCreate c) bad ∧ fails (.cmdGroupAdmit c) bad ∧ fails (.cmdGroupRemove c) bad ∧ fails (.cmdGroupQuery c) bad ∧ fails (.cmdGroupDissolve c) bad) ∧
     (bad = 0 →
       (let range := n = 0 ∨ 31 < n ∨ n < i ∨ (Assoc.find s.groups g = none ∧ 8 ≤ s.groups.length)
        (range → fails (.cmdGroupCreate c) 5) ∧ (¬ range → s.mod.protocol ≠ 3 → closed (.cmdGroupCreate c)) ∧
        (¬ range → s.mod.protocol = 3 → ∃ t y, exec (.cmdGroupCreate c) s = .next t ∧ (t.func 0).cmd.result = 0 ∧ Assoc.find t.groups g = some y ∧ y.state = 1 ∧ y.index = i ∧ y.count = n ∧ y.admitted = 0 ∧ ∀ m ≤ n, (Assoc.find y.nonces m).isSome = true)) ∧
       (Assoc.find s.groups g = none → fails (.cmdGroupAdmit c) 5 ∧ fails (.cmdGroupRemove c) 5 ∧ fails (.cmdGroupQuery c) 5 ∧ fails (.cmdGroupDissolve c) 5) ∧
       (∀ x, Assoc.find s.groups g = some x →
         (u 12 2 / 4096 ≠ 0 → fails (.cmdGroupAdmit c) 2) ∧
         (u 12 2 / 4096 = 0 → x.count < i ∨ u 16 8 % 4096 ≠ 0 → fails (.cmdGroupAdmit c) 5) ∧
         (u 12 2 / 4096 = 0 → i ≤ x.count → u 16 8 % 4096 = 0 →
           (s.mod.protocol ≠ 3 → closed (.cmdGroupAdmit c)) ∧
           (∀ r, s.mod.protocol = 3 → s.physRead 0 (u 16 8) 7539 = .ok r → reportOk r ((Assoc.find x.nonces i).getD 0) (BitVec.ofNat 256 (u 24 32)) = true → ∃ t y, exec (.cmdGroupAdmit c) s = .next t ∧ (t.func 0).cmd.result = 0 ∧
             Assoc.find t.groups g = some y ∧ y.admitted = (x.admitted ||| bitOf i) ∧ y.changed = (x.changed &&& ~~~bitOf i))) ∧
         (x.count < i → fails (.cmdGroupRemove c) 5) ∧
         (i ≤ x.count → s.colls = [] → ∃ t y, exec (.cmdGroupRemove c) s = .next t ∧ (t.func 0).cmd.result = 0 ∧ Assoc.find t.groups g = some y ∧ y.changed = (x.changed ||| bitOf i) ∧ y.admitted = (x.admitted &&& ~~~bitOf i) ∧ y.state = (if x.state = 2 then 3 else x.state)) ∧
         (u 16 8 % 4096 ≠ 0 → fails (.cmdGroupQuery c) 5) ∧
         (u 16 8 % 4096 = 0 → s.physWrite 0 (u 16 8) (x.block g) = (none, v) → ends (.cmdGroupQuery c) v 0) ∧
         (s.colls = [] → ends (.cmdGroupDissolve c) { s with groups := Assoc.del s.groups g } 0))))

/-- R449, R451, R452, R473: a mailbox command written while the device cannot take one does nothing, and one with nonzero reserved head bytes ends with result 2; attach, detach, the two points and halt do to the attached context, its comparators and its teams what they say, or end with their results. R450, R472: a step gives each named warp of a debug-halted team one issue opportunity; while one is due the command goes on, and when none is, every thread with an empty record records 0x3C2 and the response stands. Readings and choices of the model that it rests on: log 43, 69. -/
def Obligations.MailboxControl : Prop :=
  (
    ∀ (s : State) (c : CmdBuf),
      let all := [Instr.mbAttach c, .mbDetach c, .mbPointBreakpoint c, .mbPointWatchpoint c, .mbHalt c, .mbResume c, .mbAbort c, .mbRead c, .mbWrite c, .mbList c]
      (∀ i ∈ all, s.hostOpen = false ∨ s.mod.ready = false ∨ (s.func c.func).mb.busy = true ∨ 64 < c.func → exec i s = .next s) ∧
      (∀ i ∈ all, s.hostOpen = true → s.mod.ready = true → (s.func c.func).mb.busy = false → c.func ≤ 64 → bufU c.w 1 1 ≠ 0 ∨ bufU c.w 3 5 ≠ 0 → exec i s = .next (s.answered c.func 2 [])) ∧
      (MbTaken s c →
        let u := fun (off n : Nat) => bufU c.w off n
        let ends := fun (i : Instr) (t : State) (r : Nat) => exec i s = .next (t.answered c.func r [])
        let fails := fun (i : Instr) (r : Nat) => ends i s r
        let mine := ∃ n, s.mod.attached = some (c.func, u 2 1, n)
        let free := fun (f : Func) => ({ f with mbEvt := 0 } : Func)
        ((∃ a, s.mod.attached = some a) → ¬ mine → fails (.mbAttach c) 6) ∧
        (s.mod.attached = none ∨ mine → let v := s.updMod (fun m => { m with attached := some (c.func, u 2 1, u 8 1) })
          ends (.mbAttach c) (v.setFunc c.func (free (v.func c.func))) 0) ∧
        (s.mod.attached = none → fails (.mbDetach c) 0) ∧
        ((∃ a, s.mod.attached = some a) → ¬ mine → c.func ≠ 0 → fails (.mbDetach c) 0) ∧
        (∀ a, s.mod.attached = some a → mine ∨ c.func = 0 → (s.teams.map Prod.fst).Nodup → (∀ n (tm : Team), (n, tm) ∈ s.teams → tm.func = a.1 → tm.ctx = a.2.1 → tm.isDebug = true → tm.life = .debugHalted) →
          ∃ t, exec (.mbDetach c) s = .next t ∧ t.mod = { s.mod with attached := none, bps := [], wps := [] } ∧ (t.func c.func).mb = { done := (s.func c.func).mb.done + 1, busy := false, result := 0 } ∧
            (∀ n (tm : Team), (n, tm) ∈ s.teams → tm.func = a.1 → tm.ctx = a.2.1 → tm.life = .debugHalted → (t.team n).life = (if (teamThreads n tm).all (fun k => decide ((s.thread k).st = .exited)) then .ending else .resident) ∧
              (∀ w < tm.warps, (t.warp (wkey n w)).halted = false) ∧ ∀ k ∈ teamThreads n tm, (t.thread k).rcd = {}) ∧
            (∀ n, (s.team n).life ≠ .debugHalted ∨ (s.team n).func ≠ a.1 ∨ (s.team n).ctx ≠ a.2.1 → t.team n = s.team n)) ∧
        (¬ mine → fails (.mbPointBreakpoint c) 4 ∧ fails (.mbPointWatchpoint c) 4 ∧ fails (.mbHalt c) 4) ∧
        (mine →
          (let i := u 9 1
           let en := decide (u 10 1 % 2 = 1)
           let bad := 3 < i ∨ (en = true ∧ u 16 10 % 8 ≠ 0)
           let off := u 16 4
           let len := u 20 4
           let out := 3 < i ∨ (en = true ∧ (off % 4 ≠ 0 ∨ len % 4 ≠ 0 ∨ len < 4 ∨ 65536 < len))
           (u 26 6 ≠ 0 → fails (.mbPointBreakpoint c) 2) ∧
           (u 26 6 = 0 → bad → fails (.mbPointBreakpoint c) 5) ∧
           (u 26 6 = 0 → ¬ bad → ends (.mbPointBreakpoint c) (s.updMod (fun m => { m with bps := Assoc.put m.bps i { en := en, addr := BitVec.ofNat 80 (u 16 10) } })) 0) ∧
           (out → fails (.mbPointWatchpoint c) 5) ∧
           (¬ out → ends (.mbPointWatchpoint c) (s.updMod (fun m => { m with wps := Assoc.put m.wps i { en := en, off := off, len := len, onRead := decide (u 24 1 % 2 = 1), onWrite := decide (u 24 1 / 2 % 2 = 1), team := BitVec.ofNat 32 (u 28 4) } })) 0)) ∧
          (s.mbTeam c Team.canHalt = none → fails (.mbHalt c) 4) ∧
          (∀ n, s.mbTeam c Team.canHalt = some n → ends (.mbHalt c) (s.setTeam n { s.team n with debugCall := 2, haltAt := if (s.team n).life = .halting then (s.team n).haltAt else s.clock, life := .halting }) 0)))
  ) ∧
  (
    ∀ (s : State) (c : CmdBuf),
      (MbTaken s c →
        let u := fun (off n : Nat) => bufU c.w off n
        let mine := ∃ n, s.mod.attached = some (c.func, u 2 1, n)
        let halted := s.mbTeam c (fun t => decide (t.life = .debugHalted))
        (¬ mine ∨ halted = none → exec (.mbStep c) s = .next (s.answered c.func 4 [])) ∧
        (∀ n, mine → halted = some n → ∃ t ws, exec (.mbStep c) s = .next t ∧ (t.func c.func).mb.busy = true ∧ (t.func c.func).stepping = some (n, ws) ∧ ws.map Prod.fst = (List.range (s.team n).warps).filter (fun w => (BitVec.ofNat 32 (u 20 4)).getLsbD w) ∧
          t.sched = ws.map (fun p => Activity.turn n p.1) ++ [Activity.occur (.mbStep c)] ++ s.sched ∧
          (∀ p ∈ ws, p.1 < 32 → (t.warp (wkey n p.1)).step = true ∧ (t.warp (wkey n p.1)).stepDone = 0 ∧
            ∀ k ∈ warpThreads (wkey n p.1), (t.thread k).skipBp = true ∧ ((s.thread k).rcd.cause.toNat / 64 = 13 ∨ (s.thread k).rcd.cause.toNat / 64 = 15 → (t.thread k).rcd = {}) ∧
              ((s.thread k).rcd.cause.toNat / 64 < 13 → (t.thread k).rcd = (s.thread k).rcd)))) ∧
      (∀ x, (s.func c.func).stepping = some x →
        let due := (s.team x.1).life = .debugHalted ∧ ∃ p ∈ x.2, (s.warp (wkey x.1 p.1)).step = true
        (due → exec (.mbStep c) s = .next s) ∧
        (¬ due → ∃ t, exec (.mbStep c) s = .next t ∧ (t.func c.func).mb.busy = false ∧ (t.func c.func).mb.result = 0 ∧ (t.func c.func).stepping = none ∧
          ((∀ p ∈ x.2, (s.warp (wkey x.1 p.1)).out = [] ∧ ∀ k ∈ warpThreads (wkey x.1 p.1), (s.thread k).out = [] ∧ ((s.thread k).st = .ready ∨ (s.thread k).st = .exited)) →
            ∀ p ∈ x.2, ∀ k ∈ warpThreads (wkey x.1 p.1), p.1 < 32 → (s.thread k).st = .ready → (s.thread k).rcd.cause = 0x3C0 → (t.thread k).rcd.cause = 0x3C2 ∧ (t.thread k).rcd.pc = (s.thread k).pc)))
  )

/-- R438, R450, R452, R494: resume lets a stopped team go on with empty records; abort ends it with status 2; list names the stopped teams; read answers the state asked for, and write changes it, within the limits given. Readings and choices of the model that it rests on: log 43, 69, 72. -/
def Obligations.MailboxStoppedTeams : Prop :=
  ∀ (s v : State) (c : CmdBuf), MbTaken s c →
    let u := fun (off n : Nat) => bufU c.w off n
    let what := u 20 1
    let a := u 24 4
    let n := u 28 4
    let ends := fun (i : Instr) (t : State) (r : Nat) (bs : List Byte) => exec i s = .next (t.answered c.func r bs)
    let fails := fun (i : Instr) (r : Nat) => ends i s r []
    (s.mbTeam c Team.isStopped = none → fails (.mbResume c) 4 ∧ fails (.mbAbort c) 4 ∧ fails (.mbRead c) 4 ∧ fails (.mbWrite c) 4) ∧
    ends (.mbList c) s 0 ((((s.teams.filter (fun p => decide (p.2.func = c.func) && decide (p.2.ctx = u 2 1) && p.2.isStopped)).take 960)).flatMap (fun p => leBytes 4 p.2.index)) ∧
    (∀ id, s.mbTeam c Team.isStopped = some id →
      let tm := s.team id
      let w := wkey id (u 21 1)
      let budget := (s.warp w).budget
      (tm.life = .debugHalted → ∃ t, exec (.mbResume c) s = .next t ∧ (t.func c.func).mb = { done := (s.func c.func).mb.done + 1, busy := false, result := 0 } ∧ (∀ k ∈ teamThreads id tm, (t.thread k).rcd = {} ∧ (t.thread k).skipBp = true ∧ (t.thread k).pc = (s.thread k).pc) ∧
        (t.team id).life = (if (teamThreads id tm).all (fun k => decide ((s.thread k).st = .exited)) then .ending else .resident) ∧ (∀ x < tm.warps, (t.warp (wkey id x)).halted = false)) ∧
      (tm.life = .halting → ∃ t, exec (.mbResume c) s = .next t ∧ (t.func c.func).mb.result = 0 ∧ (∀ k ∈ teamThreads id tm, (t.thread k).rcd = {}) ∧ (t.team id).life = .halting ∧ (t.team id).debugged = false ∧ (t.team id).saveAs = some 0) ∧
      (tm.life ≠ .debugHalted → tm.life ≠ .halting →
        let g := fun (x : State) => (x.clearStop id).updTeam id (fun t => { t with life := .saved, debugged := false })
        (s.onImage id g = none → fails (.mbResume c) 4) ∧
        (s.onImage id g = some v → ends (.mbResume c) (if tm.life = .parkedUnhandled then v.berthEvent id 2 else v) 0 [])) ∧
      ends (.mbAbort c) (s.abortTeam id 2) 0 [] ∧
      (let bad := if what = 0 then (if u 21 1 ≠ 0 ∨ a ≠ 0 ∨ n ≠ 0 then 2 else 0)
        else if what = 1 then (if 512 ≤ a then 2 else if tm.warps ≤ u 21 1 ∨ n = 0 ∨ 30 < n ∨ budget < a + n then 5 else 0)
        else if what = 2 ∨ what = 5 then (if a ≠ 0 ∨ n ≠ 0 then 2 else if tm.warps ≤ u 21 1 then 5 else 0)
        else if what = 3 then (if tm.warps ≤ u 21 1 ∨ 31 < a ∨ n = 0 ∨ 32 - a < n then 5 else 0)
        else if what = 4 then (if u 21 1 ≠ 0 then 2 else if a % 4 ≠ 0 ∨ n % 4 ≠ 0 ∨ n < 4 ∨ 3840 < n ∨ tm.spadSize < a + n then 5 else 0) else 5
       (bad ≠ 0 → fails (.mbRead c) bad) ∧
       (bad = 0 → s.image id = none → fails (.mbRead c) 4) ∧
       (bad = 0 → s.image id = some v →
         (what = 0 → ends (.mbRead c) s 0 (v.mbMasks w)) ∧
         (what = 1 → ends (.mbRead c) s 0 ((List.range n).flatMap (fun i => (warpThreads w).flatMap (fun k => leBytes 4 (v.regOf k (false, a + i)).toNat)))) ∧
         (what = 2 → ends (.mbRead c) s 0 ((List.range 64).flatMap (fun i => leBytes 4 (v.regOf (w * 32) (true, i)).toNat) ++ (List.range 7).flatMap (fun i => leBytes 4 (v.seatMask w (fun th => th.p.getLsbD i))))) ∧
         (what = 3 → ends (.mbRead c) s 0 ((List.range n).flatMap (fun i => (v.thread (w * 32 + a + i)).shown.bytes))) ∧
         (what = 4 → ends (.mbRead c) s 0 ((List.range n).map (fun i => Tbl.get (v.team id).spad (a + i)))) ∧
         (what = 5 → ends (.mbRead c) s 0 (v.mbControl id w)))) ∧
      (let bad := if what = 1 then (if a / 512 % 128 ≠ 0 ∨ 2097152 ≤ a then 2 else if tm.warps ≤ u 21 1 ∨ budget ≤ a % 512 ∨ n = 0 ∨ 8 < n ∨ 32 < a / 65536 + n then 5 else 0)
        else if what = 2 then (if a / 256 % 2 = 1 then (if a / 8 % 32 ≠ 0 ∨ 512 ≤ a then 2 else if tm.warps ≤ u 21 1 ∨ a % 8 = 7 ∨ n ≠ 1 then 5 else 0) else if 64 ≤ a then 2 else if tm.warps ≤ u 21 1 ∨ n = 0 ∨ 8 < n ∨ 64 < a + n then 5 else 0)
        else if what = 4 then (if u 21 1 ≠ 0 then 2 else if a % 4 ≠ 0 ∨ n % 4 ≠ 0 ∨ n < 4 ∨ 32 < n ∨ tm.spadSize < a + n then 5 else 0) else 5
       (bad ≠ 0 → fails (.mbWrite c) bad) ∧
       (bad = 0 → tm.life = .debugHalted ∨ tm.life = .halting → ∃ t, exec (.mbWrite c) s = .next t ∧ (t.func c.func).mb = { done := (s.func c.func).mb.done + 1, busy := false, result := 0 } ∧ t.mem = s.mem ∧
         (what = 1 → ∀ i < n, t.regOf (w * 32 + a / 65536 + i) (false, a % 512) = BitVec.ofNat 32 (u (32 + 4 * i) 4)) ∧
         (what = 2 → a / 256 % 2 = 0 → ∀ i < n, t.regOf (w * 32) (true, a + i) = BitVec.ofNat 32 (u (32 + 4 * i) 4)) ∧
         (what = 2 → a / 256 % 2 = 1 → ∀ x < 32, (t.thread (w * 32 + x)).p.getLsbD (a % 8) = (BitVec.ofNat 32 (u 32 4)).getLsbD x) ∧
         (what = 4 → ∀ i < n, Tbl.get (t.team id).spad (a + i) = BitVec.ofNat 8 (u (32 + i) 1))) ∧
       (bad = 0 → tm.inFrame = true → s.onImage id (fun x => x.mbPut c id) = none → fails (.mbWrite c) 4) ∧
       (bad = 0 → tm.inFrame = true → s.onImage id (fun x => x.mbPut c id) = some v → ends (.mbWrite c) v 0 [])))

/-! ## Encodings, steps, reset, memory -/

/-- R50 to R70, R191: instruction words and a microword written out from the field maps decode to the instructions that they stand for. -/
def Obligations.WordsDecode : Prop :=
  let h : Hdr := { sw := false, g := { neg := false, p := 7 } }
  decodeTableWord 64 0x1070100BC2000300 = some (.add { h := h, d := .v 2, a := .v 2, b := .inl 1, c := .v 0, rnd := .rn, ftz := false, ty := .i32 }) ∧
  decodeTableWord 64 0x1970081000A00302 = none ∧
  decodeTableWord 64 0x197008100A000302 = some (.setp .lt { h := h, pd := 1, a := .v 4, b := .v 5, ftz := false, ty := .i32 }) ∧
  decodeTableWord 128 0x00000001000000000D70402000000000 = some (.addW { h := h, d := .v 8, a := .v 8, imm := 0x100000000 }) ∧
  decodeTableWord 64 0x327020140C070A00 = some (.ffma { h := h, d := .v 4, a := .v 5, b := .v 6, c := .v 7, rnd := .rn, ftz := false, ty := .f32 }) ∧
  decodeTableWord 64 0x5870302008D64010 = some (.ld { h := h, d := .v 6, a := .v 8, b := .v 0, ty := .i64, dir := false, ord := .acq, scope := .die, evict := 3, xsel := 1, off := 16 }) ∧
  decodeTableWord 64 0xDD7020180BE68E00 = some (.atom .add { h := { h with sw := true }, d := .v 4, a := .v 6, b := .v 5, ty := .n32, dir := false, ord := .acqrel, scope := .module, evict := 3, xsel := 2, off := 0 }) ∧
  decodeTableWord 64 0x01700180FFFFFFFC = some (.bra { h := h, link := .v 0, cond := { neg := false, p := 3 }, disp := 0xFFFFFFFC }) ∧
  decodeTableWord 64 0x6C7000100C0A3D82 = some (.cpEl 2 { h := h, d := .v 0, a := .v 4, b := .v 6, c := .v 10, xa := 1, xb := 7, scope := .core }) ∧
  decodeTableWord 64 0x6570000404001801 = some (.fenceX { h := h, ps := 1, pd := 2, scope := .core }) ∧
  decodeTableWord 64 0x6E70101000002300 = some (.mxIssue { h := h, d := .v 2, a := .v 4, b := .v 0, c := .v 0, xa := 1, xb := 0, scope := .module }) ∧
  decodeTableWord 64 0x667000301C000301 = some (.retSet 1 { h := h, a := .v 12, b := .v 14, j := 3 }) ∧
  decodeTableWord 64 0x7570000000000005 = some (.trap { h := h, d := .v 0, a := .v 0, imm := 5 }) ∧
  decodeTableWord 32 0xA4000015 = some (.uopJif .cz 21)

/-- R52 to R72, R191, R192: decoding the bytes of a well-formed instruction of any family gives that instruction and the bytes after it, with every operand as it was; a double word needs its second word in the block. Readings and choices of the model that it rests on: log 73. -/
def Obligations.EncodeDecode : Prop :=
  ∀ (i : Instr) (budget : Nat) (last : Bool) (rest : List Byte),
    (hasWord i = true → wellFormed budget i = true → (last = true → (encodeBytes i).length = 8) → decodeBytes budget last (encodeBytes i ++ rest) = .ok (i, rest)) ∧
    (isMicro i = true → Machine.decodeMicro (ofBytesNat (encodeBytes i)) = some i)

/-- R331, R338, R340: at a warp's turn the instruction of its issue group whose word, and for a double word whose second word, stands at the group's address is the one performed: the step is exec of it, then the turn closes and time passes. A ray's step performs the micro-operation at its upc, and an event or a command that occurs is performed as it stands. Readings and choices of the model that it rests on: log 1, 2, 11. -/
def Obligations.StepRunsDecoded : Prop :=
  (∀ (s u v : State) (rest : List Activity) (team wid word imm : Nat) (pc : W64) (i : Instr),
    let b := { s with sched := rest }
    let w := wkey team wid
    let s1 := (((b.retryLocks w).subLeaves w).chbLeaves w).settleHeaders w
    let g := (s1.issuers w).filter (fun k => decide ((s1.thread k).pc = pc))
    let f : Focus := { team := team, wid := wid, group := maskOf (g.map seatOf), pc := pc }
    let s2 := s1.countTurn team wid g
    let code := (s2.team team).codeHi
    let cut := u.cutDouble f word
    let f1 := cut.1
    let last := !(cut.2.atLastWord f1).isEmpty
    s.sched = .turn team wid :: rest → b.mayIssue team wid = true → b.isNext team wid = true ∨ (b.warp w).step = true →
    (∀ k ∈ warpThreads w, (s1.thread k).isAgain = false) → s1.convDue w = none ∨ s1.onlyWindows w = true → s1.groupPc (s1.issuers w) = some pc →
    s2.fetchWord f (code ++ pc) = (.ok word, u) →
    (Machine.isDouble word = true → last = false → cut.2.fetchWord f1 (code ++ (pc + 8)) = (.ok imm, v)) → (Machine.isDouble word = false ∨ last = true → imm = 0 ∧ v = cut.2) → v.missed = none →
    decodeBytes (v.warp w).budget last (toBytes (BitVec.ofNat 64 word) 8 ++ toBytes (BitVec.ofNat 64 imm) 8) = .ok (i, if Machine.isDouble word = true ∧ last = false then [] else toBytes (BitVec.ofNat 64 imm) 8) →
    step s = andThen (exec i { v with focus := some f1 }) (fun r => (State.closeTurn b r team wid).tick)) ∧
  (∀ (s : State) (rest : List Activity) (ray : Nat) (r : Ray) (bi : Binding) (i : Instr),
    s.sched = .uop ray :: rest → Assoc.find s.rays ray = some r → r.state = 1 → r.saved = 0 → r.saveReq = [] → (s.rayTeam r).onCore (s.rayTeam r).core = true → (s.rayTeam r).binding = some bi → r.steps < 2 ^ 24 →
    Machine.decodeMicro (microWord bi.image r.upc) = some i →
    step s = andThen (exec i { s with sched := rest, uray := some ray }) (fun t => (t.closeUop ray).tick)) ∧
  (∀ (s : State) (rest : List Activity) (i : Instr), s.sched = .occur i :: rest → step s = andThen (exec i { s with sched := rest }) State.tick)

/-- R5, R20, R22, R37, R90, R280, R372, R387, R392, R405, R422: after module reset the device is not ready and no team is on a core; the clock starts at zero; the power limit is 700 W and nothing is governed; every ring and every ingress slot register is zero; no function has a second-stage root; the hash share is 1; every core is in world 0; every thread's `cr.fx` is zero; M3 is zero. Readings and choices of the model that it rests on: log 8. -/
def Obligations.ResetState : Prop :=
  let s := State.reset
  s.mod.ready = false ∧ s.mod.power = 700 ∧ s.mod.governed = false ∧ s.mod.hashShare = 1 ∧ s.mod.signed = 0 ∧ s.mod.attached = none ∧ s.clock = 0 ∧ s.teams = [] ∧ s.launches = [] ∧ s.tokens = [] ∧
  (∀ k, (s.thread k).fx = 0 ∧ (s.thread k).rcd.cause = 0x3C0) ∧ (∀ c, (s.core c).world = 0 ∧ (s.core c).l1 = []) ∧
  (∀ f, (s.func f).root2 = none ∧ (s.func f).m3 = 0 ∧ (s.func f).cmd = { done := 0, busy := false, result := 0 } ∧ (s.func f).mb = { done := 0, busy := false, result := 0 }) ∧
  (∀ f r, let e := (s.func f).ring r
    let g := (s.func f).fring r
    (e.base = 0 ∧ e.ctl = 0 ∧ e.head = 0 ∧ e.tail = 0 ∧ e.held = []) ∧ g.base = 0 ∧ g.ctl = 0 ∧ g.head = 0 ∧ g.tail = 0 ∧ g.held = []) ∧
  (∀ f n, Assoc.find (s.func f).iw n = none)

/-- The form of memory at reset: nothing is listed, which is the canonical form. What an unlisted byte reads as, zero, is the model's choice (log 3). Readings and choices of the model that it rests on: log 3. -/
def Obligations.ResetMemoryForm : Prop := State.reset.memOk = true ∧ State.reset.mem = []

/-- An invariant of the model: every step that goes on keeps memory in its canonical form, addresses strictly rising and no entry that reads as an unlisted byte does. Readings and choices of the model that it rests on: log 3. -/
def Obligations.MemoryForm : Prop := ∀ s t : State, s.memOk = true → step s = .next t → t.memOk = true
end

