-- ==== Sys2Proof/Laws/State.lean ====
section
/-! SUPPORT. One lemma per field per update of State, true by rfl; the accessors of the tables after an update; reading a table after writing it. -/

namespace Sys2Proof.Machine

/-! ## Tables -/

@[simp] theorem Assoc.find_put_self {α : Type} (t : Assoc α) (k : Nat) (v : α) : Assoc.find (Assoc.put t k v) k = some v := by
  induction t with
  | nil => simp [Assoc.put, Assoc.find]
  | cons p t ih =>
    obtain ⟨j, a⟩ := p
    simp only [Assoc.put]
    split
    · simp [Assoc.find]
    · split
      · simp [Assoc.find]
      · simp [Assoc.find, *]

theorem Assoc.find_put_ne {α : Type} (t : Assoc α) {j k : Nat} (v : α) (h : j ≠ k) : Assoc.find (Assoc.put t k v) j = Assoc.find t j := by
  induction t with
  | nil => simp [Assoc.put, Assoc.find, h]
  | cons p t ih =>
    obtain ⟨i, a⟩ := p
    simp only [Assoc.put]
    split
    · simp [Assoc.find, h]
    · split
      · subst_vars; simp [Assoc.find, h]
      · simp only [Assoc.find, ih]


/-! ## Thread -/

@[simp] theorem State.setThread_mem (s : State) (k : Nat) (x : Thread) : (s.setThread k x).mem = s.mem := rfl
@[simp] theorem State.setThread_lines (s : State) (k : Nat) (x : Thread) : (s.setThread k x).lines = s.lines := rfl
@[simp] theorem State.setThread_cores (s : State) (k : Nat) (x : Thread) : (s.setThread k x).cores = s.cores := rfl
@[simp] theorem State.setThread_teams (s : State) (k : Nat) (x : Thread) : (s.setThread k x).teams = s.teams := rfl
@[simp] theorem State.setThread_warps (s : State) (k : Nat) (x : Thread) : (s.setThread k x).warps = s.warps := rfl
@[simp] theorem State.setThread_threads (s : State) (k : Nat) (x : Thread) : (s.setThread k x).threads = Assoc.put s.threads k x := rfl
@[simp] theorem State.setThread_funcs (s : State) (k : Nat) (x : Thread) : (s.setThread k x).funcs = s.funcs := rfl
@[simp] theorem State.setThread_ctxs (s : State) (k : Nat) (x : Thread) : (s.setThread k x).ctxs = s.ctxs := rfl
@[simp] theorem State.setThread_queues (s : State) (k : Nat) (x : Thread) : (s.setThread k x).queues = s.queues := rfl
@[simp] theorem State.setThread_launches (s : State) (k : Nat) (x : Thread) : (s.setThread k x).launches = s.launches := rfl
@[simp] theorem State.setThread_berths (s : State) (k : Nat) (x : Thread) : (s.setThread k x).berths = s.berths := rfl
@[simp] theorem State.setThread_l2 (s : State) (k : Nat) (x : Thread) : (s.setThread k x).l2 = s.l2 := rfl
@[simp] theorem State.setThread_deep (s : State) (k : Nat) (x : Thread) : (s.setThread k x).deep = s.deep := rfl
@[simp] theorem State.setThread_tlb (s : State) (k : Nat) (x : Thread) : (s.setThread k x).tlb = s.tlb := rfl
@[simp] theorem State.setThread_copies (s : State) (k : Nat) (x : Thread) : (s.setThread k x).copies = s.copies := rfl
@[simp] theorem State.setThread_gadds (s : State) (k : Nat) (x : Thread) : (s.setThread k x).gadds = s.gadds := rfl
@[simp] theorem State.setThread_mops (s : State) (k : Nat) (x : Thread) : (s.setThread k x).mops = s.mops := rfl
@[simp] theorem State.setThread_colls (s : State) (k : Nat) (x : Thread) : (s.setThread k x).colls = s.colls := rfl
@[simp] theorem State.setThread_rays (s : State) (k : Nat) (x : Thread) : (s.setThread k x).rays = s.rays := rfl
@[simp] theorem State.setThread_subs (s : State) (k : Nat) (x : Thread) : (s.setThread k x).subs = s.subs := rfl
@[simp] theorem State.setThread_rqs (s : State) (k : Nat) (x : Thread) : (s.setThread k x).rqs = s.rqs := rfl
@[simp] theorem State.setThread_tokens (s : State) (k : Nat) (x : Thread) : (s.setThread k x).tokens = s.tokens := rfl
@[simp] theorem State.setThread_keys (s : State) (k : Nat) (x : Thread) : (s.setThread k x).keys = s.keys := rfl
@[simp] theorem State.setThread_hdir (s : State) (k : Nat) (x : Thread) : (s.setThread k x).hdir = s.hdir := rfl
@[simp] theorem State.setThread_dies (s : State) (k : Nat) (x : Thread) : (s.setThread k x).dies = s.dies := rfl
@[simp] theorem State.setThread_groups (s : State) (k : Nat) (x : Thread) : (s.setThread k x).groups = s.groups := rfl
@[simp] theorem State.setThread_mod (s : State) (k : Nat) (x : Thread) : (s.setThread k x).mod = s.mod := rfl
@[simp] theorem State.setThread_clock (s : State) (k : Nat) (x : Thread) : (s.setThread k x).clock = s.clock := rfl
@[simp] theorem State.setThread_sched (s : State) (k : Nat) (x : Thread) : (s.setThread k x).sched = s.sched := rfl
@[simp] theorem State.setThread_fresh (s : State) (k : Nat) (x : Thread) : (s.setThread k x).fresh = s.fresh := rfl
@[simp] theorem State.setThread_focus (s : State) (k : Nat) (x : Thread) : (s.setThread k x).focus = s.focus := rfl
@[simp] theorem State.setThread_hits (s : State) (k : Nat) (x : Thread) : (s.setThread k x).hits = s.hits := rfl
@[simp] theorem State.setThread_uray (s : State) (k : Nat) (x : Thread) : (s.setThread k x).uray = s.uray := rfl
@[simp] theorem State.setThread_nextId (s : State) (k : Nat) (x : Thread) : (s.setThread k x).nextId = s.nextId := rfl
theorem State.updThread_eq (s : State) (k : Nat) (g : Thread → Thread) : s.updThread k g = s.setThread k (g (s.thread k)) := rfl
@[simp] theorem State.updThread_mem (s : State) (k : Nat) (x : Thread → Thread) : (s.updThread k x).mem = s.mem := rfl
@[simp] theorem State.updThread_lines (s : State) (k : Nat) (x : Thread → Thread) : (s.updThread k x).lines = s.lines := rfl
@[simp] theorem State.updThread_cores (s : State) (k : Nat) (x : Thread → Thread) : (s.updThread k x).cores = s.cores := rfl
@[simp] theorem State.updThread_teams (s : State) (k : Nat) (x : Thread → Thread) : (s.updThread k x).teams = s.teams := rfl
@[simp] theorem State.updThread_warps (s : State) (k : Nat) (x : Thread → Thread) : (s.updThread k x).warps = s.warps := rfl
@[simp] theorem State.updThread_funcs (s : State) (k : Nat) (x : Thread → Thread) : (s.updThread k x).funcs = s.funcs := rfl
@[simp] theorem State.updThread_ctxs (s : State) (k : Nat) (x : Thread → Thread) : (s.updThread k x).ctxs = s.ctxs := rfl
@[simp] theorem State.updThread_queues (s : State) (k : Nat) (x : Thread → Thread) : (s.updThread k x).queues = s.queues := rfl
@[simp] theorem State.updThread_launches (s : State) (k : Nat) (x : Thread → Thread) : (s.updThread k x).launches = s.launches := rfl
@[simp] theorem State.updThread_berths (s : State) (k : Nat) (x : Thread → Thread) : (s.updThread k x).berths = s.berths := rfl
@[simp] theorem State.updThread_l2 (s : State) (k : Nat) (x : Thread → Thread) : (s.updThread k x).l2 = s.l2 := rfl
@[simp] theorem State.updThread_deep (s : State) (k : Nat) (x : Thread → Thread) : (s.updThread k x).deep = s.deep := rfl
@[simp] theorem State.updThread_tlb (s : State) (k : Nat) (x : Thread → Thread) : (s.updThread k x).tlb = s.tlb := rfl
@[simp] theorem State.updThread_copies (s : State) (k : Nat) (x : Thread → Thread) : (s.updThread k x).copies = s.copies := rfl
@[simp] theorem State.updThread_gadds (s : State) (k : Nat) (x : Thread → Thread) : (s.updThread k x).gadds = s.gadds := rfl
@[simp] theorem State.updThread_mops (s : State) (k : Nat) (x : Thread → Thread) : (s.updThread k x).mops = s.mops := rfl
@[simp] theorem State.updThread_colls (s : State) (k : Nat) (x : Thread → Thread) : (s.updThread k x).colls = s.colls := rfl
@[simp] theorem State.updThread_rays (s : State) (k : Nat) (x : Thread → Thread) : (s.updThread k x).rays = s.rays := rfl
@[simp] theorem State.updThread_subs (s : State) (k : Nat) (x : Thread → Thread) : (s.updThread k x).subs = s.subs := rfl
@[simp] theorem State.updThread_rqs (s : State) (k : Nat) (x : Thread → Thread) : (s.updThread k x).rqs = s.rqs := rfl
@[simp] theorem State.updThread_tokens (s : State) (k : Nat) (x : Thread → Thread) : (s.updThread k x).tokens = s.tokens := rfl
@[simp] theorem State.updThread_keys (s : State) (k : Nat) (x : Thread → Thread) : (s.updThread k x).keys = s.keys := rfl
@[simp] theorem State.updThread_hdir (s : State) (k : Nat) (x : Thread → Thread) : (s.updThread k x).hdir = s.hdir := rfl
@[simp] theorem State.updThread_dies (s : State) (k : Nat) (x : Thread → Thread) : (s.updThread k x).dies = s.dies := rfl
@[simp] theorem State.updThread_groups (s : State) (k : Nat) (x : Thread → Thread) : (s.updThread k x).groups = s.groups := rfl
@[simp] theorem State.updThread_mod (s : State) (k : Nat) (x : Thread → Thread) : (s.updThread k x).mod = s.mod := rfl
@[simp] theorem State.updThread_clock (s : State) (k : Nat) (x : Thread → Thread) : (s.updThread k x).clock = s.clock := rfl
@[simp] theorem State.updThread_sched (s : State) (k : Nat) (x : Thread → Thread) : (s.updThread k x).sched = s.sched := rfl
@[simp] theorem State.updThread_fresh (s : State) (k : Nat) (x : Thread → Thread) : (s.updThread k x).fresh = s.fresh := rfl
@[simp] theorem State.updThread_focus (s : State) (k : Nat) (x : Thread → Thread) : (s.updThread k x).focus = s.focus := rfl
@[simp] theorem State.updThread_hits (s : State) (k : Nat) (x : Thread → Thread) : (s.updThread k x).hits = s.hits := rfl
@[simp] theorem State.updThread_uray (s : State) (k : Nat) (x : Thread → Thread) : (s.updThread k x).uray = s.uray := rfl
@[simp] theorem State.updThread_nextId (s : State) (k : Nat) (x : Thread → Thread) : (s.updThread k x).nextId = s.nextId := rfl
@[simp] theorem State.setThread_thread (s : State) (k : Nat) (x : Thread) : (s.setThread k x).thread k = x := by simp [State.thread]
theorem State.setThread_thread_ne (s : State) {j k : Nat} (x : Thread) (h : j ≠ k) : (s.setThread k x).thread j = s.thread j := by simp [State.thread, Assoc.find_put_ne _ _ h]
@[simp] theorem State.updThread_thread (s : State) (k : Nat) (g : Thread → Thread) : (s.updThread k g).thread k = g (s.thread k) := by simp [State.updThread_eq]
theorem State.updThread_thread_ne (s : State) {j k : Nat} (g : Thread → Thread) (h : j ≠ k) : (s.updThread k g).thread j = s.thread j := by simp [State.updThread_eq, State.setThread_thread_ne _ _ h]
@[simp] theorem State.setThread_warp (s : State) (k j : Nat) (x : Thread) : (s.setThread k x).warp j = s.warp j := rfl
@[simp] theorem State.updThread_warp (s : State) (k j : Nat) (g : Thread → Thread) : (s.updThread k g).warp j = s.warp j := rfl
@[simp] theorem State.setThread_team (s : State) (k j : Nat) (x : Thread) : (s.setThread k x).team j = s.team j := rfl
@[simp] theorem State.updThread_team (s : State) (k j : Nat) (g : Thread → Thread) : (s.updThread k g).team j = s.team j := rfl
@[simp] theorem State.setThread_core (s : State) (k j : Nat) (x : Thread) : (s.setThread k x).core j = s.core j := rfl
@[simp] theorem State.updThread_core (s : State) (k j : Nat) (g : Thread → Thread) : (s.updThread k g).core j = s.core j := rfl
@[simp] theorem State.setThread_func (s : State) (k j : Nat) (x : Thread) : (s.setThread k x).func j = s.func j := rfl
@[simp] theorem State.updThread_func (s : State) (k j : Nat) (g : Thread → Thread) : (s.updThread k g).func j = s.func j := rfl
@[simp] theorem State.setThread_queue (s : State) (k j : Nat) (x : Thread) : (s.setThread k x).queue j = s.queue j := rfl
@[simp] theorem State.updThread_queue (s : State) (k j : Nat) (g : Thread → Thread) : (s.updThread k g).queue j = s.queue j := rfl
@[simp] theorem State.setThread_launch (s : State) (k j : Nat) (x : Thread) : (s.setThread k x).launch j = s.launch j := rfl
@[simp] theorem State.updThread_launch (s : State) (k j : Nat) (g : Thread → Thread) : (s.updThread k g).launch j = s.launch j := rfl
@[simp] theorem State.setThread_die (s : State) (k j : Nat) (x : Thread) : (s.setThread k x).die j = s.die j := rfl
@[simp] theorem State.updThread_die (s : State) (k j : Nat) (g : Thread → Thread) : (s.updThread k g).die j = s.die j := rfl
@[simp] theorem State.setThread_key (s : State) (k j : Nat) (x : Thread) : (s.setThread k x).key j = s.key j := rfl
@[simp] theorem State.updThread_key (s : State) (k j : Nat) (g : Thread → Thread) : (s.updThread k g).key j = s.key j := rfl
@[simp] theorem State.setThread_ctx (s : State) (k j : Nat) (x : Thread) : (s.setThread k x).ctx j = s.ctx j := rfl
@[simp] theorem State.updThread_ctx (s : State) (k j : Nat) (g : Thread → Thread) : (s.updThread k g).ctx j = s.ctx j := rfl

/-! ## Warp -/

@[simp] theorem State.setWarp_mem (s : State) (k : Nat) (x : Warp) : (s.setWarp k x).mem = s.mem := rfl
@[simp] theorem State.setWarp_lines (s : State) (k : Nat) (x : Warp) : (s.setWarp k x).lines = s.lines := rfl
@[simp] theorem State.setWarp_cores (s : State) (k : Nat) (x : Warp) : (s.setWarp k x).cores = s.cores := rfl
@[simp] theorem State.setWarp_teams (s : State) (k : Nat) (x : Warp) : (s.setWarp k x).teams = s.teams := rfl
@[simp] theorem State.setWarp_warps (s : State) (k : Nat) (x : Warp) : (s.setWarp k x).warps = Assoc.put s.warps k x := rfl
@[simp] theorem State.setWarp_threads (s : State) (k : Nat) (x : Warp) : (s.setWarp k x).threads = s.threads := rfl
@[simp] theorem State.setWarp_funcs (s : State) (k : Nat) (x : Warp) : (s.setWarp k x).funcs = s.funcs := rfl
@[simp] theorem State.setWarp_ctxs (s : State) (k : Nat) (x : Warp) : (s.setWarp k x).ctxs = s.ctxs := rfl
@[simp] theorem State.setWarp_queues (s : State) (k : Nat) (x : Warp) : (s.setWarp k x).queues = s.queues := rfl
@[simp] theorem State.setWarp_launches (s : State) (k : Nat) (x : Warp) : (s.setWarp k x).launches = s.launches := rfl
@[simp] theorem State.setWarp_berths (s : State) (k : Nat) (x : Warp) : (s.setWarp k x).berths = s.berths := rfl
@[simp] theorem State.setWarp_l2 (s : State) (k : Nat) (x : Warp) : (s.setWarp k x).l2 = s.l2 := rfl
@[simp] theorem State.setWarp_deep (s : State) (k : Nat) (x : Warp) : (s.setWarp k x).deep = s.deep := rfl
@[simp] theorem State.setWarp_tlb (s : State) (k : Nat) (x : Warp) : (s.setWarp k x).tlb = s.tlb := rfl
@[simp] theorem State.setWarp_copies (s : State) (k : Nat) (x : Warp) : (s.setWarp k x).copies = s.copies := rfl
@[simp] theorem State.setWarp_gadds (s : State) (k : Nat) (x : Warp) : (s.setWarp k x).gadds = s.gadds := rfl
@[simp] theorem State.setWarp_mops (s : State) (k : Nat) (x : Warp) : (s.setWarp k x).mops = s.mops := rfl
@[simp] theorem State.setWarp_colls (s : State) (k : Nat) (x : Warp) : (s.setWarp k x).colls = s.colls := rfl
@[simp] theorem State.setWarp_rays (s : State) (k : Nat) (x : Warp) : (s.setWarp k x).rays = s.rays := rfl
@[simp] theorem State.setWarp_subs (s : State) (k : Nat) (x : Warp) : (s.setWarp k x).subs = s.subs := rfl
@[simp] theorem State.setWarp_rqs (s : State) (k : Nat) (x : Warp) : (s.setWarp k x).rqs = s.rqs := rfl
@[simp] theorem State.setWarp_tokens (s : State) (k : Nat) (x : Warp) : (s.setWarp k x).tokens = s.tokens := rfl
@[simp] theorem State.setWarp_keys (s : State) (k : Nat) (x : Warp) : (s.setWarp k x).keys = s.keys := rfl
@[simp] theorem State.setWarp_hdir (s : State) (k : Nat) (x : Warp) : (s.setWarp k x).hdir = s.hdir := rfl
@[simp] theorem State.setWarp_dies (s : State) (k : Nat) (x : Warp) : (s.setWarp k x).dies = s.dies := rfl
@[simp] theorem State.setWarp_groups (s : State) (k : Nat) (x : Warp) : (s.setWarp k x).groups = s.groups := rfl
@[simp] theorem State.setWarp_mod (s : State) (k : Nat) (x : Warp) : (s.setWarp k x).mod = s.mod := rfl
@[simp] theorem State.setWarp_clock (s : State) (k : Nat) (x : Warp) : (s.setWarp k x).clock = s.clock := rfl
@[simp] theorem State.setWarp_sched (s : State) (k : Nat) (x : Warp) : (s.setWarp k x).sched = s.sched := rfl
@[simp] theorem State.setWarp_fresh (s : State) (k : Nat) (x : Warp) : (s.setWarp k x).fresh = s.fresh := rfl
@[simp] theorem State.setWarp_focus (s : State) (k : Nat) (x : Warp) : (s.setWarp k x).focus = s.focus := rfl
@[simp] theorem State.setWarp_hits (s : State) (k : Nat) (x : Warp) : (s.setWarp k x).hits = s.hits := rfl
@[simp] theorem State.setWarp_uray (s : State) (k : Nat) (x : Warp) : (s.setWarp k x).uray = s.uray := rfl
@[simp] theorem State.setWarp_nextId (s : State) (k : Nat) (x : Warp) : (s.setWarp k x).nextId = s.nextId := rfl
theorem State.updWarp_eq (s : State) (k : Nat) (g : Warp → Warp) : s.updWarp k g = s.setWarp k (g (s.warp k)) := rfl
@[simp] theorem State.updWarp_mem (s : State) (k : Nat) (x : Warp → Warp) : (s.updWarp k x).mem = s.mem := rfl
@[simp] theorem State.updWarp_lines (s : State) (k : Nat) (x : Warp → Warp) : (s.updWarp k x).lines = s.lines := rfl
@[simp] theorem State.updWarp_cores (s : State) (k : Nat) (x : Warp → Warp) : (s.updWarp k x).cores = s.cores := rfl
@[simp] theorem State.updWarp_teams (s : State) (k : Nat) (x : Warp → Warp) : (s.updWarp k x).teams = s.teams := rfl
@[simp] theorem State.updWarp_threads (s : State) (k : Nat) (x : Warp → Warp) : (s.updWarp k x).threads = s.threads := rfl
@[simp] theorem State.updWarp_funcs (s : State) (k : Nat) (x : Warp → Warp) : (s.updWarp k x).funcs = s.funcs := rfl
@[simp] theorem State.updWarp_ctxs (s : State) (k : Nat) (x : Warp → Warp) : (s.updWarp k x).ctxs = s.ctxs := rfl
@[simp] theorem State.updWarp_queues (s : State) (k : Nat) (x : Warp → Warp) : (s.updWarp k x).queues = s.queues := rfl
@[simp] theorem State.updWarp_launches (s : State) (k : Nat) (x : Warp → Warp) : (s.updWarp k x).launches = s.launches := rfl
@[simp] theorem State.updWarp_berths (s : State) (k : Nat) (x : Warp → Warp) : (s.updWarp k x).berths = s.berths := rfl
@[simp] theorem State.updWarp_l2 (s : State) (k : Nat) (x : Warp → Warp) : (s.updWarp k x).l2 = s.l2 := rfl
@[simp] theorem State.updWarp_deep (s : State) (k : Nat) (x : Warp → Warp) : (s.updWarp k x).deep = s.deep := rfl
@[simp] theorem State.updWarp_tlb (s : State) (k : Nat) (x : Warp → Warp) : (s.updWarp k x).tlb = s.tlb := rfl
@[simp] theorem State.updWarp_copies (s : State) (k : Nat) (x : Warp → Warp) : (s.updWarp k x).copies = s.copies := rfl
@[simp] theorem State.updWarp_gadds (s : State) (k : Nat) (x : Warp → Warp) : (s.updWarp k x).gadds = s.gadds := rfl
@[simp] theorem State.updWarp_mops (s : State) (k : Nat) (x : Warp → Warp) : (s.updWarp k x).mops = s.mops := rfl
@[simp] theorem State.updWarp_colls (s : State) (k : Nat) (x : Warp → Warp) : (s.updWarp k x).colls = s.colls := rfl
@[simp] theorem State.updWarp_rays (s : State) (k : Nat) (x : Warp → Warp) : (s.updWarp k x).rays = s.rays := rfl
@[simp] theorem State.updWarp_subs (s : State) (k : Nat) (x : Warp → Warp) : (s.updWarp k x).subs = s.subs := rfl
@[simp] theorem State.updWarp_rqs (s : State) (k : Nat) (x : Warp → Warp) : (s.updWarp k x).rqs = s.rqs := rfl
@[simp] theorem State.updWarp_tokens (s : State) (k : Nat) (x : Warp → Warp) : (s.updWarp k x).tokens = s.tokens := rfl
@[simp] theorem State.updWarp_keys (s : State) (k : Nat) (x : Warp → Warp) : (s.updWarp k x).keys = s.keys := rfl
@[simp] theorem State.updWarp_hdir (s : State) (k : Nat) (x : Warp → Warp) : (s.updWarp k x).hdir = s.hdir := rfl
@[simp] theorem State.updWarp_dies (s : State) (k : Nat) (x : Warp → Warp) : (s.updWarp k x).dies = s.dies := rfl
@[simp] theorem State.updWarp_groups (s : State) (k : Nat) (x : Warp → Warp) : (s.updWarp k x).groups = s.groups := rfl
@[simp] theorem State.updWarp_mod (s : State) (k : Nat) (x : Warp → Warp) : (s.updWarp k x).mod = s.mod := rfl
@[simp] theorem State.updWarp_clock (s : State) (k : Nat) (x : Warp → Warp) : (s.updWarp k x).clock = s.clock := rfl
@[simp] theorem State.updWarp_sched (s : State) (k : Nat) (x : Warp → Warp) : (s.updWarp k x).sched = s.sched := rfl
@[simp] theorem State.updWarp_fresh (s : State) (k : Nat) (x : Warp → Warp) : (s.updWarp k x).fresh = s.fresh := rfl
@[simp] theorem State.updWarp_focus (s : State) (k : Nat) (x : Warp → Warp) : (s.updWarp k x).focus = s.focus := rfl
@[simp] theorem State.updWarp_hits (s : State) (k : Nat) (x : Warp → Warp) : (s.updWarp k x).hits = s.hits := rfl
@[simp] theorem State.updWarp_uray (s : State) (k : Nat) (x : Warp → Warp) : (s.updWarp k x).uray = s.uray := rfl
@[simp] theorem State.updWarp_nextId (s : State) (k : Nat) (x : Warp → Warp) : (s.updWarp k x).nextId = s.nextId := rfl
@[simp] theorem State.setWarp_thread (s : State) (k j : Nat) (x : Warp) : (s.setWarp k x).thread j = s.thread j := rfl
@[simp] theorem State.updWarp_thread (s : State) (k j : Nat) (g : Warp → Warp) : (s.updWarp k g).thread j = s.thread j := rfl
@[simp] theorem State.setWarp_warp (s : State) (k : Nat) (x : Warp) : (s.setWarp k x).warp k = x := by simp [State.warp]
theorem State.setWarp_warp_ne (s : State) {j k : Nat} (x : Warp) (h : j ≠ k) : (s.setWarp k x).warp j = s.warp j := by simp [State.warp, Assoc.find_put_ne _ _ h]
@[simp] theorem State.updWarp_warp (s : State) (k : Nat) (g : Warp → Warp) : (s.updWarp k g).warp k = g (s.warp k) := by simp [State.updWarp_eq]
theorem State.updWarp_warp_ne (s : State) {j k : Nat} (g : Warp → Warp) (h : j ≠ k) : (s.updWarp k g).warp j = s.warp j := by simp [State.updWarp_eq, State.setWarp_warp_ne _ _ h]
@[simp] theorem State.setWarp_team (s : State) (k j : Nat) (x : Warp) : (s.setWarp k x).team j = s.team j := rfl
@[simp] theorem State.updWarp_team (s : State) (k j : Nat) (g : Warp → Warp) : (s.updWarp k g).team j = s.team j := rfl
@[simp] theorem State.setWarp_core (s : State) (k j : Nat) (x : Warp) : (s.setWarp k x).core j = s.core j := rfl
@[simp] theorem State.updWarp_core (s : State) (k j : Nat) (g : Warp → Warp) : (s.updWarp k g).core j = s.core j := rfl
@[simp] theorem State.setWarp_func (s : State) (k j : Nat) (x : Warp) : (s.setWarp k x).func j = s.func j := rfl
@[simp] theorem State.updWarp_func (s : State) (k j : Nat) (g : Warp → Warp) : (s.updWarp k g).func j = s.func j := rfl
@[simp] theorem State.setWarp_queue (s : State) (k j : Nat) (x : Warp) : (s.setWarp k x).queue j = s.queue j := rfl
@[simp] theorem State.updWarp_queue (s : State) (k j : Nat) (g : Warp → Warp) : (s.updWarp k g).queue j = s.queue j := rfl
@[simp] theorem State.setWarp_launch (s : State) (k j : Nat) (x : Warp) : (s.setWarp k x).launch j = s.launch j := rfl
@[simp] theorem State.updWarp_launch (s : State) (k j : Nat) (g : Warp → Warp) : (s.updWarp k g).launch j = s.launch j := rfl
@[simp] theorem State.setWarp_die (s : State) (k j : Nat) (x : Warp) : (s.setWarp k x).die j = s.die j := rfl
@[simp] theorem State.updWarp_die (s : State) (k j : Nat) (g : Warp → Warp) : (s.updWarp k g).die j = s.die j := rfl
@[simp] theorem State.setWarp_key (s : State) (k j : Nat) (x : Warp) : (s.setWarp k x).key j = s.key j := rfl
@[simp] theorem State.updWarp_key (s : State) (k j : Nat) (g : Warp → Warp) : (s.updWarp k g).key j = s.key j := rfl
@[simp] theorem State.setWarp_ctx (s : State) (k j : Nat) (x : Warp) : (s.setWarp k x).ctx j = s.ctx j := rfl
@[simp] theorem State.updWarp_ctx (s : State) (k j : Nat) (g : Warp → Warp) : (s.updWarp k g).ctx j = s.ctx j := rfl

/-! ## Team -/

@[simp] theorem State.setTeam_mem (s : State) (k : Nat) (x : Team) : (s.setTeam k x).mem = s.mem := rfl
@[simp] theorem State.setTeam_lines (s : State) (k : Nat) (x : Team) : (s.setTeam k x).lines = s.lines := rfl
@[simp] theorem State.setTeam_cores (s : State) (k : Nat) (x : Team) : (s.setTeam k x).cores = s.cores := rfl
@[simp] theorem State.setTeam_teams (s : State) (k : Nat) (x : Team) : (s.setTeam k x).teams = Assoc.put s.teams k x := rfl
@[simp] theorem State.setTeam_warps (s : State) (k : Nat) (x : Team) : (s.setTeam k x).warps = s.warps := rfl
@[simp] theorem State.setTeam_threads (s : State) (k : Nat) (x : Team) : (s.setTeam k x).threads = s.threads := rfl
@[simp] theorem State.setTeam_funcs (s : State) (k : Nat) (x : Team) : (s.setTeam k x).funcs = s.funcs := rfl
@[simp] theorem State.setTeam_ctxs (s : State) (k : Nat) (x : Team) : (s.setTeam k x).ctxs = s.ctxs := rfl
@[simp] theorem State.setTeam_queues (s : State) (k : Nat) (x : Team) : (s.setTeam k x).queues = s.queues := rfl
@[simp] theorem State.setTeam_launches (s : State) (k : Nat) (x : Team) : (s.setTeam k x).launches = s.launches := rfl
@[simp] theorem State.setTeam_berths (s : State) (k : Nat) (x : Team) : (s.setTeam k x).berths = s.berths := rfl
@[simp] theorem State.setTeam_l2 (s : State) (k : Nat) (x : Team) : (s.setTeam k x).l2 = s.l2 := rfl
@[simp] theorem State.setTeam_deep (s : State) (k : Nat) (x : Team) : (s.setTeam k x).deep = s.deep := rfl
@[simp] theorem State.setTeam_tlb (s : State) (k : Nat) (x : Team) : (s.setTeam k x).tlb = s.tlb := rfl
@[simp] theorem State.setTeam_copies (s : State) (k : Nat) (x : Team) : (s.setTeam k x).copies = s.copies := rfl
@[simp] theorem State.setTeam_gadds (s : State) (k : Nat) (x : Team) : (s.setTeam k x).gadds = s.gadds := rfl
@[simp] theorem State.setTeam_mops (s : State) (k : Nat) (x : Team) : (s.setTeam k x).mops = s.mops := rfl
@[simp] theorem State.setTeam_colls (s : State) (k : Nat) (x : Team) : (s.setTeam k x).colls = s.colls := rfl
@[simp] theorem State.setTeam_rays (s : State) (k : Nat) (x : Team) : (s.setTeam k x).rays = s.rays := rfl
@[simp] theorem State.setTeam_subs (s : State) (k : Nat) (x : Team) : (s.setTeam k x).subs = s.subs := rfl
@[simp] theorem State.setTeam_rqs (s : State) (k : Nat) (x : Team) : (s.setTeam k x).rqs = s.rqs := rfl
@[simp] theorem State.setTeam_tokens (s : State) (k : Nat) (x : Team) : (s.setTeam k x).tokens = s.tokens := rfl
@[simp] theorem State.setTeam_keys (s : State) (k : Nat) (x : Team) : (s.setTeam k x).keys = s.keys := rfl
@[simp] theorem State.setTeam_hdir (s : State) (k : Nat) (x : Team) : (s.setTeam k x).hdir = s.hdir := rfl
@[simp] theorem State.setTeam_dies (s : State) (k : Nat) (x : Team) : (s.setTeam k x).dies = s.dies := rfl
@[simp] theorem State.setTeam_groups (s : State) (k : Nat) (x : Team) : (s.setTeam k x).groups = s.groups := rfl
@[simp] theorem State.setTeam_mod (s : State) (k : Nat) (x : Team) : (s.setTeam k x).mod = s.mod := rfl
@[simp] theorem State.setTeam_clock (s : State) (k : Nat) (x : Team) : (s.setTeam k x).clock = s.clock := rfl
@[simp] theorem State.setTeam_sched (s : State) (k : Nat) (x : Team) : (s.setTeam k x).sched = s.sched := rfl
@[simp] theorem State.setTeam_fresh (s : State) (k : Nat) (x : Team) : (s.setTeam k x).fresh = s.fresh := rfl
@[simp] theorem State.setTeam_focus (s : State) (k : Nat) (x : Team) : (s.setTeam k x).focus = s.focus := rfl
@[simp] theorem State.setTeam_hits (s : State) (k : Nat) (x : Team) : (s.setTeam k x).hits = s.hits := rfl
@[simp] theorem State.setTeam_uray (s : State) (k : Nat) (x : Team) : (s.setTeam k x).uray = s.uray := rfl
@[simp] theorem State.setTeam_nextId (s : State) (k : Nat) (x : Team) : (s.setTeam k x).nextId = s.nextId := rfl
theorem State.updTeam_eq (s : State) (k : Nat) (g : Team → Team) : s.updTeam k g = s.setTeam k (g (s.team k)) := rfl
@[simp] theorem State.updTeam_mem (s : State) (k : Nat) (x : Team → Team) : (s.updTeam k x).mem = s.mem := rfl
@[simp] theorem State.updTeam_lines (s : State) (k : Nat) (x : Team → Team) : (s.updTeam k x).lines = s.lines := rfl
@[simp] theorem State.updTeam_cores (s : State) (k : Nat) (x : Team → Team) : (s.updTeam k x).cores = s.cores := rfl
@[simp] theorem State.updTeam_warps (s : State) (k : Nat) (x : Team → Team) : (s.updTeam k x).warps = s.warps := rfl
@[simp] theorem State.updTeam_threads (s : State) (k : Nat) (x : Team → Team) : (s.updTeam k x).threads = s.threads := rfl
@[simp] theorem State.updTeam_funcs (s : State) (k : Nat) (x : Team → Team) : (s.updTeam k x).funcs = s.funcs := rfl
@[simp] theorem State.updTeam_ctxs (s : State) (k : Nat) (x : Team → Team) : (s.updTeam k x).ctxs = s.ctxs := rfl
@[simp] theorem State.updTeam_queues (s : State) (k : Nat) (x : Team → Team) : (s.updTeam k x).queues = s.queues := rfl
@[simp] theorem State.updTeam_launches (s : State) (k : Nat) (x : Team → Team) : (s.updTeam k x).launches = s.launches := rfl
@[simp] theorem State.updTeam_berths (s : State) (k : Nat) (x : Team → Team) : (s.updTeam k x).berths = s.berths := rfl
@[simp] theorem State.updTeam_l2 (s : State) (k : Nat) (x : Team → Team) : (s.updTeam k x).l2 = s.l2 := rfl
@[simp] theorem State.updTeam_deep (s : State) (k : Nat) (x : Team → Team) : (s.updTeam k x).deep = s.deep := rfl
@[simp] theorem State.updTeam_tlb (s : State) (k : Nat) (x : Team → Team) : (s.updTeam k x).tlb = s.tlb := rfl
@[simp] theorem State.updTeam_copies (s : State) (k : Nat) (x : Team → Team) : (s.updTeam k x).copies = s.copies := rfl
@[simp] theorem State.updTeam_gadds (s : State) (k : Nat) (x : Team → Team) : (s.updTeam k x).gadds = s.gadds := rfl
@[simp] theorem State.updTeam_mops (s : State) (k : Nat) (x : Team → Team) : (s.updTeam k x).mops = s.mops := rfl
@[simp] theorem State.updTeam_colls (s : State) (k : Nat) (x : Team → Team) : (s.updTeam k x).colls = s.colls := rfl
@[simp] theorem State.updTeam_rays (s : State) (k : Nat) (x : Team → Team) : (s.updTeam k x).rays = s.rays := rfl
@[simp] theorem State.updTeam_subs (s : State) (k : Nat) (x : Team → Team) : (s.updTeam k x).subs = s.subs := rfl
@[simp] theorem State.updTeam_rqs (s : State) (k : Nat) (x : Team → Team) : (s.updTeam k x).rqs = s.rqs := rfl
@[simp] theorem State.updTeam_tokens (s : State) (k : Nat) (x : Team → Team) : (s.updTeam k x).tokens = s.tokens := rfl
@[simp] theorem State.updTeam_keys (s : State) (k : Nat) (x : Team → Team) : (s.updTeam k x).keys = s.keys := rfl
@[simp] theorem State.updTeam_hdir (s : State) (k : Nat) (x : Team → Team) : (s.updTeam k x).hdir = s.hdir := rfl
@[simp] theorem State.updTeam_dies (s : State) (k : Nat) (x : Team → Team) : (s.updTeam k x).dies = s.dies := rfl
@[simp] theorem State.updTeam_groups (s : State) (k : Nat) (x : Team → Team) : (s.updTeam k x).groups = s.groups := rfl
@[simp] theorem State.updTeam_mod (s : State) (k : Nat) (x : Team → Team) : (s.updTeam k x).mod = s.mod := rfl
@[simp] theorem State.updTeam_clock (s : State) (k : Nat) (x : Team → Team) : (s.updTeam k x).clock = s.clock := rfl
@[simp] theorem State.updTeam_sched (s : State) (k : Nat) (x : Team → Team) : (s.updTeam k x).sched = s.sched := rfl
@[simp] theorem State.updTeam_fresh (s : State) (k : Nat) (x : Team → Team) : (s.updTeam k x).fresh = s.fresh := rfl
@[simp] theorem State.updTeam_focus (s : State) (k : Nat) (x : Team → Team) : (s.updTeam k x).focus = s.focus := rfl
@[simp] theorem State.updTeam_hits (s : State) (k : Nat) (x : Team → Team) : (s.updTeam k x).hits = s.hits := rfl
@[simp] theorem State.updTeam_uray (s : State) (k : Nat) (x : Team → Team) : (s.updTeam k x).uray = s.uray := rfl
@[simp] theorem State.updTeam_nextId (s : State) (k : Nat) (x : Team → Team) : (s.updTeam k x).nextId = s.nextId := rfl
@[simp] theorem State.setTeam_thread (s : State) (k j : Nat) (x : Team) : (s.setTeam k x).thread j = s.thread j := rfl
@[simp] theorem State.updTeam_thread (s : State) (k j : Nat) (g : Team → Team) : (s.updTeam k g).thread j = s.thread j := rfl
@[simp] theorem State.setTeam_warp (s : State) (k j : Nat) (x : Team) : (s.setTeam k x).warp j = s.warp j := rfl
@[simp] theorem State.updTeam_warp (s : State) (k j : Nat) (g : Team → Team) : (s.updTeam k g).warp j = s.warp j := rfl
@[simp] theorem State.setTeam_team (s : State) (k : Nat) (x : Team) : (s.setTeam k x).team k = x := by simp [State.team]
theorem State.setTeam_team_ne (s : State) {j k : Nat} (x : Team) (h : j ≠ k) : (s.setTeam k x).team j = s.team j := by simp [State.team, Assoc.find_put_ne _ _ h]
@[simp] theorem State.updTeam_team (s : State) (k : Nat) (g : Team → Team) : (s.updTeam k g).team k = g (s.team k) := by simp [State.updTeam_eq]
theorem State.updTeam_team_ne (s : State) {j k : Nat} (g : Team → Team) (h : j ≠ k) : (s.updTeam k g).team j = s.team j := by simp [State.updTeam_eq, State.setTeam_team_ne _ _ h]
@[simp] theorem State.setTeam_core (s : State) (k j : Nat) (x : Team) : (s.setTeam k x).core j = s.core j := rfl
@[simp] theorem State.updTeam_core (s : State) (k j : Nat) (g : Team → Team) : (s.updTeam k g).core j = s.core j := rfl
@[simp] theorem State.setTeam_func (s : State) (k j : Nat) (x : Team) : (s.setTeam k x).func j = s.func j := rfl
@[simp] theorem State.updTeam_func (s : State) (k j : Nat) (g : Team → Team) : (s.updTeam k g).func j = s.func j := rfl
@[simp] theorem State.setTeam_queue (s : State) (k j : Nat) (x : Team) : (s.setTeam k x).queue j = s.queue j := rfl
@[simp] theorem State.updTeam_queue (s : State) (k j : Nat) (g : Team → Team) : (s.updTeam k g).queue j = s.queue j := rfl
@[simp] theorem State.setTeam_launch (s : State) (k j : Nat) (x : Team) : (s.setTeam k x).launch j = s.launch j := rfl
@[simp] theorem State.updTeam_launch (s : State) (k j : Nat) (g : Team → Team) : (s.updTeam k g).launch j = s.launch j := rfl
@[simp] theorem State.setTeam_die (s : State) (k j : Nat) (x : Team) : (s.setTeam k x).die j = s.die j := rfl
@[simp] theorem State.updTeam_die (s : State) (k j : Nat) (g : Team → Team) : (s.updTeam k g).die j = s.die j := rfl
@[simp] theorem State.setTeam_key (s : State) (k j : Nat) (x : Team) : (s.setTeam k x).key j = s.key j := rfl
@[simp] theorem State.updTeam_key (s : State) (k j : Nat) (g : Team → Team) : (s.updTeam k g).key j = s.key j := rfl
@[simp] theorem State.setTeam_ctx (s : State) (k j : Nat) (x : Team) : (s.setTeam k x).ctx j = s.ctx j := rfl
@[simp] theorem State.updTeam_ctx (s : State) (k j : Nat) (g : Team → Team) : (s.updTeam k g).ctx j = s.ctx j := rfl

/-! ## Core -/

@[simp] theorem State.setCore_mem (s : State) (k : Nat) (x : Core) : (s.setCore k x).mem = s.mem := rfl
@[simp] theorem State.setCore_lines (s : State) (k : Nat) (x : Core) : (s.setCore k x).lines = s.lines := rfl
@[simp] theorem State.setCore_cores (s : State) (k : Nat) (x : Core) : (s.setCore k x).cores = Assoc.put s.cores k x := rfl
@[simp] theorem State.setCore_teams (s : State) (k : Nat) (x : Core) : (s.setCore k x).teams = s.teams := rfl
@[simp] theorem State.setCore_warps (s : State) (k : Nat) (x : Core) : (s.setCore k x).warps = s.warps := rfl
@[simp] theorem State.setCore_threads (s : State) (k : Nat) (x : Core) : (s.setCore k x).threads = s.threads := rfl
@[simp] theorem State.setCore_funcs (s : State) (k : Nat) (x : Core) : (s.setCore k x).funcs = s.funcs := rfl
@[simp] theorem State.setCore_ctxs (s : State) (k : Nat) (x : Core) : (s.setCore k x).ctxs = s.ctxs := rfl
@[simp] theorem State.setCore_queues (s : State) (k : Nat) (x : Core) : (s.setCore k x).queues = s.queues := rfl
@[simp] theorem State.setCore_launches (s : State) (k : Nat) (x : Core) : (s.setCore k x).launches = s.launches := rfl
@[simp] theorem State.setCore_berths (s : State) (k : Nat) (x : Core) : (s.setCore k x).berths = s.berths := rfl
@[simp] theorem State.setCore_l2 (s : State) (k : Nat) (x : Core) : (s.setCore k x).l2 = s.l2 := rfl
@[simp] theorem State.setCore_deep (s : State) (k : Nat) (x : Core) : (s.setCore k x).deep = s.deep := rfl
@[simp] theorem State.setCore_tlb (s : State) (k : Nat) (x : Core) : (s.setCore k x).tlb = s.tlb := rfl
@[simp] theorem State.setCore_copies (s : State) (k : Nat) (x : Core) : (s.setCore k x).copies = s.copies := rfl
@[simp] theorem State.setCore_gadds (s : State) (k : Nat) (x : Core) : (s.setCore k x).gadds = s.gadds := rfl
@[simp] theorem State.setCore_mops (s : State) (k : Nat) (x : Core) : (s.setCore k x).mops = s.mops := rfl
@[simp] theorem State.setCore_colls (s : State) (k : Nat) (x : Core) : (s.setCore k x).colls = s.colls := rfl
@[simp] theorem State.setCore_rays (s : State) (k : Nat) (x : Core) : (s.setCore k x).rays = s.rays := rfl
@[simp] theorem State.setCore_subs (s : State) (k : Nat) (x : Core) : (s.setCore k x).subs = s.subs := rfl
@[simp] theorem State.setCore_rqs (s : State) (k : Nat) (x : Core) : (s.setCore k x).rqs = s.rqs := rfl
@[simp] theorem State.setCore_tokens (s : State) (k : Nat) (x : Core) : (s.setCore k x).tokens = s.tokens := rfl
@[simp] theorem State.setCore_keys (s : State) (k : Nat) (x : Core) : (s.setCore k x).keys = s.keys := rfl
@[simp] theorem State.setCore_hdir (s : State) (k : Nat) (x : Core) : (s.setCore k x).hdir = s.hdir := rfl
@[simp] theorem State.setCore_dies (s : State) (k : Nat) (x : Core) : (s.setCore k x).dies = s.dies := rfl
@[simp] theorem State.setCore_groups (s : State) (k : Nat) (x : Core) : (s.setCore k x).groups = s.groups := rfl
@[simp] theorem State.setCore_mod (s : State) (k : Nat) (x : Core) : (s.setCore k x).mod = s.mod := rfl
@[simp] theorem State.setCore_clock (s : State) (k : Nat) (x : Core) : (s.setCore k x).clock = s.clock := rfl
@[simp] theorem State.setCore_sched (s : State) (k : Nat) (x : Core) : (s.setCore k x).sched = s.sched := rfl
@[simp] theorem State.setCore_fresh (s : State) (k : Nat) (x : Core) : (s.setCore k x).fresh = s.fresh := rfl
@[simp] theorem State.setCore_focus (s : State) (k : Nat) (x : Core) : (s.setCore k x).focus = s.focus := rfl
@[simp] theorem State.setCore_hits (s : State) (k : Nat) (x : Core) : (s.setCore k x).hits = s.hits := rfl
@[simp] theorem State.setCore_uray (s : State) (k : Nat) (x : Core) : (s.setCore k x).uray = s.uray := rfl
@[simp] theorem State.setCore_nextId (s : State) (k : Nat) (x : Core) : (s.setCore k x).nextId = s.nextId := rfl
theorem State.updCore_eq (s : State) (k : Nat) (g : Core → Core) : s.updCore k g = s.setCore k (g (s.core k)) := rfl
@[simp] theorem State.updCore_mem (s : State) (k : Nat) (x : Core → Core) : (s.updCore k x).mem = s.mem := rfl
@[simp] theorem State.updCore_lines (s : State) (k : Nat) (x : Core → Core) : (s.updCore k x).lines = s.lines := rfl
@[simp] theorem State.updCore_teams (s : State) (k : Nat) (x : Core → Core) : (s.updCore k x).teams = s.teams := rfl
@[simp] theorem State.updCore_warps (s : State) (k : Nat) (x : Core → Core) : (s.updCore k x).warps = s.warps := rfl
@[simp] theorem State.updCore_threads (s : State) (k : Nat) (x : Core → Core) : (s.updCore k x).threads = s.threads := rfl
@[simp] theorem State.updCore_funcs (s : State) (k : Nat) (x : Core → Core) : (s.updCore k x).funcs = s.funcs := rfl
@[simp] theorem State.updCore_ctxs (s : State) (k : Nat) (x : Core → Core) : (s.updCore k x).ctxs = s.ctxs := rfl
@[simp] theorem State.updCore_queues (s : State) (k : Nat) (x : Core → Core) : (s.updCore k x).queues = s.queues := rfl
@[simp] theorem State.updCore_launches (s : State) (k : Nat) (x : Core → Core) : (s.updCore k x).launches = s.launches := rfl
@[simp] theorem State.updCore_berths (s : State) (k : Nat) (x : Core → Core) : (s.updCore k x).berths = s.berths := rfl
@[simp] theorem State.updCore_l2 (s : State) (k : Nat) (x : Core → Core) : (s.updCore k x).l2 = s.l2 := rfl
@[simp] theorem State.updCore_deep (s : State) (k : Nat) (x : Core → Core) : (s.updCore k x).deep = s.deep := rfl
@[simp] theorem State.updCore_tlb (s : State) (k : Nat) (x : Core → Core) : (s.updCore k x).tlb = s.tlb := rfl
@[simp] theorem State.updCore_copies (s : State) (k : Nat) (x : Core → Core) : (s.updCore k x).copies = s.copies := rfl
@[simp] theorem State.updCore_gadds (s : State) (k : Nat) (x : Core → Core) : (s.updCore k x).gadds = s.gadds := rfl
@[simp] theorem State.updCore_mops (s : State) (k : Nat) (x : Core → Core) : (s.updCore k x).mops = s.mops := rfl
@[simp] theorem State.updCore_colls (s : State) (k : Nat) (x : Core → Core) : (s.updCore k x).colls = s.colls := rfl
@[simp] theorem State.updCore_rays (s : State) (k : Nat) (x : Core → Core) : (s.updCore k x).rays = s.rays := rfl
@[simp] theorem State.updCore_subs (s : State) (k : Nat) (x : Core → Core) : (s.updCore k x).subs = s.subs := rfl
@[simp] theorem State.updCore_rqs (s : State) (k : Nat) (x : Core → Core) : (s.updCore k x).rqs = s.rqs := rfl
@[simp] theorem State.updCore_tokens (s : State) (k : Nat) (x : Core → Core) : (s.updCore k x).tokens = s.tokens := rfl
@[simp] theorem State.updCore_keys (s : State) (k : Nat) (x : Core → Core) : (s.updCore k x).keys = s.keys := rfl
@[simp] theorem State.updCore_hdir (s : State) (k : Nat) (x : Core → Core) : (s.updCore k x).hdir = s.hdir := rfl
@[simp] theorem State.updCore_dies (s : State) (k : Nat) (x : Core → Core) : (s.updCore k x).dies = s.dies := rfl
@[simp] theorem State.updCore_groups (s : State) (k : Nat) (x : Core → Core) : (s.updCore k x).groups = s.groups := rfl
@[simp] theorem State.updCore_mod (s : State) (k : Nat) (x : Core → Core) : (s.updCore k x).mod = s.mod := rfl
@[simp] theorem State.updCore_clock (s : State) (k : Nat) (x : Core → Core) : (s.updCore k x).clock = s.clock := rfl
@[simp] theorem State.updCore_sched (s : State) (k : Nat) (x : Core → Core) : (s.updCore k x).sched = s.sched := rfl
@[simp] theorem State.updCore_fresh (s : State) (k : Nat) (x : Core → Core) : (s.updCore k x).fresh = s.fresh := rfl
@[simp] theorem State.updCore_focus (s : State) (k : Nat) (x : Core → Core) : (s.updCore k x).focus = s.focus := rfl
@[simp] theorem State.updCore_hits (s : State) (k : Nat) (x : Core → Core) : (s.updCore k x).hits = s.hits := rfl
@[simp] theorem State.updCore_uray (s : State) (k : Nat) (x : Core → Core) : (s.updCore k x).uray = s.uray := rfl
@[simp] theorem State.updCore_nextId (s : State) (k : Nat) (x : Core → Core) : (s.updCore k x).nextId = s.nextId := rfl
@[simp] theorem State.setCore_thread (s : State) (k j : Nat) (x : Core) : (s.setCore k x).thread j = s.thread j := rfl
@[simp] theorem State.updCore_thread (s : State) (k j : Nat) (g : Core → Core) : (s.updCore k g).thread j = s.thread j := rfl
@[simp] theorem State.setCore_warp (s : State) (k j : Nat) (x : Core) : (s.setCore k x).warp j = s.warp j := rfl
@[simp] theorem State.updCore_warp (s : State) (k j : Nat) (g : Core → Core) : (s.updCore k g).warp j = s.warp j := rfl
@[simp] theorem State.setCore_team (s : State) (k j : Nat) (x : Core) : (s.setCore k x).team j = s.team j := rfl
@[simp] theorem State.updCore_team (s : State) (k j : Nat) (g : Core → Core) : (s.updCore k g).team j = s.team j := rfl
@[simp] theorem State.setCore_core (s : State) (k : Nat) (x : Core) : (s.setCore k x).core k = x := by simp [State.core]
theorem State.setCore_core_ne (s : State) {j k : Nat} (x : Core) (h : j ≠ k) : (s.setCore k x).core j = s.core j := by simp [State.core, Assoc.find_put_ne _ _ h]
@[simp] theorem State.updCore_core (s : State) (k : Nat) (g : Core → Core) : (s.updCore k g).core k = g (s.core k) := by simp [State.updCore_eq]
theorem State.updCore_core_ne (s : State) {j k : Nat} (g : Core → Core) (h : j ≠ k) : (s.updCore k g).core j = s.core j := by simp [State.updCore_eq, State.setCore_core_ne _ _ h]
@[simp] theorem State.setCore_func (s : State) (k j : Nat) (x : Core) : (s.setCore k x).func j = s.func j := rfl
@[simp] theorem State.updCore_func (s : State) (k j : Nat) (g : Core → Core) : (s.updCore k g).func j = s.func j := rfl
@[simp] theorem State.setCore_queue (s : State) (k j : Nat) (x : Core) : (s.setCore k x).queue j = s.queue j := rfl
@[simp] theorem State.updCore_queue (s : State) (k j : Nat) (g : Core → Core) : (s.updCore k g).queue j = s.queue j := rfl
@[simp] theorem State.setCore_launch (s : State) (k j : Nat) (x : Core) : (s.setCore k x).launch j = s.launch j := rfl
@[simp] theorem State.updCore_launch (s : State) (k j : Nat) (g : Core → Core) : (s.updCore k g).launch j = s.launch j := rfl
@[simp] theorem State.setCore_die (s : State) (k j : Nat) (x : Core) : (s.setCore k x).die j = s.die j := rfl
@[simp] theorem State.updCore_die (s : State) (k j : Nat) (g : Core → Core) : (s.updCore k g).die j = s.die j := rfl
@[simp] theorem State.setCore_key (s : State) (k j : Nat) (x : Core) : (s.setCore k x).key j = s.key j := rfl
@[simp] theorem State.updCore_key (s : State) (k j : Nat) (g : Core → Core) : (s.updCore k g).key j = s.key j := rfl
@[simp] theorem State.setCore_ctx (s : State) (k j : Nat) (x : Core) : (s.setCore k x).ctx j = s.ctx j := rfl
@[simp] theorem State.updCore_ctx (s : State) (k j : Nat) (g : Core → Core) : (s.updCore k g).ctx j = s.ctx j := rfl

/-! ## Func -/

@[simp] theorem State.setFunc_mem (s : State) (k : Nat) (x : Func) : (s.setFunc k x).mem = s.mem := rfl
@[simp] theorem State.setFunc_lines (s : State) (k : Nat) (x : Func) : (s.setFunc k x).lines = s.lines := rfl
@[simp] theorem State.setFunc_cores (s : State) (k : Nat) (x : Func) : (s.setFunc k x).cores = s.cores := rfl
@[simp] theorem State.setFunc_teams (s : State) (k : Nat) (x : Func) : (s.setFunc k x).teams = s.teams := rfl
@[simp] theorem State.setFunc_warps (s : State) (k : Nat) (x : Func) : (s.setFunc k x).warps = s.warps := rfl
@[simp] theorem State.setFunc_threads (s : State) (k : Nat) (x : Func) : (s.setFunc k x).threads = s.threads := rfl
@[simp] theorem State.setFunc_funcs (s : State) (k : Nat) (x : Func) : (s.setFunc k x).funcs = Assoc.put s.funcs k x := rfl
@[simp] theorem State.setFunc_ctxs (s : State) (k : Nat) (x : Func) : (s.setFunc k x).ctxs = s.ctxs := rfl
@[simp] theorem State.setFunc_queues (s : State) (k : Nat) (x : Func) : (s.setFunc k x).queues = s.queues := rfl
@[simp] theorem State.setFunc_launches (s : State) (k : Nat) (x : Func) : (s.setFunc k x).launches = s.launches := rfl
@[simp] theorem State.setFunc_berths (s : State) (k : Nat) (x : Func) : (s.setFunc k x).berths = s.berths := rfl
@[simp] theorem State.setFunc_l2 (s : State) (k : Nat) (x : Func) : (s.setFunc k x).l2 = s.l2 := rfl
@[simp] theorem State.setFunc_deep (s : State) (k : Nat) (x : Func) : (s.setFunc k x).deep = s.deep := rfl
@[simp] theorem State.setFunc_tlb (s : State) (k : Nat) (x : Func) : (s.setFunc k x).tlb = s.tlb := rfl
@[simp] theorem State.setFunc_copies (s : State) (k : Nat) (x : Func) : (s.setFunc k x).copies = s.copies := rfl
@[simp] theorem State.setFunc_gadds (s : State) (k : Nat) (x : Func) : (s.setFunc k x).gadds = s.gadds := rfl
@[simp] theorem State.setFunc_mops (s : State) (k : Nat) (x : Func) : (s.setFunc k x).mops = s.mops := rfl
@[simp] theorem State.setFunc_colls (s : State) (k : Nat) (x : Func) : (s.setFunc k x).colls = s.colls := rfl
@[simp] theorem State.setFunc_rays (s : State) (k : Nat) (x : Func) : (s.setFunc k x).rays = s.rays := rfl
@[simp] theorem State.setFunc_subs (s : State) (k : Nat) (x : Func) : (s.setFunc k x).subs = s.subs := rfl
@[simp] theorem State.setFunc_rqs (s : State) (k : Nat) (x : Func) : (s.setFunc k x).rqs = s.rqs := rfl
@[simp] theorem State.setFunc_tokens (s : State) (k : Nat) (x : Func) : (s.setFunc k x).tokens = s.tokens := rfl
@[simp] theorem State.setFunc_keys (s : State) (k : Nat) (x : Func) : (s.setFunc k x).keys = s.keys := rfl
@[simp] theorem State.setFunc_hdir (s : State) (k : Nat) (x : Func) : (s.setFunc k x).hdir = s.hdir := rfl
@[simp] theorem State.setFunc_dies (s : State) (k : Nat) (x : Func) : (s.setFunc k x).dies = s.dies := rfl
@[simp] theorem State.setFunc_groups (s : State) (k : Nat) (x : Func) : (s.setFunc k x).groups = s.groups := rfl
@[simp] theorem State.setFunc_mod (s : State) (k : Nat) (x : Func) : (s.setFunc k x).mod = s.mod := rfl
@[simp] theorem State.setFunc_clock (s : State) (k : Nat) (x : Func) : (s.setFunc k x).clock = s.clock := rfl
@[simp] theorem State.setFunc_sched (s : State) (k : Nat) (x : Func) : (s.setFunc k x).sched = s.sched := rfl
@[simp] theorem State.setFunc_fresh (s : State) (k : Nat) (x : Func) : (s.setFunc k x).fresh = s.fresh := rfl
@[simp] theorem State.setFunc_focus (s : State) (k : Nat) (x : Func) : (s.setFunc k x).focus = s.focus := rfl
@[simp] theorem State.setFunc_hits (s : State) (k : Nat) (x : Func) : (s.setFunc k x).hits = s.hits := rfl
@[simp] theorem State.setFunc_uray (s : State) (k : Nat) (x : Func) : (s.setFunc k x).uray = s.uray := rfl
@[simp] theorem State.setFunc_nextId (s : State) (k : Nat) (x : Func) : (s.setFunc k x).nextId = s.nextId := rfl
theorem State.updFunc_eq (s : State) (k : Nat) (g : Func → Func) : s.updFunc k g = s.setFunc k (g (s.func k)) := rfl
@[simp] theorem State.updFunc_mem (s : State) (k : Nat) (x : Func → Func) : (s.updFunc k x).mem = s.mem := rfl
@[simp] theorem State.updFunc_lines (s : State) (k : Nat) (x : Func → Func) : (s.updFunc k x).lines = s.lines := rfl
@[simp] theorem State.updFunc_cores (s : State) (k : Nat) (x : Func → Func) : (s.updFunc k x).cores = s.cores := rfl
@[simp] theorem State.updFunc_teams (s : State) (k : Nat) (x : Func → Func) : (s.updFunc k x).teams = s.teams := rfl
@[simp] theorem State.updFunc_warps (s : State) (k : Nat) (x : Func → Func) : (s.updFunc k x).warps = s.warps := rfl
@[simp] theorem State.updFunc_threads (s : State) (k : Nat) (x : Func → Func) : (s.updFunc k x).threads = s.threads := rfl
@[simp] theorem State.updFunc_ctxs (s : State) (k : Nat) (x : Func → Func) : (s.updFunc k x).ctxs = s.ctxs := rfl
@[simp] theorem State.updFunc_queues (s : State) (k : Nat) (x : Func → Func) : (s.updFunc k x).queues = s.queues := rfl
@[simp] theorem State.updFunc_launches (s : State) (k : Nat) (x : Func → Func) : (s.updFunc k x).launches = s.launches := rfl
@[simp] theorem State.updFunc_berths (s : State) (k : Nat) (x : Func → Func) : (s.updFunc k x).berths = s.berths := rfl
@[simp] theorem State.updFunc_l2 (s : State) (k : Nat) (x : Func → Func) : (s.updFunc k x).l2 = s.l2 := rfl
@[simp] theorem State.updFunc_deep (s : State) (k : Nat) (x : Func → Func) : (s.updFunc k x).deep = s.deep := rfl
@[simp] theorem State.updFunc_tlb (s : State) (k : Nat) (x : Func → Func) : (s.updFunc k x).tlb = s.tlb := rfl
@[simp] theorem State.updFunc_copies (s : State) (k : Nat) (x : Func → Func) : (s.updFunc k x).copies = s.copies := rfl
@[simp] theorem State.updFunc_gadds (s : State) (k : Nat) (x : Func → Func) : (s.updFunc k x).gadds = s.gadds := rfl
@[simp] theorem State.updFunc_mops (s : State) (k : Nat) (x : Func → Func) : (s.updFunc k x).mops = s.mops := rfl
@[simp] theorem State.updFunc_colls (s : State) (k : Nat) (x : Func → Func) : (s.updFunc k x).colls = s.colls := rfl
@[simp] theorem State.updFunc_rays (s : State) (k : Nat) (x : Func → Func) : (s.updFunc k x).rays = s.rays := rfl
@[simp] theorem State.updFunc_subs (s : State) (k : Nat) (x : Func → Func) : (s.updFunc k x).subs = s.subs := rfl
@[simp] theorem State.updFunc_rqs (s : State) (k : Nat) (x : Func → Func) : (s.updFunc k x).rqs = s.rqs := rfl
@[simp] theorem State.updFunc_tokens (s : State) (k : Nat) (x : Func → Func) : (s.updFunc k x).tokens = s.tokens := rfl
@[simp] theorem State.updFunc_keys (s : State) (k : Nat) (x : Func → Func) : (s.updFunc k x).keys = s.keys := rfl
@[simp] theorem State.updFunc_hdir (s : State) (k : Nat) (x : Func → Func) : (s.updFunc k x).hdir = s.hdir := rfl
@[simp] theorem State.updFunc_dies (s : State) (k : Nat) (x : Func → Func) : (s.updFunc k x).dies = s.dies := rfl
@[simp] theorem State.updFunc_groups (s : State) (k : Nat) (x : Func → Func) : (s.updFunc k x).groups = s.groups := rfl
@[simp] theorem State.updFunc_mod (s : State) (k : Nat) (x : Func → Func) : (s.updFunc k x).mod = s.mod := rfl
@[simp] theorem State.updFunc_clock (s : State) (k : Nat) (x : Func → Func) : (s.updFunc k x).clock = s.clock := rfl
@[simp] theorem State.updFunc_sched (s : State) (k : Nat) (x : Func → Func) : (s.updFunc k x).sched = s.sched := rfl
@[simp] theorem State.updFunc_fresh (s : State) (k : Nat) (x : Func → Func) : (s.updFunc k x).fresh = s.fresh := rfl
@[simp] theorem State.updFunc_focus (s : State) (k : Nat) (x : Func → Func) : (s.updFunc k x).focus = s.focus := rfl
@[simp] theorem State.updFunc_hits (s : State) (k : Nat) (x : Func → Func) : (s.updFunc k x).hits = s.hits := rfl
@[simp] theorem State.updFunc_uray (s : State) (k : Nat) (x : Func → Func) : (s.updFunc k x).uray = s.uray := rfl
@[simp] theorem State.updFunc_nextId (s : State) (k : Nat) (x : Func → Func) : (s.updFunc k x).nextId = s.nextId := rfl
@[simp] theorem State.setFunc_thread (s : State) (k j : Nat) (x : Func) : (s.setFunc k x).thread j = s.thread j := rfl
@[simp] theorem State.updFunc_thread (s : State) (k j : Nat) (g : Func → Func) : (s.updFunc k g).thread j = s.thread j := rfl
@[simp] theorem State.setFunc_warp (s : State) (k j : Nat) (x : Func) : (s.setFunc k x).warp j = s.warp j := rfl
@[simp] theorem State.updFunc_warp (s : State) (k j : Nat) (g : Func → Func) : (s.updFunc k g).warp j = s.warp j := rfl
@[simp] theorem State.setFunc_team (s : State) (k j : Nat) (x : Func) : (s.setFunc k x).team j = s.team j := rfl
@[simp] theorem State.updFunc_team (s : State) (k j : Nat) (g : Func → Func) : (s.updFunc k g).team j = s.team j := rfl
@[simp] theorem State.setFunc_core (s : State) (k j : Nat) (x : Func) : (s.setFunc k x).core j = s.core j := rfl
@[simp] theorem State.updFunc_core (s : State) (k j : Nat) (g : Func → Func) : (s.updFunc k g).core j = s.core j := rfl
@[simp] theorem State.setFunc_func (s : State) (k : Nat) (x : Func) : (s.setFunc k x).func k = x := by simp [State.func]
theorem State.setFunc_func_ne (s : State) {j k : Nat} (x : Func) (h : j ≠ k) : (s.setFunc k x).func j = s.func j := by simp [State.func, Assoc.find_put_ne _ _ h]
@[simp] theorem State.updFunc_func (s : State) (k : Nat) (g : Func → Func) : (s.updFunc k g).func k = g (s.func k) := by simp [State.updFunc_eq]
theorem State.updFunc_func_ne (s : State) {j k : Nat} (g : Func → Func) (h : j ≠ k) : (s.updFunc k g).func j = s.func j := by simp [State.updFunc_eq, State.setFunc_func_ne _ _ h]
@[simp] theorem State.setFunc_queue (s : State) (k j : Nat) (x : Func) : (s.setFunc k x).queue j = s.queue j := rfl
@[simp] theorem State.updFunc_queue (s : State) (k j : Nat) (g : Func → Func) : (s.updFunc k g).queue j = s.queue j := rfl
@[simp] theorem State.setFunc_launch (s : State) (k j : Nat) (x : Func) : (s.setFunc k x).launch j = s.launch j := rfl
@[simp] theorem State.updFunc_launch (s : State) (k j : Nat) (g : Func → Func) : (s.updFunc k g).launch j = s.launch j := rfl
@[simp] theorem State.setFunc_die (s : State) (k j : Nat) (x : Func) : (s.setFunc k x).die j = s.die j := rfl
@[simp] theorem State.updFunc_die (s : State) (k j : Nat) (g : Func → Func) : (s.updFunc k g).die j = s.die j := rfl
@[simp] theorem State.setFunc_key (s : State) (k j : Nat) (x : Func) : (s.setFunc k x).key j = s.key j := rfl
@[simp] theorem State.updFunc_key (s : State) (k j : Nat) (g : Func → Func) : (s.updFunc k g).key j = s.key j := rfl
@[simp] theorem State.setFunc_ctx (s : State) (k j : Nat) (x : Func) : (s.setFunc k x).ctx j = s.ctx j := rfl
@[simp] theorem State.updFunc_ctx (s : State) (k j : Nat) (g : Func → Func) : (s.updFunc k g).ctx j = s.ctx j := rfl

/-! ## Queue -/

@[simp] theorem State.setQueue_mem (s : State) (k : Nat) (x : Queue) : (s.setQueue k x).mem = s.mem := rfl
@[simp] theorem State.setQueue_lines (s : State) (k : Nat) (x : Queue) : (s.setQueue k x).lines = s.lines := rfl
@[simp] theorem State.setQueue_cores (s : State) (k : Nat) (x : Queue) : (s.setQueue k x).cores = s.cores := rfl
@[simp] theorem State.setQueue_teams (s : State) (k : Nat) (x : Queue) : (s.setQueue k x).teams = s.teams := rfl
@[simp] theorem State.setQueue_warps (s : State) (k : Nat) (x : Queue) : (s.setQueue k x).warps = s.warps := rfl
@[simp] theorem State.setQueue_threads (s : State) (k : Nat) (x : Queue) : (s.setQueue k x).threads = s.threads := rfl
@[simp] theorem State.setQueue_funcs (s : State) (k : Nat) (x : Queue) : (s.setQueue k x).funcs = s.funcs := rfl
@[simp] theorem State.setQueue_ctxs (s : State) (k : Nat) (x : Queue) : (s.setQueue k x).ctxs = s.ctxs := rfl
@[simp] theorem State.setQueue_queues (s : State) (k : Nat) (x : Queue) : (s.setQueue k x).queues = Assoc.put s.queues k x := rfl
@[simp] theorem State.setQueue_launches (s : State) (k : Nat) (x : Queue) : (s.setQueue k x).launches = s.launches := rfl
@[simp] theorem State.setQueue_berths (s : State) (k : Nat) (x : Queue) : (s.setQueue k x).berths = s.berths := rfl
@[simp] theorem State.setQueue_l2 (s : State) (k : Nat) (x : Queue) : (s.setQueue k x).l2 = s.l2 := rfl
@[simp] theorem State.setQueue_deep (s : State) (k : Nat) (x : Queue) : (s.setQueue k x).deep = s.deep := rfl
@[simp] theorem State.setQueue_tlb (s : State) (k : Nat) (x : Queue) : (s.setQueue k x).tlb = s.tlb := rfl
@[simp] theorem State.setQueue_copies (s : State) (k : Nat) (x : Queue) : (s.setQueue k x).copies = s.copies := rfl
@[simp] theorem State.setQueue_gadds (s : State) (k : Nat) (x : Queue) : (s.setQueue k x).gadds = s.gadds := rfl
@[simp] theorem State.setQueue_mops (s : State) (k : Nat) (x : Queue) : (s.setQueue k x).mops = s.mops := rfl
@[simp] theorem State.setQueue_colls (s : State) (k : Nat) (x : Queue) : (s.setQueue k x).colls = s.colls := rfl
@[simp] theorem State.setQueue_rays (s : State) (k : Nat) (x : Queue) : (s.setQueue k x).rays = s.rays := rfl
@[simp] theorem State.setQueue_subs (s : State) (k : Nat) (x : Queue) : (s.setQueue k x).subs = s.subs := rfl
@[simp] theorem State.setQueue_rqs (s : State) (k : Nat) (x : Queue) : (s.setQueue k x).rqs = s.rqs := rfl
@[simp] theorem State.setQueue_tokens (s : State) (k : Nat) (x : Queue) : (s.setQueue k x).tokens = s.tokens := rfl
@[simp] theorem State.setQueue_keys (s : State) (k : Nat) (x : Queue) : (s.setQueue k x).keys = s.keys := rfl
@[simp] theorem State.setQueue_hdir (s : State) (k : Nat) (x : Queue) : (s.setQueue k x).hdir = s.hdir := rfl
@[simp] theorem State.setQueue_dies (s : State) (k : Nat) (x : Queue) : (s.setQueue k x).dies = s.dies := rfl
@[simp] theorem State.setQueue_groups (s : State) (k : Nat) (x : Queue) : (s.setQueue k x).groups = s.groups := rfl
@[simp] theorem State.setQueue_mod (s : State) (k : Nat) (x : Queue) : (s.setQueue k x).mod = s.mod := rfl
@[simp] theorem State.setQueue_clock (s : State) (k : Nat) (x : Queue) : (s.setQueue k x).clock = s.clock := rfl
@[simp] theorem State.setQueue_sched (s : State) (k : Nat) (x : Queue) : (s.setQueue k x).sched = s.sched := rfl
@[simp] theorem State.setQueue_fresh (s : State) (k : Nat) (x : Queue) : (s.setQueue k x).fresh = s.fresh := rfl
@[simp] theorem State.setQueue_focus (s : State) (k : Nat) (x : Queue) : (s.setQueue k x).focus = s.focus := rfl
@[simp] theorem State.setQueue_hits (s : State) (k : Nat) (x : Queue) : (s.setQueue k x).hits = s.hits := rfl
@[simp] theorem State.setQueue_uray (s : State) (k : Nat) (x : Queue) : (s.setQueue k x).uray = s.uray := rfl
@[simp] theorem State.setQueue_nextId (s : State) (k : Nat) (x : Queue) : (s.setQueue k x).nextId = s.nextId := rfl
theorem State.updQueue_eq (s : State) (k : Nat) (g : Queue → Queue) : s.updQueue k g = s.setQueue k (g (s.queue k)) := rfl
@[simp] theorem State.updQueue_mem (s : State) (k : Nat) (x : Queue → Queue) : (s.updQueue k x).mem = s.mem := rfl
@[simp] theorem State.updQueue_lines (s : State) (k : Nat) (x : Queue → Queue) : (s.updQueue k x).lines = s.lines := rfl
@[simp] theorem State.updQueue_cores (s : State) (k : Nat) (x : Queue → Queue) : (s.updQueue k x).cores = s.cores := rfl
@[simp] theorem State.updQueue_teams (s : State) (k : Nat) (x : Queue → Queue) : (s.updQueue k x).teams = s.teams := rfl
@[simp] theorem State.updQueue_warps (s : State) (k : Nat) (x : Queue → Queue) : (s.updQueue k x).warps = s.warps := rfl
@[simp] theorem State.updQueue_threads (s : State) (k : Nat) (x : Queue → Queue) : (s.updQueue k x).threads = s.threads := rfl
@[simp] theorem State.updQueue_funcs (s : State) (k : Nat) (x : Queue → Queue) : (s.updQueue k x).funcs = s.funcs := rfl
@[simp] theorem State.updQueue_ctxs (s : State) (k : Nat) (x : Queue → Queue) : (s.updQueue k x).ctxs = s.ctxs := rfl
@[simp] theorem State.updQueue_launches (s : State) (k : Nat) (x : Queue → Queue) : (s.updQueue k x).launches = s.launches := rfl
@[simp] theorem State.updQueue_berths (s : State) (k : Nat) (x : Queue → Queue) : (s.updQueue k x).berths = s.berths := rfl
@[simp] theorem State.updQueue_l2 (s : State) (k : Nat) (x : Queue → Queue) : (s.updQueue k x).l2 = s.l2 := rfl
@[simp] theorem State.updQueue_deep (s : State) (k : Nat) (x : Queue → Queue) : (s.updQueue k x).deep = s.deep := rfl
@[simp] theorem State.updQueue_tlb (s : State) (k : Nat) (x : Queue → Queue) : (s.updQueue k x).tlb = s.tlb := rfl
@[simp] theorem State.updQueue_copies (s : State) (k : Nat) (x : Queue → Queue) : (s.updQueue k x).copies = s.copies := rfl
@[simp] theorem State.updQueue_gadds (s : State) (k : Nat) (x : Queue → Queue) : (s.updQueue k x).gadds = s.gadds := rfl
@[simp] theorem State.updQueue_mops (s : State) (k : Nat) (x : Queue → Queue) : (s.updQueue k x).mops = s.mops := rfl
@[simp] theorem State.updQueue_colls (s : State) (k : Nat) (x : Queue → Queue) : (s.updQueue k x).colls = s.colls := rfl
@[simp] theorem State.updQueue_rays (s : State) (k : Nat) (x : Queue → Queue) : (s.updQueue k x).rays = s.rays := rfl
@[simp] theorem State.updQueue_subs (s : State) (k : Nat) (x : Queue → Queue) : (s.updQueue k x).subs = s.subs := rfl
@[simp] theorem State.updQueue_rqs (s : State) (k : Nat) (x : Queue → Queue) : (s.updQueue k x).rqs = s.rqs := rfl
@[simp] theorem State.updQueue_tokens (s : State) (k : Nat) (x : Queue → Queue) : (s.updQueue k x).tokens = s.tokens := rfl
@[simp] theorem State.updQueue_keys (s : State) (k : Nat) (x : Queue → Queue) : (s.updQueue k x).keys = s.keys := rfl
@[simp] theorem State.updQueue_hdir (s : State) (k : Nat) (x : Queue → Queue) : (s.updQueue k x).hdir = s.hdir := rfl
@[simp] theorem State.updQueue_dies (s : State) (k : Nat) (x : Queue → Queue) : (s.updQueue k x).dies = s.dies := rfl
@[simp] theorem State.updQueue_groups (s : State) (k : Nat) (x : Queue → Queue) : (s.updQueue k x).groups = s.groups := rfl
@[simp] theorem State.updQueue_mod (s : State) (k : Nat) (x : Queue → Queue) : (s.updQueue k x).mod = s.mod := rfl
@[simp] theorem State.updQueue_clock (s : State) (k : Nat) (x : Queue → Queue) : (s.updQueue k x).clock = s.clock := rfl
@[simp] theorem State.updQueue_sched (s : State) (k : Nat) (x : Queue → Queue) : (s.updQueue k x).sched = s.sched := rfl
@[simp] theorem State.updQueue_fresh (s : State) (k : Nat) (x : Queue → Queue) : (s.updQueue k x).fresh = s.fresh := rfl
@[simp] theorem State.updQueue_focus (s : State) (k : Nat) (x : Queue → Queue) : (s.updQueue k x).focus = s.focus := rfl
@[simp] theorem State.updQueue_hits (s : State) (k : Nat) (x : Queue → Queue) : (s.updQueue k x).hits = s.hits := rfl
@[simp] theorem State.updQueue_uray (s : State) (k : Nat) (x : Queue → Queue) : (s.updQueue k x).uray = s.uray := rfl
@[simp] theorem State.updQueue_nextId (s : State) (k : Nat) (x : Queue → Queue) : (s.updQueue k x).nextId = s.nextId := rfl
@[simp] theorem State.setQueue_thread (s : State) (k j : Nat) (x : Queue) : (s.setQueue k x).thread j = s.thread j := rfl
@[simp] theorem State.updQueue_thread (s : State) (k j : Nat) (g : Queue → Queue) : (s.updQueue k g).thread j = s.thread j := rfl
@[simp] theorem State.setQueue_warp (s : State) (k j : Nat) (x : Queue) : (s.setQueue k x).warp j = s.warp j := rfl
@[simp] theorem State.updQueue_warp (s : State) (k j : Nat) (g : Queue → Queue) : (s.updQueue k g).warp j = s.warp j := rfl
@[simp] theorem State.setQueue_team (s : State) (k j : Nat) (x : Queue) : (s.setQueue k x).team j = s.team j := rfl
@[simp] theorem State.updQueue_team (s : State) (k j : Nat) (g : Queue → Queue) : (s.updQueue k g).team j = s.team j := rfl
@[simp] theorem State.setQueue_core (s : State) (k j : Nat) (x : Queue) : (s.setQueue k x).core j = s.core j := rfl
@[simp] theorem State.updQueue_core (s : State) (k j : Nat) (g : Queue → Queue) : (s.updQueue k g).core j = s.core j := rfl
@[simp] theorem State.setQueue_func (s : State) (k j : Nat) (x : Queue) : (s.setQueue k x).func j = s.func j := rfl
@[simp] theorem State.updQueue_func (s : State) (k j : Nat) (g : Queue → Queue) : (s.updQueue k g).func j = s.func j := rfl
@[simp] theorem State.setQueue_queue (s : State) (k : Nat) (x : Queue) : (s.setQueue k x).queue k = x := by simp [State.queue]
theorem State.setQueue_queue_ne (s : State) {j k : Nat} (x : Queue) (h : j ≠ k) : (s.setQueue k x).queue j = s.queue j := by simp [State.queue, Assoc.find_put_ne _ _ h]
@[simp] theorem State.updQueue_queue (s : State) (k : Nat) (g : Queue → Queue) : (s.updQueue k g).queue k = g (s.queue k) := by simp [State.updQueue_eq]
theorem State.updQueue_queue_ne (s : State) {j k : Nat} (g : Queue → Queue) (h : j ≠ k) : (s.updQueue k g).queue j = s.queue j := by simp [State.updQueue_eq, State.setQueue_queue_ne _ _ h]
@[simp] theorem State.setQueue_launch (s : State) (k j : Nat) (x : Queue) : (s.setQueue k x).launch j = s.launch j := rfl
@[simp] theorem State.updQueue_launch (s : State) (k j : Nat) (g : Queue → Queue) : (s.updQueue k g).launch j = s.launch j := rfl
@[simp] theorem State.setQueue_die (s : State) (k j : Nat) (x : Queue) : (s.setQueue k x).die j = s.die j := rfl
@[simp] theorem State.updQueue_die (s : State) (k j : Nat) (g : Queue → Queue) : (s.updQueue k g).die j = s.die j := rfl
@[simp] theorem State.setQueue_key (s : State) (k j : Nat) (x : Queue) : (s.setQueue k x).key j = s.key j := rfl
@[simp] theorem State.updQueue_key (s : State) (k j : Nat) (g : Queue → Queue) : (s.updQueue k g).key j = s.key j := rfl
@[simp] theorem State.setQueue_ctx (s : State) (k j : Nat) (x : Queue) : (s.setQueue k x).ctx j = s.ctx j := rfl
@[simp] theorem State.updQueue_ctx (s : State) (k j : Nat) (g : Queue → Queue) : (s.updQueue k g).ctx j = s.ctx j := rfl

/-! ## Launch -/

@[simp] theorem State.setLaunch_mem (s : State) (k : Nat) (x : Launch) : (s.setLaunch k x).mem = s.mem := rfl
@[simp] theorem State.setLaunch_lines (s : State) (k : Nat) (x : Launch) : (s.setLaunch k x).lines = s.lines := rfl
@[simp] theorem State.setLaunch_cores (s : State) (k : Nat) (x : Launch) : (s.setLaunch k x).cores = s.cores := rfl
@[simp] theorem State.setLaunch_teams (s : State) (k : Nat) (x : Launch) : (s.setLaunch k x).teams = s.teams := rfl
@[simp] theorem State.setLaunch_warps (s : State) (k : Nat) (x : Launch) : (s.setLaunch k x).warps = s.warps := rfl
@[simp] theorem State.setLaunch_threads (s : State) (k : Nat) (x : Launch) : (s.setLaunch k x).threads = s.threads := rfl
@[simp] theorem State.setLaunch_funcs (s : State) (k : Nat) (x : Launch) : (s.setLaunch k x).funcs = s.funcs := rfl
@[simp] theorem State.setLaunch_ctxs (s : State) (k : Nat) (x : Launch) : (s.setLaunch k x).ctxs = s.ctxs := rfl
@[simp] theorem State.setLaunch_queues (s : State) (k : Nat) (x : Launch) : (s.setLaunch k x).queues = s.queues := rfl
@[simp] theorem State.setLaunch_launches (s : State) (k : Nat) (x : Launch) : (s.setLaunch k x).launches = Assoc.put s.launches k x := rfl
@[simp] theorem State.setLaunch_berths (s : State) (k : Nat) (x : Launch) : (s.setLaunch k x).berths = s.berths := rfl
@[simp] theorem State.setLaunch_l2 (s : State) (k : Nat) (x : Launch) : (s.setLaunch k x).l2 = s.l2 := rfl
@[simp] theorem State.setLaunch_deep (s : State) (k : Nat) (x : Launch) : (s.setLaunch k x).deep = s.deep := rfl
@[simp] theorem State.setLaunch_tlb (s : State) (k : Nat) (x : Launch) : (s.setLaunch k x).tlb = s.tlb := rfl
@[simp] theorem State.setLaunch_copies (s : State) (k : Nat) (x : Launch) : (s.setLaunch k x).copies = s.copies := rfl
@[simp] theorem State.setLaunch_gadds (s : State) (k : Nat) (x : Launch) : (s.setLaunch k x).gadds = s.gadds := rfl
@[simp] theorem State.setLaunch_mops (s : State) (k : Nat) (x : Launch) : (s.setLaunch k x).mops = s.mops := rfl
@[simp] theorem State.setLaunch_colls (s : State) (k : Nat) (x : Launch) : (s.setLaunch k x).colls = s.colls := rfl
@[simp] theorem State.setLaunch_rays (s : State) (k : Nat) (x : Launch) : (s.setLaunch k x).rays = s.rays := rfl
@[simp] theorem State.setLaunch_subs (s : State) (k : Nat) (x : Launch) : (s.setLaunch k x).subs = s.subs := rfl
@[simp] theorem State.setLaunch_rqs (s : State) (k : Nat) (x : Launch) : (s.setLaunch k x).rqs = s.rqs := rfl
@[simp] theorem State.setLaunch_tokens (s : State) (k : Nat) (x : Launch) : (s.setLaunch k x).tokens = s.tokens := rfl
@[simp] theorem State.setLaunch_keys (s : State) (k : Nat) (x : Launch) : (s.setLaunch k x).keys = s.keys := rfl
@[simp] theorem State.setLaunch_hdir (s : State) (k : Nat) (x : Launch) : (s.setLaunch k x).hdir = s.hdir := rfl
@[simp] theorem State.setLaunch_dies (s : State) (k : Nat) (x : Launch) : (s.setLaunch k x).dies = s.dies := rfl
@[simp] theorem State.setLaunch_groups (s : State) (k : Nat) (x : Launch) : (s.setLaunch k x).groups = s.groups := rfl
@[simp] theorem State.setLaunch_mod (s : State) (k : Nat) (x : Launch) : (s.setLaunch k x).mod = s.mod := rfl
@[simp] theorem State.setLaunch_clock (s : State) (k : Nat) (x : Launch) : (s.setLaunch k x).clock = s.clock := rfl
@[simp] theorem State.setLaunch_sched (s : State) (k : Nat) (x : Launch) : (s.setLaunch k x).sched = s.sched := rfl
@[simp] theorem State.setLaunch_fresh (s : State) (k : Nat) (x : Launch) : (s.setLaunch k x).fresh = s.fresh := rfl
@[simp] theorem State.setLaunch_focus (s : State) (k : Nat) (x : Launch) : (s.setLaunch k x).focus = s.focus := rfl
@[simp] theorem State.setLaunch_hits (s : State) (k : Nat) (x : Launch) : (s.setLaunch k x).hits = s.hits := rfl
@[simp] theorem State.setLaunch_uray (s : State) (k : Nat) (x : Launch) : (s.setLaunch k x).uray = s.uray := rfl
@[simp] theorem State.setLaunch_nextId (s : State) (k : Nat) (x : Launch) : (s.setLaunch k x).nextId = s.nextId := rfl
theorem State.updLaunch_eq (s : State) (k : Nat) (g : Launch → Launch) : s.updLaunch k g = s.setLaunch k (g (s.launch k)) := rfl
@[simp] theorem State.updLaunch_mem (s : State) (k : Nat) (x : Launch → Launch) : (s.updLaunch k x).mem = s.mem := rfl
@[simp] theorem State.updLaunch_lines (s : State) (k : Nat) (x : Launch → Launch) : (s.updLaunch k x).lines = s.lines := rfl
@[simp] theorem State.updLaunch_cores (s : State) (k : Nat) (x : Launch → Launch) : (s.updLaunch k x).cores = s.cores := rfl
@[simp] theorem State.updLaunch_teams (s : State) (k : Nat) (x : Launch → Launch) : (s.updLaunch k x).teams = s.teams := rfl
@[simp] theorem State.updLaunch_warps (s : State) (k : Nat) (x : Launch → Launch) : (s.updLaunch k x).warps = s.warps := rfl
@[simp] theorem State.updLaunch_threads (s : State) (k : Nat) (x : Launch → Launch) : (s.updLaunch k x).threads = s.threads := rfl
@[simp] theorem State.updLaunch_funcs (s : State) (k : Nat) (x : Launch → Launch) : (s.updLaunch k x).funcs = s.funcs := rfl
@[simp] theorem State.updLaunch_ctxs (s : State) (k : Nat) (x : Launch → Launch) : (s.updLaunch k x).ctxs = s.ctxs := rfl
@[simp] theorem State.updLaunch_queues (s : State) (k : Nat) (x : Launch → Launch) : (s.updLaunch k x).queues = s.queues := rfl
@[simp] theorem State.updLaunch_berths (s : State) (k : Nat) (x : Launch → Launch) : (s.updLaunch k x).berths = s.berths := rfl
@[simp] theorem State.updLaunch_l2 (s : State) (k : Nat) (x : Launch → Launch) : (s.updLaunch k x).l2 = s.l2 := rfl
@[simp] theorem State.updLaunch_deep (s : State) (k : Nat) (x : Launch → Launch) : (s.updLaunch k x).deep = s.deep := rfl
@[simp] theorem State.updLaunch_tlb (s : State) (k : Nat) (x : Launch → Launch) : (s.updLaunch k x).tlb = s.tlb := rfl
@[simp] theorem State.updLaunch_copies (s : State) (k : Nat) (x : Launch → Launch) : (s.updLaunch k x).copies = s.copies := rfl
@[simp] theorem State.updLaunch_gadds (s : State) (k : Nat) (x : Launch → Launch) : (s.updLaunch k x).gadds = s.gadds := rfl
@[simp] theorem State.updLaunch_mops (s : State) (k : Nat) (x : Launch → Launch) : (s.updLaunch k x).mops = s.mops := rfl
@[simp] theorem State.updLaunch_colls (s : State) (k : Nat) (x : Launch → Launch) : (s.updLaunch k x).colls = s.colls := rfl
@[simp] theorem State.updLaunch_rays (s : State) (k : Nat) (x : Launch → Launch) : (s.updLaunch k x).rays = s.rays := rfl
@[simp] theorem State.updLaunch_subs (s : State) (k : Nat) (x : Launch → Launch) : (s.updLaunch k x).subs = s.subs := rfl
@[simp] theorem State.updLaunch_rqs (s : State) (k : Nat) (x : Launch → Launch) : (s.updLaunch k x).rqs = s.rqs := rfl
@[simp] theorem State.updLaunch_tokens (s : State) (k : Nat) (x : Launch → Launch) : (s.updLaunch k x).tokens = s.tokens := rfl
@[simp] theorem State.updLaunch_keys (s : State) (k : Nat) (x : Launch → Launch) : (s.updLaunch k x).keys = s.keys := rfl
@[simp] theorem State.updLaunch_hdir (s : State) (k : Nat) (x : Launch → Launch) : (s.updLaunch k x).hdir = s.hdir := rfl
@[simp] theorem State.updLaunch_dies (s : State) (k : Nat) (x : Launch → Launch) : (s.updLaunch k x).dies = s.dies := rfl
@[simp] theorem State.updLaunch_groups (s : State) (k : Nat) (x : Launch → Launch) : (s.updLaunch k x).groups = s.groups := rfl
@[simp] theorem State.updLaunch_mod (s : State) (k : Nat) (x : Launch → Launch) : (s.updLaunch k x).mod = s.mod := rfl
@[simp] theorem State.updLaunch_clock (s : State) (k : Nat) (x : Launch → Launch) : (s.updLaunch k x).clock = s.clock := rfl
@[simp] theorem State.updLaunch_sched (s : State) (k : Nat) (x : Launch → Launch) : (s.updLaunch k x).sched = s.sched := rfl
@[simp] theorem State.updLaunch_fresh (s : State) (k : Nat) (x : Launch → Launch) : (s.updLaunch k x).fresh = s.fresh := rfl
@[simp] theorem State.updLaunch_focus (s : State) (k : Nat) (x : Launch → Launch) : (s.updLaunch k x).focus = s.focus := rfl
@[simp] theorem State.updLaunch_hits (s : State) (k : Nat) (x : Launch → Launch) : (s.updLaunch k x).hits = s.hits := rfl
@[simp] theorem State.updLaunch_uray (s : State) (k : Nat) (x : Launch → Launch) : (s.updLaunch k x).uray = s.uray := rfl
@[simp] theorem State.updLaunch_nextId (s : State) (k : Nat) (x : Launch → Launch) : (s.updLaunch k x).nextId = s.nextId := rfl
@[simp] theorem State.setLaunch_thread (s : State) (k j : Nat) (x : Launch) : (s.setLaunch k x).thread j = s.thread j := rfl
@[simp] theorem State.updLaunch_thread (s : State) (k j : Nat) (g : Launch → Launch) : (s.updLaunch k g).thread j = s.thread j := rfl
@[simp] theorem State.setLaunch_warp (s : State) (k j : Nat) (x : Launch) : (s.setLaunch k x).warp j = s.warp j := rfl
@[simp] theorem State.updLaunch_warp (s : State) (k j : Nat) (g : Launch → Launch) : (s.updLaunch k g).warp j = s.warp j := rfl
@[simp] theorem State.setLaunch_team (s : State) (k j : Nat) (x : Launch) : (s.setLaunch k x).team j = s.team j := rfl
@[simp] theorem State.updLaunch_team (s : State) (k j : Nat) (g : Launch → Launch) : (s.updLaunch k g).team j = s.team j := rfl
@[simp] theorem State.setLaunch_core (s : State) (k j : Nat) (x : Launch) : (s.setLaunch k x).core j = s.core j := rfl
@[simp] theorem State.updLaunch_core (s : State) (k j : Nat) (g : Launch → Launch) : (s.updLaunch k g).core j = s.core j := rfl
@[simp] theorem State.setLaunch_func (s : State) (k j : Nat) (x : Launch) : (s.setLaunch k x).func j = s.func j := rfl
@[simp] theorem State.updLaunch_func (s : State) (k j : Nat) (g : Launch → Launch) : (s.updLaunch k g).func j = s.func j := rfl
@[simp] theorem State.setLaunch_queue (s : State) (k j : Nat) (x : Launch) : (s.setLaunch k x).queue j = s.queue j := rfl
@[simp] theorem State.updLaunch_queue (s : State) (k j : Nat) (g : Launch → Launch) : (s.updLaunch k g).queue j = s.queue j := rfl
@[simp] theorem State.setLaunch_launch (s : State) (k : Nat) (x : Launch) : (s.setLaunch k x).launch k = x := by simp [State.launch]
theorem State.setLaunch_launch_ne (s : State) {j k : Nat} (x : Launch) (h : j ≠ k) : (s.setLaunch k x).launch j = s.launch j := by simp [State.launch, Assoc.find_put_ne _ _ h]
@[simp] theorem State.updLaunch_launch (s : State) (k : Nat) (g : Launch → Launch) : (s.updLaunch k g).launch k = g (s.launch k) := by simp [State.updLaunch_eq]
theorem State.updLaunch_launch_ne (s : State) {j k : Nat} (g : Launch → Launch) (h : j ≠ k) : (s.updLaunch k g).launch j = s.launch j := by simp [State.updLaunch_eq, State.setLaunch_launch_ne _ _ h]
@[simp] theorem State.setLaunch_die (s : State) (k j : Nat) (x : Launch) : (s.setLaunch k x).die j = s.die j := rfl
@[simp] theorem State.updLaunch_die (s : State) (k j : Nat) (g : Launch → Launch) : (s.updLaunch k g).die j = s.die j := rfl
@[simp] theorem State.setLaunch_key (s : State) (k j : Nat) (x : Launch) : (s.setLaunch k x).key j = s.key j := rfl
@[simp] theorem State.updLaunch_key (s : State) (k j : Nat) (g : Launch → Launch) : (s.updLaunch k g).key j = s.key j := rfl
@[simp] theorem State.setLaunch_ctx (s : State) (k j : Nat) (x : Launch) : (s.setLaunch k x).ctx j = s.ctx j := rfl
@[simp] theorem State.updLaunch_ctx (s : State) (k j : Nat) (g : Launch → Launch) : (s.updLaunch k g).ctx j = s.ctx j := rfl

/-! ## Die -/

@[simp] theorem State.setDie_mem (s : State) (k : Nat) (x : Die) : (s.setDie k x).mem = s.mem := rfl
@[simp] theorem State.setDie_lines (s : State) (k : Nat) (x : Die) : (s.setDie k x).lines = s.lines := rfl
@[simp] theorem State.setDie_cores (s : State) (k : Nat) (x : Die) : (s.setDie k x).cores = s.cores := rfl
@[simp] theorem State.setDie_teams (s : State) (k : Nat) (x : Die) : (s.setDie k x).teams = s.teams := rfl
@[simp] theorem State.setDie_warps (s : State) (k : Nat) (x : Die) : (s.setDie k x).warps = s.warps := rfl
@[simp] theorem State.setDie_threads (s : State) (k : Nat) (x : Die) : (s.setDie k x).threads = s.threads := rfl
@[simp] theorem State.setDie_funcs (s : State) (k : Nat) (x : Die) : (s.setDie k x).funcs = s.funcs := rfl
@[simp] theorem State.setDie_ctxs (s : State) (k : Nat) (x : Die) : (s.setDie k x).ctxs = s.ctxs := rfl
@[simp] theorem State.setDie_queues (s : State) (k : Nat) (x : Die) : (s.setDie k x).queues = s.queues := rfl
@[simp] theorem State.setDie_launches (s : State) (k : Nat) (x : Die) : (s.setDie k x).launches = s.launches := rfl
@[simp] theorem State.setDie_berths (s : State) (k : Nat) (x : Die) : (s.setDie k x).berths = s.berths := rfl
@[simp] theorem State.setDie_l2 (s : State) (k : Nat) (x : Die) : (s.setDie k x).l2 = s.l2 := rfl
@[simp] theorem State.setDie_deep (s : State) (k : Nat) (x : Die) : (s.setDie k x).deep = s.deep := rfl
@[simp] theorem State.setDie_tlb (s : State) (k : Nat) (x : Die) : (s.setDie k x).tlb = s.tlb := rfl
@[simp] theorem State.setDie_copies (s : State) (k : Nat) (x : Die) : (s.setDie k x).copies = s.copies := rfl
@[simp] theorem State.setDie_gadds (s : State) (k : Nat) (x : Die) : (s.setDie k x).gadds = s.gadds := rfl
@[simp] theorem State.setDie_mops (s : State) (k : Nat) (x : Die) : (s.setDie k x).mops = s.mops := rfl
@[simp] theorem State.setDie_colls (s : State) (k : Nat) (x : Die) : (s.setDie k x).colls = s.colls := rfl
@[simp] theorem State.setDie_rays (s : State) (k : Nat) (x : Die) : (s.setDie k x).rays = s.rays := rfl
@[simp] theorem State.setDie_subs (s : State) (k : Nat) (x : Die) : (s.setDie k x).subs = s.subs := rfl
@[simp] theorem State.setDie_rqs (s : State) (k : Nat) (x : Die) : (s.setDie k x).rqs = s.rqs := rfl
@[simp] theorem State.setDie_tokens (s : State) (k : Nat) (x : Die) : (s.setDie k x).tokens = s.tokens := rfl
@[simp] theorem State.setDie_keys (s : State) (k : Nat) (x : Die) : (s.setDie k x).keys = s.keys := rfl
@[simp] theorem State.setDie_hdir (s : State) (k : Nat) (x : Die) : (s.setDie k x).hdir = s.hdir := rfl
@[simp] theorem State.setDie_dies (s : State) (k : Nat) (x : Die) : (s.setDie k x).dies = Assoc.put s.dies k x := rfl
@[simp] theorem State.setDie_groups (s : State) (k : Nat) (x : Die) : (s.setDie k x).groups = s.groups := rfl
@[simp] theorem State.setDie_mod (s : State) (k : Nat) (x : Die) : (s.setDie k x).mod = s.mod := rfl
@[simp] theorem State.setDie_clock (s : State) (k : Nat) (x : Die) : (s.setDie k x).clock = s.clock := rfl
@[simp] theorem State.setDie_sched (s : State) (k : Nat) (x : Die) : (s.setDie k x).sched = s.sched := rfl
@[simp] theorem State.setDie_fresh (s : State) (k : Nat) (x : Die) : (s.setDie k x).fresh = s.fresh := rfl
@[simp] theorem State.setDie_focus (s : State) (k : Nat) (x : Die) : (s.setDie k x).focus = s.focus := rfl
@[simp] theorem State.setDie_hits (s : State) (k : Nat) (x : Die) : (s.setDie k x).hits = s.hits := rfl
@[simp] theorem State.setDie_uray (s : State) (k : Nat) (x : Die) : (s.setDie k x).uray = s.uray := rfl
@[simp] theorem State.setDie_nextId (s : State) (k : Nat) (x : Die) : (s.setDie k x).nextId = s.nextId := rfl
theorem State.updDie_eq (s : State) (k : Nat) (g : Die → Die) : s.updDie k g = s.setDie k (g (s.die k)) := rfl
@[simp] theorem State.updDie_mem (s : State) (k : Nat) (x : Die → Die) : (s.updDie k x).mem = s.mem := rfl
@[simp] theorem State.updDie_lines (s : State) (k : Nat) (x : Die → Die) : (s.updDie k x).lines = s.lines := rfl
@[simp] theorem State.updDie_cores (s : State) (k : Nat) (x : Die → Die) : (s.updDie k x).cores = s.cores := rfl
@[simp] theorem State.updDie_teams (s : State) (k : Nat) (x : Die → Die) : (s.updDie k x).teams = s.teams := rfl
@[simp] theorem State.updDie_warps (s : State) (k : Nat) (x : Die → Die) : (s.updDie k x).warps = s.warps := rfl
@[simp] theorem State.updDie_threads (s : State) (k : Nat) (x : Die → Die) : (s.updDie k x).threads = s.threads := rfl
@[simp] theorem State.updDie_funcs (s : State) (k : Nat) (x : Die → Die) : (s.updDie k x).funcs = s.funcs := rfl
@[simp] theorem State.updDie_ctxs (s : State) (k : Nat) (x : Die → Die) : (s.updDie k x).ctxs = s.ctxs := rfl
@[simp] theorem State.updDie_queues (s : State) (k : Nat) (x : Die → Die) : (s.updDie k x).queues = s.queues := rfl
@[simp] theorem State.updDie_launches (s : State) (k : Nat) (x : Die → Die) : (s.updDie k x).launches = s.launches := rfl
@[simp] theorem State.updDie_berths (s : State) (k : Nat) (x : Die → Die) : (s.updDie k x).berths = s.berths := rfl
@[simp] theorem State.updDie_l2 (s : State) (k : Nat) (x : Die → Die) : (s.updDie k x).l2 = s.l2 := rfl
@[simp] theorem State.updDie_deep (s : State) (k : Nat) (x : Die → Die) : (s.updDie k x).deep = s.deep := rfl
@[simp] theorem State.updDie_tlb (s : State) (k : Nat) (x : Die → Die) : (s.updDie k x).tlb = s.tlb := rfl
@[simp] theorem State.updDie_copies (s : State) (k : Nat) (x : Die → Die) : (s.updDie k x).copies = s.copies := rfl
@[simp] theorem State.updDie_gadds (s : State) (k : Nat) (x : Die → Die) : (s.updDie k x).gadds = s.gadds := rfl
@[simp] theorem State.updDie_mops (s : State) (k : Nat) (x : Die → Die) : (s.updDie k x).mops = s.mops := rfl
@[simp] theorem State.updDie_colls (s : State) (k : Nat) (x : Die → Die) : (s.updDie k x).colls = s.colls := rfl
@[simp] theorem State.updDie_rays (s : State) (k : Nat) (x : Die → Die) : (s.updDie k x).rays = s.rays := rfl
@[simp] theorem State.updDie_subs (s : State) (k : Nat) (x : Die → Die) : (s.updDie k x).subs = s.subs := rfl
@[simp] theorem State.updDie_rqs (s : State) (k : Nat) (x : Die → Die) : (s.updDie k x).rqs = s.rqs := rfl
@[simp] theorem State.updDie_tokens (s : State) (k : Nat) (x : Die → Die) : (s.updDie k x).tokens = s.tokens := rfl
@[simp] theorem State.updDie_keys (s : State) (k : Nat) (x : Die → Die) : (s.updDie k x).keys = s.keys := rfl
@[simp] theorem State.updDie_hdir (s : State) (k : Nat) (x : Die → Die) : (s.updDie k x).hdir = s.hdir := rfl
@[simp] theorem State.updDie_groups (s : State) (k : Nat) (x : Die → Die) : (s.updDie k x).groups = s.groups := rfl
@[simp] theorem State.updDie_mod (s : State) (k : Nat) (x : Die → Die) : (s.updDie k x).mod = s.mod := rfl
@[simp] theorem State.updDie_clock (s : State) (k : Nat) (x : Die → Die) : (s.updDie k x).clock = s.clock := rfl
@[simp] theorem State.updDie_sched (s : State) (k : Nat) (x : Die → Die) : (s.updDie k x).sched = s.sched := rfl
@[simp] theorem State.updDie_fresh (s : State) (k : Nat) (x : Die → Die) : (s.updDie k x).fresh = s.fresh := rfl
@[simp] theorem State.updDie_focus (s : State) (k : Nat) (x : Die → Die) : (s.updDie k x).focus = s.focus := rfl
@[simp] theorem State.updDie_hits (s : State) (k : Nat) (x : Die → Die) : (s.updDie k x).hits = s.hits := rfl
@[simp] theorem State.updDie_uray (s : State) (k : Nat) (x : Die → Die) : (s.updDie k x).uray = s.uray := rfl
@[simp] theorem State.updDie_nextId (s : State) (k : Nat) (x : Die → Die) : (s.updDie k x).nextId = s.nextId := rfl
@[simp] theorem State.setDie_thread (s : State) (k j : Nat) (x : Die) : (s.setDie k x).thread j = s.thread j := rfl
@[simp] theorem State.updDie_thread (s : State) (k j : Nat) (g : Die → Die) : (s.updDie k g).thread j = s.thread j := rfl
@[simp] theorem State.setDie_warp (s : State) (k j : Nat) (x : Die) : (s.setDie k x).warp j = s.warp j := rfl
@[simp] theorem State.updDie_warp (s : State) (k j : Nat) (g : Die → Die) : (s.updDie k g).warp j = s.warp j := rfl
@[simp] theorem State.setDie_team (s : State) (k j : Nat) (x : Die) : (s.setDie k x).team j = s.team j := rfl
@[simp] theorem State.updDie_team (s : State) (k j : Nat) (g : Die → Die) : (s.updDie k g).team j = s.team j := rfl
@[simp] theorem State.setDie_core (s : State) (k j : Nat) (x : Die) : (s.setDie k x).core j = s.core j := rfl
@[simp] theorem State.updDie_core (s : State) (k j : Nat) (g : Die → Die) : (s.updDie k g).core j = s.core j := rfl
@[simp] theorem State.setDie_func (s : State) (k j : Nat) (x : Die) : (s.setDie k x).func j = s.func j := rfl
@[simp] theorem State.updDie_func (s : State) (k j : Nat) (g : Die → Die) : (s.updDie k g).func j = s.func j := rfl
@[simp] theorem State.setDie_queue (s : State) (k j : Nat) (x : Die) : (s.setDie k x).queue j = s.queue j := rfl
@[simp] theorem State.updDie_queue (s : State) (k j : Nat) (g : Die → Die) : (s.updDie k g).queue j = s.queue j := rfl
@[simp] theorem State.setDie_launch (s : State) (k j : Nat) (x : Die) : (s.setDie k x).launch j = s.launch j := rfl
@[simp] theorem State.updDie_launch (s : State) (k j : Nat) (g : Die → Die) : (s.updDie k g).launch j = s.launch j := rfl
@[simp] theorem State.setDie_die (s : State) (k : Nat) (x : Die) : (s.setDie k x).die k = x := by simp [State.die]
theorem State.setDie_die_ne (s : State) {j k : Nat} (x : Die) (h : j ≠ k) : (s.setDie k x).die j = s.die j := by simp [State.die, Assoc.find_put_ne _ _ h]
@[simp] theorem State.updDie_die (s : State) (k : Nat) (g : Die → Die) : (s.updDie k g).die k = g (s.die k) := by simp [State.updDie_eq]
theorem State.updDie_die_ne (s : State) {j k : Nat} (g : Die → Die) (h : j ≠ k) : (s.updDie k g).die j = s.die j := by simp [State.updDie_eq, State.setDie_die_ne _ _ h]
@[simp] theorem State.setDie_key (s : State) (k j : Nat) (x : Die) : (s.setDie k x).key j = s.key j := rfl
@[simp] theorem State.updDie_key (s : State) (k j : Nat) (g : Die → Die) : (s.updDie k g).key j = s.key j := rfl
@[simp] theorem State.setDie_ctx (s : State) (k j : Nat) (x : Die) : (s.setDie k x).ctx j = s.ctx j := rfl
@[simp] theorem State.updDie_ctx (s : State) (k j : Nat) (g : Die → Die) : (s.updDie k g).ctx j = s.ctx j := rfl

/-! ## Key -/

@[simp] theorem State.setKey_mem (s : State) (k : Nat) (x : Key) : (s.setKey k x).mem = s.mem := rfl
@[simp] theorem State.setKey_lines (s : State) (k : Nat) (x : Key) : (s.setKey k x).lines = s.lines := rfl
@[simp] theorem State.setKey_cores (s : State) (k : Nat) (x : Key) : (s.setKey k x).cores = s.cores := rfl
@[simp] theorem State.setKey_teams (s : State) (k : Nat) (x : Key) : (s.setKey k x).teams = s.teams := rfl
@[simp] theorem State.setKey_warps (s : State) (k : Nat) (x : Key) : (s.setKey k x).warps = s.warps := rfl
@[simp] theorem State.setKey_threads (s : State) (k : Nat) (x : Key) : (s.setKey k x).threads = s.threads := rfl
@[simp] theorem State.setKey_funcs (s : State) (k : Nat) (x : Key) : (s.setKey k x).funcs = s.funcs := rfl
@[simp] theorem State.setKey_ctxs (s : State) (k : Nat) (x : Key) : (s.setKey k x).ctxs = s.ctxs := rfl
@[simp] theorem State.setKey_queues (s : State) (k : Nat) (x : Key) : (s.setKey k x).queues = s.queues := rfl
@[simp] theorem State.setKey_launches (s : State) (k : Nat) (x : Key) : (s.setKey k x).launches = s.launches := rfl
@[simp] theorem State.setKey_berths (s : State) (k : Nat) (x : Key) : (s.setKey k x).berths = s.berths := rfl
@[simp] theorem State.setKey_l2 (s : State) (k : Nat) (x : Key) : (s.setKey k x).l2 = s.l2 := rfl
@[simp] theorem State.setKey_deep (s : State) (k : Nat) (x : Key) : (s.setKey k x).deep = s.deep := rfl
@[simp] theorem State.setKey_tlb (s : State) (k : Nat) (x : Key) : (s.setKey k x).tlb = s.tlb := rfl
@[simp] theorem State.setKey_copies (s : State) (k : Nat) (x : Key) : (s.setKey k x).copies = s.copies := rfl
@[simp] theorem State.setKey_gadds (s : State) (k : Nat) (x : Key) : (s.setKey k x).gadds = s.gadds := rfl
@[simp] theorem State.setKey_mops (s : State) (k : Nat) (x : Key) : (s.setKey k x).mops = s.mops := rfl
@[simp] theorem State.setKey_colls (s : State) (k : Nat) (x : Key) : (s.setKey k x).colls = s.colls := rfl
@[simp] theorem State.setKey_rays (s : State) (k : Nat) (x : Key) : (s.setKey k x).rays = s.rays := rfl
@[simp] theorem State.setKey_subs (s : State) (k : Nat) (x : Key) : (s.setKey k x).subs = s.subs := rfl
@[simp] theorem State.setKey_rqs (s : State) (k : Nat) (x : Key) : (s.setKey k x).rqs = s.rqs := rfl
@[simp] theorem State.setKey_tokens (s : State) (k : Nat) (x : Key) : (s.setKey k x).tokens = s.tokens := rfl
@[simp] theorem State.setKey_keys (s : State) (k : Nat) (x : Key) : (s.setKey k x).keys = Assoc.put s.keys k x := rfl
@[simp] theorem State.setKey_hdir (s : State) (k : Nat) (x : Key) : (s.setKey k x).hdir = s.hdir := rfl
@[simp] theorem State.setKey_dies (s : State) (k : Nat) (x : Key) : (s.setKey k x).dies = s.dies := rfl
@[simp] theorem State.setKey_groups (s : State) (k : Nat) (x : Key) : (s.setKey k x).groups = s.groups := rfl
@[simp] theorem State.setKey_mod (s : State) (k : Nat) (x : Key) : (s.setKey k x).mod = s.mod := rfl
@[simp] theorem State.setKey_clock (s : State) (k : Nat) (x : Key) : (s.setKey k x).clock = s.clock := rfl
@[simp] theorem State.setKey_sched (s : State) (k : Nat) (x : Key) : (s.setKey k x).sched = s.sched := rfl
@[simp] theorem State.setKey_fresh (s : State) (k : Nat) (x : Key) : (s.setKey k x).fresh = s.fresh := rfl
@[simp] theorem State.setKey_focus (s : State) (k : Nat) (x : Key) : (s.setKey k x).focus = s.focus := rfl
@[simp] theorem State.setKey_hits (s : State) (k : Nat) (x : Key) : (s.setKey k x).hits = s.hits := rfl
@[simp] theorem State.setKey_uray (s : State) (k : Nat) (x : Key) : (s.setKey k x).uray = s.uray := rfl
@[simp] theorem State.setKey_nextId (s : State) (k : Nat) (x : Key) : (s.setKey k x).nextId = s.nextId := rfl
theorem State.updKey_eq (s : State) (k : Nat) (g : Key → Key) : s.updKey k g = s.setKey k (g (s.key k)) := rfl
@[simp] theorem State.updKey_mem (s : State) (k : Nat) (x : Key → Key) : (s.updKey k x).mem = s.mem := rfl
@[simp] theorem State.updKey_lines (s : State) (k : Nat) (x : Key → Key) : (s.updKey k x).lines = s.lines := rfl
@[simp] theorem State.updKey_cores (s : State) (k : Nat) (x : Key → Key) : (s.updKey k x).cores = s.cores := rfl
@[simp] theorem State.updKey_teams (s : State) (k : Nat) (x : Key → Key) : (s.updKey k x).teams = s.teams := rfl
@[simp] theorem State.updKey_warps (s : State) (k : Nat) (x : Key → Key) : (s.updKey k x).warps = s.warps := rfl
@[simp] theorem State.updKey_threads (s : State) (k : Nat) (x : Key → Key) : (s.updKey k x).threads = s.threads := rfl
@[simp] theorem State.updKey_funcs (s : State) (k : Nat) (x : Key → Key) : (s.updKey k x).funcs = s.funcs := rfl
@[simp] theorem State.updKey_ctxs (s : State) (k : Nat) (x : Key → Key) : (s.updKey k x).ctxs = s.ctxs := rfl
@[simp] theorem State.updKey_queues (s : State) (k : Nat) (x : Key → Key) : (s.updKey k x).queues = s.queues := rfl
@[simp] theorem State.updKey_launches (s : State) (k : Nat) (x : Key → Key) : (s.updKey k x).launches = s.launches := rfl
@[simp] theorem State.updKey_berths (s : State) (k : Nat) (x : Key → Key) : (s.updKey k x).berths = s.berths := rfl
@[simp] theorem State.updKey_l2 (s : State) (k : Nat) (x : Key → Key) : (s.updKey k x).l2 = s.l2 := rfl
@[simp] theorem State.updKey_deep (s : State) (k : Nat) (x : Key → Key) : (s.updKey k x).deep = s.deep := rfl
@[simp] theorem State.updKey_tlb (s : State) (k : Nat) (x : Key → Key) : (s.updKey k x).tlb = s.tlb := rfl
@[simp] theorem State.updKey_copies (s : State) (k : Nat) (x : Key → Key) : (s.updKey k x).copies = s.copies := rfl
@[simp] theorem State.updKey_gadds (s : State) (k : Nat) (x : Key → Key) : (s.updKey k x).gadds = s.gadds := rfl
@[simp] theorem State.updKey_mops (s : State) (k : Nat) (x : Key → Key) : (s.updKey k x).mops = s.mops := rfl
@[simp] theorem State.updKey_colls (s : State) (k : Nat) (x : Key → Key) : (s.updKey k x).colls = s.colls := rfl
@[simp] theorem State.updKey_rays (s : State) (k : Nat) (x : Key → Key) : (s.updKey k x).rays = s.rays := rfl
@[simp] theorem State.updKey_subs (s : State) (k : Nat) (x : Key → Key) : (s.updKey k x).subs = s.subs := rfl
@[simp] theorem State.updKey_rqs (s : State) (k : Nat) (x : Key → Key) : (s.updKey k x).rqs = s.rqs := rfl
@[simp] theorem State.updKey_tokens (s : State) (k : Nat) (x : Key → Key) : (s.updKey k x).tokens = s.tokens := rfl
@[simp] theorem State.updKey_hdir (s : State) (k : Nat) (x : Key → Key) : (s.updKey k x).hdir = s.hdir := rfl
@[simp] theorem State.updKey_dies (s : State) (k : Nat) (x : Key → Key) : (s.updKey k x).dies = s.dies := rfl
@[simp] theorem State.updKey_groups (s : State) (k : Nat) (x : Key → Key) : (s.updKey k x).groups = s.groups := rfl
@[simp] theorem State.updKey_mod (s : State) (k : Nat) (x : Key → Key) : (s.updKey k x).mod = s.mod := rfl
@[simp] theorem State.updKey_clock (s : State) (k : Nat) (x : Key → Key) : (s.updKey k x).clock = s.clock := rfl
@[simp] theorem State.updKey_sched (s : State) (k : Nat) (x : Key → Key) : (s.updKey k x).sched = s.sched := rfl
@[simp] theorem State.updKey_fresh (s : State) (k : Nat) (x : Key → Key) : (s.updKey k x).fresh = s.fresh := rfl
@[simp] theorem State.updKey_focus (s : State) (k : Nat) (x : Key → Key) : (s.updKey k x).focus = s.focus := rfl
@[simp] theorem State.updKey_hits (s : State) (k : Nat) (x : Key → Key) : (s.updKey k x).hits = s.hits := rfl
@[simp] theorem State.updKey_uray (s : State) (k : Nat) (x : Key → Key) : (s.updKey k x).uray = s.uray := rfl
@[simp] theorem State.updKey_nextId (s : State) (k : Nat) (x : Key → Key) : (s.updKey k x).nextId = s.nextId := rfl
@[simp] theorem State.setKey_thread (s : State) (k j : Nat) (x : Key) : (s.setKey k x).thread j = s.thread j := rfl
@[simp] theorem State.updKey_thread (s : State) (k j : Nat) (g : Key → Key) : (s.updKey k g).thread j = s.thread j := rfl
@[simp] theorem State.setKey_warp (s : State) (k j : Nat) (x : Key) : (s.setKey k x).warp j = s.warp j := rfl
@[simp] theorem State.updKey_warp (s : State) (k j : Nat) (g : Key → Key) : (s.updKey k g).warp j = s.warp j := rfl
@[simp] theorem State.setKey_team (s : State) (k j : Nat) (x : Key) : (s.setKey k x).team j = s.team j := rfl
@[simp] theorem State.updKey_team (s : State) (k j : Nat) (g : Key → Key) : (s.updKey k g).team j = s.team j := rfl
@[simp] theorem State.setKey_core (s : State) (k j : Nat) (x : Key) : (s.setKey k x).core j = s.core j := rfl
@[simp] theorem State.updKey_core (s : State) (k j : Nat) (g : Key → Key) : (s.updKey k g).core j = s.core j := rfl
@[simp] theorem State.setKey_func (s : State) (k j : Nat) (x : Key) : (s.setKey k x).func j = s.func j := rfl
@[simp] theorem State.updKey_func (s : State) (k j : Nat) (g : Key → Key) : (s.updKey k g).func j = s.func j := rfl
@[simp] theorem State.setKey_queue (s : State) (k j : Nat) (x : Key) : (s.setKey k x).queue j = s.queue j := rfl
@[simp] theorem State.updKey_queue (s : State) (k j : Nat) (g : Key → Key) : (s.updKey k g).queue j = s.queue j := rfl
@[simp] theorem State.setKey_launch (s : State) (k j : Nat) (x : Key) : (s.setKey k x).launch j = s.launch j := rfl
@[simp] theorem State.updKey_launch (s : State) (k j : Nat) (g : Key → Key) : (s.updKey k g).launch j = s.launch j := rfl
@[simp] theorem State.setKey_die (s : State) (k j : Nat) (x : Key) : (s.setKey k x).die j = s.die j := rfl
@[simp] theorem State.updKey_die (s : State) (k j : Nat) (g : Key → Key) : (s.updKey k g).die j = s.die j := rfl
@[simp] theorem State.setKey_key (s : State) (k : Nat) (x : Key) : (s.setKey k x).key k = x := by simp [State.key]
theorem State.setKey_key_ne (s : State) {j k : Nat} (x : Key) (h : j ≠ k) : (s.setKey k x).key j = s.key j := by simp [State.key, Assoc.find_put_ne _ _ h]
@[simp] theorem State.updKey_key (s : State) (k : Nat) (g : Key → Key) : (s.updKey k g).key k = g (s.key k) := by simp [State.updKey_eq]
theorem State.updKey_key_ne (s : State) {j k : Nat} (g : Key → Key) (h : j ≠ k) : (s.updKey k g).key j = s.key j := by simp [State.updKey_eq, State.setKey_key_ne _ _ h]
@[simp] theorem State.setKey_ctx (s : State) (k j : Nat) (x : Key) : (s.setKey k x).ctx j = s.ctx j := rfl
@[simp] theorem State.updKey_ctx (s : State) (k j : Nat) (g : Key → Key) : (s.updKey k g).ctx j = s.ctx j := rfl

/-! ## Ctx -/

@[simp] theorem State.setCtx_mem (s : State) (k : Nat) (x : Ctx) : (s.setCtx k x).mem = s.mem := rfl
@[simp] theorem State.setCtx_lines (s : State) (k : Nat) (x : Ctx) : (s.setCtx k x).lines = s.lines := rfl
@[simp] theorem State.setCtx_cores (s : State) (k : Nat) (x : Ctx) : (s.setCtx k x).cores = s.cores := rfl
@[simp] theorem State.setCtx_teams (s : State) (k : Nat) (x : Ctx) : (s.setCtx k x).teams = s.teams := rfl
@[simp] theorem State.setCtx_warps (s : State) (k : Nat) (x : Ctx) : (s.setCtx k x).warps = s.warps := rfl
@[simp] theorem State.setCtx_threads (s : State) (k : Nat) (x : Ctx) : (s.setCtx k x).threads = s.threads := rfl
@[simp] theorem State.setCtx_funcs (s : State) (k : Nat) (x : Ctx) : (s.setCtx k x).funcs = s.funcs := rfl
@[simp] theorem State.setCtx_ctxs (s : State) (k : Nat) (x : Ctx) : (s.setCtx k x).ctxs = Assoc.put s.ctxs k x := rfl
@[simp] theorem State.setCtx_queues (s : State) (k : Nat) (x : Ctx) : (s.setCtx k x).queues = s.queues := rfl
@[simp] theorem State.setCtx_launches (s : State) (k : Nat) (x : Ctx) : (s.setCtx k x).launches = s.launches := rfl
@[simp] theorem State.setCtx_berths (s : State) (k : Nat) (x : Ctx) : (s.setCtx k x).berths = s.berths := rfl
@[simp] theorem State.setCtx_l2 (s : State) (k : Nat) (x : Ctx) : (s.setCtx k x).l2 = s.l2 := rfl
@[simp] theorem State.setCtx_deep (s : State) (k : Nat) (x : Ctx) : (s.setCtx k x).deep = s.deep := rfl
@[simp] theorem State.setCtx_tlb (s : State) (k : Nat) (x : Ctx) : (s.setCtx k x).tlb = s.tlb := rfl
@[simp] theorem State.setCtx_copies (s : State) (k : Nat) (x : Ctx) : (s.setCtx k x).copies = s.copies := rfl
@[simp] theorem State.setCtx_gadds (s : State) (k : Nat) (x : Ctx) : (s.setCtx k x).gadds = s.gadds := rfl
@[simp] theorem State.setCtx_mops (s : State) (k : Nat) (x : Ctx) : (s.setCtx k x).mops = s.mops := rfl
@[simp] theorem State.setCtx_colls (s : State) (k : Nat) (x : Ctx) : (s.setCtx k x).colls = s.colls := rfl
@[simp] theorem State.setCtx_rays (s : State) (k : Nat) (x : Ctx) : (s.setCtx k x).rays = s.rays := rfl
@[simp] theorem State.setCtx_subs (s : State) (k : Nat) (x : Ctx) : (s.setCtx k x).subs = s.subs := rfl
@[simp] theorem State.setCtx_rqs (s : State) (k : Nat) (x : Ctx) : (s.setCtx k x).rqs = s.rqs := rfl
@[simp] theorem State.setCtx_tokens (s : State) (k : Nat) (x : Ctx) : (s.setCtx k x).tokens = s.tokens := rfl
@[simp] theorem State.setCtx_keys (s : State) (k : Nat) (x : Ctx) : (s.setCtx k x).keys = s.keys := rfl
@[simp] theorem State.setCtx_hdir (s : State) (k : Nat) (x : Ctx) : (s.setCtx k x).hdir = s.hdir := rfl
@[simp] theorem State.setCtx_dies (s : State) (k : Nat) (x : Ctx) : (s.setCtx k x).dies = s.dies := rfl
@[simp] theorem State.setCtx_groups (s : State) (k : Nat) (x : Ctx) : (s.setCtx k x).groups = s.groups := rfl
@[simp] theorem State.setCtx_mod (s : State) (k : Nat) (x : Ctx) : (s.setCtx k x).mod = s.mod := rfl
@[simp] theorem State.setCtx_clock (s : State) (k : Nat) (x : Ctx) : (s.setCtx k x).clock = s.clock := rfl
@[simp] theorem State.setCtx_sched (s : State) (k : Nat) (x : Ctx) : (s.setCtx k x).sched = s.sched := rfl
@[simp] theorem State.setCtx_fresh (s : State) (k : Nat) (x : Ctx) : (s.setCtx k x).fresh = s.fresh := rfl
@[simp] theorem State.setCtx_focus (s : State) (k : Nat) (x : Ctx) : (s.setCtx k x).focus = s.focus := rfl
@[simp] theorem State.setCtx_hits (s : State) (k : Nat) (x : Ctx) : (s.setCtx k x).hits = s.hits := rfl
@[simp] theorem State.setCtx_uray (s : State) (k : Nat) (x : Ctx) : (s.setCtx k x).uray = s.uray := rfl
@[simp] theorem State.setCtx_nextId (s : State) (k : Nat) (x : Ctx) : (s.setCtx k x).nextId = s.nextId := rfl
theorem State.updCtx_eq (s : State) (k : Nat) (g : Ctx → Ctx) : s.updCtx k g = s.setCtx k (g (s.ctx k)) := rfl
@[simp] theorem State.updCtx_mem (s : State) (k : Nat) (x : Ctx → Ctx) : (s.updCtx k x).mem = s.mem := rfl
@[simp] theorem State.updCtx_lines (s : State) (k : Nat) (x : Ctx → Ctx) : (s.updCtx k x).lines = s.lines := rfl
@[simp] theorem State.updCtx_cores (s : State) (k : Nat) (x : Ctx → Ctx) : (s.updCtx k x).cores = s.cores := rfl
@[simp] theorem State.updCtx_teams (s : State) (k : Nat) (x : Ctx → Ctx) : (s.updCtx k x).teams = s.teams := rfl
@[simp] theorem State.updCtx_warps (s : State) (k : Nat) (x : Ctx → Ctx) : (s.updCtx k x).warps = s.warps := rfl
@[simp] theorem State.updCtx_threads (s : State) (k : Nat) (x : Ctx → Ctx) : (s.updCtx k x).threads = s.threads := rfl
@[simp] theorem State.updCtx_funcs (s : State) (k : Nat) (x : Ctx → Ctx) : (s.updCtx k x).funcs = s.funcs := rfl
@[simp] theorem State.updCtx_queues (s : State) (k : Nat) (x : Ctx → Ctx) : (s.updCtx k x).queues = s.queues := rfl
@[simp] theorem State.updCtx_launches (s : State) (k : Nat) (x : Ctx → Ctx) : (s.updCtx k x).launches = s.launches := rfl
@[simp] theorem State.updCtx_berths (s : State) (k : Nat) (x : Ctx → Ctx) : (s.updCtx k x).berths = s.berths := rfl
@[simp] theorem State.updCtx_l2 (s : State) (k : Nat) (x : Ctx → Ctx) : (s.updCtx k x).l2 = s.l2 := rfl
@[simp] theorem State.updCtx_deep (s : State) (k : Nat) (x : Ctx → Ctx) : (s.updCtx k x).deep = s.deep := rfl
@[simp] theorem State.updCtx_tlb (s : State) (k : Nat) (x : Ctx → Ctx) : (s.updCtx k x).tlb = s.tlb := rfl
@[simp] theorem State.updCtx_copies (s : State) (k : Nat) (x : Ctx → Ctx) : (s.updCtx k x).copies = s.copies := rfl
@[simp] theorem State.updCtx_gadds (s : State) (k : Nat) (x : Ctx → Ctx) : (s.updCtx k x).gadds = s.gadds := rfl
@[simp] theorem State.updCtx_mops (s : State) (k : Nat) (x : Ctx → Ctx) : (s.updCtx k x).mops = s.mops := rfl
@[simp] theorem State.updCtx_colls (s : State) (k : Nat) (x : Ctx → Ctx) : (s.updCtx k x).colls = s.colls := rfl
@[simp] theorem State.updCtx_rays (s : State) (k : Nat) (x : Ctx → Ctx) : (s.updCtx k x).rays = s.rays := rfl
@[simp] theorem State.updCtx_subs (s : State) (k : Nat) (x : Ctx → Ctx) : (s.updCtx k x).subs = s.subs := rfl
@[simp] theorem State.updCtx_rqs (s : State) (k : Nat) (x : Ctx → Ctx) : (s.updCtx k x).rqs = s.rqs := rfl
@[simp] theorem State.updCtx_tokens (s : State) (k : Nat) (x : Ctx → Ctx) : (s.updCtx k x).tokens = s.tokens := rfl
@[simp] theorem State.updCtx_keys (s : State) (k : Nat) (x : Ctx → Ctx) : (s.updCtx k x).keys = s.keys := rfl
@[simp] theorem State.updCtx_hdir (s : State) (k : Nat) (x : Ctx → Ctx) : (s.updCtx k x).hdir = s.hdir := rfl
@[simp] theorem State.updCtx_dies (s : State) (k : Nat) (x : Ctx → Ctx) : (s.updCtx k x).dies = s.dies := rfl
@[simp] theorem State.updCtx_groups (s : State) (k : Nat) (x : Ctx → Ctx) : (s.updCtx k x).groups = s.groups := rfl
@[simp] theorem State.updCtx_mod (s : State) (k : Nat) (x : Ctx → Ctx) : (s.updCtx k x).mod = s.mod := rfl
@[simp] theorem State.updCtx_clock (s : State) (k : Nat) (x : Ctx → Ctx) : (s.updCtx k x).clock = s.clock := rfl
@[simp] theorem State.updCtx_sched (s : State) (k : Nat) (x : Ctx → Ctx) : (s.updCtx k x).sched = s.sched := rfl
@[simp] theorem State.updCtx_fresh (s : State) (k : Nat) (x : Ctx → Ctx) : (s.updCtx k x).fresh = s.fresh := rfl
@[simp] theorem State.updCtx_focus (s : State) (k : Nat) (x : Ctx → Ctx) : (s.updCtx k x).focus = s.focus := rfl
@[simp] theorem State.updCtx_hits (s : State) (k : Nat) (x : Ctx → Ctx) : (s.updCtx k x).hits = s.hits := rfl
@[simp] theorem State.updCtx_uray (s : State) (k : Nat) (x : Ctx → Ctx) : (s.updCtx k x).uray = s.uray := rfl
@[simp] theorem State.updCtx_nextId (s : State) (k : Nat) (x : Ctx → Ctx) : (s.updCtx k x).nextId = s.nextId := rfl
@[simp] theorem State.setCtx_thread (s : State) (k j : Nat) (x : Ctx) : (s.setCtx k x).thread j = s.thread j := rfl
@[simp] theorem State.updCtx_thread (s : State) (k j : Nat) (g : Ctx → Ctx) : (s.updCtx k g).thread j = s.thread j := rfl
@[simp] theorem State.setCtx_warp (s : State) (k j : Nat) (x : Ctx) : (s.setCtx k x).warp j = s.warp j := rfl
@[simp] theorem State.updCtx_warp (s : State) (k j : Nat) (g : Ctx → Ctx) : (s.updCtx k g).warp j = s.warp j := rfl
@[simp] theorem State.setCtx_team (s : State) (k j : Nat) (x : Ctx) : (s.setCtx k x).team j = s.team j := rfl
@[simp] theorem State.updCtx_team (s : State) (k j : Nat) (g : Ctx → Ctx) : (s.updCtx k g).team j = s.team j := rfl
@[simp] theorem State.setCtx_core (s : State) (k j : Nat) (x : Ctx) : (s.setCtx k x).core j = s.core j := rfl
@[simp] theorem State.updCtx_core (s : State) (k j : Nat) (g : Ctx → Ctx) : (s.updCtx k g).core j = s.core j := rfl
@[simp] theorem State.setCtx_func (s : State) (k j : Nat) (x : Ctx) : (s.setCtx k x).func j = s.func j := rfl
@[simp] theorem State.updCtx_func (s : State) (k j : Nat) (g : Ctx → Ctx) : (s.updCtx k g).func j = s.func j := rfl
@[simp] theorem State.setCtx_queue (s : State) (k j : Nat) (x : Ctx) : (s.setCtx k x).queue j = s.queue j := rfl
@[simp] theorem State.updCtx_queue (s : State) (k j : Nat) (g : Ctx → Ctx) : (s.updCtx k g).queue j = s.queue j := rfl
@[simp] theorem State.setCtx_launch (s : State) (k j : Nat) (x : Ctx) : (s.setCtx k x).launch j = s.launch j := rfl
@[simp] theorem State.updCtx_launch (s : State) (k j : Nat) (g : Ctx → Ctx) : (s.updCtx k g).launch j = s.launch j := rfl
@[simp] theorem State.setCtx_die (s : State) (k j : Nat) (x : Ctx) : (s.setCtx k x).die j = s.die j := rfl
@[simp] theorem State.updCtx_die (s : State) (k j : Nat) (g : Ctx → Ctx) : (s.updCtx k g).die j = s.die j := rfl
@[simp] theorem State.setCtx_key (s : State) (k j : Nat) (x : Ctx) : (s.setCtx k x).key j = s.key j := rfl
@[simp] theorem State.updCtx_key (s : State) (k j : Nat) (g : Ctx → Ctx) : (s.updCtx k g).key j = s.key j := rfl
@[simp] theorem State.setCtx_ctx (s : State) (k : Nat) (x : Ctx) : (s.setCtx k x).ctx k = x := by simp [State.ctx]
theorem State.setCtx_ctx_ne (s : State) {j k : Nat} (x : Ctx) (h : j ≠ k) : (s.setCtx k x).ctx j = s.ctx j := by simp [State.ctx, Assoc.find_put_ne _ _ h]
@[simp] theorem State.updCtx_ctx (s : State) (k : Nat) (g : Ctx → Ctx) : (s.updCtx k g).ctx k = g (s.ctx k) := by simp [State.updCtx_eq]
theorem State.updCtx_ctx_ne (s : State) {j k : Nat} (g : Ctx → Ctx) (h : j ≠ k) : (s.updCtx k g).ctx j = s.ctx j := by simp [State.updCtx_eq, State.setCtx_ctx_ne _ _ h]

end Sys2Proof.Machine
end

