-- ==== Sys2Proof/Laws/Store.lean ====
section
/-! SUPPORT. The canonical form of sorted tables: every operation on a table keeps it, and a read after a write gives what was written. -/

namespace Sys2Proof.Machine

/-- Every key of a table lies above a bound. -/
def Assoc.above {α : Type} (b : Option Nat) (t : Assoc α) : Prop := ∀ p ∈ t, ∀ k, b = some k → k < p.1

theorem Assoc.risingFrom_iff {α : Type} (t : Assoc α) (b : Option Nat) :
    Assoc.risingFrom b t = true ↔ Assoc.above b t ∧ t.Pairwise (fun p q => p.1 < q.1) := by
  induction t generalizing b with
  | nil => simp [Assoc.risingFrom, Assoc.above]
  | cons p t ih =>
    obtain ⟨j, a⟩ := p
    cases b with
    | none => simp [Assoc.risingFrom, ih, Assoc.above]
    | some k =>
      simp only [Assoc.risingFrom, Bool.and_eq_true, decide_eq_true_eq, ih, Assoc.above, List.pairwise_cons, List.mem_cons,
        forall_eq_or_imp, Option.some.injEq, forall_eq']
      constructor
      · rintro ⟨h, h1, h2⟩
        exact ⟨⟨h, fun p hp => Nat.lt_trans h (h1 p hp)⟩, h1, h2⟩
      · rintro ⟨⟨h, _⟩, h1, h2⟩
        exact ⟨h, h1, h2⟩

theorem Assoc.rising_iff {α : Type} (t : Assoc α) : Assoc.rising t = true ↔ t.Pairwise (fun p q => p.1 < q.1) := by
  simp [Assoc.rising, Assoc.risingFrom_iff, Assoc.above]

theorem Assoc.mem_put {α : Type} {t : Assoc α} {k : Nat} {v : α} {p : Nat × α} (h : p ∈ Assoc.put t k v) : p = (k, v) ∨ p ∈ t := by
  induction t with
  | nil => simpa [Assoc.put] using h
  | cons q t ih =>
    obtain ⟨j, a⟩ := q
    simp only [Assoc.put] at h
    split at h
    · simpa using h
    · split at h
      · simp only [List.mem_cons] at h ⊢
        rcases h with h | h <;> simp [h]
      · simp only [List.mem_cons] at h ⊢
        rcases h with h | h
        · exact Or.inr (Or.inl h)
        · rcases ih h with h | h <;> simp [h]

theorem Assoc.rising_put {α : Type} (t : Assoc α) (k : Nat) (v : α) (h : Assoc.rising t = true) : Assoc.rising (Assoc.put t k v) = true := by
  rw [Assoc.rising_iff] at h ⊢
  induction t with
  | nil => simp [Assoc.put]
  | cons q t ih =>
    obtain ⟨j, a⟩ := q
    simp only [List.pairwise_cons] at h
    simp only [Assoc.put]
    split
    · rename_i hk
      simp only [List.pairwise_cons, List.mem_cons, forall_eq_or_imp]
      exact ⟨⟨hk, fun p hp => Nat.lt_trans hk (h.1 p hp)⟩, h.1, h.2⟩
    · split
      · subst_vars
        simp only [List.pairwise_cons]
        exact ⟨h.1, h.2⟩
      · simp only [List.pairwise_cons]
        refine ⟨fun p hp => ?_, ih h.2⟩
        rcases Assoc.mem_put hp with rfl | hp
        · simp only; omega
        · exact h.1 p hp

theorem Assoc.del_sublist {α : Type} (t : Assoc α) (k : Nat) : (Assoc.del t k).Sublist t := List.filter_sublist

theorem Assoc.rising_sublist {α : Type} {t u : Assoc α} (h : Assoc.rising t = true) (hs : u.Sublist t) : Assoc.rising u = true := by
  rw [Assoc.rising_iff] at h ⊢
  exact h.sublist hs

theorem Assoc.rising_del {α : Type} (t : Assoc α) (k : Nat) (h : Assoc.rising t = true) : Assoc.rising (Assoc.del t k) = true :=
  Assoc.rising_sublist h (Assoc.del_sublist t k)

theorem Assoc.rising_filter {α : Type} (t : Assoc α) (p : Nat × α → Bool) (h : Assoc.rising t = true) : Assoc.rising (t.filter p) = true :=
  Assoc.rising_sublist h List.filter_sublist

theorem Assoc.rising_mapVals {α : Type} (t : Assoc α) (f : Nat → α → α) (h : Assoc.rising t = true) : Assoc.rising (Assoc.mapVals t f) = true := by
  rw [Assoc.rising_iff] at h ⊢
  simpa [Assoc.mapVals, List.pairwise_map] using h

/-! ## Words: no zero word is listed -/

theorem Tbl.wf_iff {w : Nat} (t : Tbl w) : Tbl.wf t = true ↔ Assoc.rising t = true ∧ ∀ p ∈ t, p.2 ≠ 0 := by
  simp [Tbl.wf]

theorem Tbl.wf_nil {w : Nat} : Tbl.wf ([] : Tbl w) = true := by simp [Tbl.wf, Assoc.rising, Assoc.risingFrom]

theorem Tbl.wf_sublist {w : Nat} {t u : Tbl w} (h : Tbl.wf t = true) (hs : u.Sublist t) : Tbl.wf u = true := by
  rw [Tbl.wf_iff] at h ⊢
  exact ⟨Assoc.rising_sublist h.1 hs, fun p hp => h.2 p (hs.subset hp)⟩

theorem Tbl.wf_filter {w : Nat} (t : Tbl w) (p : Nat × BitVec w → Bool) (h : Tbl.wf t = true) : Tbl.wf (t.filter p) = true :=
  Tbl.wf_sublist h List.filter_sublist

theorem Tbl.wf_clear {w : Nat} (t : Tbl w) (lo n : Nat) (h : Tbl.wf t = true) : Tbl.wf (Tbl.clear t lo n) = true :=
  Tbl.wf_filter t _ h

/-- Writing one word keeps the canonical form. -/
theorem Tbl.wf_set {w : Nat} (t : Tbl w) (k : Nat) (v : BitVec w) (h : Tbl.wf t = true) : Tbl.wf (Tbl.set t k v) = true := by
  unfold Tbl.set
  split
  · exact Tbl.wf_sublist h (Assoc.del_sublist t k)
  · rename_i hv
    rw [Tbl.wf_iff] at h ⊢
    refine ⟨Assoc.rising_put t k v h.1, fun p hp => ?_⟩
    rcases Assoc.mem_put hp with rfl | hp
    · exact hv
    · exact h.2 p hp

/-- Writing consecutive words keeps the canonical form. -/
theorem Tbl.wf_setN {w : Nat} (t : Tbl w) (k : Nat) (vs : List (BitVec w)) (h : Tbl.wf t = true) : Tbl.wf (Tbl.setN t k vs) = true := by
  induction vs generalizing t k with
  | nil => exact h
  | cons v vs ih => exact ih _ _ (Tbl.wf_set t k v h)

theorem Assoc.find_del_self {α : Type} (t : Assoc α) (k : Nat) : Assoc.find (Assoc.del t k) k = none := by
  induction t with
  | nil => rfl
  | cons q t ih =>
    obtain ⟨j, a⟩ := q
    by_cases h : j = k
    · simpa [Assoc.del, h] using ih
    · have hk : ¬k = j := fun e => h e.symm
      simpa [Assoc.del, h, Assoc.find, hk] using ih

theorem Assoc.find_del_ne {α : Type} (t : Assoc α) {j k : Nat} (h : j ≠ k) : Assoc.find (Assoc.del t k) j = Assoc.find t j := by
  induction t with
  | nil => rfl
  | cons q t ih =>
    obtain ⟨i, a⟩ := q
    by_cases hi : i = k
    · subst hi; simpa [Assoc.del, Assoc.find, h] using ih
    · have := ih
      simp only [Assoc.del, List.filter_cons, hi, ne_eq, not_false_eq_true, decide_true, if_true, Assoc.find] at this ⊢
      rw [this]

/-- A read after a write of one word gives the word. -/
theorem Tbl.get_set_self {w : Nat} (t : Tbl w) (k : Nat) (v : BitVec w) : Tbl.get (Tbl.set t k v) k = v := by
  unfold Tbl.get Tbl.set
  split
  · subst_vars; simp [Assoc.find_del_self]
  · simp

/-- A write of one word leaves every other word alone. -/
theorem Tbl.get_set_ne {w : Nat} (t : Tbl w) {j k : Nat} (v : BitVec w) (h : j ≠ k) : Tbl.get (Tbl.set t k v) j = Tbl.get t j := by
  unfold Tbl.get Tbl.set
  split
  · simp [Assoc.find_del_ne t h]
  · simp [Assoc.find_put_ne t v h]

/-- A write of consecutive words leaves every word outside them alone. -/
theorem Tbl.get_setN_out {w : Nat} (t : Tbl w) (k : Nat) (vs : List (BitVec w)) (j : Nat) (h : j < k ∨ k + vs.length ≤ j) :
    Tbl.get (Tbl.setN t k vs) j = Tbl.get t j := by
  induction vs generalizing t k with
  | nil => rfl
  | cons v vs ih =>
    simp only [List.length_cons] at h
    simp only [Tbl.setN]
    rw [ih _ _ (by omega), Tbl.get_set_ne t v (by omega)]

/-- A read of a word within a write of consecutive words gives that word. -/
theorem Tbl.get_setN_in {w : Nat} (t : Tbl w) (k : Nat) (vs : List (BitVec w)) (i : Nat) (hi : i < vs.length) :
    Tbl.get (Tbl.setN t k vs) (k + i) = vs[i] := by
  induction vs generalizing t k i with
  | nil => simp at hi
  | cons v vs ih =>
    simp only [Tbl.setN]
    cases i with
    | zero => rw [Tbl.get_setN_out _ _ _ _ (by omega)]; simpa using Tbl.get_set_self t k v
    | succ i =>
      have := ih (Tbl.set t k v) (k + 1) i (by simpa using hi)
      simpa [Nat.add_comm, Nat.add_left_comm] using this

end Sys2Proof.Machine
end

