-- ==== Sys2Proof/Laws/Kept.lean ====
section
/-! SUPPORT. What no end of an instruction touches: entering headers, recording causes, releases and counts change no register, no outstanding result and no byte. -/

namespace Sys2Proof.Machine

/-- What a thread carries besides its place: its registers, flags, outstanding results and handler. -/
def Thread.vals (th : Thread) : Tbl 32 × BitVec 7 × W32 × List Pending × List Nat × Option TrapState :=
  (th.v, th.p, th.fx, th.out, th.poison, th.trap)

/-- The uniform registers of a warp and what is due in them. -/
def Warp.vals (w : Warp) : Tbl 32 × List Pending := (w.w, w.out)

/-- Nothing but the places of threads, their records and waits, the lives and counts of teams, locks, cached translations and the counter of free values differs. -/
structure Kept (s t : State) : Prop where
  thread : ∀ k, (t.thread k).vals = (s.thread k).vals
  warp : ∀ k, (t.warp k).vals = (s.warp k).vals
  team : ∀ u, ∃ l h n x, t.team u = { s.team u with life := l, haltAt := h, tcount := n, walked := x }
  core : ∀ c, ∃ ls, t.core c = { s.core c with locks := ls }
  rest : t = { s with threads := t.threads, warps := t.warps, teams := t.teams, cores := t.cores, fresh := t.fresh, tlb := t.tlb }

/-- Where only some of the four lists of the machine moved, the others need no words. -/
theorem Kept.start (s : State) (n : Nat) (l : List Tlb) : Kept s { s with fresh := n, tlb := l } where
  thread _ := rfl
  warp _ := rfl
  team u := ⟨(s.team u).life, (s.team u).haltAt, (s.team u).tcount, (s.team u).walked, rfl⟩
  core c := ⟨(s.core c).locks, rfl⟩
  rest := rfl

theorem Kept.refl (s : State) : Kept s s := Kept.start s s.fresh s.tlb

theorem Kept.v {s t : State} (h : Kept s t) (k : Nat) : (t.thread k).v = (s.thread k).v := congrArg (fun x => x.1) (h.thread k)
theorem Kept.p {s t : State} (h : Kept s t) (k : Nat) : (t.thread k).p = (s.thread k).p := congrArg (fun x => x.2.1) (h.thread k)
theorem Kept.fx {s t : State} (h : Kept s t) (k : Nat) : (t.thread k).fx = (s.thread k).fx := congrArg (fun x => x.2.2.1) (h.thread k)
theorem Kept.out {s t : State} (h : Kept s t) (k : Nat) : (t.thread k).out = (s.thread k).out := congrArg (fun x => x.2.2.2.1) (h.thread k)
theorem Kept.poison {s t : State} (h : Kept s t) (k : Nat) : (t.thread k).poison = (s.thread k).poison := congrArg (fun x => x.2.2.2.2.1) (h.thread k)
theorem Kept.trap {s t : State} (h : Kept s t) (k : Nat) : (t.thread k).trap = (s.thread k).trap := congrArg (fun x => x.2.2.2.2.2) (h.thread k)
theorem Kept.w {s t : State} (h : Kept s t) (k : Nat) : (t.warp k).w = (s.warp k).w := congrArg Prod.fst (h.warp k)
theorem Kept.wout {s t : State} (h : Kept s t) (k : Nat) : (t.warp k).out = (s.warp k).out := congrArg Prod.snd (h.warp k)

theorem Kept.trans {s t u : State} (a : Kept s t) (b : Kept t u) : Kept s u where
  thread k := (b.thread k).trans (a.thread k)
  warp k := (b.warp k).trans (a.warp k)
  team x := by
    obtain ⟨_, _, _, _, e⟩ := a.team x
    obtain ⟨l, h, n, y, e'⟩ := b.team x
    exact ⟨l, h, n, y, e'.trans (by rw [e])⟩
  core x := by
    obtain ⟨_, e⟩ := a.core x
    obtain ⟨l, e'⟩ := b.core x
    exact ⟨l, e'.trans (by rw [e])⟩
  rest := by
    have second := b.rest
    rw [a.rest] at second
    exact second

/-- A fold of steps that each keep keeps. -/
theorem Kept.foldl {α : Type} {g : State → α → State} (h : ∀ s x, Kept s (g s x)) (xs : List α) (s : State) : Kept s (xs.foldl g s) := by
  induction xs generalizing s with
  | nil => exact Kept.refl s
  | cons x xs ih => exact (h s x).trans (ih _)

theorem State.setThread_thread_eq (s : State) (k j : Nat) (x : Thread) : (s.setThread k x).thread j = if j = k then x else s.thread j := by
  split
  · subst_vars; simp
  · rename_i h; exact State.setThread_thread_ne s x h

theorem State.setWarp_warp_eq (s : State) (k j : Nat) (x : Warp) : (s.setWarp k x).warp j = if j = k then x else s.warp j := by
  split
  · subst_vars; simp
  · rename_i h; exact State.setWarp_warp_ne s x h

theorem State.setTeam_team_eq (s : State) (k j : Nat) (x : Team) : (s.setTeam k x).team j = if j = k then x else s.team j := by
  split
  · subst_vars; simp
  · rename_i h; exact State.setTeam_team_ne s x h

theorem State.setCore_core_eq (s : State) (k j : Nat) (x : Core) : (s.setCore k x).core j = if j = k then x else s.core j := by
  split
  · subst_vars; simp
  · rename_i h; exact State.setCore_core_ne s x h

/-- A thread written over with the same values. -/
theorem Kept.setThread (s : State) (k : Nat) (x : Thread) (h : x.vals = (s.thread k).vals) : Kept s (s.setThread k x) :=
  { Kept.refl s with
    thread := fun j => by
      rw [State.setThread_thread_eq]
      split
      · subst_vars; exact h
      · rfl
    rest := rfl }

theorem Kept.updThread (s : State) (k : Nat) (g : Thread → Thread) (h : (g (s.thread k)).vals = (s.thread k).vals) : Kept s (s.updThread k g) := Kept.setThread s k _ h

theorem Kept.setWarp (s : State) (k : Nat) (x : Warp) (h : x.vals = (s.warp k).vals) : Kept s (s.setWarp k x) :=
  { Kept.refl s with
    warp := fun j => by
      rw [State.setWarp_warp_eq]
      split
      · subst_vars; exact h
      · rfl
    rest := rfl }

theorem Kept.updWarp (s : State) (k : Nat) (g : Warp → Warp) (h : (g (s.warp k)).vals = (s.warp k).vals) : Kept s (s.updWarp k g) := Kept.setWarp s k _ h

theorem Kept.setTeam (s : State) (k : Nat) (x : Team) (h : ∃ l a n w, x = { s.team k with life := l, haltAt := a, tcount := n, walked := w }) : Kept s (s.setTeam k x) :=
  { Kept.refl s with
    team := fun j => by
      rw [State.setTeam_team_eq]
      split
      · subst_vars; exact h
      · exact (Kept.refl s).team j
    rest := rfl }

theorem Kept.setCore (s : State) (k : Nat) (x : Core) (h : ∃ l, x = { s.core k with locks := l }) : Kept s (s.setCore k x) :=
  { Kept.refl s with
    core := fun j => by
      rw [State.setCore_core_eq]
      split
      · subst_vars; exact h
      · exact (Kept.refl s).core j
    rest := rfl }

/-- One of two ways that both keep. -/
theorem Kept.ite {c : Prop} [Decidable c] {s t u : State} (a : Kept s t) (b : Kept s u) : Kept s (if c then t else u) := by
  split
  · exact a
  · exact b

/-- A step more, or none. -/
theorem Kept.more {c : Prop} [Decidable c] {s t u : State} (a : Kept s t) (b : Kept t u) : Kept s (if c then u else t) :=
  Kept.ite (a.trans b) a

theorem Kept.dropLocks (s : State) (k : Nat) : Kept s (s.dropLocks k) :=
  Kept.trans (t := s.updCore (s.team (teamOf k)).core (fun c => { c with locks := c.locks.filter (fun p => decide (p.2 ≠ k)) }))
    (Kept.setCore s _ _ ⟨_, rfl⟩) (Kept.updThread _ k (fun th => { th with win := none }) rfl)

theorem Kept.callHalt (s : State) (k : Nat) : Kept s (s.callHalt k) := by
  unfold State.callHalt
  have h := Kept.updWarp s (warpOf k) (fun w => { w with halted := true }) rfl
  dsimp only
  split
  · exact h.trans (Kept.setTeam _ _ _ ⟨_, _, _, _, rfl⟩)
  · exact h.trans (Kept.setTeam _ _ _ ⟨_, _, _, _, rfl⟩)
  · exact h

theorem Kept.recordCause (s : State) (k : Nat) (n : NewCause) : Kept s (s.recordCause k n) := by
  unfold State.recordCause
  dsimp only
  split
  · exact Kept.refl s
  · exact Kept.more (Kept.more (Kept.ite (Kept.setThread s k _ rfl) (Kept.setThread s k _ rfl)) (Kept.dropLocks _ k)) (Kept.callHalt _ k)

theorem Kept.recordAll (s : State) (pc : W64) (tc : Nat) (done : W32) (fs : List Flt) : Kept s (s.recordAll pc tc done fs) :=
  Kept.foldl (fun s _ => Kept.recordCause s _ _) fs s

theorem Kept.translate (s : State) (agent ctx va : Nat) (a : Acc) : Kept s (s.translate agent ctx va a).2 := Kept.start s _ _

theorem Kept.noteWalk (s : State) (team va : Nat) (f : XFault) : Kept s (s.noteWalk team va f) := Kept.setTeam s team _ ⟨_, _, _, _, rfl⟩

theorem Kept.codeAt (s : State) (team : Nat) (pc : Addr80) : Kept s (s.codeAt team pc).2 := by
  unfold State.codeAt
  dsimp only
  split
  · rename_i va _
    have h := Kept.translate s (s.team team).core (ckey (s.team team).func (s.team team).ctx) va .fetch
    revert h
    generalize State.translate s _ _ va .fetch = r
    obtain ⟨x, s'⟩ := r
    intro h
    cases x with
    | fault f => exact h.trans (Kept.noteWalk s' team va f)
    | _ => exact h
  · exact Kept.refl s

theorem Kept.fetch (s : State) (team : Nat) (pc : Addr80) : Kept s (s.fetch team pc).2 := by
  have h := Kept.codeAt s team pc
  unfold State.fetch
  revert h
  generalize State.codeAt s team pc = r
  obtain ⟨x, s'⟩ := r
  intro h
  cases x <;> exact h

theorem Kept.headerCause (s : State) (k : Nat) (H : W64) (addr : Addr80) (code : Nat) : Kept s (s.headerCause k H addr code) :=
  Kept.recordCause s k _

theorem Kept.enterChecks (s : State) (k : Nat) (H : W64) : Kept s (s.enterChecks k H) := by
  unfold State.enterChecks
  have h := Kept.updThread s k (fun th => { th with st := .ready, pc := H, block := H }) rfl
  dsimp only
  split
  · exact h.trans (Kept.headerCause _ _ _ _ _)
  · have h2 := Kept.fetch (s.updThread k (fun th => { th with st := .ready, pc := H, block := H })) (teamOf k) ((s.team (teamOf k)).codeHi ++ H)
    revert h2
    generalize State.fetch _ _ _ = r
    obtain ⟨x, s'⟩ := r
    intro h2
    cases x with
    | error c => exact (h.trans h2).trans (Kept.headerCause _ _ _ _ _)
    | ok w =>
      dsimp only
      split
      · exact (h.trans h2).trans (Kept.headerCause _ _ _ _ _)
      · exact (h.trans h2).trans (Kept.updThread _ _ _ rfl)

theorem Kept.enter (s : State) (k : Nat) (H : W64) : Kept s (s.enter k H) := by
  unfold State.enter
  dsimp only
  split
  · exact Kept.setThread s k _ rfl
  · exact Kept.enterChecks s k H

theorem Kept.releaseAt (s : State) (w : Nat) (H : W64) : Kept s (s.releaseAt w H) :=
  Kept.foldl (fun s k => (Kept.updThread s k _ rfl).trans (Kept.enterChecks _ k H)) _ s

theorem Kept.releaseFuel (w n : Nat) (s : State) : Kept s (State.releaseFuel w n s) := by
  induction n generalizing s with
  | zero => exact Kept.refl s
  | succ n ih =>
    unfold State.releaseFuel
    split
    · exact Kept.refl s
    · exact (Kept.releaseAt s w _).trans (ih _)

theorem Kept.releaseAll (s : State) (w : Nat) : Kept s (s.releaseAll w) := Kept.releaseFuel w 32 s

theorem Kept.leaveSwitch (s : State) (k : Nat) : Kept s (s.leaveSwitch k) := by
  unfold State.leaveSwitch
  dsimp only
  split
  · have h := Kept.setThread s k { s.thread k with st := .ready } rfl
    split
    · exact h.trans (Kept.enter _ _ _)
    · exact h
  · exact Kept.refl s

theorem Kept.settleSwitch (s : State) (w : Nat) : Kept s (s.settleSwitch w) :=
  (Kept.foldl (fun s k => Kept.leaveSwitch s k) _ s).trans (Kept.releaseAll _ w)

theorem Thread.mark_vals (th : Thread) (sw : Bool) : (th.mark sw).vals = th.vals := by cases sw <;> rfl

theorem Kept.goHeader (s : State) (k : Nat) (sw hold : Bool) (H : W64) : Kept s (s.goHeader k sw hold H) := by
  unfold State.goHeader
  split
  · exact Kept.updThread s k _ (Thread.mark_vals _ sw)
  · exact Kept.enter s k H

theorem Kept.moveOn (s : State) (k words : Nat) (sw hold : Bool) (target : Option W64) : Kept s (s.moveOn k words sw hold target) := by
  unfold State.moveOn
  dsimp only
  split
  · exact Kept.goHeader _ _ _ _ _
  · split
    · exact Kept.goHeader _ _ _ _ _
    · exact Kept.setThread s k _ (Thread.mark_vals _ sw)

theorem Kept.startIssue (s : State) (g : List Nat) : Kept s (s.startIssue g) :=
  Kept.foldl (fun s k => Kept.updThread s k _ rfl) g s

theorem Kept.countIssue (s : State) (f : Focus) (i : Instr) (g : List Nat) : Kept s (s.countIssue f i g) := by
  unfold State.countIssue
  split
  · exact Kept.refl s
  · have h : Kept s ((s.updTeam f.team (fun t => { t with tcount := t.tcount + 1 })).updWarp (wkey f.team f.wid) (fun w => { w with issued := w.issued + 1 })) :=
      (Kept.setTeam s _ _ ⟨_, _, _, _, rfl⟩).trans (Kept.updWarp _ _ _ rfl)
    dsimp only
    split
    · exact h
    · refine h.trans (Kept.foldl (fun s k => ?_) g _)
      split
      · exact Kept.updThread s k _ rfl
      · exact Kept.refl s

theorem Kept.againDone (s : State) (f : Focus) : Kept s (s.againDone f) := by
  unfold State.againDone
  split
  · exact Kept.foldl (fun s k => Kept.updThread s k _ rfl) _ s
  · exact Kept.refl s

/-- The end of an instruction that has no business of its own afterwards touches no register and no byte. -/
theorem Kept.finish (f : Focus) (i : Instr) (words : Nat) (g : List Nat) (done : W32) (bad : List Flt) (a : Acted) (h : a.after_ = id) :
    Kept a.s (finish f i words g done bad a) := by
  unfold Sys2Proof.Machine.finish
  dsimp only
  rw [h, id]
  refine ((Kept.againDone a.s f).trans (Kept.countIssue _ f i g)).trans (Kept.trans ?_ (Kept.settleSwitch _ _))
  refine Kept.trans ?_ (Kept.foldl (fun s k => Kept.moveOn s k _ _ _ _) _ _)
  refine Kept.trans ?_ (Kept.recordAll _ _ _ _ _)
  split
  · exact Kept.updWarp _ _ _ rfl
  · exact Kept.refl _

end Sys2Proof.Machine
end

