-- ==== Sys2Proof/Laws/Regs.lean ====
section
/-! SUPPORT. Instructions over registers: what starting, checking and committing one does for a calm issue group, and the one lemma that says how such an instruction completes. -/

namespace Sys2Proof.Machine

/-! ## Threads of a group -/

theorem tkey_warpOf (team : Nat) {wid seat : Nat} (h : seat < 32) : warpOf (tkey team wid seat) = wkey team wid := by
  simp only [warpOf, tkey, wkey]; omega

theorem tkey_teamOf (team : Nat) {wid seat : Nat} (hw : wid < 32) (h : seat < 32) : teamOf (tkey team wid seat) = team := by
  simp only [teamOf, tkey]; omega

theorem mem_seats {m : W32} {x : Nat} (h : x ∈ seats m) : x < 32 := by
  simp only [seats, List.mem_filter, List.mem_range] at h; exact h.1

theorem Focus.mem_threads {f : Focus} {k : Nat} (h : k ∈ f.threads) : ∃ x, x < 32 ∧ k = tkey f.team f.wid x := by
  simp only [Focus.threads, List.mem_map] at h
  obtain ⟨x, hx, rfl⟩ := h
  exact ⟨x, mem_seats hx, rfl⟩

theorem Focus.warpOf_threads {f : Focus} {k : Nat} (h : k ∈ f.threads) : warpOf k = wkey f.team f.wid := by
  obtain ⟨x, hx, rfl⟩ := Focus.mem_threads h
  exact tkey_warpOf _ hx

theorem Focus.teamOf_threads {f : Focus} (hw : f.wid < 32) {k : Nat} (h : k ∈ f.threads) : teamOf k = f.team := by
  obtain ⟨x, hx, rfl⟩ := Focus.mem_threads h
  exact tkey_teamOf _ hw hx

theorem Focus.threads_nodup (f : Focus) : f.threads.Nodup := by
  unfold Focus.threads
  rw [List.nodup_iff_pairwise_ne, List.pairwise_map]
  have h : (seats f.group).Nodup := List.Nodup.sublist List.filter_sublist List.nodup_range
  rw [List.nodup_iff_pairwise_ne] at h
  exact h.imp (fun hab => by simp only [tkey]; omega)

/-! ## The start of an instruction -/

/-- What starting an instruction does to one thread. -/
def Thread.started (th : Thread) : Thread := { th with waitCount := 0, yielded := false, skipBp := false }

theorem State.startIssue_cons (s : State) (k : Nat) (g : List Nat) : s.startIssue (k :: g) = (s.setThread k (s.thread k).started).startIssue g := rfl

theorem State.startIssue_thread (s : State) (g : List Nat) (j : Nat) : (s.startIssue g).thread j = if j ∈ g then (s.thread j).started else s.thread j := by
  induction g generalizing s with
  | nil => rfl
  | cons k g ih =>
    rw [State.startIssue_cons, ih, State.setThread_thread_eq]
    by_cases h : j = k
    · subst h; simp [Thread.started]
    · simp [h]

theorem State.startIssue_rest (s : State) (g : List Nat) : s.startIssue g = { s with threads := (s.startIssue g).threads } := by
  induction g generalizing s with
  | nil => rfl
  | cons k g ih =>
    rw [State.startIssue_cons]
    have := ih (s.setThread k (s.thread k).started)
    rw [this]
    rfl

theorem State.startIssue_field {α : Type} (p : Thread → α) (hp : ∀ th, p th.started = p th) (s : State) (g : List Nat) (j : Nat) :
    p ((s.startIssue g).thread j) = p (s.thread j) := by
  rw [State.startIssue_thread]; split <;> simp [hp]

theorem State.startIssue_warp (s : State) (g : List Nat) (w : Nat) : (s.startIssue g).warp w = s.warp w := by
  rw [State.startIssue_rest]; rfl

theorem State.startIssue_team (s : State) (g : List Nat) (w : Nat) : (s.startIssue g).team w = s.team w := by
  rw [State.startIssue_rest]; rfl

theorem State.startIssue_ctxs (s : State) (g : List Nat) : (s.startIssue g).ctxs = s.ctxs := by
  rw [State.startIssue_rest]

theorem State.startIssue_ctxOf (s : State) (g : List Nat) (t : Team) : (s.startIssue g).ctxOf t = s.ctxOf t := by
  rw [State.startIssue_rest]; rfl

theorem State.startIssue_clock (s : State) (g : List Nat) : (s.startIssue g).clock = s.clock := by
  rw [State.startIssue_rest]

theorem State.startIssue_freshEq (s : State) (g : List Nat) : (s.startIssue g).fresh = s.fresh := by
  rw [State.startIssue_rest]

theorem State.startIssue_readReg (s : State) (g : List Nat) (k : Nat) (r : Reg) : (s.startIssue g).readReg k r = s.readReg k r := by
  have h1 : (s.startIssue g).outFor k r = s.outFor k r := by
    simp only [State.outFor, State.startIssue_warp]
    rw [State.startIssue_field Thread.out (fun _ => rfl)]
  have h2 : (s.startIssue g).hazardIndex k r = s.hazardIndex k r := by
    simp only [State.hazardIndex, State.startIssue_team, State.startIssue_ctxOf, State.startIssue_freshEq]
  simp only [State.readReg, State.choose, h1, h2, State.startIssue_warp]
  rw [State.startIssue_field Thread.v (fun _ => rfl)]

theorem State.startIssue_clockOf (s : State) (g : List Nat) (k : Nat) : (s.startIssue g).clockOf k = s.clockOf k := by
  simp only [State.clockOf, State.startIssue_team, State.startIssue_ctxOf, State.startIssue_warp, State.startIssue_clock]

theorem State.startIssue_special (s : State) (g : List Nat) (k : Nat) (x : Special) : (s.startIssue g).special k x = s.special k x := by
  have h1 : ((s.startIssue g).thread k).seq = (s.thread k).seq := State.startIssue_field Thread.seq (fun _ => rfl) s g k
  have h2 : ((s.startIssue g).thread k).shown = (s.thread k).shown := State.startIssue_field Thread.shown (fun _ => rfl) s g k
  simp only [State.special, State.startIssue_team, State.startIssue_warp, State.startIssue_clockOf, h1, h2]

@[simp] theorem State.startIssue_rd (s : State) (g : List Nat) (k : Nat) (x : Src) : (s.startIssue g).rd k x = s.rd k x := by
  cases x <;> simp only [State.rd, State.startIssue_readReg, State.startIssue_special]

@[simp] theorem State.startIssue_rdAt (s : State) (g : List Nat) (k : Nat) (x : Src) (i : Nat) : (s.startIssue g).rdAt k x i = s.rdAt k x i := by
  simp only [State.rdAt, State.startIssue_readReg]

@[simp] theorem State.startIssue_rd64 (s : State) (g : List Nat) (k : Nat) (x : Src) : (s.startIssue g).rd64 k x = s.rd64 k x := by
  cases x with
  | sr y => cases y <;> simp only [State.rd64, State.startIssue_clockOf]
  | _ => simp only [State.rd64, State.startIssue_rdAt]

@[simp] theorem State.startIssue_rdGroup (s : State) (g : List Nat) (k : Nat) (x : Src) (n : Nat) : (s.startIssue g).rdGroup k x n = s.rdGroup k x n := by
  simp only [State.rdGroup, State.startIssue_rdAt]

@[simp] theorem State.startIssue_rdTy (s : State) (g : List Nat) (k : Nat) (t : Ty) (x : Src) : (s.startIssue g).rdTy k t x = s.rdTy k t x := by
  simp only [State.rdTy, State.startIssue_rd, State.startIssue_rd64]

@[simp] theorem State.startIssue_holds (s : State) (g : List Nat) (k : Nat) (x : Guard) : ((s.startIssue g).thread k).holds x = (s.thread k).holds x := by
  exact State.startIssue_field (fun th => th.holds x) (fun _ => rfl) s g k

@[simp] theorem State.startIssue_pred (s : State) (g : List Nat) (k : Nat) (p : Fin 8) : ((s.startIssue g).thread k).pred p = (s.thread k).pred p := by
  exact State.startIssue_field (fun th => th.pred p) (fun _ => rfl) s g k

/-! ## The checks of a calm group -/

theorem hazardIn_calm {s : State} {k : Nat} (h1 : (s.thread k).out = []) (h2 : (s.warp (warpOf k)).out = []) (rs : List Reg) : s.hazardIn k rs = false := by
  simp only [State.hazardIn, List.any_eq_false, State.outFor]
  intro r _
  cases r.1 <;> simp [awaited, h1, h2]

theorem poisonIn_calm {s : State} {k : Nat} (h : (s.thread k).poison = []) (rs : List Reg) : s.poisonIn k rs = false := by
  simp [State.poisonIn, h]

theorem hazardous_calm {s : State} {k : Nat} (h1 : (s.thread k).out = []) (h2 : (s.warp (warpOf k)).out = []) (i : Instr) (g : Bool) : s.hazardous k i g = false := by
  have one : ∀ r : Reg, s.outFor k r = [] := fun r => by unfold State.outFor; split <;> assumption
  simp only [State.hazardous, hazardIn_calm h1 h2, one]
  split <;> simp [awaited]

theorem windowBroken_none {th : Thread} (h : th.win = none) (i : Instr) (b : Bool) : th.windowBroken i b = false := by
  simp [Thread.windowBroken, h]

/-- A thread with nothing outstanding, no window and no poison whose guard is false passes by. -/
theorem gate_pass {α : Type} (p : Plan α) (checked : Bool) {s : State} {k : Nat} (h : (s.thread k).win = none)
    (hg : ((s.thread k).holds (wordHdr p.ins).g || p.every s k) = false) : p.gate checked s k = (.pass, s) := by
  unfold Plan.gate
  simp only [hg, windowBroken_none h, Bool.not_false, if_true, Bool.false_eq_true, if_false]

/-- Such a thread that its own check stops records that cause. -/
theorem gate_error {α : Type} (p : Plan α) (checked : Bool) {s s' : State} {k : Nat} {e : Nat × Addr80} (h1 : (s.thread k).out = [])
    (h2 : (s.warp (warpOf k)).out = []) (hg : ((s.thread k).holds (wordHdr p.ins).g || p.every s k) = true)
    (hc : p.check s k = (.error e, s')) : p.gate checked s k = (.bad e.1 e.2, s') := by
  unfold Plan.gate
  simp only [hg, hazardIn_calm h1 h2, hc, Bool.not_true, Bool.and_false, Bool.false_eq_true, if_false]

/-- Such a thread that passes its own check performs. -/
theorem gate_ok {α : Type} (p : Plan α) (checked : Bool) {s s' : State} {k : Nat} {a : α} (h1 : (s.thread k).out = [])
    (h2 : (s.warp (warpOf k)).out = []) (h3 : (s.thread k).win = none) (hg : ((s.thread k).holds (wordHdr p.ins).g || p.every s k) = true)
    (hc : p.check s k = (.ok a, s')) (h4 : (s.thread k).poison = []) :
    p.gate checked s k = (.go a, s') := by
  unfold Plan.gate
  simp only [hg, hazardIn_calm h1 h2, hazardous_calm h1 h2, windowBroken_none h3, poisonIn_calm h4, hc, Bool.not_true, Bool.and_false, Bool.false_eq_true, if_false]

/-- A group whose instruction checks nothing: the threads whose guard is true perform it. -/
theorem gates_noCheck (p : Plan Unit) (checked : Bool) (hp : p.check = noCheck) (he : p.every = fun _ _ => false) (s : State) (ks : List Nat)
    (h : ∀ k ∈ ks, (s.thread k).out = [] ∧ (s.warp (warpOf k)).out = [] ∧ (s.thread k).win = none ∧ (s.thread k).poison = []) :
    p.gates checked s ks = ([], (ks.filter (fun k => (s.thread k).holds (wordHdr p.ins).g)).map (fun k => (k, ())), s) := by
  induction ks with
  | nil => rfl
  | cons k ks ih =>
    have hk := h k (by simp)
    have ih := ih (fun j hj => h j (List.mem_cons_of_mem _ hj))
    simp only [Plan.gates]
    cases hg : (s.thread k).holds (wordHdr p.ins).g
    · rw [gate_pass p checked hk.2.2.1 (by simp [hg, he])]
      simp [hg, ih]
    · rw [gate_ok p checked hk.1 hk.2.1 hk.2.2.1 (by simp [hg]) (a := ()) (s' := s) (by rw [hp]; rfl) hk.2.2.2]
      simp [hg, ih]

end Sys2Proof.Machine
end

