-- ==== Sys2Proof/Laws/Commit.lean ====
section
/-! SUPPORT. The commit of results in a calm group: each thread's registers, predicates and flags, and nothing else. -/

set_option linter.unusedSimpArgs false

namespace Sys2Proof.Machine

/-- The vector registers after a list of writes. -/
def vWrites (v : Tbl 32) (ws : List (Reg × W32)) : Tbl 32 := ws.foldl (fun v p => Tbl.set v p.1.2 p.2) v

theorem settleOut_nil (s : State) (k : Nat) (r : Reg) : s.settleOut k r [] = [] := by simp [State.settleOut, awaited]

theorem State.writeReg_v (s : State) (k n : Nat) (x : W32) (h1 : (s.thread k).out = []) (h2 : (s.thread k).poison = []) :
    s.writeReg k (false, n) x = s.setThread k { s.thread k with v := Tbl.set (s.thread k).v n x } := by
  simp only [State.writeReg, State.updThread_eq, Bool.false_eq_true, if_false]
  congr 1
  cases h : s.thread k
  simp_all [settleOut_nil]

theorem State.writeReg_w (s : State) (k n : Nat) (x : W32) (h : (s.warp (warpOf k)).out = []) :
    s.writeReg k (true, n) x = s.setWarp (warpOf k) { s.warp (warpOf k) with w := Tbl.set (s.warp (warpOf k)).w n x } := by
  simp only [State.writeReg, State.updWarp_eq, if_true]
  congr 1
  cases h' : s.warp (warpOf k)
  simp_all [settleOut_nil]

/-- A state that differs only in the threads' records. -/
def OnlyThreads (s t : State) : Prop := t = { s with threads := t.threads }

theorem OnlyThreads.refl (s : State) : OnlyThreads s s := rfl

theorem OnlyThreads.trans {s t u : State} (a : OnlyThreads s t) (b : OnlyThreads t u) : OnlyThreads s u := by
  unfold OnlyThreads at *
  rw [a] at b
  exact b

theorem OnlyThreads.setThread (s : State) (k : Nat) (x : Thread) : OnlyThreads s (s.setThread k x) := rfl

theorem OnlyThreads.warp {s t : State} (h : OnlyThreads s t) (w : Nat) : t.warp w = s.warp w := by rw [h]; rfl
theorem OnlyThreads.team {s t : State} (h : OnlyThreads s t) (u : Nat) : t.team u = s.team u := by rw [h]; rfl
theorem OnlyThreads.core {s t : State} (h : OnlyThreads s t) (u : Nat) : t.core u = s.core u := by rw [h]; rfl

/-- Writing vector registers of a calm thread. -/
theorem State.writeRegs_v (s : State) (k : Nat) (ws : List (Reg × W32)) (hw : ∀ p ∈ ws, p.1.1 = false) (h1 : (s.thread k).out = []) (h2 : (s.thread k).poison = []) :
    OnlyThreads s (s.writeRegs k ws) ∧ (s.writeRegs k ws).thread k = { s.thread k with v := vWrites (s.thread k).v ws }
      ∧ ∀ j, j ≠ k → (s.writeRegs k ws).thread j = s.thread j := by
  induction ws generalizing s with
  | nil => exact ⟨OnlyThreads.refl s, rfl, fun _ _ => rfl⟩
  | cons p ws ih =>
    obtain ⟨⟨b, n⟩, x⟩ := p
    have hb : b = false := hw ⟨⟨b, n⟩, x⟩ (by simp)
    subst hb
    have he : s.writeRegs k (((false, n), x) :: ws) = (s.setThread k { s.thread k with v := Tbl.set (s.thread k).v n x }).writeRegs k ws := by
      rw [← State.writeReg_v s k n x h1 h2]; rfl
    obtain ⟨i1, i2, i3⟩ := ih (s.setThread k { s.thread k with v := Tbl.set (s.thread k).v n x }) (fun p hp => hw p (List.mem_cons_of_mem _ hp)) (by simpa using h1) (by simpa using h2)
    rw [he]
    refine ⟨(OnlyThreads.setThread s k _).trans i1, ?_, fun j hj => ?_⟩
    · rw [i2]; simp [vWrites]
    · rw [i3 j hj, State.setThread_thread_ne s _ hj]

/-- Writing w registers of a calm warp. -/
theorem State.writeRegs_w (s : State) (k : Nat) (ws : List (Reg × W32)) (hw : ∀ p ∈ ws, p.1.1 = true) (h : (s.warp (warpOf k)).out = []) :
    s.writeRegs k ws = { s with warps := (s.writeRegs k ws).warps } ∧ (s.writeRegs k ws).warp (warpOf k) = { s.warp (warpOf k) with w := vWrites (s.warp (warpOf k)).w ws }
      ∧ ∀ j, j ≠ warpOf k → (s.writeRegs k ws).warp j = s.warp j := by
  induction ws generalizing s with
  | nil => exact ⟨rfl, rfl, fun _ _ => rfl⟩
  | cons p ws ih =>
    obtain ⟨⟨b, n⟩, x⟩ := p
    have hb : b = true := hw ⟨⟨b, n⟩, x⟩ (by simp)
    subst hb
    have he : s.writeRegs k (((true, n), x) :: ws) = (s.setWarp (warpOf k) { s.warp (warpOf k) with w := Tbl.set (s.warp (warpOf k)).w n x }).writeRegs k ws := by
      rw [← State.writeReg_w s k n x h]; rfl
    obtain ⟨i1, i2, i3⟩ := ih (s.setWarp (warpOf k) { s.warp (warpOf k) with w := Tbl.set (s.warp (warpOf k)).w n x }) (fun p hp => hw p (List.mem_cons_of_mem _ hp)) (by simpa using h)
    rw [he]
    refine ⟨by rw [i1]; rfl, ?_, fun j hj => ?_⟩
    · rw [i2]; simp [vWrites]
    · rw [i3 j hj, State.setWarp_warp_ne s _ hj]

theorem get_vWrites_ne (v : Tbl 32) (ws : List (Reg × W32)) (n : Nat) (h : ∀ p ∈ ws, p.1.2 ≠ n) : Tbl.get (vWrites v ws) n = Tbl.get v n := by
  induction ws generalizing v with
  | nil => rfl
  | cons p ws ih =>
    have : vWrites v (p :: ws) = vWrites (Tbl.set v p.1.2 p.2) ws := rfl
    rw [this, ih _ (fun q hq => h q (List.mem_cons_of_mem _ hq)), Tbl.get_set_ne _ _ (Ne.symm (h p (by simp)))]

theorem wf_vWrites (v : Tbl 32) (ws : List (Reg × W32)) (h : Tbl.wf v = true) : Tbl.wf (vWrites v ws) = true := by
  induction ws generalizing v with
  | nil => exact h
  | cons p ws ih => exact ih _ (Tbl.wf_set v p.1.2 p.2 h)

theorem get_vWrites_mem (v : Tbl 32) (ws : List (Reg × W32)) (hn : (ws.map (fun p => p.1.2)).Nodup) (p : Reg × W32) (hp : p ∈ ws) :
    Tbl.get (vWrites v ws) p.1.2 = p.2 := by
  induction ws generalizing v with
  | nil => simp at hp
  | cons q ws ih =>
    have he : vWrites v (q :: ws) = vWrites (Tbl.set v q.1.2 q.2) ws := rfl
    simp only [List.map_cons, List.nodup_cons] at hn
    rw [he]
    rcases List.mem_cons.1 hp with rfl | hp
    · rw [get_vWrites_ne _ _ _ (fun r hr hc => hn.1 (by rw [← hc]; exact List.mem_map_of_mem hr))]
      exact Tbl.get_set_self v _ _
    · exact ih _ hn.2 hp

/-! ## One thread's result, and all of them -/

/-- A thread with a result's vector registers, predicates and flags written. -/
def Thread.got (th : Thread) (r : Result) : Thread := r.onThread { th with v := vWrites th.v r.vs }

/-- A thread after predicate writes. -/
theorem setPred_field {α : Type} (g : Thread → α) (hg : ∀ th x, g { th with p := x } = g th) (th : Thread) (q : Fin 8) (b : Bool) : g (th.setPred q b) = g th := by
  unfold Thread.setPred
  split
  · rfl
  · exact hg th _

theorem foldl_setPred_field {α : Type} (g : Thread → α) (hg : ∀ th x, g { th with p := x } = g th) (ps : List (Fin 8 × Bool)) (th : Thread) :
    g (ps.foldl (fun th p => th.setPred p.1 p.2) th) = g th := by
  induction ps generalizing th with
  | nil => rfl
  | cons p ps ih => exact (ih _).trans (setPred_field g hg th _ _)

theorem onThread_field {α : Type} (g : Thread → α) (hg : ∀ th x, g { th with p := x } = g th) (hf : ∀ th x, g { th with fx := x } = g th) (r : Result) (th : Thread) :
    g (r.onThread th) = g th := (hf _ _).trans (foldl_setPred_field g hg _ _)

/-- What a result leaves alone in its thread: every field but the vector registers, the predicates and the flags. -/
theorem got_field {α : Type} (g : Thread → α) (hv : ∀ th x, g { th with v := x } = g th) (hg : ∀ th x, g { th with p := x } = g th)
    (hf : ∀ th x, g { th with fx := x } = g th) (th : Thread) (r : Result) : g (th.got r) = g th :=
  (onThread_field g hg hf r _).trans (hv _ _)

theorem got_v (th : Thread) (r : Result) : (th.got r).v = vWrites th.v r.vs := onThread_field Thread.v (fun _ _ => rfl) (fun _ _ => rfl) r _

theorem got_fx (th : Thread) (r : Result) : (th.got r).fx = th.fx ||| r.fx := by
  simp only [Thread.got, Result.onThread, Thread.raiseFx]
  rw [foldl_setPred_field Thread.fx (fun _ _ => rfl)]

theorem pred_setPred (th : Thread) (p : Fin 8) (b : Bool) (q : Fin 8) : (th.setPred p b).pred q = if p = q ∧ q ≠ 7 then b else th.pred q := by
  unfold Thread.setPred Thread.pred
  by_cases h7 : q = 7
  · subst h7; simp
  · by_cases hp : p = 7
    · subst hp; simp [h7, Ne.symm h7]
    · have hq : q.val < 7 := by omega
      have hpl : p.val < 7 := by omega
      simp only [if_neg hp, if_neg h7]
      by_cases hpq : p = q
      · subst hpq
        cases b <;> simp [BitVec.getLsbD_or, BitVec.getLsbD_and, BitVec.getLsbD_not, BitVec.getLsbD_shiftLeft, hq, h7]
      · have hne : ¬ q.val = p.val := fun e => hpq (Fin.ext e.symm)
        cases b
        · simp [BitVec.getLsbD_or, BitVec.getLsbD_and, BitVec.getLsbD_not, BitVec.getLsbD_shiftLeft, hpq, hq]
          intro _; omega
        · simp [BitVec.getLsbD_or, BitVec.getLsbD_and, BitVec.getLsbD_not, BitVec.getLsbD_shiftLeft, hpq, hq]
          by_cases hlt : q.val < p.val
          · have hf : q < p := hlt
            simp [hlt, hf]
          · have hf : ¬ q < p := hlt
            have : q.val - p.val ≠ 0 := by omega
            simp [hlt, hf, this]

theorem foldl_setPred_pred (ps : List (Fin 8 × Bool)) (th : Thread) (q : Fin 8) :
    (ps.foldl (fun th p => th.setPred p.1 p.2) th).pred q = predAfter (th.pred q) q ps := by
  induction ps generalizing th with
  | nil => rfl
  | cons p ps ih =>
    simp only [List.foldl_cons, predAfter]
    rw [ih, pred_setPred]
    rfl

theorem got_pred (th : Thread) (r : Result) (q : Fin 8) : (th.got r).pred q = predAfter (th.pred q) q r.preds := by
  exact foldl_setPred_pred r.preds _ q

/-- Results written thread by thread. -/
def State.commitV (s : State) (rs : List Result) : State := rs.foldl (fun s r => (s.writeRegs r.k r.vs).updThread r.k r.onThread) s

theorem Result.vs_false (r : Result) : ∀ p ∈ r.vs, p.1.1 = false := by simp [Result.vs]
theorem Result.ws_true (r : Result) : ∀ p ∈ r.ws, p.1.1 = true := by simp [Result.ws]

theorem commitOne (s : State) (r : Result) (h1 : (s.thread r.k).out = []) (h2 : (s.thread r.k).poison = []) :
    OnlyThreads s ((s.writeRegs r.k r.vs).updThread r.k r.onThread) ∧ ((s.writeRegs r.k r.vs).updThread r.k r.onThread).thread r.k = (s.thread r.k).got r
      ∧ ∀ j, j ≠ r.k → ((s.writeRegs r.k r.vs).updThread r.k r.onThread).thread j = s.thread j := by
  obtain ⟨a, b, c⟩ := State.writeRegs_v s r.k r.vs r.vs_false h1 h2
  refine ⟨a.trans (OnlyThreads.setThread _ _ _), ?_, fun j hj => ?_⟩
  · rw [State.updThread_thread, b]; rfl
  · rw [State.updThread_thread_ne _ _ hj, c j hj]

theorem commitV_calm (rs : List Result) (s : State) (hn : (rs.map Result.k).Nodup)
    (h : ∀ r ∈ rs, (s.thread r.k).out = [] ∧ (s.thread r.k).poison = []) :
    OnlyThreads s (s.commitV rs) ∧ (∀ r ∈ rs, (s.commitV rs).thread r.k = (s.thread r.k).got r) ∧ ∀ j, (∀ r ∈ rs, r.k ≠ j) → (s.commitV rs).thread j = s.thread j := by
  induction rs generalizing s with
  | nil => exact ⟨OnlyThreads.refl s, fun _ hr => by simp at hr, fun _ _ => rfl⟩
  | cons r rs ih =>
    obtain ⟨a, b, c⟩ := commitOne s r (h r (by simp)).1 (h r (by simp)).2
    simp only [List.map_cons, List.nodup_cons] at hn
    have hne : ∀ q ∈ rs, q.k ≠ r.k := fun q hq e => hn.1 (by rw [← e]; exact List.mem_map_of_mem hq)
    obtain ⟨i1, i2, i3⟩ := ih ((s.writeRegs r.k r.vs).updThread r.k r.onThread) hn.2 (fun q hq => by
      rw [c q.k (hne q hq)]; exact h q (List.mem_cons_of_mem _ hq))
    refine ⟨a.trans i1, fun q hq => ?_, fun j hj => ?_⟩
    · rcases List.mem_cons.1 hq with rfl | hq
      · exact (i3 q.k (fun x hx => hne x hx)).trans b
      · exact (i2 q hq).trans (by rw [c q.k (hne q hq)])
    · exact (i3 j (fun x hx => hj x (List.mem_cons_of_mem _ hx))).trans (c j (Ne.symm (hj r (by simp))))

/-- The commit of results of threads of one calm warp. -/
theorem commit_calm (rs : List Result) (s : State) (w : Nat) (hn : (rs.map Result.k).Nodup) (hw : ∀ r ∈ rs, warpOf r.k = w)
    (h : ∀ r ∈ rs, (s.thread r.k).out = [] ∧ (s.thread r.k).poison = []) (ho : (s.warp w).out = []) :
    (s.commit rs = { s with threads := (s.commit rs).threads, warps := (s.commit rs).warps })
      ∧ (∀ r ∈ rs, (s.commit rs).thread r.k = (s.thread r.k).got r) ∧ (∀ j, (∀ r ∈ rs, r.k ≠ j) → (s.commit rs).thread j = s.thread j)
      ∧ (s.commit rs).warp w = { s.warp w with w := vWrites (s.warp w).w ((rs.head?.map Result.ws).getD []) } ∧ ∀ j, j ≠ w → (s.commit rs).warp j = s.warp j := by
  obtain ⟨a, b, c⟩ := commitV_calm rs s hn h
  cases rs with
  | nil => exact ⟨rfl, fun _ hr => by simp at hr, fun _ _ => rfl, rfl, fun _ _ => rfl⟩
  | cons r rs =>
    have he : s.commit (r :: rs) = (s.commitV (r :: rs)).writeRegs r.k r.ws := rfl
    have hr : warpOf r.k = w := hw r (by simp)
    have ho' : ((s.commitV (r :: rs)).warp (warpOf r.k)).out = [] := by rw [a.warp, hr]; exact ho
    obtain ⟨d, e, g⟩ := State.writeRegs_w (s.commitV (r :: rs)) r.k r.ws r.ws_true ho'
    have ht : ∀ j, ((s.commitV (r :: rs)).writeRegs r.k r.ws).thread j = (s.commitV (r :: rs)).thread j := fun j => by rw [d]; rfl
    rw [he]
    refine ⟨?_, fun q hq => (ht q.k).trans (b q hq), fun j hj => (ht j).trans (c j hj), ?_, fun j hj => ?_⟩
    · rw [d, a]
    · rw [← hr, e, a.warp]; rfl
    · rw [g j (by rw [hr]; exact hj), a.warp]

end Sys2Proof.Machine
end

