-- ==== Sys2Proof/Laws/Place.lean ====
section
/-! SUPPORT. Where threads stand: what happens to one thread leaves every other where it is, and a thread inside its block goes on to the next word. -/

namespace Sys2Proof.Machine

/-- A fetch changes cached translations, the counter of free values, and what the team keeps of a walk that failed: nothing else. -/
theorem fetch_rest (s : State) (team : Nat) (pc : Addr80) : ∃ n l, (s.fetch team pc).2 = { s with fresh := n, tlb := l } ∨
    ∃ va f, (s.fetch team pc).2 = State.noteWalk { s with fresh := n, tlb := l } team va f := by
  have only_reads : (s.fetch team pc).2 = (s.codeAt team pc).2 := by
    unfold State.fetch
    generalize State.codeAt s team pc = r
    obtain ⟨x, s'⟩ := r
    cases x <;> rfl
  rw [only_reads]
  unfold State.codeAt
  dsimp only
  split
  · rename_i va _
    have h : ∃ n l, (s.translate (s.team team).core (ckey (s.team team).func (s.team team).ctx) va .fetch).2 = { s with fresh := n, tlb := l } := ⟨_, _, rfl⟩
    revert h
    generalize State.translate s _ _ va .fetch = r
    obtain ⟨x, s'⟩ := r
    rintro ⟨n, l, h⟩
    refine ⟨n, l, ?_⟩
    cases x with
    | fault f => exact Or.inr ⟨va, f, congrArg (fun s => State.noteWalk s team va f) h⟩
    | _ => exact Or.inl h
  · exact ⟨_, _, Or.inl rfl⟩

theorem fetch_thread (s : State) (team : Nat) (pc : Addr80) (k : Nat) : (s.fetch team pc).2.thread k = s.thread k := by
  obtain ⟨n, l, h | ⟨va, f, h⟩⟩ := fetch_rest s team pc <;> rw [h] <;> rfl

/-! ## Other threads -/

theorem dropLocks_other (s : State) {j k : Nat} (h : k ≠ j) : (s.dropLocks j).thread k = s.thread k := by
  unfold State.dropLocks
  dsimp only
  rw [State.updThread_thread_ne _ _ h]; rfl

theorem callHalt_thread (s : State) (j k : Nat) : (s.callHalt j).thread k = s.thread k := by
  unfold State.callHalt
  dsimp only
  split <;> rfl

theorem recordCause_other (s : State) {j k : Nat} (n : NewCause) (h : k ≠ j) : (s.recordCause j n).thread k = s.thread k := by
  have h2 : ∀ (c : Prop) [Decidable c] (s : State), (if c then s.dropLocks j else s).thread k = s.thread k := by
    intro c _ s; split
    · exact dropLocks_other s h
    · rfl
  have h3 : ∀ (c : Prop) [Decidable c] (s : State), (if c then s.callHalt j else s).thread k = s.thread k := by
    intro c _ s; split
    · exact callHalt_thread s j k
    · rfl
  unfold State.recordCause
  dsimp only
  split
  · rfl
  · rw [h3, h2]
    split <;> exact State.setThread_thread_ne s _ h

theorem enterChecks_other (s : State) {j k : Nat} (H : W64) (h : k ≠ j) : (s.enterChecks j H).thread k = s.thread k := by
  unfold State.enterChecks
  dsimp only
  have h0 : (s.updThread j (fun th => { th with st := .ready, pc := H, block := H })).thread k = s.thread k := State.updThread_thread_ne s _ h
  split
  · exact (recordCause_other _ _ h).trans h0
  · have h2 := fetch_thread (s.updThread j (fun th => { th with st := .ready, pc := H, block := H })) (teamOf j) ((s.team (teamOf j)).codeHi ++ H) k
    revert h2
    generalize State.fetch _ _ _ = r
    obtain ⟨x, s'⟩ := r
    intro h2
    cases x with
    | error c => exact ((recordCause_other _ _ h).trans h2).trans h0
    | ok w =>
      dsimp only
      split
      · exact ((recordCause_other _ _ h).trans h2).trans h0
      · exact ((State.updThread_thread_ne _ _ h).trans h2).trans h0

theorem enter_other (s : State) {j k : Nat} (H : W64) (h : k ≠ j) : (s.enter j H).thread k = s.thread k := by
  unfold State.enter
  dsimp only
  split
  · exact State.setThread_thread_ne s _ h
  · exact enterChecks_other s H h

theorem goHeader_other (s : State) {j k : Nat} (sw hold : Bool) (H : W64) (h : k ≠ j) : (s.goHeader j sw hold H).thread k = s.thread k := by
  unfold State.goHeader
  split
  · exact State.updThread_thread_ne s _ h
  · exact enter_other s H h

theorem moveOn_other (s : State) {j k : Nat} (words : Nat) (sw hold : Bool) (x : Option W64) (h : k ≠ j) : (s.moveOn j words sw hold x).thread k = s.thread k := by
  unfold State.moveOn
  dsimp only
  split
  · exact goHeader_other s _ _ _ h
  · split
    · exact goHeader_other s _ _ _ h
    · exact State.setThread_thread_ne s _ h

theorem leaveSwitch_other (s : State) {j k : Nat} (h : k ≠ j) : (s.leaveSwitch j).thread k = s.thread k := by
  unfold State.leaveSwitch
  dsimp only
  split
  · split
    · exact (enter_other _ _ h).trans (State.setThread_thread_ne s _ h)
    · exact State.setThread_thread_ne s _ h
  · rfl

/-- A fold over threads that do not touch the named one. -/
theorem foldl_other {g : State → Nat → State} {k : Nat} (hg : ∀ s j, k ≠ j → (g s j).thread k = s.thread k) (js : List Nat) (s : State) (h : k ∉ js) :
    (js.foldl g s).thread k = s.thread k := by
  induction js generalizing s with
  | nil => rfl
  | cons j js ih =>
    simp only [List.mem_cons, not_or] at h
    exact (ih _ h.2).trans (hg s j h.1)

theorem releaseAt_other (s : State) (w : Nat) (H : W64) {k : Nat} (h : (s.thread k).st ≠ .reconverging) : (s.releaseAt w H).thread k = s.thread k := by
  unfold State.releaseAt
  refine foldl_other (fun s j hj => (enterChecks_other _ H hj).trans (State.updThread_thread_ne s _ hj)) _ s ?_
  simp [State.reconvergingAt, h]

theorem releaseFuel_other (w n : Nat) (s : State) {k : Nat} (h : (s.thread k).st ≠ .reconverging) : (State.releaseFuel w n s).thread k = s.thread k := by
  induction n generalizing s with
  | zero => rfl
  | succ n ih =>
    unfold State.releaseFuel
    split
    · rfl
    · rename_i H _
      have h1 := releaseAt_other s w H h
      exact (ih _ (by rw [h1]; exact h)).trans h1

/-- Leaving switch-parking moves no thread that is ready, and readies one that its marker parked with nothing outstanding. -/
theorem settleSwitch_thread (s : State) (w k : Nat) (hn : (s.thread k).pc ≠ (s.thread k).block) (ho : (s.thread k).out = []) (hw : (s.warp (warpOf k)).out = [])
    (hs : (s.thread k).st = .ready ∨ ((s.thread k).st = .switchParked ∧ k ∈ warpThreads w)) : (s.settleSwitch w).thread k = { s.thread k with st := .ready } := by
  have key : ∀ (js : List Nat) (s : State), (s.thread k).pc ≠ (s.thread k).block → (s.thread k).out = [] → (s.warp (warpOf k)).out = [] →
      ((s.thread k).st = .ready ∨ ((s.thread k).st = .switchParked ∧ k ∈ js)) → (js.foldl (fun s j => s.leaveSwitch j) s).thread k = { s.thread k with st := .ready } := by
    intro js
    induction js with
    | nil =>
      intro s _ _ _ h
      rcases h with h | h
      · simp only [List.foldl_nil]; rw [← h]
      · simp at h
    | cons j js ih =>
      intro s h1 h2 h3 h4
      simp only [List.foldl_cons]
      have hw' : ((s.leaveSwitch j).warp (warpOf k)).out = [] := by rw [(Kept.leaveSwitch s j).wout]; exact h3
      by_cases hj : k = j
      · subst hj
        have ht : (s.leaveSwitch k).thread k = { s.thread k with st := .ready } := by
          unfold State.leaveSwitch
          dsimp only
          rcases h4 with h | h
          · simp [h]; rw [← h]
          · simp [h.1, h2, h3, h1, State.noneDue]
        rw [ih _ (by rw [ht]; exact h1) (by rw [ht]; exact h2) hw' (by rw [ht]; exact Or.inl rfl), ht]
      · have ht := leaveSwitch_other s hj
        rw [ih _ (by rw [ht]; exact h1) (by rw [ht]; exact h2) hw' (by
          rw [ht]; rcases h4 with h | h
          · exact Or.inl h
          · simp only [List.mem_cons] at h; exact Or.inr ⟨h.1, h.2.resolve_left hj⟩), ht]
  unfold State.settleSwitch State.releaseAll
  have h := key (warpThreads w) s hn ho hw hs
  rw [releaseFuel_other]
  · exact h
  · rw [h]; simp

end Sys2Proof.Machine
end

