-- ==== Sys2Proof/Laws/Complete.lean ====
section
/-! SUPPORT. How an instruction over registers completes in a calm group, said once. -/

namespace Sys2Proof.Machine

/-- A fold whose steps change nothing. -/
theorem foldl_id {α : Type} {g : State → α → State} (xs : List α) (s : State) (h : ∀ x ∈ xs, g s x = s) : xs.foldl g s = s := by
  induction xs with
  | nil => rfl
  | cons x xs ih =>
    simp only [List.foldl_cons, h x (by simp)]
    exact ih (fun y hy => h y (List.mem_cons_of_mem _ hy))

/-- An issue that is no performance again has none to end. -/
theorem againDone_not {f : Focus} (h : f.again = false) (s : State) : s.againDone f = s := by simp [State.againDone, h]

/-- With no lock window open, counting an instruction changes no thread. -/
theorem countIssue_thread (s : State) (f : Focus) (i : Instr) (g : List Nat) (h : ∀ k ∈ g, (s.thread k).win = none) (k : Nat) : (s.countIssue f i g).thread k = s.thread k := by
  unfold State.countIssue
  split
  · rfl
  · dsimp only
    split
    · rfl
    · rw [foldl_id]
      · rfl
      · intro j hj
        have : (((s.updTeam f.team (fun t => { t with tcount := t.tcount + 1 })).updWarp (wkey f.team f.wid) (fun w => { w with issued := w.issued + 1 })).thread j).win = none := h j hj
        rw [this]; rfl

theorem countIssue_tcount (s : State) (f : Focus) (i : Instr) (g : List Nat) (hf : f.again = false) (h : ∀ k ∈ g, (s.thread k).win = none) :
    ((s.countIssue f i g).team f.team).tcount = (s.team f.team).tcount + 1 := by
  unfold State.countIssue
  rw [hf]
  dsimp only
  simp only [Bool.false_eq_true, if_false]
  split
  · simp
  · rw [foldl_id]
    · simp
    · intro j hj
      have : (((s.updTeam f.team (fun t => { t with tcount := t.tcount + 1 })).updWarp (wkey f.team f.wid) (fun w => { w with issued := w.issued + 1 })).thread j).win = none := h j hj
      rw [this]; rfl

/-- Threads that go on to the next word of their block. -/
theorem foldl_moveOn (js : List Nat) (hn : js.Nodup) (words : Nat) (sw : Bool) (hold : Nat → Bool) (x : Nat → Option W64) (k : Nat) (hk : k ∈ js) (s : State)
    (hx : x k = none) (hi : (s.thread k).after words ≠ (s.thread k).nextHeader) :
    (js.foldl (fun s j => s.moveOn j words sw (hold j) (x j)) s).thread k = ({ s.thread k with pc := (s.thread k).after words } : Thread).mark sw := by
  induction js generalizing s with
  | nil => simp at hk
  | cons j js ih =>
    simp only [List.nodup_cons] at hn
    simp only [List.foldl_cons]
    rcases List.mem_cons.1 hk with rfl | hk
    · rw [foldl_other (fun s j hj => moveOn_other s words sw _ _ hj) js _ hn.1]
      simp [State.moveOn, hx, hi]
    · have hne : k ≠ j := fun e => hn.1 (e ▸ hk)
      have ht := moveOn_other s words sw (hold j) (x j) hne
      rw [ih hn.2 hk _ (by rw [ht]; exact hi), ht]

/-- The counts of teams do not move at the places of threads. -/
theorem recordCause_tcount (s : State) (k : Nat) (n : NewCause) (u : Nat) : ((s.recordCause k n).team u).tcount = (s.team u).tcount := by
  have hd : ∀ (s : State), ((s.dropLocks k).team u) = s.team u := fun s => rfl
  have hc : ∀ (s : State), ((s.callHalt k).team u).tcount = (s.team u).tcount := by
    intro s
    unfold State.callHalt
    dsimp only
    split
    · rw [State.setTeam_team_eq]; split <;> simp_all
    · rw [State.setTeam_team_eq]; split <;> simp_all
    · rfl
  unfold State.recordCause
  dsimp only
  have h2 : ∀ (c : Prop) [Decidable c] (s : State), ((if c then s.dropLocks k else s).team u) = s.team u := by
    intro c _ s; split
    · exact hd s
    · rfl
  have h3 : ∀ (c : Prop) [Decidable c] (s : State), ((if c then s.callHalt k else s).team u).tcount = (s.team u).tcount := by
    intro c _ s; split
    · exact hc s
    · rfl
  split
  · rfl
  · rw [h3, h2]
    split <;> rfl

theorem fetch_tcount (s : State) (team : Nat) (pc : Addr80) (u : Nat) : ((s.fetch team pc).2.team u).tcount = (s.team u).tcount := by
  obtain ⟨n, l, h | ⟨va, f, h⟩⟩ := fetch_rest s team pc <;> rw [h]
  · rfl
  · rw [State.noteWalk, State.updTeam_eq, State.setTeam_team_eq]
    split
    · subst_vars; rfl
    · rfl

theorem enterChecks_tcount (s : State) (k : Nat) (H : W64) (u : Nat) : ((s.enterChecks k H).team u).tcount = (s.team u).tcount := by
  unfold State.enterChecks
  dsimp only
  split
  · exact recordCause_tcount _ _ _ _
  · have h2 := fetch_tcount (s.updThread k (fun th => { th with st := .ready, pc := H, block := H })) (teamOf k) ((s.team (teamOf k)).codeHi ++ H) u
    revert h2
    generalize State.fetch _ _ _ = r
    obtain ⟨x, s'⟩ := r
    intro h2
    cases x with
    | error c => exact (recordCause_tcount _ _ _ _).trans h2
    | ok w =>
      dsimp only
      split
      · exact (recordCause_tcount _ _ _ _).trans h2
      · exact h2

theorem enter_tcount (s : State) (k : Nat) (H : W64) (u : Nat) : ((s.enter k H).team u).tcount = (s.team u).tcount := by
  unfold State.enter
  dsimp only
  split
  · rfl
  · exact enterChecks_tcount s k H u

theorem moveOn_tcount (s : State) (k words : Nat) (sw hold : Bool) (x : Option W64) (u : Nat) : ((s.moveOn k words sw hold x).team u).tcount = (s.team u).tcount := by
  have hg : ∀ H, ((s.goHeader k sw hold H).team u).tcount = (s.team u).tcount := by
    intro H; unfold State.goHeader; split
    · rfl
    · exact enter_tcount s k H u
  unfold State.moveOn
  dsimp only
  split
  · exact hg _
  · split
    · exact hg _
    · rfl

theorem foldl_tcount {α : Type} {g : State → α → State} {u : Nat} (h : ∀ s x, ((g s x).team u).tcount = (s.team u).tcount) (xs : List α) (s : State) :
    ((xs.foldl g s).team u).tcount = (s.team u).tcount := by
  induction xs generalizing s with
  | nil => rfl
  | cons x xs ih => exact (ih _).trans (h s x)

theorem releaseFuel_tcount (w n : Nat) (s : State) (u : Nat) : ((State.releaseFuel w n s).team u).tcount = (s.team u).tcount := by
  induction n generalizing s with
  | zero => rfl
  | succ n ih =>
    unfold State.releaseFuel
    split
    · rfl
    · rename_i H _
      refine (ih _).trans ?_
      unfold State.releaseAt
      exact foldl_tcount (fun s k => (enterChecks_tcount (s.updThread k (fun th => { th with stack := th.stack.tail, st := .ready })) k H u).trans rfl) _ s

theorem settleSwitch_tcount (s : State) (w u : Nat) : ((s.settleSwitch w).team u).tcount = (s.team u).tcount := by
  unfold State.settleSwitch State.releaseAll
  rw [releaseFuel_tcount]
  refine foldl_tcount (fun s k => ?_) _ s
  unfold State.leaveSwitch
  dsimp only
  split
  · split
    · exact (enter_tcount _ _ _ _)
    · rfl
  · rfl

/-- The count of the team after an instruction without business of its own afterwards. -/
theorem finish_tcount (f : Focus) (i : Instr) (words : Nat) (g : List Nat) (done : W32) (bad : List Flt) (a : Acted) (ha : a.after_ = id) (hf : f.again = false)
    (hw : ∀ k ∈ g, (a.s.thread k).win = none) : ((finish f i words g done bad a).team f.team).tcount = (a.s.team f.team).tcount + 1 := by
  unfold finish
  dsimp only
  rw [ha, againDone_not hf, ← countIssue_tcount a.s f i g hf hw]
  generalize a.s.countIssue f i g = C
  rw [id, settleSwitch_tcount, foldl_tcount (fun s k => moveOn_tcount s k _ _ _ _ _)]
  unfold State.recordAll
  rw [foldl_tcount (fun s x => recordCause_tcount s _ _ _)]
  split <;> rfl

/-- A thread that performed, inside its block, stands at the next word with everything else as the performance left it. -/
theorem finish_thread (f : Focus) (i : Instr) (words : Nat) (g : List Nat) (done : W32) (a : Acted) (ha : a.after_ = id) (hf : f.again = false) (hl : a.later = [])
    (hn : g.Nodup) (k : Nat) (hk : k ∈ g) (hkw : k ∈ warpThreads (wkey f.team f.wid)) (hstay : k ∉ a.stay) (hgo : a.goto_ = []) (hw : ∀ k ∈ g, (a.s.thread k).win = none)
    (hst : (a.s.thread k).st = .ready) (hi : a.s.inside k words) (ho : (a.s.thread k).out = []) (hwo : (a.s.warp (warpOf k)).out = []) :
    (finish f i words g done [] a).thread k = { a.s.thread k with pc := (a.s.thread k).after words } := by
  unfold finish
  dsimp only
  rw [ha, hl, hgo, againDone_not hf]
  simp only [List.append_nil, List.map_nil, List.nil_append, id]
  have hb : ∀ (s : State) (c : Prop) [Decidable c] (d : W32) (pc : W64) (tc : Nat) (dn : W32), ((if c then s.updWarp (wkey f.team f.wid) (fun w => { w with stepDone := d }) else s).recordAll pc tc dn []).thread k = s.thread k := by
    intro s c _ d pc tc dn
    simp only [State.recordAll, List.foldl_nil]
    split <;> rfl
  have hbo : ∀ (s : State) (c : Prop) [Decidable c] (d : W32) (pc : W64) (tc : Nat) (dn : W32) (w : Nat), (((if c then s.updWarp (wkey f.team f.wid) (fun w => { w with stepDone := d }) else s).recordAll pc tc dn []).warp w).out = (s.warp w).out := by
    intro s c _ d pc tc dn w
    simp only [State.recordAll, List.foldl_nil]
    split
    · rw [State.updWarp_eq, State.setWarp_warp_eq]; split <;> simp_all
    · rfl
  generalize hS : State.recordAll _ _ _ _ _ = S
  have h1 : S.thread k = a.s.thread k := by rw [← hS, hb, countIssue_thread _ _ _ _ hw]
  have h1o : (S.warp (warpOf k)).out = [] := by rw [← hS, hbo, (Kept.countIssue _ _ _ _).wout]; exact hwo
  have hmem : k ∈ g.filter (fun k => !a.stay.contains k) := by simp [hk, hstay]
  have hm := foldl_moveOn (g.filter (fun k => !a.stay.contains k)) (hn.sublist List.filter_sublist) words (wordHdr i).sw (fun j => a.hold.contains j)
    (fun j => ([] : List (Nat × W64)).find? (fun x => decide (x.1 = j)) |>.map (fun x => x.2)) k hmem S rfl (by rw [h1]; exact hi.1)
  have hm' : ((g.filter (fun k => !a.stay.contains k)).foldl (fun s j => s.moveOn j words (wordHdr i).sw (a.hold.contains j) (([] : List (Nat × W64)).find? (fun x => decide (x.1 = j)) |>.map (fun x => x.2))) S).thread k
      = ({ S.thread k with pc := (S.thread k).after words } : Thread).mark (wordHdr i).sw := hm
  have hk2 := Kept.foldl (fun s j => Kept.moveOn s j words (wordHdr i).sw (a.hold.contains j) (([] : List (Nat × W64)).find? (fun x => decide (x.1 = j)) |>.map (fun x => x.2))) (g.filter (fun k => !a.stay.contains k)) S
  generalize hT : List.foldl _ S _ = T at hm' hk2
  rw [h1] at hm'
  have hTo : (T.thread k).out = [] := by rw [hk2.out, h1]; exact ho
  have hTw : (T.warp (warpOf k)).out = [] := by rw [hk2.wout]; exact h1o
  rw [settleSwitch_thread]
  · rw [hm']
    cases (wordHdr i).sw <;> simp [Thread.mark, hst, Thread.after]
  · rw [hm']
    cases (wordHdr i).sw <;> simp only [Thread.mark, Bool.false_eq_true, if_false, if_true] <;> exact hi.2
  · exact hTo
  · exact hTw
  · rw [hm']
    cases (wordHdr i).sw
    · left; simp [Thread.mark, hst]
    · right; exact ⟨by simp [Thread.mark], hkw⟩

end Sys2Proof.Machine
end

