-- ==== Sys2Proof/Laws/Mem.lean ====
section
/-! SUPPORT. What a write of one line leaves alone: the bytes and the metadata of every other line, the functions and the keys. -/

namespace Sys2Proof.Machine

theorem foldl_set_other (m : Tbl 8) (base : Nat) (mask : BitVec 128) (data : BitVec 1024) (is : List Nat) (pa : Nat) (h : ∀ i ∈ is, base + i ≠ pa) :
    Tbl.get (is.foldl (fun m i => if mask.getLsbD i then Tbl.set m (base + i) (byteOf data i) else m) m) pa = Tbl.get m pa := by
  induction is generalizing m with
  | nil => rfl
  | cons i t ih =>
    rw [List.foldl_cons, ih _ (fun j hj => h j (by simp [hj]))]
    split
    · exact Tbl.get_set_ne _ _ (fun e => h i (by simp) e.symm)
    · rfl

/-- Two states agree on every line but one: on its bytes, its metadata, and on functions and keys. -/
structure OtherLines (ln : Nat) (s t : State) : Prop where
  funcs : t.funcs = s.funcs
  keys : t.keys = s.keys
  line : ∀ j, j ≠ ln → Assoc.find t.lines j = Assoc.find s.lines j
  byte : ∀ pa, pa / 128 ≠ ln → Tbl.get t.mem pa = Tbl.get s.mem pa
  queue : ∀ pa, pa / 128 ≠ ln → queuedByte t.mod.linkQ pa = queuedByte s.mod.linkQ pa

theorem OtherLines.refl (ln : Nat) (s : State) : OtherLines ln s s := by constructor <;> intros <;> rfl

theorem OtherLines.trans {ln : Nat} {s t u : State} (a : OtherLines ln s t) (b : OtherLines ln t u) : OtherLines ln s u :=
  ⟨b.funcs.trans a.funcs, b.keys.trans a.keys, fun j h => (b.line j h).trans (a.line j h), fun p h => (b.byte p h).trans (a.byte p h), fun p h => (b.queue p h).trans (a.queue p h)⟩

theorem OtherLines.claimLine (s : State) (key ln : Nat) : OtherLines ln s (s.claimLine key ln) := by
  unfold State.claimLine
  split
  · exact { OtherLines.refl ln s with line := fun j h => Assoc.find_put_ne _ _ h }
  · split
    · exact OtherLines.refl ln s
    · refine { OtherLines.refl ln s with line := fun j h => Assoc.find_put_ne _ _ h, byte := fun pa h => ?_ }
      refine Tbl.get_setN_out _ _ _ _ ?_
      simp only [State.bytesAt, List.length_map, List.length_range]
      omega

theorem OtherLines.putMasked (s : State) (key ln : Nat) (mask : BitVec 128) (data : BitVec 1024) : OtherLines ln s (s.putMasked key ln mask data) := by
  have h1 : OtherLines ln s (if isLpddr (ln * 128) then s.claimLine key ln else s) := by
    split
    · exact OtherLines.claimLine s key ln
    · exact OtherLines.refl ln s
  refine h1.trans ⟨rfl, rfl, fun j h => ?_, fun pa h => ?_, fun _ _ => rfl⟩
  · simp only [State.putMasked]
    split
    · split
      · exact Assoc.find_put_ne _ _ h
      · rfl
    · rfl
  · simp only [State.putMasked]
    refine foldl_set_other _ _ _ _ _ _ (fun i hi e => h ?_)
    have := List.mem_range.mp hi
    omega

theorem OtherLines.writeMasked (s : State) (key ln : Nat) (mask : BitVec 128) (data : BitVec 1024) : OtherLines ln s (s.writeMasked key ln mask data) := by
  unfold State.writeMasked
  split
  · refine { OtherLines.refl ln s with queue := fun pa h => ?_ }
    have hne : ln ≠ pa / 128 := fun e => h e.symm
    simp only [queuedByte, State.updMod, List.foldl_append, List.foldl_cons, List.foldl_nil, hne, false_and, if_false]
  · exact OtherLines.putMasked s key ln mask data

/-- A byte of another line reads as before, under every key. -/
theorem OtherLines.byteAt {ln : Nat} {s t : State} (h : OtherLines ln s t) (key pa : Nat) (hp : pa / 128 ≠ ln) : t.byteAt key pa = s.byteAt key pa := by
  have hk : t.keyGen key = s.keyGen key := by simp only [State.keyGen, State.key, h.keys]
  have hl : Tbl.getN t.mem (pa / 128 * 128) 128 = Tbl.getN s.mem (pa / 128 * 128) 128 := by
    simp only [Tbl.getN]
    refine List.map_congr_left (fun i hi => h.byte _ ?_)
    have := List.mem_range.mp hi
    omega
  unfold State.byteAt State.lineUnder
  rw [h.line _ hp, h.byte _ hp, h.queue _ hp, hk, hl]

theorem OtherLines.poisoned {ln : Nat} {s t : State} (h : OtherLines ln s t) {j : Nat} (hj : j ≠ ln) : t.poisoned j = s.poisoned j := by
  simp only [State.poisoned, h.line _ hj]

end Sys2Proof.Machine
end

