-- ==== Sys2Proof/Laws/PerInstr.lean ====
section
/-! SUPPORT. Of every instruction: its word fits in its bits, and its major opcode, switch marker and guard read back from it (R50 to R61, R191). -/

namespace Sys2Proof.Machine

/-- The major opcode of an encoding. -/
def Enc.major : Enc → Nat
  | .r major _ _ => major
  | .p major _ _ => major
  | .pfn _ => 0x1A
  | .fence _ | .fenceX _ | .phase _ => 0x65
  | .retSet _ _ | .retClr _ _ => 0x66
  | .i major _ _ => major
  | .m major _ _ => major
  | .b major _ => major
  | .x major _ _ => major
  | .w major _ _ => major
  | .u op _ _ _ => op
  | .nothing => 0

/-- Opcode and minor lie within their fields. -/
def Enc.fits : Enc → Prop
  | .r major minor _ | .p major minor _ => major < 128 ∧ minor < 256
  | .i major minor _ | .w major minor _ => major < 128 ∧ minor < 4
  | .m major op _ => major < 128 ∧ op < 16
  | .b major _ => major < 128
  | .x major cmd _ => major < 128 ∧ cmd < 128
  | .u op sel imm target => op < 16 ∧ sel < 8 ∧ imm < 256 ∧ target < 64
  | _ => True


theorem Src.num_lt (s : Src) : Src.num s < 512 := by
  cases s with
  | v r => simp only [Src.num]; omega
  | w r => simp only [Src.num]; omega
  | sr x => cases x <;> simp [Src.num, Special.ctorIdx]
  | inl k => simp only [Src.num]; omega

theorem b2n_lt (b : Bool) : b2n b < 2 := by cases b <;> simp [b2n]
theorem Ty.code_lt (t : Ty) : Ty.code t < 18 := by cases t <;> simp [Ty.code, Ty.ctorIdx]
theorem Scope.code_lt (x : Scope) : Scope.code x < 8 := by cases x <;> simp [Scope.code, Scope.ctorIdx]
theorem Ord.code_lt (x : Ord) : Ord.code x < 4 := by cases x <;> simp [Ord.code, Ord.ctorIdx]
theorem Rnd.ctorIdx_lt (x : Rnd) : x.ctorIdx < 4 := by cases x <;> simp [Rnd.ctorIdx]

theorem mLow_lt (major op : Nat) (o : MOp) (h : op < 16) : mLow major op o < 2 ^ 14 := by
  have := Ty.code_lt o.ty
  have := o.off.isLt
  unfold mLow
  split <;> omega

theorem mB_lt (major : Nat) (o : MOp) : mB major o < 2 ^ 9 := by
  have := Ty.code_lt o.ty
  have := Src.num_lt o.b
  have := b2n_lt o.dir
  unfold mB
  split <;> omega

/-- Header bits above a body that fits read back. -/
theorem hdr_reads (major : Nat) (h : Hdr) (x : Nat) (hm : major < 128) (hx : x < 2 ^ 52) :
    hdrBits major h + x < 2 ^ 64 ∧ fld (hdrBits major h + x) 56 7 = major ∧ hdrOf (hdrBits major h + x) = h := by
  obtain ⟨sw, neg, p⟩ := h
  have hp := p.isLt
  have e1 := b2n_lt sw
  have e2 := b2n_lt neg
  refine ⟨?_, ?_, ?_⟩
  · unfold hdrBits; simp only; omega
  · unfold fld hdrBits; simp only; omega
  · have a1 : fbit (hdrBits major ⟨sw, neg, p⟩ + x) 63 = sw := by
      unfold fbit hdrBits; cases sw <;> simp only [b2n, decide_eq_true_eq, decide_eq_false_iff_not, Bool.false_eq_true, if_true, if_false] at * <;> omega
    have a2 : fbit (hdrBits major ⟨sw, neg, p⟩ + x) 55 = neg := by
      unfold fbit hdrBits; cases neg <;> simp only [b2n, decide_eq_true_eq, decide_eq_false_iff_not, Bool.false_eq_true, if_true, if_false] at * <;> omega
    have a3 : fld (hdrBits major ⟨sw, neg, p⟩ + x) 52 3 = p.val := by
      unfold fld hdrBits; simp only; omega
    unfold hdrOf
    rw [a1, a2, a3]
    simp only [Hdr.mk.injEq, Guard.mk.injEq, true_and]
    exact Fin.ext (Nat.mod_eq_of_lt hp)

/-- A word is its header bits and a body of 52 bits. -/
theorem Enc.word_split (e : Enc) (h : Hdr) (hh : e.hdr = some h) (hf : e.fits) : ∃ x, x < 2 ^ 52 ∧ e.word = hdrBits e.major h + x := by
  cases e <;> simp only [Enc.hdr, Option.some.injEq, reduceCtorEq, Enc.fits] at hh hf <;> subst hh <;> simp only [Enc.word, Enc.major, Nat.add_assoc] <;> refine ⟨_, ?_, rfl⟩
  case r major minor o =>
    have := Src.num_lt o.d; have := Src.num_lt o.a; have := Src.num_lt o.b; have := Src.num_lt o.c; have := Rnd.ctorIdx_lt o.rnd; have := b2n_lt o.ftz; have := Ty.code_lt o.ty
    omega
  case p major minor o =>
    have := Src.num_lt o.a; have := Src.num_lt o.b; have := b2n_lt o.ftz; have := Ty.code_lt o.ty
    omega
  case pfn o => have := o.tab.isLt; omega
  case fence o => have := Ord.code_lt o.ord; have := Scope.code_lt o.scope; omega
  case fenceX o => have := o.ps.isLt; have := o.pd.isLt; have := Scope.code_lt o.scope; omega
  case phase => omega
  case retSet k o => have := Src.num_lt o.a; have := Src.num_lt o.b; omega
  case retClr k o => omega
  case i major minor o => have := Src.num_lt o.d; have := Src.num_lt o.a; have := o.imm.isLt; omega
  case m major op o =>
    have := Src.num_lt o.d; have := Src.num_lt o.a; have := mB_lt major o; have := mLow_lt major op o hf.2; have := Ord.code_lt o.ord; have := Scope.code_lt o.scope
    omega
  case b major o => have := Src.num_lt o.link; have := b2n_lt o.cond.neg; have := o.disp.isLt; omega
  case x major cmd o =>
    have := Src.num_lt o.d; have := Src.num_lt o.a; have := Src.num_lt o.b; have := Src.num_lt o.c; have := Scope.code_lt o.scope
    omega
  case w major minor o => have := Src.num_lt o.d; have := Src.num_lt o.a; omega

end Sys2Proof.Machine

namespace Sys2Proof.Laws

open Sys2Proof.Machine

/-- The word of an instruction fits in its bits, and what every word carries reads back from it: the major opcode, the switch marker and the guard. -/
def Encoding.Statement (i : Instr) : Prop :=
  match (toEnc i).hdr with
  | some h => (toEnc i).word < 2 ^ 64 ∧ fld (toEnc i).word 56 7 = (toEnc i).major ∧ hdrOf (toEnc i).word = h
  | none => (toEnc i).word < 2 ^ 32 ∧ fld (toEnc i).word 28 4 = (toEnc i).major

theorem Encoding.of_fits (i : Instr) (h : (toEnc i).fits) (hn : (toEnc i).hdr ≠ none) : Encoding.Statement i := by
  unfold Encoding.Statement
  cases e : (toEnc i).hdr with
  | none => exact absurd e hn
  | some hd =>
    obtain ⟨x, hx, hw⟩ := (toEnc i).word_split hd e h
    have hm : (toEnc i).major < 128 := by
      revert h; generalize toEnc i = q; intro h
      cases q <;> simp only [Enc.fits, Enc.major] at * <;> omega
    simpa only [hw] using hdr_reads (toEnc i).major hd x hm hx

theorem Encoding.of_micro (i : Instr) (op sel imm target : Nat) (e : toEnc i = .u op sel imm target) (h : op < 16 ∧ sel < 8 ∧ imm < 256 ∧ target < 64) : Encoding.Statement i := by
  unfold Encoding.Statement
  rw [e]
  simp only [Enc.hdr, Enc.word, Enc.major, fld]
  omega

theorem Encoding.of_event (i : Instr) (e : toEnc i = .nothing) : Encoding.Statement i := by
  unfold Encoding.Statement
  rw [e]
  exact ⟨by decide, by decide⟩

theorem Encoding.nop (o : ROp) : Encoding.Statement (.nop o) := Encoding.of_fits _ ⟨by decide, by decide⟩ nofun
theorem Encoding.bra (o : BOp) : Encoding.Statement (.bra o) := Encoding.of_fits _ (by show _ < _; decide) nofun
theorem Encoding.bru (o : BOp) : Encoding.Statement (.bru o) := Encoding.of_fits _ (by show _ < _; decide) nofun
theorem Encoding.brx (o : ROp) : Encoding.Statement (.brx o) := Encoding.of_fits _ ⟨by decide, by decide⟩ nofun
theorem Encoding.call (o : BOp) : Encoding.Statement (.call o) := Encoding.of_fits _ (by show _ < _; decide) nofun
theorem Encoding.callx (o : ROp) : Encoding.Statement (.callx o) := Encoding.of_fits _ ⟨by decide, by decide⟩ nofun
theorem Encoding.ret (o : ROp) : Encoding.Statement (.ret o) := Encoding.of_fits _ ⟨by decide, by decide⟩ nofun
theorem Encoding.exit (o : ROp) : Encoding.Statement (.exit o) := Encoding.of_fits _ ⟨by decide, by decide⟩ nofun
theorem Encoding.yield (o : ROp) : Encoding.Statement (.yield o) := Encoding.of_fits _ ⟨by decide, by decide⟩ nofun
theorem Encoding.cvg (o : ROp) : Encoding.Statement (.cvg o) := Encoding.of_fits _ ⟨by decide, by decide⟩ nofun
theorem Encoding.mov64 (o : WOp) : Encoding.Statement (.mov64 o) := Encoding.of_fits _ ⟨by decide, by decide⟩ nofun
theorem Encoding.addW (o : WOp) : Encoding.Statement (.addW o) := Encoding.of_fits _ ⟨by decide, by decide⟩ nofun
theorem Encoding.andW (o : WOp) : Encoding.Statement (.andW o) := Encoding.of_fits _ ⟨by decide, by decide⟩ nofun
theorem Encoding.orW (o : WOp) : Encoding.Statement (.orW o) := Encoding.of_fits _ ⟨by decide, by decide⟩ nofun
theorem Encoding.xorW (o : WOp) : Encoding.Statement (.xorW o) := Encoding.of_fits _ ⟨by decide, by decide⟩ nofun
theorem Encoding.add (o : ROp) : Encoding.Statement (.add o) := Encoding.of_fits _ ⟨by decide, by decide⟩ nofun
theorem Encoding.sub (o : ROp) : Encoding.Statement (.sub o) := Encoding.of_fits _ ⟨by decide, by decide⟩ nofun
theorem Encoding.neg (o : ROp) : Encoding.Statement (.neg o) := Encoding.of_fits _ ⟨by decide, by decide⟩ nofun
theorem Encoding.addc (o : ROp) : Encoding.Statement (.addc o) := Encoding.of_fits _ ⟨by decide, by decide⟩ nofun
theorem Encoding.subb (o : ROp) : Encoding.Statement (.subb o) := Encoding.of_fits _ ⟨by decide, by decide⟩ nofun
theorem Encoding.abs (o : ROp) : Encoding.Statement (.abs o) := Encoding.of_fits _ ⟨by decide, by decide⟩ nofun
theorem Encoding.min (o : ROp) : Encoding.Statement (.min o) := Encoding.of_fits _ ⟨by decide, by decide⟩ nofun
theorem Encoding.max (o : ROp) : Encoding.Statement (.max o) := Encoding.of_fits _ ⟨by decide, by decide⟩ nofun
theorem Encoding.sad (o : ROp) : Encoding.Statement (.sad o) := Encoding.of_fits _ ⟨by decide, by decide⟩ nofun
theorem Encoding.mul (o : ROp) : Encoding.Statement (.mul o) := Encoding.of_fits _ ⟨by decide, by decide⟩ nofun
theorem Encoding.mulh (o : ROp) : Encoding.Statement (.mulh o) := Encoding.of_fits _ ⟨by decide, by decide⟩ nofun
theorem Encoding.mad (o : ROp) : Encoding.Statement (.mad o) := Encoding.of_fits _ ⟨by decide, by decide⟩ nofun
theorem Encoding.madw (o : ROp) : Encoding.Statement (.madw o) := Encoding.of_fits _ ⟨by decide, by decide⟩ nofun
theorem Encoding.dot4 (o : ROp) : Encoding.Statement (.dot4 o) := Encoding.of_fits _ ⟨by decide, by decide⟩ nofun
theorem Encoding.div (o : ROp) : Encoding.Statement (.div o) := Encoding.of_fits _ ⟨by decide, by decide⟩ nofun
theorem Encoding.rem (o : ROp) : Encoding.Statement (.rem o) := Encoding.of_fits _ ⟨by decide, by decide⟩ nofun
theorem Encoding.and (o : ROp) : Encoding.Statement (.and o) := Encoding.of_fits _ ⟨by decide, by decide⟩ nofun
theorem Encoding.or (o : ROp) : Encoding.Statement (.or o) := Encoding.of_fits _ ⟨by decide, by decide⟩ nofun
theorem Encoding.xor (o : ROp) : Encoding.Statement (.xor o) := Encoding.of_fits _ ⟨by decide, by decide⟩ nofun
theorem Encoding.bitf (tab : Byte) (o : ROp) : Encoding.Statement (.bitf tab o) := Encoding.of_fits _ (by exact ⟨by decide, tab.isLt⟩) nofun
theorem Encoding.shl (o : ROp) : Encoding.Statement (.shl o) := Encoding.of_fits _ ⟨by decide, by decide⟩ nofun
theorem Encoding.shr (o : ROp) : Encoding.Statement (.shr o) := Encoding.of_fits _ ⟨by decide, by decide⟩ nofun
theorem Encoding.sar (o : ROp) : Encoding.Statement (.sar o) := Encoding.of_fits _ ⟨by decide, by decide⟩ nofun
theorem Encoding.shf (o : ROp) : Encoding.Statement (.shf o) := Encoding.of_fits _ ⟨by decide, by decide⟩ nofun
theorem Encoding.bfe (o : ROp) : Encoding.Statement (.bfe o) := Encoding.of_fits _ ⟨by decide, by decide⟩ nofun
theorem Encoding.bfi (o : ROp) : Encoding.Statement (.bfi o) := Encoding.of_fits _ ⟨by decide, by decide⟩ nofun
theorem Encoding.prmt (o : ROp) : Encoding.Statement (.prmt o) := Encoding.of_fits _ ⟨by decide, by decide⟩ nofun
theorem Encoding.popc (o : ROp) : Encoding.Statement (.popc o) := Encoding.of_fits _ ⟨by decide, by decide⟩ nofun
theorem Encoding.clz (o : ROp) : Encoding.Statement (.clz o) := Encoding.of_fits _ ⟨by decide, by decide⟩ nofun
theorem Encoding.ctz (o : ROp) : Encoding.Statement (.ctz o) := Encoding.of_fits _ ⟨by decide, by decide⟩ nofun
theorem Encoding.brev (o : ROp) : Encoding.Statement (.brev o) := Encoding.of_fits _ ⟨by decide, by decide⟩ nofun
theorem Encoding.sel (neg : Bool) (p : Fin 8) (o : ROp) : Encoding.Statement (.sel neg p o) := Encoding.of_fits _ (by have := p.isLt; exact ⟨by decide, by split <;> omega⟩) nofun
theorem Encoding.setp (cmp : ICmp) (o : POp) : Encoding.Statement (.setp cmp o) := Encoding.of_fits _ (by cases cmp <;> exact ⟨by decide, by decide⟩) nofun
theorem Encoding.pfn (o : PfnOp) : Encoding.Statement (.pfn o) := Encoding.of_fits _ trivial nofun
theorem Encoding.mov (o : ROp) : Encoding.Statement (.mov o) := Encoding.of_fits _ ⟨by decide, by decide⟩ nofun
theorem Encoding.lea (o : ROp) : Encoding.Statement (.lea o) := Encoding.of_fits _ ⟨by decide, by decide⟩ nofun
theorem Encoding.addI (o : IOp) : Encoding.Statement (.addI o) := Encoding.of_fits _ ⟨by decide, by decide⟩ nofun
theorem Encoding.mulI (o : IOp) : Encoding.Statement (.mulI o) := Encoding.of_fits _ ⟨by decide, by decide⟩ nofun
theorem Encoding.andI (o : IOp) : Encoding.Statement (.andI o) := Encoding.of_fits _ ⟨by decide, by decide⟩ nofun
theorem Encoding.orI (o : IOp) : Encoding.Statement (.orI o) := Encoding.of_fits _ ⟨by decide, by decide⟩ nofun
theorem Encoding.xorI (o : IOp) : Encoding.Statement (.xorI o) := Encoding.of_fits _ ⟨by decide, by decide⟩ nofun
theorem Encoding.shlI (o : IOp) : Encoding.Statement (.shlI o) := Encoding.of_fits _ ⟨by decide, by decide⟩ nofun
theorem Encoding.shrI (o : IOp) : Encoding.Statement (.shrI o) := Encoding.of_fits _ ⟨by decide, by decide⟩ nofun
theorem Encoding.sarI (o : IOp) : Encoding.Statement (.sarI o) := Encoding.of_fits _ ⟨by decide, by decide⟩ nofun
theorem Encoding.minI (unsigned : Bool) (o : IOp) : Encoding.Statement (.minI unsigned o) := Encoding.of_fits _ (by cases unsigned <;> exact ⟨by decide, by decide⟩) nofun
theorem Encoding.maxI (unsigned : Bool) (o : IOp) : Encoding.Statement (.maxI unsigned o) := Encoding.of_fits _ (by cases unsigned <;> exact ⟨by decide, by decide⟩) nofun
theorem Encoding.movi (o : IOp) : Encoding.Statement (.movi o) := Encoding.of_fits _ ⟨by decide, by decide⟩ nofun
theorem Encoding.fadd (o : ROp) : Encoding.Statement (.fadd o) := Encoding.of_fits _ ⟨by decide, by decide⟩ nofun
theorem Encoding.fmul (o : ROp) : Encoding.Statement (.fmul o) := Encoding.of_fits _ ⟨by decide, by decide⟩ nofun
theorem Encoding.ffma (o : ROp) : Encoding.Statement (.ffma o) := Encoding.of_fits _ ⟨by decide, by decide⟩ nofun
theorem Encoding.fmin (o : ROp) : Encoding.Statement (.fmin o) := Encoding.of_fits _ ⟨by decide, by decide⟩ nofun
theorem Encoding.fmax (o : ROp) : Encoding.Statement (.fmax o) := Encoding.of_fits _ ⟨by decide, by decide⟩ nofun
theorem Encoding.fsetp (cmp : FCmp) (o : POp) : Encoding.Statement (.fsetp cmp o) := Encoding.of_fits _ (by cases cmp <;> exact ⟨by decide, by decide⟩) nofun
theorem Encoding.fdiv (o : ROp) : Encoding.Statement (.fdiv o) := Encoding.of_fits _ ⟨by decide, by decide⟩ nofun
theorem Encoding.frcp (o : ROp) : Encoding.Statement (.frcp o) := Encoding.of_fits _ ⟨by decide, by decide⟩ nofun
theorem Encoding.frsq (o : ROp) : Encoding.Statement (.frsq o) := Encoding.of_fits _ ⟨by decide, by decide⟩ nofun
theorem Encoding.fsqrt (o : ROp) : Encoding.Statement (.fsqrt o) := Encoding.of_fits _ ⟨by decide, by decide⟩ nofun
theorem Encoding.fex2 (o : ROp) : Encoding.Statement (.fex2 o) := Encoding.of_fits _ ⟨by decide, by decide⟩ nofun
theorem Encoding.flg2 (o : ROp) : Encoding.Statement (.flg2 o) := Encoding.of_fits _ ⟨by decide, by decide⟩ nofun
theorem Encoding.fsin (o : ROp) : Encoding.Statement (.fsin o) := Encoding.of_fits _ ⟨by decide, by decide⟩ nofun
theorem Encoding.fcos (o : ROp) : Encoding.Statement (.fcos o) := Encoding.of_fits _ ⟨by decide, by decide⟩ nofun
theorem Encoding.ftnh (o : ROp) : Encoding.Statement (.ftnh o) := Encoding.of_fits _ ⟨by decide, by decide⟩ nofun
theorem Encoding.frnd (o : ROp) : Encoding.Statement (.frnd o) := Encoding.of_fits _ ⟨by decide, by decide⟩ nofun
theorem Encoding.fdot2 (o : ROp) : Encoding.Statement (.fdot2 o) := Encoding.of_fits _ ⟨by decide, by decide⟩ nofun
theorem Encoding.fclass (o : ROp) : Encoding.Statement (.fclass o) := Encoding.of_fits _ ⟨by decide, by decide⟩ nofun
theorem Encoding.cvt (sub : Fin 4) (src : Ty) (o : ROp) : Encoding.Statement (.cvt sub src o) := Encoding.of_fits _ (by have := sub.isLt; have := Ty.code_lt src; exact ⟨by decide, by omega⟩) nofun
theorem Encoding.pack (o : ROp) : Encoding.Statement (.pack o) := Encoding.of_fits _ ⟨by decide, by decide⟩ nofun
theorem Encoding.qnt (sub : Fin 4) (xs : Bool) (o : ROp) : Encoding.Statement (.qnt sub xs o) := Encoding.of_fits _ (by have := sub.isLt; exact ⟨by decide, by split <;> omega⟩) nofun
theorem Encoding.dqn (xs : Bool) (o : ROp) : Encoding.Statement (.dqn xs o) := Encoding.of_fits _ (by cases xs <;> exact ⟨by decide, by decide⟩) nofun
theorem Encoding.faddI (rnd : Rnd) (o : IOp) : Encoding.Statement (.faddI rnd o) := Encoding.of_fits _ (by cases rnd <;> exact ⟨by decide, by decide⟩) nofun
theorem Encoding.fmulI (rnd : Rnd) (o : IOp) : Encoding.Statement (.fmulI rnd o) := Encoding.of_fits _ (by cases rnd <;> exact ⟨by decide, by decide⟩) nofun
theorem Encoding.fminI (o : IOp) : Encoding.Statement (.fminI o) := Encoding.of_fits _ ⟨by decide, by decide⟩ nofun
theorem Encoding.fmaxI (o : IOp) : Encoding.Statement (.fmaxI o) := Encoding.of_fits _ ⟨by decide, by decide⟩ nofun
theorem Encoding.xch (m : XchMode) (o : ROp) : Encoding.Statement (.xch m o) := Encoding.of_fits _ (by cases m <;> exact ⟨by decide, by decide⟩) nofun
theorem Encoding.agr (m : AgrMode) (o : ROp) : Encoding.Statement (.agr m o) := Encoding.of_fits _ (by cases m <;> exact ⟨by decide, by decide⟩) nofun
theorem Encoding.bal (o : ROp) : Encoding.Statement (.bal o) := Encoding.of_fits _ ⟨by decide, by decide⟩ nofun
theorem Encoding.scan (op : ScanOp) (exc : Bool) (o : ROp) : Encoding.Statement (.scan op exc o) := Encoding.of_fits _ (by cases op <;> cases exc <;> exact ⟨by decide, by decide⟩) nofun
theorem Encoding.redw (op : RedOp) (o : ROp) : Encoding.Statement (.redw op o) := Encoding.of_fits _ (by cases op <;> exact ⟨by decide, by decide⟩) nofun
theorem Encoding.matchSeats (all : Bool) (o : ROp) : Encoding.Statement (.matchSeats all o) := Encoding.of_fits _ (by cases all <;> exact ⟨by decide, by decide⟩) nofun
theorem Encoding.elect (o : ROp) : Encoding.Statement (.elect o) := Encoding.of_fits _ ⟨by decide, by decide⟩ nofun
theorem Encoding.xbar (k : Fin 16) (o : ROp) : Encoding.Statement (.xbar k o) := Encoding.of_fits _ (by have := k.isLt; exact ⟨by decide, by omega⟩) nofun
theorem Encoding.xbarLd (k : Fin 16) (o : ROp) : Encoding.Statement (.xbarLd k o) := Encoding.of_fits _ (by have := k.isLt; exact ⟨by decide, by omega⟩) nofun
theorem Encoding.ld (o : MOp) : Encoding.Statement (.ld o) := Encoding.of_fits _ ⟨by decide, by decide⟩ nofun
theorem Encoding.st (o : MOp) : Encoding.Statement (.st o) := Encoding.of_fits _ ⟨by decide, by decide⟩ nofun
theorem Encoding.ldl (o : MOp) : Encoding.Statement (.ldl o) := Encoding.of_fits _ ⟨by decide, by decide⟩ nofun
theorem Encoding.stl (o : MOp) : Encoding.Statement (.stl o) := Encoding.of_fits _ ⟨by decide, by decide⟩ nofun
theorem Encoding.ldlTile (o : MOp) : Encoding.Statement (.ldlTile o) := Encoding.of_fits _ ⟨by decide, by decide⟩ nofun
theorem Encoding.atom (op : AtomOp) (o : MOp) : Encoding.Statement (.atom op o) := Encoding.of_fits _ (by cases op <;> exact ⟨by decide, by decide⟩) nofun
theorem Encoding.atomx (o : MOp) : Encoding.Statement (.atomx o) := Encoding.of_fits _ ⟨by decide, by decide⟩ nofun
theorem Encoding.atl (op : AtomOp) (o : MOp) : Encoding.Statement (.atl op o) := Encoding.of_fits _ (by cases op <;> exact ⟨by decide, by decide⟩) nofun
theorem Encoding.ldlk (o : MOp) : Encoding.Statement (.ldlk o) := Encoding.of_fits _ ⟨by decide, by decide⟩ nofun
theorem Encoding.stul (o : MOp) : Encoding.Statement (.stul o) := Encoding.of_fits _ ⟨by decide, by decide⟩ nofun
theorem Encoding.prf (o : MOp) : Encoding.Statement (.prf o) := Encoding.of_fits _ ⟨by decide, by decide⟩ nofun
theorem Encoding.clWb (o : MOp) : Encoding.Statement (.clWb o) := Encoding.of_fits _ ⟨by decide, by decide⟩ nofun
theorem Encoding.clInv (o : MOp) : Encoding.Statement (.clInv o) := Encoding.of_fits _ ⟨by decide, by decide⟩ nofun
theorem Encoding.fence (o : FenceOp) : Encoding.Statement (.fence o) := Encoding.of_fits _ trivial nofun
theorem Encoding.fenceX (o : FenceXOp) : Encoding.Statement (.fenceX o) := Encoding.of_fits _ trivial nofun
theorem Encoding.phase (h : Hdr) : Encoding.Statement (.phase h) := Encoding.of_fits _ trivial nofun
theorem Encoding.retSet (k : Fin 4) (o : RetOp) : Encoding.Statement (.retSet k o) := Encoding.of_fits _ trivial nofun
theorem Encoding.retClr (k : Fin 4) (h : Hdr) : Encoding.Statement (.retClr k h) := Encoding.of_fits _ trivial nofun
theorem Encoding.chbInit (o : ROp) : Encoding.Statement (.chbInit o) := Encoding.of_fits _ ⟨by decide, by decide⟩ nofun
theorem Encoding.chbExpect (o : ROp) : Encoding.Statement (.chbExpect o) := Encoding.of_fits _ ⟨by decide, by decide⟩ nofun
theorem Encoding.chbArrive (o : ROp) : Encoding.Statement (.chbArrive o) := Encoding.of_fits _ ⟨by decide, by decide⟩ nofun
theorem Encoding.chbWait (o : ROp) : Encoding.Statement (.chbWait o) := Encoding.of_fits _ ⟨by decide, by decide⟩ nofun
theorem Encoding.chbTest (o : ROp) : Encoding.Statement (.chbTest o) := Encoding.of_fits _ ⟨by decide, by decide⟩ nofun
theorem Encoding.chbRetire (o : ROp) : Encoding.Statement (.chbRetire o) := Encoding.of_fits _ ⟨by decide, by decide⟩ nofun
theorem Encoding.gAdd (o : MOp) : Encoding.Statement (.gAdd o) := Encoding.of_fits _ ⟨by decide, by decide⟩ nofun
theorem Encoding.gWait (o : MOp) : Encoding.Statement (.gWait o) := Encoding.of_fits _ ⟨by decide, by decide⟩ nofun
theorem Encoding.gRead (o : MOp) : Encoding.Statement (.gRead o) := Encoding.of_fits _ ⟨by decide, by decide⟩ nofun
theorem Encoding.cpEl (wlog : Fin 3) (o : XOp) : Encoding.Statement (.cpEl wlog o) := Encoding.of_fits _ (by have := wlog.isLt; exact ⟨by decide, by omega⟩) nofun
theorem Encoding.cpBlk (o : XOp) : Encoding.Statement (.cpBlk o) := Encoding.of_fits _ ⟨by decide, by decide⟩ nofun
theorem Encoding.cpIng (o : XOp) : Encoding.Statement (.cpIng o) := Encoding.of_fits _ ⟨by decide, by decide⟩ nofun
theorem Encoding.mxIssue (o : XOp) : Encoding.Statement (.mxIssue o) := Encoding.of_fits _ ⟨by decide, by decide⟩ nofun
theorem Encoding.mxStat (o : XOp) : Encoding.Statement (.mxStat o) := Encoding.of_fits _ ⟨by decide, by decide⟩ nofun
theorem Encoding.mxAbort (o : XOp) : Encoding.Statement (.mxAbort o) := Encoding.of_fits _ ⟨by decide, by decide⟩ nofun
theorem Encoding.trvBind (o : XOp) : Encoding.Statement (.trvBind o) := Encoding.of_fits _ ⟨by decide, by decide⟩ nofun
theorem Encoding.trvCast (o : XOp) : Encoding.Statement (.trvCast o) := Encoding.of_fits _ ⟨by decide, by decide⟩ nofun
theorem Encoding.trvPoll (o : XOp) : Encoding.Statement (.trvPoll o) := Encoding.of_fits _ ⟨by decide, by decide⟩ nofun
theorem Encoding.trvRes (o : XOp) : Encoding.Statement (.trvRes o) := Encoding.of_fits _ ⟨by decide, by decide⟩ nofun
theorem Encoding.trvCont (o : XOp) : Encoding.Statement (.trvCont o) := Encoding.of_fits _ ⟨by decide, by decide⟩ nofun
theorem Encoding.trvSave (o : XOp) : Encoding.Statement (.trvSave o) := Encoding.of_fits _ ⟨by decide, by decide⟩ nofun
theorem Encoding.trvLoad (o : XOp) : Encoding.Statement (.trvLoad o) := Encoding.of_fits _ ⟨by decide, by decide⟩ nofun
theorem Encoding.subOpen (o : XOp) : Encoding.Statement (.subOpen o) := Encoding.of_fits _ ⟨by decide, by decide⟩ nofun
theorem Encoding.subClose (o : XOp) : Encoding.Statement (.subClose o) := Encoding.of_fits _ ⟨by decide, by decide⟩ nofun
theorem Encoding.subFlush (o : XOp) : Encoding.Statement (.subFlush o) := Encoding.of_fits _ ⟨by decide, by decide⟩ nofun
theorem Encoding.subStat (o : XOp) : Encoding.Statement (.subStat o) := Encoding.of_fits _ ⟨by decide, by decide⟩ nofun
theorem Encoding.logMark (o : ROp) : Encoding.Statement (.logMark o) := Encoding.of_fits _ ⟨by decide, by decide⟩ nofun
theorem Encoding.lnch (o : XOp) : Encoding.Statement (.lnch o) := Encoding.of_fits _ ⟨by decide, by decide⟩ nofun
theorem Encoding.rqPut (o : XOp) : Encoding.Statement (.rqPut o) := Encoding.of_fits _ ⟨by decide, by decide⟩ nofun
theorem Encoding.rqGet (o : XOp) : Encoding.Statement (.rqGet o) := Encoding.of_fits _ ⟨by decide, by decide⟩ nofun
theorem Encoding.rqDone (o : XOp) : Encoding.Statement (.rqDone o) := Encoding.of_fits _ ⟨by decide, by decide⟩ nofun
theorem Encoding.csrRd (o : IOp) : Encoding.Statement (.csrRd o) := Encoding.of_fits _ ⟨by decide, by decide⟩ nofun
theorem Encoding.csrWr (o : IOp) : Encoding.Statement (.csrWr o) := Encoding.of_fits _ ⟨by decide, by decide⟩ nofun
theorem Encoding.trap (o : IOp) : Encoding.Statement (.trap o) := Encoding.of_fits _ ⟨by decide, by decide⟩ nofun
theorem Encoding.tret (o : ROp) : Encoding.Statement (.tret o) := Encoding.of_fits _ ⟨by decide, by decide⟩ nofun
theorem Encoding.brk (o : ROp) : Encoding.Statement (.brk o) := Encoding.of_fits _ ⟨by decide, by decide⟩ nofun
theorem Encoding.halt (o : ROp) : Encoding.Statement (.halt o) := Encoding.of_fits _ ⟨by decide, by decide⟩ nofun
theorem Encoding.uopNop : Encoding.Statement .uopNop := Encoding.of_micro _ _ _ _ _ rfl (by decide)
theorem Encoding.uopFetch : Encoding.Statement .uopFetch := Encoding.of_micro _ _ _ _ _ rfl (by decide)
theorem Encoding.uopBox : Encoding.Statement .uopBox := Encoding.of_micro _ _ _ _ _ rfl (by decide)
theorem Encoding.uopSort (desc : Bool) : Encoding.Statement (.uopSort desc) := Encoding.of_micro _ _ _ _ _ rfl (by cases desc <;> decide)
theorem Encoding.uopPushh : Encoding.Statement .uopPushh := Encoding.of_micro _ _ _ _ _ rfl (by decide)
theorem Encoding.uopPushn : Encoding.Statement .uopPushn := Encoding.of_micro _ _ _ _ _ rfl (by decide)
theorem Encoding.uopTake : Encoding.Statement .uopTake := Encoding.of_micro _ _ _ _ _ rfl (by decide)
theorem Encoding.uopPop (target : Fin 64) : Encoding.Statement (.uopPop target) := Encoding.of_micro _ _ _ _ _ rfl (by have := target.isLt; omega)
theorem Encoding.uopTri : Encoding.Statement .uopTri := Encoding.of_micro _ _ _ _ _ rfl (by decide)
theorem Encoding.uopJmp (target : Fin 64) : Encoding.Statement (.uopJmp target) := Encoding.of_micro _ _ _ _ _ rfl (by have := target.isLt; omega)
theorem Encoding.uopJif (cond : JifCond) (target : Fin 64) : Encoding.Statement (.uopJif cond target) := Encoding.of_micro _ _ _ _ _ rfl (by have := target.isLt; cases cond <;> simp only [JifCond.ctorIdx] <;> omega)
theorem Encoding.uopSetc (imm : Byte) : Encoding.Statement (.uopSetc imm) := Encoding.of_micro _ _ _ _ _ rfl (by have := imm.isLt; omega)
theorem Encoding.uopDecc : Encoding.Statement .uopDecc := Encoding.of_micro _ _ _ _ _ rfl (by decide)
theorem Encoding.uopEnd (imm : Byte) : Encoding.Statement (.uopEnd imm) := Encoding.of_micro _ _ _ _ _ rfl (by have := imm.isLt; omega)
theorem Encoding.raySave (ray : Nat) : Encoding.Statement (.raySave ray) := Encoding.of_event _ rfl
theorem Encoding.rayReentry (ray : Nat) : Encoding.Statement (.rayReentry ray) := Encoding.of_event _ rfl
theorem Encoding.convergentPerform (warp : Nat) (pc : W64) : Encoding.Statement (.convergentPerform warp pc) := Encoding.of_event _ rfl
theorem Encoding.reconvergenceTimeout (warp : Nat) (header : W64) : Encoding.Statement (.reconvergenceTimeout warp header) := Encoding.of_event _ rfl
theorem Encoding.resultArrival (thread : Nat) : Encoding.Statement (.resultArrival thread) := Encoding.of_event _ rfl
theorem Encoding.chbWaitLeave (thread : Nat) : Encoding.Statement (.chbWaitLeave thread) := Encoding.of_event _ rfl
theorem Encoding.gWaitLeave (thread : Nat) : Encoding.Statement (.gWaitLeave thread) := Encoding.of_event _ rfl
theorem Encoding.trvResLeave (thread : Nat) : Encoding.Statement (.trvResLeave thread) := Encoding.of_event _ rfl
theorem Encoding.lockRetry (warp : Nat) : Encoding.Statement (.lockRetry warp) := Encoding.of_event _ rfl
theorem Encoding.mxRowStep (cluster : Nat) : Encoding.Statement (.mxRowStep cluster) := Encoding.of_event _ rfl
theorem Encoding.mxSave (op : Nat) : Encoding.Statement (.mxSave op) := Encoding.of_event _ rfl
theorem Encoding.mxReentry (op : Nat) : Encoding.Statement (.mxReentry op) := Encoding.of_event _ rfl
theorem Encoding.collectiveCommit (coll : Nat) : Encoding.Statement (.collectiveCommit coll) := Encoding.of_event _ rfl
theorem Encoding.engineGaugeAdd (add : Nat) : Encoding.Statement (.engineGaugeAdd add) := Encoding.of_event _ rfl
theorem Encoding.bargeIssue (copy : Nat) : Encoding.Statement (.bargeIssue copy) := Encoding.of_event _ rfl
theorem Encoding.bargePerform (copy seq : Nat) : Encoding.Statement (.bargePerform copy seq) := Encoding.of_event _ rfl
theorem Encoding.bargeAck (copy seq : Nat) : Encoding.Statement (.bargeAck copy seq) := Encoding.of_event _ rfl
theorem Encoding.bargeResend (copy seq : Nat) : Encoding.Statement (.bargeResend copy seq) := Encoding.of_event _ rfl
theorem Encoding.tagRetire (copy : Nat) : Encoding.Statement (.tagRetire copy) := Encoding.of_event _ rfl
theorem Encoding.copySave (copy : Nat) : Encoding.Statement (.copySave copy) := Encoding.of_event _ rfl
theorem Encoding.savedImageRaise (team : Nat) : Encoding.Statement (.savedImageRaise team) := Encoding.of_event _ rfl
theorem Encoding.ingressWrite (func offset : Nat) (data : List Byte) : Encoding.Statement (.ingressWrite func offset data) := Encoding.of_event _ rfl
theorem Encoding.iwBarWrite (func slot : Nat) (value : W64) : Encoding.Statement (.iwBarWrite func slot value) := Encoding.of_event _ rfl
theorem Encoding.batchIdleClose (sub : Nat) : Encoding.Statement (.batchIdleClose sub) := Encoding.of_event _ rfl
theorem Encoding.batchApply (sub : Nat) : Encoding.Statement (.batchApply sub) := Encoding.of_event _ rfl
theorem Encoding.publisherFlush (team : Nat) : Encoding.Statement (.publisherFlush team) := Encoding.of_event _ rfl
theorem Encoding.launchRecordWrite (func slot : Nat) (record : BitVec 512) : Encoding.Statement (.launchRecordWrite func slot record) := Encoding.of_event _ rfl
theorem Encoding.launchEligible (launch : Nat) : Encoding.Statement (.launchEligible launch) := Encoding.of_event _ rfl
theorem Encoding.teamPlacement (launch core berth lane : Nat) : Encoding.Statement (.teamPlacement launch core berth lane) := Encoding.of_event _ rfl
theorem Encoding.berthRecordWrite (core berth : Nat) (record : BitVec 256) : Encoding.Statement (.berthRecordWrite core berth record) := Encoding.of_event _ rfl
theorem Encoding.preemptionRequest (team : Nat) (urgent : Bool) : Encoding.Statement (.preemptionRequest team urgent) := Encoding.of_event _ rfl
theorem Encoding.drainTimeout (team : Nat) : Encoding.Statement (.drainTimeout team) := Encoding.of_event _ rfl
theorem Encoding.teamSave (team : Nat) : Encoding.Statement (.teamSave team) := Encoding.of_event _ rfl
theorem Encoding.teamRestore (team core berth lane : Nat) : Encoding.Statement (.teamRestore team core berth lane) := Encoding.of_event _ rfl
theorem Encoding.teamEnd (team : Nat) : Encoding.Statement (.teamEnd team) := Encoding.of_event _ rfl
theorem Encoding.eventRecordPost (func ring : Nat) : Encoding.Statement (.eventRecordPost func ring) := Encoding.of_event _ rfl
theorem Encoding.eventRingTimer (func ring : Nat) : Encoding.Statement (.eventRingTimer func ring) := Encoding.of_event _ rfl
theorem Encoding.erCtlWrite (func ring : Nat) (value : W64) : Encoding.Statement (.erCtlWrite func ring value) := Encoding.of_event _ rfl
theorem Encoding.erTailWrite (func ring : Nat) (value : W64) : Encoding.Statement (.erTailWrite func ring value) := Encoding.of_event _ rfl
theorem Encoding.faultRecordPost (func ring : Nat) : Encoding.Statement (.faultRecordPost func ring) := Encoding.of_event _ rfl
theorem Encoding.frCtlWrite (func ring : Nat) (value : W64) : Encoding.Statement (.frCtlWrite func ring value) := Encoding.of_event _ rfl
theorem Encoding.frTailWrite (func ring : Nat) (value : W64) : Encoding.Statement (.frTailWrite func ring value) := Encoding.of_event _ rfl
theorem Encoding.sliceEnd : Encoding.Statement .sliceEnd := Encoding.of_event _ rfl
theorem Encoding.urgentWindowEnd : Encoding.Statement .urgentWindowEnd := Encoding.of_event _ rfl
theorem Encoding.switchTimeout : Encoding.Statement .switchTimeout := Encoding.of_event _ rfl
theorem Encoding.rqFlushTimeout (rq : Nat) : Encoding.Statement (.rqFlushTimeout rq) := Encoding.of_event _ rfl
theorem Encoding.teamHalt (team : Nat) : Encoding.Statement (.teamHalt team) := Encoding.of_event _ rfl
theorem Encoding.secondStageService (token : Nat) : Encoding.Statement (.secondStageService token) := Encoding.of_event _ rfl
theorem Encoding.sectorCopy (func : Nat) (gpa : W64) : Encoding.Statement (.sectorCopy func gpa) := Encoding.of_event _ rfl
theorem Encoding.mergeAttempt (func : Nat) (gpa : W64) : Encoding.Statement (.mergeAttempt func gpa) := Encoding.of_event _ rfl
theorem Encoding.sweep (frame : Nat) : Encoding.Statement (.sweep frame) := Encoding.of_event _ rfl
theorem Encoding.keyIdFree (id : Nat) : Encoding.Statement (.keyIdFree id) := Encoding.of_event _ rfl
theorem Encoding.lazyPageTransfer (func : Nat) : Encoding.Statement (.lazyPageTransfer func) := Encoding.of_event _ rfl
theorem Encoding.invalidationComplete (func : Nat) : Encoding.Statement (.invalidationComplete func) := Encoding.of_event _ rfl
theorem Encoding.wsBankRefresh (die group : Nat) : Encoding.Statement (.wsBankRefresh die group) := Encoding.of_event _ rfl
theorem Encoding.memoryScrub (line : Nat) : Encoding.Statement (.memoryScrub line) := Encoding.of_event _ rfl
theorem Encoding.uncorrectableError (e : ErrorSite) : Encoding.Statement (.uncorrectableError e) := Encoding.of_event _ rfl
theorem Encoding.schedCoreRestart : Encoding.Statement .schedCoreRestart := Encoding.of_event _ rfl
theorem Encoding.logTailReread (func ctx : Nat) : Encoding.Statement (.logTailReread func ctx) := Encoding.of_event _ rfl
theorem Encoding.heartbeatSend : Encoding.Statement .heartbeatSend := Encoding.of_event _ rfl
theorem Encoding.heartbeatReceive (group member resets : Nat) (digest : BitVec 512) : Encoding.Statement (.heartbeatReceive group member resets digest) := Encoding.of_event _ rfl
theorem Encoding.heartbeatTimeout (group member : Nat) : Encoding.Statement (.heartbeatTimeout group member) := Encoding.of_event _ rfl
theorem Encoding.moduleReset : Encoding.Statement .moduleReset := Encoding.of_event _ rfl
theorem Encoding.schedulerRunning : Encoding.Statement .schedulerRunning := Encoding.of_event _ rfl
theorem Encoding.functionLevelReset (func : Nat) : Encoding.Statement (.functionLevelReset func) := Encoding.of_event _ rfl
theorem Encoding.hostLinkDown : Encoding.Statement .hostLinkDown := Encoding.of_event _ rfl
theorem Encoding.hostLinkUp (gen width protocol : Nat) : Encoding.Statement (.hostLinkUp gen width protocol) := Encoding.of_event _ rfl
theorem Encoding.thermalStop : Encoding.Statement .thermalStop := Encoding.of_event _ rfl
theorem Encoding.sidebandSetPower (watts : Nat) : Encoding.Statement (.sidebandSetPower watts) := Encoding.of_event _ rfl
theorem Encoding.sidebandRead (what : Nat) : Encoding.Statement (.sidebandRead what) := Encoding.of_event _ rfl
theorem Encoding.bar2Write (func offset : Nat) (data : List Byte) : Encoding.Statement (.bar2Write func offset data) := Encoding.of_event _ rfl
theorem Encoding.bar2Read (func offset count : Nat) : Encoding.Statement (.bar2Read func offset count) := Encoding.of_event _ rfl
theorem Encoding.registerWrite (func offset size : Nat) (value : W64) : Encoding.Statement (.registerWrite func offset size value) := Encoding.of_event _ rfl
theorem Encoding.cmdContext (c : CmdBuf) : Encoding.Statement (.cmdContext c) := Encoding.of_event _ rfl
theorem Encoding.cmdLogNone (c : CmdBuf) : Encoding.Statement (.cmdLogNone c) := Encoding.of_event _ rfl
theorem Encoding.cmdLogRecord (c : CmdBuf) : Encoding.Statement (.cmdLogRecord c) := Encoding.of_event _ rfl
theorem Encoding.cmdLogReplay (c : CmdBuf) : Encoding.Statement (.cmdLogReplay c) := Encoding.of_event _ rfl
theorem Encoding.cmdQueueEnable (c : CmdBuf) : Encoding.Statement (.cmdQueueEnable c) := Encoding.of_event _ rfl
theorem Encoding.cmdQueueDisable (c : CmdBuf) : Encoding.Statement (.cmdQueueDisable c) := Encoding.of_event _ rfl
theorem Encoding.cmdBerth (c : CmdBuf) : Encoding.Statement (.cmdBerth c) := Encoding.of_event _ rfl
theorem Encoding.cmdQuota (c : CmdBuf) : Encoding.Statement (.cmdQuota c) := Encoding.of_event _ rfl
theorem Encoding.cmdGrant (c : CmdBuf) : Encoding.Statement (.cmdGrant c) := Encoding.of_event _ rfl
theorem Encoding.cmdQuantum (c : CmdBuf) : Encoding.Statement (.cmdQuantum c) := Encoding.of_event _ rfl
theorem Encoding.cmdPower (c : CmdBuf) : Encoding.Statement (.cmdPower c) := Encoding.of_event _ rfl
theorem Encoding.cmdSwitch (c : CmdBuf) : Encoding.Statement (.cmdSwitch c) := Encoding.of_event _ rfl
theorem Encoding.cmdRoot1 (c : CmdBuf) : Encoding.Statement (.cmdRoot1 c) := Encoding.of_event _ rfl
theorem Encoding.cmdInval1 (c : CmdBuf) : Encoding.Statement (.cmdInval1 c) := Encoding.of_event _ rfl
theorem Encoding.cmdResumeRetry (c : CmdBuf) : Encoding.Statement (.cmdResumeRetry c) := Encoding.of_event _ rfl
theorem Encoding.cmdResumeAbort (c : CmdBuf) : Encoding.Statement (.cmdResumeAbort c) := Encoding.of_event _ rfl
theorem Encoding.cmdRoot2 (c : CmdBuf) : Encoding.Statement (.cmdRoot2 c) := Encoding.of_event _ rfl
theorem Encoding.cmdInval2 (c : CmdBuf) : Encoding.Statement (.cmdInval2 c) := Encoding.of_event _ rfl
theorem Encoding.cmdKeyCreate (c : CmdBuf) : Encoding.Statement (.cmdKeyCreate c) := Encoding.of_event _ rfl
theorem Encoding.cmdKeyDestroy (c : CmdBuf) : Encoding.Statement (.cmdKeyDestroy c) := Encoding.of_event _ rfl
theorem Encoding.cmdKeySetPrivate (c : CmdBuf) : Encoding.Statement (.cmdKeySetPrivate c) := Encoding.of_event _ rfl
theorem Encoding.cmdDomainPlace (c : CmdBuf) : Encoding.Statement (.cmdDomainPlace c) := Encoding.of_event _ rfl
theorem Encoding.cmdDomainHashShare (c : CmdBuf) : Encoding.Statement (.cmdDomainHashShare c) := Encoding.of_event _ rfl
theorem Encoding.cmdMergeList (c : CmdBuf) : Encoding.Statement (.cmdMergeList c) := Encoding.of_event _ rfl
theorem Encoding.cmdUnref (c : CmdBuf) : Encoding.Statement (.cmdUnref c) := Encoding.of_event _ rfl
theorem Encoding.cmdFork (c : CmdBuf) : Encoding.Statement (.cmdFork c) := Encoding.of_event _ rfl
theorem Encoding.cmdWorldMask (c : CmdBuf) : Encoding.Statement (.cmdWorldMask c) := Encoding.of_event _ rfl
theorem Encoding.cmdWorldWays (c : CmdBuf) : Encoding.Statement (.cmdWorldWays c) := Encoding.of_event _ rfl
theorem Encoding.cmdGroupCreate (c : CmdBuf) : Encoding.Statement (.cmdGroupCreate c) := Encoding.of_event _ rfl
theorem Encoding.cmdGroupAdmit (c : CmdBuf) : Encoding.Statement (.cmdGroupAdmit c) := Encoding.of_event _ rfl
theorem Encoding.cmdGroupRemove (c : CmdBuf) : Encoding.Statement (.cmdGroupRemove c) := Encoding.of_event _ rfl
theorem Encoding.cmdGroupQuery (c : CmdBuf) : Encoding.Statement (.cmdGroupQuery c) := Encoding.of_event _ rfl
theorem Encoding.cmdGroupDissolve (c : CmdBuf) : Encoding.Statement (.cmdGroupDissolve c) := Encoding.of_event _ rfl
theorem Encoding.cmdPoolDonate (c : CmdBuf) : Encoding.Statement (.cmdPoolDonate c) := Encoding.of_event _ rfl
theorem Encoding.cmdPoolSweepShare (c : CmdBuf) : Encoding.Statement (.cmdPoolSweepShare c) := Encoding.of_event _ rfl
theorem Encoding.cmdPoolZeroNow (c : CmdBuf) : Encoding.Statement (.cmdPoolZeroNow c) := Encoding.of_event _ rfl
theorem Encoding.cmdMove (c : CmdBuf) : Encoding.Statement (.cmdMove c) := Encoding.of_event _ rfl
theorem Encoding.cmdReport (c : CmdBuf) : Encoding.Statement (.cmdReport c) := Encoding.of_event _ rfl
theorem Encoding.cmdExtend (c : CmdBuf) : Encoding.Statement (.cmdExtend c) := Encoding.of_event _ rfl
theorem Encoding.mbAttach (c : CmdBuf) : Encoding.Statement (.mbAttach c) := Encoding.of_event _ rfl
theorem Encoding.mbDetach (c : CmdBuf) : Encoding.Statement (.mbDetach c) := Encoding.of_event _ rfl
theorem Encoding.mbPointBreakpoint (c : CmdBuf) : Encoding.Statement (.mbPointBreakpoint c) := Encoding.of_event _ rfl
theorem Encoding.mbPointWatchpoint (c : CmdBuf) : Encoding.Statement (.mbPointWatchpoint c) := Encoding.of_event _ rfl
theorem Encoding.mbHalt (c : CmdBuf) : Encoding.Statement (.mbHalt c) := Encoding.of_event _ rfl
theorem Encoding.mbStep (c : CmdBuf) : Encoding.Statement (.mbStep c) := Encoding.of_event _ rfl
theorem Encoding.mbResume (c : CmdBuf) : Encoding.Statement (.mbResume c) := Encoding.of_event _ rfl
theorem Encoding.mbAbort (c : CmdBuf) : Encoding.Statement (.mbAbort c) := Encoding.of_event _ rfl
theorem Encoding.mbRead (c : CmdBuf) : Encoding.Statement (.mbRead c) := Encoding.of_event _ rfl
theorem Encoding.mbWrite (c : CmdBuf) : Encoding.Statement (.mbWrite c) := Encoding.of_event _ rfl
theorem Encoding.mbList (c : CmdBuf) : Encoding.Statement (.mbList c) := Encoding.of_event _ rfl
theorem Encoding.faultRingTimer (func ring : Nat) : Encoding.Statement (.faultRingTimer func ring) := Encoding.of_event _ rfl
theorem Encoding.issueGovernor (g : Nat × Nat) : Encoding.Statement (.issueGovernor g) := Encoding.of_event _ rfl
theorem Encoding.cxlMemAccess (write : Bool) (pa : Nat) (data : List Byte) : Encoding.Statement (.cxlMemAccess write pa data) := Encoding.of_event _ rfl
theorem Encoding.correctedError (e : ErrorSite) : Encoding.Statement (.correctedError e) := Encoding.of_event _ rfl
theorem Encoding.handoverTimeout : Encoding.Statement .handoverTimeout := Encoding.of_event _ rfl
theorem Encoding.admissionConfirmation (group member : Nat) : Encoding.Statement (.admissionConfirmation group member) := Encoding.of_event _ rfl

end Sys2Proof.Laws
end

