-- ==== Sys2Proof/Laws/RegPlan.lean ====
section
/-! SUPPORT. An instruction that checks nothing of its own, in a calm group: it is its performance by the active threads and the common end; and the completion of an instruction over registers. -/

namespace Sys2Proof.Machine

variable {s : State} {f : Focus}

theorem Calm.warpOut (h : Calm s f) {k : Nat} (hk : k ∈ f.threads) : (s.warp (warpOf k)).out = [] := by
  rw [Focus.warpOf_threads hk]; exact h.noOutW

/-- In a calm group an instruction is performed at once. -/
theorem perform_calm {α : Type} (p : Plan α) (h : Calm s f) (hm : (p.run f s).missed = none) : perform p s = .next (p.run f s) := by
  have hh : ∀ t, State.heldCount t f.team s = t := by
    intro t; simp [State.heldCount, h.unlogged]
  have hc : ∀ t, State.crefAfter t f s = t := by
    intro t; simp [State.crefAfter, h.unlogged]
  simp only [perform, h.focus, State.atomically, hc, hh, hm]

/-- With no debugger attached there is no breakpoint. -/
theorem breakAt_none (h : s.attachedTo (s.team f.team) = false) (pc : W64) : s.breakAt (s.team f.team) pc = none := by
  simp [State.breakAt, h]

/-- The run of an instruction that checks nothing. -/
theorem run_noCheck (p : Plan Unit) (hp : p.check = noCheck) (he : p.every = fun _ _ => false) (h : Calm s f)
    (hh : (p.act f (s.startIssue f.threads) ((s.active f p.ins).map (fun k => (k, ())))).s.hits = [])
    (hu : (p.act f (s.startIssue f.threads) ((s.active f p.ins).map (fun k => (k, ())))).unserved = []) :
    p.run f s = (let a := p.act f (s.startIssue f.threads) ((s.active f p.ins).map (fun k => (k, ())))
      finish f p.ins p.words f.threads (maskOf ((((s.active f p.ins).map (fun k => (k, ()))).filter (fun x => !(a.faults.any (fun y => decide (y.1 = x.1))))).map (fun x => seatOf x.1)))
        a.faults { a with s := { a.s with fresh := a.s.fresh + 1, hits := [] } }) := by
  have hg : ∀ c, p.gates c (s.startIssue f.threads) f.threads = ([], (s.active f p.ins).map (fun k => (k, ())), s.startIssue f.threads) := by
    intro c
    rw [gates_noCheck p c hp he]
    · simp only [State.startIssue_holds]; rfl
    · intro k hk
      refine ⟨?_, ?_, ?_, ?_⟩
      · rw [State.startIssue_field Thread.out (fun _ => rfl)]; exact h.noOut k hk
      · rw [State.startIssue_warp]; exact h.warpOut hk
      · rw [State.startIssue_field Thread.win (fun _ => rfl)]; exact h.noWin k hk
      · rw [State.startIssue_field Thread.poison (fun _ => rfl)]; exact h.noPoison k hk
  have hflt : f.threads.filter (fun k => !([] : List Nat).contains k) = f.threads := by simp
  unfold Plan.run
  simp only [breakAt_none h.noDebug, Option.isSome_none, Bool.false_eq_true, if_false, hflt, h.some, List.map_nil, List.append_nil, hg]
  simp only [hh, hu, List.contains_nil, Bool.not_false, Bool.and_true, List.filter_nil, List.append_nil, List.nil_append]

theorem missed_ctxs {s t : State} (h : t.ctxs = s.ctxs) : t.missed = s.missed := by simp [State.missed, h]

/-- A calm performance that only writes registers. -/
theorem actFixed_uniform (t : State) (rs : List Result) (h : resultsDiffer rs = false) : actFixed t f rs = { s := t.commit rs } := by
  simp [actFixed, h]

theorem warpThreads_mem {k : Nat} (hk : k ∈ f.threads) : k ∈ warpThreads (wkey f.team f.wid) := by
  obtain ⟨x, hx, rfl⟩ := Focus.mem_threads hk
  simp only [warpThreads, List.mem_map, List.mem_range, wkey, tkey]
  exact ⟨x, hx, by omega⟩

theorem State.active_sub {i : Instr} {k : Nat} (h : k ∈ s.active f i) : k ∈ f.threads := (List.mem_filter.1 h).1

/-- The effect of one thread as a result. -/
def Eff.result (e : Eff) (k : Nat) : Result := { k := k, dst := e.regs, preds := e.preds, fx := e.fx }

/-- Writing registers in a calm group, and the common end: what is written, and what stands. -/
theorem regs_complete (i : Instr) (words : Nat) (e : Nat → Eff) (h : Calm s f) (hu : s.Uniform f i e) (hd : ∀ k ∈ s.active f i, ((e k).regs.map Prod.fst).Nodup)
    (done : W32) (t : State)
    (ht : t = finish f i words f.threads done [] { s := { (s.startIssue f.threads).commit ((s.active f i).map (fun k => (e k).result k)) with fresh := ((s.startIssue f.threads).commit ((s.active f i).map (fun k => (e k).result k))).fresh + 1, hits := [] } }) :
    Wrote s t f i e ∧ SameBytes s t ∧ SameUnits s t ∧ MovedOn s t f words ∧ t.missed = none := by
  set_option linter.unusedVariables false in
  let s1 := s.startIssue f.threads
  let rs := (s.active f i).map (fun k => (e k).result k)
  have hact : ∀ {k}, k ∈ s.active f i → k ∈ f.threads := fun hk => State.active_sub hk
  have hrn : (rs.map Result.k).Nodup := by
    have : rs.map Result.k = s.active f i := by simp [rs, Eff.result, Function.comp_def]
    rw [this]; exact (Focus.threads_nodup f).sublist List.filter_sublist
  have hrk : ∀ r ∈ rs, ∃ k ∈ s.active f i, r = (e k).result k := by
    intro r hr; simp only [rs, List.mem_map] at hr; obtain ⟨k, hk, rfl⟩ := hr; exact ⟨k, hk, rfl⟩
  have hrw : ∀ r ∈ rs, warpOf r.k = wkey f.team f.wid := by
    intro r hr; obtain ⟨k, hk, rfl⟩ := hrk r hr; exact Focus.warpOf_threads (hact hk)
  have hro : ∀ r ∈ rs, (s1.thread r.k).out = [] ∧ (s1.thread r.k).poison = [] := by
    intro r hr; obtain ⟨k, hk, rfl⟩ := hrk r hr
    refine ⟨?_, ?_⟩
    · exact (State.startIssue_field Thread.out (fun _ => rfl) s _ k).trans (h.noOut k (hact hk))
    · exact (State.startIssue_field Thread.poison (fun _ => rfl) s _ k).trans (h.noPoison k (hact hk))
  obtain ⟨c1, c2, c3, c4, c5⟩ := commit_calm rs s1 (wkey f.team f.wid) hrn hrw hro (by rw [State.startIssue_warp]; exact h.noOutW)
  -- the committed state
  let C : State := { s1.commit rs with fresh := (s1.commit rs).fresh + 1, hits := [] }
  have hCt : ∀ k, C.thread k = (s1.commit rs).thread k := fun _ => rfl
  have hCw : ∀ w, C.warp w = (s1.commit rs).warp w := fun _ => rfl
  have hthr : ∀ k, k ∈ s.active f i → C.thread k = (s1.thread k).got ((e k).result k) := by
    intro k hk; rw [hCt]; exact c2 ((e k).result k) (List.mem_map_of_mem (f := fun k => (e k).result k) hk)
  have hoth : ∀ k, k ∉ s.active f i → C.thread k = s1.thread k := by
    intro k hk; rw [hCt]; apply c3; intro r hr e1
    obtain ⟨j, hj, rfl⟩ := hrk r hr
    exact hk (e1 ▸ hj)
  have hfld : ∀ {α : Type} (g : Thread → α), (∀ th x, g { th with v := x } = g th) → (∀ th x, g { th with p := x } = g th) → (∀ th x, g { th with fx := x } = g th) →
      (∀ th, g th.started = g th) → ∀ k, g (C.thread k) = g (s.thread k) := by
    intro α g h1 h2 h3 h4 k
    by_cases hk : k ∈ s.active f i
    · rw [hthr k hk, got_field g h1 h2 h3]; exact State.startIssue_field g h4 s _ k
    · rw [hoth k hk]; exact State.startIssue_field g h4 s _ k
  have hK : Kept C t := by rw [ht]; exact Kept.finish f i words f.threads done [] { s := C } rfl
  have hCteam : ∀ u, C.team u = s.team u := by
    intro u
    have : C.teams = s.teams := by
      have h1 : (s1.commit rs).teams = s1.teams := by
        have := congrArg State.teams c1
        exact this
      have h2 : s1.teams = s.teams := by
        have := congrArg State.teams (State.startIssue_rest s f.threads)
        exact this
      exact h1.trans h2
    simp only [State.team, this]
  have hCcore : ∀ u, C.core u = s.core u := by
    intro u
    have : C.cores = s.cores := by
      have h1 : (s1.commit rs).cores = s1.cores := by
        have := congrArg State.cores c1
        exact this
      have h2 : s1.cores = s.cores := by
        have := congrArg State.cores (State.startIssue_rest s f.threads)
        exact this
      exact h1.trans h2
    simp only [State.core, this]
  have hCrest : ∀ {α : Type} (g : State → α), (∀ x a b c d, g { x with threads := a, warps := b, fresh := c, hits := d } = g x) → g C = g s := by
    intro α g hg
    have h1 : C = { s1 with threads := C.threads, warps := C.warps, fresh := C.fresh, hits := C.hits } := by
      exact congrArg (fun x : State => ({ x with fresh := (s1.commit rs).fresh + 1, hits := [] } : State)) c1
    have h2 : s1 = { s with threads := s1.threads } := State.startIssue_rest s f.threads
    rw [h1, hg, h2]
    exact hg s _ s.warps s.fresh s.hits
  have hTrest : ∀ {α : Type} (g : State → α), (∀ x a b c d, g { x with threads := a, warps := b, fresh := c, hits := d } = g x) →
      (∀ x a b c, g { x with teams := a, cores := b, tlb := c } = g x) → g t = g s := by
    intro α g hg hg2
    rw [← hCrest g hg, hK.rest]
    have := hg2 { C with threads := t.threads, warps := t.warps, fresh := t.fresh } t.teams t.cores t.tlb
    refine this.trans ?_
    exact hg C t.threads t.warps t.fresh C.hits
  have hregv : ∀ k, (t.thread k).v = (C.thread k).v := hK.v
  have hregw : ∀ k, (t.warp k).w = (C.warp k).w := hK.w
  -- the w registers of the warp
  have hws : ∀ k ∈ s.active f i, (C.warp (wkey f.team f.wid)).w = vWrites (s.warp (wkey f.team f.wid)).w ((e k).regs.filter (fun p => p.1.1)) := by
    intro k hk
    rw [hCw, c4]
    show vWrites (s1.warp (wkey f.team f.wid)).w _ = _
    rw [show s1.warp (wkey f.team f.wid) = s.warp (wkey f.team f.wid) from State.startIssue_warp s _ _]
    congr 1
    cases ha : s.active f i with
    | nil => rw [ha] at hk; simp at hk
    | cons j js =>
      have hj : j ∈ s.active f i := by rw [ha]; simp
      have : rs.head? = some ((e j).result j) := by simp [rs, ha]
      rw [this]
      exact hu j hj k hk
  have hnov : ∀ k ∈ s.active f i, (((e k).regs.filter (fun p => !p.1.1)).map (fun p => p.1.2)).Nodup := by
    intro k hk
    have h1 := hd k hk
    rw [List.nodup_iff_pairwise_ne, List.pairwise_map] at h1 ⊢
    have h2 := List.Pairwise.filter (fun p => !p.1.1) h1
    refine List.Pairwise.imp_of_mem ?_ h2
    intro a b ha hb hab hc
    simp only [List.mem_filter, Bool.not_eq_true'] at ha hb
    exact hab (Prod.ext (ha.2.trans hb.2.symm) hc)
  have hnow : ∀ k ∈ s.active f i, (((e k).regs.filter (fun p => p.1.1)).map (fun p => p.1.2)).Nodup := by
    intro k hk
    have h1 := hd k hk
    rw [List.nodup_iff_pairwise_ne, List.pairwise_map] at h1 ⊢
    have h2 := List.Pairwise.filter (fun p => p.1.1) h1
    refine List.Pairwise.imp_of_mem ?_ h2
    intro a b ha hb hab hc
    simp only [List.mem_filter] at ha hb
    exact hab (Prod.ext (ha.2.trans hb.2.symm) hc)
  have hs1v : ∀ k, (s1.thread k).v = (s.thread k).v := fun k => State.startIssue_field Thread.v (fun _ => rfl) s _ k
  have stands : ∀ k ∈ f.threads, (s.thread k).st = .ready → s.inside k words → (finish f i words f.threads done [] { s := C }).thread k = { C.thread k with pc := (C.thread k).after words } := by
    intro k hk hst hi
    exact finish_thread f i words f.threads done { s := C } rfl h.once rfl (Focus.threads_nodup f) k hk (warpThreads_mem hk) (by simp) rfl
      (fun j hj => (hfld Thread.win (fun _ _ => rfl) (fun _ _ => rfl) (fun _ _ => rfl) (fun _ => rfl) j).trans (h.noWin j hj))
      ((hfld Thread.st (fun _ _ => rfl) (fun _ _ => rfl) (fun _ _ => rfl) (fun _ => rfl) k).trans hst)
      (by
        have h1 : (C.thread k).after words = (s.thread k).after words := hfld (fun th => th.after words) (fun _ _ => rfl) (fun _ _ => rfl) (fun _ _ => rfl) (fun _ => rfl) k
        have h2 : (C.thread k).nextHeader = (s.thread k).nextHeader := hfld Thread.nextHeader (fun _ _ => rfl) (fun _ _ => rfl) (fun _ _ => rfl) (fun _ => rfl) k
        have h3 : (C.thread k).block = (s.thread k).block := hfld Thread.block (fun _ _ => rfl) (fun _ _ => rfl) (fun _ _ => rfl) (fun _ => rfl) k
        unfold State.inside
        rw [h1, h2, h3]; exact hi)
      ((hfld Thread.out (fun _ _ => rfl) (fun _ _ => rfl) (fun _ _ => rfl) (fun _ => rfl) k).trans (h.noOut k hk))
      (by
        rw [hCw, Focus.warpOf_threads hk, c4]
        show (s1.warp _).out = _
        exact (congrArg Warp.out (State.startIssue_warp s f.threads _)).trans h.noOutW)
  refine ⟨⟨?_, ?_, ?_, ?_⟩, ⟨?_, ?_, ?_⟩, ⟨?_, ?_, ?_, ?_, ?_, ?_, ?_, ?_⟩, ⟨?_, ?_, ?_⟩, ?_⟩
  · -- what is written
    intro k hk p hp
    obtain ⟨⟨b, n⟩, x⟩ := p
    cases b with
    | false =>
      simp only [State.regOf, Bool.false_eq_true, if_false]
      rw [hregv, hthr k hk, got_v]
      exact get_vWrites_mem _ _ (hnov k hk) ((false, n), x) (List.mem_filter.2 ⟨hp, rfl⟩)
    | true =>
      simp only [State.regOf, if_true]
      rw [Focus.warpOf_threads (hact hk), hregw, hws k hk]
      exact get_vWrites_mem _ _ (hnow k hk) ((true, n), x) (by simp [hp])
  · -- every other register
    intro k r hr
    obtain ⟨b, n⟩ := r
    cases b with
    | false =>
      simp only [State.regOf, Bool.false_eq_true, if_false]
      rw [hregv]
      by_cases hk : k ∈ s.active f i
      · rw [hthr k hk, got_v, get_vWrites_ne, hs1v]
        intro p hp hn
        simp only [Result.vs, Eff.result, List.mem_filter, Bool.not_eq_true'] at hp
        refine hr k hk (by simp) p hp.1 (Prod.ext hp.2 hn)
      · rw [hoth k hk, hs1v]
    | true =>
      simp only [State.regOf, if_true]
      rw [hregw]
      by_cases hw : warpOf k = wkey f.team f.wid
      · rw [hw]
        cases ha : s.active f i with
        | nil =>
          rw [hCw, c4]
          have : rs = [] := by simp [rs, ha]
          rw [this]
          show Tbl.get (s1.warp _).w n = _
          rw [show s1.warp (wkey f.team f.wid) = s.warp (wkey f.team f.wid) from State.startIssue_warp s _ _]
        | cons j js =>
          have hj : j ∈ s.active f i := by rw [ha]; simp
          rw [hws j hj, get_vWrites_ne]
          intro p hp hn
          simp only [List.mem_filter] at hp
          exact hr j hj (by simp [hw, Focus.warpOf_threads (hact hj)]) p hp.1 (Prod.ext hp.2 hn)
      · rw [hCw, c5 _ hw, show s1.warp (warpOf k) = s.warp (warpOf k) from State.startIssue_warp s _ _]
  · -- predicates
    intro k q
    have hp : (t.thread k).pred q = (C.thread k).pred q := by simp only [Thread.pred, hK.p]
    rw [hp]
    split
    · rename_i hk
      rw [hthr k hk, got_pred]
      rw [show (s1.thread k).pred q = (s.thread k).pred q from State.startIssue_pred s _ k q]; rfl
    · rename_i hk
      rw [hoth k hk]; exact State.startIssue_pred s _ k q
  · -- flags
    intro k
    rw [hK.fx]
    split
    · rename_i hk
      rw [hthr k hk, got_fx, State.startIssue_field Thread.fx (fun _ => rfl)]; rfl
    · rename_i hk
      rw [hoth k hk]; exact State.startIssue_field Thread.fx (fun _ => rfl) s _ k
  · intro key pa
    exact hTrest (fun x => x.byteAt key pa) (fun _ _ _ _ _ => rfl) (fun _ _ _ _ => rfl)
  · intro u off
    obtain ⟨_, _, _, _, e1⟩ := hK.team u
    rw [e1, hCteam]
  · intro c
    obtain ⟨l, e1⟩ := hK.core c
    rw [e1, hCcore]
  · intro u
    obtain ⟨_, _, _, _, e1⟩ := hK.team u
    rw [e1, hCteam]
  · intro u
    obtain ⟨_, _, _, _, e1⟩ := hK.team u
    rw [e1, hCteam]
  · intro k
    rw [hK.trap]
    exact hfld Thread.trap (fun _ _ => rfl) (fun _ _ => rfl) (fun _ _ => rfl) (fun _ => rfl) k
  · intro k
    rw [hK.out]
    exact hfld Thread.out (fun _ _ => rfl) (fun _ _ => rfl) (fun _ _ => rfl) (fun _ => rfl) k
  · intro w
    rw [hK.wout, hCw]
    by_cases hw : w = wkey f.team f.wid
    · subst hw; rw [c4]
      show (s1.warp _).out = _
      exact congrArg Warp.out (State.startIssue_warp s _ _)
    · rw [c5 w hw]; exact congrArg Warp.out (State.startIssue_warp s _ _)
  · exact hTrest State.ctxs (fun _ _ _ _ _ => rfl) (fun _ _ _ _ => rfl)
  · exact ⟨hTrest State.copies (fun _ _ _ _ _ => rfl) (fun _ _ _ _ => rfl), hTrest State.gadds (fun _ _ _ _ _ => rfl) (fun _ _ _ _ => rfl),
      hTrest State.mops (fun _ _ _ _ _ => rfl) (fun _ _ _ _ => rfl), hTrest State.rays (fun _ _ _ _ _ => rfl) (fun _ _ _ _ => rfl),
      hTrest State.subs (fun _ _ _ _ _ => rfl) (fun _ _ _ _ => rfl), hTrest State.rqs (fun _ _ _ _ _ => rfl) (fun _ _ _ _ => rfl),
      hTrest State.launches (fun _ _ _ _ _ => rfl) (fun _ _ _ _ => rfl), hTrest State.tokens (fun _ _ _ _ _ => rfl) (fun _ _ _ _ => rfl)⟩
  · exact hTrest State.mod (fun _ _ _ _ _ => rfl) (fun _ _ _ _ => rfl)
  · -- places
    intro k hk hst hi
    have hT := stands k hk hst hi
    rw [ht]
    show ((finish f i words f.threads done [] { s := C }).thread k).st = _ ∧ _
    rw [hT]
    refine ⟨(hfld Thread.st (fun _ _ => rfl) (fun _ _ => rfl) (fun _ _ => rfl) (fun _ => rfl) k).trans hst, ?_, ?_⟩
    · exact hfld (fun th => th.after words) (fun _ _ => rfl) (fun _ _ => rfl) (fun _ _ => rfl) (fun _ => rfl) k
    · exact hfld Thread.block (fun _ _ => rfl) (fun _ _ => rfl) (fun _ _ => rfl) (fun _ => rfl) k
  · intro k hk hst hi
    have hT := stands k hk hst hi
    rw [ht]
    show ((finish f i words f.threads done [] { s := C }).thread k).rcd = _
    rw [hT]
    exact hfld Thread.rcd (fun _ _ => rfl) (fun _ _ => rfl) (fun _ _ => rfl) (fun _ => rfl) k
  · rw [ht]
    refine (finish_tcount f i words f.threads done [] { s := C } rfl h.once
      (fun j hj => (hfld Thread.win (fun _ _ => rfl) (fun _ _ => rfl) (fun _ _ => rfl) (fun _ => rfl) j).trans (h.noWin j hj))).trans ?_
    show (C.team f.team).tcount + 1 = _
    rw [hCteam]
  · exact (missed_ctxs (hTrest State.ctxs (fun _ _ _ _ _ => rfl) (fun _ _ _ _ => rfl))).trans h.settled

theorem resultsDiffer_uniform (i : Instr) (e : Nat → Eff) (hu : s.Uniform f i e) : resultsDiffer ((s.active f i).map (fun k => (e k).result k)) = false := by
  cases ha : s.active f i with
  | nil => rfl
  | cons j js =>
    simp only [List.map_cons, resultsDiffer, List.any_eq_false, List.mem_map, decide_eq_true_eq, ne_eq]
    rintro _ ⟨k, hk, rfl⟩ hne
    exact hne (hu k (by rw [ha]; exact List.mem_cons_of_mem _ hk) j (by rw [ha]; simp))

/-- An instruction that computes one result per thread from registers completes with it. -/
theorem regPlan_completes (i : Instr) (words : Nat) (g : State → Nat → Result) (e : Nat → Eff) (h : Calm s f) (hx : exec i s = perform (regPlan i words g) s)
    (hg : ∀ k ∈ s.active f i, g (s.startIssue f.threads) k = (e k).result k) (hu : s.Uniform f i e) (hd : ∀ k ∈ s.active f i, ((e k).regs.map Prod.fst).Nodup) :
    Completes i s f words e := by
  have hact : (regPlan i words g).act f (s.startIssue f.threads) ((s.active f i).map (fun k => (k, ()))) = { s := (s.startIssue f.threads).commit ((s.active f i).map (fun k => (e k).result k)) } := by
    have : ((s.active f i).map (fun k => (k, ()))).map (fun x => g (s.startIssue f.threads) x.1) = (s.active f i).map (fun k => (e k).result k) := by
      rw [List.map_map]; exact List.map_congr_left (fun k hk => hg k hk)
    simp only [regPlan, this]
    exact actFixed_uniform _ _ (resultsDiffer_uniform i e hu)
  have hhits : ((s.startIssue f.threads).commit ((s.active f i).map (fun k => (e k).result k))).hits = [] := by
    have hrn : (((s.active f i).map (fun k => (e k).result k)).map Result.k).Nodup := by
      have : ((s.active f i).map (fun k => (e k).result k)).map Result.k = s.active f i := by simp [Eff.result, Function.comp_def]
      rw [this]; exact (Focus.threads_nodup f).sublist List.filter_sublist
    have c1 := (commit_calm ((s.active f i).map (fun k => (e k).result k)) (s.startIssue f.threads) (wkey f.team f.wid) hrn
      (by intro r hr; simp only [List.mem_map] at hr; obtain ⟨k, hk, rfl⟩ := hr; exact Focus.warpOf_threads (State.active_sub hk))
      (by
        intro r hr; simp only [List.mem_map] at hr; obtain ⟨k, hk, rfl⟩ := hr
        exact ⟨(State.startIssue_field Thread.out (fun _ => rfl) s _ k).trans (h.noOut k (State.active_sub hk)), (State.startIssue_field Thread.poison (fun _ => rfl) s _ k).trans (h.noPoison k (State.active_sub hk))⟩)
      (by rw [State.startIssue_warp]; exact h.noOutW)).1
    rw [c1]
    show (s.startIssue f.threads).hits = []
    rw [State.startIssue_rest]; exact h.noHits
  have hr := run_noCheck (regPlan i words g) rfl rfl h (by
    show ((regPlan i words g).act f (s.startIssue f.threads) ((s.active f i).map (fun k => (k, ())))).s.hits = []
    rw [hact]; exact hhits) (by
    show ((regPlan i words g).act f (s.startIssue f.threads) ((s.active f i).map (fun k => (k, ())))).unserved = []
    rw [hact])
  have hr' : (regPlan i words g).run f s = finish f i words f.threads (maskOf (((s.active f i).map (fun k => (k, ()))).map (fun x => seatOf x.1))) []
      { s := { (s.startIssue f.threads).commit ((s.active f i).map (fun k => (e k).result k)) with fresh := ((s.startIssue f.threads).commit ((s.active f i).map (fun k => (e k).result k))).fresh + 1, hits := [] } } := by
    have hact' : (regPlan i words g).act f (s.startIssue f.threads) ((s.active f (regPlan i words g).ins).map (fun k => (k, ()))) = { s := (s.startIssue f.threads).commit ((s.active f i).map (fun k => (e k).result k)) } := hact
    have hf : ∀ L : List (Nat × Unit), L.filter (fun x => !(([] : List Flt).any (fun y => decide (y.1 = x.1)))) = L := by intro L; simp
    rw [hr]
    dsimp only
    rw [hact']
    dsimp only
    rw [hf]
    rfl
  obtain ⟨w1, w2, w3, w4, w5⟩ := regs_complete i words e h hu hd _ _ hr'
  exact ⟨(regPlan i words g).run f s, hx.trans (perform_calm _ h w5), w1, w2, w3, w4⟩

/-! ## Destinations name each register once -/

theorem dstOne_nodup (d : Src) (x : W32) : ((dstOne d x).map Prod.fst).Nodup := by
  unfold dstOne; split <;> simp

theorem filterMap_pairwise {α β : Type} (g : α → Option β) {R : α → α → Prop} {T : β → β → Prop} (h : ∀ a b x y, R a b → g a = some x → g b = some y → T x y) (xs : List α)
    (hp : xs.Pairwise R) : (xs.filterMap g).Pairwise T := by
  induction xs with
  | nil => simp
  | cons a xs ih =>
    simp only [List.pairwise_cons] at hp
    rw [List.filterMap_cons]
    split
    · exact ih hp.2
    · rename_i b hb
      simp only [List.pairwise_cons, List.mem_filterMap]
      refine ⟨?_, ih hp.2⟩
      rintro y ⟨c, hc, hy⟩
      exact h a c b y (hp.1 c hc) hb hy

theorem dstGroup_nodup (d : Src) (xs : List W32) : ((dstGroup d xs).map Prod.fst).Nodup := by
  unfold dstGroup
  rw [List.nodup_iff_pairwise_ne, List.pairwise_map]
  have h : (List.range xs.length).Pairwise (· < ·) := List.pairwise_lt_range
  refine filterMap_pairwise _ ?_ _ h
  intro a b x y hab hx hy
  cases d <;> simp only [srcReg, Option.map_some, Option.map_none, Option.some.injEq, reduceCtorEq] at hx hy
  · subst hx hy; simp; omega
  · subst hx hy; simp; omega

theorem dstPair_nodup (d : Src) (x : W64) : ((dstPair d x).map Prod.fst).Nodup := dstGroup_nodup d _

theorem dstTy_nodup (t : Ty) (d : Src) (x : Nat) : ((dstTy t d x).map Prod.fst).Nodup := by
  unfold dstTy
  split
  · exact dstPair_nodup d _
  · exact dstOne_nodup d _

end Sys2Proof.Machine
end

