-- ==== Sys2Proof/Tests/Slice0.lean ====
section
/-! SUPPORT. Tests: words of the manual's worked encodings, ill-formed terms, and for every statement a state and operands that meet its hypotheses. -/

namespace Sys2Proof.Tests

open Sys2Proof Sys2Proof.Machine

set_option Elab.async false

/-! ## Small states -/

/-- An issue group of warp 0 of team 0. -/
def foc (g : W32) : Focus := { team := 0, wid := 0, group := g, pc := 0x100008 }

/-- One team of one warp: seats 0 to 3 stand ready at the first word of a block of eight words, the rest have exited; v2 holds 5 + 3 times the seat. -/
def base (g : W32) : State :=
  { State.reset with
    teams := [(0, placeTeam)]
    warps := [(0, { budget := 384 })]
    threads := (List.range 32).map (fun k => (k, if k < 4 then { pc := 0x100008, block := 0x100000, len := 8, v := [(2, BitVec.ofNat 32 (5 + 3 * k))] } else { st := .exited }))
    focus := some (foc g) }

def h0 : Hdr := { sw := false, g := { neg := false, p := 7 } }
def rop (t : Ty) (d a b c : Src) : ROp := { h := h0, d := d, a := a, b := b, c := c, rnd := .rn, ftz := false, ty := t }

/-! ## Words: the manual's worked encodings, each word written out from the field maps -/

def hs : Hdr := { sw := true, g := { neg := false, p := 7 } }
def hp (p : Fin 8) : Hdr := { sw := false, g := { neg := false, p := p } }
def xop (d a b : Src) (xa xb : Fin 8) (sc : Scope) : XOp := { h := h0, d := d, a := a, b := b, c := .v 0, xa := xa, xb := xb, scope := sc }

/-- Worked tables of R49 to R75 and R348 to R355. -/
theorem test_words_control :
    decodeTableWord 64 0x0770000000000000 = some (.exit (rop .none (.v 0) (.v 0) (.v 0) (.v 0))) ∧
    decodeTableWord 64 0x0870000000000000 = some (.yield (rop .none (.v 0) (.v 0) (.v 0) (.v 0))) ∧
    decodeTableWord 64 0x0970000001F00000 = some (.cvg (rop .none (.v 0) (.v 0) (.v 0) (.inl 16))) ∧
    decodeTableWord 64 0x027005000000000C = some (.bru { h := h0, link := .v 0, cond := { neg := true, p := 2 }, disp := 12 }) ∧
    decodeTableWord 64 0x0470A38000000040 = some (.call { h := h0, link := .v 20, cond := { neg := false, p := 7 }, disp := 0x40 }) ∧
    decodeTableWord 64 0x0370001800000000 = some (.brx (rop .none (.v 0) (.v 6) (.v 0) (.v 0))) ∧
    decodeTableWord 64 0x0570A01800000000 = some (.callx (rop .none (.v 20) (.v 6) (.v 0) (.v 0))) ∧
    decodeTableWord 64 0x0670005000000000 = some (.ret (rop .none (.v 0) (.v 20) (.v 0) (.v 0))) := by decide +kernel

/-- Worked tables of R102 to R119. -/
theorem test_words_integer :
    decodeTableWord 64 0x1470502C180D09F8 = some (.bitf 0xF8 (rop .b32 (.v 10) (.v 11) (.v 12) (.v 13))) ∧
    decodeTableWord 64 0x2370180C00000014 = some (.shlI { h := h0, d := .v 3, a := .v 3, imm := 20 }) ∧
    decodeTableWord 64 0x1070100BC2000301 = some (.sub (rop .i32 (.v 2) (.v 2) (.inl 1) (.v 0))) ∧
    decodeTableWord 64 0x2070100800000064 = some (.addI { h := h0, d := .v 2, a := .v 2, imm := 100 }) := by decide +kernel

/-- Worked tables of R120 to R140. -/
theorem test_words_float :
    decodeTableWord 64 0x4070100940400000 = some (.faddI .rz { h := h0, d := .v 2, a := .v 2, imm := 0x40400000 }) ∧
    decodeTableWord 64 0x34701023F0000A02 = some (.fsetp .lt { h := h0, pd := 2, a := .v 8, b := .inl 24, ftz := false, ty := .f32 }) ∧
    decodeTableWord 64 0xB670502C00000A01 = some (.frsq { rop .f32 (.v 10) (.v 11) (.v 0) (.v 0) with h := hs }) ∧
    decodeTableWord 64 0x4870604000000D6A = some (.cvt 3 .f32 (rop .e4m3 (.v 12) (.v 16) (.v 0) (.v 0))) ∧
    decodeTableWord 64 0x4A70408020000D00 = some (.qnt 0 false (rop .e4m3 (.v 8) (.v 32) (.v 16) (.v 0))) ∧
    decodeTableWord 64 0x4A70408020000D01 = some (.qnt 0 true (rop .e4m3 (.v 8) (.v 32) (.v 16) (.v 0))) := by decide +kernel

/-- Worked tables of R141 to R157, and of the programs that use these instructions. -/
theorem test_words_cross :
    decodeTableWord 64 0x50702013C3F00903 = some (.xch .mir (rop .b32 (.v 4) (.v 4) (.inl 1) (.inl 16))) ∧
    decodeTableWord 64 0x57704043C9800904 = some (.xbar 2 (rop .b32 (.v 8) (.v 16) (.inl 4) (.w 0))) ∧
    decodeTableWord 64 0x5270200C01F00000 = some (.bal (rop .none (.v 4) (.v 3) (.v 0) (.inl 16))) ∧
    decodeTableWord 64 0x5170281001F00000 = some (.agr .every (rop .none (.v 5) (.v 4) (.v 0) (.inl 16))) := by decide +kernel

def mop (d a b : Src) (ty : Ty) (ord : Ord) (sc : Scope) (x : Fin 8) (off : BitVec 14) : MOp :=
  { h := h0, d := d, a := a, b := b, ty := ty, dir := false, ord := ord, scope := sc, evict := 3, xsel := x, off := off }

/-- Worked tables of R244 to R262. -/
theorem test_words_memory :
    decodeTableWord 64 0xD87010000E060000 = some (.ld { mop (.v 2) (.v 0) (.v 0) .n32 .plain .thread 0 0 with h := hs }) ∧
    decodeTableWord 64 0x597010000F660004 = some (.st (mop (.v 2) (.v 0) (.v 0) .n32 .rel .module 0 4)) ∧
    decodeTableWord 64 0x5C70460052060000 = some (.ldlTile { mop (.v 8) (.w 0) (.v 0) .b32 .plain .thread 0 0 with dir := true }) ∧
    decodeTableWord 64 0x5F70182816060EE0 = some (.atl .inc (mop (.v 3) (.v 10) (.v 11) .n32 .plain .thread 0 0)) ∧
    decodeTableWord 64 0x5B7E10000E060000 = some (.stl (mop (.sr .seat) (.v 0) (.v 0) .n32 .plain .thread 0 0)) ∧
    decodeTableWord 64 0x657000000000A800 = some (.fence { h := h0, ord := .rel, scope := .die }) ∧
    decodeTableWord 64 0x6570000000000002 = some (.phase h0) ∧
    decodeTableWord 64 0x6670000000000010 = some (.retClr 0 h0) ∧
    decodeTableWord 64 0xD870200012000000 = some (.ld { mop (.v 4) (.v 0) (.v 0) .b32 .plain .thread 0 0 with h := hs, evict := 0 }) := by decide +kernel

/-- Worked tables of R264 to R295. -/
theorem test_words_copies :
    decodeTableWord 64 0x6D70102000002300 = some (.cpBlk (xop (.v 2) (.v 8) (.v 0) 1 0 .module)) ∧
    decodeTableWord 64 0x6D70183000002001 = some (.cpIng (xop (.v 3) (.v 12) (.v 0) 1 0 .thread)) ∧
    decodeTableWord 64 0x68700017C2000000 = some (.chbInit (rop .none (.v 0) (.v 5) (.inl 1) (.v 0))) ∧
    decodeTableWord 64 0x6870401412000003 = some (.chbWait (rop .none (.v 8) (.v 5) (.v 9) (.v 0))) ∧
    decodeTableWord 64 0x6A70301014E64008 = some (.gWait (mop (.v 6) (.v 4) (.v 10) .none .acq .module 1 8)) ∧
    decodeTableWord 64 0x6970001015664000 = some (.gAdd (mop (.v 0) (.v 4) (.v 10) .none .rel .module 1 0)) := by decide +kernel

/-- Worked tables of the matrix engine, the traversal engine, subscriptions, launches and queues. -/
theorem test_words_engines :
    decodeTableWord 64 0x6E70301000002001 = some (.mxStat (xop (.v 6) (.v 4) (.v 0) 1 0 .thread)) ∧
    decodeTableWord 64 0x6E70301000002002 = some (.mxAbort (xop (.v 6) (.v 4) (.v 0) 1 0 .thread)) ∧
    decodeTableWord 64 0x6F7018100C002400 = some (.trvBind (xop (.v 3) (.v 4) (.v 6) 1 1 .thread)) ∧
    decodeTableWord 64 0x6F70104002000001 = some (.trvCast (xop (.v 2) (.v 16) (.v 1) 0 0 .thread)) ∧
    decodeTableWord 64 0xEF70C00800000003 = some (.trvRes { xop (.v 24) (.v 2) (.v 0) 0 0 .thread with h := hs }) ∧
    decodeTableWord 64 0x6F7000080A000004 = some (.trvCont (xop (.v 0) (.v 2) (.v 5) 0 0 .thread)) ∧
    decodeTableWord 64 0x6F70102000002006 = some (.trvLoad (xop (.v 2) (.v 8) (.v 0) 1 0 .thread)) ∧
    decodeTableWord 64 0x7070101000002000 = some (.subOpen (xop (.v 2) (.v 4) (.v 0) 1 0 .thread)) ∧
    decodeTableWord 64 0x7070500800000001 = some (.subClose (xop (.v 10) (.v 2) (.v 0) 0 0 .thread)) ∧
    decodeTableWord 64 0xF070300000000002 = some (.subFlush { xop (.v 6) (.v 0) (.v 0) 0 0 .thread with h := hs }) ∧
    decodeTableWord 64 0x7070400800000003 = some (.subStat (xop (.v 8) (.v 2) (.v 0) 0 0 .thread)) ∧
    decodeTableWord 64 0x7270101000002300 = some (.lnch (xop (.v 2) (.v 4) (.v 0) 1 0 .module)) ∧
    decodeTableWord 64 0x7370181020002000 = some (.rqPut (xop (.v 3) (.v 4) (.v 16) 1 0 .thread)) ∧
    decodeTableWord 64 0x7370801000002001 = some (.rqGet (xop (.v 16) (.v 4) (.v 0) 1 0 .thread)) ∧
    decodeTableWord 64 0x7370181000002002 = some (.rqDone (xop (.v 3) (.v 4) (.v 0) 1 0 .thread)) := by decide +kernel

/-- Worked table of R443 to R447. -/
theorem test_words_system :
    decodeTableWord 64 0x7470200000000100 = some (.csrRd { h := h0, d := .v 4, a := .v 0, imm := 0x100 }) ∧
    decodeTableWord 64 0x7470000900000021 = some (.csrWr { h := h0, d := .v 0, a := .v 2, imm := 0x021 }) ∧
    decodeTableWord 64 0x7670000000000000 = some (.tret (rop .none (.v 0) (.v 0) (.v 0) (.v 0))) ∧
    decodeTableWord 64 0x7670000000000001 = some (.brk (rop .none (.v 0) (.v 0) (.v 0) (.v 0))) ∧
    decodeTableWord 64 0x7670000000000002 = some (.halt (rop .none (.v 0) (.v 0) (.v 0) (.v 0))) := by decide +kernel

/-- R71 and the tables of changes after the worked encodings: each changed word is refused with the code shown there. -/
theorem test_words_refused :
    let code := fun (w : Nat) => match Machine.decodeWord 384 false w 0 with | .error r => some r.cause | .ok _ => none
    code 0xF87010000E060000 = some 0x007 ∧ code 0xD87010001A060000 = some 0x013 ∧ code 0xD87010000F060000 = some 0x03B ∧ code 0xD87010040E060000 = some 0x023 ∧ code 0xD87010040F060000 = some 0x023 ∧
    code 0x197008100A000306 = some 0x009 ∧ code 0x197008100A000902 = some 0x011 ∧ code 0x197048100A000302 = some 0x021 ∧ code 0x2370180C00000034 = some 0x01A ∧
    code 0x34701023F0000B02 = some 0x011 ∧ code 0x4870604000000E6A = some 0x009 ∧ code 0x4A70409020000D00 = some 0x021 ∧ code 0x4A70408010000D00 = some 0x021 ∧ code 0x4A70408020000D02 = some 0x009 := by decide +kernel

/-- For each check of R72 a term that no word of a warp with budget 16 encodes: a register beyond the budget, an odd pair, an unused field that is not zero, a type the row does not list, an ordering the instruction forbids. -/
theorem test_wellFormed_refuses :
    wellFormed 16 (.add (rop .i32 (.v 2) (.v 2) (.v 16) (.v 0))) = false ∧ wellFormed 16 (.add (rop .i64 (.v 3) (.v 2) (.v 4) (.v 0))) = false ∧
    wellFormed 16 (.add (rop .i32 (.v 2) (.v 2) (.v 4) (.v 1))) = false ∧ wellFormed 16 (.add (rop .f32 (.v 2) (.v 2) (.v 4) (.v 0))) = false ∧
    wellFormed 16 (.ld (mop (.v 2) (.v 0) (.v 0) .n32 .rel .die 0 0)) = false ∧ wellFormed 16 (.add (rop .i32 (.v 2) (.v 2) (.v 15) (.v 0))) = true ∧
    wellFormed 16 (.csrWr { h := h0, d := .v 1, a := .v 2, imm := 0x021 }) = false ∧ wellFormed 16 (.ld (mop (.v 2) (.v 0) (.v 0) .n32 .acq .die 0 0)) = true := by decide +kernel

theorem ok_of {ε α : Type} {x : Except ε α} {a : α} (h : x.toOption = some a) : x = .ok a := by
  cases x with
  | error e => simp [Except.toOption] at h
  | ok b => simp only [Except.toOption, Option.some.injEq] at h; rw [h]

/-! ## Results: the manual's worked examples, one step of one seat -/

/-- One seat stands ready with these vector registers. -/
def lone (vs : List (Nat × W32)) : State := (base 1).updThread 0 (fun th => { th with v := vs })

/-- What v8 of seat 0 holds after the instruction, or will hold when its result arrives, and the flags. -/
def gives (i : Instr) (vs : List (Nat × W32)) : Option (W32 × W32) :=
  match exec i (lone vs) with
  | .next t => match (t.thread 0).out with
    | [] => some (t.regOf 0 (false, 8), (t.thread 0).fx)
    | p :: _ => (Assoc.find (p.dst.map (fun e => (e.1.2, e.2))) 8).map (fun v => (v, p.fx))
  | _ => none

def ab (t : Ty) : ROp := rop t (.v 8) (.v 2) (.v 4) (.v 6)

/-- R108, the worked cases. -/
theorem test_div : [gives (.div (ab .i32)) [(2, 7), (4, -2)], gives (.div (ab .i32)) [(2, -7), (4, 2)], gives (.div (ab .i32)) [(2, 0x80000000), (4, -1)], gives (.div (ab .i32)) [(2, -5)], gives (.div (ab .i32)) [], gives (.div (ab .n32)) [(2, 5)]] =
    [some (0xFFFFFFFD, 0), some (0xFFFFFFFD, 0), some (0x7FFFFFFF, 0), some (0x80000000, 0), some (0x7FFFFFFF, 0), some (0xFFFFFFFF, 0)] := by decide +kernel

theorem test_rem : [gives (.rem (ab .i32)) [(2, 7), (4, -2)], gives (.rem (ab .i32)) [(2, -7), (4, 2)], gives (.rem (ab .n32)) [(2, 5)]] = [some (1, 0), some (0xFFFFFFFF, 0), some (5, 0)] := by decide +kernel

/-- R112, the examples, with A = 0x1230. -/
theorem test_bits : [gives (.bfe (ab .n32)) [(2, 0x1230), (4, 4), (6, 8)], gives (.bfe (ab .i32)) [(2, 0x1230), (4, 4), (6, 6)], gives (.bfi (ab .b32)) [(2, 0x1230), (4, 0xFFFFFFFF), (6, 0x408)],
    gives (.prmt (ab .b32)) [(2, 0x1230), (4, 0xAABBCC80), (6, 0x8C40)]] = [some (0x23, 0), some (0xFFFFFFE3, 0), some (0xFFFFF0FF, 0), some (0x00FF8030, 0)] := by decide +kernel

theorem test_counts : [gives (.clz { ab .b32 with b := .v 0, c := .v 0 }) [(2, 0x1230)], gives (.ctz { ab .b32 with b := .v 0, c := .v 0 }) [(2, 0x1230)], gives (.popc { ab .b32 with b := .v 0, c := .v 0 }) [(2, 0x1230)]] =
    [some (19, 0), some (4, 0), some (4, 0)] := by decide +kernel

/-- The worked 96-bit add: the first and the second word. -/
theorem test_addc : [gives (.addc (rop .n32 (.v 8) (.v 0) (.v 3) (.inl 0))) [(0, 0xFFFFFFFF), (3, 1)], gives (.addc (rop .n32 (.v 8) (.v 1) (.v 4) (.v 9))) [(1, 0xFFFFFFFF), (4, 0), (9, 1)]] = [some (0, 0), some (0, 0)] := by decide +kernel

/-- R94, the examples: the element in v2, its scale in v4. -/
theorem test_dqn : gives (.dqn true (rop .e4m3 (.v 8) (.v 2) (.v 4) (.inl 0))) [(2, 0x4C), (4, 0x8040)] = some (0x41700000, 0) ∧ gives (.dqn false (rop .e2m1 (.v 8) (.v 2) (.v 4) (.inl 0))) [(2, 7), (4, 0x7C)] = some (0x3F400000, 0) ∧
    gives (.dqn true (rop .e4m3 (.v 8) (.v 2) (.v 4) (.inl 0))) [(4, 0xFF00)] = some (0x7FC00000, 0x80) ∧ gives (.dqn false (rop .e4m3 (.v 8) (.v 2) (.v 4) (.inl 0))) [(2, 0x7E), (4, 0xFE)] = some (0x7F800000, 0x14) ∧
    gives (.dqn true (rop .e4m3 (.v 8) (.v 2) (.v 4) (.inl 1))) [(2, 0x00AA3B7E), (4, 0x801E)] = some (0x4044A000, 0) := by decide +kernel

def cvtTo (t : Ty) (rnd : Rnd) (sub : Fin 4) (a : W32) : Option (W32 × W32) := gives (.cvt sub .f32 { rop t (.v 8) (.v 2) (.v 0) (.v 0) with rnd := rnd }) [(2, a)]

/-- The worked conversions at the edges (after R94): results. -/
theorem test_cvt : (cvtTo .e4m3 .rn 0 0x43E80000).map Prod.fst = some 0x7E ∧ (cvtTo .e4m3 .rn 0 0x43E88000).map Prod.fst = some 0x7E ∧ (cvtTo .e4m3 .rz 0 0x43FA0000).map Prod.fst = some 0x7E ∧ (cvtTo .e4m3 .rn 0 0x3A800000).map Prod.fst = some 0 ∧
    (cvtTo .e4m3 .rn 0 0x3AC00000).map Prod.fst = some 1 ∧ (cvtTo .e4m3 .rn 0 0xFF800000).map Prod.fst = some 0xFE ∧ (cvtTo .e4m3 .rn 3 0x7FC00000).map Prod.fst = some 0xFE ∧ (cvtTo .e2m1 .rn 0 0x40A00000).map Prod.fst = some 6 ∧
    (cvtTo .e2m1 .rn 0 0x40E00000).map Prod.fst = some 7 ∧ (cvtTo .e5m2 .rn 0 0x47700000).map Prod.fst = some 0x7C ∧ (cvtTo .e5m2 .rz 0 0x47700000).map Prod.fst = some 0x7B := by decide +kernel

/-- R133: edge results (nv is bit 0, dz bit 1, of bit 2 of the flags, R90). -/
theorem test_special : (gives (.frcp (rop .f32 (.v 8) (.v 2) (.v 0) (.v 0))) []).map Prod.fst = some 0x7F800000 ∧ (gives (.frsq (rop .f32 (.v 8) (.v 2) (.v 0) (.v 0))) [(2, 0xBF800000)]).map Prod.fst = some 0x7FC00000 ∧
    (gives (.fsqrt (rop .f32 (.v 8) (.v 2) (.v 0) (.v 0))) [(2, 0x80000000)]) = some (0x80000000, 0) ∧ (gives (.fex2 (rop .f32 (.v 8) (.v 2) (.v 0) (.v 0))) [(2, 0xC3160000)]).map Prod.fst = some 0 ∧
    (gives (.flg2 (rop .f32 (.v 8) (.v 2) (.v 0) (.v 0))) [(2, 1)]) = some (0xC3150000, 0) ∧ (gives (.fsin (rop .f32 (.v 8) (.v 2) (.v 0) (.v 0))) [(2, 0x3F000000)]) = some (0x3F800000, 0) := by decide +kernel

/-- After R140, one block with an E8M0 scale: v8 and the flags st, nx, of. -/
theorem test_qnt : gives (.qnt 0 false (rop .e4m3 (.v 8) (.v 32) (.v 16) (.v 0))) [(32, 0x447A0000), (33, 0x40400000), (34, 0xBF333333)] = some (0x00AB3C7E, 0x54) := by decide +kernel
theorem test_qnt_xs16 : gives (.qnt 0 true (rop .e4m3 (.v 8) (.v 32) (.v 16) (.v 0))) [(32, 0x447A0000), (33, 0x40400000), (34, 0xBF333333)] = some (0x00AA3B7E, 0x10) := by decide +kernel

/-! ## Hypotheses -/

theorem calm_base : Calm (base 0xF) (foc 0xF) := by constructor <;> decide +kernel
theorem calm_one : Calm (base 1) (foc 1) := by constructor <;> decide +kernel

/-- Integer, logic, predicate, float instructions: a calm group of four that agrees on w0, and one alone. -/
theorem wit_registers : Calm (base 0xF) (foc 0xF) ∧ (base 0xF).Uniform (foc 0xF) (.add (rop .i32 (.w 0) (.inl 1) (.inl 2) (.v 0))) (fun _ => effTy .i32 (.w 0) 3) ∧
    Calm (base 1) (foc 1) ∧ (base 1).Uniform (foc 1) (.prmt (rop .b32 (.w 3) (.v 2) (.v 3) (.v 4))) (fun k => effTy .b32 (.w 3) k) := by
  refine ⟨calm_base, ?_, calm_one, ?_⟩ <;> unfold State.Uniform <;> decide +kernel

/-- The same threads in memory that both stages map one to one, with a header of two words at 0x100000 (log 30). -/
def mapped (g : W32) : State :=
  let s := State.reset.placeWord 0
  { s with threads := (base g).threads, focus := some (foc g), sched := [] }

theorem calm_mapped : Calm (mapped 0xF) (foc 0xF) := by constructor <;> decide +kernel

/-- The header that `mapped` holds. -/
def head0 : Nat := 0xB0020000000000B2

/-- A header is fetched well formed; one that is not; one in a stack; a misaligned one. -/
theorem wit_HeaderEntry : ((mapped 0xF).fetch 0 (0#16 ++ 0x100000#64)).1 = .ok head0 ∧ ((mapped 0xF).fetch 0 (0#16 ++ 0x100010#64)).1 = .ok 0 :=
  ⟨ok_of (by decide +kernel), ok_of (by decide +kernel)⟩

theorem wit_HeaderEntry_stack :
    ((0x100000#64) ∉ ((mapped 0xF).thread 0).stack) ∧ (0x100040#64) ∈ (((mapped 0xF).updThread 0 (fun th => { th with stack := [0x100020, 0x100040] })).thread 0).stack ∧
    ((mapped 0xF).thread 0).st ≠ .exited ∧ ((mapped 0xF).thread 0).rcd.cause = 0x3C0 := by decide +kernel

/-- A thread has waited at a header for 4,096 opportunities. -/
def late : State :=
  ((mapped 0xF).updThread 1 (fun th => { th with st := .reconverging, pc := 0x100000, stack := [0x100000], arrived := 4 })).updWarp 0 (fun w => { w with opp := 4100 })

theorem wit_ReconvergenceTimeout : late.warpRuns 0 = true ∧ late.inOrder 0 = true ∧ (1 ∈ warpThreads 0 ∧ (late.thread 1).st = .reconverging ∧ (late.thread 1).pc = 0x100000 ∧ (late.thread 1).arrived + 4096 ≤ (late.warp 0).opp) := by decide +kernel

theorem wit_BranchesAndCalls : Calm (mapped 0xF) (foc 0xF) ∧ (mapped 0xF).Uniform (foc 0xF) (.call { h := h0, link := .v 20, cond := { neg := false, p := 7 }, disp := 2 }) (fun k => eff64 (.v 20) (BitVec.ofNat 64 k)) ∧
    (∀ j, ((mapped 0xF).active (foc 0xF) (.bru { h := h0, link := .v 0, cond := { neg := true, p := 2 }, disp := 2 })).head? = some j → ((mapped 0xF).thread j).pred 2 = false) := by
  refine ⟨calm_mapped, by unfold State.Uniform; decide +kernel, ?_⟩
  have : ((mapped 0xF).active (foc 0xF) (.bru { h := h0, link := .v 0, cond := { neg := true, p := 2 }, disp := 2 })).head? = some 0 := by decide +kernel
  rw [this]
  intro j hj
  cases hj
  decide +kernel

/-! ## Control flow, convergence, the handler -/

theorem quiet_of {s : State} (h : s.ctxs.all (fun p => decide (p.2.logMode = 0)) = true) (h2 : s.subs = []) : Quiet s := by
  refine ⟨fun c => ?_, h2⟩
  have key : ∀ (l : Assoc Ctx) (c : Nat), l.all (fun p => decide (p.2.logMode = 0)) = true → ((Assoc.find l c).getD {}).logMode = 0 := by
    intro l c hl
    induction l with
    | nil => rfl
    | cons p t ih =>
      rw [List.all_cons, Bool.and_eq_true] at hl
      simp only [Assoc.find]
      split
      · simpa using hl.1
      · exact ih hl.2
  exact key s.ctxs c h

def quiet (s : State) : Bool := s.ctxs.all (fun p => decide (p.2.logMode = 0)) && decide (s.subs = [])

theorem quiet_true {s : State} (h : quiet s = true) : Quiet s := by
  simp only [quiet, Bool.and_eq_true, decide_eq_true_eq] at h
  exact quiet_of h.1 h.2

def plainOp : ROp := rop .none (.v 0) (.v 0) (.v 0) (.v 0)

/-- `exit`, `yield`: the whole team at once. -/
theorem wit_ThreadExit : Calm (mapped 0xF) (foc 0xF) ∧ Quiet (mapped 0xF) ∧ (foc 0xF).threads = (mapped 0xF).active (foc 0xF) (.exit plainOp) ∧ (∀ k ∈ (foc 0xF).threads, ((mapped 0xF).thread k).st = .ready) ∧
    (∀ k ∈ teamThreads 0 ((mapped 0xF).team 0), ((mapped 0xF).thread k).st = .exited ∨ k ∈ (mapped 0xF).active (foc 0xF) (.exit plainOp)) ∧ (foc 0xF).wid < ((mapped 0xF).team 0).warps ∧ ((mapped 0xF).team 0).life = .resident :=
  ⟨calm_mapped, quiet_true (by decide +kernel), by decide +kernel, by decide +kernel, by decide +kernel, by decide +kernel, by decide +kernel⟩

/-- Four seats at a convergent instruction: v5 holds the mask, v2 a value of each, v6 an operand, p1 is false for seat 1. -/
def gath : State :=
  { mapped 0xF with threads := (List.range 32).map (fun k => (k, if k < 4 then { pc := 0x100008, block := 0x100000, len := 8, v := [(2, BitVec.ofNat 32 (5 + 3 * k)), (5, 0xF), (6, BitVec.ofNat 32 (k + 1))], p := if k = 1 then 0 else 2 } else { st := .exited })) }

theorem calm_gath : Calm gath (foc 0xF) := by constructor <;> decide +kernel

theorem gathers_gath {i : Instr} (h : convMask i = .v 5) : Gathers gath (foc 0xF) i :=
  ⟨calm_gath, by decide +kernel, by decide +kernel, by decide +kernel, by rw [h]; decide +kernel, by decide +kernel, by decide +kernel, by decide +kernel, by decide +kernel⟩

/-- Every convergent instruction has an instance: one mask, a value of each type. -/
theorem wit_CrossThread : Gathers gath (foc 0xF) (.xch .rot (rop .n64 (.v 8) (.v 2) (.v 6) (.v 5))) ∧ Gathers gath (foc 0xF) (.agr .same (rop .none (.w 3) (.v 2) (.v 0) (.v 5))) ∧ Gathers gath (foc 0xF) (.bal (rop .none (.v 8) (.v 2) (.v 0) (.v 5))) ∧
    Gathers gath (foc 0xF) (.matchSeats true (rop .b32 (.v 8) (.v 2) (.v 0) (.v 5))) ∧ Gathers gath (foc 0xF) (.elect { rop .none (.v 8) (.v 0) (.v 0) (.v 5) with h := hp 1 }) ∧ Gathers gath (foc 0xF) (.cvg (rop .none (.v 0) (.v 0) (.v 0) (.v 5))) :=
  ⟨gathers_gath rfl, gathers_gath rfl, gathers_gath rfl, gathers_gath rfl, gathers_gath rfl, gathers_gath rfl⟩

theorem wit_CrossThread_uniform : gath.Uniform (foc 0xF) (.agr .same (rop .none (.w 3) (.v 2) (.v 0) (.v 5))) (fun _ => eff32 (.w 3) 0) := by unfold State.Uniform; decide +kernel

theorem wit_ScansAndReductions : Gathers gath (foc 0xF) (.scan .min true (rop .f32 (.v 8) (.v 2) (.v 0) (.v 5))) ∧ Gathers gath (foc 0xF) (.redw .xor (rop .b32 (.w 8) (.v 2) (.v 0) (.v 5))) := ⟨gathers_gath rfl, gathers_gath rfl⟩

theorem wit_Crossbar : Gathers gath (foc 0xF) (.xbar 2 (rop .b32 (.v 8) (.v 2) (.inl 2) (.v 5))) ∧ Gathers gath (foc 0xF) (.xbarLd 2 (rop .none (.v 0) (.v 2) (.v 0) (.v 5))) := ⟨gathers_gath rfl, gathers_gath rfl⟩

/-- What each thread of `hand` saved at the handler's entry. -/
def tr0 (k : Nat) : TrapState := { resume := 0x100018, saved := 0x100018, block := 0x100010, stack := [0x100040], seq := 3, before := if k = 1 then .parked else .ready, wait := .again 5, len := 6 }

/-- The team in its handler: seat 2 has raised a cause there. -/
def hand : State :=
  let s := ((mapped 0xF).updTeam 0 (fun t => { t with handler := true, prim := 0x85, primTid := 3, cref := 3, xh := #v[1, 2, 3, 4, 5, 6, 7, 0xFFFF] })).setCore 0 { world := 5 }
  (List.range 4).foldl (fun s k => s.updThread k (fun th => { th with fx := BitVec.ofNat 32 k, trap := some (tr0 k), rcd := if k = 2 then { cause := 0x85, more := true } else {} })) s

theorem calm_hand : Calm hand (foc 0xF) := by constructor <;> decide +kernel

theorem wit_ControlRegisters : Calm hand (foc 0xF) ∧ (hand.team 0).handler = true ∧ (∀ k ∈ (foc 0xF).threads, (hand.thread k).trap = some (tr0 k)) ∧ (hand.active (foc 0xF) (.csrWr { h := h0, d := .v 0, a := .v 2, imm := 0x101 })).head? = some 0 :=
  ⟨calm_hand, by decide +kernel, by decide +kernel, by decide +kernel⟩

theorem wit_ControlRegisters_uniform : hand.Uniform (foc 0xF) (.csrRd { h := h0, d := .w 4, a := .v 0, imm := 0x010 }) (fun _ => eff32 (.w 4) 3) := by unfold State.Uniform; decide +kernel

/-- A write of the handler's cause: one thread with a cause of the handler's own, one without. -/
theorem wit_HandlerCauseWrite : ∀ k ∈ hand.active (foc 0xF) (.csrWr { h := h0, d := .v 0, a := .v 2, imm := 0x100 }), (hand.thread k).st = .ready ∧ (hand.thread k).after 1 ≠ (hand.thread k).nextHeader ∧ (hand.thread k).after 1 ≠ (hand.thread k).block ∧
    (k = 2 ∧ (hand.thread k).rcd.cause ≠ 0x3C0 ∨ (hand.thread k).rcd.cause = 0x3C0 ∧ (hand.thread k).trap = some (tr0 k)) := by decide +kernel

/-- The bounds of each range of control registers that a program may not reach. -/
theorem wit_PrivilegeCauses : ((mapped 0xF).team 0).handler = false ∧ (hand.team 0).handler = true ∧ (∀ n ∈ [0x100, 0x1FF, 0x200, 0x2FF, 0x001, 0x010, 0x103, 0x109], (BitVec.ofNat 32 n).toNat % 4096 = n) := by decide +kernel

theorem wit_TrapAndBreak : Calm (mapped 0xF) (foc 0xF) ∧ (mapped 0xF).active (foc 0xF) (.brk plainOp) ≠ [] ∧ (∀ k ∈ (foc 0xF).threads, ((mapped 0xF).thread k).st = .ready ∧ ((mapped 0xF).thread k).rcd.cause = 0x3C0) ∧ ((mapped 0xF).team 0).life = .resident :=
  ⟨calm_mapped, by decide +kernel, by decide +kernel, by decide +kernel⟩

/-- The same team with a debugger attached to its context. -/
def watched : State := (mapped 0xF).updMod (fun m => { m with attached := some (0, 0, 0) })

theorem wit_HaltAndMark : Calm (watched.updMod (fun m => { m with attached := none })) (foc 0xF) ∧ watched.attachedTo (watched.team 0) = true ∧ watched.mod.bps = [] ∧ watched.active (foc 0xF) (.halt plainOp) ≠ [] ∧ (watched.team 0).life = .resident :=
  ⟨by constructor <;> decide +kernel, by decide +kernel, by decide +kernel, by decide +kernel, by decide +kernel⟩

/-- All return at once: seat 1 was parked, its resume point unchanged; the others were not. Then seat 3 still runs. -/
theorem wit_TrapReturn : (hand.team 0).handler = true ∧ (∀ k ∈ (foc 0xF).threads, k ∈ hand.active (foc 0xF) (.tret plainOp) ∧ (hand.thread k).st = .ready ∧ (hand.thread k).launchDue = false ∧ (hand.thread k).trap = some (tr0 k)) ∧
    (0 < 1 ∧ (foc 0xF).wid < (hand.team 0).warps ∧ (∀ j ∈ (foc 0xF).threads, (tr0 j).before = .parked → (tr0 j).wait.single = true)) ∧
    ((teamThreads 0 (hand.team 0)).filter (fun k => decide ((hand.thread k).st ≠ .exited) && !(foc 0xF).threads.contains k) = []) ∧
    ((tr0 0).before ≠ .parked ∧ (0 < 1 ∧ 1 ≤ (tr0 0).len ∧ (tr0 0).len < 2 ^ 12 ∧ (tr0 0).resume = (tr0 0).block + BitVec.ofNat 64 (8 * 1))) ∧ ((tr0 1).before = .parked ∧ (tr0 1).resume = (tr0 1).saved) ∧
    ((teamThreads 0 (hand.team 0)).filter (fun k => decide ((hand.thread k).st ≠ .exited) && !(foc 7).threads.contains k) = [3] ∧ (hand.thread 3).wait ≠ .tret) := by decide +kernel

/-! ## Memory -/

def mo (ty : Ty) (d a b : Src) : MOp := mop d a b ty .plain .thread 0 0

/-- A scratchpad of 1,024 bytes; v2 holds 16 times the seat, the pair v4 8 times the seat with the window's mark, v5 1. -/
def spadded (g : W32) : State :=
  let s := (mapped g).updTeam 0 (fun t => { t with spadSize := 1024, spad := Tbl.setN [] 0 ((List.range 64).map (fun i => BitVec.ofNat 8 (i * 5 + 3))), chambers := [512] })
  (List.range 4).foldl (fun s k => s.updThread k (fun th => { th with v := [(2, BitVec.ofNat 32 (16 * k)), (4, BitVec.ofNat 32 (8 * k)), (5, 1), (6, 7), (7, 9), (8, 0x3E)] })) s

theorem calm_spadded : Calm (spadded 0xF) (foc 0xF) := by constructor <;> decide +kernel

theorem wit_ScratchpadLoads : (∀ k ∈ (spadded 0xF).active (foc 0xF) (.ldl (mo .n64 (.v 8) (.v 2) (.v 0))), ((spadded 0xF).team 0).fits ((spadded 0xF).offset k (mo .n64 (.v 8) (.v 2) (.v 0))) 8 ∧ ((spadded 0xF).team 0).clean ((spadded 0xF).offset k (mo .n64 (.v 8) (.v 2) (.v 0))) 8) ∧
    (∀ k ∈ (spadded 0xF).active (foc 0xF) (.ld (mop (.v 8) (.v 4) (.v 0) .i16 .plain .thread 7 0)), (spadded 0xF).inWindow k (mop (.v 8) (.v 4) (.v 0) .i16 .plain .thread 7 0) (8 * k) ∧ ((spadded 0xF).team 0).fits (8 * k) 2 ∧ ((spadded 0xF).team 0).clean (8 * k) 2) ∧
    (∀ k ∈ (spadded 0xF).active (foc 0xF) (.ldlTile { mo .b32 (.v 8) (.v 5) (.v 0) with dir := true }), ((spadded 0xF).team 0).fits (((spadded 0xF).offset k { mo .b32 (.v 8) (.v 5) (.v 0) with dir := true } / 4 + 32 * seatOf k) * 4) 4) := by
  unfold Team.fits Team.clean State.inWindow; decide +kernel

theorem wit_ScratchpadStores : (∀ k ∈ (spadded 0xF).active (foc 0xF) (.stl (mo .n64 (.v 6) (.v 2) (.v 0))), ((spadded 0xF).team 0).fits ((spadded 0xF).offset k (mo .n64 (.v 6) (.v 2) (.v 0))) 8) ∧ (spadded 0xF).subs = [] := by
  unfold Team.fits; decide +kernel

/-- One seat, ready alone. -/
def alone (s : State) : State := { s with threads := s.threads.map (fun p => if p.1 = 0 then p else (p.1, { p.2 with st := .exited })), focus := some (foc 1) }

theorem lone_of {s : State} {i : Instr} (hc : Calm s (foc 1)) (h : (s.thread 0).st = .ready) (hg : (s.thread 0).holds (wordHdr i).g = true) : Lone s (foc 1) i 0 := ⟨hc, by decide, h, hg⟩

def locky : State := alone (spadded 1)

theorem calm_locky : Calm locky (foc 1) := by constructor <;> decide +kernel

theorem wit_ScratchpadAtomics : Lone locky (foc 1) (.atl .add (mo .n32 (.v 12) (.v 2) (.v 6))) 0 ∧ (0 = locky.offset 0 (mo .n32 (.v 12) (.v 2) (.v 6))) ∧ locky.inWindow 0 (mop (.v 12) (.v 4) (.v 6) .n64 .plain .thread 7 0) 0 ∧ (locky.team 0).fits 0 8 ∧ (locky.team 0).clean 0 8 ∧ (locky.core 0).locks = [] :=
  ⟨lone_of calm_locky (by decide +kernel) (by decide +kernel), by decide +kernel, by unfold State.inWindow; decide +kernel, by unfold Team.fits; decide +kernel, by unfold Team.clean; decide +kernel, by decide +kernel⟩

/-- A thread parked on a scratchpad lock that is free now. -/
def waiter (i : Instr) (d : Src) : State :=
  (locky.updThread 0 (fun th => { th with st := .parked, wait := .lock i 16 5 0, out := [{ pc := 0x100008, tcount := 0, dst := (dstTy .n32 d 0).filter (fun x => !x.1.1), parks := true, held := 1, has := false }] })).updMod (fun m => { m with ready := true })

def waiting (u : State) (i : Instr) (o : MOp) (q : Pending) : Prop :=
  u.missed = none ∧ u.subs = [] ∧ (u.ctxOf (u.team 0)).logMode = 0 ∧ u.attachedTo (u.team 0) = false ∧ u.mayIssue 0 0 = true ∧ u.isNext 0 0 = true ∧ (u.thread 0).st = .parked ∧ (u.thread 0).wait = .lock i 16 5 0 ∧
    (u.thread 0).out = [q] ∧ (q.parks = true ∧ q.held = 1 ∧ q.dst = (dstTy o.ty o.d 0).filter (fun x => !x.1.1)) ∧ (u.core 0).locks = [] ∧ u.inside 0 1

/-- An atomic on a vector register, a compare and exchange, a window; and an atomic on a w register, whose result the warp waits for. -/
theorem wit_LockRetry :
    let o := mo .n32 (.v 12) (.v 2) (.v 6)
    let ow := mo .n32 (.w 12) (.v 2) (.v 6)
    let res (w : Bool) (x : Src) : Pending := { pc := 0x100008, tcount := 0, dst := (dstTy .n32 x 0).filter (fun y => y.1.1 == w), parks := true, held := 1, has := false }
    (∀ i ∈ [Instr.atl .add o, .atomx o, .ldlk o], waiting (waiter i (.v 12)) i o (res false (.v 12)) ∧ ∀ j ∈ warpThreads 0, j ≠ 0 → ((waiter i (.v 12)).thread j).wait = .none) ∧
    (let u := (waiter (.atl .add ow) (.w 12)).updWarp 0 (fun w => { w with out := [res true (.w 12)] })
     waiting u (.atl .add ow) ow (res false (.w 12)) ∧ (u.warp 0).out = [res true (.w 12)]) := by
  simp only [waiting, State.inside]
  decide +kernel

/-- The same seat inside a window that it opened at offset 0. -/
def windowed : State := (locky.updThread 0 (fun th => { th with win := some { off := 0, width := 8, count := 4 } })).updCore 0 (fun c => { c with locks := (lockNums 0 8).map (fun l => (l, 0)) })

theorem wit_LockWindows : Lone (windowed.updThread 0 (fun th => { th with win := none })) (foc 1) (.stul (mo .n64 (.v 6) (.v 2) (.v 0))) 0 ∧ (windowed.thread 0).win = some { off := windowed.offset 0 (mo .n64 (.v 6) (.v 2) (.v 0)), width := 8, count := 4 } ∧ (windowed.team 0).fits 0 8 :=
  ⟨⟨by constructor <;> decide +kernel, by decide, by decide +kernel, by decide +kernel⟩, by decide +kernel, by unfold Team.fits; decide +kernel⟩

theorem pair_ok {ε α σ : Type} {r : Except ε α × σ} {a : α} (h : r.1.toOption = some a) : r = (.ok a, r.2) := Prod.ext (ok_of h) rfl

/-- A seat alone with pointers to two lines of memory: 0x200040 stands in memory only, 0x200080 in the L1 with bytes pending; 0x200100 in the L1, clean. -/
def memy : State :=
  let s := (alone (mapped 1)).updThread 0 (fun th => { th with v := [(2, 0x200040), (4, 0x200100), (6, 0xFF112233), (7, 0xAABBCCDD), (8, 0x5F5A5550), (9, 7), (10, 0x200080), (12, 5), (14, 0xFFFFFFFF), (15, 0xFFFFFFFF)] })
  let s := s.updCore 0 (fun c => { c with l1 := [(0x200080 / 128, { data := 0x0123456789ABCDEF, have_ := 0xFFFF, pend := 0xF0 }), (0x200100 / 128, { data := 0x77, have_ := BitVec.allOnes 128, read := true })] })
  { s with mem := Tbl.setN s.mem 0x200040 [1, 2, 3, 4, 5, 6, 7], lines := Assoc.put s.lines (0x200000 / 128) {}, mod := { s.mod with ready := true, linkUp := true } }

theorem calm_memy : Calm memy (foc 1) := by constructor <;> decide +kernel
theorem open_memy : LinkOpen memy := ⟨by decide +kernel, by decide +kernel⟩

theorem lone_memy {i : Instr} (hg : (wordHdr i).g = { neg := false, p := 7 }) : Lone memy (foc 1) i 0 := lone_of calm_memy (by decide +kernel) (by rw [hg]; decide +kernel)

/-- The piece of memory that an access of n bytes through a pointer pair leads to, and the state its translation leaves. -/
def piece (pa n : Nat) : Piece := { pa := pa, key := 0, n := n, sealed := false, va := pa }

theorem reaches_memy (addr : Addr80) (n : Nat) (a : Acc) (p : Piece) (h : addr.toNat % n = 0) (hr : ((memy.startIssue (foc 1).threads).resolve 0 addr n a).1.toOption = some (.mem [p])) (hl : p.inLine n) :
    memy.reaches1 (foc 1) 0 addr n a p ((memy.startIssue (foc 1).threads).resolve 0 addr n a).2 := ⟨h, pair_ok hr, hl⟩

def ld0 (ord : Ord) (sc : Scope) : MOp := mop (.v 12) (.v 2) (.v 6) .n64 ord sc 0 0

theorem reaches_read : memy.reaches1 (foc 1) 0 (memy.gaddr 0 (ld0 .plain .thread)) 8 .read (piece 0x200040 8) ((memy.startIssue (foc 1).threads).resolve 0 (memy.gaddr 0 (ld0 .plain .thread)) 8 .read).2 := reaches_memy _ _ _ _ (by decide +kernel) (by decide +kernel) (by unfold Piece.inLine; decide +kernel)
theorem reaches_write : memy.reaches1 (foc 1) 0 (memy.gaddr 0 (ld0 .rel .module)) 8 .write (piece 0x200040 8) ((memy.startIssue (foc 1).threads).resolve 0 (memy.gaddr 0 (ld0 .rel .module)) 8 .write).2 := reaches_memy _ _ _ _ (by decide +kernel) (by decide +kernel) (by unfold Piece.inLine; decide +kernel)
theorem reaches_atomic : memy.reaches1 (foc 1) 0 (memy.gaddr 0 (ld0 .rel .module)) 8 .atomic (piece 0x200040 8) ((memy.startIssue (foc 1).threads).resolve 0 (memy.gaddr 0 (ld0 .rel .module)) 8 .atomic).2 := reaches_memy _ _ _ _ (by decide +kernel) (by decide +kernel) (by unfold Piece.inLine; decide +kernel)

/-- The last place in the line, which an access of 8 bytes still fits, and a place that pends in the L1. -/
theorem wit_MemoryLoadsAndStores : Lone memy (foc 1) (.ld (ld0 .plain .thread)) 0 ∧ Lone memy (foc 1) (.st (ld0 .rel .module)) 0 ∧ Quiet memy ∧ LinkOpen memy ∧ memy.poisoned (0x200040 / 128) = false ∧ memy.hasRoom 0 (0x200040 / 128) ∧ memy.hasRoom 0 (0x200080 / 128) ∧
    Assoc.find (memy.core 0).l1 (0x200040 / 128) = none ∧ (Assoc.find (memy.core 0).l1 (0x200080 / 128)).map (fun l => l.poison) = some false ∧ (piece 0x200078 8).inLine 8 :=
  ⟨lone_memy rfl, lone_memy rfl, quiet_true (by decide +kernel), open_memy, by decide +kernel, by unfold State.hasRoom; decide +kernel, by unfold State.hasRoom; decide +kernel, by decide +kernel, by decide +kernel, by unfold Piece.inLine; decide +kernel⟩

theorem wit_MemoryAtomics : Lone memy (foc 1) (.atom .add (ld0 .acqrel .module)) 0 ∧ Lone memy (foc 1) (.atomx (ld0 .plain .module)) 0 ∧ ((memy.startIssue (foc 1).threads).resolve 0 (memy.gaddr 0 (ld0 .rel .module)) 8 .atomic).2.poisoned (0x200040 / 128) = false :=
  ⟨lone_memy rfl, lone_memy rfl, by decide +kernel⟩

def cl0 (sc : Scope) : MOp := mop (.v 0) (.v 10) (.v 0) .none .plain sc 0 0

/-- `prf` and cache maintenance of the line that pends. -/
theorem wit_PrefetchAndCacheLines : Lone memy (foc 1) (.prf (cl0 .thread)) 0 ∧ Lone memy (foc 1) (.clWb (cl0 .cluster)) 0 ∧ Lone memy (foc 1) (.clInv (cl0 .module)) 0 ∧
    memy.reaches1 (foc 1) 0 (memy.gaddr 0 (cl0 .thread)) 1 .read (piece 0x200080 1) ((memy.startIssue (foc 1).threads).resolve 0 (memy.gaddr 0 (cl0 .thread)) 1 .read).2 ∧
    memy.reaches1 (foc 1) 0 (memy.gaddr 0 (cl0 .thread)) 1 .walk (piece 0x200080 1) ((memy.startIssue (foc 1).threads).resolve 0 (memy.gaddr 0 (cl0 .thread)) 1 .walk).2 ∧
    (∃ l, Assoc.find (memy.core 0).l1 (0x200080 / 128) = some l ∧ l.poison = false ∧ l.pend ≠ 0) ∧ memy.hasRoom 0 (0x200080 / 128) :=
  ⟨lone_memy rfl, lone_memy rfl, lone_memy rfl, reaches_memy _ _ _ _ (by decide +kernel) (by decide +kernel) (by unfold Piece.inLine; decide +kernel), reaches_memy _ _ _ _ (by decide +kernel) (by decide +kernel) (by unfold Piece.inLine; decide +kernel),
    ⟨_, rfl, by decide +kernel, by decide +kernel⟩, by unfold State.hasRoom; decide +kernel⟩

theorem wit_Fences : Calm memy (foc 1) ∧ Quiet memy ∧ memy.active (foc 1) (.fence { h := h0, ord := .acqrel, scope := .cluster }) ≠ [] ∧ memy.active (foc 1) (.fenceX { h := h0, ps := 1, pd := 2, scope := .core }) ≠ [] := ⟨calm_memy, quiet_true (by decide +kernel), by decide +kernel, by decide +kernel⟩

/-- The last threads reach the boundary: seat 1 waits there already; then seat 1 still runs. -/
def bound : State := (mapped 0xD).updThread 1 (fun th => { th with st := .parked, wait := .phase false })

theorem wit_PhaseBoundary : Calm bound (foc 0xD) ∧ Quiet bound ∧ (∀ k ∈ (foc 0xD).threads, k ∈ bound.active (foc 0xD) (.phase h0) ∧ (bound.thread k).st = .ready) ∧
    ((teamThreads 0 (bound.team 0)).filter (fun k => decide ((bound.thread k).st ≠ .exited) && !(foc 0xD).threads.contains k) = [1] ∧ (bound.thread 1).st = .parked ∧ (bound.thread 1).wait = .phase false) ∧ ∀ sw, ((mapped 0xD).thread 1).wait ≠ .phase sw :=
  ⟨by constructor <;> decide +kernel, quiet_true (by decide +kernel), by decide +kernel, by decide +kernel, by decide +kernel⟩

/-- A range of memory, an empty one (v20 holds 0), and a window address (xh7). -/
theorem wit_RetentionRanges : (memy.active (foc 1) (.retSet 1 { h := h0, a := .v 2, b := .v 12, j := 0 })).head? = some 0 ∧ (memy.team 0).xh[(0 : Fin 8)] ≠ 0xFFFF#16 ∧ (memy.team 0).xh[(7 : Fin 8)] = 0xFFFF#16 ∧ (memy.rd 0 (.v 20)).toNat = 0 ∧ memy.active (foc 1) (.retClr 1 h0) ≠ [] := by decide +kernel

/-! ## Chambers and gauges -/

/-- A seat alone over an armed chamber at 32: generation 0, one arrival of two, 64 bytes of 80 counted; v2 names it, v3 holds 4, v4 16. -/
def chamb (c : Chamber) : State :=
  ((alone (mapped 1)).updTeam 0 (fun t => { (t.putChamber 32 c) with spadSize := 256, chambers := [32, 64] })).updThread 0 (fun th => { th with v := [(2, 32), (3, 4), (4, 16), (6, 48), (7, 65536), (8, 33), (9, 256), (10, 0xFFFFFFFF)] })

def cham0 : Chamber := { gen := 0, fs := false, armed := true, arr := 1, atgt := 2, bcnt := 64, btgt := 48 }

theorem calm_chamb : Calm (chamb cham0) (foc 1) := by constructor <;> decide +kernel

def chop (a b : Src) : ROp := rop .none (.v 9) a b (.v 0)

theorem lone_chamb {i : Instr} (hg : (wordHdr i).g = { neg := false, p := 7 }) : Lone (chamb cham0) (foc 1) i 0 := lone_of calm_chamb (by decide +kernel) (by rw [hg]; decide +kernel)

/-- `chb.init` of a slot not armed; updates of one that is, its last arrival with the bytes it expects. -/
theorem wit_ChamberUpdates : Lone (chamb cham0) (foc 1) (.chbInit (chop (.v 6) (.v 3))) 0 ∧ Lone (chamb cham0) (foc 1) (.chbArrive (chop (.v 2) (.v 4))) 0 ∧ Lone (chamb cham0) (foc 1) (.chbExpect (chop (.v 2) (.v 4))) 0 ∧ Lone (chamb cham0) (foc 1) (.chbRetire (chop (.v 2) (.v 0))) 0 ∧ (chamb cham0).subs = [] ∧
    48 % 16 = 0 ∧ 48 + 16 ≤ ((chamb cham0).team 0).spadSize ∧ 48 ∉ ((chamb cham0).team 0).chambers ∧ 32 ∈ ((chamb cham0).team 0).chambers ∧ (chamb cham0).directoryUse 0 < 256 ∧ ((chamb cham0).team 0).chamber 32 = cham0 :=
  ⟨lone_chamb rfl, lone_chamb rfl, lone_chamb rfl, lone_chamb rfl, by decide +kernel, by decide, by decide +kernel, by decide +kernel, by decide +kernel, by decide +kernel, by decide +kernel⟩

/-- The generation has passed for a wait on 1, and has not for a wait on 0. -/
theorem wit_ChamberWaits : Lone (chamb cham0) (foc 1) (.chbWait (chop (.v 2) (.v 3))) 0 ∧ Lone (chamb cham0) (foc 1) (.chbTest (chop (.v 2) (.v 0))) 0 ∧ ((chamb cham0).rd 0 (.v 3)).toNat / 4 = 1 ∧ ((chamb cham0).rd 0 (.v 0)).toNat / 4 = 0 ∧ cham0.gen = 0 ∧ cham0.fs = false :=
  ⟨lone_chamb rfl, lone_chamb rfl, by decide +kernel, by decide +kernel, rfl, rfl⟩

theorem wit_ChamberWaits_leave :
    let s := (chamb cham0).updThread 0 (fun th => { th with st := .parked, wait := .chamber 32 1 (.chbWait (chop (.v 2) (.v 3))) })
    s.warpRuns 0 = true ∧ (s.thread 0).st = .parked ∧ (s.thread 0).wait = .chamber 32 1 (.chbWait (chop (.v 2) (.v 3))) ∧ (s.thread 0).out = [] ∧ (s.warp 0).out = [] ∧ 32 ∈ (s.team 0).chambers ∧ ((s.team 0).chamber 32).gen ≠ 1 ∧ s.inOrder 0 = true ∧ s.FirstToLeave 0 ∧ s.inside 0 1 := by unfold State.FirstToLeave State.inside; decide +kernel

/-- An offset off its alignment, one past the end of the scratchpad, a count too large, a full directory, a failed chamber. -/
theorem wit_ChamberCauses : ((chamb cham0).rd 0 (.v 8)).toNat % 16 ≠ 0 ∧ ((chamb cham0).rd 0 (.v 9)).toNat % 16 = 0 ∧ ((chamb cham0).team 0).spadSize < ((chamb cham0).rd 0 (.v 9)).toNat + 16 ∧ 65535 < ((chamb cham0).rd 0 (.v 7)).toNat ∧ 2 ^ 32 ≤ cham0.btgt + ((chamb cham0).rd 0 (.v 10)).toNat ∧
    256 ≤ ((chamb cham0).updTeam 0 (fun t => { t with chambers := List.replicate 256 64 })).directoryUse 0 ∧ (((chamb { cham0 with fs := true }).team 0).chamber 32).fs = true := by decide +kernel

def gop : MOp := mop (.v 20) (.v 2) (.v 12) .none .acq .module 0 0

/-- The gauge holds 0x07060504030201: it has reached 5, and has not reached the pair of ones in v14. -/
theorem wit_Gauges : Lone memy (foc 1) (.gAdd gop) 0 ∧ Lone memy (foc 1) (.gRead gop) 0 ∧ Lone memy (foc 1) (.gWait gop) 0 ∧ (memy.gaddr 0 gop).extractLsb' 64 16 ≠ 0xFFFF#16 ∧ memy.hasRoom 0 (0x200040 / 128) ∧ 4 ≤ Scope.code .module ∧ memy.gaddr 0 gop = memy.gaddr 0 (ld0 .plain .thread) ∧
    (memy.rd64 0 (.v 12)).toNat ≤ ofBytesNat ((List.range 8).map (fun j => memy.byteAt 0 (0x200040 + j))) ∧ ofBytesNat ((List.range 8).map (fun j => memy.byteAt 0 (0x200040 + j))) < (memy.rd64 0 (.v 14)).toNat :=
  ⟨lone_memy rfl, lone_memy rfl, lone_memy rfl, by decide +kernel, by unfold State.hasRoom; decide +kernel, by decide, by decide +kernel, by decide +kernel, by decide +kernel⟩

theorem wit_Gauges_leave :
    let s := memy.updThread 0 (fun th => { th with st := .parked, wait := .gauge (.gWait gop) (memy.gaddr 0 gop) 5 3 })
    s.missed = none ∧ s.warpRuns 0 = true ∧ (s.thread 0).st = .parked ∧ (s.thread 0).wait = .gauge (.gWait gop) (memy.gaddr 0 gop) 5 3 ∧ (s.thread 0).out = [] ∧ (s.warp 0).out = [] ∧ (memy.gaddr 0 gop).toNat % 8 = 0 ∧
      (s.resolve 0 (memy.gaddr 0 gop) 8 .read).1.toOption = some (.mem [piece 0x200040 8]) ∧ s.FirstToLeave 0 ∧ s.mod.linkUp = true ∧ s.mod.linkQ = [] ∧ quiet s = true ∧ (5 : W64).toNat ≤ ofBytesNat ((List.range 8).map (fun j => s.byteAt 0 (0x200040 + j))) := by unfold State.FirstToLeave; decide +kernel

/-! ## Copies and ingress -/

def words8 (l : List Nat) : List Byte := l.flatMap (fun x => toBytes (BitVec.ofNat 64 x) 8)

/-- A seat alone whose pair v4 points at a block in memory. -/
def blocky (bs : List Byte) : State := (({ memy with mem := Tbl.setN memy.mem 0x200300 bs, lines := Assoc.put memy.lines (0x200300 / 128) {} }).updThread 0 (fun th => { th with v := Tbl.set th.v 4 0x200300 })).updTeam 0 (fun t => { t with spadSize := 256, chambers := [32] })

theorem lone_blocky {bs : List Byte} {i : Instr} (hc : Calm (blocky bs) (foc 1)) (hs : ((blocky bs).thread 0).st = .ready) (hg : ((blocky bs).thread 0).holds (wordHdr i).g = true) : Lone (blocky bs) (foc 1) i 0 := lone_of hc hs hg

theorem ex_ok {ε α σ : Type} {r : Except ε α × σ} (h : r.1.isOk = true) : ∃ a u, r = (.ok a, u) := by
  obtain ⟨x, u⟩ := r
  cases x with
  | error e => simp [Except.isOk, Except.toBool] at h
  | ok a => exact ⟨a, u, rfl⟩

theorem readsBlock_of {s : State} {f : Focus} {k : Nat} {addr : Addr80} {n : Nat} {bs : List Byte} (x : At) (h : ((s.startIssue f.threads).blockCheck k addr n).1.toOption = some x)
    (h2 : (((s.startIssue f.threads).blockCheck k addr n).2.readBlock k x n).1.toOption = some bs) : s.ReadsBlock f k addr n bs (((s.startIssue f.threads).blockCheck k addr n).2.readBlock k x n).2 := ⟨x, _, pair_ok h, pair_ok h2⟩

/-- A request of 20 bytes from 0x200040 to 0x200170, two barges, a gauge add of 3. -/
def packet0 : List Byte := words8 [0x200040, 0x200170, 0x200010, 3, 19 * 2 ^ 48, 0, 0, 2 ^ 59 + 2 ^ 54]
/-- The same with a type that none has. -/
def packet1 : List Byte := words8 [0x200040, 0x200170, 0x200010, 3, 19 * 2 ^ 48, 0, 0, 2 ^ 54]

def copy0 : Copy := { team := 0, thread := 0, pc := 0x100008, tcount := 0, core := 0, id := 0, live := true, scope := 6, packet := ofBytes 512 packet0, isEl := false, width := 0, reqs := [], done := 1 }

theorem calm_packet0 : Calm (blocky packet0) (foc 1) := by constructor <;> decide +kernel

def blkOp : XOp := xop (.v 20) (.v 4) (.v 0) 0 0 .module

theorem wit_CopyAndIngressCommands : Quiet (blocky packet0) ∧ Lone (blocky packet0) (foc 1) (.cpBlk blkOp) 0 ∧ (∃ v, (blocky packet0).ReadsBlock (foc 1) 0 ((blocky packet0).xaddr 0 0 (.v 4)) 64 packet0 v) ∧ blockPlace ((blocky packet0).xaddr 0 0 (.v 4)) = true ∧ (blocky packet0).freeCopies 0 ≠ 0 ∧
    (blocky packet0).copies = [] ∧ (blocky packet0).packetCode { copy0 with done := 0 } = 0 ∧ (blocky packet1).packetCode { copy0 with packet := ofBytes 512 packet1 } ≠ 0 :=
  ⟨quiet_true (by decide +kernel), lone_of calm_packet0 (by decide +kernel) (by decide +kernel), ⟨_, readsBlock_of ((blocky packet0).xaddr 0 0 (.v 4), .mem [piece 0x200300 64]) (by decide +kernel) (by decide +kernel)⟩, by decide +kernel, by decide +kernel, by decide +kernel, by decide +kernel, by decide +kernel⟩

theorem wit_CopyAndIngressCommands_bad : ∃ v, (blocky packet1).ReadsBlock (foc 1) 0 ((blocky packet1).xaddr 0 0 (.v 4)) 64 packet1 v :=
  ⟨_, readsBlock_of ((blocky packet1).xaddr 0 0 (.v 4), .mem [piece 0x200300 64]) (by decide +kernel) (by decide +kernel)⟩

/-- Requests of one seat: no chamber, the armed chamber 32. -/
theorem wit_CopyOfElements : Calm (blocky []) (foc 1) ∧ ((blocky []).active (foc 1) (.cpEl 0 { xop (.v 0) (.v 2) (.v 10) 0 0 .core with c := .v 14 })).head? = some 0 ∧ ((blocky []).team 0).xh[(0 : Fin 8)] ≠ 0xFFFF#16 ∧
    ((blocky []).xaddr 0 0 (.v 2)).toNat % 16 = 0 ∧ ((blocky []).xaddr 0 0 (.v 10)).toNat % 16 = 0 ∧ (blocky []).rd 0 (.v 14) = 0xFFFFFFFF ∧ 32 % 16 = 0 ∧ 32 ∈ ((blocky []).team 0).chambers :=
  ⟨by constructor <;> decide +kernel, by decide +kernel, by decide +kernel, by decide +kernel, by decide +kernel, by decide +kernel, by decide +kernel, by decide +kernel⟩

def desc0 (kind : Nat) : List Byte := words8 [0x210000, 0x200010, 3 * 2 ^ 26 + kind * 2 ^ 24 + 5 * 2 ^ 5, 0]

/-- Slot 3 of function 0 is enabled: one unit of 64 KiB from the start of the window; its queue is bound to context 0. -/
def ingressed (armed : Bool) : State :=
  ((blocky (desc0 0)).updFunc 0 (fun f => { f with iw := [(3, { bar := 1, armed := armed, team := 0, base := 0x210000, gptr := 0x200010, scope := 7 })] }))

theorem calm_ingressed : Calm (ingressed false) (foc 1) := by constructor <;> decide +kernel

theorem wit_CopyAndIngressCommands_ing : Lone (ingressed false) (foc 1) (.cpIng blkOp) 0 ∧ (∃ v, (ingressed false).ReadsBlock (foc 1) 0 ((ingressed false).xaddr 0 0 (.v 4)) 32 (desc0 0) v) ∧ blockPlace ((ingressed false).xaddr 0 0 (.v 4)) = true ∧ (IngDesc.ofBytes (desc0 0)).kind = 0 ∧ (IngDesc.ofBytes (desc0 2)).kind = 2 ∧
    ((ingressed false).xaddr 0 0 (.v 8)).toNat % 32 ≠ 0 :=
  ⟨lone_of calm_ingressed (by decide +kernel) (by decide +kernel), ⟨_, readsBlock_of ((blocky packet0).xaddr 0 0 (.v 4), .mem [piece 0x200300 32]) (by decide +kernel) (by decide +kernel)⟩, by decide +kernel, by decide +kernel, by decide +kernel, by decide +kernel⟩

/-- The window's ends, disarmed and armed; a write of four bytes that its table maps. -/
theorem wit_IngressWindows : (ingressed true).hostOpen = true ∧ (∀ i < 3, ((ingressed true).ingress 0 i).bar.getLsbD 0 = false) ∧ ((ingressed true).ingress 0 3).bar.getLsbD 0 = true ∧ (((ingressed true).ingress 0 3).bar.extractLsb' 16 48).toNat * 65536 = 0 ∧ 0xFFFF < (((ingressed true).ingress 0 3).size + 1) * 65536 ∧
    (ingressed true).missed = none ∧ ((ingressed false).ingress 0 3).armed = false ∧ ((ingressed true).ingress 0 3).armed = true ∧ ((ingressed true).ingress 0 3).kind = 0 ∧ (ingressed true).mod.linkUp = true ∧ (ingressed true).mod.linkQ = [] ∧ ((ingressed true).func 0).iwHeld = [] ∧
    (match ((ingressed true).translateW deviceAgent (ckey 0 ((ingressed true).team 0).ctx) 0x210000 .write).1 with | .ok pa _ _ _ _ => decide (pa = 0x210000) | _ => false) = true := by decide +kernel

theorem wit_IngressWindows_quiet : Quiet (ingressed true) := quiet_true (by decide +kernel)

/-- A copy under way: its first barge issued, its second not yet. -/
def copying (st : Nat) : State := { blocky packet0 with copies := [(1, { copy0 with barges := [(0, { space := 0, line := 0x200100 / 128, pa := 0x200100, elems := [(224, 7, false)], state := st })] })], nextId := 2 }

theorem wit_CopyEngine : LinkOpen (copying 1) ∧ ((copying 1).team 0).engines = true ∧ (copying 1).inFlight 0 < 4096 ∧ ((copying 1).copyOf 1).next = some 1 ∧ ((copying 1).copyOf 1).live = true ∧ ((copying 1).copyOf 1).failed = false ∧ ((copying 1).copyOf 1).suspended = none ∧
    (Assoc.find ((copying 1).copyOf 1).barges 0).map (fun b => (b.state, b.space, b.pa)) = some (1, 0, 0x200100) ∧ (Assoc.find ((copying 2).copyOf 1).barges 0).map (fun b => b.state) = some 2 ∧ (copying 1).tagsAt (homeSlice (0x200100 / 128)) < 8192 ∧ (copying 1).mod.dedup = [] ∧ (copying 1).mod.linkUp = true ∧
    (copying 2).missed = none ∧ quiet (copying 2) = true ∧ ((copying 1).checkPa 0x200100 0 0 4 false).toOption = some () ∧ ((copying 1).checkPa 0x200100 9 0 4 false).toOption = none :=
  ⟨⟨by decide +kernel, by decide +kernel⟩, by decide +kernel⟩

theorem wit_CopyEngine_issue : ∃ b u, (copying 1).makeBarge ((copying 1).copyOf 1) (((copying 1).copyOf 1).lines.getD 1 0) = (.ok b, u) := ex_ok (by decide +kernel)

/-- A finished copy, and one of a leaving team. -/
theorem wit_CopyEngine_end : (({ copying 1 with copies := [(1, { copy0 with low := 2, gaugeSent := true })] }).copyDone 1 { copy0 with low := 2, gaugeSent := true }) = true ∧
    (((copying 1).updTeam 0 (fun t => { t with saveAs := some 1 })).team 0).engines = false ∧ copy0.live = true ∧ copy0.barges = [] := by decide +kernel

def gadd0 (tag : Option (Nat × Nat)) : GAdd := { team := 0, thread := 0, func := 0, ctx := 0, addr := 0x200048, amount := 3, path := 1, scope := 6, pc := 0, tcount := 0, tag := tag }

theorem wit_EngineGaugeAdd : ∀ tag ∈ [none, some (0, 0)], (({ memy with gadds := [(5, gadd0 tag)] }).gaddFirst 5 (gadd0 tag) = true ∧ (gadd0 tag).token = none ∧ (gadd0 tag).raise = none ∧ ({ memy with gadds := [(5, gadd0 tag)] } : State).missed = none ∧ quiet { memy with gadds := [(5, gadd0 tag)] } = true ∧
    (match (({ memy with gadds := [(5, gadd0 tag)] }).translateW deviceAgent 0 0x200048 .atomic).1 with | .ok pa _ _ _ _ => decide (pa = 0x200048) | _ => false) = true) := by decide +kernel

/-! ## The matrix engine -/

def win (off : Nat) : Nat := 2 ^ 32 + off

/-- INT8, one row, eight columns, sixteen terms, all in the scratchpad: A at 256, B at 512, D at 1,024. -/
def mblock : List Byte := words8 [win 256, win 512, 0, win 1024, 0, 0, 0xFFFFFFFF0000FFFF, 0, 16 + 16 * 2 ^ 32, 32 * 2 ^ 32, 0, 7 * 2 ^ 40 + 15 * 2 ^ 28, 2 ^ 59 + 2 ^ 54 + 3 * 2 ^ 39, 0, 0, 0]

/-- A seat alone whose pair v4 and xh7 name a block at the start of its scratchpad; another block is live where `ops` says so. -/
def matrixy (bs : List Byte) (ops : Assoc MxOp) : State :=
  { ((alone (mapped 1)).updTeam 0 (fun t => { t with spadSize := 2048, spad := Tbl.setN (Tbl.setN [] 0 bs) 256 [1, 2, 0xFF] })).updThread 0 (fun th => { th with v := [(4, 0), (5, 1), (6, 128), (7, 1)] }) with mops := ops, nextId := 5 }

def matOp : XOp := xop (.v 8) (.v 4) (.v 0) 7 0 .core

def mop0 : MxOp := { team := 0, thread := 0, pc := 0, tcount := 0, cluster := 0, core := 0, blockAddr := 0xFFFF0000000100000000, block := ofBytes 1024 mblock, scope := 3, ticket := 9, order := 1, state := 1 }

theorem calm_matrixy : Calm (matrixy mblock []) (foc 1) := by constructor <;> decide +kernel
theorem calm_matrixy2 : Calm (matrixy mblock [(3, mop0)]) (foc 1) := by constructor <;> decide +kernel

theorem wit_MatrixCommands : Lone (matrixy mblock []) (foc 1) (.mxIssue matOp) 0 ∧ Quiet (matrixy mblock []) ∧ (∃ v, (matrixy mblock []).ReadsBlock (foc 1) 0 ((matrixy mblock []).xaddr 0 7 (.v 4)) 128 mblock v) ∧ blockPlace ((matrixy mblock []).xaddr 0 7 (.v 4)) = true ∧ (matrixy mblock []).freeEntries 0 ≠ 0 ∧
    (matrixy mblock []).mops = [] ∧ (matrixy mblock []).mxCode 0 ((matrixy mblock []).xaddr 0 7 (.v 4)) (ofBytes 1024 mblock) = 0 ∧ decodeAddr (addTo ((matrixy mblock []).xaddr 0 7 (.v 4)) 0x78) = .spad 0x78 ∧ mbDrain (ofBytes 1024 mblock) = 0 ∧ ((matrixy mblock []).team 0).onCore ((matrixy mblock []).team 0).core = true ∧ (matrixy [] []).mxCode 0 ((matrixy mblock []).xaddr 0 7 (.v 4)) 0 ≠ 0 :=
  ⟨lone_of calm_matrixy (by decide +kernel) (by decide +kernel), quiet_true (by decide +kernel), ⟨_, readsBlock_of ((matrixy mblock []).xaddr 0 7 (.v 4), .spad 0) (by decide +kernel) (by decide +kernel)⟩, by decide +kernel, by decide +kernel, by decide +kernel, by decide +kernel, by decide +kernel, by decide +kernel, by decide +kernel, by decide +kernel⟩

/-- `mx.stat` and `mx.abort`: an operation of the team at the address, live; none at another. -/
theorem wit_MatrixCommands_stat : Lone (matrixy mblock [(3, mop0)]) (foc 1) (.mxAbort matOp) 0 ∧ (matrixy mblock [(3, mop0)]).mops.find? (fun (p : Nat × MxOp) => decide (p.2.team = 0) && decide (p.2.blockAddr = (matrixy mblock [(3, mop0)]).xaddr 0 7 (.v 4)) && p.2.live) = some (3, mop0) ∧ mop0.live = true ∧
    (matrixy mblock [(3, mop0)]).mops.find? (fun (p : Nat × MxOp) => decide (p.2.team = 0) && decide (p.2.blockAddr = (matrixy mblock [(3, mop0)]).xaddr 0 7 (.v 6)) && p.2.live) = none :=
  ⟨lone_of calm_matrixy2 (by decide +kernel) (by decide +kernel), by decide +kernel, by decide +kernel, by decide +kernel⟩

/-- The arbiter's only operation computes its one row. -/
theorem wit_MatrixEngine : mop0.redo < 16 ∧ ((matrixy mblock [(3, mop0)]).team 0).onCore 0 = true ∧ (matrixy mblock [(3, mop0)]).mxPick 0 = some (3, mop0) ∧ decodeAddr (addTo mop0.blockAddr 0x78) = .spad 0x78 ∧ mbChen mop0.block = false ∧ mbInc mop0.block = 0 ∧ mop0.coll = none ∧ (matrixy mblock [(3, mop0)]).missed = none ∧ decodeAddr (mop0.rowAddr 0) = .spad 1024 ∧
    Nat.min 16 (mbM mop0.block - mop0.rows) = 1 ∧ mxIsInt (mbAt mop0.block) = true ∧ mbE mop0.block * mbN mop0.block = 32 := by decide +kernel

theorem wit_MatrixEngine_gather : ∃ x u, (matrixy mblock [(3, mop0)]).mxGather mop0 0 1 = (.ok x, u) := ex_ok (by decide +kernel)

/-- Aborted; its team leaving; saved and its team back. -/
theorem wit_MatrixEngine_stops : ({ mop0 with abort := true } : MxOp).live = true ∧ (((matrixy mblock [(3, mop0)]).updTeam 0 (fun t => { t with saveAs := some 1 })).team 0).engines = false ∧ (((matrixy mblock [(3, mop0)]).updTeam 0 (fun t => { t with saveAs := some 1 })).team 0).onCore 0 = true ∧
    ((matrixy mblock [(3, { mop0 with state := 4 })]).team 0).engines = true ∧ (matrixy mblock [(3, { mop0 with state := 4 })]).entriesUsed 0 < 8 ∧ (∀ p ∈ (matrixy mblock [(3, { mop0 with state := 4 })]).mops, p.2.team = mop0.team → p.2.state = 4 → 3 ≤ p.1) := by decide +kernel

/-- A group of two members, both slots complete, in memory at 0x200040; its members wait for the sum. -/
def coll0 : Coll := { group := 1, base := 0x200040, func := 0, ctx := 0, count := 1, m := 1, n := 8, dtype := 3, members := [0, 1], complete := [0, 1] }
def collected : State := { memy with colls := [(4, coll0)], groups := [(1, { state := 2 })], mops := [(3, { mop0 with coll := some 4 }), (5, { mop0 with coll := some 4 })], teams := [(0, { placeTeam with spadSize := 2048 })] }

theorem wit_CollectiveCommits : coll0.complete.length = coll0.count + 1 ∧ coll0.failed = false ∧ coll0.token = none ∧ (collected.group 1).state = 2 ∧ ({ coll0 with complete := [0] } : Coll).complete.length ≠ coll0.count + 1 ∧ (∀ m ≤ coll0.count, m ∈ coll0.members) ∧
    collected.collMembers 4 = [3, 5] ∧ mbInc mop0.block = 0 ∧ (collected.team 0).onCore (collected.team 0).core = true ∧ decodeAddr mop0.statusAt = .spad 0x78 ∧ collected.collCore 4 = 0 := by decide +kernel

/-- The slots are read, and the sum's place is found. -/
theorem wit_CollectiveCommits_reads : ((collected.readSlots 0 coll0 (List.range 2)).1.toOption.map (fun r => (r.1.length, r.2))) = some (2, false) ∧
    (((collected.readSlots 0 coll0 (List.range 2)).2.globalPlaces 0 0x200040 (List.replicate 32 0)).1.toOption.map (fun r => r.length)) = some 1 := by decide +kernel

/-! ## Ray traversal -/

/-- The microcode of the worked traversal, as the manual lists it. -/
theorem test_words_micro : [0x10000000, 0x20000000, 0xA3000008, 0x30000000, 0x60000000, 0x40000000, 0xA1000000, 0x80000000, 0x7000000A, 0x90000006, 0xD0000000].map (fun w => decodeTableWord 32 w) =
    [some .uopFetch, some .uopBox, some (.uopJif .nohit 8), some (.uopSort false), some .uopTake, some .uopPushh, some (.uopJif .inner 0), some .uopTri, some (.uopPop 10), some (.uopJmp 6), some (.uopEnd 0)] := by decide +kernel

def image0 : List Byte := [0x10000000, 0x20000000, 0xA3000008, 0x30000000, 0x60000000, 0x40000000, 0xA1000000, 0x80000000, 0x7000000A, 0x90000006, 0xD0000000].flatMap (fun x => toBytes (BitVec.ofNat 32 x) 4) ++ List.replicate 212 0

/-- A layout at 0x200300 and an image at 0x200400; v16 to v31 hold a ray, v1 its flags, v10 the address of its area. -/
def rayful (lay : Nat) (img : List Byte) (bound : Option Binding) (rays : Assoc Ray) : State :=
  let s := blocky (toBytes (BitVec.ofNat 64 lay) 8 ++ List.replicate 248 0 ++ img)
  { (s.updTeam 0 (fun t => { t with binding := bound })).updThread 0 (fun th => { th with v := [(1, 2), (3, 9), (4, 0x200300), (6, 0x200400), (10, 0x210000), (20, 0x3F800000), (23, 0x41200000), (24, 0x200000), (26, 0xFF0000), (27, 0x210000)] }) with rays := rays, nextId := 7 }

def lay0 : Nat := 0x3700A07E00400000
def bind0 : Binding := { layout := 0x3700A07E00400000, image := ofBytes 2048 image0, imageAddr := 0x200400, bcheck := 0 }
def ray0 : Ray := { team := 0, handle := 3, state := 1, d := #v[0, 0, 0x3F800000], tmax := 0x41200000, base := 0x200000, mask := 0xFF, area := 0x210000 }

theorem calm_rayful : Calm (rayful lay0 image0 none []) (foc 1) := by constructor <;> decide +kernel
theorem calm_rayful2 : Calm (rayful lay0 image0 (some bind0) [(2, ray0)]) (foc 1) := by constructor <;> decide +kernel

def bindOp : XOp := xop (.v 8) (.v 4) (.v 6) 0 0 .thread

/-- A bind whose layout and image are good; the checks fail for a layout of zeros and for a microword 3 that names nothing. -/
theorem wit_RayMakers : Quiet (rayful lay0 image0 none []) ∧ Lone (rayful lay0 image0 none []) (foc 1) (.trvBind bindOp) 0 ∧ ((rayful lay0 image0 none []).xaddr 0 0 (.v 4)).toNat % 8 = 0 ∧ ((rayful lay0 image0 none []).xaddr 0 0 (.v 6)).toNat % 256 = 0 ∧
    layOk (BitVec.ofNat 64 lay0) = true ∧ layOk 0 = false ∧ (∀ n < 64, (decide (0xE0000000#32 ≤ ofBytes 32 ((image0.drop (4 * n)).take 4)) || (ofBytes 32 ((image0.drop (4 * n)).take 4) &&& 0x0800FFC0#32 != 0)) = false) ∧
    (∃ r ∈ (rayful lay0 image0 (some bind0) [(2, ray0)]).rays, r.2.team = 0) ∧ (∀ r ∈ (rayful lay0 image0 none []).rays, r.2.team ≠ 0) :=
  ⟨quiet_true (by decide +kernel), lone_of calm_rayful (by decide +kernel) (by decide +kernel), by decide +kernel, by decide +kernel, by decide +kernel, by decide +kernel, by decide +kernel, ⟨(2, ray0), by decide +kernel, by decide⟩, by decide +kernel⟩

theorem wit_RayMakers_reads : ∃ x y u1 u2 v1 v lb ib, ((rayful lay0 image0 none []).startIssue (foc 1).threads).blockCheck 0 ((rayful lay0 image0 none []).xaddr 0 0 (.v 4)) 8 = (.ok x, u1) ∧ u1.blockCheck 0 ((rayful lay0 image0 none []).xaddr 0 0 (.v 6)) 256 = (.ok y, u2) ∧
    u2.readBlock 0 x 8 = (.ok lb, v1) ∧ v1.readBlock 0 y 256 = (.ok ib, v) ∧ ofBytes 64 lb = BitVec.ofNat 64 lay0 ∧ ib = image0 :=
  ⟨((rayful lay0 image0 none []).xaddr 0 0 (.v 4), .mem [piece 0x200300 8]), ((rayful lay0 image0 none []).xaddr 0 0 (.v 6), .mem [piece 0x200400 128, piece 0x200480 128]), _, _, _, _, toBytes (BitVec.ofNat 64 lay0) 8, image0,
    pair_ok (by decide +kernel), pair_ok (by decide +kernel), pair_ok (by decide +kernel), pair_ok (by decide +kernel), by decide +kernel, rfl⟩

/-- A cast that passes, one that finds nothing bound; a load of a record. -/
theorem wit_RayMakers_cast : Lone (rayful lay0 image0 (some bind0) [(2, ray0)]) (foc 1) (.trvCast (xop (.v 8) (.v 16) (.v 1) 0 0 .thread)) 0 ∧ (rayful lay0 image0 (some bind0) [(2, ray0)]).rayBy 0 0 = none ∧ (rayful lay0 image0 (some bind0) [(2, ray0)]).freeRays 0 ≠ 0 ∧
    castCode (some bind0) ((rayful lay0 image0 (some bind0) [(2, ray0)]).rdGroup 0 (.v 16) 16) ((rayful lay0 image0 (some bind0) [(2, ray0)]).rd 0 (.v 1)) (castRay 0 0 ((rayful lay0 image0 (some bind0) [(2, ray0)]).rdGroup 0 (.v 16) 16) ((rayful lay0 image0 (some bind0) [(2, ray0)]).rd 0 (.v 1))) = 0 ∧
    castCode none [] 0 ray0 ≠ 0 ∧ ((rayful lay0 image0 (some bind0) []).xaddr 0 0 (.v 10)).toNat % 128 = 0 ∧ globalRange ((rayful lay0 image0 (some bind0) []).xaddr 0 0 (.v 10)) (128 + 4 * layLimit bind0.layout) = true :=
  ⟨lone_of calm_rayful2 (by decide +kernel) (by decide +kernel), by decide +kernel, by decide +kernel, by decide +kernel, by decide +kernel, by decide +kernel, by decide +kernel⟩

def loadOp : XOp := xop (.v 8) (.v 10) (.v 0) 0 0 .thread

theorem wit_RayMakers_load : Lone (rayful lay0 image0 (some bind0) [(2, ray0)]) (foc 1) (.trvLoad loadOp) 0 ∧ (∃ bs v, (rayful lay0 image0 (some bind0) [(2, ray0)]).ReadsBlock (foc 1) 0 ((rayful lay0 image0 (some bind0) [(2, ray0)]).xaddr 0 0 (.v 10)) 128 bs v) :=
  ⟨lone_of calm_rayful2 (by decide +kernel) (by decide +kernel), List.replicate 128 0, _, readsBlock_of ((rayful lay0 image0 (some bind0) []).xaddr 0 0 (.v 10), .mem [piece 0x210000 128]) (by decide +kernel) (by decide +kernel)⟩

/-- A ray of the thread's team by its handle in v3 (9 names none, 3 this one), in each state. -/
theorem wit_RayResults : Lone (rayful lay0 image0 (some bind0) [(2, ray0)]) (foc 1) (.trvRes (xop (.v 8) (.v 3) (.v 0) 0 0 .thread)) 0 ∧ (rayful lay0 image0 (some bind0) [(2, ray0)]).rayBy 0 9 = none ∧ (rayful lay0 image0 (some bind0) [(2, ray0)]).rayBy 0 3 = some 2 ∧ ray0.saved = 0 ∧ ray0.saveReq = [] ∧ ray0.decision = none ∧
    (∀ st ∈ [2, 3, 4, 5], (rayful lay0 image0 (some bind0) [(2, { ray0 with state := st })]).rayBy 0 3 = some 2) :=
  ⟨lone_of calm_rayful2 (by decide +kernel) (by decide +kernel), by decide +kernel, by decide +kernel, by decide +kernel, by decide +kernel, by decide +kernel, by decide +kernel⟩

/-- A thread that waits on the ray; a ray asked for its save whose area its team's tables map; one of a leaving team. -/
def rayWait (r : Ray) : State := (rayful lay0 image0 (some bind0) [(2, r)]).updThread 0 (fun th => { th with st := .parked, wait := .ray 3 (.trvRes (xop (.v 8) (.v 3) (.v 0) 0 0 .thread)) 4 })
def raySaving (r : Ray) : State := (rayful lay0 image0 (some bind0) [(2, r)]).updThread 0 (fun th => { th with out := [{ pc := 0, tcount := 77, dst := [((false, 8), 0)], held := 1, has := false }] })

theorem wit_RayEvents : (rayWait ray0).missed = none ∧ quiet (rayWait ray0) = true ∧ (rayWait ray0).warpRuns 0 = true ∧ ((rayWait ray0).thread 0).st = .parked ∧ ((rayWait ray0).thread 0).out = [] ∧ ((rayWait ray0).warp 0).out = [] ∧ (rayWait ray0).rayBy 0 3 = some 2 ∧ (rayWait ray0).FirstToLeave 0 ∧ ((raySaving ray0).thread 0).out.map (fun p => (p.tcount, p.held)) = [(77, 1)] ∧
    quiet (raySaving ray0) = true ∧ ((raySaving { ray0 with saveReq := [(0, 77)] }).writeRay { ray0 with saveReq := [(0, 77)] } 1).1 = true ∧ ((raySaving ray0).writeRay { ray0 with area := 0x40000000 } 1).1 = false ∧ (((rayWait ray0).updTeam 0 (fun t => { t with saveAs := some 1 })).team 0).saveAs.isSome = true := by unfold State.FirstToLeave; decide +kernel

/-- A record's first words: a running ray at the root. -/
def recLive : List Byte := List.replicate 0x48 0 ++ [0, 0, 0, 1]

theorem wit_RayEvents_reentry : ((rayWait { ray0 with saved := 1 }).team 0).onCore 0 = true ∧ ((rayWait ray0).team 0).saveAs = none ∧ (∀ p ∈ (rayWait { ray0 with saved := 1 }).rays, p.2.team = 0 → p.2.saved ≠ 0 → 3 ≤ p.2.handle) ∧ (rayWait { ray0 with saved := 1 }).raysIn 0 < 512 ∧ ((rayWait ray0).team 0).binding = some bind0 ∧
    (((rayWait { ray0 with saved := 1 }).engRead 0 0 0x210000 128 .read).1.toOption.map (fun r => r.2)) = some false ∧ ray0.decision = none ∧ ray0.area.toNat % 128 = 0 ∧ globalRange ray0.area (128 + 4 * layLimit bind0.layout) = true ∧
    ((rayWait { ray0 with saved := 1 }).ctx 0).parks = [] ∧ (rayOfRecord (recLive ++ List.replicate 55 0) 0 3 ray0.area (layLimit bind0.layout)).1 = true ∧ bit (recWord recLive 0x48) 19 = false := by decide +kernel

def rayStep (r : Ray) : State := { rayful lay0 image0 (some bind0) [(2, r)] with uray := some 2 }

/-- A ray with a node buffered, hit bits set, a stack of one; the last microword, where the next would be past word 63; a leaf. -/
theorem wit_RaySteps : (rayStep { ray0 with upc := 63, buf := some (ofBytes 2048 (List.replicate 64 0x01)), hits := 5, stack := [7] }).uray = some 2 ∧ ray0.state = 1 ∧ ({ ray0 with n := 0x80000000 }.bound (rayStep ray0)) = bind0.layout ∧ 0 < layLimit bind0.layout ∧ (∀ i < 8, (f32v (ray0.tnear.toList.getD i 0)).isNan = false) ∧
    ({ ray0 with hits := 5 }.hitKids bind0.layout (ofBytes 2048 (List.replicate 64 0x01))) = [0, 2] ∧ (kidEntry bind0.layout (ofBytes 2048 (List.replicate 64 0x01)) (entOff ray0.b) 0).isSome = true ∧ bit (0x80000000 : W32) 31 = true := by decide +kernel

/-- Reads that succeed and that fail; a triangle; a spilled stack. -/
theorem wit_RayReads : (match ((rayStep ray0).readNode ray0 (ray0.base + BitVec.ofNat 80 (16 * field ray0.n 27 0)) 64).1 with | .ok bs => decide (bs.length = 64) | _ => false) = true ∧ (match ((rayStep ray0).readNode ray0 0xFFFF0000000000000000 64).1 with | .fail _ => true | _ => false) = true ∧
    globalRange (ray0.area + BitVec.ofNat 80 (128 + 4 * (20 - 16))) 64 = true ∧ (((rayStep ray0).engRead 0 0 (ray0.area + BitVec.ofNat 80 (128 + 4 * 4)).toNat 64 .read).1.toOption.map (fun r => r.2)) = some false := by decide +kernel

/-! ## Subscriptions -/

theorem unlogged_of {s : State} (h : s.ctxs.all (fun p => decide (p.2.logMode = 0)) = true) : ∀ c, (s.ctx c).logMode = 0 :=
  (quiet_of (s := { s with subs := [] }) h rfl).unlogged

/-- Team 0 subscribes to team 1, which stands on core 1; v3 holds the handle 3, the pair v4 names the descriptor. -/
def pub1 : Team := { placeTeam with index := 1, core := 1, spadSize := 512 }
def subDesc (l r ctl : Nat) : List Byte := words8 [l + r * 2 ^ 32, 1, ctl, 0]
def sub0 : Sub := { subscriber := 0, publisher := 1, handle := 3, local_ := 64, remote := 0, size := 128, chen := false, chamber := 0 }
def subby (bs : List Byte) (xs : Assoc Sub) : State :=
  let s := ((blocky bs).updTeam 0 (fun t => { t with spadSize := 512, chambers := [] })).setTeam 1 pub1
  { (s.updThread 0 (fun th => { th with v := Tbl.set th.v 3 3 })) with subs := xs }

def subOp : XOp := xop (.v 20) (.v 4) (.v 0) 0 0 .thread
def subOp3 : XOp := xop (.v 20) (.v 3) (.v 0) 0 0 .thread
def desc1 : List Byte := subDesc 64 128 1
def batch0 : Batch := { block := 1, mask := 0x8000000000000105, data := 0x77, seed := true }
/-- An open batch beside one closed. -/
def sub1 : Sub := { sub0 with open_ := some batch0, closed := [batch0], made := 1 }

theorem calm_subby : Calm (subby desc1 []) (foc 1) := by constructor <;> decide +kernel
theorem calm_subby1 : Calm (subby [] [(4, sub1)]) (foc 1) := by constructor <;> decide +kernel

/-- A descriptor that every check passes, and one off its alignment. -/
theorem wit_SubscriptionInstructions : Lone (subby desc1 []) (foc 1) (.subOpen subOp) 0 ∧ (∀ c, ((subby desc1 []).ctx c).logMode = 0) ∧ (∃ v, (subby desc1 []).ReadsBlock (foc 1) 0 ((subby desc1 []).xaddr 0 0 (.v 4)) 32 desc1 v) ∧ blockPlace ((subby desc1 []).xaddr 0 0 (.v 4)) = true ∧
    (subby desc1 []).subCheck 0 (SubDesc.ofBytes desc1) = (0, 1, 0) ∧ ((subby desc1 []).subCheck 0 (SubDesc.ofBytes (subDesc 63 128 1))).1 ≠ 0 :=
  ⟨lone_of calm_subby (by decide +kernel) (by decide +kernel), unlogged_of (by decide +kernel), ⟨_, readsBlock_of ((subby desc1 []).xaddr 0 0 (.v 4), .mem [piece 0x200300 32]) (by decide +kernel) (by decide +kernel)⟩, by decide +kernel, by decide +kernel, by decide +kernel⟩

/-- `sub.stat`, `sub.close` of a handle that names a subscription and of one that names none; `sub.flush` of a publisher. -/
theorem wit_SubscriptionInstructions_open : Lone (subby [] [(4, sub1)]) (foc 1) (.subStat subOp3) 0 ∧ Lone (subby [] [(4, sub1)]) (foc 1) (.subClose subOp3) 0 ∧ Lone (subby [] [(4, sub1)]) (foc 1) (.subFlush subOp3) 0 ∧ (∀ c, ((subby [] [(4, sub1)]).ctx c).logMode = 0) ∧
    (subby [] [(4, sub1)]).subByHandle 0 3 = some 4 ∧ (subby [] [(4, sub1)]).subByHandle 0 0 = none ∧ Assoc.find (subby [] [(4, sub1)]).subs 4 = some sub1 ∧ sub1.pubOpen = true ∧ sub1.closed.length < 8 ∧ Assoc.rising (subby [] [(4, sub1)]).subs = true ∧
    (∀ n x, (n, x) ∈ (subby [] [(4, { sub1 with publisher := 0, subscriber := 1 })]).subs → x.publisher = 0 → x.closed.length < 8) :=
  ⟨lone_of calm_subby1 (by decide +kernel) (by decide +kernel), lone_of calm_subby1 (by decide +kernel) (by decide +kernel), lone_of calm_subby1 (by decide +kernel) (by decide +kernel), unlogged_of (by decide +kernel), by decide +kernel, by decide +kernel, rfl, rfl, by decide, by decide,
    by intro n x h _; simp only [subby, List.mem_singleton, Prod.mk.injEq] at h; rw [h.2]; decide⟩

/-- An idle batch at its limit; the oldest batch of a live and of an ended subscriber; a publisher that leaves. -/
theorem wit_SubscriptionBatches :
    let s : State := { subby [] [(4, sub1)] with clock := 64 }
    s.missed = none ∧ sub1.idleSince + 64 ≤ s.clock ∧ s.batchDue 4 = true ∧ (s.team 0).live = true ∧ (s.team 0).chambers = [] ∧ ((s.updTeam 0 (fun t => { t with life := .ended })).team 0).life = .ended ∧ (s.team 1).saveAs = none ∧
      ((s.updTeam 1 (fun t => { t with saveAs := some 0 })).team 1).saveAs.isSome = true ∧ sub0.open_ = none ∧ sub0.seeds = [] ∧ sub0.closed = [] := by decide +kernel

/-! ## Launches and record queues -/

/-- Queue 5 of function 0 is bound to context 0; a launch of one team; one that waits for a gauge. -/
def queued (s : State) : State := { s with queues := [(5, { enabled := true, bound := true, ring := 2, nextSeq := 7 })], nextId := 9 }
def lrec0 (ctl low : Nat) : BitVec 512 := BitVec.ofNat 512 (0x100000 + low * 2 ^ (8 * 0x30) + (2 ^ 38 + ctl) * 2 ^ (8 * 0x38))
def depRec (target : Nat) : BitVec 512 := lrec0 (2 ^ 6) (target * 2 ^ 16) + BitVec.ofNat 512 (0x200040 * 2 ^ (8 * 0x10))
def launch0 (r : BitVec 512) : Launch := { queue := 5, seqNo := 6, lrec := r }

/-- A bound queue, a record it takes and one it refuses; a queue not bound; one of another function; a slot past the last. -/
theorem wit_LaunchQueues : (queued memy).hostOpen = true ∧ (queued memy).mod.ready = true ∧ (queued memy).hwQueue 0 5 = some 5 ∧ ((queued memy).queue 5).bound = true ∧ ((queued memy).queue 5).func = 0 ∧ (queued memy).recordCode 5 none (lrec0 0 0) = 0 ∧ (queued memy).recordCode 5 none (lrec0 (2 ^ 5) 0) ≠ 0 ∧ lrReserved (lrec0 (2 ^ 5) 0) = true ∧ 3 < (queued memy).nextId ∧
    (queued memy).hwQueue 0 6 = some 6 ∧ ((queued memy).queue 6).bound = false ∧ ((((queued memy).setQueue 5 { bound := true, func := 3 }).queue 5).func ≠ 0) ∧ (queued memy).hwQueue 0 4096 = none ∧ State.reset.mod.ready = false := by decide +kernel

/-- Launch 6 of the queue waits on launch 5; its gauge holds 0x07060504030201, and may be read or not. -/
theorem wit_LaunchQueues_eligible : (launch0 (depRec 5)).done = false ∧ (launch0 (depRec 5)).eligible = false ∧ (launch0 (depRec 5)).token = none ∧ lrDepen (lrec0 0 0) = false ∧ lrDepen (depRec 5) = true ∧ decodeAddr (lrDep (depRec 5)) = .global 0x200040 ∧ lrTarget (depRec 5) = 5 ∧
    (match ((queued memy).translate deviceAgent (ckey 0 0) 0x200040 .read).1 with | .ok pa key _ _ _ => decide (ofBytesNat ((List.range 8).map (fun j => (queued memy).byteAt key (pa + j))) = 0x07060504030201) | _ => false) = true ∧
    (((queued memy).placeNum 0x70000 0x19).translate deviceAgent (ckey 0 0) 0x200040 .read).1 = .denied ∧
    (∃ p ∈ [(2, ({ queue := 5, seqNo := 5 } : Launch))], p.2.queue = 5 ∧ p.2.seqNo < 6 ∧ p.2.done = false ∧ p.2.placed < p.2.total) := by decide +kernel

def lnchy (r : BitVec 512) : State := (queued (blocky (toBytes r 64))).updTeam 0 (fun t => { t with queue := 5 })
theorem calm_lnchy : Calm (lnchy (lrec0 0 0)) (foc 1) := by constructor <;> decide +kernel

theorem wit_DeviceLaunches : Lone (lnchy (lrec0 0 0)) (foc 1) (.lnch blkOp) 0 ∧ Quiet (lnchy (lrec0 0 0)) ∧ (∃ v, (lnchy (lrec0 0 0)).ReadsBlock (foc 1) 0 ((lnchy (lrec0 0 0)).xaddr 0 0 (.v 4)) 64 (toBytes (lrec0 0 0) 64) v) ∧ ofBytes 512 (toBytes (lrec0 0 0) 64) = lrec0 0 0 ∧
    (lnchy (lrec0 0 0)).recordCode 5 (some 0) (lrec0 0 0) = 0 ∧ (lnchy (lrec0 0 0)).recordCode 5 (some 1) (lrec0 0 0) ≠ 0 :=
  ⟨lone_of calm_lnchy (by decide +kernel) (by decide +kernel), quiet_true (by decide +kernel), ⟨_, readsBlock_of ((lnchy (lrec0 0 0)).xaddr 0 0 (.v 4), .mem [piece 0x200300 64]) (by decide +kernel) (by decide +kernel)⟩, by decide +kernel, by decide +kernel, by decide +kernel⟩

/-- The descriptor of a record queue at 0x200300: 16 records of 4 words, two a batch; the team consumes two of them from record 1. -/
def rqBytes (capLog put : Nat) : List Byte := words8 [0x210000, 5 * 2 ^ 12 + 2 * 2 ^ 24 + capLog * 2 ^ 27, 3 * 2 ^ 32 + 2 ^ 48, 0x200380, put, 4, 2, 1]
def rqy (bs : List Byte) (next : Nat) (done : Bool) : State :=
  { ((queued (blocky bs)).updTeam 0 (fun t => { t with queue := 5, rq := some (2, 1, 2), rqNext := next, rqDone := done })) with rqs := [(2, { func := 0, ctx := 0, addr := 0x200300, lastPut := 10 })], clock := 5000 }

def rqOp : XOp := xop (.v 20) (.v 4) (.v 8) 0 0 .module
theorem calm_rqy : Calm (rqy (rqBytes 4 5) 0 false) (foc 1) := by constructor <;> decide +kernel

theorem wit_RecordQueues : Quiet (rqy (rqBytes 4 5) 0 false) ∧ Lone (rqy (rqBytes 4 5) 0 false) (foc 1) (.rqPut rqOp) 0 ∧ Lone (rqy (rqBytes 4 5) 0 false) (foc 1) (.rqGet rqOp) 0 ∧ Lone (rqy (rqBytes 4 5) 0 false) (foc 1) (.rqDone rqOp) 0 ∧
    ((rqy (rqBytes 4 5) 0 false).xaddr 0 0 (.v 4)).toNat % 64 = 0 ∧ globalRange ((rqy (rqBytes 4 5) 0 false).xaddr 0 0 (.v 4)) 1 = true ∧
    (∀ a ∈ [Acc.read, .atomic], (((rqy (rqBytes 4 5) 0 false).startIssue (foc 1).threads).resolve 0 ((rqy (rqBytes 4 5) 0 false).xaddr 0 0 (.v 4)) 64 a).1.toOption = some (.mem [piece 0x200300 64])) :=
  ⟨quiet_true (by decide +kernel), lone_of calm_rqy (by decide +kernel) (by decide +kernel), lone_of calm_rqy (by decide +kernel) (by decide +kernel), lone_of calm_rqy (by decide +kernel) (by decide +kernel), by decide +kernel, by decide +kernel, by decide +kernel⟩

/-- Well formed, malformed; not full, full at its last place; within the range, past it; a group that fits the budget and one that does not. -/
theorem wit_RecordQueues_codes : (RqDesc.ofBytes (rqBytes 4 5)).malformed = false ∧ (RqDesc.ofBytes (rqBytes 3 5)).malformed = true ∧ (RqDesc.ofBytes (rqBytes 4 16)).put - (RqDesc.ofBytes (rqBytes 4 16)).done < 2 ^ 4 ∧ 2 ^ 4 ≤ (RqDesc.ofBytes (rqBytes 4 17)).put - (RqDesc.ofBytes (rqBytes 4 17)).done ∧
    (Use.grp (2 ^ 2)).ok 384 (.v 20) = true ∧ (Use.grp (2 ^ 2)).ok 22 (.v 20) = false ∧ ((rqy [] 1 false).team 0).rqNext < 2 ∧ 2 ≤ ((rqy [] 2 true).team 0).rqNext ∧ ((rqy [] 2 true).team 0).rqDone = true ∧ (placeTeam.rq = none) ∧
    (((rqy (rqBytes 4 5) 0 false).resolve 0 ((RqDesc.ofBytes (rqBytes 4 5)).slot 5) 16 .write).1.toOption = some (.mem [piece 0x210050 16])) ∧ (((rqy (rqBytes 4 5) 1 false).resolve 0 ((RqDesc.ofBytes (rqBytes 4 5)).slot 2) 16 .read).1.toOption = some (.mem [piece 0x210020 16])) ∧
    Assoc.find ((rqy (rqBytes 4 5) 1 false).core 0).l1 (0x210020 / 128) = none ∧ ((rqy (rqBytes 4 5) 0 false).devRead 0 0x200300 64).1.toOption = some (rqBytes 4 5) ∧ 10 + (RqDesc.ofBytes (rqBytes 4 5)).flush * 1024 ≤ 5000 := by decide +kernel

/-! ## Teams -/

/-- Function 0's second stage alone, in few bytes: general memory one to one. -/
def tables2 : State :=
  let s := (((State.reset.placeNum 0x10000 0x20003).placeNum 0x20000 0x30003).placeNum 0x30000 29).updFunc 0 (fun f => { f with root2 := some 0x10000 })
  { (s.updMod (fun m => { m with ready := true, linkUp := true })) with queues := [(5, { enabled := true, bound := true })], nextId := 9, clock := 100 }

/-- Launch 3 of queue 5 has one team placed of four; the context's frames lie from 0x400000. -/
def launch3 : Launch := { queue := 5, seqNo := 6, lrec := lrec0 (0xFFFFFF * 2 ^ 40) 0, eligible := true, total := 4, placed := 1 }
def starty : State := { (tables2.updCtx 0 (fun c => { c with frameBase := 0x400000, frameUnits := 16 })) with launches := [(3, launch3)] }

theorem wit_TeamStarts : Quiet starty ∧ starty.missed = none ∧ (launch3.queue < 4096 ∧ launch3.seqNo < 2 ^ 64 ∧ launch3.placed < 2 ^ 32 ∧ launch3.ctx < 256 ∧ launch3.func < 128 ∧ 0x400000 < 2 ^ 64) ∧ launch3.token = none ∧ starty.placeable launch3 = true ∧ starty.fits 2 3 4 launch3.lrec 0 0 0 = true ∧
    starty.otherWorld 2 (lrWorld launch3.lrec) = false ∧ starty.goesFirst 3 launch3 2 3 4 = true ∧ (starty.ctx 0).frameRoom (frameUnits launch3.lrec * 4096) = some 0x400000 ∧ starty.launchBy 5 6 = some 3 ∧ starty.teamBy 3 1 = none ∧ (starty.core 2).world = lrWorld launch3.lrec ∧ lrHasParam launch3.lrec = false ∧
    starty.placeable { launch3 with eligible := false } = false ∧ starty.serving = true ∧ starty.launchBy 5 7 = none ∧ starty.teamAt 2 3 = none := by
  refine ⟨quiet_true ?_, ?_⟩ <;> decide +kernel

set_option maxRecDepth 20000 in
/-- The launch copy can be written, and its header passes. -/
theorem wit_TeamStarts_header : (starty.physWrite 0 0x400000 (launch3.copyBytes 1)).1 = none ∧
    (match (starty.physWrite 0 0x400000 (launch3.copyBytes 1)).2.physRead 0 0x400000 256 with | .ok h => decide ((starty.physWrite 0 0x400000 (launch3.copyBytes 1)).2.headCheck 0 (lrWorld launch3.lrec) 0 h = none) && decide (ofBytes 512 ((h.drop 64).take 64) = launch3.lrec) | .error _ => false) = true := by decide +kernel

/-- Team 9 of that launch, with a life of its own. -/
def team9 (l : Life) : Team := { launch := 3, lrec := launch3.lrec, queue := 5, seqNo := 6, index := 1, core := 2, berth := 3, life := l, frame := 0x400000 }
def teamy (t : Team) : State := { starty with teams := [(9, t)] }

/-- A saved team without warps, whose frame holds a header. -/
def saved9 : State :=
  let s := teamy { team9 .saved with warps := 0 }
  { s with mem := Tbl.setN s.mem 0x400000 (({ kind := 1, seqNo := 6, team := 1, world := 0, lrec := launch3.lrec } : FrameHead).bytes) }
set_option maxRecDepth 20000 in
theorem wit_TeamStarts_restore : (team9 .saved).flush = false ∧ (team9 .saved).heldUps = [] ∧ (team9 .saved).debugged = false ∧ (team9 .saved).offLog = false ∧ saved9.serving = true ∧ (saved9.ctx 0).switchedOut = false ∧ (saved9.ctx 0).hostSched = false ∧ saved9.inSlice 0 launch3.lrec = true ∧ saved9.placing (saved9.team 9) = false ∧
    saved9.launchBy 5 6 = some 3 ∧ saved9.teamBy 3 1 = some 9 ∧ (saved9.launch 3).done = false ∧ saved9.entriesOf (some 9) = (0, 0, 0) ∧ saved9.fits 6 1 7 launch3.lrec 0 0 0 = true ∧ saved9.otherWorld 6 0 = false ∧ (saved9.core 6).world = 0 ∧
    (match saved9.physRead 0 0x400000 256 with | .ok h => decide (saved9.headCheck 0 0 1 h = none) | .error _ => false) = true := by decide +kernel
set_option maxRecDepth 20000 in
theorem wit_TeamStarts_image : (match saved9.loadImage 9 with | .ok v => !(v.team 9).debugged && decide ((v.team 9).heldUps = []) | .error _ => false) = true := by decide +kernel

/-- A halting team on its berth. -/
theorem wit_TeamStarts_berth : (teamy (team9 .halting)).teamAt 2 3 = some 9 ∧ ((teamy (team9 .halting)).team 9).life = .halting ∧ (teamy (team9 .resident)).serving = true ∧ ((3 : BitVec 256).getLsbD 0 = true) ∧ ((2 : BitVec 256).getLsbD 0 = false) := by decide +kernel

/-- A team with no estimate, one that ends soon, one that may be run again; a drain at its limit. -/
theorem wit_TeamPreemption : (∀ t ∈ [team9 .resident, team9 (.draining 100), team9 .halting, team9 .ending, team9 .debugHalted], (teamy t).serving = true ∧ t.onCore t.core = true ∧ (teamy t).missed = none ∧ quiet (teamy t) = true) ∧ (team9 .saved).onCore 2 = false ∧
    (team9 .resident).estimate = none ∧ ({ team9 .resident with lrec := lrec0 (512 * 2 ^ 40) 0 }).estimate = some 4096 ∧ lrIdem (lrec0 (0xFFFFFF * 2 ^ 40 + 2 ^ 34) 0) = true ∧ lrIdem launch3.lrec = false ∧ 8191 + ((teamy { team9 .resident with since := 100 }).clock - 100) < 8192 ∧
    (teamy { team9 .resident with lrec := lrec0 (0xFFFFFF * 2 ^ 40 + 2 ^ 34) 0 }).flushBarred 9 = false := by decide +kernel

/-- A halted team: no record holds a cause, asked to leave and not; one thread holds one, under fact 0 and fact 1. -/
def halty (t : Team) (c : BitVec 10) : State := { (teamy { t with life := .halting }) with clock := 2000, threads := [(9 * 1024 + 3, { rcd := { cause := c } })] }
theorem wit_TeamHaltsAndSaves : (∀ t ∈ [team9 .halting, { team9 .halting with leaving := true }], (halty t 0x3C0).halted 9 = true ∧ (halty t 0x3C0).attachedTo ((halty t 0x3C0).team 9) = false ∧ (∀ k ∈ teamThreads 9 t, ((halty t 0x3C0).thread k).rcd.cause = 0x3C0) ∧ t.debugCall = 0 ∧ (halty t 0x3C0).missed = none ∧ quiet (halty t 0x3C0) = true) ∧
    (halty (team9 .halting) 0x203).halted 9 = true ∧ 9 * 1024 + 3 ∈ teamThreads 9 (team9 .halting) ∧ (0x203 : BitVec 10).toNat / 64 < 15 ∧ (∀ j ∈ teamThreads 9 (team9 .halting), ((halty (team9 .halting) 0x203).thread j).rcd.cause = 0x3C0 ∨ ((halty (team9 .halting) 0x203).thread j).rcd.cause.toNat / 64 ∉ [5, 6]) ∧
    ((halty (team9 .halting) 0x203).thread (9 * 1024 + 3)).st ≠ .exited ∧ lrTrapd launch3.lrec = 0 ∧ lrFact launch3.lrec = false ∧ lrFact (lrec0 (2 ^ 33) 0) = true := by decide +kernel

/-- A team without warps that has drained; its frame lies in host memory, and waits for the link. -/
def saving9 : State := ((teamy { team9 .halting with warps := 0, saveAs := some 0 }).placeNum 0x30000 (2 ^ 51 + 29)).updMod (fun m => { m with linkUp := false })
theorem wit_TeamHaltsAndSaves_save : (saving9.team 9).onCore 2 = true ∧ saving9.drained 9 = true ∧ (saving9.team 9).frameTok = none := by decide +kernel
set_option maxRecDepth 20000 in
theorem wit_TeamHaltsAndSaves_frame : ((saving9.setTeam 9 { saving9.team 9 with run := saving9.ranFor (saving9.team 9) }).writeParts 0 0x400000 ((saving9.setTeam 9 { saving9.team 9 with run := saving9.ranFor (saving9.team 9) }).frameParts 9 0)).1 = none := by decide +kernel

def held0 : HeldUpdate := { off := 16, mask := 0x0105, data := 0xC3, chamber := 0, bytes := 3 }

/-- The last team of its launch; one of four; one off its core. -/
theorem wit_TeamEnds : (∀ l ∈ [Life.ending, .endingOff], (teamy (team9 l)).engineDone 9 = true ∧ (teamy (team9 l)).missed = none ∧ (teamy (team9 l)).mod.switch = none ∧ quiet (teamy (team9 l)) = true ∧ 3 < (teamy (team9 l)).nextId ∧ (team9 l).rq = none ∧ Assoc.find (teamy (team9 l)).launches 3 = some launch3) ∧
    (teamy (team9 .ending)).ctxs.all (fun p => !p.2.diverged) = true ∧ launch3.done = false ∧ (∀ l ∈ [Life.saved, .parkedFault, .parkedUnhandled], ((teamy { team9 l with heldUps := [held0] }).team 9).heldUps = [held0] ∧ (team9 l).chambers = []) := by decide +kernel

/-- Two functions have slices; the first is due at 2,300 less the 200 that it owed; a switch waits. -/
def sliced (clock idx : Nat) (sw : Bool) : State :=
  ({ State.reset with clock := clock }.updMod (fun m => { m with ready := true, quantum := [(2, (3, 1)), (5, (4, 2))], sliceIdx := idx, sliceAt := 100, switch := if sw then some { func := 4, out := 1, into := 2, since := 10 } else none })).updFunc 3 (fun f => { f with sliceDebt := 384 * 50, sliceCut := 384 * 200 })
theorem wit_Slices : (sliced 2100 2 false).sliceDue = some 2100 ∧ (sliced 2100 2 false).sliceFunc = some 3 ∧ (sliced 2100 7 false).sliceDue = none ∧ (sliced 2100 2 false).serving = true ∧ (sliced 2100 2 false).sliceTeams 3 = [] ∧ (sliced 4148 2 true).sliceDue = some 2100 ∧ (sliced 4148 2 true).mod.switch.isSome = true ∧ 2100 + 2048 ≤ (sliced 4148 2 true).clock ∧
    (sliced 2200000 2 false).mod.windowAt < (sliced 2200000 2 false).clock / 2200000 ∧ (sliced 2199999 2 false).clock / 2200000 ≤ (sliced 2199999 2 false).mod.windowAt ∧ (sliced 2100 2 false).missed = none := by decide +kernel

/-- A switch at its limit that has asked a team: one that drains, one that halts, with a thread that runs. -/
def switching (l : Life) : State :=
  (({ sliced 4148 2 true with teams := [(9, team9 l)], threads := [(9 * 1024, {})] } : State).updMod (fun m => { m with switch := m.switch.map (fun (x : Switch) => { x with asked := [(9, .resident)] }) }))
theorem wit_Slices_rolls : (∀ l ∈ [Life.draining 5000, .halting], (switching l).missed = none ∧ (switching l).sliceDue = some 2100 ∧ ((switching l).mod.switch.map (fun x => x.asked)) = some [(9, .resident)] ∧ ((switching l).team 9).life = l) ∧ ((sliced 4148 2 true).mod.switch.map (fun x => x.asked)) = some [] ∧
    (switching .halting).classes 9 = [] ∧ ((switching .halting).team 9).saveAs = none ∧ ((switching .halting).team 9).debugCall = 0 ∧ ((switching .halting).team 9).debugged = false ∧ 9 * 1024 ∈ teamThreads 9 ((switching .halting).team 9) ∧ ((switching .halting).thread (9 * 1024)).st ≠ .exited := by decide +kernel

/-! ## Rings, the secure core, sharing -/

/-- The completion record of launch 6 of queue 5; rings of their least size with one record held. -/
def compl : BitVec 512 := BitVec.ofNat 512 (2 ^ 72 + 5 * 2 ^ 76 + 6 * 2 ^ 88)
def ring0 : Ring := { base := 0x200006, ctl := 1, held := [compl] }
def ringed (r : Ring) : State :=
  { (tables2.updFunc 0 (fun f => { f with er := [(2, r)], fr := [(2, { r with base := 0x300005 })] })) with launches := [(3, { launch3 with held := true })] }

/-- Open and closed; two records unsignalled for 2,200 aclk where the age is one, and one aclk less. -/
theorem wit_RingRegisters : tables2.hostOpen = true ∧ State.reset.hostOpen = false ∧
    (let r := ((ringed { ring0 with ctl := 0x10001, unsig := 2 }).func 0).ring 2; 0 < r.unsig ∧ r.oldest + (r.ctl.extractLsb' 16 16).toNat * 2200 ≤ 2200 ∧ ¬ (r.oldest + (r.ctl.extractLsb' 16 16).toNat * 2200 ≤ 2199)) := by decide +kernel

/-- Each ring has room at its last place and none past it; its record can be written; the launch of the completion record is there. -/
theorem wit_RingRecords : (ringed ring0).mod.linkQ = [] ∧ (ringed ring0).mod.linkUp = true ∧ (ringed ring0).recordLaunch compl = some 3 ∧ compl.extractLsb' 72 4 = 1 ∧ (0 : BitVec 512).extractLsb' 72 4 ≠ 1 ∧
    ({ launch3 with held := true } : Launch).stale = false ∧ lrCword launch3.lrec = false ∧ ((ringed ring0).ctx (ckey 0 0)).hostCompl = false ∧
    (let e := ((ringed { ring0 with head := 63 }).func 0).ring 2; e.held = [compl] ∧ e.ctl.getLsbD 0 = true ∧ e.token.isSome = false ∧ (e.head - e.tail).toNat < 2 ^ (e.base.toNat % 32)) ∧
    (let g := ((ringed { ring0 with head := 31 }).func 0).fring 2; (g.head - g.tail).toNat < 2 ^ (g.base.toNat % 32)) ∧ (let g := ((ringed { ring0 with head := 32 }).func 0).fring 2; 2 ^ (g.base.toNat % 32) ≤ (g.head - g.tail).toNat) ∧
    (∀ at_ ∈ [0x2007E0, 0x3007C0], ((ringed ring0).walk2 0 at_ false true false).toOption.isSome = true) ∧ ((ringed ring0).physWrite 0 0x2007E0 (toBytes compl 32)).1 = none ∧ ((ringed ring0).physWrite 0 0x3007C0 (toBytes compl 64)).1 = none := by decide +kernel

/-- Frame 64 awaits erasure, by the hardware or by the host; keys of every state; a first-stage invalidation; tokens of each kind. -/
def swept (e : Nat × Bool) : State := { (tables2.updDie 0 (fun d => { d with erasing := [(0x400000, e)], pool := [0x500000] })) with keys := [(1, { state := 1, owner := 0 }), (2, { state := 2 }), (3, { state := 3 })] }
def tok0 : Token := { func := 0, ctx := 0, stage := 2, page := 0x40, fault := BitVec.ofNat 512 (0x400000 * 2 ^ 64), reason := 4, waiters := [.launch 3], secure := true, forwarded := false, key := 0, die := 0 }
def tokened (t : Token) : State := { tables2 with tokens := [(7, t)], keys := [(1, { state := 1, owner := 0 }), (3, { state := 3 })] }
def keyed (k : Nat) (t : Token) : State := (tokened t).placeNum 0x30000 (29 + k * 2 ^ 52)

theorem wit_SecureCore : Assoc.find ((swept (0, false)).die (frameDie 0x400000)).erasing 0x400000 = some (0, false) ∧ Assoc.find ((swept (1, true)).die (frameDie 0x400000)).erasing 0x400000 = some (1, true) ∧ Assoc.find ((swept (0, false)).die (frameDie 0x410000)).erasing 0x410000 = none ∧
    ((swept (0, false)).func 0).running = .none ∧ (((swept (0, false)).key 3).state = 3 ∧ ((swept (0, false)).key 3).frames = []) ∧ ((swept (0, false)).key 1).state ≠ 3 := by decide +kernel

/-- An invalidation of context 0 with a barge of the range still out, and with none. -/
def invy (b : Nat) : State :=
  { (teamy (team9 .resident)).updFunc 0 (fun f => { f with running := .inval 1 0 0 0 0 }) with copies := [(2, { team := 9, thread := 0, pc := 0, tcount := 0, core := 2, id := 1, live := true, scope := 0, packet := 0, isEl := true, width := 16, reqs := [], barges := [(0, { space := 0, line := 0x8000, elems := [], state := b })] })], cores := [] }
theorem wit_SecureCore_inval : ((invy 1).func 0).running = .inval 1 0 0 0 0 ∧ (invy 1).bargesOut 1 0 0 0 0 = true ∧ (invy 2).bargesOut 1 0 0 0 0 = false ∧ (invy 2).cores = [] ∧ (invy 2).missed = none ∧ (0 : Nat) < 256 ∧
    (∀ a b c d e, (starty.func 0).running ≠ .inval a b c d e) := ⟨by decide +kernel, by decide +kernel, by decide +kernel, by decide +kernel, by decide +kernel, by decide, by
      intro a b c d e
      have : (starty.func 0).running = .none := by decide +kernel
      rw [this]
      exact Running.noConfusion⟩

/-- Not secure; a pool with a frame, an empty pool that a sweep refills; forwarded and not; a key that lives, one destroyed. -/
theorem wit_SecureCore_tokens : Assoc.find (tokened tok0).tokens 7 = some tok0 ∧ tok0.secure = true ∧ tok0.reason = 4 ∧ tok0.forwarded = false ∧ ((tokened tok0).die 0).pool = [] ∧ ((tokened tok0).func tok0.func).homeDie = 0 ∧ ((swept (0, false)).die 0).pool ≠ [] ∧ (swept (0, false)).refilling 0 = true ∧
    (let t5 := { tok0 with reason := 5 }
     (∀ k ∈ [1, 3], (match ((keyed k t5).walk2From none 0 0x400000 4 1 0x10000).2 with | .ok fr => decide (fr.key = k) && decide (fr.pa = 0x400000) && !fr.shared && !fr.sealed | .error _ => false) = true) ∧ ((keyed 1 t5).func 0).root2 = some 0x10000 ∧ (State.reset.func 0).root2 = none ∧
      (match (((tokened t5).placeNum 0x30000 (29 + 2 ^ 9)).walk2From none 0 0x400000 4 1 0x10000).2 with | .ok fr => decide (fr.key = 0) && fr.sealed | .error _ => false) = true ∧ ((keyed 3 t5).key 3).state = 3 ∧ ((keyed 1 t5).key 1).state = 1 ∧ ((keyed 1 t5).key 1).cached.getLsbD (paDie 0x400000) = false ∧
      (keyed 1 t5).handing 0 = false ∧ ((keyed 1 t5).keysCached 0).length < 512) := by decide +kernel

/-- A split table at 0x40000 whose first two leaves may be merged; a shared one, with and without a private frame. -/
def splitty (w0 w1 w3 : Nat) (pool : List Nat) (pk : Option Nat) : State :=
  let s := (((((tables2.placeNum 0x30000 (0x40000 + 67)).placeNum 0x40000 w0).placeNum 0x40008 w1).placeNum 0x40018 w3).placeNum 0x40020 0x61011D).placeNum 0x40038 0xFFFFFFFF
  (s.updFunc 0 (fun f => { f with domain := 4, privKey := pk })).updDie 0 (fun d => { d with pool := pool })

theorem wit_SharingAndMoves_merge : (((splitty 0x60011D 0 0xFFFFFFFF [] none).leafAt 0 0).map (fun l => (l.gpa, paDie (eAddr l.e))) = some (0, 0)) ∧ (((splitty 0x60011D 0 0xFFFFFFFF [] none).leafAt 0 0x10000).map (fun l => (l.gpa, paDie (eAddr l.e))) = some (0x10000, 0)) ∧
    (splitty 0x60011D 0 0xFFFFFFFF [] none).nextCandidate 0 = some 0 ∧ (splitty 0x60011D 0 0xFFFFFFFF [] none).mod.hashShare ≠ 0 ∧ ((splitty 0x60011D 0 0xFFFFFFFF [] none).leafAt 3 0).isNone = true := by decide +kernel

/-- The directory is no part of what makes a leaf a candidate, nor of its bytes. -/
theorem hdir_leafAt (s : State) (h : Assoc HEntry) (f g : Nat) : ({ s with hdir := h } : State).leafAt f g = s.leafAt f g := rfl
theorem hdir_isCandidate (s : State) (h : Assoc HEntry) (f : Nat) (l : Leaf2) (b : Bool) : ({ s with hdir := h } : State).isCandidate f l b = s.isCandidate f l b := rfl
theorem hdir_nextCandidate (s : State) (h : Assoc HEntry) (die : Nat) : ({ s with hdir := h } : State).nextCandidate die = s.nextCandidate die := rfl
theorem hdir_bytesAt (s : State) (h : Assoc HEntry) (key pa n : Nat) : ({ s with hdir := h } : State).bytesAt key pa n = s.bytesAt key pa n := rfl

def mergy : State := splitty 0x60011D 0 0xFFFFFFFF [] none
/-- A directory's entry of a page's digest, whose frame may be the page's own, 0x600000, or another. -/
def entry0 (d : List Byte) (frame : Nat) : HEntry := { digest := ofBytes 256 d, frame := frame, refs := 1, domain := 4, home := 0 }

theorem wit_SharingAndMoves_candidate : (mergy.leafAt 0 0).map (fun l => (l.gpa, eKey l.e, eAddr l.e, l.at_, mergy.isCandidate 0 l false)) = some (0, 0, 0x600000, 0x40000, true) ∧ isLpddr 0x40000 = true ∧ 0x40000 % 32 = 0 ∧ mergy.cores = [] ∧ quiet mergy = true ∧ (mergy.func 0).domain = 4 ∧ mergy.hdir = [] ∧
    mergy.byteAt 0 0x600000 ≠ mergy.byteAt 0 0x40000 := by decide +kernel

theorem find_own (l : List Nat) (x : HEntry) : ∀ i ∈ l, (Assoc.find (l.map (fun i => (i, x))) i).isSome = true := by
  intro i hi
  induction l with
  | nil => simp at hi
  | cons a l ih =>
    simp only [List.map_cons, Assoc.find]
    split
    · rfl
    · rename_i h
      rcases List.mem_cons.mp hi with e | e
      · exact absurd e h
      · exact ih e

/-- Whatever a page's digest: the one entry of it in the directory, room for one, and every place taken by another domain. -/
theorem wit_SharingAndMoves_directory (d : List Byte) : (∃ i ∈ digestBucket d, ∀ frame, let t := { mergy with hdir := [(i, entry0 d frame)] }
      Assoc.find t.hdir i = some (entry0 d frame) ∧ (entry0 d frame).fork = false ∧ (entry0 d frame).domain = 4 ∧ (entry0 d frame).digest = ofBytes 256 d ∧ ∀ j, (Assoc.find t.hdir j).isSome = true → j = i) ∧
    (mergy.freeEntry (digestBucket d)).isSome = true ∧ ({ mergy with hdir := (digestBucket d).map (fun i => (i, { entry0 d 0 with domain := 5 })) } : State).freeEntry (digestBucket d) = none := by
  refine ⟨⟨_, List.mem_map.mpr ⟨0, by decide, rfl⟩, fun frame => ⟨by simp [Assoc.find], rfl, rfl, rfl, fun j h => ?_⟩⟩, ?_, ?_⟩
  · simp only [Assoc.find] at h
    split at h
    · rename_i e; exact e
    · simp at h
  · have h : mergy.hdir = [] := wit_SharingAndMoves_candidate.2.2.2.2.2.2.1
    simp [State.freeEntry, h, Assoc.find, digestBucket, bucketOf]
    exact ⟨0, by decide⟩
  · simp only [State.freeEntry, List.find?_eq_none]
    intro i hi
    have := find_own (digestBucket d) { entry0 d 0 with domain := 5 } i hi
    simp only [Option.isSome_iff_ne_none] at this
    simp [this]

/-- The page at 0x600000 and that of the split table differ in their first byte. -/
theorem wit_SharingAndMoves_differ : mergy.bytesAt 0 0x600000 65536 ≠ mergy.bytesAt 0 0x40000 65536 := by
  intro h
  have := congrArg (fun l => l[0]?) h
  simp only [State.bytesAt] at this
  rw [List.getElem?_map, List.getElem?_map, List.getElem?_range (by decide)] at this
  exact wit_SharingAndMoves_candidate.2.2.2.2.2.2.2 (by simpa using this)

theorem wit_SharingAndMoves_sectors :
    (∀ s ∈ [splitty 0x60009D 0 0xFFFFFFFF [] none, splitty 0x60009D 0 0xFFFFFFFF [] (some 1), splitty 0x60009D 0 0xFFFFFFFF [0x700000] (some 1)],
      (match s.walk2 0 0x400 false true false with | .ok fr => decide (fr.split = some 0x40000) && fr.shared | .error _ => false) = true ∧ (s.readSplit 0x40000).pv = false ∧ fbit (s.readSplit 0x40000).sectors (0x400 % 65536 / 1024) = false ∧ fbit (s.readSplit 0x40000).w0 7 = true) ∧
    ((splitty 0x60009D (0x700001 + 2 ^ 52) 0xFFFFFFFF [] (some 1)).readSplit 0x40000).pv = true ∧ (match (splitty 0x60009D (0x700001 + 2 ^ 52) 0xFFFFFFFF [] (some 1)).walk2 0 0x400 false true false with | .ok fr => decide (fr.split = some 0x40000) && fr.shared | .error _ => false) = true ∧
    (match tables2.walk2 0 0x400 false true false with | .ok fr => fr.split.isNone | .error _ => false) = true := by decide +kernel

/-- A handover of function 0 at its last aclk and past it; a move whose table holds one page, one whose page has been passed. -/
def handed (clock : Nat) : State := { (tables2.updMod (fun m => { m with handover := some { func := 0, dest := 2, since := 100, newRoot := 0x50000, frames := [0x50000], step := 2 } })) with clock := clock, keys := [(1, { state := 2, owner := 0 })] }
def movy (next : Nat) : State := (((tables2.placeNum 0x30000 0x40003).placeNum 0x40000 0x60001D).updFunc 0 (fun f => { f with moving := true, oldDie := 0, homeDie := 1, lazyNext := next })).updDie 1 (fun d => { d with pool := [0x2000000000] })
theorem wit_SharingAndMoves_moves : (handed 44099).mod.handover.isSome = true ∧ (handed 44099).clock < 100 + 44000 ∧ 100 + 44000 ≤ (handed 44100).clock ∧ ((handed 44099).key 1).owner = 0 ∧ ((handed 44099).key 1).state = 2 ∧ Assoc.rising (handed 44099).keys = true ∧ (1, ({ state := 2, owner := 0 } : Key)) ∈ (handed 44099).keys ∧
    ((handed 44099).func 0).flrDue = false ∧ ((handed 44100).func 0).flrDue = false ∧ (((handed 44100).updFunc 0 (fun f => { f with flrDue := true })).func 0).flrDue = true ∧ (∀ h, ((movy 0).updMod (fun m => { m with handover := some { func := 5, dest := 2, since := 100, newRoot := 0x50000, frames := [], step := 2 } })).mod.handover = some h → h.func ≠ 0) ∧
    (∀ h, (movy 0).mod.handover = some h → h.func ≠ 0) ∧ ((movy 0).func 0).moving = true ∧ (movy 0).mod.hashShare ≠ 0 ∧ (((movy 0).leaves 0).findSome? (fun l => if l.gpa < ((movy 0).func 0).lazyNext then none else ((movy 0).movable ((movy 0).func 0).oldDie l).map (fun m => (l, m)))).isSome = true ∧
    ((movy 0).die 1).pool.head? = some 0x2000000000 := by decide +kernel

/-- No leaf is left: the function has no second stage to walk. -/
theorem wit_SharingAndMoves_done : ∀ l ∈ ((movy 0).updFunc 0 (fun f => { f with root2 := none })).leaves 0, l.gpa < 0 ∨ ((movy 0).updFunc 0 (fun f => { f with root2 := none })).movable 0 l = none := by
  have h : ((movy 0).updFunc 0 (fun f => { f with root2 := none })).leaves 0 = [] := by
    have : (((movy 0).updFunc 0 (fun f => { f with root2 := none })).func 0).root2 = none := by decide +kernel
    unfold State.leaves
    rw [this]
  rw [h]
  simp

/-! ## Errors, logs, groups, resets, the host -/

def site (storage owner line index : Nat) : ErrorSite := { storage := storage, die := 0, owner := owner, line := line, index := index }
/-- Core 2 holds a clean line 5 and lines 6 and 7 with a pending byte, under key ids 0 and 5; ray 4 runs; line 9 is poisoned; team 9 is resident. -/
def damaged : State :=
  { (teamy (team9 .resident)).updCore 2 (fun c => { c with l1 := [(5, {}), (6, { have_ := 1, pend := 1 }), (7, { have_ := 1, pend := 1, key := 5 })] }) with rays := [(4, { team := 9, handle := 3, state := 1 })], lines := [(9, { poison := true })] }

theorem wit_Errors : (site 0 3 0 7).storage = 0 ∧ ((damaged.updThread 3 (fun th => { th with st := .ready })).thread 3).st ≠ .exited ∧ 7 ∉ ((damaged.updThread 3 (fun th => { th with st := .ready })).thread 3).poison ∧ 7 ∉ (damaged.team 9).spadPoison ∧
    (Assoc.find (damaged.core 2).l1 5).map L1Line.pend = some 0 ∧ (Assoc.find (damaged.core 2).l1 6).map (fun l => (l.pend, l.key)) = some (1, 0) ∧ isLpddr (6 * 128) = true ∧ (Assoc.find (damaged.core 2).l1 7).map (fun l => (l.pend, l.key)) = some (1, 5) ∧ damaged.mod.handover = none ∧ Assoc.find damaged.rays 4 = some { team := 9, handle := 3, state := 1 } ∧ (damaged.team 9).life = .resident ∧
    damaged.mod.stopped = 0 ∧ (damaged.updMod (fun m => { m with stopped := 1 })).mod.stopped ≠ 0 ∧ damaged.poisoned 9 = true ∧ damaged.poisoned 8 = false ∧ ((damaged.die 3).refresh = 0) := by decide +kernel

/-- Function 0's context 0 records, with its control block at 0x200000 of memory that both stages map; the stall is 4,096 aclk old, and one aclk less. -/
def logged (mode clock : Nat) (stalled : Bool) : State := { memy.updCtx 0 (fun c => { c with logMode := mode, stalled := stalled, logBlock := 0x200300, rereadAt := 10 }) with clock := clock }
theorem wit_LogsAndGroups_log : ((logged 0 0 false).ctx (ckey 0 0)).logMode = 0 ∧ ((logged 1 4105 true).ctx (ckey 0 0)).stalled = true ∧ (logged 1 4105 true).clock < 10 + 4096 ∧ ((logged 1 4106 true).ctx (ckey 0 0)).logMode = 1 ∧ 10 + 4096 ≤ (logged 1 4106 true).clock ∧
    ((logged 1 4106 true).devRead 0 (0x200300 + 0x18) 8).1.toOption.isSome = true := by decide +kernel

/-- A group of three modules, of which this is the second: forming with all but one confirmation, and active with a heartbeat of member 2. -/
def grp0 : Group := { state := 1, index := 1, count := 2, admitted := 5, confirmed := 1 }
def grp1 : Group := { state := 2, index := 1, count := 2, admitted := 5, confirmed := 5, activeAt := 50, sent := 100, beats := [(2, (3, 7, 100))] }
def grouped (g : Group) (clock : Nat) : State := { tables2 with groups := [(6, g)], clock := clock }
theorem wit_LogsAndGroups_groups : Assoc.find (grouped grp0 0).groups 6 = some grp0 ∧ 2 ≤ grp0.count ∧ 2 ≠ grp0.index ∧ grp0.count < 3 ∧ grp0.index = 1 ∧ (grouped grp1 0).mod.linkUp = true ∧ Assoc.find grp1.beats 0 = none ∧ Assoc.find grp1.beats 2 = some (3, 7, 100) ∧ (grouped grp1 0).colls = [] ∧
    grp1.state = 2 ∧ grp0.state ≠ 2 ∧ 100 + 8800000 ≤ (grouped grp1 8800100).clock ∧ (grouped grp1 8800099).clock < 100 + 8800000 ∧ (let others : BitVec 32 := BitVec.ofNat 32 (2 ^ 3 - 1) &&& ~~~2; grp0.admitted &&& others = others ∧ (grp0.confirmed ||| 4) &&& others = others) := by decide +kernel

/-- A booted module; one in a handover; a link down with a message that waits; function 3 with an idle ring. -/
def linked (q : List LinkMsg) : State := (tables2.updMod (fun m => { m with linkUp := false, linkQ := q })).updFunc 3 (fun f => { f with er := [(1, ring0)] })
theorem wit_ResetsAndLinks : (State.reset.updMod (fun m => { m with booted := true })).mod.booted = true ∧ State.reset.mod.stopped = 0 ∧ (handed 0).handing 0 = true ∧ ((handed 0).updMod (fun m => { m with handover := some { func := 3, dest := 2, since := 100, newRoot := 0x50000, frames := [], step := 2 } })).handing 3 = true ∧
    (linked []).handing 3 = false ∧ quiet (linked []) = true ∧ (linked []).missed = none ∧ Assoc.find ((linked []).func 3).er 1 = some ring0 ∧ (linked [.msix 3 5]).mod.linkUp = false ∧ (4 : Nat) ∈ [4, 8, 16] ∧ (16 : Nat) ∈ [4, 8, 16] ∧ (2 : Nat) ∉ [4, 8, 16] ∧
    (∀ p ∈ (linked []).teams, p.2.func ≠ 3 ∨ p.2.life = .ended) ∧ (∀ p ∈ (linked []).keys, p.2.owner ≠ 3) := by decide +kernel

theorem wit_ResetsAndLinks_msgs : ∀ m ∈ (linked [.msix 3 5]).mod.linkQ, ∃ f v, m = .msix f v := by
  have h : (linked [.msix 3 5]).mod.linkQ = [.msix 3 5] := by decide +kernel
  rw [h]
  intro m hm
  exact ⟨3, 5, by simpa using hm⟩

/-- Register accesses at the ends of their ranges. -/
theorem wit_HostAccesses : tables2.hostOpen = true ∧ State.reset.hostOpen = false ∧ (0x40000 + 32 * 63 < 0x40800 ∧ 0x53000 ≤ 0xFFFF8 ∧ 0xFFFF8 < 0x100000 ∧ 0x50040 / 64 ≠ 0x50000 / 64 ∧ 0x52040 / 64 ≠ 0x52000 / 64) ∧
    tables2.windowAt 0 0x200000 = none ∧ tables2.bar2Serves 0 0x200000 16 true = true ∧ tables2.bar2Serves 0 0x20000000 16 true = false ∧ tables2.bar2Serves 0 0x200000 16 false = true ∧ (tables2.physRead 0 0x200000 16).toOption.isSome = true ∧ (tables2.physWrite 0 0x200000 [1, 2, 3, 4]).1 = none ∧
    tables2.mod.protocol < 2 ∧ 2 ≤ (tables2.updMod (fun m => { m with protocol := 2 })).mod.protocol ∧ (∃ i < 2, ¬ (0x7FFFFFFFFF + i < 0x8000000000) ∨ isSecure (0x7FFFFFFFFF + i) = true) ∧ (∀ i < 16, 0x5F7FFFFFF0 + i < 0x8000000000 ∧ isSecure (0x5F7FFFFFF0 + i) = false) := by decide +kernel

/-- BAR2 of a function has at least 1 GiB, whatever its size: an access below it is served. -/
theorem wit_HostAccesses_bar2 : tables2.bar2Open 0 0x200000 16 = true ∧ tables2.bar2Open 65 0x200000 16 = false := by
  have h : (0x200000 + 16 : Nat) ≤ bar2Size 0 := Nat.le_trans (by decide) (Nat.pow_le_pow_right (by decide) (Nat.le_add_right 30 _))
  have ho : tables2.hostOpen = true := by decide +kernel
  constructor
  · simp [State.bar2Open, ho, h]
  · simp [State.bar2Open]

/-! ## Commands -/

/-- A command buffer of a function: numbers at byte offsets. -/
def buf (func : Nat) (xs : List (Nat × Nat)) : CmdBuf := { func := func, w := BitVec.ofNat 512 ((xs.map (fun (p : Nat × Nat) => p.2 * 2 ^ (8 * p.1))).sum) }
def taken (s : State) (c : CmdBuf) : Bool := s.hostOpen && s.mod.ready && !(s.func c.func).cmd.busy && decide (c.func ≤ 64) && decide (bufU c.w 1 1 = 0) && decide (bufU c.w 3 5 = 0)
theorem cmdTaken_of {s : State} {c : CmdBuf} (h : taken s c = true) : CmdTaken s c := by
  simp only [taken, Bool.and_eq_true, decide_eq_true_eq, Bool.not_eq_true'] at h
  exact ⟨h.1.1.1.1.1, h.1.1.1.1.2, h.1.1.1.2, h.1.1.2, h.1.2, h.2⟩

/-- A device not ready, a command of function 65, one that runs; reserved head bytes; a command of function 3 that is the physical function's. -/
theorem wit_CommandGate : State.reset.mod.ready = false ∧ 64 < (buf 65 []).func ∧ (invy 1).hostOpen = true ∧ (let s := (invy 1).updFunc 0 (fun f => { f with cmd := { busy := true } }); (s.func 0).cmd.busy = true) ∧
    tables2.hostOpen = true ∧ tables2.mod.ready = true ∧ (tables2.func 0).cmd.busy = false ∧ bufU (buf 0 [(1, 1)]).w 1 1 ≠ 0 ∧ bufU (buf 0 [(7, 128)]).w 3 5 ≠ 0 ∧ bufU (buf 0 [(2, 255), (8, 255)]).w 3 5 = 0 ∧ taken tables2 (buf 3 []) = true := by decide +kernel

/-- A command runs that is not one that waits. -/
theorem wit_CommandGate_busy : ((invy 1).func 0).running ≠ .waiting (buf 0 []).w := by
  have h : ((invy 1).func 0).running = .inval 1 0 0 0 0 := by decide +kernel
  rw [h]; exact Running.noConfusion

theorem cmdTaken_tables (xs : List (Nat × Nat)) (h : taken tables2 (buf 0 xs) = true) : CmdTaken tables2 (buf 0 xs) := cmdTaken_of h

/-- Contexts, logs and queues: each field at the ends of its range. -/
theorem wit_FunctionCommands : (∀ xs ∈ [[(2, 3)], [(20, 1)], [(18, 4096), (24, 0x10000)], [(18, 4097)], [(24, 0xFFFF)], [(8, 0x200300)], [(8, 0x200301)], [(8, 4095), (10, 63)], [(8, 4096)], [(10, 64)]], taken tables2 (buf 0 xs) = true) ∧
    (tables2.func 0).worldMask.getLsbD (bufU (buf 0 [(20, 16)]).w 20 1 % 16) = true ∧ (tables2.func 0).worldMask.getLsbD (bufU (buf 0 [(20, 1)]).w 20 1 % 16) = false ∧ bufU (buf 0 [(18, 4096), (24, 0x10000)]).w 18 2 * 16 ≤ 65536 ∧ 65536 < bufU (buf 0 [(18, 4097)]).w 18 2 * 16 ∧
    bufU (buf 0 [(18, 4096), (24, 0x10000)]).w 24 8 % 65536 = 0 ∧ bufU (buf 0 [(24, 0xFFFF)]).w 24 8 % 65536 ≠ 0 ∧ tables2.hasTeams 0 0 = false ∧ (teamy (team9 .resident)).hasTeams 0 0 = true ∧
    bufU (buf 0 [(8, 0x200301)]).w 8 10 % 64 ≠ 0 ∧ bufU (buf 0 [(8, 0x200300)]).w 8 10 % 64 = 0 ∧ taken ((memy.updMod (fun m => { m with ready := true, linkUp := true }))) (buf 0 [(8, 0x200300)]) = true ∧
    (((memy.updMod (fun m => { m with ready := true, linkUp := true })).devRead (ckey 0 0) 0x200300 64).1.toOption.isSome = true) ∧
    (let bs := toBytes (BitVec.ofNat 512 (0x210000 + 20 * 2 ^ 107)) 64; let b := ofBytesNat bs; fld b 64 43 = 0 ∧ fld b 264 24 = 0 ∧ fld b 288 32 = 0 ∧ fld b 384 128 = 0 ∧ fld b 107 5 = 20 ∧ fld b 0 16 = 0) ∧ fld (2 ^ 107 * 21) 107 5 = 21 ∧
    tables2.hwQueue 0 (bufU (buf 0 [(8, 4096)]).w 8 2) = none ∧ tables2.hwQueue 0 (bufU (buf 0 [(8, 4095), (10, 63)]).w 8 2) = some 4095 ∧ bufU (buf 0 [(8, 4095), (10, 63)]).w 10 1 ≤ 63 ∧ 63 < bufU (buf 0 [(10, 64)]).w 10 1 ∧
    (tables2.queue 5).func = 0 ∧ ((tables2.setQueue 5 { func := 3 }).queue 5).func ≠ 0 := by decide +kernel

/-- The context is scheduled by the host: a record of its own at the last berth, one of another context, a berth free, its own halting team, another's. -/
def hosty (s : State) : State := s.updCtx 0 (fun c => { c with mode := 2 })
theorem wit_FunctionCommands_berth : tables2.missed = none ∧ (tables2.ctx 0).hostSched = false ∧ ((hosty tables2).ctx 0).hostSched = true ∧ (hosty tables2).missed = none ∧ bufU (buf 0 [(8, 383), (10, 31)]).w 8 2 ≤ 383 ∧ 383 < bufU (buf 0 [(8, 384)]).w 8 2 ∧ 31 < bufU (buf 0 [(10, 32)]).w 10 1 ∧
    (let r := (buf 0 [(8, 383), (10, 31), (32, 1)]).w.extractLsb' 256 256; r.getLsbD 0 = true ∧ brFunc r = 0 ∧ brCtx r = 0 ∧ ((hosty tables2).place 383 31 r).1 = false ∧ ((hosty tables2).place 383 31 r).2.missed = none) ∧
    (let r := (buf 0 [(2, 1), (32, 1)]).w.extractLsb' 256 256; r.getLsbD 0 = true ∧ brCtx r ≠ bufU (buf 0 [(2, 1), (32, 1)]).w 2 1) ∧ (0 : BitVec 256).getLsbD 0 = false ∧
    (hosty tables2).teamAt 383 31 = none ∧ (hosty (teamy (team9 .halting))).teamAt 2 3 = some 9 ∧ ((hosty (teamy (team9 .halting))).team 9).life = .halting ∧ (hosty (teamy { team9 .halting with ctx := 1 })).teamAt 2 3 = some 9 ∧ ((hosty (teamy { team9 .halting with ctx := 1 })).team 9).ctx ≠ 0 := by decide +kernel

/-- Quotas, roots, invalidations and tokens: each at the ends of its range. -/
theorem wit_FunctionCommands_rest : (∀ d < 4, bufU (buf 0 [(8, 256), (10, 256), (12, 256), (14, 256)]).w (8 + 2 * d) 2 ≤ 256) ∧ (∃ d < 4, 256 < bufU (buf 0 [(14, 257)]).w (8 + 2 * d) 2) ∧ bufU (buf 0 [(8, 0x30000), (16, 63), (17, 1)]).w 8 2 = 0 ∧ bufU (buf 0 [(8, 0x30000), (16, 63), (17, 1)]).w 16 1 ≤ 63 ∧ 63 < bufU (buf 0 [(16, 64)]).w 16 1 ∧ bufU (buf 0 [(8, 1)]).w 8 2 ≠ 0 ∧
    bufU (buf 3 [(17, 2)]).w 17 1 ≠ 3 ∧ taken tables2 (buf 3 [(17, 2)]) = true ∧ Assoc.find tables2.tokens 7 = none ∧ Assoc.find (tokened tok0).tokens (bufU (buf 0 [(8, 7)]).w 8 8) = some tok0 ∧ tok0.secure = true ∧ tok0.forwarded = false ∧ taken (tokened tok0) (buf 0 [(8, 7)]) = true ∧
    ((tokened { tok0 with forwarded := true }).resumeToken 7 0).missed = none ∧ ((tokened { tok0 with forwarded := true }).resumeToken 7 1).missed = none ∧ bufU (buf 3 [(9, 2)]).w 9 1 ≠ 3 ∧ 64 < bufU (buf 0 [(9, 65)]).w 9 1 ∧ bufU (buf 0 [(9, 64), (16, 0x200000)]).w 9 1 ≤ 64 ∧ bufU (buf 0 [(9, 64), (16, 0x200000)]).w 16 8 % 4096 = 0 ∧
    bufU (buf 0 [(16, 0x200800)]).w 16 8 % 4096 ≠ 0 := by decide +kernel

/-- Two states agree below 4 MiB, and on functions and keys. -/
structure Near (s t : State) : Prop where
  funcs : t.funcs = s.funcs
  keys : t.keys = s.keys
  line : ∀ j, j < 0x8000 → Assoc.find t.lines j = Assoc.find s.lines j
  byte : ∀ pa, pa < 0x400000 → Tbl.get t.mem pa = Tbl.get s.mem pa

theorem Near.write {s t : State} (h : Near s t) (n pa : Nat) (bs : List Byte) (hp : 0x400000 ≤ pa) : Near s (State.writeBytesFuel 0 n t pa bs) := by
  induction n generalizing t pa bs with
  | zero => exact h
  | succ n ih =>
    simp only [State.writeBytesFuel]
    split
    · exact h
    · have w := OtherLines.writeMasked t 0 (pa / 128) (lineMask (pa % 128) (bs.take (128 - pa % 128)).length) (lineData (pa % 128) (bs.take (128 - pa % 128)))
      refine ih ⟨w.funcs.trans h.funcs, w.keys.trans h.keys, fun j hj => (w.line j (by omega)).trans (h.line j hj), fun p hq => (w.byte p (by omega)).trans (h.byte p hq)⟩ _ _ (by omega)

theorem Near.numAt {s t : State} (h : Near s t) (at_ : Nat) (ha : at_ + 8 ≤ 0x400000) : t.numAt 0 at_ 8 = s.numAt 0 at_ 8 := by
  have hk : t.keyGen 0 = s.keyGen 0 := by simp only [State.keyGen, State.key, h.keys]
  have hb : ∀ i < 8, t.byteAt 0 (at_ + i) = s.byteAt 0 (at_ + i) := by
    intro i hi
    have hl : isLpddr (at_ + i) = true := by simp [isLpddr]; omega
    have hn : Tbl.getN t.mem ((at_ + i) / 128 * 128) 128 = Tbl.getN s.mem ((at_ + i) / 128 * 128) 128 := by
      simp only [Tbl.getN]
      exact List.map_congr_left (fun j hj => h.byte _ (by have := List.mem_range.mp hj; omega))
    unfold State.byteAt State.lineUnder
    rw [if_pos hl, if_pos hl, h.line _ (by omega), h.byte _ (by omega), hk, hn]
  unfold State.numAt State.bytesAt
  congr 1
  exact List.map_congr_left (fun i hi => hb i (List.mem_range.mp hi))

theorem Near.poisoned {s t : State} (h : Near s t) (j : Nat) (hj : j < 0x8000) : t.poisoned j = s.poisoned j := by
  simp only [State.poisoned, h.line j hj]

/-- The second stage of `tables2` maps the first 512 MiB one to one, in every state that agrees with it below 4 MiB. -/
theorem walk_near {s t : State} (h : Near s t) (h1 : (s.func 0).root2 = some 0x10000) (h2 : s.numAt 0 0x10000 8 = 0x20003) (h3 : s.numAt 0 0x20000 8 = 0x30003) (h4 : s.numAt 0 0x30000 8 = 29)
    (h5 : s.poisoned 0x200 = false) (h6 : s.poisoned 0x400 = false) (h7 : s.poisoned 0x600 = false) (gpa : Nat) (hg : gpa < 2 ^ 29) :
    t.walk2 0 gpa false true false = .ok { leafFrame 29 gpa with level := 3 } := by
  have f1 : (t.func 0).root2 = some 0x10000 := by rw [← h1]; simp only [State.func, h.funcs]
  have n1 : fld gpa 55 9 = 0 := by simp only [fld]; omega
  have n2 : fld gpa 42 13 = 0 := by simp only [fld]; omega
  have n3 : fld gpa 29 13 = 0 := by simp only [fld]; omega
  have e1 := (h.numAt 0x10000 (by omega)).trans h2
  have e2 := (h.numAt 0x20000 (by omega)).trans h3
  have e3 := (h.numAt 0x30000 (by omega)).trans h4
  have p1 := (h.poisoned 0x200 (by omega)).trans h5
  have p2 := (h.poisoned 0x400 (by omega)).trans h6
  have p3 := (h.poisoned 0x600 (by omega)).trans h7
  have sv : ∀ (l : Nat) (x : X Nat), t.serve { agent := none, stage := 2, owner := 0, level := l, addr := gpa } x [] = x := fun l x => by simp [State.serve, State.cachedAt]
  have w : (t.walk2From none 0 gpa 4 1 0x10000).2 = .ok { leafFrame 29 gpa with level := 3 } := by
    have m : gpa % 536870912 = gpa := Nat.mod_eq_of_lt hg
    have v1 : eV 0x20003 = true ∧ malformed true 1 0x20003 false = false ∧ eTbl 0x20003 = true ∧ fbit 0x20003 6 = false ∧ eAddr 0x20003 = 0x20000 := by decide
    have v2 : eV 0x30003 = true ∧ malformed true 2 0x30003 false = false ∧ eTbl 0x30003 = true ∧ fbit 0x30003 6 = false ∧ eAddr 0x30003 = 0x30000 := by decide
    have v3 : eV 29 = true ∧ malformed true 3 29 false = false ∧ eTbl 29 = false := by decide
    have b1 : isBacked 0x10000 = true ∧ isBacked 0x20000 = true ∧ isBacked 0x30000 = true := by decide
    have b2 : isSecure 0x10000 = false ∧ isSecure 0x20000 = false ∧ isSecure 0x30000 = false := by decide
    have down : ∀ k l table e to_, t.entryAt true (table + (if l = 1 then fld gpa 55 9 else fld gpa (68 - 13 * l) 13) * 8) 0 l gpa = .ok e → eTbl e = true → fbit e 6 = false → eAddr e = to_ →
        (t.walk2From none 0 gpa (k + 1) l table).2 = (t.walk2From none 0 gpa k (l + 1) to_).2 := by
      intro k l table e to_ h ht hs ha
      simp only [State.walk2From, State.entry2, h, sv, Walk.step, ht, hs, ha, if_true, if_false, Bool.false_eq_true]
    have leaf : ∀ k l table e, t.entryAt true (table + (if l = 1 then fld gpa 55 9 else fld gpa (68 - 13 * l) 13) * 8) 0 l gpa = .ok e → eTbl e = false →
        (t.walk2From none 0 gpa (k + 1) l table).2 = .ok { leafFrame e (if l = 3 then gpa % 536870912 else gpa % 65536) with level := l } := by
      intro k l table e h ht
      simp only [State.walk2From, State.entry2, h, sv, Walk.step, ht, if_false, Bool.false_eq_true]
    have s1 := down 3 1 0x10000 0x20003 0x20000 (by simp [State.entryAt, n1, e1, p1, b1, b2, v1]) v1.2.2.1 v1.2.2.2.1 v1.2.2.2.2
    have s2 := down 2 2 0x20000 0x30003 0x30000 (by simp [State.entryAt, n2, e2, p2, b1, b2, v2]) v2.2.2.1 v2.2.2.2.1 v2.2.2.2.2
    have s3 := leaf 1 3 0x30000 29 (by simp [State.entryAt, n3, e3, p3, b1, b2, v3]) v3.2.2
    rw [if_pos rfl, m] at s3
    exact s1.trans (s2.trans s3)
  have c : t.checkPa gpa 0 gpa 3 false = .ok () := by
    have a : isBacked gpa = true := by simp [isBacked]; omega
    have b : isSecure gpa = false := by simp [isSecure]; omega
    simp [State.checkPa, a, b]
  have r : leafFrame 29 gpa = { pa := gpa, key := 0, r := true, w := true, x := true, sealed := false } := by simp [leafFrame, eAddr, eKey, fbit, fld]
  have e : t.walk2From none 0 gpa 4 1 0x10000 = ((t.walk2From none 0 gpa 4 1 0x10000).1, .ok { leafFrame 29 gpa with level := 3 }) := Prod.ext rfl w
  rw [r] at e
  simp only [State.walk2, State.walk2For, f1]
  rw [e]
  simp [State.checkFrame, c, r]

theorem Near.physWrite {s t : State} (h : Near s t) (h1 : (s.func 0).root2 = some 0x10000) (h2 : s.numAt 0 0x10000 8 = 0x20003) (h3 : s.numAt 0 0x20000 8 = 0x30003) (h4 : s.numAt 0 0x30000 8 = 29)
    (h5 : s.poisoned 0x200 = false) (h6 : s.poisoned 0x400 = false) (h7 : s.poisoned 0x600 = false) (gpa : Nat) (bs : List Byte)
    (hp : ∀ p ∈ piecesOf gpa bs.length, 0x400000 ≤ p.1 ∧ p.1 < 2 ^ 29) : (t.physWrite 0 gpa bs).1 = none ∧ Near s (t.physWrite 0 gpa bs).2 := by
  unfold State.physWrite
  generalize piecesOf gpa bs.length = ps at hp
  induction ps generalizing t with
  | nil => exact ⟨rfl, h⟩
  | cons p ps ih =>
    have hq := hp p (by simp)
    have r : leafFrame 29 p.1 = { pa := p.1, key := 0, r := true, w := true, x := true, sealed := false } := by simp [leafFrame, eAddr, eKey, fbit, fld]
    rw [List.foldl_cons]
    have pl : t.physPlace 0 p.1 = (.ok { leafFrame 29 p.1 with level := 3 }, t) := by
      unfold State.physPlace
      rw [walk_near h h1 h2 h3 h4 h5 h6 h7 p.1 hq.2, r]
    simp only [pl, r]
    have hn : Near s (t.writeBytes 0 p.1 ((bs.drop (p.1 - gpa)).take p.2)) := by unfold State.writeBytes; exact h.write _ _ _ hq.1
    have next := ih hn (fun q hq => hp q (by simp [hq]))
    simp only at next
    exact next

theorem Near.updMod (s : State) (g : Module → Module) : Near s (s.updMod g) := ⟨rfl, rfl, fun _ _ => rfl, fun _ _ => rfl⟩

theorem write_tables (g : Module → Module) (gpa n : Nat) (bs : List Byte) (hl : bs.length = n) (hp : ∀ p ∈ piecesOf gpa n, 0x400000 ≤ p.1 ∧ p.1 < 2 ^ 29) : ((tables2.updMod g).physWrite 0 gpa bs).1 = none := by
  have h1 : (tables2.func 0).root2 = some 0x10000 := by decide +kernel
  have h2 : tables2.numAt 0 0x10000 8 = 0x20003 ∧ tables2.numAt 0 0x20000 8 = 0x30003 ∧ tables2.numAt 0 0x30000 8 = 29 := by decide +kernel
  have h3 : tables2.poisoned 0x200 = false ∧ tables2.poisoned 0x400 = false ∧ tables2.poisoned 0x600 = false := by decide +kernel
  exact ((Near.updMod tables2 g).physWrite h1 h2.1 h2.2.1 h2.2.2 h3.1 h3.2.1 h3.2.2 gpa bs (by rw [hl]; exact hp)).1

theorem fitBytes_length (n : Nat) (l : List Byte) : (fitBytes n l).length = n := by simp [fitBytes]

/-- A report can be written: its bytes, whatever they are, lie beyond the tables. -/
theorem wit_FunctionCommands_report (g : Module → Module) (f : Nat) (nonce : List Byte) : ((tables2.updMod g).physWrite 0 0x400000 ((tables2.updMod g).report f nonce)).1 = none :=
  write_tables g 0x400000 8192 _ (fitBytes_length 8192 _) (by decide +kernel)

/-- Switches: one is open; no team of the context is on a core; one is. -/
theorem wit_ModuleCommands_switch : (sliced 100 2 true).mod.switch.isSome = true ∧ tables2.mod.switch = none ∧ tables2.teams = [] ∧ ckey 0 (bufU (buf 0 [(8, 0), (9, 1)]).w 8 1) ≠ ckey 0 (bufU (buf 0 [(8, 0), (9, 1)]).w 9 1) ∧ taken tables2 (buf 0 [(8, 0), (9, 1)]) = true ∧
    (let s := teamy (team9 .resident); taken s (buf 0 [(9, 1)]) = true ∧ s.mod.switch = none ∧ Assoc.find s.teams 9 = some (team9 .resident) ∧ (team9 .resident).onCore 2 = true) ∧ taken ((sliced 100 2 true).updMod (fun m => { m with linkUp := true })) (buf 0 []) = true := by decide +kernel

/-- Grants at the end of the store, of units of the context's own and of another's; slices, power, roots and invalidations at the ends of their ranges. -/
theorem wit_ModuleCommands : (let w := (buf 0 [(8, 3), (9, 64), (12, 65535), (16, 1)]).w; bufU w 8 1 ≤ 3 ∧ bufU w 9 1 ≤ 64 ∧ bufU w 12 4 + bufU w 16 4 ≤ 65536) ∧ 65536 < bufU (buf 0 [(12, 65535), (16, 2)]).w 12 4 + bufU (buf 0 [(12, 65535), (16, 2)]).w 16 4 ∧
    (let s := tables2.updDie 3 (fun d => { d with wsHolder := [(65535, ckey 64 0 + 1)] }); (Assoc.find (s.die 3).wsHolder 65535).getD 0 = ckey 64 0 + 1) ∧ (Assoc.find (tables2.die 3).wsHolder 65535).getD 0 ≠ ckey 64 0 + 1 ∧
    bufU (buf 0 [(8, 63), (9, 64)]).w 8 1 ≤ 63 ∧ 63 < bufU (buf 0 [(8, 64)]).w 8 1 ∧ bufU (buf 0 [(8, 699)]).w 8 2 < 700 ∧ 700 ≤ bufU (buf 0 [(8, 700)]).w 8 2 ∧ bufU (buf 0 [(8, 1400)]).w 8 2 ≤ 1400 ∧ 1400 < bufU (buf 0 [(8, 1401)]).w 8 2 ∧
    bufU (buf 0 [(8, 64), (16, 0x10000), (24, 63)]).w 16 8 % 65536 = 0 ∧ bufU (buf 0 [(8, 64), (16, 0x10000), (24, 63)]).w 24 1 ≤ 63 ∧ bufU (buf 0 [(16, 0x18000)]).w 16 8 % 65536 ≠ 0 ∧ bufU (buf 0 [(16, 0x10000)]).w 16 2 = 0 ∧ bufU (buf 0 [(16, 1)]).w 16 2 ≠ 0 ∧
    (∀ xs ∈ [[(8, 3), (9, 64), (12, 65535), (16, 1)], [(8, 63), (9, 64)], [(8, 699)], [(16, 1)]], taken tables2 (buf 0 xs) = true) := by decide +kernel

/-- Keys of each state and owner; domains; shares; merge lists of 1 and 4,096 entries; directory entries with none, one and two references. -/
theorem wit_ModuleCommands_keys : (let w := (buf 0 [(9, 64), (10, 4095)]).w; bufU w 10 2 / 4096 = 0 ∧ bufU w 12 52 = 0 ∧ bufU w 9 1 ≤ 64 ∧ bufU w 10 2 % 4096 ≠ 0) ∧ bufU (buf 0 [(10, 4096)]).w 10 2 / 4096 ≠ 0 ∧ bufU (buf 0 [(10, 4096)]).w 10 2 % 4096 = 0 ∧ bufU (buf 0 [(63, 1)]).w 12 52 ≠ 0 ∧
    ((swept (0, false)).key 4).state = 0 ∧ ((swept (0, false)).key 1).state = 1 ∧ ((swept (0, false)).key 1).owner = 0 ∧ ((swept (0, false)).key 2).state = 2 ∧ ((swept (0, false)).key 3).state = 3 ∧ taken (swept (0, false)) (buf 0 [(10, 1)]) = true ∧
    (let s := (swept (0, false)).updFunc 2 (fun f => { f with domain := 5, dkey := 2 }); (∃ p ∈ s.funcs, p.1 ≠ 0 ∧ p.2.domain = 5 ∧ p.2.dkey ≠ 1)) ∧ (¬ ∃ p ∈ (swept (0, false)).funcs, p.1 ≠ 0 ∧ p.2.domain = 5 ∧ p.2.dkey ≠ 1) ∧ bufU (buf 0 [(15, 1)]).w 15 49 ≠ 0 ∧
    bufU (buf 0 [(8, 1), (14, 8)]).w 15 49 = 0 ∧ bufU (buf 0 [(8, 1), (14, 8)]).w 14 1 ≤ 8 ∧ 8 < bufU (buf 0 [(14, 9)]).w 14 1 ∧ bufU (buf 0 [(8, 0x200300), (16, 4096)]).w 20 44 = 0 ∧ bufU (buf 0 [(8, 0x200300), (16, 4096)]).w 8 8 % 16 = 0 ∧ bufU (buf 0 [(8, 0x200300), (16, 4096)]).w 16 4 ≤ 4096 ∧
    4096 < bufU (buf 0 [(16, 4097)]).w 16 4 ∧ bufU (buf 0 [(20, 1)]).w 20 44 ≠ 0 ∧ bufU (buf 0 [(8, 6)]).w 12 52 = 0 ∧ (∀ n ∈ [0, 1, 2], Assoc.find ({ tables2 with hdir := [(6, { refs := n })] } : State).hdir (bufU (buf 0 [(8, 6)]).w 8 4) = some { refs := n }) ∧ Assoc.find tables2.hdir 6 = none := by decide +kernel

/-- Worlds: twelve ways in all, one more, and a way of another world; pools: the last frames of a die, one past them; frames that await the host. -/
theorem wit_ModuleCommands_worlds : bufU (buf 0 [(14, 1)]).w 14 50 ≠ 0 ∧ bufU (buf 0 [(9, 64), (12, 6)]).w 14 50 = 0 ∧ bufU (buf 0 [(9, 64), (12, 6)]).w 9 1 ≤ 64 ∧ 64 < bufU (buf 0 [(9, 65)]).w 9 1 ∧
    (let ways : Assoc (BitVec 16) := [(2, 0xF000)]
     let theirs := (Assoc.vals (ways.filter (fun p => decide (p.1 ≠ 1)))).foldl (· ||| ·) 0#16
     (0xFF : BitVec 16) &&& theirs = 0 ∧ ((List.range 16).filter (fun i => (0xFF ||| theirs).getLsbD i)).length = 12 ∧ ((List.range 16).filter (fun i => (0x1FF ||| theirs).getLsbD i)).length = 13 ∧ (0x1000 : BitVec 16) &&& theirs ≠ 0) ∧ bufU (buf 0 [(10, 15)]).w 10 1 ≤ 15 ∧ 15 < bufU (buf 0 [(10, 16)]).w 10 1 ∧
    (let w := (buf 0 [(9, 1), (16, 0x3F7FFF0000), (24, 1)]).w; bufU w 11 5 = 0 ∧ bufU w 28 36 = 0 ∧ bufU w 9 1 ≤ 3 ∧ bufU w 16 8 % 65536 = 0 ∧ bufU w 9 1 * 0x2000000000 ≤ bufU w 16 8 ∧ bufU w 16 8 + 65536 * bufU w 24 4 ≤ bufU w 9 1 * 0x2000000000 + 0x1F80000000) ∧
    (let w := (buf 0 [(9, 1), (16, 0x3F7FFF0000), (24, 2)]).w; bufU w 9 1 * 0x2000000000 + 0x1F80000000 < bufU w 16 8 + 65536 * bufU w 24 4) ∧ bufU (buf 0 [(15, 1)]).w 11 5 ≠ 0 ∧ bufU (buf 0 [(10, 8)]).w 10 1 ≤ 8 ∧ 8 < bufU (buf 0 [(10, 9)]).w 10 1 ∧
    (∃ e, Assoc.find ((swept (0, true)).die 0).erasing 0x400000 = some (e, true)) ∧ ((swept (0, true)).func 0).running = .none := by
  refine ⟨?_, ?_, ?_, ?_, ?_, ?_, ?_, ?_, ?_, ?_, ?_, ?_, ⟨0, ?_⟩, ?_⟩ <;> decide +kernel

/-- Function 1's second stage maps nothing; key 7 is live and function 2's; die 0 has one frame, die 1 none. -/
def forky : State :=
  { (((State.reset.updMod (fun m => { m with ready := true, linkUp := true })).updFunc 1 (fun f => { f with root2 := some 0x10000 })).updDie 0 (fun d => { d with pool := [0x500000] })) with keys := [(7, { state := 1, owner := 2 })] }
def forkBuf (die : Nat) : CmdBuf := buf 0 [(8, 1), (9, 2), (10, die), (12, 7)]

set_option maxRecDepth 20000 in
theorem wit_ForksMovesAndGroups : taken forky (forkBuf 0) = true ∧ bufU (forkBuf 0).w 11 1 = 0 ∧ bufU (forkBuf 0).w 12 2 / 4096 = 0 ∧ bufU (forkBuf 0).w 14 50 = 0 ∧ bufU (forkBuf 0).w 8 1 = 1 ∧ bufU (forkBuf 0).w 9 1 = 2 ∧ bufU (forkBuf 3).w 10 1 ≤ 3 ∧ 3 < bufU (forkBuf 4).w 10 1 ∧ bufU (buf 0 [(11, 1)]).w 11 1 ≠ 0 ∧
    forky.forkState 1 2 7 = true ∧ forky.forkState 1 2 6 = false ∧ forky.forkRange 1 = false ∧ (forky.func 1).root2 = some 0x10000 ∧ ((forky.func 5).root2 = none) ∧ (State.forkFrom { die := 1, pkey := 7 } 3 1 0x10000 forky).isNone = true ∧ (State.forkFrom { die := 0, pkey := 7 } 3 1 0x10000 forky).isSome = true := by decide +kernel

/-- A writable leaf of level 3. -/
theorem wit_ForksMovesAndGroups_range : tables2.forkRange 0 = true := by decide +kernel

set_option maxRecDepth 20000 in
/-- A move of function 1 to die 0, and to die 1, whose pool is empty; one that moves already. -/
theorem wit_ForksMovesAndGroups_move : bufU (buf 0 [(8, 64), (9, 3)]).w 10 54 = 0 ∧ bufU (buf 0 [(10, 1)]).w 10 54 ≠ 0 ∧ bufU (buf 0 [(8, 64), (9, 3)]).w 8 1 ≤ 64 ∧ bufU (buf 0 [(8, 64), (9, 3)]).w 9 1 ≤ 3 ∧ (forky.func 1).moving = false ∧ forky.mod.handover = none ∧ ((movy 0).func 0).moving = true ∧
    (State.copyTable 1 4 1 0x10000 forky).isNone = true ∧ (State.copyTable 0 4 1 0x10000 forky).isSome = true := by decide +kernel

/-- Groups: reserved bytes, group zero, a ninth group, the greatest member; a link of another protocol and one of CXL 3.1. -/
theorem wit_ForksMovesAndGroups_groups : (let w := (buf 0 [(9, 31), (10, 6), (14, 31)]).w; bufU w 15 1 = 0 ∧ bufU w 56 8 = 0 ∧ bufU w 10 2 ≠ 0 ∧ bufU w 14 1 ≠ 0 ∧ bufU w 14 1 ≤ 31 ∧ bufU w 9 1 ≤ bufU w 14 1) ∧ bufU (buf 0 [(14, 32)]).w 14 1 > 31 ∧ bufU (buf 0 [(15, 1)]).w 15 1 ≠ 0 ∧ bufU (buf 0 [(15, 0)]).w 10 2 = 0 ∧
    (Assoc.find tables2.groups 6 = none ∧ tables2.groups.length < 8) ∧ 8 ≤ ({ tables2 with groups := (List.range 8).map (fun i => (i + 10, grp0)) } : State).groups.length ∧ tables2.mod.protocol ≠ 3 ∧ ((grouped grp0 0).updMod (fun m => { m with protocol := 3 })).mod.protocol = 3 ∧
    Assoc.find (grouped grp0 0).groups 6 = some grp0 ∧ (grouped grp0 0).colls = [] ∧ taken (grouped grp0 0) (buf 0 [(9, 2), (10, 6), (16, 0x200000)]) = true ∧ bufU (buf 0 [(9, 2), (10, 6), (16, 0x200000)]).w 9 1 ≤ grp0.count ∧ grp0.count < bufU (buf 0 [(9, 3), (10, 6)]).w 9 1 ∧
    bufU (buf 0 [(9, 2), (10, 6), (16, 0x200000)]).w 16 8 % 4096 = 0 ∧ bufU (buf 0 [(16, 0x200800)]).w 16 8 % 4096 ≠ 0 ∧ bufU (buf 0 [(9, 2), (10, 6), (12, 4095)]).w 12 2 / 4096 = 0 ∧ bufU (buf 0 [(12, 4096)]).w 12 2 / 4096 ≠ 0 := by decide +kernel

theorem wit_ForksMovesAndGroups_read : (tables2.physRead 0 0x200000 7539).toOption.isSome = true := by decide +kernel
theorem wit_ForksMovesAndGroups_query : ((tables2.updMod id).physWrite 0 0x400000 (grp0.block 6)).1 = none := write_tables id 0x400000 1040 _ (by decide +kernel) (by decide +kernel)

/-- A report that holds: its head, its nonce and its key's hash are right, and the free verification of its signature (log 6) accepts it. -/
def report0 : List Byte := leBytes 8 (7539 + 2 ^ 40 + 0x4816 * 2 ^ 48) ++ List.replicate 7531 0
theorem wit_ForksMovesAndGroups_report : reportOk report0 0 (ofBytes 256 (sha3_256 (List.replicate 2592 0))) = Config.mldsaVerify (List.replicate 2592 0) (report0.take 0xB60) ((report0.drop 0xB60).take 4627) := by
  have h1 : fld (ofBytesNat (report0.take 8)) 48 16 = 0x4816 ∧ fld (ofBytesNat (report0.take 8)) 40 8 = 1 ∧ fld (ofBytesNat (report0.take 8)) 32 8 = 0 ∧ ofBytes 256 ((report0.drop 0x20).take 32) = 0 := by decide +kernel
  have h2 : (report0.drop 0x140).take 2592 = List.replicate 2592 0 := by decide +kernel
  simp only [reportOk, h1, h2, decide_true, Bool.true_and, Bool.and_true]

/-! ## The mailbox -/

def mbTaken (s : State) (c : CmdBuf) : Bool := s.hostOpen && s.mod.ready && !(s.func c.func).mb.busy && decide (c.func ≤ 64) && decide (bufU c.w 1 1 = 0) && decide (bufU c.w 3 5 = 0) && decide ((s.func c.func).stepping = none)
theorem mbTaken_of {s : State} {c : CmdBuf} (h : mbTaken s c = true) : MbTaken s c := by
  simp only [mbTaken, Bool.and_eq_true, decide_eq_true_eq, Bool.not_eq_true'] at h
  exact ⟨h.1.1.1.1.1.1, h.1.1.1.1.1.2, h.1.1.1.1.2, h.1.1.1.2, ⟨h.1.1.2, h.1.2⟩, h.2⟩

/-- Context 0 of function 0 is attached; team 9, of one warp, is of a life of its own. -/
def boxed (t : Team) : State := (teamy t).updMod (fun m => { m with attached := some (0, 0, 1) })

/-- Nobody attached; the context attached; another; a breakpoint aligned and not, watchpoints of the least and the greatest length; a team that can halt, and none. -/
theorem wit_MailboxAttachAndPoints : mbTaken (boxed (team9 .resident)) (buf 0 [(16, 1)]) = true ∧ mbTaken tables2 (buf 0 []) = true ∧ tables2.mod.attached = none ∧ (boxed (team9 .resident)).mod.attached = some (0, 0, 1) ∧ bufU (buf 0 [(2, 1)]).w 2 1 ≠ 0 ∧ mbTaken (boxed (team9 .resident)) (buf 3 []) = true ∧
    ((boxed (team9 .debugHalted)).teams.map Prod.fst).Nodup ∧ (team9 .debugHalted).isDebug = true ∧ (team9 .resident).isDebug = false ∧
    bufU (buf 0 [(9, 3), (10, 1), (16, 0x100008)]).w 26 6 = 0 ∧ bufU (buf 0 [(9, 3), (10, 1), (16, 0x100008)]).w 9 1 ≤ 3 ∧ bufU (buf 0 [(9, 3), (10, 1), (16, 0x100008)]).w 16 10 % 8 = 0 ∧ bufU (buf 0 [(10, 1), (16, 4)]).w 16 10 % 8 ≠ 0 ∧ bufU (buf 0 [(26, 1)]).w 26 6 ≠ 0 ∧ 3 < bufU (buf 0 [(9, 4)]).w 9 1 ∧
    (∀ n ∈ [4, 65536], let w := (buf 0 [(9, 3), (10, 1), (16, 8), (20, n)]).w; bufU w 16 4 % 4 = 0 ∧ bufU w 20 4 % 4 = 0 ∧ 4 ≤ bufU w 20 4 ∧ bufU w 20 4 ≤ 65536) ∧ 65536 < bufU (buf 0 [(20, 65540)]).w 20 4 ∧ bufU (buf 0 [(20, 0)]).w 20 4 < 4 ∧
    (boxed (team9 .resident)).mbTeam (buf 0 [(16, 1)]) Team.canHalt = some 9 ∧ (boxed (team9 .halting)).mbTeam (buf 0 [(16, 1)]) Team.canHalt = some 9 ∧ (boxed (team9 .debugHalted)).mbTeam (buf 0 [(16, 1)]) Team.canHalt = none ∧ (boxed (team9 .resident)).mbTeam (buf 0 [(16, 2)]) Team.canHalt = none := by decide +kernel

/-- A device not ready; a mailbox that is busy; function 65; reserved head bytes. -/
theorem wit_MailboxAttachAndPoints_gate : State.reset.mod.ready = false ∧ ((tables2.updFunc 0 (fun f => { f with mb := { busy := true } })).func 0).mb.busy = true ∧ 64 < (buf 65 []).func ∧ bufU (buf 0 [(1, 1)]).w 1 1 ≠ 0 ∧ bufU (buf 0 [(3, 1)]).w 3 5 ≠ 0 ∧ (tables2.func 0).mb.busy = false := by decide +kernel

/-- A step of warp 0 of the team, whose thread 3 has recorded a debug cause; a step that runs, with its warp still due and past. -/
def stepped (due : Bool) : State :=
  { (boxed (team9 .debugHalted)).updFunc 0 (fun f => { f with stepping := some (9, [(0, 8)]) }) with warps := [(9 * 32, { step := due, halted := true })], threads := (List.range 32).map (fun i => (9 * 1024 + i, { st := if i = 3 then .ready else .exited })) }
theorem wit_MailboxStep : mbTaken (boxed (team9 .debugHalted)) (buf 0 [(16, 1), (20, 1)]) = true ∧ (boxed (team9 .debugHalted)).mbTeam (buf 0 [(16, 1), (20, 1)]) (fun t => decide (t.life = .debugHalted)) = some 9 ∧ (boxed (team9 .halting)).mbTeam (buf 0 [(16, 1)]) (fun t => decide (t.life = .debugHalted)) = none ∧
    ((stepped true).func 0).stepping = some (9, [(0, 8)]) ∧ ((stepped true).team 9).life = .debugHalted ∧ ((stepped true).warp (wkey 9 0)).step = true ∧ ((stepped false).warp (wkey 9 0)).step = false ∧ ((stepped false).warp (wkey 9 0)).out = [] ∧ (0 : Nat) < 32 ∧
    (∀ k ∈ warpThreads (wkey 9 0), ((stepped false).thread k).out = [] ∧ (((stepped false).thread k).st = .ready ∨ ((stepped false).thread k).st = .exited)) ∧ 9 * 1024 + 3 ∈ warpThreads (wkey 9 0) ∧ ((stepped false).thread (9 * 1024 + 3)).st = .ready ∧ ((stepped false).thread (9 * 1024 + 3)).rcd.cause = 0x3C0 := by decide +kernel

def mbRd (what warp a n : Nat) : CmdBuf := buf 0 [(16, 1), (20, what), (21, warp), (24, a), (28, n)]
/-- The result of a read's checks, by its bytes, for a team of one warp with budget 384 and 4,096 bytes of scratchpad. -/
def stop9 : Team := { team9 .debugHalted with spadSize := 4096 }
def stopped9 (t : Team) : State := { boxed t with warps := [(9 * 32, { budget := 384 })] }

theorem wit_MailboxStoppedTeams : mbTaken (stopped9 stop9) (mbRd 0 0 0 0) = true ∧ (stopped9 stop9).mbTeam (mbRd 0 0 0 0) Team.isStopped = some 9 ∧ (boxed (team9 .resident)).mbTeam (mbRd 0 0 0 0) Team.isStopped = none ∧ ((stopped9 stop9).team 9).life = .debugHalted ∧ ((stopped9 stop9).warp (wkey 9 0)).budget = 384 ∧
    (let t := { team9 .halting with debugged := true, saveAs := some 3 }; (stopped9 t).mbTeam (mbRd 0 0 0 0) Team.isStopped = some 9) ∧ (stopped9 stop9).image 9 = some (stopped9 stop9) ∧
    (∀ c ∈ [mbRd 0 0 0 0, mbRd 1 0 354 30, mbRd 1 0 383 1, mbRd 2 0 0 0, mbRd 3 0 31 1, mbRd 3 0 0 32, mbRd 4 0 256 3840, mbRd 5 0 0 0], mbReadCode c stop9 384 = 0) ∧
    (∀ c ∈ [mbRd 0 1 0 0, mbRd 1 0 512 1, mbRd 2 0 1 0, mbRd 4 1 0 4], mbReadCode c stop9 384 = 2) ∧ (∀ c ∈ [mbRd 1 0 355 30, mbRd 1 1 0 1, mbRd 3 0 1 32, mbRd 4 0 260 3840, mbRd 4 0 0 3844, mbRd 6 0 0 0], mbReadCode c stop9 384 = 5) ∧
    (∀ c ∈ [mbRd 1 0 (24 * 65536 + 383) 8, mbRd 2 0 56 8, mbRd 2 0 (256 + 6) 1, mbRd 4 0 4064 32], mbWriteCode c stop9 384 = 0) ∧ (∀ c ∈ [mbRd 1 0 2097152 1, mbRd 1 0 512 1, mbRd 2 0 64 1, mbRd 2 0 (256 + 8) 1], mbWriteCode c stop9 384 = 2) ∧
    (∀ c ∈ [mbRd 1 0 (25 * 65536) 8, mbRd 1 0 384 1, mbRd 2 0 57 8, mbRd 2 0 (256 + 7) 1, mbRd 4 0 4068 32, mbRd 0 0 0 0], mbWriteCode c stop9 384 = 5) := by decide +kernel

/-- A team without warps in its frame: a frame that cannot be read. -/
def away (l : Life) : Team := { team9 l with warps := 0, debugged := true, frame := 0x400000 }
theorem wit_MailboxStoppedTeams_away : mbTaken (boxed (away .saved)) (mbRd 0 0 0 0) = true ∧ (boxed (away .saved)).mbTeam (mbRd 0 0 0 0) Team.isStopped = some 9 ∧ (boxed (away .parkedUnhandled)).mbTeam (mbRd 0 0 0 0) Team.isStopped = some 9 ∧ (away .saved).inFrame = true ∧
    (((boxed (away .saved)).updFunc 0 (fun f => { f with root2 := none })).image 9).isNone = true ∧ (((boxed (away .saved)).updFunc 0 (fun f => { f with root2 := none })).onImage 9 (fun x => x)).isNone = true ∧ ((boxed (away .saved)).image 9).isSome = true := by decide +kernel

/-- Parts of a frame that lie beyond the tables can be written. -/
theorem parts_near {s t : State} (h : Near s t) (h1 : (s.func 0).root2 = some 0x10000) (h2 : s.numAt 0 0x10000 8 = 0x20003) (h3 : s.numAt 0 0x20000 8 = 0x30003) (h4 : s.numAt 0 0x30000 8 = 29)
    (h5 : s.poisoned 0x200 = false) (h6 : s.poisoned 0x400 = false) (h7 : s.poisoned 0x600 = false) (base : Nat) (ps : List (Nat × List Byte))
    (hp : ∀ q ∈ ps, ∀ p ∈ piecesOf (base + q.1) q.2.length, 0x400000 ≤ p.1 ∧ p.1 < 2 ^ 29) : (t.writeParts 0 base ps).1 = none := by
  induction ps generalizing t with
  | nil => rfl
  | cons q ps ih =>
    have w := h.physWrite h1 h2 h3 h4 h5 h6 h7 (base + q.1) q.2 (hp q (by simp))
    rcases hx : t.physWrite 0 (base + q.1) q.2 with ⟨x, u⟩
    rw [hx] at w
    simp only at w
    simp only [State.writeParts, hx, w.1]
    exact ih w.2 (fun q hq => hp q (by simp [hq]))

theorem onImage_some (s s1 : State) (team : Nat) (g : State → State) (hl : s.loadImage team = .ok s1)
    (hw : ((g s1).writeParts ((g s1).team team).func ((g s1).team team).frame.toNat (((g s1).frameParts team ((g s1).team team).frameReason).take (((g s1).frameParts team ((g s1).team team).frameReason).length - 2))).1 = none) :
    (s.onImage team g).isSome = true := by
  unfold State.onImage
  split
  · rfl
  · simp only [hl]
    split
    · rename_i h; rw [h] at hw; exact absurd hw (by simp)
    · rfl

/-- The team's image, read from its frame and changed, goes back into its frame. -/
def resumed9 (s : State) : State := (s.clearStop 9).updTeam 9 (fun t => { t with life := .saved, debugged := false })
def image9 : State := ((boxed (away .saved)).image 9).getD State.reset

theorem wit_MailboxStoppedTeams_image (g : State → State) (hg : g = resumed9 ∨ g = fun x => x.mbPut (mbRd 1 0 0 1) 9) : ((boxed (away .saved)).onImage 9 g).isSome = true := by
  have hl : (boxed (away .saved)).loadImage 9 = .ok image9 := by
    have hin : ((boxed (away .saved)).team 9).inFrame = true := by decide +kernel
    have hs : ((boxed (away .saved)).image 9).isSome = true := wit_MailboxStoppedTeams_away.2.2.2.2.2.2
    unfold image9
    unfold State.image at hs ⊢
    simp only [hin, Bool.not_true, Bool.false_eq_true, if_false] at hs ⊢
    cases h : (boxed (away .saved)).loadImage 9 with
    | error e => rw [h] at hs; simp at hs
    | ok v => rfl
  refine onImage_some _ _ 9 g hl ?_
  have n : (g image9).mem = (boxed (away .saved)).mem ∧ (g image9).lines = (boxed (away .saved)).lines ∧ (g image9).funcs = (boxed (away .saved)).funcs ∧ (g image9).keys = (boxed (away .saved)).keys := by rcases hg with rfl | rfl <;> decide +kernel
  have f : ((g image9).team 9).func = 0 ∧ ((g image9).team 9).frame.toNat = 0x400000 := by rcases hg with rfl | rfl <;> decide +kernel
  rw [f.1, f.2]
  refine parts_near (s := boxed (away .saved)) ⟨n.2.2.1, n.2.2.2, fun j _ => by rw [n.2.1], fun p _ => by rw [n.1]⟩ (by decide +kernel) (by decide +kernel) (by decide +kernel) (by decide +kernel) (by decide +kernel) (by decide +kernel) (by decide +kernel) 0x400000 _ ?_
  rcases hg with rfl | rfl <;> decide +kernel

/-! ## Steps, encodings, memory -/

/-- The warp's turn comes with this word, and for a double word its second word, at the group's address, and they decode. -/
def turnReads (s : State) (pc : W64) (word imm : Nat) : Bool :=
  let b := { s with sched := [] }
  let s1 := (((b.retryLocks 0).subLeaves 0).chbLeaves 0).settleHeaders 0
  let g := (s1.issuers 0).filter (fun k => decide ((s1.thread k).pc = pc))
  let s2 := s1.countTurn 0 0 g
  let f : Focus := { team := 0, wid := 0, group := maskOf (g.map seatOf), pc := pc }
  let code := (s2.team 0).codeHi
  let rd := s2.fetchWord f (code ++ pc)
  let cut := rd.2.cutDouble f word
  let last := !(cut.2.atLastWord cut.1).isEmpty
  let two := Machine.isDouble word && !last
  let second := cut.2.fetchWord cut.1 (code ++ (pc + 8))
  decide (s.sched = [.turn 0 0]) && b.mayIssue 0 0 && b.isNext 0 0 && (warpThreads 0).all (fun k => !(s1.thread k).isAgain) && (s1.convDue 0).isNone && decide (s1.groupPc (s1.issuers 0) = some pc)
    && (match rd.1 with | .ok w => decide (w = word) | .error _ => false)
    && (if two then (match second.1 with | .ok w => decide (w = imm) | .error _ => false) else decide (imm = 0))
    && (if two then second.2 else cut.2).missed.isNone
    && (match decodeBytes 384 last (toBytes (BitVec.ofNat 64 word) 8 ++ toBytes (BitVec.ofNat 64 imm) 8) with | .ok r => decide (r.2.length = if two then 0 else 8) | .error _ => false)

/-- An add, and a double-word add of 2^32, as the first instruction to run. -/
theorem wit_StepRunsDecoded : turnReads (State.reset.withFetchWord 64 0x1070100BC2000300) 0x100008 0x1070100BC2000300 0 = true ∧ turnReads (State.reset.withFetchWord 128 0x00000001000000000D70402000000000) 0x100008 0x0D70402000000000 0x0000000100000000 = true := by decide +kernel

/-- A microword at the program counter of a ray that runs. -/
theorem wit_StepRunsDecoded_uop : (let s := State.reset.withFetchWord 32 0xA4000015
    match s.sched with
    | [.uop ray] => (match Assoc.find s.rays ray with
      | some r => decide (r.state = 1) && decide (r.saved = 0) && decide (r.saveReq = []) && (s.rayTeam r).onCore (s.rayTeam r).core && decide (r.steps < 2 ^ 24) && (match (s.rayTeam r).binding with | some bi => (Machine.decodeMicro (microWord bi.image r.upc)).isSome | none => false)
      | none => false)
    | _ => false) = true := by decide +kernel

/-- Instructions of several families that meet the hypotheses of the round trip; the microwords. -/
theorem wit_EncodeDecode : (∀ i ∈ [Instr.add (rop .i32 (.v 2) (.v 2) (.inl 1) (.v 0)), .ld (mop (.v 2) (.v 0) (.v 0) .n32 .acq .die 0 0), .csrRd { h := h0, d := .v 4, a := .v 0, imm := 0x100 }, .addW { h := h0, d := .v 8, a := .v 8, imm := 0x100000000 }, .exit plainOp], hasWord i = true ∧ wellFormed 384 i = true) ∧
    (encodeBytes (.add (rop .i32 (.v 2) (.v 2) (.inl 1) (.v 0)))).length = 8 ∧ isMicro (.uopJif .cz 21) = true := by decide +kernel

/-- Memory with a listed byte in its canonical form, and a step that goes on. -/
theorem wit_MemoryForm : tables2.memOk = true ∧ tables2.mem ≠ [] ∧ (match step { tables2 with sched := [.occur .hostLinkDown] } with | .next t => decide (t.mod.linkUp = false) | _ => false) = true := by decide +kernel

end Sys2Proof.Tests
end

/-! ## Instructions over registers: completion by shape of operand use -/

namespace Sys2Proof.Machine

section Shapes

variable {s : State} {f : Focus} {i : Instr}

/-- An instruction over registers completes with the effect `e` where `e` is what each thread computes from the state before it. -/
theorem regPlan_completesWith {words : Nat} (g : State → Nat → Result) (e : Nat → Eff) (h : Calm s f) (hx : exec i s = perform (regPlan i words g) s)
    (hg : ∀ k, g (s.startIssue f.threads) k = (e k).result k) (hd : ∀ k, ((e k).regs.map Prod.fst).Nodup) : CompletesWith i s f words e :=
  fun hu => regPlan_completes i words g e h hx (fun k _ => hg k) hu (fun k _ => hd k)

/-- The result of one thread is of the instruction's type. -/
theorem ty_completesWith {t : Ty} {d : Src} {g : State → Nat → Nat} {x : Nat → Nat} (h : Calm s f)
    (hx : exec i s = perform (regPlan i 1 (fun s k => { k := k, dst := dstTy t d (g s k) })) s)
    (hg : ∀ k, g (s.startIssue f.threads) k = x k) : CompletesWith i s f 1 (fun k => effTy t d (x k)) :=
  regPlan_completesWith _ _ h hx (fun k => by simp only [effTy, Eff.result, hg]) (fun _ => dstTy_nodup _ _ _)

/-- The result is one register. -/
theorem word_completesWith {d : Src} {g : State → Nat → W32} {x : Nat → W32} (h : Calm s f)
    (hx : exec i s = perform (regPlan i 1 (fun s k => { k := k, dst := dstOne d (g s k) })) s)
    (hg : ∀ k, g (s.startIssue f.threads) k = x k) : CompletesWith i s f 1 (fun k => eff32 d (x k)) :=
  regPlan_completesWith _ _ h hx (fun k => by simp only [eff32, Eff.result, hg]) (fun _ => dstOne_nodup _ _)

/-- The result is a register pair. -/
theorem pair_completesWith {words : Nat} {d : Src} {g : State → Nat → W64} {x : Nat → W64} (h : Calm s f)
    (hx : exec i s = perform (regPlan i words (fun s k => { k := k, dst := dstPair d (g s k) })) s)
    (hg : ∀ k, g (s.startIssue f.threads) k = x k) : CompletesWith i s f words (fun k => eff64 d (x k)) :=
  regPlan_completesWith _ _ h hx (fun k => by simp only [eff64, Eff.result, hg]) (fun _ => dstPair_nodup _ _)

/-- The result is a predicate. -/
theorem pred_completesWith {p : Fin 8} {g : State → Nat → Bool} {x : Nat → Bool} (h : Calm s f)
    (hx : exec i s = perform (regPlan i 1 (fun s k => { k := k, preds := [(p, g s k)] })) s)
    (hg : ∀ k, g (s.startIssue f.threads) k = x k) : CompletesWith i s f 1 (fun k => effPred p (x k)) :=
  regPlan_completesWith _ _ h hx (fun k => by simp only [effPred, Eff.result, hg]) (fun _ => List.nodup_nil)

theorem un_completesWith {o : ROp} {g : Nat → Nat} {x : Nat → Nat} (h : Calm s f) (hx : exec i s = perform (un i o g) s)
    (hg : ∀ k, g (s.rdTy k o.ty o.a) = x k) : CompletesWith i s f 1 (fun k => effTy o.ty o.d (x k)) :=
  ty_completesWith h hx (fun k => by simp only [State.startIssue_rdTy, hg])

theorem bin_completesWith {o : ROp} {g : Nat → Nat → Nat} {x : Nat → Nat} (h : Calm s f) (hx : exec i s = perform (bin i o g) s)
    (hg : ∀ k, g (s.rdTy k o.ty o.a) (s.rdTy k o.ty o.b) = x k) : CompletesWith i s f 1 (fun k => effTy o.ty o.d (x k)) :=
  ty_completesWith h hx (fun k => by simp only [State.startIssue_rdTy, hg])

theorem tri_completesWith {o : ROp} {g : Nat → Nat → Nat → Nat} {x : Nat → Nat} (h : Calm s f) (hx : exec i s = perform (tri i o g) s)
    (hg : ∀ k, g (s.rdTy k o.ty o.a) (s.rdTy k o.ty o.b) (s.rdTy k o.ty o.c) = x k) : CompletesWith i s f 1 (fun k => effTy o.ty o.d (x k)) :=
  ty_completesWith h hx (fun k => by simp only [State.startIssue_rdTy, hg])

theorem shiftOp_completesWith {o : ROp} {g : Nat → Nat → Nat} {x : Nat → Nat} (h : Calm s f) (hx : exec i s = perform (shiftOp i o g) s)
    (hg : ∀ k, g (s.rdTy k o.ty o.a) (s.rd k o.b).toNat = x k) : CompletesWith i s f 1 (fun k => effTy o.ty o.d (x k)) :=
  ty_completesWith h hx (fun k => by simp only [State.startIssue_rdTy, State.startIssue_rd, hg])

theorem countOp_completesWith {o : ROp} {g : Nat → Nat} {x : Nat → Nat} (h : Calm s f) (hx : exec i s = perform (countOp i o g) s)
    (hg : ∀ k, g (s.rdTy k o.ty o.a) = x k) : CompletesWith i s f 1 (fun k => eff32 o.d (BitVec.ofNat 32 (x k))) :=
  word_completesWith h hx (fun k => by simp only [State.startIssue_rdTy, hg])

theorem immOp_completesWith {o : IOp} {g : Nat → Nat → Nat} {x : Nat → W32} (h : Calm s f) (hx : exec i s = perform (immOp i o g) s)
    (hg : ∀ k, BitVec.ofNat 32 (g (s.rd k o.a).toNat o.imm.toNat) = x k) : CompletesWith i s f 1 (fun k => eff32 o.d (x k)) :=
  word_completesWith h hx (fun k => by simp only [State.startIssue_rd, hg])

theorem dwordOp_completesWith {o : WOp} {g : W64 → W64 → W64} {x : Nat → W64} (h : Calm s f) (hx : exec i s = perform (dwordOp i o g) s)
    (hg : ∀ k, g (s.rd64 k o.a) o.imm = x k) : CompletesWith i s f 2 (fun k => eff64 o.d (x k)) :=
  pair_completesWith h hx (fun k => by simp only [State.startIssue_rd64, hg])

theorem wideOp_completesWith {o : ROp} {g : Nat → Nat → Nat → Nat × Nat} {x y : Nat → W32} (h : Calm s f) (hx : exec i s = perform (wideOp i o g) s)
    (hg : ∀ k, let r := g (s.rd k o.a).toNat (s.rd k o.b).toNat (s.rd k o.c).toNat; BitVec.ofNat 32 r.1 = x k ∧ BitVec.ofNat 32 r.2 = y k) :
    CompletesWith i s f 1 (fun k => { regs := dstGroup o.d [x k, y k] }) :=
  regPlan_completesWith _ _ h hx (fun k => by simp only [Eff.result, State.startIssue_rd, hg]) (fun _ => dstGroup_nodup _ _)

end Shapes

/-! ## Values: exact results reduced, sources within their width -/

/-- A power of two as an integer. -/
theorem cast_two_pow (n : Nat) : ((2 ^ n : Nat) : Int) = 2 ^ n := Int.natCast_pow 2 n

theorem two_pow_pos_int (n : Nat) : (0 : Int) < (2 ^ n : Nat) := Int.natCast_pos.2 (Nat.two_pow_pos n)

theorem two_pow_eq_double {n : Nat} (hn : 0 < n) : 2 ^ n = 2 * 2 ^ (n - 1) := by
  rw [← Nat.pow_succ', Nat.succ_eq_add_one, Nat.sub_add_cancel hn]

/-- The reduction of R77, with the power of two as an integer. -/
theorem wrapInt_eq (n : Nat) (x : Int) : wrapInt n x = (x % 2 ^ n).toNat := by
  rw [wrapInt, cast_two_pow]

theorem Ty.wrap_eq (t : Ty) (x : Int) : Ty.wrap t x = (x % 2 ^ Ty.width t).toNat := wrapInt_eq _ x

theorem ofNat_wrapInt (n : Nat) (x : Int) : BitVec.ofNat n (wrapInt n x) = BitVec.ofInt n x := by
  apply BitVec.eq_of_toNat_eq
  have h : (x % (2 ^ n : Nat)).toNat < 2 ^ n := by
    have hlt := Int.emod_lt_of_pos x (two_pow_pos_int n)
    have hnn := Int.emod_nonneg x (Int.ne_of_gt (two_pow_pos_int n))
    omega
  rw [BitVec.toNat_ofNat, BitVec.toNat_ofInt]
  exact Nat.mod_eq_of_lt h

theorem Ty.width_of_wide {t : Ty} (h : Ty.wide t = true) : Ty.width t = 64 := by
  cases t with
  | i64 | n64 => rfl
  | _ => exact absurd h (by decide)

/-- A source of a type lies within the type's width (R76). -/
theorem rdTy_lt (s : State) (k : Nat) (t : Ty) (x : Src) : s.rdTy k t x < 2 ^ Ty.width t := by
  unfold State.rdTy
  split
  · rename_i h
    rw [Ty.width_of_wide h]; exact (s.rd64 k x).isLt
  · exact Nat.mod_lt _ (Nat.two_pow_pos _)

theorem rdTy_b32 (s : State) (k : Nat) (x : Src) : s.rdTy k .b32 x = (s.rd k x).toNat :=
  Nat.mod_eq_of_lt (s.rd k x).isLt

/-- The twos complement reading of a word. -/
theorem signedNat_toNat {n : Nat} (hn : 0 < n) (x : BitVec n) : signedNat n x.toNat = x.toInt := by
  have hp := two_pow_eq_double hn
  have hx := x.isLt
  simp only [signedNat, Nat.mod_eq_of_lt hx, BitVec.toInt_eq_toNat_cond, Nat.ne_of_gt hn, if_false]
  split <;> split <;> omega

/-- A number that is a word's, as that word. -/
theorem ofNat_eq_of_eq_toNat {n x : Nat} {y : BitVec n} (h : x = y.toNat) : BitVec.ofNat n x = y := by
  rw [h, BitVec.ofNat_toNat, BitVec.setWidth_eq]

/-- A shift of a word by any amount, as an arithmetic expression. -/
theorem toNat_shiftLeft_eq {n : Nat} (x : BitVec n) (i : Nat) : (x <<< i).toNat = x.toNat * 2 ^ i % 2 ^ n := by
  rw [BitVec.toNat_shiftLeft, Nat.shiftLeft_eq]

end Sys2Proof.Machine

/-! ## Integer arithmetic (R106 to R108) -/

namespace Sys2Proof.Machine

/-- Byte i of a word, as a number. -/
theorem toNat_byteOf {n : Nat} (x : BitVec n) (i : Nat) : (byteOf x i).toNat = x.toNat / 2 ^ (8 * i) % 256 := by
  rw [byteOf, BitVec.extractLsb'_toNat, Nat.shiftRight_eq_div_pow]

theorem aluAbs_eq (t : Ty) (a : Nat) :
    aluAbs t a = if Ty.val t a = -2 ^ (Ty.width t - 1) then 2 ^ (Ty.width t - 1) - 1 else (Ty.val t a).natAbs := by
  rw [aluAbs, cast_two_pow]

theorem aluMulh_eq (t : Ty) (a b : Nat) : aluMulh t a b = (Ty.val t a * Ty.val t b / 2 ^ Ty.width t % 2 ^ Ty.width t).toNat := by
  rw [aluMulh, Ty.wrap_eq, cast_two_pow]

theorem aluDot4_eq (t : Ty) (a b c : W32) :
    BitVec.ofNat 32 (aluDot4 t a.toNat b.toNat c.toNat) =
      BitVec.ofInt 32 ((c.toNat : Int) + Ty.val t (byteOf a 0).toNat * Ty.val t (byteOf b 0).toNat + Ty.val t (byteOf a 1).toNat * Ty.val t (byteOf b 1).toNat
        + Ty.val t (byteOf a 2).toNat * Ty.val t (byteOf b 2).toNat + Ty.val t (byteOf a 3).toNat * Ty.val t (byteOf b 3).toNat) := by
  simp only [aluDot4, ofNat_wrapInt, Ty.byteVal, ← toNat_byteOf]
  rfl

/-- The word and the carry of a sum of natural numbers, read as integers. -/
theorem aluAddc_eq (a b c : Nat) :
    BitVec.ofNat 32 (aluAddc a b c).1 = BitVec.ofInt 32 ((a : Int) + b + (c : Int) % 2) ∧
    BitVec.ofNat 32 (aluAddc a b c).2 = BitVec.ofInt 32 (((a : Int) + b + (c : Int) % 2) / 2 ^ 32) := by
  have hs : (a : Int) + b + (c : Int) % 2 = ((a + b + c % 2 : Nat) : Int) := rfl
  have hd : ((a + b + c % 2 : Nat) : Int) / 2 ^ 32 = (((a + b + c % 2) / 2 ^ 32 : Nat) : Int) := by
    rw [← cast_two_pow, Int.natCast_ediv]
  rw [hs, hd, BitVec.ofInt_natCast, BitVec.ofInt_natCast]
  exact ⟨BitVec.eq_of_toNat_eq (Nat.mod_mod _ _), rfl⟩

/-- The word and the borrow of a difference. -/
theorem aluSubb_eq (a b c : Nat) :
    BitVec.ofNat 32 (aluSubb a b c).1 = BitVec.ofInt 32 ((a : Int) - b - (c : Int) % 2) ∧
    BitVec.ofNat 32 (aluSubb a b c).2 = if (a : Int) - b - (c : Int) % 2 < 0 then 1 else 0 := by
  refine ⟨ofNat_wrapInt 32 _, ?_⟩
  have hc : ((c % 2 : Nat) : Int) = (c : Int) % 2 := Int.natCast_emod c 2
  simp only [aluSubb, hc]
  split <;> rfl

theorem aluDiv_eq (t : Ty) (a b : Nat) :
    aluDiv t a b =
      if Ty.val t b = 0 then (if Ty.signed t = false then 2 ^ Ty.width t - 1 else if 0 ≤ Ty.val t a then 2 ^ (Ty.width t - 1) - 1 else 2 ^ (Ty.width t - 1))
      else if Ty.signed t = true ∧ Ty.val t a = -2 ^ (Ty.width t - 1) ∧ Ty.val t b = -1 then 2 ^ (Ty.width t - 1) - 1
      else ((Ty.val t a).tdiv (Ty.val t b) % 2 ^ Ty.width t).toNat := by
  simp only [aluDiv, Ty.wrap_eq, cast_two_pow]
  cases Ty.signed t <;> rfl

theorem aluRem_eq (t : Ty) (a b : Nat) :
    aluRem t a b = if Ty.val t b = 0 then a else ((Ty.val t a).tmod (Ty.val t b) % 2 ^ Ty.width t).toNat := by
  simp only [aluRem, Ty.wrap_eq]

/-- Settles O1: each result is the model's function of the sources, and the completion of an instruction over registers says the rest. -/
theorem integerArithmetic : Obligations.IntegerArithmetic := by
  unfold Obligations.IntegerArithmetic
  refine ⟨?_, ?_⟩
  · intro s f o h n A B C u byte
    refine ⟨?add, ?sub, ?neg, ?abs, ?min, ?max, ?sad, ?mul, ?mulh, ?mad, ?madw, ?dot4, ?addc, ?subb⟩
    case add => exact bin_completesWith h rfl (fun k => Ty.wrap_eq _ _)
    case sub => exact bin_completesWith h rfl (fun k => Ty.wrap_eq _ _)
    case neg => exact un_completesWith h rfl (fun k => Ty.wrap_eq _ _)
    case abs => exact un_completesWith h rfl (fun k => aluAbs_eq _ _)
    case min => exact bin_completesWith h rfl (fun k => rfl)
    case max => exact bin_completesWith h rfl (fun k => rfl)
    case sad => exact tri_completesWith h rfl (fun k => rfl)
    case mul => exact bin_completesWith h rfl (fun k => Ty.wrap_eq _ _)
    case mulh => exact bin_completesWith h rfl (fun k => aluMulh_eq _ _ _)
    case mad => exact tri_completesWith h rfl (fun k => Ty.wrap_eq _ _)
    case madw => exact pair_completesWith h rfl (fun k => by simp only [State.startIssue_rd, State.startIssue_rd64]; exact ofNat_wrapInt 64 _)
    case dot4 => exact word_completesWith h rfl (fun k => by simp only [State.startIssue_rd]; exact aluDot4_eq _ _ _ _)
    case addc => exact wideOp_completesWith h rfl (fun k => aluAddc_eq _ _ _)
    case subb => exact wideOp_completesWith h rfl (fun k => aluSubb_eq _ _ _)
  · intro s f o h n A B
    exact ⟨bin_completesWith h rfl (fun k => aluDiv_eq _ _ _), bin_completesWith h rfl (fun k => aluRem_eq _ _ _)⟩

end Sys2Proof.Machine

/-! ## Logic, shifts and bit fields (R109 to R112) -/

namespace Sys2Proof.Machine

/-! ### Sums of bits -/

/-- A sum of the powers of two that a predicate picks is below the next power. -/
theorem sum_bits_lt (n : Nat) (p : Nat → Bool) : ((List.range n).map (fun i => if p i then 2 ^ i else 0)).sum < 2 ^ n := by
  induction n with
  | zero => simp
  | succ n ih =>
    simp only [List.range_succ, List.map_append, List.sum_append, List.map_cons, List.map_nil, List.sum_singleton, Nat.pow_succ]
    split <;> omega

/-- The bits of such a sum are the predicate's. -/
theorem testBit_sum_bits (n : Nat) (p : Nat → Bool) (j : Nat) :
    ((List.range n).map (fun i => if p i then 2 ^ i else 0)).sum.testBit j = (decide (j < n) && p j) := by
  induction n with
  | zero => simp
  | succ n ih =>
    have hlt := sum_bits_lt n p
    simp only [List.range_succ, List.map_append, List.sum_append, List.map_cons, List.map_nil, List.sum_singleton]
    have hsplit := Nat.testBit_two_pow_mul_add (p n).toNat hlt j
    have hval : (if p n = true then 2 ^ n else 0) = 2 ^ n * (p n).toNat := by cases p n <;> simp
    rw [hval, Nat.add_comm, hsplit, ih]
    rcases Nat.lt_trichotomy j n with h | rfl | h
    · simp [h, Nat.lt_succ_of_lt h]
    · cases p j <;> simp
    · have h1 : ¬ j < n := by omega
      have h2 : ¬ j < n + 1 := by omega
      obtain ⟨m, hm⟩ : ∃ m, j - n = m + 1 := ⟨j - n - 1, by omega⟩
      cases p n <;> simp [h1, h2, hm, Nat.testBit_succ]

/-- A bit of a disjunction of the words that a predicate picks. -/
theorem getLsbD_foldl_or (p : Nat → Bool) (m : Nat → W32) (is : List Nat) (r : W32) (j : Nat) :
    (is.foldl (fun r i => if p i then r ||| m i else r) r).getLsbD j = (r.getLsbD j || is.any (fun i => p i && (m i).getLsbD j)) := by
  induction is generalizing r with
  | nil => simp
  | cons i is ih =>
    rw [List.foldl_cons, ih]
    cases h : p i <;> simp [h, Bool.or_assoc]

/-- A bit of a word or of its complement. -/
theorem getLsbD_ite_not (q : Prop) [Decidable q] (x : W32) {j : Nat} (hj : j < 32) : (if q then x else ~~~x).getLsbD j = (x.getLsbD j == decide q) := by
  by_cases h : q <;> simp [h, hj]

/-- Bit i of a function of three inputs is the table's bit that the inputs' bits number (R109). -/
theorem getLsbD_aluBitf (tab : Byte) (a b c : W32) {i : Nat} (hi : i < 32) :
    (aluBitf tab a b c).getLsbD i = tab.getLsbD ((a.getLsbD i).toNat + 2 * (b.getLsbD i).toNat + 4 * (c.getLsbD i).toNat) := by
  simp only [aluBitf, getLsbD_foldl_or, BitVec.getLsbD_and, getLsbD_ite_not _ _ hi]
  cases a.getLsbD i <;> cases b.getLsbD i <;> cases c.getLsbD i <;> simp [List.range_succ]

theorem aluBitf_eq (tab : Byte) (a b c : W32) :
    aluBitf tab a b c = BitVec.ofNat 32 ((List.range 32).map (fun i =>
      if tab.getLsbD ((a.getLsbD i).toNat + 2 * (b.getLsbD i).toNat + 4 * (c.getLsbD i).toNat) then 2 ^ i else 0)).sum := by
  apply BitVec.eq_of_getLsbD_eq
  intro i hi
  rw [getLsbD_aluBitf _ _ _ _ hi, BitVec.getLsbD_ofNat, testBit_sum_bits]
  simp [hi]

/-! ### Shifts -/

/-- A twos complement value lies in its range. -/
theorem signedNat_bounds {n : Nat} (hn : 0 < n) (x : Nat) : -2 ^ (n - 1) ≤ signedNat n x ∧ signedNat n x < 2 ^ (n - 1) := by
  have hp := two_pow_eq_double hn
  have hx : x % 2 ^ n < 2 ^ n := Nat.mod_lt _ (Nat.two_pow_pos n)
  simp only [signedNat, Nat.ne_of_gt hn, if_false, ← cast_two_pow]
  split <;> omega

theorem Ty.width_pos (t : Ty) : 0 < Ty.width t := by cases t <;> decide

/-- Shifted by its whole width, a twos complement value leaves its sign. -/
theorem signedNat_div_two_pow {n : Nat} (hn : 0 < n) (x : Nat) : signedNat n x / 2 ^ n = if signedNat n x < 0 then -1 else 0 := by
  obtain ⟨hlo, hhi⟩ := signedNat_bounds hn x
  have hp := two_pow_eq_double hn
  have hpos := two_pow_pos_int (n - 1)
  rw [← cast_two_pow] at hlo hhi ⊢
  split
  · rw [Int.ediv_eq_iff_of_pos (by omega)]
    omega
  · exact Int.ediv_eq_zero_of_lt (by omega) (by omega)

/-- The reduction of -1 has every bit set. -/
theorem toNat_neg_one_emod (n : Nat) : ((-1 : Int) % 2 ^ n).toNat = 2 ^ n - 1 := by
  have hpos := Nat.two_pow_pos n
  have hw : (-1 : Int) + (2 ^ n : Nat) = (2 ^ n - 1 : Nat) := by omega
  rw [← cast_two_pow, ← Int.add_emod_right, hw, Int.emod_eq_of_lt (by omega) (by omega), Int.toNat_natCast]

/-- An arithmetic shift by the width or more leaves copies of the sign (R110). -/
theorem aluSar_eq (t : Ty) (a x : Nat) :
    aluSar t a x = if x < Ty.width t then (signedNat (Ty.width t) a / 2 ^ x % 2 ^ Ty.width t).toNat
      else if signedNat (Ty.width t) a < 0 then 2 ^ Ty.width t - 1 else 0 := by
  simp only [aluSar, Ty.wrap_eq, cast_two_pow]
  by_cases hx : x < Ty.width t
  · rw [if_pos hx, show Nat.min x (Ty.width t) = x from Nat.min_eq_left (Nat.le_of_lt hx)]
  · rw [if_neg hx, show Nat.min x (Ty.width t) = Ty.width t from Nat.min_eq_right (Nat.le_of_not_lt hx), signedNat_div_two_pow (Ty.width_pos t)]
    split
    · exact toNat_neg_one_emod _
    · rfl

/-! ### Bit fields and bytes -/

theorem aluBfe_eq (t : Ty) (a b c : Nat) :
    aluBfe t a b c = if Ty.signed t then
        (if min c 32 = 0 then 0 else (signedNat (min c 32) ((signedNat 32 a / 2 ^ min b 32 % 2 ^ 32).toNat) % 2 ^ 32).toNat)
      else a / 2 ^ min b 32 % 2 ^ min c 32 := by
  have hmin : ∀ x y, Nat.min x y = min x y := fun _ _ => rfl
  simp only [aluBfe, wrapInt_eq, hmin, cast_two_pow]
  split
  · split
    · rename_i h0
      rw [h0]; rfl
    · rfl
  · rfl

/-- The inserted field, as a shift of the word under the field's mask. -/
theorem aluBfi_eq (a b c : W32) :
    let p := min (c.toNat % 256) 32
    let m : W32 := BitVec.ofNat 32 ((2 ^ min (c.toNat / 256 % 256) 32 - 1) * 2 ^ p)
    aluBfi a b c = (b &&& ~~~ m) ||| ((a <<< p) &&& m) := by
  intro p m
  have hsh : a <<< p = BitVec.ofNat 32 (a.toNat * 2 ^ p) :=
    BitVec.eq_of_toNat_eq (toNat_shiftLeft_eq a p)
  rw [hsh]
  rfl

/-- Two words side by side as a number. -/
theorem toNat_append_add {m n : Nat} (x : BitVec m) (y : BitVec n) : (x ++ y).toNat = x.toNat * 2 ^ n + y.toNat := by
  rw [BitVec.toNat_append, ← Nat.shiftLeft_add_eq_or_of_lt y.isLt, Nat.shiftLeft_eq]

/-- The byte that a nibble of the selector names: a byte of {b, a}, or eight copies of its top bit (R111). -/
def prmtByte (a b : W32) (c i : Nat) : Byte :=
  let sl := c / 2 ^ (4 * i) % 16
  let y := byteOf (b ++ a) (sl % 8)
  if 8 ≤ sl then (if y.msb then 0xFF else 0x00) else y

theorem toNat_prmtByte (a b : W32) (c i : Nat) :
    (prmtByte a b c i).toNat =
      let sl := c / 2 ^ (4 * i) % 16
      let y := (b.toNat * 2 ^ 32 + a.toNat) / 2 ^ (8 * (sl % 8)) % 256
      if sl < 8 then y else if 128 ≤ y then 255 else 0 := by
  simp only [prmtByte, ← toNat_append_add, ← toNat_byteOf, BitVec.msb_eq_decide]
  by_cases h : 8 ≤ c / 2 ^ (4 * i) % 16
  · simp only [h, if_true, Nat.not_lt.2 h, if_false, decide_eq_true_eq]
    split <;> rfl
  · simp only [h, if_false, Nat.lt_of_not_le h, if_true]

/-- Four bytes side by side as a number, byte i at bit 8 i. -/
theorem toNat_append4 (b3 b2 b1 b0 : Byte) :
    (b3 ++ b2 ++ b1 ++ b0 : BitVec 32).toNat = b0.toNat * 2 ^ (8 * 0) + b1.toNat * 2 ^ (8 * 1) + b2.toNat * 2 ^ (8 * 2) + b3.toNat * 2 ^ (8 * 3) := by
  simp only [toNat_append_add]
  omega

theorem foldl_add_range4 (q : Nat → Nat) : (List.range 4).foldl (fun r i => r + q i) 0 = q 0 + q 1 + q 2 + q 3 := by
  rw [show List.range 4 = [0, 1, 2, 3] from rfl, List.foldl_cons, List.foldl_cons, List.foldl_cons, List.foldl_cons, List.foldl_nil, Nat.zero_add]

theorem aluPrmt_eq (a b : W32) (c : Nat) :
    aluPrmt a.toNat b.toNat c = (prmtByte a b c 3 ++ prmtByte a b c 2 ++ prmtByte a b c 1 ++ prmtByte a b c 0 : BitVec 32).toNat := by
  rw [toNat_append4, ← foldl_add_range4 (fun i => (prmtByte a b c i).toNat * 2 ^ (8 * i))]
  simp only [aluPrmt, toNat_prmtByte]

/-! ### Counts -/

/-- The highest set bit is found first from above (R112). -/
theorem aluClz_eq {n a : Nat} (ha : a < 2 ^ n) : aluClz n a = if a = 0 then n else n - 1 - Nat.log2 a := by
  unfold aluClz
  by_cases h0 : a = 0
  · subst h0
    have hfind : (List.range n).find? (fun i => Nat.testBit 0 (n - 1 - i)) = none :=
      List.find?_range_eq_none.2 (fun i _ => by rw [Nat.zero_testBit]; rfl)
    rw [hfind, if_pos rfl]
  · have hl : Nat.log2 a < n := (Nat.log2_lt h0).2 ha
    have hfind : (List.range n).find? (fun i => a.testBit (n - 1 - i)) = some (n - 1 - Nat.log2 a) := by
      rw [List.find?_range_eq_some]
      refine ⟨?_, List.mem_range.2 (by omega), fun j hj => ?_⟩
      · rw [show n - 1 - (n - 1 - Nat.log2 a) = Nat.log2 a by omega]
        exact Nat.testBit_log2 h0
      · have hab : a < 2 ^ (n - 1 - j) := (Nat.log2_lt h0).1 (by omega)
        rw [Nat.testBit_lt_two_pow hab]; rfl
    rw [hfind, if_neg h0]

/-- In a range an element is its own index. -/
theorem find?_range_eq_findIdx? (n : Nat) (p : Nat → Bool) : (List.range n).find? p = (List.range n).findIdx? p := by
  ext i
  rw [List.find?_range_eq_some, List.findIdx?_eq_some_iff_getElem]
  simp

theorem aluCtz_eq (n a : Nat) : aluCtz n a = ((List.range n).findIdx? (fun i => a.testBit i)).getD n := by
  rw [← find?_range_eq_findIdx?]
  unfold aluCtz
  cases (List.range n).find? _ <;> rfl

theorem aluBrev_eq (n a : Nat) : aluBrev n a = ((List.range n).map (fun i => if a.testBit i then 2 ^ (n - 1 - i) else 0)).sum := by
  have hstep : (fun r i => if a.testBit i then r + 2 ^ (n - 1 - i) else r) = (fun r i => r + if a.testBit i then 2 ^ (n - 1 - i) else 0) := by
    funext r i
    split <;> rfl
  rw [aluBrev, hstep, List.sum_eq_foldl_nat, List.foldl_map]

/-- Settles O2: each function on words is the bit-by-bit one of the rules, and the completion of an instruction over registers says the rest. -/
theorem logicAndBits : Obligations.LogicAndBits := by
  unfold Obligations.LogicAndBits
  refine ⟨?_, ?_⟩
  · intro s f o tab h n a b S
    refine ⟨?and, ?or, ?xor, ?bitf, ?shl, ?shr, ?sar, ?shf⟩
    case and => exact bin_completesWith h rfl (fun k => rfl)
    case or => exact bin_completesWith h rfl (fun k => rfl)
    case xor => exact bin_completesWith h rfl (fun k => rfl)
    case bitf => exact word_completesWith h rfl (fun k => by simp only [State.startIssue_rd]; exact aluBitf_eq _ _ _ _)
    case shl => exact shiftOp_completesWith h rfl (fun k => rfl)
    case shr => exact shiftOp_completesWith h rfl (fun k => rfl)
    case sar => exact shiftOp_completesWith h rfl (fun k => aluSar_eq _ _ _)
    case shf => exact tri_completesWith h rfl (fun k => rfl)
  · intro s f o h n a P L A B C p l m y
    refine ⟨?bfe, ?bfi, ?prmt, ?popc, ?clz, ?ctz, ?brev⟩
    case bfe => exact tri_completesWith h rfl (fun k => aluBfe_eq _ _ _ _)
    case bfi => exact word_completesWith h rfl (fun k => by simp only [State.startIssue_rd]; exact aluBfi_eq _ _ _)
    case prmt =>
      intro hty
      exact tri_completesWith h rfl (fun k => by simp only [hty, rdTy_b32]; exact aluPrmt_eq _ _ _)
    case popc => exact countOp_completesWith h rfl (fun k => List.countP_eq_length_filter.symm)
    case clz => exact countOp_completesWith h rfl (fun k => aluClz_eq (rdTy_lt _ _ _ _))
    case ctz => exact countOp_completesWith h rfl (fun k => aluCtz_eq _ _)
    case brev => exact un_completesWith h rfl (fun k => aluBrev_eq _ _)

end Sys2Proof.Machine

/-! ## Comparisons, predicate functions, selection, pointers and the immediate forms (R113 to R119, R355) -/

namespace Sys2Proof.Machine

/-- Numbers within the width have different twos complement readings. -/
theorem signedNat_inj {n x y : Nat} (hn : 0 < n) (hx : x < 2 ^ n) (hy : y < 2 ^ n) : signedNat n x = signedNat n y ↔ x = y := by
  rw [← Nat.mod_eq_of_lt hx, ← Nat.mod_eq_of_lt hy, ← BitVec.toNat_ofNat, ← BitVec.toNat_ofNat, signedNat_toNat hn, signedNat_toNat hn, BitVec.toInt_inj, BitVec.toNat_inj]

theorem Ty.val_inj (t : Ty) {x y : Nat} (hx : x < 2 ^ Ty.width t) (hy : y < 2 ^ Ty.width t) : Ty.val t x = Ty.val t y ↔ x = y := by
  unfold Ty.val
  split
  · exact signedNat_inj (Ty.width_pos t) hx hy
  · exact Int.natCast_inj

/-- Equality of sources within the width is equality of their values: every comparison is of values (R113). -/
theorem aluCmp_eq (cmp : ICmp) (t : Ty) {a b : Nat} (ha : a < 2 ^ Ty.width t) (hb : b < 2 ^ Ty.width t) :
    aluCmp cmp t a b = (match cmp with
      | .eq => decide (Ty.val t a = Ty.val t b)
      | .ne => decide (Ty.val t a ≠ Ty.val t b)
      | .lt => decide (Ty.val t a < Ty.val t b)
      | .le => decide (Ty.val t a ≤ Ty.val t b)
      | .gt => decide (Ty.val t a > Ty.val t b)
      | .ge => decide (Ty.val t a ≥ Ty.val t b)) := by
  cases cmp with
  | eq => exact decide_eq_decide.2 (Ty.val_inj t ha hb).symm
  | ne => exact decide_eq_decide.2 (not_congr (Ty.val_inj t ha hb).symm)
  | lt | le | gt | ge => rfl

theorem b2n_eq_toNat (b : Bool) : b2n b = b.toNat := by cases b <;> rfl

theorem aluPfn_eq (tab : Byte) (a b c : Bool) : aluPfn tab a b c = tab.getLsbD (a.toNat + 2 * b.toNat + 4 * c.toNat) := by
  simp only [aluPfn, b2n_eq_toNat]

/-- The predicate of `sel` as a guard: it holds where it differs from the negate bit (R115). -/
theorem Thread.holds_iff (th : Thread) (neg : Bool) (q : Fin 8) : th.holds { neg := neg, p := q } = true ↔ th.pred q = !neg := by
  unfold Thread.holds
  cases th.pred q <;> cases neg <;> simp

theorem aluLea_eq (t : Ty) (a : W64) (b c : W32) :
    BitVec.ofNat 64 (aluLea t a.toNat b.toNat c.toNat) = a + BitVec.ofInt 64 (Ty.val t b.toNat) <<< c.toNat := by
  have hidx : (BitVec.ofInt 64 (Ty.val t b.toNat)).toNat = wrapInt 64 (Ty.val t b.toNat) := by
    rw [BitVec.toNat_ofInt]; rfl
  apply BitVec.eq_of_toNat_eq
  rw [BitVec.toNat_add, BitVec.toNat_ofNat]
  simp only [aluLea, ← hidx]
  by_cases hc : c.toNat < 64
  · simp only [hc, if_true, toNat_shiftLeft_eq]
    omega
  · simp only [hc, if_false, BitVec.shiftLeft_eq_zero (Nat.le_of_not_lt hc), Nat.add_zero, BitVec.toNat_zero, Nat.mod_mod]

/-! ### The immediate forms on 32 bits (R118) -/

theorem aluAdd_n32 (x m : W32) : BitVec.ofNat 32 (aluAdd .n32 x.toNat m.toNat) = x + m :=
  ofNat_eq_of_eq_toNat (BitVec.toNat_add x m).symm

theorem aluMul_n32 (x m : W32) : BitVec.ofNat 32 (aluMul .n32 x.toNat m.toNat) = x * m :=
  ofNat_eq_of_eq_toNat (BitVec.toNat_mul x m).symm

theorem aluShl_n32 (x : W32) {c : Nat} (hc : c < 32) : BitVec.ofNat 32 (aluShl .n32 x.toNat c) = x <<< c :=
  ofNat_eq_of_eq_toNat ((if_pos hc).trans (toNat_shiftLeft_eq x c).symm)

theorem aluShr_n32 (x : W32) {c : Nat} (hc : c < 32) : BitVec.ofNat 32 (aluShr .n32 x.toNat c) = x >>> c := by
  refine ofNat_eq_of_eq_toNat ?_
  rw [BitVec.toNat_ushiftRight, Nat.shiftRight_eq_div_pow]
  exact if_pos hc

theorem aluSar_i32 (x : W32) {c : Nat} (hc : c < 32) : BitVec.ofNat 32 (aluSar .i32 x.toNat c) = x.sshiftRight c := by
  have hmin : Nat.min c (Ty.width .i32) = c := Nat.min_eq_left (Nat.le_of_lt hc)
  have hval : signedNat (Ty.width .i32) x.toNat = x.toInt := signedNat_toNat (by decide) x
  rw [aluSar, hmin, hval, BitVec.sshiftRight, Int.shiftRight_eq_div_pow]
  exact ofNat_wrapInt 32 _

theorem Ty.val_i32 (x : W32) : Ty.val .i32 x.toNat = x.toInt := signedNat_toNat (by decide) x

/-- Where a choice between two words turns on their values, it is the choice between the words. -/
theorem ofNat_ite_toNat (p q : Prop) [Decidable p] [Decidable q] (hpq : p ↔ q) (x y : W32) : BitVec.ofNat 32 (if p then x.toNat else y.toNat) = if q then x else y := by
  simp only [hpq]
  split <;> exact ofNat_eq_of_eq_toNat rfl

theorem aluMin_i32 (x m : W32) : BitVec.ofNat 32 (aluMin .i32 x.toNat m.toNat) = if x.toInt ≤ m.toInt then x else m :=
  ofNat_ite_toNat _ _ (by rw [Ty.val_i32, Ty.val_i32]) x m

theorem aluMin_n32 (x m : W32) : BitVec.ofNat 32 (aluMin .n32 x.toNat m.toNat) = if x.toNat ≤ m.toNat then x else m :=
  ofNat_ite_toNat _ _ Int.ofNat_le x m

theorem aluMax_i32 (x m : W32) : BitVec.ofNat 32 (aluMax .i32 x.toNat m.toNat) = if x.toInt ≥ m.toInt then x else m :=
  ofNat_ite_toNat _ _ (by rw [Ty.val_i32, Ty.val_i32]) x m

theorem aluMax_n32 (x m : W32) : BitVec.ofNat 32 (aluMax .n32 x.toNat m.toNat) = if x.toNat ≥ m.toNat then x else m :=
  ofNat_ite_toNat _ _ Int.ofNat_le x m

/-- Settles O3: predicates, selections, pointers and the immediate and double-word forms agree with the operations on words, and the completion of an instruction over registers says the rest. -/
theorem predicatesAndImmediates : Obligations.PredicatesAndImmediates := by
  unfold Obligations.PredicatesAndImmediates
  refine ⟨fun s f h => ⟨?setp, ?pfn, ?sel, ?mov, ?lea, ?nop⟩, fun s f h => ⟨?imm, ?dword⟩⟩
  case setp =>
    intro cmp o
    exact pred_completesWith h rfl (fun k => by simp only [State.startIssue_rdTy]; exact aluCmp_eq cmp o.ty (rdTy_lt _ _ _ _) (rdTy_lt _ _ _ _))
  case pfn =>
    intro o
    exact pred_completesWith h rfl (fun k => by simp only [State.startIssue_pred]; exact aluPfn_eq _ _ _ _)
  case sel =>
    intro neg q o
    exact ty_completesWith h rfl (fun k => by simp only [State.startIssue_rdTy, State.startIssue_holds, Thread.holds_iff])
  case mov => exact fun o => un_completesWith h rfl (fun k => rfl)
  case lea =>
    intro o
    exact pair_completesWith h rfl (fun k => by simp only [State.startIssue_rd, State.startIssue_rd64]; exact aluLea_eq _ _ _ _)
  case nop => exact fun o => regPlan_completesWith _ _ h rfl (fun k => rfl) (fun _ => List.nodup_nil)
  case imm =>
    intro o A S
    have hS : S < 32 := Nat.mod_lt _ (by decide)
    refine ⟨?add, ?mul, ?and, ?or, ?xor, ?shl, ?shr, ?sar, ?mins, ?minu, ?maxs, ?maxu, ?mov⟩
    case add => exact immOp_completesWith h rfl (fun k => aluAdd_n32 _ _)
    case mul => exact immOp_completesWith h rfl (fun k => aluMul_n32 _ _)
    case and => exact immOp_completesWith h rfl (fun k => ofNat_eq_of_eq_toNat (BitVec.toNat_and _ _).symm)
    case or => exact immOp_completesWith h rfl (fun k => ofNat_eq_of_eq_toNat (BitVec.toNat_or _ _).symm)
    case xor => exact immOp_completesWith h rfl (fun k => ofNat_eq_of_eq_toNat (BitVec.toNat_xor _ _).symm)
    case shl => exact immOp_completesWith h rfl (fun k => aluShl_n32 _ hS)
    case shr => exact immOp_completesWith h rfl (fun k => aluShr_n32 _ hS)
    case sar => exact immOp_completesWith h rfl (fun k => aluSar_i32 _ hS)
    case mins => exact immOp_completesWith h rfl (fun k => aluMin_i32 _ _)
    case minu => exact immOp_completesWith h rfl (fun k => aluMin_n32 _ _)
    case maxs => exact immOp_completesWith h rfl (fun k => aluMax_i32 _ _)
    case maxu => exact immOp_completesWith h rfl (fun k => aluMax_n32 _ _)
    case mov => exact word_completesWith h rfl (fun k => rfl)
  case dword =>
    intro o A
    refine ⟨?mov, ?add, ?and, ?or, ?xor⟩
    all_goals exact dwordOp_completesWith h rfl (fun k => rfl)

end Sys2Proof.Machine

/-! ## Moves that touch no register, and the commit of a group's results -/

namespace Sys2Proof.Machine

/-! ### What stands -/

section Standing

variable {s t a b : State} {f : Focus} {i : Instr} {e : Nat → Eff}

/-- A reading that looks at none of the lists that `Kept` lets differ. -/
theorem Kept.field (h : Kept s t) {α : Type} (g : State → α)
    (hg : ∀ x th w tm c n l, g { x with threads := th, warps := w, teams := tm, cores := c, fresh := n, tlb := l } = g x) : g t = g s :=
  (congrArg g h.rest).trans (hg s _ _ _ _ _ _)

theorem Kept.ctxs (h : Kept s t) : t.ctxs = s.ctxs := h.field State.ctxs (fun _ _ _ _ _ _ _ => rfl)

theorem Kept.regOf (h : Kept s t) (k : Nat) (r : Reg) : t.regOf k r = s.regOf k r := by
  simp only [State.regOf, h.v, h.w]

theorem Kept.pred (h : Kept s t) (k : Nat) (q : Fin 8) : (t.thread k).pred q = (s.thread k).pred q := by
  simp only [Thread.pred, h.p]

theorem Kept.active (h : Kept s t) (f : Focus) (i : Instr) : t.active f i = s.active f i := by
  simp only [State.active, Thread.holds, h.pred]

theorem Kept.ctxOf_team (h : Kept s t) (u : Nat) : t.ctxOf (t.team u) = s.ctxOf (s.team u) := by
  obtain ⟨_, _, _, _, e1⟩ := h.team u
  simp only [State.ctxOf, State.ctx, h.ctxs, e1]

theorem Kept.sameBytes (h : Kept s t) : SameBytes s t where
  mem key pa := h.field (fun x => x.byteAt key pa) (fun _ _ _ _ _ _ _ => rfl)
  spad u off := by obtain ⟨_, _, _, _, e1⟩ := h.team u; rw [e1]
  l1 c := by obtain ⟨_, e1⟩ := h.core c; rw [e1]

theorem Kept.sameUnits (h : Kept s t) : SameUnits s t where
  xh u := by obtain ⟨_, _, _, _, e1⟩ := h.team u; rw [e1]
  handler u := by obtain ⟨_, _, _, _, e1⟩ := h.team u; rw [e1]
  trap := h.trap
  out := h.out
  wout := h.wout
  ctxs := h.ctxs
  units := ⟨h.field State.copies (fun _ _ _ _ _ _ _ => rfl), h.field State.gadds (fun _ _ _ _ _ _ _ => rfl), h.field State.mops (fun _ _ _ _ _ _ _ => rfl),
    h.field State.rays (fun _ _ _ _ _ _ _ => rfl), h.field State.subs (fun _ _ _ _ _ _ _ => rfl), h.field State.rqs (fun _ _ _ _ _ _ _ => rfl),
    h.field State.launches (fun _ _ _ _ _ _ _ => rfl), h.field State.tokens (fun _ _ _ _ _ _ _ => rfl)⟩
  mod := h.field State.mod (fun _ _ _ _ _ _ _ => rfl)

theorem SameBytes.trans (x : SameBytes s a) (y : SameBytes a t) : SameBytes s t where
  mem key pa := (y.mem key pa).trans (x.mem key pa)
  spad u off := (y.spad u off).trans (x.spad u off)
  l1 c := (y.l1 c).trans (x.l1 c)

theorem SameUnits.trans (x : SameUnits s a) (y : SameUnits a t) : SameUnits s t where
  xh u := (y.xh u).trans (x.xh u)
  handler u := (y.handler u).trans (x.handler u)
  trap k := (y.trap k).trans (x.trap k)
  out k := (y.out k).trans (x.out k)
  wout w := (y.wout w).trans (x.wout w)
  ctxs := y.ctxs.trans x.ctxs
  units := by
    obtain ⟨x1, x2, x3, x4, x5, x6, x7, x8⟩ := x.units
    obtain ⟨y1, y2, y3, y4, y5, y6, y7, y8⟩ := y.units
    exact ⟨y1.trans x1, y2.trans x2, y3.trans x3, y4.trans x4, y5.trans x5, y6.trans x6, y7.trans x7, y8.trans x8⟩
  mod := y.mod.trans x.mod

/-- What is written between two moves that touch no register is written by all three together. -/
theorem Wrote.of_kept (before : Kept s a) (w : Wrote a b f i e) (later : Kept b t) : Wrote s t f i e where
  regs k hk p hp := (later.regOf k p.1).trans (w.regs k (by rwa [before.active]) p hp)
  others k r h := (later.regOf k r).trans ((w.others k r (fun j hj => h j (by rwa [before.active] at hj))).trans (before.regOf k r))
  preds k q := by rw [later.pred, w.preds, before.active, before.pred]
  flags k := by rw [later.fx, w.flags, before.active, before.fx]

theorem Kept.uniform (h : Kept s t) (hu : s.Uniform f i e) : t.Uniform f i e := by
  unfold State.Uniform; rw [h.active]; exact hu

/-- A turn that passes on moves two pointers of the core and nothing else. -/
theorem passTurn_l1 (s : State) (team wid c : Nat) : ((s.passTurn team wid).core c).l1 = (s.core c).l1 := by
  unfold State.passTurn
  rw [State.updCore_eq, State.setCore_core_eq]
  split
  · subst_vars; rfl
  · rfl

theorem passTurn_sameBytes (s : State) (team wid : Nat) : SameBytes s (s.passTurn team wid) :=
  ⟨fun _ _ => rfl, fun _ _ => rfl, passTurn_l1 s team wid⟩

theorem passTurn_sameUnits (s : State) (team wid : Nat) : SameUnits s (s.passTurn team wid) :=
  ⟨fun _ => rfl, fun _ => rfl, fun _ => rfl, fun _ => rfl, fun _ => rfl, rfl, ⟨rfl, rfl, rfl, rfl, rfl, rfl, rfl, rfl⟩, rfl⟩

theorem Wrote.passTurn (w : Wrote s t f i e) (team wid : Nat) : Wrote s (t.passTurn team wid) f i e :=
  ⟨w.regs, w.others, w.preds, w.flags⟩

theorem MovedOn.passTurn {words : Nat} (m : MovedOn s t f words) (team wid : Nat) : MovedOn s (t.passTurn team wid) f words :=
  ⟨m.pc, m.rcd, m.count⟩

theorem MovedOn.ticked {words : Nat} (m : MovedOn s t f words) (n : Nat) : MovedOn s { t with fresh := n } f words :=
  ⟨m.pc, m.rcd, m.count⟩

end Standing

/-! ### The commit of a group's results -/

section Commits

variable {s b : State} {f : Focus} {i : Instr} {e : Nat → Eff}

/-- Nothing is outstanding for a group and none of its registers is poisoned: a write is just a write. -/
structure Clear (s : State) (f : Focus) : Prop where
  noOutW : (s.warp (wkey f.team f.wid)).out = []
  noOut : ∀ k ∈ f.threads, (s.thread k).out = []
  noPoison : ∀ k ∈ f.threads, (s.thread k).poison = []

theorem Calm.clear (h : Calm s f) (hb : Kept s b) : Clear b f where
  noOutW := (hb.wout _).trans h.noOutW
  noOut k hk := (hb.out k).trans (h.noOut k hk)
  noPoison k hk := (hb.poison k).trans (h.noPoison k hk)

/-- The results of the active threads, in seat order. -/
def State.results (s : State) (f : Focus) (i : Instr) (e : Nat → Eff) : List Result := (s.active f i).map (fun k => (e k).result k)

/-- The commit of the active threads' results, thread by thread and in the warp. -/
structure Committed (s c : State) (f : Focus) (i : Instr) (e : Nat → Eff) : Prop where
  rest : c = { s with threads := c.threads, warps := c.warps }
  thread : ∀ k ∈ s.active f i, c.thread k = (s.thread k).got ((e k).result k)
  others : ∀ k, k ∉ s.active f i → c.thread k = s.thread k
  warp : c.warp (wkey f.team f.wid) = { s.warp (wkey f.team f.wid) with w := vWrites (s.warp (wkey f.team f.wid)).w (((s.results f i e).head?.map Result.ws).getD []) }
  warps : ∀ w, w ≠ wkey f.team f.wid → c.warp w = s.warp w

theorem Clear.committed (h : Clear s f) (i : Instr) (e : Nat → Eff) : Committed s (s.commit (s.results f i e)) f i e := by
  have ids : (s.results f i e).map Result.k = s.active f i := by simp [State.results, Eff.result, Function.comp_def]
  have nodup : ((s.results f i e).map Result.k).Nodup := by rw [ids]; exact (Focus.threads_nodup f).sublist List.filter_sublist
  have member : ∀ r ∈ s.results f i e, r.k ∈ f.threads := fun r hr => State.active_sub (i := i) (ids ▸ List.mem_map_of_mem hr)
  obtain ⟨rest, thread, others, warp, warps⟩ := commit_calm (s.results f i e) s (wkey f.team f.wid) nodup (fun r hr => Focus.warpOf_threads (member r hr))
    (fun r hr => ⟨h.noOut _ (member r hr), h.noPoison _ (member r hr)⟩) h.noOutW
  refine ⟨rest, fun k hk => thread ((e k).result k) (List.mem_map_of_mem (f := fun k => (e k).result k) hk), fun k hk => others k ?_, warp, warps⟩
  rintro r hr rfl
  exact hk (ids ▸ List.mem_map_of_mem hr)

namespace Committed

variable {c : State}

/-- A field of a thread that is no register, predicate or flag. -/
theorem field (hc : Committed s c f i e) {α : Type} (g : Thread → α) (hv : ∀ th x, g { th with v := x } = g th) (hp : ∀ th x, g { th with p := x } = g th)
    (hf : ∀ th x, g { th with fx := x } = g th) (k : Nat) : g (c.thread k) = g (s.thread k) := by
  by_cases hk : k ∈ s.active f i
  · rw [hc.thread k hk]; exact got_field g hv hp hf _ _
  · rw [hc.others k hk]

theorem stateField (hc : Committed s c f i e) {α : Type} (g : State → α) (hg : ∀ x th w, g { x with threads := th, warps := w } = g x) : g c = g s :=
  (congrArg g hc.rest).trans (hg s _ _)

theorem wout (hc : Committed s c f i e) (w : Nat) : (c.warp w).out = (s.warp w).out := by
  by_cases hw : w = wkey f.team f.wid
  · rw [hw, hc.warp]
  · rw [hc.warps w hw]

/-- Where the active threads agree, the warp's registers take what any of them writes. -/
theorem warp_of_active (hc : Committed s c f i e) (hu : s.Uniform f i e) {k : Nat} (hk : k ∈ s.active f i) :
    (c.warp (wkey f.team f.wid)).w = vWrites (s.warp (wkey f.team f.wid)).w ((e k).regs.filter (fun p => p.1.1)) := by
  rw [hc.warp]
  cases ha : s.active f i with
  | nil => rw [ha] at hk; cases hk
  | cons j js =>
    have hj : j ∈ s.active f i := by rw [ha]; exact List.mem_cons_self
    have hr : (s.results f i e).head? = some ((e j).result j) := by simp [State.results, ha]
    rw [hr]
    exact congrArg (vWrites _) (hu j hj k hk)

theorem warp_of_no_active (hc : Committed s c f i e) (ha : s.active f i = []) : (c.warp (wkey f.team f.wid)).w = (s.warp (wkey f.team f.wid)).w := by
  rw [hc.warp]
  simp [State.results, ha, vWrites]

end Committed

/-- Registers of one file that a list of writes names, each named once. -/
theorem nodup_file {regs : List (Reg × W32)} (h : (regs.map Prod.fst).Nodup) (file : Bool) : ((regs.filter (fun p => p.1.1 == file)).map (fun p => p.1.2)).Nodup := by
  rw [List.nodup_iff_pairwise_ne, List.pairwise_map] at h ⊢
  refine (h.filter _).imp_of_mem (fun {p q} hp hq hne heq => hne (Prod.ext ?_ heq))
  rw [eq_of_beq (List.mem_filter.1 hp).2, eq_of_beq (List.mem_filter.1 hq).2]

theorem get_vWrites_file {regs : List (Reg × W32)} (h : (regs.map Prod.fst).Nodup) (v : Tbl 32) {file : Bool} {n : Nat} {x : W32} (hp : ((file, n), x) ∈ regs) :
    Tbl.get (vWrites v (regs.filter (fun p => p.1.1 == file))) n = x :=
  get_vWrites_mem v _ (nodup_file h file) ((file, n), x) (List.mem_filter.2 ⟨hp, beq_self_eq_true file⟩)

theorem get_vWrites_unnamed {regs : List (Reg × W32)} (v : Tbl 32) {file : Bool} {n : Nat} (h : ∀ p ∈ regs, p.1 ≠ (file, n)) :
    Tbl.get (vWrites v (regs.filter (fun p => p.1.1 == file))) n = Tbl.get v n := by
  refine get_vWrites_ne v _ n (fun p hp hn => ?_)
  obtain ⟨hmem, hfile⟩ := List.mem_filter.1 hp
  exact h p hmem (Prod.ext (eq_of_beq hfile) hn)

theorem filter_file_false (regs : List (Reg × W32)) : regs.filter (fun p => !p.1.1) = regs.filter (fun p => p.1.1 == false) := by simp
theorem filter_file_true (regs : List (Reg × W32)) : regs.filter (fun p => p.1.1) = regs.filter (fun p => p.1.1 == true) := by simp

theorem Committed.wrote {c : State} (hc : Committed s c f i e) (hu : s.Uniform f i e) (hd : ∀ k ∈ s.active f i, ((e k).regs.map Prod.fst).Nodup) : Wrote s c f i e where
  regs k hk := by
    rintro ⟨⟨file, n⟩, x⟩ hp
    cases file with
    | false =>
      simp only [State.regOf, Bool.false_eq_true, if_false, hc.thread k hk, got_v]
      rw [Result.vs, filter_file_false]
      exact get_vWrites_file (hd k hk) _ hp
    | true =>
      simp only [State.regOf, if_true, Focus.warpOf_threads (State.active_sub hk), hc.warp_of_active hu hk]
      rw [filter_file_true]
      exact get_vWrites_file (hd k hk) _ hp
  others k := by
    rintro ⟨file, n⟩ hr
    cases file with
    | false =>
      simp only [State.regOf, Bool.false_eq_true, if_false]
      by_cases hk : k ∈ s.active f i
      · rw [hc.thread k hk, got_v, Result.vs, filter_file_false]
        exact get_vWrites_unnamed _ (hr k hk (by simp))
      · rw [hc.others k hk]
    | true =>
      simp only [State.regOf, if_true]
      by_cases hw : warpOf k = wkey f.team f.wid
      · rw [hw]
        cases ha : s.active f i with
        | nil => rw [hc.warp_of_no_active ha]
        | cons j js =>
          have hj : j ∈ s.active f i := by rw [ha]; exact List.mem_cons_self
          rw [hc.warp_of_active hu hj, filter_file_true]
          exact get_vWrites_unnamed _ (hr j hj (by rw [if_pos rfl, Focus.warpOf_threads (State.active_sub hj), hw]))
      · rw [hc.warps _ hw]
  preds k q := by
    split
    · rename_i hk; rw [hc.thread k hk, got_pred]; rfl
    · rename_i hk; rw [hc.others k hk]
  flags k := by
    split
    · rename_i hk; rw [hc.thread k hk, got_fx]; rfl
    · rename_i hk; rw [hc.others k hk]

theorem Committed.sameBytes {c : State} (hc : Committed s c f i e) : SameBytes s c where
  mem key pa := hc.stateField (fun x => x.byteAt key pa) (fun _ _ _ => rfl)
  spad u off := hc.stateField (fun x => Tbl.get (x.team u).spad off) (fun _ _ _ => rfl)
  l1 n := hc.stateField (fun x => (x.core n).l1) (fun _ _ _ => rfl)

theorem Committed.sameUnits {c : State} (hc : Committed s c f i e) : SameUnits s c where
  xh u := hc.stateField (fun x => (x.team u).xh) (fun _ _ _ => rfl)
  handler u := hc.stateField (fun x => (x.team u).handler) (fun _ _ _ => rfl)
  trap := hc.field Thread.trap (fun _ _ => rfl) (fun _ _ => rfl) (fun _ _ => rfl)
  out := hc.field Thread.out (fun _ _ => rfl) (fun _ _ => rfl) (fun _ _ => rfl)
  wout := hc.wout
  ctxs := hc.stateField State.ctxs (fun _ _ _ => rfl)
  units := by
    have h := hc.stateField (fun x => (x.copies, x.gadds, x.mops, x.rays, x.subs, x.rqs, x.launches, x.tokens)) (fun _ _ _ => rfl)
    simpa only [Prod.mk.injEq] using h
  mod := hc.stateField State.mod (fun _ _ _ => rfl)

end Commits

end Sys2Proof.Machine

/-! ## Convergent instructions: arrival and performance (R141 to R146) -/

namespace Sys2Proof.Machine

/-! ### What a thread reads from its sources -/

section Reads

variable {s t : State} {k : Nat}

/-- A thread's sources read the same in two states. -/
structure ReadsAlike (s t : State) (k : Nat) : Prop where
  readReg : ∀ r, t.readReg k r = s.readReg k r
  special : ∀ x, t.special k x = s.special k x
  clockOf : t.clockOf k = s.clockOf k

theorem ReadsAlike.rd (h : ReadsAlike s t k) (x : Src) : t.rd k x = s.rd k x := by
  cases x <;> simp only [State.rd, h.readReg, h.special]

theorem ReadsAlike.rdAt (h : ReadsAlike s t k) (x : Src) (i : Nat) : t.rdAt k x i = s.rdAt k x i := by
  simp only [State.rdAt, h.readReg]

theorem ReadsAlike.rd64 (h : ReadsAlike s t k) (x : Src) : t.rd64 k x = s.rd64 k x := by
  cases x with
  | sr y => cases y <;> simp only [State.rd64, h.clockOf]
  | _ => simp only [State.rd64, h.rdAt]

theorem ReadsAlike.rdTy (h : ReadsAlike s t k) (ty : Ty) (x : Src) : t.rdTy k ty x = s.rdTy k ty x := by
  simp only [State.rdTy, h.rd, h.rd64]

/-- A register that awaits nothing reads as its value. -/
theorem readReg_settled (ho : (s.thread k).out = []) (hw : (s.warp (warpOf k)).out = []) (r : Reg) : s.readReg k r = s.regOf k r := by
  have none_out : s.outFor k r = [] := by unfold State.outFor; split <;> assumption
  simp only [State.readReg, State.regOf, State.choose, none_out, List.filterMap_nil]

/-- Where nothing is outstanding and no log runs, a thread reads the same as long as its region, its record and its role stand. -/
theorem Kept.readsAlike (h : Kept s t) (ho : (s.thread k).out = []) (hw : (s.warp (warpOf k)).out = []) (unlogged : (s.ctxOf (s.team (teamOf k))).logMode = 0)
    (seq : (t.thread k).seq = (s.thread k).seq) (rcd : (t.thread k).rcd = (s.thread k).rcd) (role : (t.warp (warpOf k)).role = (s.warp (warpOf k)).role) :
    ReadsAlike s t k := by
  have clockOf : t.clockOf k = s.clockOf k := by
    have clock : t.clock = s.clock := h.field State.clock (fun _ _ _ _ _ _ _ => rfl)
    simp only [State.clockOf, h.ctxOf_team, unlogged, clock, if_true]
  have shown : (t.thread k).shown = (s.thread k).shown := by unfold Thread.shown Thread.showsEntry; rw [rcd, h.trap]
  refine ⟨fun r => ?_, fun x => ?_, clockOf⟩
  · rw [readReg_settled ho hw, readReg_settled ((h.out k).trans ho) ((h.wout _).trans hw), h.regOf]
  · obtain ⟨_, _, _, _, team⟩ := h.team (teamOf k)
    simp only [State.special, clockOf, shown, seq, role, team]

end Reads

/-! ### Arrival -/

section Arrival

variable {s a b : State} {f : Focus} {i : Instr}

/-- A thread that stands parked at a convergent instruction with its mask (R142). -/
def Thread.atConv (th : Thread) (m : W32) (i : Instr) : Thread := { th with st := .parked, wait := .conv th.seq m (th.holds (wordHdr i).g) i }

theorem Thread.convWait_atConv (th : Thread) (m : W32) (i : Instr) : (th.atConv m i).convWait = some (th.seq, m, th.holds (wordHdr i).g, i) := rfl

theorem Thread.convWait_of_ready {th : Thread} (h : th.st = .ready) : th.convWait = none := by simp [Thread.convWait, h]

/-- Threads of a list park with one mask. -/
def State.parkAll (s : State) (m : W32) (i : Instr) (ks : List Nat) : State := ks.foldl (fun s k => s.updThread k (fun th => th.atConv m i)) s

theorem State.parkAll_thread (s : State) (m : W32) (i : Instr) (ks : List Nat) (j : Nat) :
    (s.parkAll m i ks).thread j = if j ∈ ks then (s.thread j).atConv m i else s.thread j := by
  induction ks generalizing s with
  | nil => rfl
  | cons k ks ih =>
    refine (ih (s.updThread k (fun th => th.atConv m i))).trans ?_
    by_cases h : j = k
    · subst h; simp [Thread.atConv, Thread.holds, Thread.pred]
    · simp [State.updThread_thread_ne s _ h, h]

theorem State.parkAll_only (s : State) (m : W32) (i : Instr) (ks : List Nat) : OnlyThreads s (s.parkAll m i ks) := by
  induction ks generalizing s with
  | nil => exact OnlyThreads.refl s
  | cons k ks ih => exact (OnlyThreads.setThread s k _).trans (ih _)

theorem State.parkAll_kept (s : State) (m : W32) (i : Instr) (ks : List Nat) : Kept s (s.parkAll m i ks) :=
  Kept.foldl (fun s k => Kept.updThread s k _ rfl) ks s

theorem seatOf_tkey (team wid : Nat) {x : Nat} (h : x < 32) : seatOf (tkey team wid x) = x := by
  simp only [seatOf, tkey]; omega

/-- The threads of a group are those of the seats that its mask names. -/
theorem Focus.mem_threads_iff {f : Focus} {x : Nat} (h : x < 32) : tkey f.team f.wid x ∈ f.threads ↔ f.group.getLsbD x = true := by
  simp only [Focus.threads, seats, List.mem_map, List.mem_filter, List.mem_range, tkey]
  constructor
  · rintro ⟨y, ⟨_, hy⟩, e⟩
    rwa [show x = y by omega]
  · exact fun hx => ⟨x, ⟨h, hx⟩, rfl⟩

theorem Focus.tkey_seatOf {f : Focus} {k : Nat} (h : k ∈ f.threads) : tkey f.team f.wid (seatOf k) = k := by
  obtain ⟨x, hx, rfl⟩ := Focus.mem_threads h
  rw [seatOf_tkey _ _ hx]

theorem seatOf_lt (k : Nat) : seatOf k < 32 := Nat.mod_lt _ (by decide)

theorem Focus.named {f : Focus} {k : Nat} (h : k ∈ f.threads) : f.group.getLsbD (seatOf k) = true := by
  rw [← Focus.mem_threads_iff (seatOf_lt k), Focus.tkey_seatOf h]; exact h

/-- Some threads of the group have parked at the instruction, the others of it have only started it. -/
structure Arriving (s a : State) (f : Focus) (i : Instr) : Prop where
  only : OnlyThreads s a
  kept : Kept s a
  group : ∀ k ∈ f.threads, a.thread k = (s.thread k).started ∨ a.thread k = (s.thread k).started.atConv f.group i
  others : ∀ k, k ∉ f.threads → a.thread k = s.thread k

theorem Arriving.start (s : State) (f : Focus) (i : Instr) : Arriving s (s.startIssue f.threads) f i where
  only := State.startIssue_rest s _
  kept := Kept.startIssue s _
  group k hk := by rw [State.startIssue_thread, if_pos hk]; exact Or.inl rfl
  others k hk := by rw [State.startIssue_thread, if_neg hk]

theorem Arriving.parkAll (h : Arriving s a f i) {ks : List Nat} (hks : ∀ k ∈ ks, k ∈ f.threads) : Arriving s (a.parkAll f.group i ks) f i where
  only := h.only.trans (State.parkAll_only a _ _ _)
  kept := h.kept.trans (State.parkAll_kept a _ _ _)
  group k hk := by
    rw [State.parkAll_thread]
    split
    · right
      rcases h.group k hk with e1 | e1 <;> rw [e1]
      rfl
    · exact h.group k hk
  others k hk := by rw [State.parkAll_thread, if_neg (fun hm => hk (hks k hm))]; exact h.others k hk

/-- A field of a thread that neither the start nor the parking moves. -/
theorem Arriving.field (h : Arriving s a f i) {α : Type} (g : Thread → α) (hs : ∀ th, g th.started = g th) (hp : ∀ th, g (th.atConv f.group i) = g th) (k : Nat) :
    g (a.thread k) = g (s.thread k) := by
  by_cases hk : k ∈ f.threads
  · rcases h.group k hk with e1 | e1 <;> simp only [e1, hp, hs]
  · rw [h.others k hk]

theorem Arriving.readsAlike (hG : Gathers s f i) (h : Arriving s a f i) {k : Nat} (hk : k ∈ f.threads) : ReadsAlike s a k :=
  h.kept.readsAlike (hG.calm.noOut k hk) (hG.calm.warpOut hk) (by rw [Focus.teamOf_threads hG.calm.wid hk]; exact hG.calm.unlogged)
    (h.field Thread.seq (fun _ => rfl) (fun _ => rfl) k) (h.field Thread.rcd (fun _ => rfl) (fun _ => rfl) k) (by rw [h.only.warp])

theorem Arriving.partMask (hG : Gathers s f i) (h : Arriving s a f i) {k : Nat} (hk : k ∈ f.threads) : a.partMask k i = f.group := by
  have focus : a.focus = some f := (h.kept.field State.focus (fun _ _ _ _ _ _ _ => rfl)).trans hG.calm.focus
  simp only [State.partMask, focus, Option.map_some, Option.getD_some, hG.calm.once, (h.readsAlike hG hk).rd, hG.mask k hk]

/-- Who is parked at the instruction is of the group, and stands there with its mask. -/
theorem Arriving.parkedAt (hG : Gathers s f i) (h : Arriving s a f i) {k : Nat} (hk : k ∈ a.parkedAt (wkey f.team f.wid) f.pc) :
    k ∈ f.threads ∧ a.thread k = (s.thread k).started.atConv f.group i := by
  simp only [State.parkedAt, List.mem_filter, Bool.and_eq_true, decide_eq_true_eq] at hk
  obtain ⟨hw, hwait, hpc⟩ := hk
  by_cases hg : k ∈ f.threads
  · refine ⟨hg, (h.group k hg).resolve_left (fun e1 => ?_)⟩
    have ready : (a.thread k).st = .ready := by rw [e1]; exact (hG.ready k hg).1
    rw [Thread.convWait_of_ready ready] at hwait
    cases hwait
  · rw [h.others k hg] at hwait hpc
    have old : k ∈ s.parkedAt (wkey f.team f.wid) f.pc := by
      simp only [State.parkedAt, List.mem_filter, Bool.and_eq_true, decide_eq_true_eq]
      exact ⟨hw, hwait, hpc⟩
    rw [hG.alone] at old
    cases old

theorem Arriving.not_exited (hG : Gathers s f i) (h : Arriving s a f i) {k : Nat} (hk : k ∈ f.threads) : (a.thread k).st ≠ .exited := by
  rcases h.group k hk with e1 | e1 <;> rw [e1]
  · simp [Thread.started, (hG.ready k hk).1]
  · simp [Thread.atConv]

/-- A thread of the group meets no convergence cause: region and mask agree, no named thread has exited, and the mask names it (R143). -/
theorem Arriving.arrivalReason (hG : Gathers s f i) (h : Arriving s a f i) {k : Nat} (hk : k ∈ f.threads) (guard : Bool) :
    a.arrivalReason (wkey f.team f.wid) f.pc (seatOf k) (s.thread k).seq f.group guard = none := by
  have agree : ∀ x ∈ (a.parkedAt (wkey f.team f.wid) f.pc).filterMap (fun j => (a.thread j).convWait), x.1 = (s.thread k).seq ∧ x.2.1 = f.group := by
    intro x hx
    obtain ⟨j, hj, hxj⟩ := List.mem_filterMap.1 hx
    obtain ⟨hjf, parked⟩ := h.parkedAt hG hj
    rw [parked, Thread.convWait_atConv] at hxj
    cases hxj
    exact ⟨hG.region j hjf k hk, rfl⟩
  have sequence : ((a.parkedAt (wkey f.team f.wid) f.pc).filterMap (fun j => (a.thread j).convWait)).any (fun x => decide (x.1 ≠ (s.thread k).seq)) = false := by
    simp only [List.any_eq_false, decide_eq_true_eq]; exact fun x hx differ => differ (agree x hx).1
  have mask : ((a.parkedAt (wkey f.team f.wid) f.pc).filterMap (fun j => (a.thread j).convWait)).any (fun x => decide (x.2.1 ≠ f.group)) = false := by
    simp only [List.any_eq_false, decide_eq_true_eq]; exact fun x hx differ => differ (agree x hx).2
  have absent : (seats f.group).any (fun j => decide ((a.thread (wkey f.team f.wid * 32 + j)).st = .exited)) = false := by
    simp only [List.any_eq_false, decide_eq_true_eq]
    exact fun j hj => h.not_exited hG (List.mem_map_of_mem hj)
  simp only [State.arrivalReason, Focus.named hk, sequence, mask, absent, Bool.and_false, Bool.not_true, Bool.false_and, Bool.false_eq_true, if_false]

theorem Arriving.convArrive (hG : Gathers s f i) (h : Arriving s a f i) {k : Nat} (hk : k ∈ f.threads) :
    a.convArrive i k f.pc = ([k], a.parkAll f.group i [k]) := by
  have seq : (a.thread k).seq = (s.thread k).seq := h.field Thread.seq (fun _ => rfl) (fun _ => rfl) k
  have reason := h.arrivalReason hG hk ((a.thread k).holds (wordHdr i).g)
  rw [← seq] at reason
  simp only [State.convArrive, Focus.warpOf_threads hk, h.partMask hG hk, reason, Focus.named hk, if_true]
  rfl

theorem Arriving.convArrivals (hG : Gathers s f i) {ks : List Nat} (hks : ∀ k ∈ ks, k ∈ f.threads) (h : Arriving s a f i) :
    State.convArrivals i f.pc a ks = (ks, a.parkAll f.group i ks) := by
  induction ks generalizing a with
  | nil => rfl
  | cons k ks ih =>
    have hk := hks k List.mem_cons_self
    have one := h.parkAll (ks := [k]) (by simpa using hk)
    simp only [State.convArrivals, h.convArrive hG hk, ih (fun j hj => hks j (List.mem_cons_of_mem _ hj)) one]
    rfl

end Arrival

/-! ### The whole group parked -/

section Assembly

variable {s b : State} {f : Focus} {i : Instr}

/-- The whole group stands parked at the instruction with its mask; other threads have at most waited a turn more. -/
structure Assembled (s b : State) (f : Focus) (i : Instr) : Prop where
  kept : Kept s b
  group : ∀ k ∈ f.threads, b.thread k = (s.thread k).started.atConv f.group i
  others : ∀ k, k ∉ f.threads → ∃ n, b.thread k = { s.thread k with waitCount := n }
  role : ∀ w, (b.warp w).role = (s.warp w).role

/-- Every thread of the group has started the instruction and stands parked at it. -/
def State.gathered (s : State) (f : Focus) (i : Instr) : State := (s.startIssue f.threads).parkAll f.group i f.threads

theorem gathered_only (s : State) (f : Focus) (i : Instr) : OnlyThreads s (s.gathered f i) :=
  ((Arriving.start s f i).parkAll (fun _ hk => hk)).only

/-- Once every thread of the group has arrived, it is assembled. -/
theorem Assembled.gathered (s : State) (f : Focus) (i : Instr) : Assembled s (s.gathered f i) f i := by
  have h := (Arriving.start s f i).parkAll (ks := f.threads) (fun _ hk => hk)
  refine ⟨h.kept, fun k hk => ?_, fun k hk => ⟨(s.thread k).waitCount, h.others k hk⟩, fun w => by rw [(gathered_only s f i).warp]⟩
  rw [State.gathered, State.parkAll_thread, if_pos hk, State.startIssue_thread, if_pos hk]

namespace Assembled

/-- A later state whose threads are the same is still assembled. -/
theorem of_threads {c : State} (h : Assembled s b f i) (kept : Kept b c) (threads : ∀ k, c.thread k = b.thread k) (role : ∀ w, (c.warp w).role = (b.warp w).role) :
    Assembled s c f i where
  kept := h.kept.trans kept
  group k hk := (threads k).trans (h.group k hk)
  others k hk := by rw [threads]; exact h.others k hk
  role w := (role w).trans (h.role w)

theorem convWait (h : Assembled s b f i) {k : Nat} (hk : k ∈ f.threads) :
    (b.thread k).convWait = some ((s.thread k).seq, f.group, (s.thread k).holds (wordHdr i).g, i) := by
  rw [h.group k hk]; rfl

/-- A field that neither the start of an instruction nor a wait moves. -/
theorem field (h : Assembled s b f i) {α : Type} (g : Thread → α) (hn : ∀ th n, g { th with waitCount := n } = g th) (hs : ∀ th, g th.started = g th)
    (hp : ∀ th, g (th.atConv f.group i) = g th) (k : Nat) : g (b.thread k) = g (s.thread k) := by
  by_cases hk : k ∈ f.threads
  · rw [h.group k hk, hp, hs]
  · obtain ⟨n, e1⟩ := h.others k hk; rw [e1, hn]

theorem pc (h : Assembled s b f i) (k : Nat) : (b.thread k).pc = (s.thread k).pc := h.field Thread.pc (fun _ _ => rfl) (fun _ => rfl) (fun _ => rfl) k

/-- A place that a thread of the group was not in, and is not in when parked, is as it was. -/
theorem st_iff (hG : Gathers s f i) (h : Assembled s b f i) {x : TState} (hr : x ≠ .ready) (hp : x ≠ .parked) (k : Nat) : (b.thread k).st = x ↔ (s.thread k).st = x := by
  by_cases hk : k ∈ f.threads
  · rw [h.group k hk, (hG.ready k hk).1]
    exact ⟨fun e1 => absurd e1.symm hp, fun e1 => absurd e1.symm hr⟩
  · obtain ⟨n, e1⟩ := h.others k hk; rw [e1]

theorem readsAlike (hG : Gathers s f i) (h : Assembled s b f i) {k : Nat} (hk : k ∈ f.threads) : ReadsAlike s b k :=
  h.kept.readsAlike (hG.calm.noOut k hk) (hG.calm.warpOut hk) (by rw [Focus.teamOf_threads hG.calm.wid hk]; exact hG.calm.unlogged)
    (h.field Thread.seq (fun _ _ => rfl) (fun _ => rfl) (fun _ => rfl) k) (h.field Thread.rcd (fun _ _ => rfl) (fun _ => rfl) (fun _ => rfl) k) (h.role _)

/-- Every named thread stands there with one region and one mask, so the instruction can be performed (R142). -/
theorem convReady (hG : Gathers s f i) (h : Assembled s b f i) {k : Nat} (hk : k ∈ f.threads) : b.convReady (wkey f.team f.wid) f.pc f.group (s.thread k).seq = true := by
  simp only [State.convReady, List.all_eq_true]
  intro x hx
  have hxf : wkey f.team f.wid * 32 + x ∈ f.threads := List.mem_map_of_mem hx
  rw [h.convWait hxf, h.pc, (hG.ready _ hxf).2, hG.region _ hxf k hk]
  simp

theorem parkedAt (h : Assembled s b f i) (hG : Gathers s f i) {k : Nat} : k ∈ b.parkedAt (wkey f.team f.wid) f.pc ↔ k ∈ f.threads := by
  simp only [State.parkedAt, List.mem_filter, Bool.and_eq_true, decide_eq_true_eq]
  constructor
  · rintro ⟨hw, hwait, hpc⟩
    refine Decidable.byContradiction (fun hk => ?_)
    obtain ⟨n, e1⟩ := h.others k hk
    rw [e1] at hwait hpc
    have old : k ∈ s.parkedAt (wkey f.team f.wid) f.pc := by
      simp only [State.parkedAt, List.mem_filter, Bool.and_eq_true, decide_eq_true_eq]
      exact ⟨hw, hwait, hpc⟩
    rw [hG.alone] at old
    cases old
  · intro hk
    exact ⟨warpThreads_mem hk, by rw [h.convWait hk]; rfl, (h.pc k).trans (hG.ready k hk).2⟩

/-- The one found parked first is of the group. -/
theorem parkedAt_head (hG : Gathers s f i) (h : Assembled s b f i) : ∃ k ∈ f.threads, (b.parkedAt (wkey f.team f.wid) f.pc).head? = some k := by
  obtain ⟨k0, hk0⟩ := List.exists_mem_of_ne_nil _ hG.calm.some
  cases hp : b.parkedAt (wkey f.team f.wid) f.pc with
  | nil => rw [← h.parkedAt hG, hp] at hk0; cases hk0
  | cons k ks => exact ⟨k, (h.parkedAt hG).1 (by rw [hp]; exact List.mem_cons_self), rfl⟩

/-- The instruction can be performed, so there is no stall (R144). -/
theorem stallCheck (hG : Gathers s f i) (h : Assembled s b f i) : b.stallCheck (wkey f.team f.wid) = b := by
  obtain ⟨k, hk⟩ := List.exists_mem_of_ne_nil _ hG.calm.some
  have parked : (b.thread k).st = .parked := by rw [h.group k hk]; rfl
  have can : b.convStalled (wkey f.team f.wid) = false := by
    simp only [State.convStalled, Bool.and_eq_false_iff, List.all_eq_false]
    refine Or.inr ⟨k, List.mem_filter.2 ⟨warpThreads_mem hk, by rw [parked]; rfl⟩, ?_⟩
    rw [h.convWait hk, h.pc, (hG.ready k hk).2]
    simp [h.convReady hG hk]
  simp only [State.stallCheck, can, Bool.false_eq_true, if_false]

theorem allArrived (hG : Gathers s f i) (h : Assembled s b f i) (w : Nat) (H : W64) : b.allArrived w H = s.allArrived w H := by
  have stack : ∀ k, (b.thread k).stack = (s.thread k).stack := h.field Thread.stack (fun _ _ => rfl) (fun _ => rfl) (fun _ => rfl)
  simp only [State.allArrived, stack, h.pc, h.st_iff hG (x := .exited) (by decide) (by decide), h.st_iff hG (x := .reconverging) (by decide) (by decide)]

theorem releasable (hG : Gathers s f i) (h : Assembled s b f i) (w : Nat) : b.releasable w = s.releasable w := by
  simp only [State.releasable, h.pc, h.allArrived hG, h.st_iff hG (x := .reconverging) (by decide) (by decide)]

/-- Nobody is switch-parked and no header can be released: the end of an instruction moves nothing more. -/
theorem settleSwitch (hG : Gathers s f i) (h : Assembled s b f i) : b.settleSwitch (wkey f.team f.wid) = b := by
  have stay : (warpThreads (wkey f.team f.wid)).foldl (fun s k => s.leaveSwitch k) b = b := by
    refine foldl_id _ _ (fun k hk => ?_)
    have hs : (b.thread k).st ≠ .switchParked := fun e1 => hG.noSwitch k hk ((h.st_iff hG (by decide) (by decide) k).1 e1)
    simp only [State.leaveSwitch, hs, false_and, if_false]
  have none_due : b.releasable (wkey f.team f.wid) = none := (h.releasable hG _).trans hG.noRelease
  simp only [State.settleSwitch, stay, State.releaseAll, State.releaseFuel, none_due]

/-- Those write whose guard was true when they arrived. -/
theorem convWriters (h : Assembled s b f i) : b.convWriters (wkey f.team f.wid) f.group = s.active f i := by
  refine List.filter_congr (fun k hk => ?_)
  rw [h.convWait (f := f) hk]

end Assembled

/-! ### The issue of a convergent instruction -/

/-- Where every thread is concerned and no check fails, all perform. -/
theorem gates_every (p : Plan Unit) (checked : Bool) (hp : p.check = noCheck) (s : State) (ks : List Nat) (he : ∀ k ∈ ks, p.every s k = true)
    (h : ∀ k ∈ ks, (s.thread k).out = [] ∧ (s.warp (warpOf k)).out = [] ∧ (s.thread k).win = none ∧ (s.thread k).poison = []) :
    p.gates checked s ks = ([], ks.map (fun k => (k, ())), s) := by
  induction ks with
  | nil => rfl
  | cons k ks ih =>
    obtain ⟨out, wout, win, poison⟩ := h k List.mem_cons_self
    have concerned : ((s.thread k).holds (wordHdr p.ins).g || p.every s k) = true := by rw [he k List.mem_cons_self, Bool.or_true]
    have go : p.gate checked s k = (.go (), s) := gate_ok p checked out wout win concerned (by rw [hp]; rfl) poison
    simp only [Plan.gates, go, ih (fun j hj => he j (List.mem_cons_of_mem _ hj)) (fun j hj => h j (List.mem_cons_of_mem _ hj)), List.map_cons]

/-- An instruction has counted for its team and its warp (R316). -/
def State.counted (s : State) (f : Focus) : State :=
  (s.updTeam f.team (fun t => { t with tcount := t.tcount + 1 })).updWarp (wkey f.team f.wid) (fun w => { w with issued := w.issued + 1 })

theorem counted_thread (s : State) (f : Focus) (k : Nat) : (s.counted f).thread k = s.thread k := rfl

theorem countIssue_eq (s : State) (f : Focus) (i : Instr) (g : List Nat) (once : f.again = false) (noWin : ∀ k ∈ g, (s.thread k).win = none) :
    s.countIssue f i g = s.counted f := by
  unfold State.countIssue
  rw [once]
  dsimp only
  simp only [Bool.false_eq_true, if_false]
  split
  · rfl
  · refine foldl_id _ _ (fun k hk => ?_)
    have closed : ((s.counted f).thread k).win.isSome = false := by rw [counted_thread, noWin k hk]; rfl
    exact if_neg (ne_true_of_eq_false closed)

theorem counted_kept (s : State) (f : Focus) : Kept s (s.counted f) := (Kept.setTeam s _ _ ⟨_, _, _, _, rfl⟩).trans (Kept.updWarp _ _ _ rfl)

theorem counted_warp (s : State) (f : Focus) (w : Nat) : ∃ n, (s.counted f).warp w = { s.warp w with issued := n } := by
  unfold State.counted
  rw [State.updWarp_eq, State.setWarp_warp_eq]
  split
  · subst_vars; exact ⟨_, rfl⟩
  · exact ⟨(s.warp w).issued, rfl⟩

theorem counted_role (s : State) (f : Focus) (w : Nat) : ((s.counted f).warp w).role = (s.warp w).role := by
  obtain ⟨n, warp⟩ := counted_warp s f w
  rw [warp]

theorem counted_team (s : State) (f : Focus) : (s.counted f).team f.team = { s.team f.team with tcount := (s.team f.team).tcount + 1 } := by
  simp only [State.counted, State.updWarp_team, State.updTeam_team]

theorem counted_warpRuns (s : State) (f : Focus) (hw : f.wid < 32) : (s.counted f).warpRuns (wkey f.team f.wid) = s.warpRuns (wkey f.team f.wid) := by
  obtain ⟨n, warp⟩ := counted_warp s f (wkey f.team f.wid)
  have team : wkey f.team f.wid / 32 = f.team := by simp only [wkey]; omega
  simp only [State.warpRuns, team, warp, counted_team]

/-- The team's count orders no warps: no log of its own does, and the other teams are as they were. -/
theorem counted_ordered {s : State} {f : Focus} {core : Nat} (unlogged : (s.ctxOf (s.team f.team)).logMode = 0) (h : s.ordered core = false) : (s.counted f).ordered core = false := by
  simp only [State.ordered, List.any_eq_false] at h ⊢
  intro p hp
  rcases Assoc.mem_put hp with rfl | hp
  · have free : ((s.counted f).ctxOf { s.team f.team with tcount := (s.team f.team).tcount + 1 }).logMode = 0 := unlogged
    rw [free]
    simp
  · exact h p hp

/-- The end of an instruction at which the whole group stays. -/
theorem finish_stay (f : Focus) (i : Instr) (done : W32) (x : State) (n : Nat) (once : f.again = false) (noWin : ∀ k ∈ f.threads, (x.thread k).win = none)
    (runs : (x.team f.team).life ≠ .debugHalted) :
    finish f i 1 f.threads done [] { s := { x with fresh := n }, stay := f.threads } = (State.counted { x with fresh := n } f).settleSwitch (wkey f.team f.wid) := by
  have life : ((State.counted { x with fresh := n } f).team f.team).life ≠ .debugHalted := by rw [counted_team]; exact runs
  have nobody : f.threads.filter (fun k => !f.threads.contains k) = [] := by simp
  unfold finish
  simp only [againDone_not once, countIssue_eq { x with fresh := n } f i f.threads once noWin, life, if_false, List.append_nil, List.nil_append, List.map_nil, State.recordAll, List.foldl_nil, nobody, id]

/-- A turn's count moves what its warp has had, and the waits of threads that are ready. -/
theorem countTurn_kept (s : State) (team wid : Nat) (g : List Nat) : Kept s (s.countTurn team wid g) := by
  unfold State.countTurn
  refine (Kept.updWarp s _ _ rfl).trans (Kept.foldl (fun s k => ?_) _ _)
  split
  · exact Kept.refl s
  · exact Kept.updThread s k _ rfl

end Assembly

section Performance

variable {s t b : State} {f : Focus} {i : Instr} {e : Nat → Eff}

theorem Assembled.counted (h : Assembled s b f i) (n : Nat) : Assembled s (State.counted { b with fresh := n } f) f i :=
  h.of_threads ((Kept.start b n b.tlb).trans (counted_kept _ f)) (fun _ => rfl) (fun w => counted_role { b with fresh := n } f w)

/-- The state after the arrival of the whole group: the instruction has counted. -/
def State.arrived (s : State) (f : Focus) (i : Instr) : State := State.counted { s.gathered f i with fresh := s.fresh + 1 } f

theorem Assembled.after_arrival (s : State) (f : Focus) (i : Instr) : Assembled s (s.arrived f i) f i :=
  (Assembled.gathered s f i).counted _

/-- What the arrival of the whole group does: its threads park and stay, and no stall arises. -/
theorem convPlan_act (hG : Gathers s f i) :
    (convPlan i).act f (s.startIssue f.threads) (f.threads.map (fun k => (k, ()))) = { s := s.gathered f i, stay := f.threads } := by
  have ids : (f.threads.map (fun k => (k, ()))).map Prod.fst = f.threads := by simp [Function.comp_def]
  have stall := (Assembled.gathered s f i).stallCheck hG
  have arrivals : State.convArrivals i f.pc (s.startIssue f.threads) f.threads = (f.threads, s.gathered f i) := (Arriving.start s f i).convArrivals hG (fun _ hk => hk)
  simp only [convPlan, ids, arrivals, stall]

theorem convPlan_gates (hG : Gathers s f i) (checked : Bool) :
    (convPlan i).gates checked (s.startIssue f.threads) f.threads = ([], f.threads.map (fun k => (k, ())), s.startIssue f.threads) := by
  have arriving := Arriving.start s f i
  have clear := hG.calm.clear arriving.kept
  refine gates_every _ checked rfl _ _ (fun k hk => ?_) (fun k hk => ⟨clear.noOut k hk, ?_, ?_, clear.noPoison k hk⟩)
  · simp only [convPlan, State.concerns, arriving.partMask hG hk, Focus.named hk, Bool.true_or]
  · rw [Focus.warpOf_threads hk]; exact clear.noOutW
  · exact (arriving.field Thread.win (fun _ => rfl) (fun _ => rfl) k).trans (hG.calm.noWin k hk)

theorem warp_team {team wid : Nat} (h : wid < 32) : wkey team wid / 32 = team := by simp only [wkey]; omega
theorem warp_wid {team wid : Nat} (h : wid < 32) : wkey team wid % 32 = wid := by simp only [wkey]; omega

/-- A team whose warps run is not stopped by the debugger. -/
theorem Gathers.not_debugHalted (hG : Gathers s f i) : (s.team f.team).life ≠ .debugHalted := by
  have runs := hG.runs
  simp only [State.warpRuns, warp_team hG.calm.wid, Bool.and_eq_true] at runs
  intro halted
  rw [halted] at runs
  exact Bool.false_ne_true runs.2

/-- The run of a convergent instruction: every thread of the group arrives and stays. -/
theorem convPlan_run (hG : Gathers s f i) : (convPlan i).run f s = s.arrived f i := by
  have assembled := Assembled.gathered s f i
  have only := gathered_only s f i
  have hits : (s.gathered f i).hits = [] := by rw [only]; exact hG.calm.noHits
  have fresh : (s.gathered f i).fresh = s.fresh := by rw [only]
  have unhit : ({ s.gathered f i with fresh := s.fresh + 1, hits := [] } : State) = { s.gathered f i with fresh := s.fresh + 1 } := by rw [← hits]
  have noWin : ∀ k ∈ f.threads, ((s.gathered f i).thread k).win = none := fun k hk =>
    (assembled.field Thread.win (fun _ _ => rfl) (fun _ => rfl) (fun _ => rfl) k).trans (hG.calm.noWin k hk)
  have everyone : f.threads.filter (fun k => !([] : List Nat).contains k) = f.threads := by simp
  have stays : ∀ done, finish f i 1 f.threads done [] { s := { s.gathered f i with fresh := s.fresh + 1, hits := [] }, stay := f.threads } = s.arrived f i := by
    intro done
    rw [unhit, finish_stay f i done (s.gathered f i) (s.fresh + 1) hG.calm.once noWin (by rw [only.team]; exact hG.not_debugHalted)]
    exact (Assembled.after_arrival s f i).settleSwitch hG
  unfold Plan.run
  simp only [breakAt_none hG.calm.noDebug, Option.isSome_none, Bool.false_eq_true, if_false, everyone, hG.calm.some, List.map_nil, List.append_nil, convPlan_gates hG,
    convPlan_act hG, hits, List.filter_nil, fresh]
  exact stays _

/-- A convergent instruction issued for a group whose whole mask arrives together (R141, R142). -/
theorem convPlan_issue (hG : Gathers s f i) : perform (convPlan i) s = .next (s.arrived f i) := by
  have run := convPlan_run hG
  have missed : ((convPlan i).run f s).missed = none := by
    rw [run]; exact (missed_ctxs (Assembled.after_arrival s f i).kept.ctxs).trans hG.calm.settled
  rw [perform_calm (convPlan i) hG.calm missed, run]

/-! ### The performance -/

theorem arrived_warpRuns (hG : Gathers s f i) : (s.arrived f i).warpRuns (wkey f.team f.wid) = true := by
  refine (counted_warpRuns _ f hG.calm.wid).trans ?_
  rw [gathered_only s f i]
  exact hG.runs

theorem arrived_inOrder (hG : Gathers s f i) : (s.arrived f i).inOrder (wkey f.team f.wid) = true := by
  have core : ((s.arrived f i).team f.team).core = (s.team f.team).core := by
    obtain ⟨_, _, _, _, e1⟩ := (Assembled.after_arrival s f i).kept.team f.team
    rw [e1]
  have unordered : State.ordered { s.gathered f i with fresh := s.fresh + 1 } (s.team f.team).core = false := by
    rw [gathered_only s f i]; exact hG.unordered
  have unlogged : (State.ctxOf { s.gathered f i with fresh := s.fresh + 1 } (State.team { s.gathered f i with fresh := s.fresh + 1 } f.team)).logMode = 0 := by
    rw [gathered_only s f i]; exact hG.calm.unlogged
  have ordered : (s.arrived f i).ordered (s.team f.team).core = false := counted_ordered unlogged unordered
  simp only [State.inOrder, warp_team hG.calm.wid, core, ordered, Bool.not_false, Bool.true_or]

/-- The state in which the performance reads and writes: the turn has counted for the warp. -/
def State.opened (s : State) (f : Focus) (i : Instr) : State := (s.arrived f i).countTurn f.team f.wid []

/-- Every named thread has arrived, so the next issue opportunity performs the instruction (R142). -/
theorem exec_convergentPerform (hG : Gathers s f i) :
    exec (.convergentPerform (wkey f.team f.wid) f.pc) (s.arrived f i) = .next (((s.opened f i).convPerform (wkey f.team f.wid) f.pc f.group i).passTurn f.team f.wid) := by
  have h := Assembled.after_arrival s f i
  obtain ⟨k, hk, head⟩ := h.parkedAt_head hG
  show execConvergentPerform _ _ _ = _
  simp only [execConvergentPerform, head, h.convWait hk, arrived_warpRuns hG, arrived_inOrder hG, h.convReady hG hk, Bool.and_self, if_true, warp_team hG.calm.wid, warp_wid hG.calm.wid]
  rfl

/-- Waiting one turn more. -/
theorem foldl_wait (g : List Nat) (ks : List Nat) (s : State) (j : Nat) :
    ∃ n, (ks.foldl (fun s k => if g.contains k then s else s.updThread k (fun th => { th with waitCount := th.waitCount + 1 })) s).thread j = { s.thread j with waitCount := n } := by
  induction ks generalizing s with
  | nil => exact ⟨(s.thread j).waitCount, rfl⟩
  | cons k ks ih =>
    obtain ⟨n, e1⟩ := ih (if g.contains k then s else s.updThread k (fun th => { th with waitCount := th.waitCount + 1 }))
    refine ⟨n, e1.trans ?_⟩
    split
    · rfl
    · by_cases hj : j = k
      · rw [hj, State.updThread_thread]
      · rw [State.updThread_thread_ne s _ hj]

theorem countTurn_thread (s : State) (team wid : Nat) (g : List Nat) (j : Nat) : ∃ n, (s.countTurn team wid g).thread j = { s.thread j with waitCount := n } := foldl_wait g _ _ j

/-- A thread that is not ready waits no turn. -/
theorem countTurn_thread_of_not_ready (s : State) (team wid : Nat) (g : List Nat) {j : Nat} (h : (s.thread j).st ≠ .ready) : (s.countTurn team wid g).thread j = s.thread j := by
  refine (foldl_other (k := j) (fun s k hk => ?_) _ _ ?_).trans rfl
  · split
    · rfl
    · exact State.updThread_thread_ne s _ hk
  · intro hmem
    exact h (of_decide_eq_true (List.mem_filter.1 hmem).2)

theorem countTurn_role (s : State) (team wid : Nat) (g : List Nat) (w : Nat) : ((s.countTurn team wid g).warp w).role = (s.warp w).role := by
  have turn : ∀ (ks : List Nat) (s : State), ((ks.foldl (fun s k => if g.contains k then s else s.updThread k (fun th => { th with waitCount := th.waitCount + 1 })) s).warp w) = s.warp w := by
    intro ks
    induction ks with
    | nil => exact fun _ => rfl
    | cons k ks ih => exact fun s => (ih _).trans (by dsimp only; split <;> rfl)
  unfold State.countTurn
  refine (congrArg Warp.role (turn _ _)).trans ?_
  rw [State.updWarp_eq, State.setWarp_warp_eq]
  split
  · subst_vars; rfl
  · rfl

theorem countTurn_tcount (s : State) (team wid : Nat) (g : List Nat) (u : Nat) : ((s.countTurn team wid g).team u).tcount = (s.team u).tcount := by
  unfold State.countTurn
  refine foldl_tcount (fun s k => ?_) _ _
  split <;> rfl

theorem Assembled.opened (s : State) (f : Focus) (i : Instr) : Assembled s (s.opened f i) f i := by
  have h := Assembled.after_arrival s f i
  refine ⟨h.kept.trans (countTurn_kept _ _ _ _), fun k hk => ?_, fun k hk => ?_, fun w => (countTurn_role _ _ _ _ w).trans (h.role w)⟩
  · have parked : ((s.arrived f i).thread k).st ≠ .ready := by rw [h.group k hk]; simp [Thread.atConv]
    exact (countTurn_thread_of_not_ready _ _ _ _ parked).trans (h.group k hk)
  · obtain ⟨m, e1⟩ := h.others k hk
    obtain ⟨n, e2⟩ := countTurn_thread (s.arrived f i) f.team f.wid [] k
    exact ⟨n, e2.trans (by rw [e1])⟩

theorem opened_tcount (s : State) (f : Focus) (i : Instr) : ((s.opened f i).team f.team).tcount = (s.team f.team).tcount + 1 := by
  refine (countTurn_tcount _ _ _ _ _).trans ?_
  rw [State.arrived, counted_team, gathered_only s f i]
  rfl

/-- A group whose whole mask arrives together parks, and its instruction is then performed from the state in which all stand parked. -/
theorem converges (hG : Gathers s f i) (hx : exec i s = perform (convPlan i) s) {P : State → Prop}
    (hP : P (((s.opened f i).convPerform (wkey f.team f.wid) f.pc f.group i).passTurn f.team f.wid)) : Converges i s f P :=
  ⟨s.arrived f i, _, hx.trans (convPlan_issue hG), fun k hk => by rw [(Assembled.after_arrival s f i).group k hk]; rfl, exec_convergentPerform hG, hP⟩

/-! ### Leaving the instruction -/

theorem Kept.leaveWait (s : State) (k : Nat) (sw : Bool) : Kept s (s.leaveWait k sw) :=
  (Kept.updThread s k (fun th => { th with st := .ready, wait := .none }) rfl).trans (Kept.moveOn _ k 1 sw false none)

theorem leaveWait_other (s : State) {j k : Nat} (sw : Bool) (h : k ≠ j) : (s.leaveWait j sw).thread k = s.thread k :=
  (moveOn_other _ 1 sw false none h).trans (State.updThread_thread_ne s _ h)

theorem leaveWait_tcount (s : State) (k : Nat) (sw : Bool) (u : Nat) : ((s.leaveWait k sw).team u).tcount = (s.team u).tcount :=
  moveOn_tcount _ _ _ _ _ _ _

/-- A thread that leaves its wait inside its block goes on to the next word. -/
theorem leaveWait_thread (s : State) (k : Nat) (sw : Bool) (hi : (s.thread k).after 1 ≠ (s.thread k).nextHeader) :
    (s.leaveWait k sw).thread k = ({ s.thread k with st := .ready, wait := .none, pc := (s.thread k).after 1 } : Thread).mark sw := by
  have inside : ((s.updThread k (fun th => { th with st := .ready, wait := .none })).thread k).after 1 ≠
      ((s.updThread k (fun th => { th with st := .ready, wait := .none })).thread k).nextHeader := by rw [State.updThread_thread]; exact hi
  unfold State.leaveWait State.moveOn
  dsimp only
  rw [if_neg inside, State.setThread_thread, State.updThread_thread]
  rfl

theorem foldl_leaveWait (ks : List Nat) (nodup : ks.Nodup) (sw : Bool) {k : Nat} (hk : k ∈ ks) (s : State) (hi : (s.thread k).after 1 ≠ (s.thread k).nextHeader) :
    (ks.foldl (fun s j => s.leaveWait j sw) s).thread k = ({ s.thread k with st := .ready, wait := .none, pc := (s.thread k).after 1 } : Thread).mark sw := by
  induction ks generalizing s with
  | nil => cases hk
  | cons j ks ih =>
    obtain ⟨fresh, nodup⟩ := List.nodup_cons.1 nodup
    rcases List.mem_cons.1 hk with rfl | hk
    · exact (foldl_other (fun s j hj => leaveWait_other s sw hj) ks _ fresh).trans (leaveWait_thread s k sw hi)
    · have stands := leaveWait_other s sw (show k ≠ j from fun h => fresh (h ▸ hk))
      rw [List.foldl_cons, ih nodup hk _ (by rw [stands]; exact hi), stands]

/-- All threads of a group leave their convergent instruction together (R142). -/
def State.leaveAll (s : State) (f : Focus) (sw : Bool) : State := (f.threads.foldl (fun s k => s.leaveWait k sw) s).settleSwitch (wkey f.team f.wid)

theorem Kept.leaveAll (s : State) (f : Focus) (sw : Bool) : Kept s (s.leaveAll f sw) :=
  (Kept.foldl (fun s k => Kept.leaveWait s k sw) f.threads s).trans (Kept.settleSwitch _ _)

theorem leaveAll_tcount (s : State) (f : Focus) (sw : Bool) (u : Nat) : ((s.leaveAll f sw).team u).tcount = (s.team u).tcount :=
  (settleSwitch_tcount _ _ _).trans (foldl_tcount (fun s k => leaveWait_tcount s k sw u) _ s)

theorem leaveAll_thread (s : State) (f : Focus) (sw : Bool) (h : Clear s f) {k : Nat} (hk : k ∈ f.threads) (hi : s.inside k 1) :
    (s.leaveAll f sw).thread k = { s.thread k with st := .ready, wait := .none, pc := (s.thread k).after 1 } := by
  have left := foldl_leaveWait f.threads (Focus.threads_nodup f) sw hk s hi.1
  have kept := Kept.foldl (fun s k => Kept.leaveWait s k sw) f.threads s
  have wout : (s.warp (warpOf k)).out = [] := by rw [Focus.warpOf_threads hk]; exact h.noOutW
  refine (settleSwitch_thread _ _ k ?_ ((kept.out k).trans (h.noOut k hk)) ((kept.wout _).trans wout) ?_).trans ?_ <;> rw [left]
  · cases sw <;> exact hi.2
  · cases sw
    · exact Or.inl rfl
    · exact Or.inr ⟨rfl, warpThreads_mem hk⟩
  · cases sw <;> rfl

/-! ### Completion -/

/-- An instruction whose performance is the commit of what its writers compute. -/
structure WritesResults (i : Instr) : Prop where
  issue : ∀ s, exec i s = perform (convPlan i) s
  write : ∀ (s : State) w pc rs ws, s.convWrite w pc i rs ws = s.commit rs

/-- The performance writes the results of the active threads, and all threads of the group leave. -/
theorem convPerform_eq (hw : WritesResults i) (h : Assembled s b f i) (hu : s.Uniform f i e)
    (hr : ∀ k ∈ s.active f i, b.convResult (wkey f.team f.wid) f.group i k = (e k).result k) :
    ∃ n, b.convPerform (wkey f.team f.wid) f.pc f.group i = { (b.commit (b.results f i e)).leaveAll f (wordHdr i).sw with fresh := n } := by
  have results : (s.active f i).map (fun k => b.convResult (wkey f.team f.wid) f.group i k) = b.results f i e := by
    rw [State.results, h.kept.active]
    exact List.map_congr_left hr
  have agree : resultsDiffer (b.results f i e) = false := resultsDiffer_uniform i e (h.kept.uniform hu)
  simp only [State.convPerform, h.convWriters, results, agree, Bool.and_false, Bool.false_eq_true, if_false, hw.write]
  exact ⟨_, rfl⟩

/-- The threads of the group that are inside their blocks go on, and the instruction has counted once. -/
theorem movedOn_leaveAll {c : State} {sw : Bool} (h : Assembled s b f i) (hc : Committed b c f i e) (clear : Clear c f)
    (count : (b.team f.team).tcount = (s.team f.team).tcount + 1) : MovedOn s (c.leaveAll f sw) f 1 := by
  have stands : ∀ {α : Type} (g : Thread → α), (∀ th x, g { th with v := x } = g th) → (∀ th x, g { th with p := x } = g th) → (∀ th x, g { th with fx := x } = g th) →
      (∀ th n, g { th with waitCount := n } = g th) → (∀ th, g th.started = g th) → (∀ th, g (th.atConv f.group i) = g th) → ∀ k, g (c.thread k) = g (s.thread k) :=
    fun g hv hp hf hn hs ha k => (hc.field g hv hp hf k).trans (h.field g hn hs ha k)
  have after := stands (fun th => th.after 1) (fun _ _ => rfl) (fun _ _ => rfl) (fun _ _ => rfl) (fun _ _ => rfl) (fun _ => rfl) (fun _ => rfl)
  have next := stands Thread.nextHeader (fun _ _ => rfl) (fun _ _ => rfl) (fun _ _ => rfl) (fun _ _ => rfl) (fun _ => rfl) (fun _ => rfl)
  have block := stands Thread.block (fun _ _ => rfl) (fun _ _ => rfl) (fun _ _ => rfl) (fun _ _ => rfl) (fun _ => rfl) (fun _ => rfl)
  have rcd := stands Thread.rcd (fun _ _ => rfl) (fun _ _ => rfl) (fun _ _ => rfl) (fun _ _ => rfl) (fun _ => rfl) (fun _ => rfl)
  have inside : ∀ k, s.inside k 1 → c.inside k 1 := fun k hi => by simpa only [State.inside, after, next, block] using hi
  refine ⟨fun k hk _ hi => ?_, fun k hk _ hi => ?_, ?_⟩
  · rw [leaveAll_thread c f sw clear hk (inside k hi)]
    exact ⟨rfl, after k, block k⟩
  · rw [leaveAll_thread c f sw clear hk (inside k hi)]
    exact rcd k
  · rw [leaveAll_tcount, ← count]
    exact congrArg Team.tcount (hc.stateField (fun x => x.team f.team) (fun _ _ _ => rfl))

/-- A convergent instruction of a group whose whole mask arrives together writes what its threads compute once all stand parked. -/
theorem convergesWith (hw : WritesResults i) (hG : Gathers s f i) (hd : ∀ k, ((e k).regs.map Prod.fst).Nodup)
    (hr : ∀ k ∈ s.active f i, (s.opened f i).convResult (wkey f.team f.wid) f.group i k = (e k).result k) : ConvergesWith i s f e := by
  intro hu
  have h := Assembled.opened s f i
  have clear := hG.calm.clear h.kept
  have hc := clear.committed i e
  obtain ⟨n, performed⟩ := convPerform_eq hw h hu hr
  refine converges hG (hw.issue s) ?_
  rw [performed]
  have later : Kept ((s.opened f i).commit ((s.opened f i).results f i e)) { ((s.opened f i).commit ((s.opened f i).results f i e)).leaveAll f (wordHdr i).sw with fresh := n } :=
    (Kept.leaveAll _ f _).trans (Kept.start _ n _)
  have clearC : Clear ((s.opened f i).commit ((s.opened f i).results f i e)) f := by
    refine ⟨(hc.wout _).trans clear.noOutW, fun k hk => (hc.sameUnits.out k).trans (clear.noOut k hk), fun k hk => ?_⟩
    exact (hc.field Thread.poison (fun _ _ => rfl) (fun _ _ => rfl) (fun _ _ => rfl) k).trans (clear.noPoison k hk)
  have moved := movedOn_leaveAll (sw := (wordHdr i).sw) h hc clearC (opened_tcount s f i)
  refine ⟨?_, ?_, ?_, ?_⟩
  · exact ((hc.wrote (h.kept.uniform hu) (fun k _ => hd k)).of_kept h.kept later).passTurn _ _
  · exact ((h.kept.sameBytes.trans hc.sameBytes).trans later.sameBytes).trans (passTurn_sameBytes _ _ _)
  · exact ((h.kept.sameUnits.trans hc.sameUnits).trans later.sameUnits).trans (passTurn_sameUnits _ _ _)
  · exact (moved.ticked n).passTurn _ _

end Performance

end Sys2Proof.Machine

/-! ## Cross-thread results (R149 to R152, R354) -/

namespace Sys2Proof.Machine

/-! ### Masks of seats -/

theorem getLsbD_maskOf (xs : List Nat) (n : Nat) : (maskOf xs).getLsbD n = decide (n < 32 ∧ n ∈ xs) := by
  induction xs with
  | nil => simp [maskOf]
  | cons x xs ih =>
    rw [maskOf, BitVec.getLsbD_or, ih, ← BitVec.twoPow_eq, BitVec.getLsbD_twoPow]
    by_cases hx : n = x
    · subst hx; by_cases hn : n < 32 <;> simp [hn]
    · simp [hx, Ne.symm hx]

/-- Different seats have different bits, so their mask is the sum of the bits. -/
theorem maskOf_eq_sum {xs : List Nat} (h : xs.Nodup) : maskOf xs = BitVec.ofNat 32 (xs.map (fun j => 2 ^ j)).sum := by
  induction xs with
  | nil => rfl
  | cons x xs ih =>
    obtain ⟨fresh, nodup⟩ := List.nodup_cons.1 h
    have disjoint : 1#32 <<< x &&& maskOf xs = 0#32 := by
      apply BitVec.eq_of_getLsbD_eq
      intro n _
      rw [BitVec.getLsbD_and, getLsbD_maskOf, ← BitVec.twoPow_eq, BitVec.getLsbD_twoPow]
      by_cases hn : x = n
      · subst hn; simp [fresh]
      · simp [hn]
    have bit : 1#32 <<< x = BitVec.ofNat 32 (2 ^ x) := by rw [← BitVec.twoPow_eq]; exact BitVec.eq_of_toNat_eq (by simp [BitVec.toNat_twoPow])
    rw [maskOf, ← BitVec.add_eq_or_of_and_eq_zero _ _ disjoint, ih nodup, bit, List.map_cons, List.sum_cons, BitVec.ofNat_add]

theorem sum_map_filter (p : Nat → Prop) [DecidablePred p] (g : Nat → Nat) (xs : List Nat) :
    ((xs.filter (fun j => decide (p j))).map g).sum = (xs.map (fun j => if p j then g j else 0)).sum := by
  induction xs with
  | nil => rfl
  | cons x xs ih => by_cases hx : p x <;> simp [hx, ih]

theorem seats_nodup (m : W32) : (seats m).Nodup := List.nodup_range.filter _

/-- The seats of a mask with a property, as a mask. -/
theorem maskOf_filter_seats (m : W32) (p : Nat → Prop) [DecidablePred p] :
    maskOf ((seats m).filter (fun j => decide (p j))) = BitVec.ofNat 32 ((seats m).map (fun j => if p j then 2 ^ j else 0)).sum := by
  rw [maskOf_eq_sum ((seats_nodup m).filter _), sum_map_filter]

/-- Every value is the first one where any two agree. -/
theorem all_eq_head_iff {α : Type} [DecidableEq α] (g : Nat → α) (xs : List Nat) :
    (xs.map g).all (fun v => decide (some v = (xs.map g).head?)) = true ↔ ∀ j ∈ xs, ∀ l ∈ xs, g j = g l := by
  cases xs with
  | nil => simp
  | cons x xs =>
    simp only [List.all_eq_true, List.map_cons, List.head?_cons, Option.some.injEq, decide_eq_true_eq]
    constructor
    · intro h j hj l hl
      exact (h _ (List.mem_map_of_mem (f := g) hj)).trans (h _ (List.mem_map_of_mem (f := g) hl)).symm
    · intro h v hv
      obtain ⟨j, hj, rfl⟩ := List.mem_map.1 (show v ∈ (x :: xs).map g from hv)
      exact h j hj x List.mem_cons_self

/-! ### Exchange seats (R149) -/

/-- The index that an exchange names, before it is held against the seats. -/
def xchIndex (m : XchMode) (seat : Nat) (b : W32) : Int :=
  match m with
  | .abs => b.toNat % 32
  | .rot => (seat + b.toNat) % 32
  | .sh => seat + b.toInt
  | .mir => (BitVec.ofNat 32 seat ^^^ b).toNat

theorem xchSeat_eq (m : XchMode) (seat : Nat) (b : W32) :
    xchSeat m seat b = if 0 ≤ xchIndex m seat b ∧ xchIndex m seat b ≤ 31 then some (xchIndex m seat b).toNat else none := by
  cases m with
  | abs =>
    have h : xchIndex .abs seat b = ((b.toNat % 32 : Nat) : Int) := rfl
    have hr : 0 ≤ ((b.toNat % 32 : Nat) : Int) ∧ ((b.toNat % 32 : Nat) : Int) ≤ 31 := by omega
    rw [h, if_pos hr]; rfl
  | rot =>
    have h : xchIndex .rot seat b = (((seat + b.toNat) % 32 : Nat) : Int) := rfl
    have hr : 0 ≤ (((seat + b.toNat) % 32 : Nat) : Int) ∧ (((seat + b.toNat) % 32 : Nat) : Int) ≤ 31 := by omega
    rw [h, if_pos hr]; rfl
  | sh => rfl
  | mir =>
    have h : xchIndex .mir seat b = ((BitVec.ofNat 32 seat ^^^ b).toNat : Int) := rfl
    have range : (0 ≤ ((BitVec.ofNat 32 seat ^^^ b).toNat : Int) ∧ ((BitVec.ofNat 32 seat ^^^ b).toNat : Int) ≤ 31) ↔ (BitVec.ofNat 32 seat ^^^ b).toNat ≤ 31 := by omega
    simp only [h, range, xchSeat, Int.toNat_natCast]

/-! ### Folds (R98, R152) -/

/-- Twos complement readings add as the words do. -/
theorem aluAdd_word {t : Ty} (h : Ty.width t = 32) (a b : Nat) : aluAdd t a b = (a + b) % 2 ^ 32 := by
  have cong : ∀ x : Nat, (Ty.val t x) % 2 ^ 32 = (x : Int) % 2 ^ 32 := by
    intro x
    unfold Ty.val
    split
    · rw [h]; unfold signedNat; simp only; split <;> omega
    · rfl
  rw [aluAdd, Ty.wrap_eq, h, Int.add_emod, cong, cong, ← Int.add_emod]
  omega

/-- One step of a fold over seats: the sum, the lesser or the greater of two values, in the instruction's type. -/
def seatStep (o : ROp) (n : Nat) (x y : Nat) : Rounded :=
  if o.ty = .f32 then
    (match n with
      | 0 => Fmt.f32.add o.rnd o.ftz x y
      | 1 => Fmt.f32.minmax false o.ftz x y
      | _ => Fmt.f32.minmax true o.ftz x y)
  else
    (match n with
      | 0 => ((x + y) % 2 ^ 32, 0)
      | 1 => (if Ty.val o.ty x ≤ Ty.val o.ty y then x else y, 0)
      | _ => (if Ty.val o.ty x ≥ Ty.val o.ty y then x else y, 0))

theorem foldAdd_eq_seatStep {o : ROp} (h : Ty.width o.ty = 32) : foldAdd o.ty o.rnd o.ftz = seatStep o 0 := by
  funext x y
  rw [foldAdd, aluAdd_word h]; rfl

theorem foldMin_eq_seatStep (o : ROp) : foldMin o.ty o.ftz = seatStep o 1 := rfl

theorem foldMax_eq_seatStep (o : ROp) : foldMax o.ty o.ftz = seatStep o 2 := rfl

/-- The step of a scan by its number. -/
def scanNumber : ScanOp → Nat
  | .add => 0
  | .min => 1
  | .max => 2

theorem scanStep_eq_seatStep {o : ROp} (h : Ty.width o.ty = 32) (op : ScanOp) : scanStep op o = seatStep o (scanNumber op) := by
  cases op with
  | add => exact foldAdd_eq_seatStep h
  | min => exact foldMin_eq_seatStep o
  | max => exact foldMax_eq_seatStep o

/-- What a scan of no seat gives, type by type (R152). -/
def scanStart (op : ScanOp) (t : Ty) : Nat :=
  match op, t with
  | .add, _ => 0
  | .min, .f32 => 0x7F800000
  | .min, .i32 => 0x7FFFFFFF
  | .min, _ => 0xFFFFFFFF
  | .max, .f32 => 0xFF800000
  | .max, .i32 => 0x80000000
  | .max, _ => 0

theorem scanIdentity_eq (op : ScanOp) {t : Ty} (h : t ∈ [Ty.i32, Ty.n32, Ty.f32]) : scanIdentity op t = scanStart op t := by
  simp only [List.mem_cons, List.not_mem_nil, or_false] at h
  rcases h with rfl | rfl | rfl <;> cases op <;> rfl

/-- The step of a reduction. -/
def seatReduce (op : RedOp) (o : ROp) : Nat → Nat → Rounded :=
  match op with
  | .add => seatStep o 0
  | .min => seatStep o 1
  | .max => seatStep o 2
  | .and => fun x y => (x &&& y, 0)
  | .or => fun x y => (x ||| y, 0)
  | .xor => fun x y => (x ^^^ y, 0)

theorem redStep_eq_seatReduce {o : ROp} (h : Ty.width o.ty = 32) (op : RedOp) : redStep op o = seatReduce op o := by
  cases op with
  | add => exact foldAdd_eq_seatStep h
  | min => exact foldMin_eq_seatStep o
  | max => exact foldMax_eq_seatStep o
  | and | or | xor => rfl

/-- The values of an inclusive or an exclusive scan are those of the seats up to, or below, the thread's. -/
theorem scan_filter (exc : Bool) (seat : Nat) (xs : List Nat) :
    xs.filter (fun j => decide (j < seat) || (!exc && decide (j = seat))) = xs.filter (fun j => if exc = true then decide (j < seat) else decide (j ≤ seat)) := by
  refine List.filter_congr (fun j _ => ?_)
  cases exc with
  | true => simp
  | false => rw [Bool.eq_iff_iff]; simp [Nat.le_iff_lt_or_eq]

/-! ### What each thread receives -/

section Receives

variable {s b : State} {f : Focus} {i : Instr}

namespace Assembled

theorem rd_seat (hG : Gathers s f i) (h : Assembled s b f i) {j : Nat} (hj : j ∈ seats f.group) (x : Src) :
    b.rd (wkey f.team f.wid * 32 + j) x = s.rd (tkey f.team f.wid j) x :=
  (h.readsAlike hG (List.mem_map_of_mem hj)).rd x

theorem rdTy_seat (hG : Gathers s f i) (h : Assembled s b f i) {j : Nat} (hj : j ∈ seats f.group) (t : Ty) (x : Src) :
    b.rdTy (wkey f.team f.wid * 32 + j) t x = s.rdTy (tkey f.team f.wid j) t x :=
  (h.readsAlike hG (List.mem_map_of_mem hj)).rdTy t x

theorem map_rd (hG : Gathers s f i) (h : Assembled s b f i) (x : Src) :
    (seats f.group).map (fun j => b.rd (wkey f.team f.wid * 32 + j) x) = (seats f.group).map (fun j => s.rd (tkey f.team f.wid j) x) :=
  List.map_congr_left (fun _ hj => h.rd_seat hG hj x)

/-- The values of some of the named seats, as numbers. -/
theorem map_rd_filter (hG : Gathers s f i) (h : Assembled s b f i) (x : Src) (p : Nat → Bool) :
    ((seats f.group).filter p).map (fun j => (b.rd (wkey f.team f.wid * 32 + j) x).toNat) = ((seats f.group).filter p).map (fun j => (s.rd (tkey f.team f.wid j) x).toNat) :=
  List.map_congr_left (fun _ hj => congrArg BitVec.toNat (h.rd_seat hG (List.mem_filter.1 hj).1 x))

end Assembled

theorem seatOf_mem_seats {k : Nat} (hk : k ∈ f.threads) : seatOf k ∈ seats f.group :=
  List.mem_filter.2 ⟨List.mem_range.2 (seatOf_lt k), Focus.named hk⟩

/-- The seat an exchange takes its value from: the one it names where the mask does too, else the thread's own. -/
def xchFrom (m : XchMode) (M : W32) (seat : Nat) (b : W32) : Nat :=
  if 0 ≤ xchIndex m seat b ∧ xchIndex m seat b ≤ 31 ∧ M.getLsbD (xchIndex m seat b).toNat = true then (xchIndex m seat b).toNat else seat

theorem xchFrom_mem_seats {k : Nat} (hk : k ∈ f.threads) (m : XchMode) (x : W32) : xchFrom m f.group (seatOf k) x ∈ seats f.group := by
  unfold xchFrom
  split
  · rename_i h
    obtain ⟨h0, h31, named⟩ := h
    exact List.mem_filter.2 ⟨List.mem_range.2 (by omega), named⟩
  · exact seatOf_mem_seats hk

theorem convResult_xch {m : XchMode} {o : ROp} (hG : Gathers s f (.xch m o)) (h : Assembled s b f (.xch m o)) {k : Nat} (hk : k ∈ f.threads) :
    b.convResult (wkey f.team f.wid) f.group (.xch m o) k =
      { k := k, dst := dstTy o.ty o.d (s.rdTy (tkey f.team f.wid (xchFrom m f.group (seatOf k) (s.rd k o.b))) o.ty o.a) } := by
  rw [← h.rdTy_seat hG (xchFrom_mem_seats hk m _)]
  simp only [State.convResult, (h.readsAlike hG hk).rd, xchSeat_eq, xchFrom]
  by_cases range : 0 ≤ xchIndex m (seatOf k) (s.rd k o.b) ∧ xchIndex m (seatOf k) (s.rd k o.b) ≤ 31
  · simp only [range, true_and, and_self, if_true]
  · have out : ¬ (0 ≤ xchIndex m (seatOf k) (s.rd k o.b) ∧ xchIndex m (seatOf k) (s.rd k o.b) ≤ 31 ∧
        f.group.getLsbD (xchIndex m (seatOf k) (s.rd k o.b)).toNat = true) := fun x => range ⟨x.1, x.2.1⟩
    rw [if_neg range, if_neg out]

/-- What a vote finds of the values of some seats (R150). -/
def agrHolds (m : AgrMode) (v : Nat → W32) (xs : List Nat) : Bool :=
  match m with
  | .every => decide (∀ j ∈ xs, v j ≠ 0)
  | .some => decide (∃ j ∈ xs, v j ≠ 0)
  | .none => decide (∀ j ∈ xs, v j = 0)
  | .same => decide (∀ j ∈ xs, ∀ l ∈ xs, v j = v l)

theorem convResult_agr {m : AgrMode} {o : ROp} (hG : Gathers s f (.agr m o)) (h : Assembled s b f (.agr m o)) (k : Nat) :
    b.convResult (wkey f.team f.wid) f.group (.agr m o) k =
      { k := k, dst := dstOne o.d (if agrHolds m (fun j => s.rd (tkey f.team f.wid j) o.a) (seats f.group) then 1 else 0) } := by
  cases m with
  | every =>
    simp only [State.convResult, h.map_rd hG, agrHolds, List.all_map, List.all_eq_true, Function.comp_apply, decide_eq_true_eq]
  | some =>
    simp only [State.convResult, h.map_rd hG, agrHolds, List.any_map, List.any_eq_true, Function.comp_apply, decide_eq_true_eq]
  | none =>
    simp only [State.convResult, h.map_rd hG, agrHolds, List.all_map, List.all_eq_true, Function.comp_apply, decide_eq_true_eq]
  | same =>
    simp only [State.convResult, h.map_rd hG, agrHolds, all_eq_head_iff, decide_eq_true_eq]

theorem convResult_bal {o : ROp} (hG : Gathers s f (.bal o)) (h : Assembled s b f (.bal o)) (k : Nat) :
    b.convResult (wkey f.team f.wid) f.group (.bal o) k =
      { k := k, dst := dstOne o.d (BitVec.ofNat 32 ((seats f.group).map (fun j => if s.rd (tkey f.team f.wid j) o.a ≠ 0 then 2 ^ j else 0)).sum) } := by
  have who : (seats f.group).filter (fun j => decide (b.rd (wkey f.team f.wid * 32 + j) o.a ≠ 0)) = (seats f.group).filter (fun j => decide (s.rd (tkey f.team f.wid j) o.a ≠ 0)) :=
    List.filter_congr (fun j hj => by rw [h.rd_seat hG hj])
  simp only [State.convResult, who]
  rw [maskOf_filter_seats]

theorem convResult_matchSeats {all : Bool} {o : ROp} (hG : Gathers s f (.matchSeats all o)) (h : Assembled s b f (.matchSeats all o)) {k : Nat} (hk : k ∈ f.threads) :
    b.convResult (wkey f.team f.wid) f.group (.matchSeats all o) k =
      { k := k, dst := dstOne o.d (if all then (if ∀ j ∈ seats f.group, s.rdTy (tkey f.team f.wid j) o.ty o.a = s.rdTy k o.ty o.a then f.group else 0)
          else BitVec.ofNat 32 ((seats f.group).map (fun j => if s.rdTy (tkey f.team f.wid j) o.ty o.a = s.rdTy k o.ty o.a then 2 ^ j else 0)).sum) } := by
  have who : (seats f.group).filter (fun j => decide (b.rdTy (wkey f.team f.wid * 32 + j) o.ty o.a = b.rdTy k o.ty o.a)) =
      (seats f.group).filter (fun j => decide (s.rdTy (tkey f.team f.wid j) o.ty o.a = s.rdTy k o.ty o.a)) :=
    List.filter_congr (fun j hj => by rw [h.rdTy_seat hG hj, (h.readsAlike hG hk).rdTy])
  simp only [State.convResult, who, List.filter_eq_self, decide_eq_true_eq]
  rw [maskOf_filter_seats]

/-- The first named seat whose guard is true is the lowest active thread's. -/
theorem active_head (s : State) (f : Focus) (i : Instr) :
    (s.active f i).head? = ((seats f.group).find? (fun j => (s.thread (tkey f.team f.wid j)).holds (wordHdr i).g)).map (tkey f.team f.wid) := by
  rw [State.active, Focus.threads, List.head?_filter, List.find?_map]
  rfl

/-- The guard that a thread arrived with, false where it is parked at no convergent instruction. -/
def Thread.convGuard (th : Thread) : Bool :=
  match th.convWait with
  | some x => x.2.2.1
  | none => false

theorem Assembled.convGuard (h : Assembled s b f i) {k : Nat} (hk : k ∈ f.threads) : (b.thread k).convGuard = (s.thread k).holds (wordHdr i).g := by
  rw [Thread.convGuard, h.convWait hk]

theorem map_tkey_eq_some {k : Nat} (hk : k ∈ f.threads) {x : Option Nat} : x.map (tkey f.team f.wid) = some k ↔ x = some (seatOf k) := by
  have injective : Function.Injective (tkey f.team f.wid) := fun p q hpq => by simp only [tkey] at hpq; omega
  have own : (some (seatOf k)).map (tkey f.team f.wid) = some k := congrArg some (Focus.tkey_seatOf hk)
  rw [← own]
  exact (Option.map_injective injective).eq_iff

theorem convResult_elect {o : ROp} (h : Assembled s b f (.elect o)) {k : Nat} (hk : k ∈ f.threads) :
    b.convResult (wkey f.team f.wid) f.group (.elect o) k = { k := k, dst := dstOne o.d (if (s.active f (.elect o)).head? = some k then 1 else 0) } := by
  have first : b.convResult (wkey f.team f.wid) f.group (.elect o) k =
      { k := k, dst := dstOne o.d (if (seats f.group).find? (fun j => (b.thread (tkey f.team f.wid j)).convGuard) = some (seatOf k) then 1 else 0) } := rfl
  have guards : (seats f.group).find? (fun j => (b.thread (tkey f.team f.wid j)).convGuard) =
      (seats f.group).find? (fun j => (s.thread (tkey f.team f.wid j)).holds (wordHdr (.elect o)).g) := by
    rw [← List.head?_filter, ← List.head?_filter, List.filter_congr (fun j hj => h.convGuard (List.mem_map_of_mem hj))]
  simp only [first, guards, active_head, map_tkey_eq_some hk]

/-- The values of named seats as numbers. -/
def State.seatValues (s : State) (f : Focus) (x : Src) (js : List Nat) : List Nat := js.map (fun j => (s.rd (tkey f.team f.wid j) x).toNat)

/-- A fold's value and flags as one thread's effect. -/
def foldEff (d : Src) (r : Rounded) : Eff := { regs := dstOne d (BitVec.ofNat 32 r.1), fx := r.2 }

theorem width_of_mem {t : Ty} (h : t ∈ [Ty.i32, Ty.n32, Ty.f32, Ty.b32]) : Ty.width t = 32 := by
  simp only [List.mem_cons, List.not_mem_nil, or_false] at h
  rcases h with rfl | rfl | rfl | rfl <;> rfl

theorem convResult_scan {op : ScanOp} {exc : Bool} {o : ROp} (hG : Gathers s f (.scan op exc o)) (h : Assembled s b f (.scan op exc o))
    (ht : o.ty ∈ [Ty.i32, Ty.n32, Ty.f32]) (k : Nat) :
    b.convResult (wkey f.team f.wid) f.group (.scan op exc o) k =
      (foldEff o.d (seatFold (scanStart op o.ty) o.ty o.ftz (seatStep o (scanNumber op))
        (s.seatValues f o.a ((seats f.group).filter (fun j => if exc = true then decide (j < seatOf k) else decide (j ≤ seatOf k)))))).result k := by
  have width : Ty.width o.ty = 32 := width_of_mem (List.mem_append_left [Ty.b32] ht)
  simp only [State.convResult, h.map_rd_filter hG, scan_filter, scanStep_eq_seatStep width, scanIdentity_eq op ht]
  rfl

theorem convResult_redw {op : RedOp} {o : ROp} (hG : Gathers s f (.redw op o)) (h : Assembled s b f (.redw op o))
    (ht : o.ty ∈ [Ty.i32, Ty.n32, Ty.f32, Ty.b32]) (k : Nat) :
    b.convResult (wkey f.team f.wid) f.group (.redw op o) k =
      (foldEff o.d (seatFold 0 o.ty o.ftz (seatReduce op o) (s.seatValues f o.a (seats f.group)))).result k := by
  have values : (seats f.group).map (fun j => (b.rd (wkey f.team f.wid * 32 + j) o.a).toNat) = s.seatValues f o.a (seats f.group) :=
    List.map_congr_left (fun _ hj => congrArg BitVec.toNat (h.rd_seat hG hj o.a))
  simp only [State.convResult, values, redStep_eq_seatReduce (width_of_mem ht)]
  rfl

end Receives

/-- Settles O9: the group parks and then performs its instruction together, and what each thread receives is what the rules say of the named seats' values. -/
theorem crossThread : Obligations.CrossThread := by
  unfold Obligations.CrossThread
  refine ⟨fun s f i hG => ⟨?cvg, ?xch, ?agr, ?bal, ?matchSeats, ?elect⟩, fun s f i hG => ⟨?scan, ?redw⟩⟩
  case cvg =>
    rintro o rfl
    exact convergesWith ⟨fun _ => rfl, fun _ _ _ _ _ => rfl⟩ hG (fun _ => List.nodup_nil) (fun _ _ => rfl)
  case xch =>
    rintro m o rfl
    exact convergesWith ⟨fun _ => rfl, fun _ _ _ _ _ => rfl⟩ hG (fun _ => dstTy_nodup _ _ _) (fun k hk => convResult_xch hG (.opened s f _) (State.active_sub hk))
  case agr =>
    rintro m o rfl
    exact convergesWith ⟨fun _ => rfl, fun _ _ _ _ _ => rfl⟩ hG (fun _ => dstOne_nodup _ _) (fun k _ => convResult_agr hG (.opened s f _) k)
  case bal =>
    rintro o rfl
    exact convergesWith ⟨fun _ => rfl, fun _ _ _ _ _ => rfl⟩ hG (fun _ => dstOne_nodup _ _) (fun k _ => convResult_bal hG (.opened s f _) k)
  case matchSeats =>
    rintro all o rfl
    exact convergesWith ⟨fun _ => rfl, fun _ _ _ _ _ => rfl⟩ hG (fun _ => dstOne_nodup _ _) (fun k hk => convResult_matchSeats hG (.opened s f _) (State.active_sub hk))
  case elect =>
    rintro o rfl
    exact convergesWith ⟨fun _ => rfl, fun _ _ _ _ _ => rfl⟩ hG (fun _ => dstOne_nodup _ _) (fun k hk => convResult_elect (.opened s f _) (State.active_sub hk))
  case scan =>
    rintro op exc o rfl ht
    exact convergesWith ⟨fun _ => rfl, fun _ _ _ _ _ => rfl⟩ hG (fun _ => dstOne_nodup _ _) (fun k _ => convResult_scan hG (.opened s f _) ht k)
  case redw =>
    rintro op o rfl ht
    exact convergesWith ⟨fun _ => rfl, fun _ _ _ _ _ => rfl⟩ hG (fun _ => dstOne_nodup _ _) (fun k _ => convResult_redw hG (.opened s f _) ht k)

end Sys2Proof.Machine
